-- ==== Sys2Proof/Word.lean ====
section
/-! DEFINITION. The plainest arithmetic of the model: fields of a number.
Values of registers, memory operands and addresses are natural numbers below a stated power of two;
the spec computes every result exactly and reduces it at the end (R57), and so does the model. -/
namespace Sys2Proof

/-- Bits `[lo + n - 1 : lo]` of `x`. -/
def bits (x lo n : Nat) : Nat := x / 2 ^ lo % 2 ^ n

/-- Bit `i` of `x` as a truth value. -/
def bitAt (x i : Nat) : Bool := x / 2 ^ i % 2 == 1

/-- A truth value as a number. -/
def ofBool (b : Bool) : Nat := if b then 1 else 0

/-- `x` with bits `[lo + n - 1 : lo]` replaced by the low `n` bits of `v`. -/
def setBits (x lo n v : Nat) : Nat := x - bits x lo n * 2 ^ lo + v % 2 ^ n * 2 ^ lo

end Sys2Proof
end

