-- ==== Sys2Proof/Syntax.lean ====
section
/-! DEFINITION. The instructions (R17, R29): one constructor per row of the opcode table.
The first 256 opcodes are words; a word's operands are the fields of its format class.
The remaining rows are the steps of the device's other agents and of the host, with the operands that name them. -/
namespace Sys2Proof

/-- Integer types (R31), in code order. -/
inductive Ty where
  | i64 | n64 | i32 | n32 | i16 | n16 | i8 | n8
  deriving DecidableEq, Repr

/-- Comparison conditions (R32), in code order. -/
inductive Cnd where
  | eq | ne | lt | le | gt | ge | un | ord | tst | ntst
  deriving DecidableEq, Repr

/-- Scopes (R33), in code order. -/
inductive Sco where
  | oct | clu | dev | sys
  deriving DecidableEq, Repr

/-- Access kinds (R34). -/
inductive Kind where
  | weak | strong
  deriving DecidableEq, Repr

/-- Operand formats (R35), in code order. -/
inductive Fmt where
  | t8e0 | t8e1 | t8e2 | t6e0 | t6e1
  | e4m3 | e5m2 | e3m4 | e3m2 | e2m3 | e2m1 | l8
  | i8 | n8 | i4 | n4 | i2 | tern | bin
  | i16 | fp16 | bf16 | fp32 | e8m10
  deriving DecidableEq, Repr

/-- Rounding modes (R18), in code order. -/
inductive Rm where
  | rne | rz | ru | rd | ro
  deriving DecidableEq, Repr

/-- The part of bits [47:32] that every word shares (R11): guard, stall count, last-read marks, cache hint. -/
structure Hdr where
  g  : BitVec 4
  gn : Bool
  sc : BitVec 5
  la : Bool
  lb : Bool
  ch : BitVec 2
  deriving DecidableEq, Repr

/-- Class Z: no operands (R17). -/
structure ZW where
  h : Hdr
  deriving DecidableEq, Repr

/-- Class S: scalar (R17). -/
structure SW where
  h : Hdr
  d : BitVec 8
  a : BitVec 8
  b : BitVec 8
  c : BitVec 8
  ty : Ty
  cnd : Cnd
  mod : BitVec 16
  deriving DecidableEq, Repr

/-- Class I: immediate (R17). -/
structure IW where
  h : Hdr
  d : BitVec 8
  a : BitVec 8
  b : BitVec 8
  imm : BitVec 32
  ty : Ty
  cnd : Cnd
  mod : BitVec 8
  deriving DecidableEq, Repr

/-- Class M: memory (R17). The last byte is register C or the modifier mod8. -/
structure MW where
  h : Hdr
  d : BitVec 8
  a : BitVec 8
  b : BitVec 8
  disp : BitVec 32
  ty : Ty
  sco : Sco
  kind : Kind
  c : BitVec 8
  deriving DecidableEq, Repr

/-- Class B: branch (R17). -/
structure BW where
  h : Hdr
  d : BitVec 8
  a : BitVec 8
  b : BitVec 8
  off : BitVec 32
  mod : BitVec 16
  deriving DecidableEq, Repr

/-- Class V: vector and tile (R17, R224). -/
structure VW where
  h : Hdr
  d : BitVec 8
  a : BitVec 8
  b : BitVec 8
  fa : Fmt
  fd : Fmt
  rm : Rm
  mp : BitVec 3
  zm : Bool
  c : BitVec 8
  mod : BitVec 23
  deriving DecidableEq, Repr

/-- Class J: conjunction engine and asynchronous engines (R17). -/
structure JW where
  h : Hdr
  d : BitVec 8
  a : BitVec 8
  b : BitVec 8
  c : BitVec 8
  e : BitVec 8
  fmt : Fmt
  rm : Rm
  mod : BitVec 24
  deriving DecidableEq, Repr

/-- Class Y: system (R17). -/
structure YW where
  h : Hdr
  d : BitVec 8
  a : BitVec 8
  b : BitVec 8
  mod : BitVec 16
  sr : BitVec 12
  imm : BitVec 20
  deriving DecidableEq, Repr

/-- The structures of R344 in which an error can be found. -/
inductive ErrPlace where
  | registers | l1 | l2Clean | l2Dirty | hbm | scratchpad | accumulator
  deriving DecidableEq, Repr

/-- Why the module removes its own power or loses it (R369). -/
inductive PowerCause where
  | lost
  | overheat (temp : Nat)   -- a die's temperature, in 0.125 °C
  | lowFlow (dl : Nat)      -- the flow, in 0.1 L/min
  | lowInput (mv : Nat)     -- the input voltage, in mV
  deriving DecidableEq, Repr

/-- What the hardware finds at each attempt of a start-up step (R363): per step 0 to 9 whether its normal method and
its alternate pass, the die mask found good by S3 to S5, the mask of good CXL ports, and whether a grandmaster is locked
at S6, with its time; and, in order, whether each flash write of ATTEST until the next start succeeds (R367). -/
structure StartReport where
  normal : List Bool
  alternate : List Bool
  dies : Nat
  ports : Nat
  spanPorts : Nat
  spanDevice : Nat
  ptpLocked : Bool
  ptpTime : Nat
  flash : List Bool
  deriving DecidableEq, Repr

/-- The line that reaches the home slice for request `id`, with the words that a poisoned CXL.mem completion marks (R358). -/
structure FillReport where
  id : Nat
  bad : List Nat
  deriving DecidableEq, Repr

/-- What the power manager measures in a window of 1 ms (R361, R362, R368): the input power, the issue bubbles of each core,
and each die's power in 10 mW. -/
structure WindowReport where
  watts : Nat
  bubbles : Nat
  power : List Nat
  deriving DecidableEq, Repr

/-- One constructor per row of spec/opcode_table.json. A slot is named by `k = 4 * core + slot`, a context by its index,
a pair, octet, cluster or die by its number, a request or an engine command by its id. -/
inductive Instr where
  | ill
  | add (x : SW)
  | addi (x : IW)
  | sub (x : SW)
  | mul (x : SW)
  | mulh (x : SW)
  | div (x : SW)
  | rem (x : SW)
  | mac (x : SW)
  | and (x : SW)
  | or (x : SW)
  | xor (x : SW)
  | andn (x : SW)
  | shl (x : SW)
  | shr (x : SW)
  | sar (x : SW)
  | rotl (x : SW)
  | min (x : SW)
  | max (x : SW)
  | cmp (x : SW)
  | cmpi (x : IW)
  | plog (x : SW)
  | sel (x : SW)
  | mov (x : SW)
  | movi (x : IW)
  | ldlit (x : BW)
  | clz (x : SW)
  | popc (x : SW)
  | bfx (x : IW)
  | bfi (x : IW)
  | lea (x : MW)
  | fold (x : SW)
  | nop (x : ZW)
  | br (x : BW)
  | bri (x : SW)
  | call (x : BW)
  | calli (x : SW)
  | ret (x : ZW)
  | loop (x : BW)
  | rep (x : IW)
  | exit (x : ZW)
  | yield (x : ZW)
  | waitev (x : IW)
  | sleep (x : IW)
  | cometLead (x : YW)
  | cometJoin (x : YW)
  | cometEnd (x : YW)
  | detach (x : BW)
  | rejoin (x : ZW)
  | trap (x : IW)
  | brk (x : IW)
  | assert (x : IW)
  | rte (x : ZW)
  | sysrd (x : YW)
  | syswr (x : YW)
  | time (x : SW)
  | cycles (x : SW)
  | beat (x : ZW)
  | view (x : YW)
  | sbind (x : MW)
  | sunbind (x : SW)
  | sstat (x : SW)
  | ifence (x : ZW)
  | prefi (x : BW)
  | prio (x : IW)
  | slotcfg (x : YW)
  | ld (x : MW)
  | st (x : MW)
  | lds (x : MW)
  | sts (x : MW)
  | ldx (x : MW)
  | stx (x : MW)
  | pf (x : MW)
  | l1inv (x : ZW)
  | l1invr (x : MW)
  | cwait (x : IW)
  | movblk (x : MW)
  | fillblk (x : MW)
  | atomAdd (x : MW)
  | atomMin (x : MW)
  | atomMax (x : MW)
  | atomAnd (x : MW)
  | atomOr (x : MW)
  | atomXor (x : MW)
  | atomXchg (x : MW)
  | atomCas (x : MW)
  | atomInc (x : MW)
  | atomFadd (x : MW)
  | redAdd (x : MW)
  | redMin (x : MW)
  | redMax (x : MW)
  | redLog (x : MW)
  | redFadd (x : MW)
  | capgive (x : MW)
  | captake (x : MW)
  | capq (x : MW)
  | hgive (x : SW)
  | hfree (x : SW)
  | fork (x : MW)
  | join (x : MW)
  | joinm (x : MW)
  | spawn (x : MW)
  | launch (x : MW)
  | taskid (x : SW)
  | stealdom (x : IW)
  | dqstat (x : SW)
  | bari (x : MW)
  | bariFree (x : MW)
  | bara (x : SW)
  | barw (x : SW)
  | semp (x : IW)
  | semw (x : IW)
  | twait (x : IW)
  | tread (x : SW)
  | tset (x : YW)
  | gnode (x : MW)
  | gsub (x : MW)
  | gqry (x : MW)
  | publish (x : MW)
  | subscr (x : MW)
  | stopref (x : MW)
  | refchk (x : MW)
  | settlw (x : IW)
  | evpop (x : SW)
  | evwait (x : IW)
  | evpush (x : SW)
  | qfence (x : MW)
  | dpath (x : SW)
  | pchk (x : SW)
  | wdcfg (x : IW)
  | evcfg (x : YW)
  | vclaim (x : IW)
  | vrel (x : ZW)
  | vreneg (x : SW)
  | vadd (x : VW)
  | vsub (x : VW)
  | vmul (x : VW)
  | vfma (x : VW)
  | vmin (x : VW)
  | vmax (x : VW)
  | vabs (x : VW)
  | vneg (x : VW)
  | vand (x : VW)
  | vor (x : VW)
  | vxor (x : VW)
  | vshl (x : VW)
  | vshr (x : VW)
  | vcmp (x : VW)
  | vsel (x : VW)
  | vmov (x : VW)
  | vbcast (x : VW)
  | vreduce (x : VW)
  | vscan (x : VW)
  | vfmas (x : VW)
  | vmulh (x : VW)
  | vsat (x : VW)
  | vcx (x : VW)
  | vperm (x : VW)
  | vcompr (x : VW)
  | vexpnd (x : VW)
  | viota (x : VW)
  | vrng (x : VW)
  | vmask (x : VW)
  | vcvt (x : VW)
  | vcvts (x : VW)
  | vrnd (x : VW)
  | vclass (x : VW)
  | vexp2 (x : VW)
  | vlog2 (x : VW)
  | vrcp (x : VW)
  | vrsq (x : VW)
  | vsqrt (x : VW)
  | vdiv (x : VW)
  | vsinpi (x : VW)
  | vcospi (x : VW)
  | vtanh (x : VW)
  | vsigm (x : VW)
  | vld (x : VW)
  | vst (x : VW)
  | vldg (x : VW)
  | vstg (x : VW)
  | vldw (x : VW)
  | vstw (x : VW)
  | tld (x : VW)
  | tst (x : VW)
  | ttr (x : VW)
  | tmov (x : VW)
  | tmovTv (x : VW)
  | tmovVt (x : VW)
  | tzero (x : VW)
  | mset (x : VW)
  | mget (x : VW)
  | vpopc (x : VW)
  | vfirst (x : VW)
  | vpack (x : VW)
  | vunpk (x : VW)
  | vlut (x : VW)
  | cjcfg (x : JW)
  | contract (x : JW)
  | drain (x : JW)
  | acclr (x : JW)
  | accst (x : JW)
  | isect (x : JW)
  | union (x : JW)
  | merge (x : JW)
  | isectc (x : JW)
  | mergek (x : JW)
  | kqpush (x : JW)
  | kqstat (x : JW)
  | copy (x : JW)
  | copy2d (x : JW)
  | copyk (x : JW)
  | gather (x : JW)
  | scatter (x : JW)
  | pool (x : JW)
  | smv (x : JW)
  | smvcfg (x : JW)
  | coll (x : JW)
  | rput (x : JW)
  | rget (x : JW)
  | ratom (x : JW)
  | rred (x : JW)
  | pfpool (x : JW)
  | ecancel (x : JW)
  | estat (x : JW)
  | cjsave (x : JW)
  | cjload (x : JW)
  | spillst (x : JW)
  | evrule (x : JW)
  | evruleOff (x : JW)
  | lwadv (x : MW)
  | lwadd (x : MW)
  | lwset (x : MW)
  | lwmax (x : MW)
  | lwarm (x : MW)
  | lwdisarm (x : MW)
  | lwpeek (x : MW)
  | lwcas (x : MW)
  | lwxch (x : MW)
  | lwclr (x : MW)
  | lwstep (x : IW)
  | lwdsc (x : MW)
  | lwtime (x : SW)
  | vlwadv (x : MW)
  | vlwadd (x : MW)
  | lwdom (x : IW)
  | ephstat (x : YW)
  | ctxsave (x : MW)
  | ctxload (x : MW)
  | tlbinv (x : MW)
  | tlbinva (x : YW)
  | fbpop (x : YW)
  | replay (x : YW)
  | pmread (x : YW)
  | eccinj (x : MW)
  | capset (x : MW)
  | semi (x : YW)
  | dqspill (x : MW)
  | sliceq (x : YW)
  | xlate (x : MW)
  | lwscan (x : MW)
  | hcall (x : YW)
  | lawOpPerform (id : Nat)
  | interlockLand (k : Nat)
  | loadLand (k : Nat)
  | storeAck (id : Nat)
  | atomicComplete (id : Nat)
  | lawOpComplete (id : Nat)
  | wcbEntryTimeout (core : Nat)
  | sliceRequest (id : Nat)
  | l2Fill (line : FillReport)
  | l1Fill (id : Nat)
  | cxlCompletion (id : Nat)
  | cxlTimeout (id : Nat)
  | peerInvalidation (line : Nat)
  | spanDeviceLeave (device : Nat)
  | hostBar2Read (addr len : Nat)
  | hostBar2Write (addr : Nat) (bytes : List Nat)
  | bar4Write (off : Nat) (bytes : List Nat)
  | tlbMiss (k granule : Nat)
  | pageWalkEnd (die asid granule : Nat)
  | poisonRead (k addr : Nat)
  | softErrorDetected (place : ErrPlace) (at_ : Nat) (corrected : Bool)
  | ephemerisFire (u : Nat) (place : Nat)
  | eventRecordDeliver (n : Nat)
  | evqRingRefill (k : Nat)
  | eventPortFrame (port : Nat) (frame : List Nat) (fcsOk : Bool)
  | ingestOperation (n : Nat)
  | ptpMessage (port : Nat) (v6 : Bool) (lead : Bool) (offset : Nat) (ppm : Nat) (faster : Bool)
  | ptpDelayReq (port : Nat) (v6 : Bool)
  | gpCommandComplete (id : Nat)
  | gpRowFault (id : Nat)
  | copyComplete (id : Nat)
  | smvComplete (id : Nat)
  | setOpComplete (id : Nat)
  | remoteCommandComplete (id : Nat)
  | collResult (id : Nat) (others : List (List Nat)) (late : Bool)
  | collSwitchTimeout (id : Nat)
  | collRingTimeout (id : Nat)
  | contractPreemptTimeout (k : Nat)
  | tileNotice (n : Nat)
  | fireRetry (cluster idx : Nat)
  | taskStart (k : Nat)
  | stealRound (k : Nat)
  | stealBackoffExpire (k : Nat)
  | stealRequest (k : Nat)
  | joinDecrement (n : Nat)
  | packetParse (c q : Nat)
  | gangPlace (c q : Nat)
  | launchReserveTimeout (c q : Nat)
  | fenceCondition (c q : Nat)
  | gangComplete (gang : Nat)
  | nodeFinish (cluster node : Nat)
  | watchdogExpire (gang : Nat)
  | agingRaise (k : Nat)
  | laneGrant (octet : Nat)
  | semaphoreServe (c pair sem : Nat)
  | waitRelease (k : Nat)
  | cometForm (k : Nat)
  | preemptByClass (c q victim : Nat)
  | stopComplete (c : Nat)
  | create
  | destroy
  | stop
  | stopsave
  | resume
  | kill
  | hostReplay
  | gangres
  | gangkill
  | qreset
  | reply
  | poolmap
  | erxring
  | nring
  | setcap
  | attest
  | fwstage
  | fwcommit
  | epcfg
  | unknownCommand (code : Nat)
  | dbellWrite (c q value size : Nat)
  | fbpophRead (c size : Nat)
  | registerWrite (off value : Nat)
  | powerCapWindow (window : WindowReport)
  | thermalEvent (die temp inlet : Nat)
  | powerLoss (cause : PowerCause)
  | powerOn (report : StartReport)
  | fullService
  | pcieLinkDown
  | nconsWrite (value : Nat)
  | pcieLinkUp
  | spanDeviceJoin (device : Nat)
  | collPartialResult (id : Nat) (others : List (List Nat))
  | powerCapEffecterWrite (watts : Nat)
  deriving DecidableEq, Repr

end Sys2Proof
end

