-- ==== Sys2Proof/WellFormed.lean ====
section
/-! DEFINITION. Legality of a word (R12, R14 to R18, R38): `Instr.wf i` holds when every field of the word `i`
holds a value that its class and its instruction define. The steps of other agents are no words, so none of them is a
legal word. -/
namespace Sys2Proof

/-- What an operand position accepts (R12, R38). -/
inductive Pos where
  /-- unused: the byte is 0x00 -/
  | no
  /-- g0 up to the register named, read (and possibly written) as an operand -/
  | g (hi : Nat)
  /-- a g register that the instruction only writes -/
  | gw (hi : Nat)
  | q | v | t | m
  /-- a stream register s0 to s7 whose elements are popped or appended -/
  | s
  /-- a stream register named without being read -/
  | sw
  /-- a g or a q register -/
  | gq
  /-- the position may also hold 0x00, for no register -/
  | opt (p : Pos)
  /-- a value of the instruction's own -/
  | val (lo hi : Nat)
  deriving DecidableEq, Repr

/-- Does the position accept byte `b`? -/
def Pos.ok : Pos → Nat → Bool
  | .no, b => b == 0
  | .g hi, b => b ≤ hi
  | .gw hi, b => b ≤ hi
  | .q, b => 0x80 ≤ b && b ≤ 0x8F
  | .v, b => 0x40 ≤ b && b ≤ 0x5F
  | .t, b => 0x60 ≤ b && b ≤ 0x6F
  | .m, b => 0x70 ≤ b && b ≤ 0x77
  | .s, b => 0x38 ≤ b && b ≤ 0x3F
  | .sw, b => 0x38 ≤ b && b ≤ 0x3F
  | .gq, b => b ≤ 63 || (0x80 ≤ b && b ≤ 0x8F)
  | .opt p, b => b == 0 || p.ok b
  | .val lo hi, b => lo ≤ b && b ≤ hi

/-- Does the position read a register when it holds byte `b`? A last-read mark is legal only there (R15). -/
def Pos.reads : Pos → Nat → Bool
  | .no, _ => false
  | .gw _, _ => false
  | .sw, _ => false
  | .val _ _, _ => false
  | .opt p, b => b != 0 && p.reads b
  | .g _, _ => true
  | .q, _ => true
  | .v, _ => true
  | .t, _ => true
  | .m, _ => true
  | .s, _ => true
  | .gq, _ => true

/-- Marks and cache hint: a mark needs a position that reads a register (R15), a hint an instruction that accesses
memory through L1 or L2 or commands an engine to do so (R14). -/
def Hdr.ok (h : Hdr) (pa : Pos) (a : Nat) (pb : Pos) (b : Nat) (ch : Bool) : Bool :=
  (!h.la || pa.reads a) && (!h.lb || pb.reads b) && (ch || h.ch == 0)

/-- The same where the encoding table gives the marks as 0. -/
def Hdr.noMarks (h : Hdr) : Bool := !h.la && !h.lb

def Hdr.plain (h : Hdr) : Bool := h.noMarks && h.ch == 0

abbrev allTy : List Ty := [.i64, .n64, .i32, .n32, .i16, .n16, .i8, .n8]
abbrev ty0 : List Ty := [.i64]
abbrev ty64 : List Ty := [.i64, .n64]
abbrev tyAtom : List Ty := [.i64, .n64, .i32, .n32]
abbrev cnd0 : List Cnd := [.eq]
/-- The conditions of an integer comparison (R32). -/
abbrev cndInt : List Cnd := [.eq, .ne, .lt, .le, .gt, .ge, .tst, .ntst]
/-- The conditions of a floating comparison (R60, R228). -/
abbrev cndFlt : List Cnd := [.eq, .ne, .lt, .le, .gt, .ge, .un, .ord]

namespace ZW
def ok (x : ZW) : Bool := x.h.plain
end ZW

namespace SW
def ok (x : SW) (pd pa pb pc : Pos) (ty : List Ty) (cnd : List Cnd) (md : Bool) : Bool :=
  x.h.ok pa x.a.toNat pb x.b.toNat false && pd.ok x.d.toNat && pa.ok x.a.toNat && pb.ok x.b.toNat && pc.ok x.c.toNat
    && ty.contains x.ty && cnd.contains x.cnd && md
/-- The general shape of R58: three g registers, a modifier below `n`. -/
def arith (x : SW) (n : Nat) : Bool :=
  x.ok (.gw 63) (.g 63) (.g 63) .no allTy cnd0 (decide (x.mod.toNat < n))
/-- No type, condition or modifier. -/
def bare (x : SW) (pd pa pb pc : Pos) : Bool := x.ok pd pa pb pc ty0 cnd0 (x.mod == 0)
end SW

namespace IW
def ok (x : IW) (pd pa : Pos) (ty : List Ty) (cnd : List Cnd) (md imm : Bool) : Bool :=
  x.h.ok pa x.a.toNat .no x.b.toNat false && pd.ok x.d.toNat && pa.ok x.a.toNat && x.b == 0
    && ty.contains x.ty && cnd.contains x.cnd && md && imm
def bare (x : IW) (pd pa : Pos) (imm : Bool) : Bool := x.ok pd pa ty0 cnd0 (x.mod == 0) imm
/-- POS and LEN of BFX and BFI (R64). -/
def field (x : IW) : Bool :=
  let i := x.imm.toNat
  bits i 6 2 == 0 && bits i 15 17 == 0 && decide (1 ≤ bits i 8 7) && decide (bits i 0 6 + bits i 8 7 ≤ 64)
/-- N and MIN of VCLAIM (R222). -/
def claim (x : IW) : Bool :=
  let i := x.imm.toNat
  let n := bits i 0 9
  let m := bits i 16 9
  bits i 9 7 == 0 && bits i 25 7 == 0 && n % 16 == 0 && decide (16 ≤ n) && decide (n ≤ 256) && m % 16 == 0 && decide (m ≤ n)
end IW

namespace MW
/-- Scopes and kinds: `ldst` for the accesses of R97, a list of scopes for the others (KIND 0 there, R34). -/
inductive Scope where
  | ldst
  | of (l : List Sco)
  deriving DecidableEq, Repr

def scopeOk (x : MW) : Scope → Bool
  | .ldst => match x.kind with
    | .weak => x.sco == .oct
    | .strong => x.sco == .dev || x.sco == .sys
  | .of l => l.contains x.sco && x.kind == .weak

def ok (x : MW) (pd pa pb : Pos) (ty : List Ty) (sc : Scope) (ch c : Bool) : Bool :=
  x.h.ok pa x.a.toNat pb x.b.toNat ch && pd.ok x.d.toNat && pa.ok x.a.toNat && pb.ok x.b.toNat
    && ty.contains x.ty && x.scopeOk sc && c
/-- No type, scope or hint. -/
def bare (x : MW) (pd pa pb : Pos) (c : Bool) : Bool := x.ok pd pa pb ty0 (.of [.oct]) false c
def disp0 (x : MW) : Bool := x.disp == 0
/-- A hint is legal only off scratchpad (R138, R295). -/
def octCh (x : MW) : Bool := x.h.ch == 0 || x.sco != .oct
/-- Atomics with a result (R295). -/
def atom (x : MW) (pb : Pos) (ty : List Ty) (c : Bool) : Bool :=
  x.ok (.gw 63) (.g 55) pb ty (.of [.oct, .clu, .dev, .sys]) true (x.octCh && c)
/-- Reductions (R295). -/
def red (x : MW) (ty : List Ty) (c : Bool) : Bool :=
  x.ok .no (.g 55) (.g 63) ty (.of [.oct, .clu, .dev, .sys]) true (x.octCh && c)
def w128 (x : MW) : Bool := bitAt x.c.toNat 0
def nr (x : MW) : Bool := bitAt x.c.toNat 1
/-- Law operations with a word as result (R138): `nrOk` where .nr exists. -/
def lawRes (x : MW) (pb : Pos) (nrOk : Bool) : Bool :=
  x.ok (if x.nr then .no else if x.w128 then .gw 62 else .gw 63) (.g 55) pb ty0 (.of [.oct, .dev, .sys]) true
    (x.octCh && decide (x.c.toNat < if nrOk then 4 else 2))
/-- VLWADV and VLWADD (R142). -/
def vlaw (x : MW) (pd : Pos) (c : Pos) : Bool :=
  x.ok pd (.g 55) .v ty0 (.of [.oct, .dev]) true (x.octCh && c.ok x.c.toNat)
/-- The tile instructions (R243). -/
def tile (x : MW) (pd pb : Pos) (c : Bool) : Bool := x.ok pd (.g 55) pb ty0 (.of [.dev]) false c
/-- Three different registers and no marks (R104). -/
def block (x : MW) (c : Bool) : Bool :=
  x.ok (.g 55) (.g 55) (.g 55) ty0 (.of [.oct]) true
    (x.h.noMarks && x.disp0 && x.d != x.a && x.d != x.b && x.a != x.b && c)
end MW

namespace BW
def ok (x : BW) (pd : Pos) (md : Bool) : Bool :=
  x.h.plain && pd.ok x.d.toNat && x.a == 0 && x.b == 0 && md
end BW

namespace VW
/-- Fields of mod23 (R224). -/
def sub (x : VW) : Nat := bits x.mod.toNat 0 4
def sat (x : VW) : Bool := bitAt x.mod.toNat 4
def it (x : VW) : Nat := bits x.mod.toNat 5 2
def imm16 (x : VW) : Nat := bits x.mod.toNat 7 16

abbrev arI : List Fmt := [.i8, .n8, .i16]
abbrev arF : List Fmt := [.fp16, .bf16, .fp32]
abbrev ar : List Fmt := [.i8, .n8, .i16, .fp16, .bf16, .fp32]
/-- The formats of 8, 16 or 32 bits (R224). -/
abbrev m8 : List Fmt := [.t8e0, .t8e1, .t8e2, .e4m3, .e5m2, .e3m4, .l8, .i8, .n8, .i16, .fp16, .bf16, .fp32, .e8m10]

/-- MK and ZM (R36): `all` for a masked instruction, `src` where ZM must be 0, `none` where both are unused. -/
inductive Mask where
  | all | src | none
  deriving DecidableEq, Repr

def maskOk (x : VW) : Mask → Bool
  | .all => true
  | .src => !x.zm
  | .none => !x.zm && x.mp == 0

def ok (x : VW) (pd pa pb pc : Pos) (mask : Mask) (ch f : Bool) : Bool :=
  x.h.ok pa x.a.toNat pb x.b.toNat ch && pd.ok x.d.toNat && pa.ok x.a.toNat && pb.ok x.b.toNat && pc.ok x.c.toNat
    && x.maskOk mask && f

/-- One side's format: in the list, or `.i32` or `.n32` through IT where `it` allows (R224). -/
def fmtOk (x : VW) (f : Fmt) (l : List Fmt) (it : Bool) : Bool :=
  if x.it == 0 then l.contains f else it && x.it != 3 && f == .t8e0
/-- Both sides of an instruction that requires FD = FA. -/
def same (x : VW) (l : List Fmt) (it : Bool) : Bool := x.fmtOk x.fd l it && x.fa == x.fd
def noFmt (x : VW) : Bool := x.fa == .t8e0 && x.fd == .t8e0 && x.it == 0
def noRm (x : VW) : Bool := x.rm == .rne
def floating (x : VW) (f : Fmt) : Bool := x.it == 0 && arF.contains f
/-- SUB, SAT and IMM16 all 0. -/
def noMod (x : VW) : Bool := x.sub == 0 && !x.sat && x.imm16 == 0
/-- SUB below `n`, SAT and IMM16 0. -/
def subMod (x : VW) (n : Nat) : Bool := decide (x.sub < n) && !x.sat && x.imm16 == 0

/-- VADD, VSUB, VMUL (R225): SAT with integers, RM with floats. -/
def addLike (x : VW) : Bool :=
  x.ok .v .v .v .no .all false (x.same ar true && x.sub == 0 && x.imm16 == 0
    && (!x.sat || !x.floating x.fd) && (x.noRm || x.floating x.fd))
/-- Three v registers, no format. -/
def logic (x : VW) (pb pc : Pos) : Bool := x.ok .v .v pb pc .all false (x.noFmt && x.noRm && x.noMod)
/-- The reductions of R229. -/
def reduceOk (x : VW) (imm : Bool) : Bool :=
  imm && (if x.sub ≤ 2 then
      x.same ar true && (!x.sat || !x.floating x.fd) && (x.noRm || (x.sub == 0 && x.floating x.fd))
    else decide (x.sub ≤ 5) && x.noFmt && !x.sat && x.noRm)
/-- The special functions (R231). -/
def special (x : VW) (pb : Pos) (rm : Bool) : Bool :=
  x.ok .v .v pb .no .all false (x.same arF false && x.noMod && (rm || x.noRm))
/-- The conversions (R230): SIDE is SUB bit `side`, the other SUB bits lie below `n`. -/
def conv (x : VW) (pb : Pos) (side n : Nat) : Bool :=
  x.ok .v .v pb .no .all false (decide (x.sub < n) && !x.sat && x.imm16 == 0
    && (if x.it == 0 then !bitAt x.sub side
        else x.it != 3 && (if bitAt x.sub side then x.fa == .t8e0 else x.fd == .t8e0)))
/-- Vector memory (R236): FD in M8; B holds a stride exactly with STRD. -/
def mem (x : VW) (strong ch : Bool) (mask : Mask) : Bool :=
  x.ok .v (.g 63) (if bitAt x.sub 0 then .g 63 else .no) .no mask ch
    (x.fmtOk x.fd m8 true && x.fa == .t8e0 && x.noRm && !x.sat && decide (x.sub < if strong then 4 else 2))
def memX (x : VW) (mask : Mask) : Bool :=
  x.ok .v (.g 63) .v .no mask false (x.fmtOk x.fd m8 true && x.fa == .t8e0 && x.noRm && !x.sat && x.sub == 0)
def tileMem (x : VW) (mask : Mask) : Bool :=
  x.ok .t (.g 63) (.g 63) .no mask false (x.noFmt && x.noRm && !x.sat && x.sub == 0)
/-- No format, rounding or modifier but a SUB below `n`. -/
def plain (x : VW) (pd pa pb pc : Pos) (mask : Mask) (n : Nat) : Bool :=
  x.ok pd pa pb pc mask false (x.noFmt && x.noRm && x.subMod n)
end VW

namespace JW
def ok (x : JW) (pd pa pb pc pe : Pos) (ch f : Bool) : Bool :=
  x.h.ok pa x.a.toNat pb x.b.toNat ch && pd.ok x.d.toNat && pa.ok x.a.toNat && pb.ok x.b.toNat
    && pc.ok x.c.toNat && pe.ok x.e.toNat && f
def bare (x : JW) (pd pa pb pc pe : Pos) (ch md : Bool) : Bool :=
  x.ok pd pa pb pc pe ch (x.fmt == .t8e0 && x.rm == .rne && md)
def setOp (x : JW) (pd : Pos) (n : Nat) : Bool :=
  x.bare pd (.g 55) (.g 55) (.g 55) (.g 55) false (decide (x.mod.toNat < n))
/-- The limits of the accumulator table (R192). -/
def geometry (x : JW) : Bool :=
  let m := x.mod.toNat
  bits m 15 9 == 0 && (match bits m 0 2 with
    | 0 => bits m 2 4 == 15 && decide (bits m 6 6 < 4)
    | 1 => decide (bits m 6 6 < 4)
    | 2 => true
    | _ => false)
/-- OP and TY of RATOM and RRED (R309). -/
def remoteOp (x : JW) (ret : Bool) : Bool :=
  let op := bits x.mod.toNat 0 4
  bits x.mod.toNat 6 18 == 0 && decide (op ≤ 8) && (ret || (op != 6 && op != 7)) && (op != 8 || bits x.mod.toNat 4 2 == 3)
def poolFmts : List Fmt := [.t8e0, .t8e1, .t8e2, .e4m3, .e5m2, .i8, .fp16, .bf16]
end JW

namespace YW
def ok (x : YW) (pd pa : Pos) (md sr imm : Bool) : Bool :=
  x.h.ok pa x.a.toNat .no x.b.toNat false && pd.ok x.d.toNat && pa.ok x.a.toNat && x.b == 0 && md && sr && imm
def bare (x : YW) (pd pa : Pos) (n : Nat) (imm : Bool) : Bool :=
  x.ok pd pa (decide (x.mod.toNat < n)) (x.sr == 0) imm
/-- The assigned system registers (R55 and the chapters it names). -/
def srAssigned (n : Nat) : Bool :=
  decide (n ≤ 3) || (decide (0x10 ≤ n) && decide (n ≤ 0x16)) || (decide (0x20 ≤ n) && decide (n ≤ 0x27))
    || (decide (0x30 ≤ n) && decide (n ≤ 0x3F)) || (decide (0x40 ≤ n) && decide (n ≤ 0x45)) || n == 0x60
    || n == 0x80 || n == 0x81 || (decide (0xA0 ≤ n) && decide (n ≤ 0xA8))
/-- Those with an RW, W1C or WO field (R75): CTXCTL, TVEC, TRET, TS0, TS1, EVQSTAT, PMSEL. -/
def srWritable (n : Nat) : Bool := [0x000, 0x010, 0x012, 0x015, 0x016, 0x026, 0x0A0].contains n
/-- The roles of COMET (R82). -/
def cometOk (x : YW) (role : Nat) : Bool :=
  let m := x.mod.toNat
  bits m 0 2 == role && (match role with
    | 0 => bits m 2 8 != 0 && bits m 10 3 != 7 && bits m 13 3 == 0
    | 1 => bits m 5 11 == 0
    | _ => bits m 2 14 == 0)
def comet (x : YW) (role : Nat) : Bool := x.ok .no .no (x.cometOk role) (x.sr == 0) (x.imm == 0)
end YW

/-- A legal word (R38). -/
def Instr.wf : Instr → Bool
  | .ill => true
  | .add x => x.arith 2
  | .addi x => x.ok (.gw 63) (.g 63) allTy cnd0 (decide (x.mod.toNat < 2)) true
  | .sub x => x.arith 2
  | .mul x => x.arith 2
  | .mulh x => x.arith 1
  | .div x => x.arith 1
  | .rem x => x.arith 1
  | .mac x => x.ok (.gw 63) (.g 63) (.g 63) (.g 63) allTy cnd0 (decide (x.mod.toNat < 2))
  | .and x => x.arith 1
  | .or x => x.arith 1
  | .xor x => x.arith 1
  | .andn x => x.arith 1
  | .shl x => x.arith 1
  | .shr x => x.arith 1
  | .sar x => x.arith 1
  | .rotl x => x.arith 1
  | .min x => x.arith 1
  | .max x => x.arith 1
  | .cmp x => x.ok .q (.g 63) (.g 63) .no (if bitAt x.mod.toNat 0 then ty0 else allTy) (if bitAt x.mod.toNat 0 then cndFlt else cndInt) (decide (x.mod.toNat < 2))
  | .cmpi x => x.ok .q (.g 63) allTy cndInt (x.mod == 0) true
  | .plog x => x.ok .q .q .q .no ty0 cnd0 (decide (x.mod.toNat < 16))
  | .sel x => x.bare (.gw 63) (.g 63) (.g 63) .q
  | .mov x => x.ok .gq .gq .no .no (if x.d.toNat ≤ 63 && x.a.toNat ≤ 63 then allTy else ty0) cnd0 (x.mod == 0)
  | .movi x => x.ok (.gw 63) .no allTy cnd0 (x.mod == 0) true
  | .ldlit x => x.ok (.gw 63) (x.mod == 0)
  | .clz x => x.ok (.gw 63) (.g 63) .no .no allTy cnd0 (x.mod == 0)
  | .popc x => x.ok (.gw 63) (.g 63) .no .no allTy cnd0 (x.mod == 0)
  | .bfx x => x.ok (.gw 63) (.g 63) ty64 cnd0 (x.mod == 0) x.field
  | .bfi x => x.bare (.g 63) (.g 63) x.field
  | .lea x => x.bare (.gw 63) (.g 63) (if bitAt x.c.toNat 3 then .g 63 else .no) (decide (x.c.toNat < 16))
  | .fold x => x.bare (.gw 63) (.g 63) .no .no
  | .nop x => x.ok
  | .br x => x.ok .no (x.mod == 0)
  | .bri x => x.bare .no (.g 63) .no .no
  | .call x => x.ok .no (x.mod == 0)
  | .calli x => x.bare .no (.g 63) .no .no
  | .ret x => x.ok
  | .loop x => x.ok (.g 55) (x.mod == 0)
  | .rep x => x.bare (.g 55) (.g 55) (x.d != x.a)
  | .exit x => x.ok
  | .yield x => x.ok
  | .waitev x => x.ok (.gw 63) (if bitAt x.mod.toNat 0 then .g 63 else .no) ty0 cnd0 (decide (x.mod.toNat < 2)) (decide (x.imm.toNat < 32) && (bitAt x.mod.toNat 0 || x.imm != 0))
  | .sleep x => x.bare .no (.g 63) true
  | .cometLead x => x.comet 0
  | .cometJoin x => x.comet 1
  | .cometEnd x => x.comet 2
  | .detach x => x.ok .no (x.mod == 0)
  | .rejoin x => x.ok
  | .trap x => x.bare .no .no true
  | .brk x => x.bare .no .no true
  | .assert x => x.bare .no .q true
  | .rte x => x.ok
  | .sysrd x => x.ok (.gw 63) .no (x.mod == 0) (YW.srAssigned x.sr.toNat) (x.imm == 0)
  | .syswr x => x.ok .no (if bitAt x.mod.toNat 0 then .no else .g 63) (decide (x.mod.toNat < 2)) (YW.srWritable x.sr.toNat) (bitAt x.mod.toNat 0 || x.imm == 0)
  | .time x => x.bare (.gw 63) .no .no .no
  | .cycles x => x.ok (.gw 63) .no .no .no ty0 cnd0 (decide (x.mod.toNat < 2))
  | .beat x => x.ok
  | .view x => x.bare .no (.g 63) 1 (x.imm == 0) && x.h.noMarks
  | .sbind x => x.ok .sw (.g 55) (.g 55) allTy (.of [.oct]) true (x.h.noMarks && decide (x.c.toNat < 2))
  | .sunbind x => x.bare .sw .no .no .no
  | .sstat x => x.bare (.gw 63) .sw .no .no
  | .ifence x => x.ok
  | .prefi x => x.ok .no (decide (x.mod.toNat < 16))
  | .prio x => x.bare .no .no (decide (x.imm.toNat ≤ 3))
  | .slotcfg x => x.bare .no (.g 63) 1 (decide (x.imm.toNat < 2 ^ 14))
  | .ld x => x.ok (.gw 63) (.g 63) .no allTy .ldst true (x.c == 0)
  | .st x => x.ok .no (.g 63) (.g 63) allTy .ldst true (x.c == 0)
  | .lds x => x.ok (.gw 63) (.g 63) .no allTy (.of [.oct]) false (x.c == 0)
  | .sts x => x.ok .no (.g 63) (.g 63) allTy (.of [.oct]) false (x.c == 0)
  | .ldx x => x.ok (.gw 63) (.g 63) (.g 63) allTy .ldst true (decide (x.c.toNat < 8))
  | .stx x => x.ok (.g 63) (.g 63) (.g 63) allTy .ldst true (decide (x.c.toNat < 8))
  | .pf x => x.ok .no (.g 63) .no ty0 (.of [.oct]) true (decide (x.c.toNat < 2))
  | .l1inv x => x.ok
  | .l1invr x => x.bare .no (.g 63) (.g 63) (x.c == 0)
  | .cwait x => x.bare (.val 0 3) .no (decide (x.imm.toNat ≤ 255))
  | .movblk x => x.block (decide (x.c.toNat < 4))
  | .fillblk x => x.block (x.c == 0 || x.c == 2)
  | .atomAdd x => x.atom (.g 63) tyAtom (x.c == 0)
  | .atomMin x => x.atom (.g 63) tyAtom (x.c == 0)
  | .atomMax x => x.atom (.g 63) tyAtom (x.c == 0)
  | .atomAnd x => x.atom (.g 63) tyAtom (x.c == 0)
  | .atomOr x => x.atom (.g 63) tyAtom (x.c == 0)
  | .atomXor x => x.atom (.g 63) tyAtom (x.c == 0)
  | .atomXchg x => x.atom (.g 63) tyAtom (x.c == 0)
  | .atomCas x => x.atom (.g 63) tyAtom (decide (x.c.toNat ≤ 63))
  | .atomInc x => x.atom .no tyAtom (x.c == 0)
  | .atomFadd x => x.atom (.g 63) [.n32] (x.c == 0)
  | .redAdd x => x.red tyAtom (x.c == 0)
  | .redMin x => x.red tyAtom (x.c == 0)
  | .redMax x => x.red tyAtom (x.c == 0)
  | .redLog x => x.red tyAtom (decide (x.c.toNat < 3))
  | .redFadd x => x.red [.n32] (x.c == 0)
  | .capgive x => x.bare .no (.g 55) (.g 63) (x.c == 0)
  | .captake x => x.bare .no (.g 55) .no (x.c == 0)
  | .capq x => x.bare (.gw 63) (.g 55) .no (x.c == 0)
  | .hgive x => x.bare .no (.g 63) .no .no
  | .hfree x => x.bare .no (.g 63) .no .no
  | .fork x => x.bare (.g 55) (.g 50) (if bitAt x.c.toNat 3 then .no else .g 55) (decide (x.disp.toNat < 128) && decide (x.c.toNat < 16) && (bitAt x.c.toNat 0 || bits x.c.toNat 1 2 == 0))
  | .join x => x.bare .no (.g 55) .no (x.c == 0)
  | .joinm x => x.ok (.gw 63) (.g 55) (.g 55) (if x.c == 1 then ty0 else ty64) (.of [.oct]) false (decide (x.c.toNat < 4))
  | .spawn x => x.bare (if bitAt x.c.toNat 0 then .gw 63 else .no) (.g 55) (.g 55) (decide (x.c.toNat < 2))
  | .launch x => x.bare (.gw 63) (.g 55) .no (decide (x.c.toNat < 16))
  | .taskid x => x.bare (.gw 63) .no .no .no
  | .stealdom x => x.bare .no .no (decide (x.imm.toNat ≤ 5))
  | .dqstat x => x.bare (.gw 63) .no .no .no
  | .bari x => x.bare (.gw 63) (.g 63) .no (x.disp0 && x.c == 0)
  | .bariFree x => x.bare .no (.g 63) .no (x.disp0 && x.c == 1)
  | .bara x => x.bare (.gw 63) (.g 63) .no .no
  | .barw x => x.bare .no (.g 63) (.g 63) .no
  | .semp x => x.bare (.val 0 7) .no (decide (1 ≤ x.imm.toNat) && decide (x.imm.toNat ≤ 255))
  | .semw x => x.bare (.val 0 7) .no (decide (1 ≤ x.imm.toNat) && decide (x.imm.toNat ≤ 255))
  | .twait x => x.ok (.val 0x10 0x14) (if bitAt x.mod.toNat 0 then .g 63 else .no) ty0 cnd0 (decide (x.mod.toNat < 2)) true
  | .tread x => x.bare (.val 0x10 0x14) (.gw 63) .no .no
  | .tset x => x.ok (.val 0x10 0x14) (.g 63) (decide (x.mod.toNat < 8) && (bitAt x.mod.toNat 0 || x.mod == 0)) (x.sr == 0) (decide (x.imm.toNat < 2 ^ 14) && (bitAt x.mod.toNat 0 || x.imm == 0))
  | .gnode x => x.bare .no (.g 55) (.g 55) (x.c == 0)
  | .gsub x => x.bare (.gw 63) (.g 55) (.g 55) (x.c == 0)
  | .gqry x => x.bare (.gw 63) (.g 55) .no (x.disp0 && x.c == 0)
  | .publish x => x.tile .no .no (decide (x.c.toNat < 2))
  | .subscr x => x.tile .no (.g 55) (decide (x.c.toNat < 64))
  | .stopref x => x.tile .no .no (x.c == 0)
  | .refchk x => x.tile (.gw 63) (.g 63) (x.c == 0)
  | .settlw x => x.ok .no .no ty0 cnd0 (decide (x.mod.toNat < 2)) (decide (x.imm.toNat < 64))
  | .evpop x => x.bare (.gw 56) .no .no (.opt .q)
  | .evwait x => x.bare (.gw 63) .no (decide (1 ≤ x.imm.toNat) && decide (x.imm.toNat ≤ 65535))
  | .evpush x => x.bare .no (.g 63) (.g 56) .no
  | .qfence x => x.bare (.gw 63) (.g 55) .no (decide (x.c.toNat < 16))
  | .dpath x => x.ok (.gw 63) .no .no .no ty0 cnd0 (decide (x.mod.toNat < 2))
  | .pchk x => x.bare (.gw 63) .no .no .no
  | .wdcfg x => x.bare .no .no (decide (1 ≤ x.imm.toNat))
  | .evcfg x => x.bare .no (.g 63) 2 (x.imm == 0)
  | .vclaim x => x.bare (.gw 63) .no x.claim
  | .vrel x => x.ok
  | .vreneg x => x.bare (.gw 63) .no .no .no
  | .vadd x => x.addLike
  | .vsub x => x.addLike
  | .vmul x => x.addLike
  | .vfma x => x.ok .v .v .v .no .all false (x.same VW.arF false && x.noMod)
  | .vmin x => x.ok .v .v .v .no .all false (x.same VW.ar true && x.noMod && x.noRm)
  | .vmax x => x.ok .v .v .v .no .all false (x.same VW.ar true && x.noMod && x.noRm)
  | .vabs x => x.ok .v .v .no .no .all false (x.same VW.ar true && x.sub == 0 && x.imm16 == 0 && (!x.sat || !x.floating x.fd) && x.noRm)
  | .vneg x => x.ok .v .v .no .no .all false (x.same VW.ar true && x.sub == 0 && x.imm16 == 0 && (!x.sat || !x.floating x.fd) && x.noRm)
  | .vand x => x.logic .v .no
  | .vor x => x.logic .v .no
  | .vxor x => x.logic .v .no
  | .vshl x => x.ok .v .v .v .no .all false (x.same VW.arI true && x.noMod && x.noRm)
  | .vshr x => x.ok .v .v .v .no .all false (x.same VW.arI true && x.noMod && x.noRm)
  | .vcmp x => x.ok .v .v .v .no .all false (x.fmtOk x.fa VW.ar true && x.fd == .t8e0 && x.noRm && !x.sat && x.imm16 == 0 && (decide (x.sub ≤ 5) || (x.floating x.fa && (x.sub == 6 || x.sub == 7)) || (!x.floating x.fa && (x.sub == 8 || x.sub == 9))))
  | .vsel x => x.logic .v .v
  | .vmov x => x.logic .no .no
  | .vbcast x => x.ok .v (.g 63) .no .no .all false (x.fmtOk x.fd VW.ar true && x.fa == .t8e0 && x.noMod && x.noRm)
  | .vreduce x => x.ok (.gw 63) .v .no .no .src false (x.reduceOk (x.imm16 == 0))
  | .vscan x => x.ok .v .v .no .no .all false (x.reduceOk (decide (x.imm16 < 2)))
  | .vfmas x => x.ok .v .v (.g 63) (.g 63) .all false (VW.arF.contains x.fd && x.it == 0 && x.subMod 4)
  | .vmulh x => x.ok .v .v .v .no .all false (x.same VW.arI true && x.noMod && x.noRm)
  | .vsat x => x.ok .v .v .no .no .all false (x.fmtOk x.fa VW.arI true && [Fmt.i8, .n8, .i4, .n4, .i2, .i16].contains x.fd && x.noMod && x.noRm)
  | .vcx x => x.ok .v .no .no (.opt .v) .src false (x.same VW.ar true && decide (x.sub < 2) && !x.sat && x.noRm && decide (x.imm16 < 128) && decide (bits x.imm16 0 3 < bits x.imm16 3 4) && decide (bits x.imm16 3 4 ≤ 8))
  | .vperm x => x.logic .v .no
  | .vcompr x => x.ok .v .v .v (.gw 63) .all false (x.noFmt && x.noRm && x.noMod)
  | .vexpnd x => x.logic .v .no
  | .viota x => x.ok .v (.g 63) (.g 63) .no .all false (x.fmtOk x.fd VW.arI true && x.fa == .t8e0 && x.noMod && x.noRm)
  | .vrng x => x.ok .v (.g 63) (.g 63) .no .all false (x.fa == .t8e0 && x.noMod && x.noRm && ((x.it == 2 && x.fd == .t8e0) || (x.it == 0 && x.fd == .fp32)))
  | .vmask x => x.plain .m .v .no .no .none 2
  | .vcvt x => x.conv .no 0 2
  | .vcvts x => x.conv (.g 63) 1 4
  | .vrnd x => x.special .no true
  | .vclass x => x.ok .v .v .no .no .all false (x.fd == .t8e0 && x.it == 0 && x.noMod && x.noRm)
  | .vexp2 x => x.special .no false
  | .vlog2 x => x.special .no false
  | .vrcp x => x.special .no true
  | .vrsq x => x.special .no false
  | .vsqrt x => x.special .no true
  | .vdiv x => x.special .v true
  | .vsinpi x => x.special .no false
  | .vcospi x => x.special .no false
  | .vtanh x => x.special .no false
  | .vsigm x => x.special .no false
  | .vld x => x.mem false false .all
  | .vst x => x.mem false false .src
  | .vldg x => x.mem true true .all
  | .vstg x => x.mem true true .src
  | .vldw x => x.memX .all
  | .vstw x => x.memX .src
  | .tld x => x.tileMem .all
  | .tst x => x.tileMem .src
  | .ttr x => x.plain .t .t .no .no .all 1
  | .tmov x => x.plain .t .t .no .no .all 1
  | .tmovTv x => x.ok .v .t (.g 63) .no .all false (x.noFmt && x.noRm && !x.sat && x.imm16 == 0 && x.sub == 1)
  | .tmovVt x => x.ok .t .v (.g 63) .no .all false (x.noFmt && x.noRm && !x.sat && x.imm16 == 0 && x.sub == 2)
  | .tzero x => x.plain .t .no .no .no .all 1
  | .mset x => x.plain .m (.g 63) (.g 63) .no .none 1
  | .mget x => x.plain (.gw 63) .m .no .no .none 2
  | .vpopc x => x.plain (.gw 63) .v .no .no .src 1
  | .vfirst x => x.plain (.gw 63) .v .no .no .src 1
  | .vpack x => x.ok .v .v .no .no .none false (x.fd == .t8e0 && x.it == 0 && x.noMod && x.noRm)
  | .vunpk x => x.ok .v .v .no .no .all false (x.fd == .t8e0 && x.it == 0 && x.noMod && x.noRm)
  | .vlut x => x.ok .v .v (.g 63) (.g 63) .all false (x.fmtOk x.fd VW.m8 true && x.fa == .t8e0 && x.noMod && x.noRm)
  | .cjcfg x => x.bare .no (.g 55) .no .no .no false x.geometry
  | .contract x => x.ok (.g 52) .s .s (.val 0 3) (.val 0 3) true (x.rm == .rne && x.mod == 0 && x.a != x.b && x.c != x.e)
  | .drain x => x.ok (.gw 63) (.g 55) (.g 55) .no .no false (x.fmt == .t8e0 && x.mod == 0)
  | .acclr x => x.bare .no .no .no .no .no false (decide (x.mod.toNat < 2))
  | .accst x => x.bare (.gw 63) (.g 55) (.g 55) .no .no false (decide (x.mod.toNat < 2))
  | .isect x => x.setOp (.g 55) 4
  | .union x => x.setOp (.g 55) 4
  | .merge x => x.setOp (.g 55) 4
  | .isectc x => x.setOp .no 4
  | .mergek x => x.setOp (.g 55) 16
  | .kqpush x => x.bare (.val 0 3) (.g 63) .no .no .no false (x.mod == 0)
  | .kqstat x => x.bare (.gw 63) (.val 0 3) .no .no .no false (decide (x.mod.toNat < 2))
  | .copy x => x.bare .no (.g 55) .no .no .no true (x.mod == 0)
  | .copy2d x => x.bare .no (.g 55) .no .no .no true (x.mod == 0)
  | .copyk x => x.bare .no (.g 55) .no .no .no true (x.mod == 0)
  | .gather x => x.bare (.g 55) (.g 55) (.g 55) (.g 55) (.g 55) true (decide (x.mod.toNat < 2))
  | .scatter x => x.bare (.g 55) (.g 55) (.g 55) (.g 55) (.g 55) true (decide (x.mod.toNat < 2))
  | .pool x => x.ok (.g 55) (.g 55) (.g 55) (.g 55) (.g 55) true (JW.poolFmts.contains x.fmt && bits x.mod.toNat 3 21 == 0 && !bitAt x.mod.toNat 0 && (!bitAt x.mod.toNat 2 || (x.fmt == .i8 && !bitAt x.mod.toNat 1 && x.rm == .rne)))
  | .smv x => x.bare (.g 55) (.g 55) (.g 55) .no .no true (x.mod == 0)
  | .smvcfg x => x.bare .no (.g 55) .no .no .no false (x.mod == 0)
  | .coll x => x.bare .no (.g 55) .no .no .no false (x.mod == 0)
  | .rput x => x.bare (.g 55) (.g 55) (.g 55) .no .no false (x.mod == 0)
  | .rget x => x.bare (.g 55) (.g 55) (.g 55) .no .no false (x.mod == 0)
  | .ratom x => x.bare (.g 55) (.g 55) (.g 63) (if bits x.mod.toNat 0 4 == 7 then .g 63 else .no) .no false (x.remoteOp true)
  | .rred x => x.bare .no (.g 55) (.g 63) .no .no false (x.remoteOp false)
  | .pfpool x => x.bare .no (.g 55) (.g 55) .no .no true (x.mod == 0)
  | .ecancel x => x.bare (.val 0x10 0x12) .no .no .no .no false (x.mod == 0)
  | .estat x => x.bare (.gw 63) (.val 0x10 0x14) .no .no .no false (x.mod == 0)
  | .cjsave x => x.bare .no (.g 55) .no .no .no true (x.mod == 0)
  | .cjload x => x.bare .no (.g 55) .no .no .no true (x.mod == 0)
  | .spillst x => x.bare (.gw 63) .no .no .no .no false (x.mod == 0)
  | .evrule x => x.bare .no (.g 55) .no .no .no false (bits x.mod.toNat 9 15 == 1)
  | .evruleOff x => x.bare .no .no .no .no .no false (bits x.mod.toNat 9 15 == 0)
  | .lwadv x => x.lawRes .no true
  | .lwadd x => x.lawRes (.g 63) true
  | .lwset x => x.ok .no (.g 55) (if x.w128 then .g 62 else .g 63) ty0 (.of [.oct, .dev, .sys]) true (x.octCh && decide (x.c.toNat < 2))
  | .lwmax x => x.lawRes (.g 63) true
  | .lwarm x => x.ok (.gw 63) (.g 55) .no ty0 (.of [.oct, .dev]) true (x.octCh && decide (x.c.toNat < 2))
  | .lwdisarm x => x.ok .no (.g 55) .no ty0 (.of [.oct, .dev]) true (x.octCh && decide (x.c.toNat < 2))
  | .lwpeek x => x.lawRes .no false
  | .lwcas x => x.lawRes (.g 63) false
  | .lwxch x => x.lawRes (.g 63) false
  | .lwclr x => x.lawRes .no true
  | .lwstep x => x.bare .no .no (decide (x.imm.toNat < 16))
  | .lwdsc x => x.ok .no (.g 55) .no ty0 (.of [.oct]) true true
  | .lwtime x => x.ok (.gw 63) .no .no .no ty0 cnd0 (decide (bits x.mod.toNat 4 6 ≤ 40) && bits x.mod.toNat 10 6 == 0)
  | .vlwadv x => x.vlaw .v .no
  | .vlwadd x => x.vlaw (.opt .v) .v
  | .lwdom x => x.bare .no .no (decide (x.imm.toNat < 2 ^ 19) && (bitAt x.imm.toNat 4 || decide (x.imm.toNat < 16)))
  | .ephstat x => x.bare (.gw 63) .no 1 (decide (x.imm.toNat < 2 ^ 9) && (bitAt x.imm.toNat 0 || x.imm == 0))
  | .ctxsave x => x.ok .no (.g 55) (.g 63) ty0 (.of [.oct]) true (x.c == 0)
  | .ctxload x => x.ok .no (.g 55) (.g 63) ty0 (.of [.oct]) true (x.c == 0)
  | .tlbinv x => x.bare .no (.g 55) (.g 63) (x.c == 0)
  | .tlbinva x => x.bare .no (if bitAt x.mod.toNat 0 then .no else .g 63) 2 (x.imm == 0)
  | .fbpop x => x.bare (.gw 62) (.g 63) 1 (x.imm == 0)
  | .replay x => x.bare .no (.g 63) 1 (x.imm == 0)
  | .pmread x => x.bare (.gw 63) .no 1 (decide (x.imm.toNat < 2 ^ 16) && decide (bits x.imm.toNat 8 8 ≤ 8))
  | .eccinj x => x.bare .no (.g 55) (.g 63) (x.c == 0)
  | .capset x => x.bare .no (.g 55) (.g 55) (x.a != x.b && decide (x.c.toNat ≤ 63))
  | .semi x => x.bare .no .no 8 (decide (x.imm.toNat < 256))
  | .dqspill x => x.bare .no (.g 55) (.g 55) (x.c == 0)
  | .sliceq x => x.bare (.gw 63) (.g 63) 2 (x.imm == 0) && x.h.noMarks
  | .xlate x => x.bare (.gw 63) (.g 55) .no (x.c == 0)
  | .lwscan x => x.ok .no (.g 55) (.g 55) ty0 (.of [.oct, .dev]) true (x.octCh && x.disp0 && x.a != x.b && decide (x.c.toNat < 2))
  | .hcall x => x.bare (.gw 63) (.g 63) 1 true
  | .lawOpPerform .. => false
  | .interlockLand .. => false
  | .loadLand .. => false
  | .storeAck .. => false
  | .atomicComplete .. => false
  | .lawOpComplete .. => false
  | .wcbEntryTimeout .. => false
  | .sliceRequest .. => false
  | .l2Fill .. => false
  | .l1Fill .. => false
  | .cxlCompletion .. => false
  | .cxlTimeout .. => false
  | .peerInvalidation .. => false
  | .spanDeviceLeave .. => false
  | .hostBar2Read .. => false
  | .hostBar2Write .. => false
  | .bar4Write .. => false
  | .tlbMiss .. => false
  | .pageWalkEnd .. => false
  | .poisonRead .. => false
  | .softErrorDetected .. => false
  | .ephemerisFire .. => false
  | .eventRecordDeliver .. => false
  | .evqRingRefill .. => false
  | .eventPortFrame .. => false
  | .ingestOperation .. => false
  | .ptpMessage .. => false
  | .ptpDelayReq .. => false
  | .gpCommandComplete .. => false
  | .gpRowFault .. => false
  | .copyComplete .. => false
  | .smvComplete .. => false
  | .setOpComplete .. => false
  | .remoteCommandComplete .. => false
  | .collResult .. => false
  | .collSwitchTimeout .. => false
  | .collRingTimeout .. => false
  | .contractPreemptTimeout .. => false
  | .tileNotice .. => false
  | .fireRetry .. => false
  | .taskStart .. => false
  | .stealRound .. => false
  | .stealBackoffExpire .. => false
  | .stealRequest .. => false
  | .joinDecrement .. => false
  | .packetParse .. => false
  | .gangPlace .. => false
  | .launchReserveTimeout .. => false
  | .fenceCondition .. => false
  | .gangComplete .. => false
  | .nodeFinish .. => false
  | .watchdogExpire .. => false
  | .agingRaise .. => false
  | .laneGrant .. => false
  | .semaphoreServe .. => false
  | .waitRelease .. => false
  | .cometForm .. => false
  | .preemptByClass .. => false
  | .stopComplete .. => false
  | .create => false
  | .destroy => false
  | .stop => false
  | .stopsave => false
  | .resume => false
  | .kill => false
  | .hostReplay => false
  | .gangres => false
  | .gangkill => false
  | .qreset => false
  | .reply => false
  | .poolmap => false
  | .erxring => false
  | .nring => false
  | .setcap => false
  | .attest .. => false
  | .fwstage => false
  | .fwcommit => false
  | .epcfg => false
  | .unknownCommand .. => false
  | .dbellWrite .. => false
  | .fbpophRead .. => false
  | .registerWrite .. => false
  | .powerCapWindow .. => false
  | .thermalEvent .. => false
  | .powerLoss .. => false
  | .powerOn .. => false
  | .fullService => false
  | .pcieLinkDown => false
  | .nconsWrite .. => false
  | .pcieLinkUp => false
  | .spanDeviceJoin .. => false
  | .collPartialResult .. => false
  | .powerCapEffecterWrite .. => false

end Sys2Proof
end

