-- ==== Sys2Proof/Decode.lean ====
section
/-! DEFINITION. From bytes to instructions and back (R11, R17, R29, R38).
A word is the number whose bit 0 is bit 0 of word 0. `decode` answers a legal word's instruction and nothing for every
other word; the step takes the illegal-instruction trap there (R16). (`noncomputable` marks what Lean's compiler cannot
compile, an inductive type of more than 245 constructors; the kernel evaluates these definitions as any other.) `encode` writes an instruction's word from the same
field tables. -/
namespace Sys2Proof

def Ty.code : Ty → Nat
  | .i64 => 0 | .n64 => 1 | .i32 => 2 | .n32 => 3 | .i16 => 4 | .n16 => 5 | .i8 => 6 | .n8 => 7
def Ty.ofCode : Nat → Option Ty
  | 0 => some .i64 | 1 => some .n64 | 2 => some .i32 | 3 => some .n32
  | 4 => some .i16 | 5 => some .n16 | 6 => some .i8 | 7 => some .n8 | _ => none

def Cnd.code : Cnd → Nat
  | .eq => 0 | .ne => 1 | .lt => 2 | .le => 3 | .gt => 4 | .ge => 5 | .un => 6 | .ord => 7 | .tst => 8 | .ntst => 9
def Cnd.ofCode : Nat → Option Cnd
  | 0 => some .eq | 1 => some .ne | 2 => some .lt | 3 => some .le | 4 => some .gt | 5 => some .ge
  | 6 => some .un | 7 => some .ord | 8 => some .tst | 9 => some .ntst | _ => none

def Sco.code : Sco → Nat
  | .oct => 0 | .clu => 1 | .dev => 2 | .sys => 3
def Sco.ofCode : Nat → Option Sco
  | 0 => some .oct | 1 => some .clu | 2 => some .dev | 3 => some .sys | _ => none

def Kind.code : Kind → Nat
  | .weak => 0 | .strong => 1
def Kind.ofCode : Nat → Option Kind
  | 0 => some .weak | 1 => some .strong | _ => none

def Fmt.code : Fmt → Nat
  | .t8e0 => 0 | .t8e1 => 1 | .t8e2 => 2 | .t6e0 => 3 | .t6e1 => 4
  | .e4m3 => 5 | .e5m2 => 6 | .e3m4 => 7 | .e3m2 => 8 | .e2m3 => 9 | .e2m1 => 10 | .l8 => 11
  | .i8 => 12 | .n8 => 13 | .i4 => 14 | .n4 => 15 | .i2 => 16 | .tern => 17 | .bin => 18
  | .i16 => 19 | .fp16 => 20 | .bf16 => 21 | .fp32 => 22 | .e8m10 => 23
def Fmt.ofCode : Nat → Option Fmt
  | 0 => some .t8e0 | 1 => some .t8e1 | 2 => some .t8e2 | 3 => some .t6e0 | 4 => some .t6e1
  | 5 => some .e4m3 | 6 => some .e5m2 | 7 => some .e3m4 | 8 => some .e3m2 | 9 => some .e2m3 | 10 => some .e2m1
  | 11 => some .l8 | 12 => some .i8 | 13 => some .n8 | 14 => some .i4 | 15 => some .n4 | 16 => some .i2
  | 17 => some .tern | 18 => some .bin | 19 => some .i16 | 20 => some .fp16 | 21 => some .bf16 | 22 => some .fp32
  | 23 => some .e8m10 | _ => none

def Rm.code : Rm → Nat
  | .rne => 0 | .rz => 1 | .ru => 2 | .rd => 3 | .ro => 4
def Rm.ofCode : Nat → Option Rm
  | 0 => some .rne | 1 => some .rz | 2 => some .ru | 3 => some .rd | 4 => some .ro | _ => none

/-- Field `[lo + n - 1 : lo]` of the word `w`. -/
def fld (w lo n : Nat) : BitVec n := BitVec.ofNat n (bits w lo n)

def Hdr.ofWord (w : Nat) : Hdr :=
  ⟨fld w 32 4, bitAt w 36, fld w 37 5, bitAt w 42, bitAt w 43, fld w 44 2⟩
/-- Bits [47:32]. -/
def Hdr.code (h : Hdr) : Nat :=
  h.g.toNat + 2 ^ 4 * ofBool h.gn + 2 ^ 5 * h.sc.toNat + 2 ^ 10 * ofBool h.la + 2 ^ 11 * ofBool h.lb + 2 ^ 12 * h.ch.toNat

def ZW.ofWord (w : Nat) : Option ZW :=
  if bits w 8 24 = 0 ∧ bits w 48 48 = 0 then some ⟨Hdr.ofWord w⟩ else none
def ZW.code (x : ZW) : Nat := 2 ^ 24 * x.h.code

def SW.ofWord (w : Nat) : Option SW :=
  match Ty.ofCode (bits w 56 4), Cnd.ofCode (bits w 60 4), bits w 80 16 with
  | some ty, some cnd, 0 => some ⟨Hdr.ofWord w, fld w 8 8, fld w 16 8, fld w 24 8, fld w 48 8, ty, cnd, fld w 64 16⟩
  | _, _, _ => none
def SW.code (x : SW) : Nat :=
  x.d.toNat + 2 ^ 8 * x.a.toNat + 2 ^ 16 * x.b.toNat + 2 ^ 24 * x.h.code + 2 ^ 40 * x.c.toNat + 2 ^ 48 * x.ty.code
    + 2 ^ 52 * x.cnd.code + 2 ^ 56 * x.mod.toNat

def IW.ofWord (w : Nat) : Option IW :=
  match Ty.ofCode (bits w 80 4), Cnd.ofCode (bits w 84 4) with
  | some ty, some cnd => some ⟨Hdr.ofWord w, fld w 8 8, fld w 16 8, fld w 24 8, fld w 48 32, ty, cnd, fld w 88 8⟩
  | _, _ => none
def IW.code (x : IW) : Nat :=
  x.d.toNat + 2 ^ 8 * x.a.toNat + 2 ^ 16 * x.b.toNat + 2 ^ 24 * x.h.code + 2 ^ 40 * x.imm.toNat + 2 ^ 72 * x.ty.code
    + 2 ^ 76 * x.cnd.code + 2 ^ 80 * x.mod.toNat

def MW.ofWord (w : Nat) : Option MW :=
  match Ty.ofCode (bits w 80 4), Sco.ofCode (bits w 84 2), Kind.ofCode (bits w 86 2) with
  | some ty, some sco, some kind =>
    some ⟨Hdr.ofWord w, fld w 8 8, fld w 16 8, fld w 24 8, fld w 48 32, ty, sco, kind, fld w 88 8⟩
  | _, _, _ => none
def MW.code (x : MW) : Nat :=
  x.d.toNat + 2 ^ 8 * x.a.toNat + 2 ^ 16 * x.b.toNat + 2 ^ 24 * x.h.code + 2 ^ 40 * x.disp.toNat + 2 ^ 72 * x.ty.code
    + 2 ^ 76 * x.sco.code + 2 ^ 78 * x.kind.code + 2 ^ 80 * x.c.toNat

def BW.ofWord (w : Nat) : Option BW :=
  some ⟨Hdr.ofWord w, fld w 8 8, fld w 16 8, fld w 24 8, fld w 48 32, fld w 80 16⟩
def BW.code (x : BW) : Nat :=
  x.d.toNat + 2 ^ 8 * x.a.toNat + 2 ^ 16 * x.b.toNat + 2 ^ 24 * x.h.code + 2 ^ 40 * x.off.toNat + 2 ^ 72 * x.mod.toNat

def VW.ofWord (w : Nat) : Option VW :=
  match Fmt.ofCode (bits w 48 5), Fmt.ofCode (bits w 53 5), Rm.ofCode (bits w 58 3) with
  | some fa, some fd, some rm =>
    some ⟨Hdr.ofWord w, fld w 8 8, fld w 16 8, fld w 24 8, fa, fd, rm, fld w 61 3, bitAt w 64, fld w 65 8, fld w 73 23⟩
  | _, _, _ => none
def VW.code (x : VW) : Nat :=
  x.d.toNat + 2 ^ 8 * x.a.toNat + 2 ^ 16 * x.b.toNat + 2 ^ 24 * x.h.code + 2 ^ 40 * x.fa.code + 2 ^ 45 * x.fd.code
    + 2 ^ 50 * x.rm.code + 2 ^ 53 * x.mp.toNat + 2 ^ 56 * ofBool x.zm + 2 ^ 57 * x.c.toNat + 2 ^ 65 * x.mod.toNat

def JW.ofWord (w : Nat) : Option JW :=
  match Fmt.ofCode (bits w 64 5), Rm.ofCode (bits w 69 3) with
  | some fmt, some rm =>
    some ⟨Hdr.ofWord w, fld w 8 8, fld w 16 8, fld w 24 8, fld w 48 8, fld w 56 8, fmt, rm, fld w 72 24⟩
  | _, _ => none
def JW.code (x : JW) : Nat :=
  x.d.toNat + 2 ^ 8 * x.a.toNat + 2 ^ 16 * x.b.toNat + 2 ^ 24 * x.h.code + 2 ^ 40 * x.c.toNat + 2 ^ 48 * x.e.toNat
    + 2 ^ 56 * x.fmt.code + 2 ^ 61 * x.rm.code + 2 ^ 64 * x.mod.toNat

def YW.ofWord (w : Nat) : Option YW :=
  some ⟨Hdr.ofWord w, fld w 8 8, fld w 16 8, fld w 24 8, fld w 48 16, fld w 64 12, fld w 76 20⟩
def YW.code (x : YW) : Nat :=
  x.d.toNat + 2 ^ 8 * x.a.toNat + 2 ^ 16 * x.b.toNat + 2 ^ 24 * x.h.code + 2 ^ 40 * x.mod.toNat + 2 ^ 56 * x.sr.toNat
    + 2 ^ 68 * x.imm.toNat

/-- Opcodes 0x00 to 0x1F (R29), by the low five opcode bits. -/
def decodeScalar (w : Nat) : Nat → Option Instr
  | 0 => some .ill
  | 1 => (SW.ofWord w).map .add
  | 2 => (IW.ofWord w).map .addi
  | 3 => (SW.ofWord w).map .sub
  | 4 => (SW.ofWord w).map .mul
  | 5 => (SW.ofWord w).map .mulh
  | 6 => (SW.ofWord w).map .div
  | 7 => (SW.ofWord w).map .rem
  | 8 => (SW.ofWord w).map .mac
  | 9 => (SW.ofWord w).map .and
  | 10 => (SW.ofWord w).map .or
  | 11 => (SW.ofWord w).map .xor
  | 12 => (SW.ofWord w).map .andn
  | 13 => (SW.ofWord w).map .shl
  | 14 => (SW.ofWord w).map .shr
  | 15 => (SW.ofWord w).map .sar
  | 16 => (SW.ofWord w).map .rotl
  | 17 => (SW.ofWord w).map .min
  | 18 => (SW.ofWord w).map .max
  | 19 => (SW.ofWord w).map .cmp
  | 20 => (IW.ofWord w).map .cmpi
  | 21 => (SW.ofWord w).map .plog
  | 22 => (SW.ofWord w).map .sel
  | 23 => (SW.ofWord w).map .mov
  | 24 => (IW.ofWord w).map .movi
  | 25 => (BW.ofWord w).map .ldlit
  | 26 => (SW.ofWord w).map .clz
  | 27 => (SW.ofWord w).map .popc
  | 28 => (IW.ofWord w).map .bfx
  | 29 => (IW.ofWord w).map .bfi
  | 30 => (MW.ofWord w).map .lea
  | 31 => (SW.ofWord w).map .fold
  | _ => none

/-- Opcodes 0x20 to 0x3F (R29), by the low five opcode bits. -/
def decodeControl (w : Nat) : Nat → Option Instr
  | 0 => (ZW.ofWord w).map .nop
  | 1 => (BW.ofWord w).map .br
  | 2 => (SW.ofWord w).map .bri
  | 3 => (BW.ofWord w).map .call
  | 4 => (SW.ofWord w).map .calli
  | 5 => (ZW.ofWord w).map .ret
  | 6 => (BW.ofWord w).map .loop
  | 7 => (IW.ofWord w).map .rep
  | 8 => (ZW.ofWord w).map .exit
  | 9 => (ZW.ofWord w).map .yield
  | 10 => (IW.ofWord w).map .waitev
  | 11 => (IW.ofWord w).map .sleep
  | 12 => match bits w 48 2 with
    | 0 => (YW.ofWord w).map .cometLead
    | 1 => (YW.ofWord w).map .cometJoin
    | 2 => (YW.ofWord w).map .cometEnd
    | _ => none
  | 13 => (BW.ofWord w).map .detach
  | 14 => (ZW.ofWord w).map .rejoin
  | 15 => (IW.ofWord w).map .trap
  | 16 => (ZW.ofWord w).map .rte
  | 17 => (IW.ofWord w).map .brk
  | 18 => (IW.ofWord w).map .assert
  | 19 => (YW.ofWord w).map .sysrd
  | 20 => (YW.ofWord w).map .syswr
  | 21 => (SW.ofWord w).map .time
  | 22 => (SW.ofWord w).map .cycles
  | 23 => (ZW.ofWord w).map .beat
  | 24 => (YW.ofWord w).map .view
  | 25 => (MW.ofWord w).map .sbind
  | 26 => (SW.ofWord w).map .sunbind
  | 27 => (SW.ofWord w).map .sstat
  | 28 => (ZW.ofWord w).map .ifence
  | 29 => (BW.ofWord w).map .prefi
  | 30 => (IW.ofWord w).map .prio
  | 31 => (YW.ofWord w).map .slotcfg
  | _ => none

/-- Opcodes 0x40 to 0x5F (R29), by the low five opcode bits. -/
def decodeMemory (w : Nat) : Nat → Option Instr
  | 0 => (MW.ofWord w).map .ld
  | 1 => (MW.ofWord w).map .st
  | 2 => (MW.ofWord w).map .lds
  | 3 => (MW.ofWord w).map .sts
  | 4 => (MW.ofWord w).map .ldx
  | 5 => (MW.ofWord w).map .stx
  | 6 => (MW.ofWord w).map .pf
  | 7 => (ZW.ofWord w).map .l1inv
  | 8 => (MW.ofWord w).map .l1invr
  | 9 => (IW.ofWord w).map .cwait
  | 10 => (MW.ofWord w).map .movblk
  | 11 => (MW.ofWord w).map .fillblk
  | 12 => (MW.ofWord w).map .atomAdd
  | 13 => (MW.ofWord w).map .atomMin
  | 14 => (MW.ofWord w).map .atomMax
  | 15 => (MW.ofWord w).map .atomAnd
  | 16 => (MW.ofWord w).map .atomOr
  | 17 => (MW.ofWord w).map .atomXor
  | 18 => (MW.ofWord w).map .atomXchg
  | 19 => (MW.ofWord w).map .atomCas
  | 20 => (MW.ofWord w).map .atomInc
  | 21 => (MW.ofWord w).map .atomFadd
  | 22 => (MW.ofWord w).map .redAdd
  | 23 => (MW.ofWord w).map .redMin
  | 24 => (MW.ofWord w).map .redMax
  | 25 => (MW.ofWord w).map .redLog
  | 26 => (MW.ofWord w).map .redFadd
  | 27 => (MW.ofWord w).map .capgive
  | 28 => (MW.ofWord w).map .captake
  | 29 => (MW.ofWord w).map .capq
  | 30 => (SW.ofWord w).map .hgive
  | 31 => (SW.ofWord w).map .hfree
  | _ => none

/-- Opcodes 0x60 to 0x7F (R29), by the low five opcode bits. -/
def decodeTask (w : Nat) : Nat → Option Instr
  | 0 => (MW.ofWord w).map .fork
  | 1 => (MW.ofWord w).map .join
  | 2 => (MW.ofWord w).map .joinm
  | 3 => (MW.ofWord w).map .spawn
  | 4 => (MW.ofWord w).map .launch
  | 5 => (SW.ofWord w).map .taskid
  | 6 => (IW.ofWord w).map .stealdom
  | 7 => (SW.ofWord w).map .dqstat
  | 8 => if bitAt w 88 then (MW.ofWord w).map .bariFree else (MW.ofWord w).map .bari
  | 9 => (SW.ofWord w).map .bara
  | 10 => (SW.ofWord w).map .barw
  | 11 => (IW.ofWord w).map .semp
  | 12 => (IW.ofWord w).map .semw
  | 13 => (IW.ofWord w).map .twait
  | 14 => (SW.ofWord w).map .tread
  | 15 => (YW.ofWord w).map .tset
  | 16 => (MW.ofWord w).map .gnode
  | 17 => (MW.ofWord w).map .gsub
  | 18 => (MW.ofWord w).map .gqry
  | 19 => (MW.ofWord w).map .publish
  | 20 => (MW.ofWord w).map .subscr
  | 21 => (MW.ofWord w).map .stopref
  | 22 => (MW.ofWord w).map .refchk
  | 23 => (IW.ofWord w).map .settlw
  | 24 => (SW.ofWord w).map .evpop
  | 25 => (IW.ofWord w).map .evwait
  | 26 => (SW.ofWord w).map .evpush
  | 27 => (MW.ofWord w).map .qfence
  | 28 => (SW.ofWord w).map .dpath
  | 29 => (SW.ofWord w).map .pchk
  | 30 => (IW.ofWord w).map .wdcfg
  | 31 => (YW.ofWord w).map .evcfg
  | _ => none

/-- Opcodes 0x80 to 0x9F (R29), by the low five opcode bits. -/
def decodeVector (w : Nat) : Nat → Option Instr
  | 0 => (IW.ofWord w).map .vclaim
  | 1 => (ZW.ofWord w).map .vrel
  | 2 => (SW.ofWord w).map .vreneg
  | 3 => (VW.ofWord w).map .vadd
  | 4 => (VW.ofWord w).map .vsub
  | 5 => (VW.ofWord w).map .vmul
  | 6 => (VW.ofWord w).map .vfma
  | 7 => (VW.ofWord w).map .vmin
  | 8 => (VW.ofWord w).map .vmax
  | 9 => (VW.ofWord w).map .vabs
  | 10 => (VW.ofWord w).map .vneg
  | 11 => (VW.ofWord w).map .vand
  | 12 => (VW.ofWord w).map .vor
  | 13 => (VW.ofWord w).map .vxor
  | 14 => (VW.ofWord w).map .vshl
  | 15 => (VW.ofWord w).map .vshr
  | 16 => (VW.ofWord w).map .vcmp
  | 17 => (VW.ofWord w).map .vsel
  | 18 => (VW.ofWord w).map .vmov
  | 19 => (VW.ofWord w).map .vbcast
  | 20 => (VW.ofWord w).map .vreduce
  | 21 => (VW.ofWord w).map .vscan
  | 22 => (VW.ofWord w).map .vfmas
  | 23 => (VW.ofWord w).map .vmulh
  | 24 => (VW.ofWord w).map .vsat
  | 25 => (VW.ofWord w).map .vcx
  | 26 => (VW.ofWord w).map .vperm
  | 27 => (VW.ofWord w).map .vcompr
  | 28 => (VW.ofWord w).map .vexpnd
  | 29 => (VW.ofWord w).map .viota
  | 30 => (VW.ofWord w).map .vrng
  | 31 => (VW.ofWord w).map .vmask
  | _ => none

/-- Opcodes 0xA0 to 0xBF (R29), by the low five opcode bits. -/
def decodeConversion (w : Nat) : Nat → Option Instr
  | 0 => (VW.ofWord w).map .vcvt
  | 1 => (VW.ofWord w).map .vcvts
  | 2 => (VW.ofWord w).map .vrnd
  | 3 => (VW.ofWord w).map .vclass
  | 4 => (VW.ofWord w).map .vexp2
  | 5 => (VW.ofWord w).map .vlog2
  | 6 => (VW.ofWord w).map .vrcp
  | 7 => (VW.ofWord w).map .vrsq
  | 8 => (VW.ofWord w).map .vsqrt
  | 9 => (VW.ofWord w).map .vdiv
  | 10 => (VW.ofWord w).map .vsinpi
  | 11 => (VW.ofWord w).map .vcospi
  | 12 => (VW.ofWord w).map .vtanh
  | 13 => (VW.ofWord w).map .vsigm
  | 14 => (VW.ofWord w).map .vld
  | 15 => (VW.ofWord w).map .vst
  | 16 => (VW.ofWord w).map .vldg
  | 17 => (VW.ofWord w).map .vstg
  | 18 => (VW.ofWord w).map .vldw
  | 19 => (VW.ofWord w).map .vstw
  | 20 => (VW.ofWord w).map .tld
  | 21 => (VW.ofWord w).map .tst
  | 22 => (VW.ofWord w).map .ttr
  | 23 => match bits w 73 4 with
    | 0 => (VW.ofWord w).map .tmov
    | 1 => (VW.ofWord w).map .tmovTv
    | 2 => (VW.ofWord w).map .tmovVt
    | _ => none
  | 24 => (VW.ofWord w).map .tzero
  | 25 => (VW.ofWord w).map .mset
  | 26 => (VW.ofWord w).map .mget
  | 27 => (VW.ofWord w).map .vpopc
  | 28 => (VW.ofWord w).map .vfirst
  | 29 => (VW.ofWord w).map .vpack
  | 30 => (VW.ofWord w).map .vunpk
  | 31 => (VW.ofWord w).map .vlut
  | _ => none

/-- Opcodes 0xC0 to 0xDF (R29), by the low five opcode bits. -/
def decodeEngine (w : Nat) : Nat → Option Instr
  | 0 => (JW.ofWord w).map .cjcfg
  | 1 => (JW.ofWord w).map .contract
  | 2 => (JW.ofWord w).map .drain
  | 3 => (JW.ofWord w).map .acclr
  | 4 => (JW.ofWord w).map .accst
  | 5 => (JW.ofWord w).map .isect
  | 6 => (JW.ofWord w).map .union
  | 7 => (JW.ofWord w).map .merge
  | 8 => (JW.ofWord w).map .kqpush
  | 9 => (JW.ofWord w).map .kqstat
  | 10 => (JW.ofWord w).map .copy
  | 11 => (JW.ofWord w).map .copy2d
  | 12 => (JW.ofWord w).map .copyk
  | 13 => (JW.ofWord w).map .gather
  | 14 => (JW.ofWord w).map .scatter
  | 15 => (JW.ofWord w).map .pool
  | 16 => (JW.ofWord w).map .smv
  | 17 => (JW.ofWord w).map .smvcfg
  | 18 => (JW.ofWord w).map .coll
  | 19 => (JW.ofWord w).map .rput
  | 20 => (JW.ofWord w).map .rget
  | 21 => (JW.ofWord w).map .ratom
  | 22 => (JW.ofWord w).map .rred
  | 23 => (JW.ofWord w).map .pfpool
  | 24 => (JW.ofWord w).map .ecancel
  | 25 => (JW.ofWord w).map .estat
  | 26 => (JW.ofWord w).map .isectc
  | 27 => (JW.ofWord w).map .mergek
  | 28 => (JW.ofWord w).map .cjsave
  | 29 => (JW.ofWord w).map .cjload
  | 30 => (JW.ofWord w).map .spillst
  | 31 => if bitAt w 81 then (JW.ofWord w).map .evrule else (JW.ofWord w).map .evruleOff
  | _ => none

/-- Opcodes 0xE0 to 0xFF (R29), by the low five opcode bits. -/
noncomputable def decodeSystem (w : Nat) : Nat → Option Instr
  | 0 => (MW.ofWord w).map .lwadv
  | 1 => (MW.ofWord w).map .lwadd
  | 2 => (MW.ofWord w).map .lwset
  | 3 => (MW.ofWord w).map .lwmax
  | 4 => (MW.ofWord w).map .lwarm
  | 5 => (MW.ofWord w).map .lwdisarm
  | 6 => (MW.ofWord w).map .lwpeek
  | 7 => (MW.ofWord w).map .lwcas
  | 8 => (MW.ofWord w).map .lwxch
  | 9 => (MW.ofWord w).map .lwclr
  | 10 => (IW.ofWord w).map .lwstep
  | 11 => (MW.ofWord w).map .lwdsc
  | 12 => (SW.ofWord w).map .lwtime
  | 13 => (MW.ofWord w).map .vlwadv
  | 14 => (MW.ofWord w).map .vlwadd
  | 15 => (IW.ofWord w).map .lwdom
  | 16 => (YW.ofWord w).map .ephstat
  | 17 => (MW.ofWord w).map .ctxsave
  | 18 => (MW.ofWord w).map .ctxload
  | 19 => (MW.ofWord w).map .tlbinv
  | 20 => (YW.ofWord w).map .tlbinva
  | 21 => (YW.ofWord w).map .fbpop
  | 22 => (YW.ofWord w).map .replay
  | 23 => (YW.ofWord w).map .pmread
  | 24 => (MW.ofWord w).map .eccinj
  | 25 => (MW.ofWord w).map .capset
  | 26 => (YW.ofWord w).map .semi
  | 27 => (MW.ofWord w).map .dqspill
  | 28 => (YW.ofWord w).map .sliceq
  | 29 => (MW.ofWord w).map .xlate
  | 30 => (MW.ofWord w).map .lwscan
  | 31 => (YW.ofWord w).map .hcall
  | _ => none

/-- The fields of the word, before legality. Bits [47:46] are 0 in every word (R11). -/
noncomputable def decodeFields (w : Nat) : Option Instr :=
  if bits w 0 8 = 0 then some .ill
  else if bits w 46 2 ≠ 0 then none
  else match bits w 5 3 with
  | 0 => decodeScalar w (bits w 0 5)
  | 1 => decodeControl w (bits w 0 5)
  | 2 => decodeMemory w (bits w 0 5)
  | 3 => decodeTask w (bits w 0 5)
  | 4 => decodeVector w (bits w 0 5)
  | 5 => decodeConversion w (bits w 0 5)
  | 6 => decodeEngine w (bits w 0 5)
  | 7 => decodeSystem w (bits w 0 5)
  | _ => none

/-- The instruction of the word `w`, if the word is legal (R38). -/
noncomputable def decode (w : Nat) : Option Instr :=
  match decodeFields w with
  | some i => if i.wf then some i else none
  | none => none

/-- Little-endian bytes to a number (R4). -/
def ofBytes : List Nat → Nat
  | [] => 0
  | b :: bs => b % 256 + 256 * ofBytes bs

/-- The low `n` bytes of `x`, lowest first. -/
def toBytes : Nat → Nat → List Nat
  | 0, _ => []
  | n + 1, x => x % 256 :: toBytes n (x / 256)

/-- An instruction is the first twelve bytes of the list; the rest follows it. -/
noncomputable def decodeBytes (bs : List Nat) : Option (Instr × List Nat) :=
  if bs.length < 12 then none
  else (decode (ofBytes (bs.take 12))).map fun i => (i, bs.drop 12)

/-- The opcode of a word's instruction; the steps of other agents have none. -/
def Instr.opcode : Instr → Nat
  | .ill => 0x00
  | .add _ => 0x01
  | .addi _ => 0x02
  | .sub _ => 0x03
  | .mul _ => 0x04
  | .mulh _ => 0x05
  | .div _ => 0x06
  | .rem _ => 0x07
  | .mac _ => 0x08
  | .and _ => 0x09
  | .or _ => 0x0A
  | .xor _ => 0x0B
  | .andn _ => 0x0C
  | .shl _ => 0x0D
  | .shr _ => 0x0E
  | .sar _ => 0x0F
  | .rotl _ => 0x10
  | .min _ => 0x11
  | .max _ => 0x12
  | .cmp _ => 0x13
  | .cmpi _ => 0x14
  | .plog _ => 0x15
  | .sel _ => 0x16
  | .mov _ => 0x17
  | .movi _ => 0x18
  | .ldlit _ => 0x19
  | .clz _ => 0x1A
  | .popc _ => 0x1B
  | .bfx _ => 0x1C
  | .bfi _ => 0x1D
  | .lea _ => 0x1E
  | .fold _ => 0x1F
  | .nop _ => 0x20
  | .br _ => 0x21
  | .bri _ => 0x22
  | .call _ => 0x23
  | .calli _ => 0x24
  | .ret _ => 0x25
  | .loop _ => 0x26
  | .rep _ => 0x27
  | .exit _ => 0x28
  | .yield _ => 0x29
  | .waitev _ => 0x2A
  | .sleep _ => 0x2B
  | .cometLead _ => 0x2C
  | .cometJoin _ => 0x2C
  | .cometEnd _ => 0x2C
  | .detach _ => 0x2D
  | .rejoin _ => 0x2E
  | .trap _ => 0x2F
  | .brk _ => 0x31
  | .assert _ => 0x32
  | .rte _ => 0x30
  | .sysrd _ => 0x33
  | .syswr _ => 0x34
  | .time _ => 0x35
  | .cycles _ => 0x36
  | .beat _ => 0x37
  | .view _ => 0x38
  | .sbind _ => 0x39
  | .sunbind _ => 0x3A
  | .sstat _ => 0x3B
  | .ifence _ => 0x3C
  | .prefi _ => 0x3D
  | .prio _ => 0x3E
  | .slotcfg _ => 0x3F
  | .ld _ => 0x40
  | .st _ => 0x41
  | .lds _ => 0x42
  | .sts _ => 0x43
  | .ldx _ => 0x44
  | .stx _ => 0x45
  | .pf _ => 0x46
  | .l1inv _ => 0x47
  | .l1invr _ => 0x48
  | .cwait _ => 0x49
  | .movblk _ => 0x4A
  | .fillblk _ => 0x4B
  | .atomAdd _ => 0x4C
  | .atomMin _ => 0x4D
  | .atomMax _ => 0x4E
  | .atomAnd _ => 0x4F
  | .atomOr _ => 0x50
  | .atomXor _ => 0x51
  | .atomXchg _ => 0x52
  | .atomCas _ => 0x53
  | .atomInc _ => 0x54
  | .atomFadd _ => 0x55
  | .redAdd _ => 0x56
  | .redMin _ => 0x57
  | .redMax _ => 0x58
  | .redLog _ => 0x59
  | .redFadd _ => 0x5A
  | .capgive _ => 0x5B
  | .captake _ => 0x5C
  | .capq _ => 0x5D
  | .hgive _ => 0x5E
  | .hfree _ => 0x5F
  | .fork _ => 0x60
  | .join _ => 0x61
  | .joinm _ => 0x62
  | .spawn _ => 0x63
  | .launch _ => 0x64
  | .taskid _ => 0x65
  | .stealdom _ => 0x66
  | .dqstat _ => 0x67
  | .bari _ => 0x68
  | .bariFree _ => 0x68
  | .bara _ => 0x69
  | .barw _ => 0x6A
  | .semp _ => 0x6B
  | .semw _ => 0x6C
  | .twait _ => 0x6D
  | .tread _ => 0x6E
  | .tset _ => 0x6F
  | .gnode _ => 0x70
  | .gsub _ => 0x71
  | .gqry _ => 0x72
  | .publish _ => 0x73
  | .subscr _ => 0x74
  | .stopref _ => 0x75
  | .refchk _ => 0x76
  | .settlw _ => 0x77
  | .evpop _ => 0x78
  | .evwait _ => 0x79
  | .evpush _ => 0x7A
  | .qfence _ => 0x7B
  | .dpath _ => 0x7C
  | .pchk _ => 0x7D
  | .wdcfg _ => 0x7E
  | .evcfg _ => 0x7F
  | .vclaim _ => 0x80
  | .vrel _ => 0x81
  | .vreneg _ => 0x82
  | .vadd _ => 0x83
  | .vsub _ => 0x84
  | .vmul _ => 0x85
  | .vfma _ => 0x86
  | .vmin _ => 0x87
  | .vmax _ => 0x88
  | .vabs _ => 0x89
  | .vneg _ => 0x8A
  | .vand _ => 0x8B
  | .vor _ => 0x8C
  | .vxor _ => 0x8D
  | .vshl _ => 0x8E
  | .vshr _ => 0x8F
  | .vcmp _ => 0x90
  | .vsel _ => 0x91
  | .vmov _ => 0x92
  | .vbcast _ => 0x93
  | .vreduce _ => 0x94
  | .vscan _ => 0x95
  | .vfmas _ => 0x96
  | .vmulh _ => 0x97
  | .vsat _ => 0x98
  | .vcx _ => 0x99
  | .vperm _ => 0x9A
  | .vcompr _ => 0x9B
  | .vexpnd _ => 0x9C
  | .viota _ => 0x9D
  | .vrng _ => 0x9E
  | .vmask _ => 0x9F
  | .vcvt _ => 0xA0
  | .vcvts _ => 0xA1
  | .vrnd _ => 0xA2
  | .vclass _ => 0xA3
  | .vexp2 _ => 0xA4
  | .vlog2 _ => 0xA5
  | .vrcp _ => 0xA6
  | .vrsq _ => 0xA7
  | .vsqrt _ => 0xA8
  | .vdiv _ => 0xA9
  | .vsinpi _ => 0xAA
  | .vcospi _ => 0xAB
  | .vtanh _ => 0xAC
  | .vsigm _ => 0xAD
  | .vld _ => 0xAE
  | .vst _ => 0xAF
  | .vldg _ => 0xB0
  | .vstg _ => 0xB1
  | .vldw _ => 0xB2
  | .vstw _ => 0xB3
  | .tld _ => 0xB4
  | .tst _ => 0xB5
  | .ttr _ => 0xB6
  | .tmov _ => 0xB7
  | .tmovTv _ => 0xB7
  | .tmovVt _ => 0xB7
  | .tzero _ => 0xB8
  | .mset _ => 0xB9
  | .mget _ => 0xBA
  | .vpopc _ => 0xBB
  | .vfirst _ => 0xBC
  | .vpack _ => 0xBD
  | .vunpk _ => 0xBE
  | .vlut _ => 0xBF
  | .cjcfg _ => 0xC0
  | .contract _ => 0xC1
  | .drain _ => 0xC2
  | .acclr _ => 0xC3
  | .accst _ => 0xC4
  | .isect _ => 0xC5
  | .union _ => 0xC6
  | .merge _ => 0xC7
  | .isectc _ => 0xDA
  | .mergek _ => 0xDB
  | .kqpush _ => 0xC8
  | .kqstat _ => 0xC9
  | .copy _ => 0xCA
  | .copy2d _ => 0xCB
  | .copyk _ => 0xCC
  | .gather _ => 0xCD
  | .scatter _ => 0xCE
  | .pool _ => 0xCF
  | .smv _ => 0xD0
  | .smvcfg _ => 0xD1
  | .coll _ => 0xD2
  | .rput _ => 0xD3
  | .rget _ => 0xD4
  | .ratom _ => 0xD5
  | .rred _ => 0xD6
  | .pfpool _ => 0xD7
  | .ecancel _ => 0xD8
  | .estat _ => 0xD9
  | .cjsave _ => 0xDC
  | .cjload _ => 0xDD
  | .spillst _ => 0xDE
  | .evrule _ => 0xDF
  | .evruleOff _ => 0xDF
  | .lwadv _ => 0xE0
  | .lwadd _ => 0xE1
  | .lwset _ => 0xE2
  | .lwmax _ => 0xE3
  | .lwarm _ => 0xE4
  | .lwdisarm _ => 0xE5
  | .lwpeek _ => 0xE6
  | .lwcas _ => 0xE7
  | .lwxch _ => 0xE8
  | .lwclr _ => 0xE9
  | .lwstep _ => 0xEA
  | .lwdsc _ => 0xEB
  | .lwtime _ => 0xEC
  | .vlwadv _ => 0xED
  | .vlwadd _ => 0xEE
  | .lwdom _ => 0xEF
  | .ephstat _ => 0xF0
  | .ctxsave _ => 0xF1
  | .ctxload _ => 0xF2
  | .tlbinv _ => 0xF3
  | .tlbinva _ => 0xF4
  | .fbpop _ => 0xF5
  | .replay _ => 0xF6
  | .pmread _ => 0xF7
  | .eccinj _ => 0xF8
  | .capset _ => 0xF9
  | .semi _ => 0xFA
  | .dqspill _ => 0xFB
  | .sliceq _ => 0xFC
  | .xlate _ => 0xFD
  | .lwscan _ => 0xFE
  | .hcall _ => 0xFF
  | .lawOpPerform .. => 0
  | .interlockLand .. => 0
  | .loadLand .. => 0
  | .storeAck .. => 0
  | .atomicComplete .. => 0
  | .lawOpComplete .. => 0
  | .wcbEntryTimeout .. => 0
  | .sliceRequest .. => 0
  | .l2Fill .. => 0
  | .l1Fill .. => 0
  | .cxlCompletion .. => 0
  | .cxlTimeout .. => 0
  | .peerInvalidation .. => 0
  | .spanDeviceLeave .. => 0
  | .hostBar2Read .. => 0
  | .hostBar2Write .. => 0
  | .bar4Write .. => 0
  | .tlbMiss .. => 0
  | .pageWalkEnd .. => 0
  | .poisonRead .. => 0
  | .softErrorDetected .. => 0
  | .ephemerisFire .. => 0
  | .eventRecordDeliver .. => 0
  | .evqRingRefill .. => 0
  | .eventPortFrame .. => 0
  | .ingestOperation .. => 0
  | .ptpMessage .. => 0
  | .ptpDelayReq .. => 0
  | .gpCommandComplete .. => 0
  | .gpRowFault .. => 0
  | .copyComplete .. => 0
  | .smvComplete .. => 0
  | .setOpComplete .. => 0
  | .remoteCommandComplete .. => 0
  | .collResult .. => 0
  | .collSwitchTimeout .. => 0
  | .collRingTimeout .. => 0
  | .contractPreemptTimeout .. => 0
  | .tileNotice .. => 0
  | .fireRetry .. => 0
  | .taskStart .. => 0
  | .stealRound .. => 0
  | .stealBackoffExpire .. => 0
  | .stealRequest .. => 0
  | .joinDecrement .. => 0
  | .packetParse .. => 0
  | .gangPlace .. => 0
  | .launchReserveTimeout .. => 0
  | .fenceCondition .. => 0
  | .gangComplete .. => 0
  | .nodeFinish .. => 0
  | .watchdogExpire .. => 0
  | .agingRaise .. => 0
  | .laneGrant .. => 0
  | .semaphoreServe .. => 0
  | .waitRelease .. => 0
  | .cometForm .. => 0
  | .preemptByClass .. => 0
  | .stopComplete .. => 0
  | .create => 0
  | .destroy => 0
  | .stop => 0
  | .stopsave => 0
  | .resume => 0
  | .kill => 0
  | .hostReplay => 0
  | .gangres => 0
  | .gangkill => 0
  | .qreset => 0
  | .reply => 0
  | .poolmap => 0
  | .erxring => 0
  | .nring => 0
  | .setcap => 0
  | .attest .. => 0
  | .fwstage => 0
  | .fwcommit => 0
  | .epcfg => 0
  | .unknownCommand .. => 0
  | .dbellWrite .. => 0
  | .fbpophRead .. => 0
  | .registerWrite .. => 0
  | .powerCapWindow .. => 0
  | .thermalEvent .. => 0
  | .powerLoss .. => 0
  | .powerOn .. => 0
  | .fullService => 0
  | .pcieLinkDown => 0
  | .nconsWrite .. => 0
  | .pcieLinkUp => 0
  | .spanDeviceJoin .. => 0
  | .collPartialResult .. => 0
  | .powerCapEffecterWrite .. => 0

/-- Bits [95:8] of the word of an instruction. -/
def Instr.fields : Instr → Nat
  | .ill => 0
  | .add x => x.code
  | .addi x => x.code
  | .sub x => x.code
  | .mul x => x.code
  | .mulh x => x.code
  | .div x => x.code
  | .rem x => x.code
  | .mac x => x.code
  | .and x => x.code
  | .or x => x.code
  | .xor x => x.code
  | .andn x => x.code
  | .shl x => x.code
  | .shr x => x.code
  | .sar x => x.code
  | .rotl x => x.code
  | .min x => x.code
  | .max x => x.code
  | .cmp x => x.code
  | .cmpi x => x.code
  | .plog x => x.code
  | .sel x => x.code
  | .mov x => x.code
  | .movi x => x.code
  | .ldlit x => x.code
  | .clz x => x.code
  | .popc x => x.code
  | .bfx x => x.code
  | .bfi x => x.code
  | .lea x => x.code
  | .fold x => x.code
  | .nop x => x.code
  | .br x => x.code
  | .bri x => x.code
  | .call x => x.code
  | .calli x => x.code
  | .ret x => x.code
  | .loop x => x.code
  | .rep x => x.code
  | .exit x => x.code
  | .yield x => x.code
  | .waitev x => x.code
  | .sleep x => x.code
  | .cometLead x => x.code
  | .cometJoin x => x.code
  | .cometEnd x => x.code
  | .detach x => x.code
  | .rejoin x => x.code
  | .trap x => x.code
  | .brk x => x.code
  | .assert x => x.code
  | .rte x => x.code
  | .sysrd x => x.code
  | .syswr x => x.code
  | .time x => x.code
  | .cycles x => x.code
  | .beat x => x.code
  | .view x => x.code
  | .sbind x => x.code
  | .sunbind x => x.code
  | .sstat x => x.code
  | .ifence x => x.code
  | .prefi x => x.code
  | .prio x => x.code
  | .slotcfg x => x.code
  | .ld x => x.code
  | .st x => x.code
  | .lds x => x.code
  | .sts x => x.code
  | .ldx x => x.code
  | .stx x => x.code
  | .pf x => x.code
  | .l1inv x => x.code
  | .l1invr x => x.code
  | .cwait x => x.code
  | .movblk x => x.code
  | .fillblk x => x.code
  | .atomAdd x => x.code
  | .atomMin x => x.code
  | .atomMax x => x.code
  | .atomAnd x => x.code
  | .atomOr x => x.code
  | .atomXor x => x.code
  | .atomXchg x => x.code
  | .atomCas x => x.code
  | .atomInc x => x.code
  | .atomFadd x => x.code
  | .redAdd x => x.code
  | .redMin x => x.code
  | .redMax x => x.code
  | .redLog x => x.code
  | .redFadd x => x.code
  | .capgive x => x.code
  | .captake x => x.code
  | .capq x => x.code
  | .hgive x => x.code
  | .hfree x => x.code
  | .fork x => x.code
  | .join x => x.code
  | .joinm x => x.code
  | .spawn x => x.code
  | .launch x => x.code
  | .taskid x => x.code
  | .stealdom x => x.code
  | .dqstat x => x.code
  | .bari x => x.code
  | .bariFree x => x.code
  | .bara x => x.code
  | .barw x => x.code
  | .semp x => x.code
  | .semw x => x.code
  | .twait x => x.code
  | .tread x => x.code
  | .tset x => x.code
  | .gnode x => x.code
  | .gsub x => x.code
  | .gqry x => x.code
  | .publish x => x.code
  | .subscr x => x.code
  | .stopref x => x.code
  | .refchk x => x.code
  | .settlw x => x.code
  | .evpop x => x.code
  | .evwait x => x.code
  | .evpush x => x.code
  | .qfence x => x.code
  | .dpath x => x.code
  | .pchk x => x.code
  | .wdcfg x => x.code
  | .evcfg x => x.code
  | .vclaim x => x.code
  | .vrel x => x.code
  | .vreneg x => x.code
  | .vadd x => x.code
  | .vsub x => x.code
  | .vmul x => x.code
  | .vfma x => x.code
  | .vmin x => x.code
  | .vmax x => x.code
  | .vabs x => x.code
  | .vneg x => x.code
  | .vand x => x.code
  | .vor x => x.code
  | .vxor x => x.code
  | .vshl x => x.code
  | .vshr x => x.code
  | .vcmp x => x.code
  | .vsel x => x.code
  | .vmov x => x.code
  | .vbcast x => x.code
  | .vreduce x => x.code
  | .vscan x => x.code
  | .vfmas x => x.code
  | .vmulh x => x.code
  | .vsat x => x.code
  | .vcx x => x.code
  | .vperm x => x.code
  | .vcompr x => x.code
  | .vexpnd x => x.code
  | .viota x => x.code
  | .vrng x => x.code
  | .vmask x => x.code
  | .vcvt x => x.code
  | .vcvts x => x.code
  | .vrnd x => x.code
  | .vclass x => x.code
  | .vexp2 x => x.code
  | .vlog2 x => x.code
  | .vrcp x => x.code
  | .vrsq x => x.code
  | .vsqrt x => x.code
  | .vdiv x => x.code
  | .vsinpi x => x.code
  | .vcospi x => x.code
  | .vtanh x => x.code
  | .vsigm x => x.code
  | .vld x => x.code
  | .vst x => x.code
  | .vldg x => x.code
  | .vstg x => x.code
  | .vldw x => x.code
  | .vstw x => x.code
  | .tld x => x.code
  | .tst x => x.code
  | .ttr x => x.code
  | .tmov x => x.code
  | .tmovTv x => x.code
  | .tmovVt x => x.code
  | .tzero x => x.code
  | .mset x => x.code
  | .mget x => x.code
  | .vpopc x => x.code
  | .vfirst x => x.code
  | .vpack x => x.code
  | .vunpk x => x.code
  | .vlut x => x.code
  | .cjcfg x => x.code
  | .contract x => x.code
  | .drain x => x.code
  | .acclr x => x.code
  | .accst x => x.code
  | .isect x => x.code
  | .union x => x.code
  | .merge x => x.code
  | .isectc x => x.code
  | .mergek x => x.code
  | .kqpush x => x.code
  | .kqstat x => x.code
  | .copy x => x.code
  | .copy2d x => x.code
  | .copyk x => x.code
  | .gather x => x.code
  | .scatter x => x.code
  | .pool x => x.code
  | .smv x => x.code
  | .smvcfg x => x.code
  | .coll x => x.code
  | .rput x => x.code
  | .rget x => x.code
  | .ratom x => x.code
  | .rred x => x.code
  | .pfpool x => x.code
  | .ecancel x => x.code
  | .estat x => x.code
  | .cjsave x => x.code
  | .cjload x => x.code
  | .spillst x => x.code
  | .evrule x => x.code
  | .evruleOff x => x.code
  | .lwadv x => x.code
  | .lwadd x => x.code
  | .lwset x => x.code
  | .lwmax x => x.code
  | .lwarm x => x.code
  | .lwdisarm x => x.code
  | .lwpeek x => x.code
  | .lwcas x => x.code
  | .lwxch x => x.code
  | .lwclr x => x.code
  | .lwstep x => x.code
  | .lwdsc x => x.code
  | .lwtime x => x.code
  | .vlwadv x => x.code
  | .vlwadd x => x.code
  | .lwdom x => x.code
  | .ephstat x => x.code
  | .ctxsave x => x.code
  | .ctxload x => x.code
  | .tlbinv x => x.code
  | .tlbinva x => x.code
  | .fbpop x => x.code
  | .replay x => x.code
  | .pmread x => x.code
  | .eccinj x => x.code
  | .capset x => x.code
  | .semi x => x.code
  | .dqspill x => x.code
  | .sliceq x => x.code
  | .xlate x => x.code
  | .lwscan x => x.code
  | .hcall x => x.code
  | .lawOpPerform .. => 0
  | .interlockLand .. => 0
  | .loadLand .. => 0
  | .storeAck .. => 0
  | .atomicComplete .. => 0
  | .lawOpComplete .. => 0
  | .wcbEntryTimeout .. => 0
  | .sliceRequest .. => 0
  | .l2Fill .. => 0
  | .l1Fill .. => 0
  | .cxlCompletion .. => 0
  | .cxlTimeout .. => 0
  | .peerInvalidation .. => 0
  | .spanDeviceLeave .. => 0
  | .hostBar2Read .. => 0
  | .hostBar2Write .. => 0
  | .bar4Write .. => 0
  | .tlbMiss .. => 0
  | .pageWalkEnd .. => 0
  | .poisonRead .. => 0
  | .softErrorDetected .. => 0
  | .ephemerisFire .. => 0
  | .eventRecordDeliver .. => 0
  | .evqRingRefill .. => 0
  | .eventPortFrame .. => 0
  | .ingestOperation .. => 0
  | .ptpMessage .. => 0
  | .ptpDelayReq .. => 0
  | .gpCommandComplete .. => 0
  | .gpRowFault .. => 0
  | .copyComplete .. => 0
  | .smvComplete .. => 0
  | .setOpComplete .. => 0
  | .remoteCommandComplete .. => 0
  | .collResult .. => 0
  | .collSwitchTimeout .. => 0
  | .collRingTimeout .. => 0
  | .contractPreemptTimeout .. => 0
  | .tileNotice .. => 0
  | .fireRetry .. => 0
  | .taskStart .. => 0
  | .stealRound .. => 0
  | .stealBackoffExpire .. => 0
  | .stealRequest .. => 0
  | .joinDecrement .. => 0
  | .packetParse .. => 0
  | .gangPlace .. => 0
  | .launchReserveTimeout .. => 0
  | .fenceCondition .. => 0
  | .gangComplete .. => 0
  | .nodeFinish .. => 0
  | .watchdogExpire .. => 0
  | .agingRaise .. => 0
  | .laneGrant .. => 0
  | .semaphoreServe .. => 0
  | .waitRelease .. => 0
  | .cometForm .. => 0
  | .preemptByClass .. => 0
  | .stopComplete .. => 0
  | .create => 0
  | .destroy => 0
  | .stop => 0
  | .stopsave => 0
  | .resume => 0
  | .kill => 0
  | .hostReplay => 0
  | .gangres => 0
  | .gangkill => 0
  | .qreset => 0
  | .reply => 0
  | .poolmap => 0
  | .erxring => 0
  | .nring => 0
  | .setcap => 0
  | .attest .. => 0
  | .fwstage => 0
  | .fwcommit => 0
  | .epcfg => 0
  | .unknownCommand .. => 0
  | .dbellWrite .. => 0
  | .fbpophRead .. => 0
  | .registerWrite .. => 0
  | .powerCapWindow .. => 0
  | .thermalEvent .. => 0
  | .powerLoss .. => 0
  | .powerOn .. => 0
  | .fullService => 0
  | .pcieLinkDown => 0
  | .nconsWrite .. => 0
  | .pcieLinkUp => 0
  | .spanDeviceJoin .. => 0
  | .collPartialResult .. => 0
  | .powerCapEffecterWrite .. => 0

/-- The 96-bit word of an instruction. -/
def encode (i : Instr) : Nat := i.opcode + 2 ^ 8 * i.fields

/-- The instruction read from a word whose bits are `w` (R11: three little-endian words, the first lowest): the word's
bytes go through the decoder. -/
noncomputable def decodeTableWord (nbits w : Nat) : Option Instr :=
  (decodeBytes (toBytes 12 (w % 2 ^ nbits))).map fun p => p.1

end Sys2Proof
end

