-- ==== Sys2Proof/Config.lean ====
section
/-! DEFINITION. What an implementation fixes and the spec leaves open: constants without a value and functions without a
body. No proof can learn a value of one, so every statement holds whatever they are. -/
namespace Sys2Proof.Config

/-- The special functions whose results are one of two bracketing values (R231). -/
inductive Special where
  | exp2 | log2 | rsq | sinpi | cospi | tanh | sigm
  deriving DecidableEq, Repr

/-- Which of the two bracketing values the function gives for the operand code, in the format (R231): true for the upper.
A fixed function of the operand, the same on every core and every run. Log entry 6. -/
opaque special : Special → Fmt → Nat → Bool

/-- The one-byte lane that VCLASS writes for +infinity, class 8, by format: the spec states no value (R234). Log entry 5. -/
opaque classInf : Fmt → BitVec 8

/-- Does the firmware image verify under the fused key (R366)? Log entry 7. -/
opaque imageOk : List Nat → Bool

/-- The XMSS^MT signature over the report at a state index (R367). Log entry 7. -/
opaque sign : Nat → List Nat → List Nat

/-- What the sidereal clock of another device of the Span shows, by device and this module's own clock, within the bounds that R114 sets on
its rate (R115). Log entry 10. -/
opaque peerClock : Nat → Nat → Nat

/-- The factory MAC address of an event port (R360). Log entry 43. -/
opaque portMac : Nat → BitVec 48

/-- A byte that the spec leaves open, by freshness number. Log entry 5. -/
opaque freeByte : Nat → BitVec 8

/-- A 64-bit value that the spec leaves open, by freshness number. Log entry 5. -/
opaque freeWord : Nat → BitVec 64

end Sys2Proof.Config
end

