-- ==== Sys2Proof/Machine/State.lean ====
section
/-! DEFINITION. The state of the module, as plain data: everything the spec gives the machine.
Tables are lists of (key, value) pairs; a key that a table does not list has the value named where the table is read, so
every slot, core, pair, cluster and die holds its initial state at reset. -/
namespace Sys2Proof.Machine

/-- A table by number, keys ascending. -/
abbrev Tab (α : Type) := List (Nat × α)

/-- Bytes by address, in canonical form: addresses strictly rising, no byte 0. An unlisted byte reads 0
(DESIGN CHOICE, log entry 2 for memory, 3 for scratchpad). -/
abbrev Mem := List Host.Cell

/-- The canonical form. -/
def Mem.wf : Mem → Bool
  | [] => true
  | [c] => c.2 != 0
  | c :: d :: m => c.2 != 0 && decide (c.1 < d.1) && Mem.wf (d :: m)

/-- Why a step stops the model. -/
inductive Fault where
  /-- A turn of the agenda names a slot that runs no task. Raised by `slotStep` alone; the default order never chooses such a slot. Safe:
  hardware issues nothing there. -/
  | noTask
  deriving DecidableEq, Repr

/-- Why the model gives no next state. -/
inductive Refusal where
  /-- The instruction has no meaning yet. Raised by `exec` alone. Safe. -/
  | notModelled (mnemonic : String)
  /-- A device step that cannot happen in this state was asked for: no such request, command, task or timer. Raised by
  the meanings of device and host steps. Safe: the hardware does not make that step there. -/
  | notEnabled
  deriving DecidableEq, Repr

/-- A pending fixed-latency write (R19): register bytes and their values, readable from nominal count `due`. -/
structure Pend where
  cells : List (Nat × Nat)
  due : Nat
  deriving DecidableEq, Repr

/-- What an interlocked write waits for (R21). -/
inductive LandSrc where
  | ready      -- the value lands by itself (INTERLOCK_LAND)
  | gang       -- the same, of a PCHK, whose PRE becomes 1 with a request that comes before it lands (R281)
  | load       -- a load of oc.ld that holds a load entry (LOAD_LAND)
  | counted    -- counts in oc.ld and holds no load entry (SLICEQ, XLATE)
  | atomic     -- an atomic of oc.at (ATOMIC_COMPLETE)
  | law        -- a law operation of oc.lw (LAW_OP_COMPLETE)
  deriving DecidableEq, Repr

/-- A pending interlocked write (R21): register bytes with their values, absent until known; `from_` is the nominal count
from which readers wait (R231; 0 for every other operation). `back` is that count of the interrupted flow while a handler runs, which
sees the write as landed (R22). -/
structure Land where
  id : Nat
  cells : List (Nat × Option Nat)
  src : LandSrc
  from_ : Nat
  back : Option Nat := none
  deriving DecidableEq, Repr

/-- A stream binding (R51). -/
structure Stream where
  base : Nat
  cnt0 : Nat
  cnt1 : Nat
  str0 : Int
  str1 : Int
  ty : Ty
  out : Bool
  pos : Nat
  ch : Nat
  deriving DecidableEq, Repr

/-- A timeline counter of a slot (R36, R108): its value, the number last issued, and the status of the latest command
that ended early (R215). -/
structure Timeline where
  count : Nat
  issued : Nat
  st : Nat
  deriving DecidableEq, Repr

/-- The access a translation is for (R334, R337). -/
inductive Acc where
  | read | write | fetch
  deriving DecidableEq, Repr

/-- A translation held in a TLB (R92, R328): the first granule, the size in granules, the frame's physical address. -/
structure TlbE where
  asid : Nat
  granule : Nat
  size : Nat
  pa : Nat
  w : Bool
  x : Bool
  deriving DecidableEq, Repr

/-- The state of one look-up of the instruction at issue (R326): served ones keep their translation until it retires. -/
inductive LookSt where
  | toL2 | walking | failed
  | served (e : TlbE)
  deriving DecidableEq, Repr

structure Look where
  granule : Nat
  acc : Acc
  st : LookSt
  deriving DecidableEq, Repr

/-- What a blocked slot waits for. -/
inductive Wait where
  | events (sel : Nat) (dl : Option Nat)        -- WAITEV (R72)
  | until_ (t : Nat)                            -- SLEEP (R73)
  | counter (c n : Nat)                         -- CWAIT and every wait on oc.* (R96): counter 0 to 3 at most n
  | allZero (ld st at_ lw : Bool)               -- a release or ATOM: the named counters are 0
  | timeline (k t n : Nat)                      -- TWAIT (R288)
  | idle (k t : Nat)                            -- a timeline with no incomplete command (ECANCEL, R187)
  | room (k t : Nat)                            -- fewer than 16 incomplete commands (R108)
  | register (addr len : Nat)                   -- an interlock (R21)
  | join (core off : Nat)                       -- JOIN (R277)
  | barrier (cluster obj gen n : Nat)           -- BARW (R285)
  | arrive (cluster obj gen m : Nat)            -- BARA (R284)
  | semW (ctx pair sem n ticket : Nat)          -- SEMW (R286)
  | semP (ctx pair sem n ticket : Nat)          -- SEMP (R286)
  | banks                                       -- earlier bank accesses (R286, R299)
  | settled (cluster ctx grp : Nat)             -- SETTLW (R251)
  | records (n : Nat)                           -- EVWAIT, EVPOP (R159, R160)
  | refill                                      -- EVPOP: a record moves in from the ring (R159)
  | queueRoom (ctx q : Nat)                     -- LAUNCH, QFENCE (R280)
  | units (g shp since : Nat) (res : Bool)      -- SPAWN (R279): when it began, and whether units are reserved for it (R264)
  | lanes                                       -- VCLAIM, and a resumed slot's claim (R221, R222)
  | capability (entry core : Nat)               -- CAPTAKE (R323)
  | granule (va pa : Nat)                       -- CAPGIVE (R323)
  | buffer (lo len : Nat)                       -- HFREE (R299)
  | keyRoom (pair ctx q : Nat)                  -- KQPUSH (R190)
  | keyHead (pair ctx qa qb : Nat) (na nb : Bool)  -- CONTRACT (R195)
  | engine                                      -- the pair's engine (R187)
  | reply                                       -- HCALL (R357)
  | ringPlace                                   -- HCALL: a place in the notification ring (R356)
  | xlate                                       -- look-ups of the instruction
  | walk (die asid granule : Nat)               -- a walk of the page by the die (R327)
  | line (line : Nat)                           -- no request for a line under way
  | slice (unit : Nat)                          -- a home slice holds no request that is to be performed
  | data                                        -- lines asked for by the instruction at issue (R50, R105)
  | hostRead                                    -- the core's earlier host reads (R307)
  | hostStore (line : Nat)                      -- the block move's own earlier host stores to the line (R105)
  | service                                     -- full service (R365)
  | loadEntry                                   -- a load entry of the core (R95)
  | lead (mask lag sc : Nat)                    -- comet.lead (R82)
  | follow (leader sc : Nat)                    -- comet.join (R82)
  | rejoin (sc : Nat)                           -- REJOIN (R84)
  | landed                                      -- RTE: no interlocked write pending (R22)
  | stopped                                     -- the context is stopped
  | released                                    -- a TWAIT or VCLAIM already released (R220, R290)
  | domain (ctx d : Nat)                        -- LWDOM to free-running (R131)
  | flush (reqs cmds lands : List Nat)          -- TLBINV, TLBINVA: accesses made through removed entries (R335)
  deriving DecidableEq, Repr

/-- A REP in progress (R69), with its own stall count. -/
structure Rep where
  pc : Nat
  d : Nat
  a : Nat
  inc : Nat
  sc : Nat
  deriving DecidableEq, Repr

/-- A word of a leader's stream on its way to a follower (R83), and the arithmetic cycle at which the follower issues it; `rep` is the REP
in progress: of a body the one that repeats it, of a REP its own when it begins repetitions. -/
structure Fwd where
  pc : Nat
  word : Nat
  next : Nat
  rep : Option Rep
  due : Nat
  deriving DecidableEq, Repr

/-- A slot's part in a comet (R82 to R85). -/
inductive CometRole where
  | leader (members : List Nat) (lag : Nat) (ending : Bool)
  | follower (lead : Nat) (queue : List Fwd)
  | detached (lead : Nat)
  deriving DecidableEq, Repr

/-- Where a task came from (R281): forked, root, fired with its subscription entry, or node. -/
inductive Origin where
  | forked
  | root
  | fired (cluster idx : Nat)
  | node (cluster idx : Nat)
  deriving DecidableEq, Repr

/-- A task in a deque, or on its way into a slot: its record of eight quads and what the hardware keeps with it
(R252, R257). `place` is the placement set (R320), as slot keys. -/
structure Entry where
  quads : List Nat
  path : Nat
  gang : Option Nat
  origin : Origin
  place : List Nat
  octet : Nat
  word : Nat
  deriving DecidableEq, Repr

/-- The running task; `seq` is the sequence number of its gang's packet (R281). -/
structure Task where
  e : Entry
  stolen : Bool
  core : Nat
  slot : Nat
  ord : Nat
  grp : Nat
  cix : Nat
  shp : Nat
  ng : Nat
  seq : Nat
  deriving DecidableEq, Repr

/-- What trap entry saves (R22): the interrupted nominal count, the old value of every byte with a pending write, and the
pending writes themselves. -/
structure Saved where
  n : Nat
  old : List (Nat × Nat)
  pw : List Pend
  deriving DecidableEq, Repr

/-- What JOIN sets aside (R277): everything R41 sets at a task start, the nominal count, and the joining task. -/
structure Aside where
  rf : Mem
  pw : List Pend
  pc : Nat
  n : Nat
  view : Nat
  streams : Tab Stream
  grantP : Nat
  grantN : Nat
  grantReq : Nat
  schk : Bool
  tvec : Nat
  task : Option Task
  taskh : Nat
  level : Nat
  ceil : Nat
  owned : List Nat
  cycles : Nat
  deriving DecidableEq, Repr

/-- The matrix record of SMVCFG (R217), as eight quads. -/
abbrev MatRec := List Nat

/-- Whether a slot belongs to a running, stopped or saved context (R346). A slot of a context with a stop requested
(`Ctx.pre`) still counts as running until the stop is complete. -/
inductive RunSt where
  | free        -- the slot belongs to no context
  | running
  | stopped
  | saved
  deriving DecidableEq, Repr

/-- One context slot of a core. `mid` marks an instruction that has done some of its units (R106), and `cfgNext` a SLOTCFG setting for the boundary after it (R81); `got` holds the bytes (physical
address, value) that the lines asked for by the instruction at issue have brought. -/
structure Slot where
  run : RunSt
  ctx : Nat
  rf : Mem
  pw : List Pend
  il : List Land
  pc : Nat
  n : Nat
  view : Nat
  grantP : Nat
  grantN : Nat
  grantReq : Nat
  streams : Tab Stream
  schk : Bool
  tvec : Nat
  tcause : Nat
  tret : Nat
  tval : Nat
  inh : Bool
  ts0 : Nat
  ts1 : Nat
  saved : Option Saved
  written : List Nat
  ocLd : Nat
  ocSt : Nat
  ocAt : Nat
  ocLw : Nat
  tl : Tab Timeline
  look : List Look
  parked : Bool
  wait : Option Wait
  rep : Option Rep
  mid : Bool
  got : List (Nat × Nat)
  latch : Nat
  comet : Option CometRole
  task : Option Task
  next : Option Entry
  nextStolen : Bool
  taskh : Nat
  level : Nat
  ceil : Nat
  cfgCeil : Nat
  enabled : Bool
  cfgNext : Option (Bool × Nat)
  age : Nat
  boost : Nat
  stamp : Nat
  deque : List Entry
  spillHead : Nat
  spillCnt : Nat
  spilled : List Entry
  dqring : Nat
  steald : Nat
  round : Nat
  stealOk : Nat
  stealEmpty : Nat
  victims : List Nat
  backoff : Option Nat
  aside : List Aside
  evq : List (List Nat)
  evring : Nat
  rq : Nat
  rqHead : Nat
  drop : Nat
  ovf : Bool
  pmsel : Nat
  pmc : Tab Nat
  smv : Option MatRec
  hcSent : Bool
  hcReply : Option Nat
  cycles : Nat
  owned : List Nat
  ir : Nat
  deriving DecidableEq, Repr

/-- A timeline at creation (R353: every sequence number 0; log entry 4). -/
def Timeline.init : Timeline := ⟨0, 0, 0⟩

/-- A slot at reset (R41, R43, R81, R274, R340; the values the spec does not give are log entry 4). -/
def Slot.init : Slot where
  run := .free
  ctx := 0
  rf := []
  pw := []
  il := []
  pc := 0
  n := 0
  view := 0
  grantP := 0
  grantN := 0
  grantReq := 0
  streams := []
  schk := false
  tvec := 0
  tcause := 0
  tret := 0
  tval := 0
  inh := false
  ts0 := 0
  ts1 := 0
  saved := none
  written := []
  ocLd := 0
  ocSt := 0
  ocAt := 0
  ocLw := 0
  tl := []
  look := []
  parked := false
  wait := none
  rep := none
  mid := false
  got := []
  latch := 0
  comet := none
  task := none
  next := none
  nextStolen := false
  taskh := 0
  level := 3
  ceil := 3
  cfgCeil := 3
  enabled := true
  cfgNext := none
  age := 0
  boost := 0
  stamp := 0
  deque := []
  spillHead := 0
  spillCnt := 0
  spilled := []
  dqring := 0
  steald := 2
  round := 0
  stealOk := 0
  stealEmpty := 0
  victims := []
  backoff := none
  aside := []
  evq := []
  evring := 0
  rq := 0
  rqHead := 0
  drop := 0
  ovf := false
  pmsel := 0
  pmc := []
  smv := none
  hcSent := false
  hcReply := none
  cycles := 0
  owned := []
  ir := 0

/-- A line held in L1 (R89): its number PA / 128, its 128 bytes as they were filled, and the offsets of its poisoned words (R344). -/
structure L1Line where
  line : Nat
  data : Mem
  bad : List Nat := []
  deriving DecidableEq, Repr

/-- An entry of the write-combining buffer (R90): the line, its bytes (address, value), the order of the latest store to each among the core's
(R91), the context, the stores it holds as tokens, one per store, and the cycle it was opened. -/
structure Wcb where
  line : Nat
  bytes : List (Nat × Nat)
  seqs : Tab Nat
  ctx : Nat
  stores : List Nat
  opened : Nat
  deriving DecidableEq, Repr

/-- A buffer of the handle pool (R255): granule, size in KiB, generation, owning slot while it has one, and whether it was
given (R299). -/
structure Buf where
  off : Nat
  size : Nat
  gen : Nat
  owner : Option Nat
  given : Bool
  deriving DecidableEq, Repr

/-- One core. -/
structure Core where
  l1 : List L1Line
  wcb : List Wcb
  tlb : List TlbE
  bufs : List Buf
  gens : Tab Nat
  slots : Nat
  deriving DecidableEq, Repr

def Core.init : Core := ⟨[], [], [], [], [], 0⟩

/-- A cell of the accumulator file (R183, R185), 128 bits as a number. -/
abbrev Cell := Nat

/-- A table entry of the conjunction engine: its place (bank · NS + slot), key and W² cells. -/
structure AccEntry where
  place : Nat
  key : Nat
  cells : List Cell
  deriving DecidableEq, Repr

/-- A tuple in the CAM (R196): key and strip bytes. -/
structure Tuple where
  key : Nat
  strip : List Nat
  deriving DecidableEq, Repr

/-- The group in progress (R196, R197). `opening` while it takes its B tuples. -/
structure Group where
  k : Nat
  opening : Bool
  places : List Tuple
  held : Option Tuple
  next : Nat
  cursor : List Nat
  fmt : Fmt
  deriving DecidableEq, Repr

/-- Table classes (R194). -/
inductive AccClass where
  | none | exactFloat | exactInt | fp32
  deriving DecidableEq, Repr

/-- The conjunction engine and semaphores of a pair, per context (R190, R192, R286). `held` counts the records of the spill
ring, which lies in scratchpad; `busy` is the slot whose synchronous command has the engine, once the commands with a lower name than `from_`
have completed (R187). -/
structure Pair where
  kq : Tab (List Nat)
  ps : Tab Nat
  semW : List Nat
  semP : List Nat
  wc : Nat
  nb : Nat
  ns : Nat
  p : Nat
  ring : Nat
  cls : AccClass
  table : List AccEntry
  held : Nat
  ringHead : Nat
  high : Nat
  group : Option Group
  busy : Option Nat
  from_ : Nat
  deriving DecidableEq, Repr

/-- The state a pair's engine holds for a context when it is created (R192). -/
def Pair.init : Pair where
  kq := []
  ps := []
  semW := []
  semP := []
  wc := 0
  nb := 16
  ns := 1
  p := 1
  ring := 0
  cls := .none
  table := []
  held := 0
  ringHead := 0
  high := 0
  group := none
  busy := none
  from_ := 0

/-- A claim on the lane pool of an octet (R220): the lanes wanted and the least that serve it; `keep` marks the claim of a
resumed slot, whose nominal grant stays (R221). -/
structure Claim where
  slot : Nat
  want : Nat
  least : Nat
  keep : Bool
  deriving DecidableEq, Repr

/-- A place where a law word is held: window byte of the octet, or physical address. -/
structure EphEntry where
  place : Nat
  ctx : Nat
  slot : Nat
  domain : Nat
  time : Nat
  w128 : Bool
  named : Nat
  deriving DecidableEq, Repr

/-- An octet: lane claims in order of arrival, instruction cache, ephemeris, and the functions whose tables its
special-function unit holds, by opcode, latest first (R231). -/
structure Octet where
  claims : List Claim
  tables : List Nat
  icache : List L1Line
  eph : List EphEntry
  refused : Tab Nat
  deriving DecidableEq, Repr

def Octet.init : Octet := ⟨[], [], [], [], []⟩

/-- A barrier object (R283): members as core indices of the cluster, phase, arrival counts. -/
structure Barrier where
  live : Bool
  ctx : Nat
  gen : Nat
  mask : Nat
  phase : Nat
  arrived : Tab Nat
  deriving DecidableEq, Repr

def Barrier.init : Barrier := ⟨false, 0, 0, 0, 0, []⟩

/-- The state of a subscription's task (R242). -/
inductive SubTask where
  | none
  | pending (h : Nat) (held : Bool)
  | running (h : Nat)
  deriving DecidableEq, Repr

/-- An entry of the subscription table (R242). `freed` marks an entry that settlw.rel freed while its fire was held. -/
structure Sub where
  ctx : Nat
  block : Nat
  va : Nat
  quads : List Nat
  slot : Nat
  grp : Nat
  latest : Nat
  fired : Nat
  task : SubTask
  gang : Option Nat
  freed : Bool
  path : Nat
  place : List Nat
  deriving DecidableEq, Repr

/-- A constellation node (R269): its record's fields, whether it is live, launched, its work ended, it has finished, or it cannot
reach its counter, and its constellation. -/
structure Node where
  kind : Nat
  npred : Nat
  succ : List Nat
  arg : Nat
  val : Nat
  live : Bool
  launched : Bool
  ended : Bool
  finished : Bool
  stuck : Bool
  con : Nat
  deriving DecidableEq, Repr

/-- A constellation of a cluster unit (R292). -/
structure Constel where
  gen : Nat
  ctx : Nat
  slot : Nat
  live : Bool
  left : Nat
  bad : Bool
  flt : Bool
  path : Nat
  gang : Option Nat
  place : List Nat
  deriving DecidableEq, Repr

/-- A cluster unit; `held` are the lines it holds for .clu atomics (R294). -/
structure Cluster where
  held : List Nat
  bars : Tab Barrier
  subs : Tab Sub
  nodes : Tab Node
  cons : Tab Constel
  deriving DecidableEq, Repr

def Cluster.init : Cluster := ⟨[], [], [], [], []⟩

/-- A walk in progress in a die's L2 TLB (R327). -/
structure Walk where
  asid : Nat
  granule : Nat
  acc : Acc
  deriving DecidableEq, Repr

/-- A pending fault (R327). -/
structure PFault where
  asid : Nat
  granule : Nat
  kind : Nat
  deriving DecidableEq, Repr

/-- A compute die: L2 TLB, walks, pending faults, corrected-error and other monitor counts (R327, R362). -/
structure Die where
  tlb : List TlbE
  walks : List Walk
  faults : List PFault
  mon : Tab Nat
  deriving DecidableEq, Repr

def Die.init : Die := ⟨[], [], [], []⟩

/-- A slice's counters for one context (R7); OWN is counted from the requests held (`ownCount`). -/
structure SliceCnt where
  high : Nat
  acc : Nat
  deriving DecidableEq, Repr

/-- An L2 slice: lines present, the most recently used first, the dirty ones, the bytes of the read-only peer copies among them,
per-context counters, ephemeris (R1, R7, R93, R143). -/
structure Slice where
  lines : List Nat
  dirty : List Nat
  copies : List L1Line
  cnt : Tab SliceCnt
  eph : List EphEntry
  refused : Tab Nat
  deriving DecidableEq, Repr

def Slice.init : Slice := ⟨[], [], [], [], [], []⟩

/-- An I/O die: ingest rules, receive ring, source addresses, dropped frames, PTP lock with the IP version of the grandmaster's Sync messages,
Delay_Req messages sent, with the last one's MAC address, source, destination and UDP port (R163, R360). -/
structure IoDie where
  rules : Tab (List Nat)
  ring : Option (Nat × Nat)
  prod : Nat
  dropped : Nat
  ipv4 : Nat
  ipv6 : Nat
  locked : Bool
  v6 : Bool
  delayReqs : Nat
  frame : List Nat
  deriving DecidableEq, Repr

def IoDie.init : IoDie := ⟨[], none, 0, 0, 0, 0, false, false, 0, []⟩

/-- A packet of a launch queue while the dispatcher handles it (R262). -/
inductive PacketSt where
  | waitBar        -- parsed, waiting for earlier packets (BAR)
  | placing (since : Nat) (reserved : Bool)   -- a LAUNCH waiting for units
  | fencing (left : List Nat)                 -- a FENCE with the conditions still to hold
  | running (gang : Nat)
  | done
  deriving DecidableEq, Repr

/-- A launch queue (R261, R355): packets made available, next to parse, packets parsed and not done. -/
structure Queue where
  tail : Nat
  parsed : Nat
  active : List (Nat × PacketSt)
  err : Bool
  deriving DecidableEq, Repr

def Queue.init : Queue := ⟨0, 0, [], false⟩

/-- Context states (R352). -/
inductive CtxSt where
  | running | stopped | saved | ended
  deriving DecidableEq, Repr

/-- An asynchronous engine command (R108, R187, R211, R218, R310): the instruction's opcode, its operands as taken at
issue, its progress, its status (1 = stopped on a translation fault), and its scratchpad ranges as (window offset, length). -/
structure Cmd where
  id : Nat
  slot : Nat
  ctx : Nat
  tl : Nat
  num : Nat
  op : Nat
  args : List Nat
  prog : Nat
  st : Nat
  issued : Nat
  node : Option (Nat × Nat)
  spans : List (Nat × Nat)
  wvas : List (Nat × Nat)     -- virtual ranges (address, length) that it writes (R323)
  served : List Nat := []     -- lines whose requests the home slices have performed (R9, R93)
  ch : Nat := 0               -- the cache hint for the lines that it reads (R14)
  later : List Nat := []      -- bytes that a higher-numbered command of the timeline has written since (R110): twice a physical
                              -- address, or twice a scratchpad place plus one
  deriving DecidableEq, Repr

/-- A resident context (R353). -/
structure Ctx where
  asid : Nat
  slots : Nat
  prv : Bool
  det : Bool
  schk : Bool
  spc : Nat
  cls : Nat
  ptroot : Nat
  tvec : Nat
  qbase : Nat
  mirror : Nat
  save : Nat
  cores : List Nat
  nbase : Nat
  ncnt : Nat
  capwin : Nat
  capn : Nat
  captab : Nat
  st : CtxSt
  pre : Option Bool           -- a stop requested and not complete; true = and save
  preAt : Nat                 -- when it was requested (R198)
  laws : Tab (List Nat)       -- loaded descriptors, four quads each (R121)
  stepped : Tab Nat           -- stepped domains with their clocks (R131)
  desig : Tab Nat             -- designated cores (R154)
  evlost : Nat
  fbuf : List (Nat × Nat)     -- fault-buffer entries, oldest first (R337)
  dropped : Bool
  fseq : Nat
  kept : Tab Slot             -- slots saved, by key (R348)
  keptBufs : Tab (List Buf)   -- their handle buffers, by core
  keptCmds : List Cmd         -- their incomplete engine commands
  keptStat : Tab Nat          -- EVQSTAT of a slot as its last image holds it
  queues : Tab Queue          -- 0 to 15 device-side, 16 to 19 host (R261, R355)
  deriving DecidableEq, Repr

/-- A gang (R259, R260). -/
structure Gang where
  ctx : Nat
  queue : Nat
  index : Nat
  live : Nat
  csig : Nat
  wdi : Nat
  per : Bool
  timer : Nat
  units : List Nat
  shp : Nat
  wd : Bool                   -- the watchdog has expired
  killed : Bool
  told : Bool                 -- its tasks are stopped, and the host has been told
  deriving DecidableEq, Repr

/-- The new value of an atomic's location (R295, R309). -/
inductive AtomOp where
  | add | min | max | and | or | xor | xchg | cas (new : Nat) | inc | fadd
  deriving DecidableEq, Repr

/-- The law operations of R138. -/
inductive LawOp where
  | adv | add | set | max | arm | disarm | peek | cas | xch | clr
  deriving DecidableEq, Repr

/-- Operations on a versioned tile's header (R243). -/
inductive TileOp where
  | publish (fin : Bool) | stopref
  deriving DecidableEq, Repr

/-- What one register or lane takes of a load: `len` bytes at `pa`, their `low` lowest bits written as 0 (R174), extended to `out` bytes from cell
`cell` of the pending write. -/
structure Part where
  pa : Nat
  len : Nat
  cell : Nat
  out : Nat
  low : Nat
  deriving DecidableEq, Repr

/-- What a request asks of its home slice: a load of one line's parts; bytes for the instruction at issue, which count in oc.ld with `cnt`;
a store of one line's bytes for the instructions named by their tokens (R95: a slot key, or one with an instruction's number above it); an
atomic or reduction at its scope (R294); a law operation, to a peer with a copy of the context's descriptors (R135); a line for L2 alone or
for L1 too (R101); a line for a law operation of the instruction at issue; a line for instruction fetch or a page walk (R358); an ingest operation of an event port (R165); an engine's line (R7); SLICEQ
(R8). -/
inductive ReqKind where
  | load (parts : List Part) (signed : Bool) (alloc : Bool) (sys : Bool) (land : Nat)
  | data (len : Nat) (alloc : Bool) (cnt : Bool)
  | store (bytes : List (Nat × Nat)) (stores : List Nat)
  | atomic (op : AtomOp) (ty : Ty) (b : Nat) (land : Option Nat) (inv : Bool) (sco : Sco)
  | law (op : LawOp) (w128 : Bool) (b b1 : Nat) (land : Option Nat) (named : Nat) (oct : Bool) (laws : Option (Tab (List Nat)))
  | line (l1 : Bool)
  | bring
  | code
  | ingest
  | eng (cmd : Nat) (write : Bool)
  | query (land : Nat) (clear : Bool)
  deriving DecidableEq, Repr

/-- Where a request is (R9, R93, R307). -/
inductive ReqSt where
  | sent        -- in the die network
  | queued      -- accepted, not performed
  | filling     -- accepted, its line on the way
  | cxl         -- a pooled store, its completion on the way
  | host        -- an access to host memory, on its way to the PCIe port
  | joined      -- a weak miss served by the fill of its line that is on its way to the core (R300)
  | done        -- performed, the response on the way
  deriving DecidableEq, Repr

/-- An outstanding request of a slot. -/
structure Req where
  id : Nat
  slot : Nat
  ctx : Nat
  pa : Nat
  st : ReqSt
  kind : ReqKind
  val : List Nat := []
  mine : List (Nat × Nat) := []   -- bytes of the core's write-combining buffer at issue (R91)
  later : List (Nat × Nat) := []  -- later stores of the core to the line (R91)
  gone : Bool := false            -- an invalidation has come in between (R89)
  hint : Nat := 0                 -- CH (R14)
  since : Nat := 0                -- the arithmetic cycle of its acceptance (R9)
  deriving DecidableEq, Repr

/-- A notice of PUBLISH or STOPREF, the request `req`, on its way to a subscription entry (R247). -/
structure Notice where
  cluster : Nat
  idx : Nat
  block : Nat
  h : Nat
  ctx : Nat
  req : Nat
  deriving DecidableEq, Repr

/-- A join-counter subtraction on the steal network (R268). -/
structure Dec where
  octet : Nat
  off : Nat
  deriving DecidableEq, Repr

/-- An event record on its way to a slot (R157): its eight quads, the slot whose oc.st it holds (R161), and the law unit that emitted it (R158):
twice a slice's number, or twice an octet's plus one. -/
structure Record where
  ctx : Nat
  slot : Nat
  quads : List Nat
  from_ : Option Nat
  unit : Option Nat := none
  deriving DecidableEq, Repr

/-- An ingest operation on its way to a law unit, with its request (R9, R165). -/
structure Ingest where
  ctx : Nat
  va : Nat
  pa : Nat
  op : LawOp
  v : Nat
  tin : Nat
  target : Nat
  port : Nat
  rule : Nat
  frame : List Nat
  req : Nat
  deriving DecidableEq, Repr

/-- The BAR0 registers and the module's own settings (R352, R356, R358, R359, R364, R368, R369). `start` is the start-up step being attempted,
with whether by its alternate method, and `meas` the measurement of the image that S1 made (R363, R366); `rate` is the clock rate that PTP discipline asks for, in ppm, and `phase` the
part of the sidereal time that `sid` does not show yet, in 1/(6 * 10^6) ns (R114); `peerClk` is the latest present taken from each other device's clock, with `sid` at that time (R116); `power`
is each die's, in 10 mW (R362); `hot` holds while no context may resume after overheating; `bus` is the last transaction to host memory, its link
and bus address, `cxl` the last CXL.mem request, its port and device address, and `ur` says that the last host access was answered with
Unsupported Request (R351, R358); `turn` is the queue that the dispatcher served last, as 2^20 times its context plus its number (R264). -/
structure Dev where
  step : Nat
  red : Bool
  part : Bool
  recov : Bool
  start : Option (Nat × Bool)
  meas : List Nat
  dies : Nat
  sdev : Nat
  span : Bool
  cxlp : Nat
  busy : Bool
  status : Nat
  cmdres : Nat
  cmdarg : List Nat
  nprod : Nat
  ncons : Nat
  nlost : Nat
  nring : Option (Nat × Nat)
  nwait : List (List Nat)
  nseq : Nat
  dbell : Tab Nat
  pool : List (List Nat)
  peers : List Nat
  cap : Nat
  effCap : Nat
  temps : Tab Nat
  inlet : Nat
  hot : Bool
  link0 : Bool
  ptpAlert : Bool
  rate : Int
  phase : Nat
  peerClk : Tab (Nat × Nat)
  power : Tab Nat
  bus : Option (Nat × Nat)
  cxl : Option (Nat × Nat)
  ur : Bool
  turn : Nat
  msix : Tab Nat
  rr : Nat
  deriving DecidableEq, Repr

def Dev.init : Dev where
  step := 0
  red := true
  part := false
  recov := false
  start := none
  meas := []
  dies := 0
  sdev := 0
  span := false
  cxlp := 0
  busy := false
  status := 0
  cmdres := 0
  cmdarg := [0, 0, 0, 0]
  nprod := 0
  ncons := 0
  nlost := 0
  nring := none
  nwait := []
  nseq := 0
  dbell := []
  pool := []
  peers := []
  cap := 7200
  effCap := 7200
  temps := []
  inlet := 0
  hot := false
  link0 := true
  ptpAlert := false
  rate := 0
  phase := 0
  peerClk := []
  power := []
  bus := none
  cxl := none
  ur := false
  turn := 0
  msix := []
  rr := 0

/-- Module flash (R363, R366, R367): it survives loss of power. `record` is the boot record, one number per step.
`flash` says whether each write of ATTEST to come succeeds (log entry 46). -/
structure Boot where
  image : List Nat
  staged : Option (List Nat)
  record : List Nat
  sigIndex : Nat
  torn : Bool
  flash : List Bool
  alts : List Nat             -- steps that failed by their alternate method when last attempted: later starts skip them (R363)
  deriving DecidableEq, Repr

/-- Whose step is next, when the agenda says so (log entry 1). -/
inductive Turn where
  | slot (k : Nat)
  | event (i : Instr)
  | tick (ns : Nat)
  deriving DecidableEq, Repr

/-- Everything but flash: what loss of power loses. -/
structure Mach where
  mem : Mem
  spad : Mem
  poison : List Nat
  spoison : List Nat
  plantL2 : List (Nat × Bool)
  plantHbm : List (Nat × Bool)
  plantSp : List (Nat × Bool)
  slots : Tab Slot
  cores : Tab Core
  pairs : Tab Pair
  octets : Tab Octet
  clusters : Tab Cluster
  dies : Tab Die
  slices : Tab Slice
  iodies : Tab IoDie
  ctxs : Tab Ctx
  gangs : Tab Gang
  reqs : List Req
  cmds : List Cmd
  notices : List Notice
  decs : List Dec
  records : List Record
  ingests : List Ingest
  dev : Dev
  sid : Nat
  cyc : Nat
  cur : Nat
  nextId : Nat
  fresh : Nat
  hostOut : List Nat
  agenda : List Turn
  deriving DecidableEq, Repr

/-- The whole state. -/
structure State where
  m : Mach
  boot : Boot
  deriving DecidableEq, Repr

/-- The machine before power is applied to it and right after reset (R363, R364, R368): memory lists nothing, no context
exists, DEVSTAT.STEP is 0 and RED is 1. -/
def Mach.reset : Mach where
  mem := []
  spad := []
  poison := []
  spoison := []
  plantL2 := []
  plantHbm := []
  plantSp := []
  slots := []
  cores := []
  pairs := []
  octets := []
  clusters := []
  dies := []
  slices := []
  iodies := []
  ctxs := []
  gangs := []
  reqs := []
  cmds := []
  notices := []
  decs := []
  records := []
  ingests := []
  dev := Dev.init
  sid := 0
  cyc := 0
  cur := 0
  nextId := 0
  fresh := 0
  hostOut := []
  agenda := []

/-- The machine right after reset. Flash as delivered is a DESIGN CHOICE (log entry 8): an empty image, a boot record of
steps not reached, signature index 0. -/
def State.reset : State := ⟨Mach.reset, ⟨[], none, List.replicate 10 0, 0, false, [], []⟩⟩

end Sys2Proof.Machine
end

