-- ==== Sys2Proof/Machine/Ops.lean ====
section
/-! DEFINITION. The named operations over tables, memory and registers, the form of an instruction's execution, the
notifications of the host, and taking a trap and returning from one (R340). -/
namespace Sys2Proof.Machine

/-! ## Tables -/

/-- The value listed for `k`. -/
def Tab.find {α : Type} : Tab α → Nat → Option α
  | [], _ => none
  | (j, v) :: t, k => if j == k then some v else Tab.find t k

/-- The value for `k`, or the initial value. -/
def Tab.get {α : Type} (t : Tab α) (d : α) (k : Nat) : α := (Tab.find t k).getD d

/-- The table with `k` holding `v`. -/
def Tab.put {α : Type} : Tab α → Nat → α → Tab α
  | [], k, v => [(k, v)]
  | (j, w) :: t, k, v =>
    if j == k then (k, v) :: t else if k < j then (k, v) :: (j, w) :: t else (j, w) :: Tab.put t k v

/-- The table without `k`. -/
def Tab.del {α : Type} (t : Tab α) (k : Nat) : Tab α := t.filter (fun e => e.1 != k)

/-! ## Bytes -/

/-- The byte at address `a`; an unlisted byte is 0 (log entries 2 and 3). -/
def Mem.rd : Mem → Nat → Nat
  | [], _ => 0
  | (b, v) :: m, a => if b == a then v.toNat else Mem.rd m a

/-- The memory with byte `v` at address `a`, in canonical form. (What follows in a list that is not in canonical form is dropped too, so
that the byte reads as written there as well.) -/
def Mem.wr : Mem → Nat → Nat → Mem
  | [], a, v => if v % 256 = 0 then [] else [(a, BitVec.ofNat 8 v)]
  | (b, w) :: m, a, v =>
    if a < b then (if v % 256 = 0 then (b, w) :: m.filter (fun c => c.1 != a) else (a, BitVec.ofNat 8 v) :: (b, w) :: m)
    else if a = b then (if v % 256 = 0 then m.filter (fun c => c.1 != a) else (a, BitVec.ofNat 8 v) :: m)
    else (b, w) :: Mem.wr m a v

/-- `n` bytes from `a`, ascending. -/
def Mem.rdN (m : Mem) (a n : Nat) : List Nat := (List.range n).map (fun i => m.rd (a + i))

/-- The memory with the listed (address, byte) pairs written in order. -/
def Mem.wrAll (m : Mem) (l : List (Nat × Nat)) : Mem := l.foldl (fun m c => m.wr c.1 c.2) m

/-- A number as `n` little-endian bytes (R4). -/
def toLE : Nat → Nat → List Nat
  | 0, _ => []
  | n + 1, v => v % 256 :: toLE n (v / 256)

/-- Little-endian bytes as a number (R4). -/
def ofLE : List Nat → Nat
  | [] => 0
  | b :: l => b + 256 * ofLE l

/-- `n` bytes from `a` as a number. -/
def Mem.num (m : Mem) (a n : Nat) : Nat := ofLE (m.rdN a n)

/-- Bytes placed at consecutive addresses. -/
def cellsAt (a : Nat) (l : List Nat) : List (Nat × Nat) := l.zipIdx.map (fun p => (a + p.2, p.1))

/-- The latest value that (address, byte) pairs give for `a`, in list order. -/
def latest (l : List (Nat × Nat)) (a : Nat) : Option Nat :=
  l.foldl (fun r c => if c.1 == a then some c.2 else r) none

/-! ## Signed readings -/

/-- `x mod 2^w` read as two's complement. -/
def sx (w x : Nat) : Int := if 2 ^ w ≤ 2 * (x % 2 ^ w) then (x % 2 ^ w : Nat) - (2 ^ w : Nat) else (x % 2 ^ w : Nat)

/-- An integer reduced mod `2^w`. -/
def ofInt (w : Nat) (v : Int) : Nat := (v % (2 ^ w : Nat)).toNat

/-- Addition of a signed 32-bit displacement, mod 2^64 (R98). -/
def addDisp (x : Nat) (disp : BitVec 32) : Nat := ofInt 64 ((x : Int) + sx 32 disp.toNat)

/-- Addition and decrement mod 2^64. -/
def add64 (x y : Nat) : Nat := (x + y) % 2 ^ 64
def dec64 (x : Nat) : Nat := (x + (2 ^ 64 - 1)) % 2 ^ 64
/-- A program counter is a 56-bit address (R11); the next sequential word is 12 bytes later. -/
def pcBits (x : Nat) : Nat := x % 2 ^ 56
def nextPc (pc : Nat) : Nat := pcBits (pc + 12)

/-! ## Places -/

def keyOf (core slot : Nat) : Nat := 4 * core + slot
def coreOf (k : Nat) : Nat := k / 4
def slotOf (k : Nat) : Nat := k % 4
def octetOf (core : Nat) : Nat := core / 8
def clusterOf (core : Nat) : Nat := core / 64
def dieOf (core : Nat) : Nat := core / 1024
/-- The pair of a core, and the pair's issuer (R1). -/
def pairOf (core : Nat) : Nat := core / 2
def isIssuer (core : Nat) : Bool := core % 2 == 1

/-- Slots per core that the field SLOTS codes (R40). -/
def slotsOf (f : Nat) : Nat := if f = 0 then 1 else if f = 1 then 2 else 4
/-- Register share of a slot (R40). -/
def shareOf (f : Nat) : Nat := 32768 / slotsOf f
/-- Scratchpad share of a slot (R40). -/
def spShareOf (f : Nat) : Nat := 196608 / slotsOf f

def Mach.slot (m : Mach) (k : Nat) : Slot := m.slots.get Slot.init k
def Mach.setSlot (m : Mach) (k : Nat) (s : Slot) : Mach := { m with slots := m.slots.put k s }
def Mach.updSlot (m : Mach) (k : Nat) (f : Slot → Slot) : Mach := m.setSlot k (f (m.slot k))
def Mach.core (m : Mach) (c : Nat) : Core := m.cores.get Core.init c
def Mach.setCore (m : Mach) (c : Nat) (x : Core) : Mach := { m with cores := m.cores.put c x }
def Mach.updCore (m : Mach) (c : Nat) (f : Core → Core) : Mach := m.setCore c (f (m.core c))
/-- Pair state is kept per pair and context. -/
def pairKey (c pair : Nat) : Nat := 8192 * c + pair
def Mach.pair (m : Mach) (c pair : Nat) : Pair := m.pairs.get Pair.init (pairKey c pair)
def Mach.setPair (m : Mach) (c pair : Nat) (x : Pair) : Mach := { m with pairs := m.pairs.put (pairKey c pair) x }
def Mach.octet (m : Mach) (o : Nat) : Octet := m.octets.get Octet.init o
def Mach.setOctet (m : Mach) (o : Nat) (x : Octet) : Mach := { m with octets := m.octets.put o x }
def Mach.cluster (m : Mach) (c : Nat) : Cluster := m.clusters.get Cluster.init c
def Mach.setCluster (m : Mach) (c : Nat) (x : Cluster) : Mach := { m with clusters := m.clusters.put c x }
def Mach.die (m : Mach) (d : Nat) : Die := m.dies.get Die.init d
def Mach.setDie (m : Mach) (d : Nat) (x : Die) : Mach := { m with dies := m.dies.put d x }
/-- Slice `s` of die `d` is unit `16·d + s`. -/
def Mach.slice (m : Mach) (u : Nat) : Slice := m.slices.get Slice.init u
def Mach.setSlice (m : Mach) (u : Nat) (x : Slice) : Mach := { m with slices := m.slices.put u x }
def Mach.iodie (m : Mach) (d : Nat) : IoDie := m.iodies.get IoDie.init d
def Mach.setIodie (m : Mach) (d : Nat) (x : IoDie) : Mach := { m with iodies := m.iodies.put d x }
def Mach.setCtx (m : Mach) (c : Nat) (x : Ctx) : Mach := { m with ctxs := m.ctxs.put c x }
/-- The running core, slot and state of the slot that executes. -/
def Mach.sl (m : Mach) : Slot := m.slot m.cur
def Mach.curCore (m : Mach) : Nat := coreOf m.cur

/-- What the device holds for an index without a context. -/
def Ctx.none : Ctx where
  asid := 0
  slots := 0
  prv := false
  det := false
  schk := false
  spc := 0
  cls := 0
  ptroot := 0
  tvec := 0
  qbase := 0
  mirror := 0
  save := 0
  cores := []
  nbase := 0
  ncnt := 0
  capwin := 0
  capn := 0
  captab := 0
  st := .ended
  pre := Option.none
  preAt := 0
  laws := []
  stepped := []
  desig := []
  evlost := 0
  fbuf := []
  dropped := false
  fseq := 0
  kept := []
  keptBufs := []
  keptStat := []
  keptCmds := []
  queues := []

def Mach.ctx (m : Mach) (c : Nat) : Ctx := m.ctxs.get Ctx.none c
def Mach.updCtx (m : Mach) (c : Nat) (f : Ctx → Ctx) : Mach := m.setCtx c (f (m.ctx c))
/-- The context of the slot that executes. -/
def Mach.cx (m : Mach) : Ctx := m.ctx m.sl.ctx
/-- The resident context with an address-space identifier. -/
def Mach.ctxOfAsid (m : Mach) (asid : Nat) : Option Nat :=
  (m.ctxs.find? (fun e => e.2.asid == asid)).map (·.1)
/-- The slots of a context, as keys in ascending order. -/
def Mach.slotsOfCtx (m : Mach) (c : Nat) : List Nat :=
  (m.slots.filter (fun e => e.2.ctx == c && e.2.run != .free)).map (·.1)

/-- A monitor count of a die advances (R362). -/
def Mach.bumpMon (m : Mach) (die unit counter : Nat) : Mach :=
  let d := m.die die
  let k := 16 * counter + unit
  m.setDie die { d with mon := d.mon.put k (d.mon.get 0 k + 1) }

/-- A request of slot `k` leaves, under the next name; `f` sets what is not at its default. -/
def addReq (k ctx pa : Nat) (st : ReqSt) (kind : ReqKind) (m : Mach) (f : Req → Req := id) : Mach :=
  { m with
    reqs := m.reqs ++ [f { id := m.nextId, slot := k, ctx := ctx, pa := pa, st := st, kind := kind }]
    nextId := m.nextId + 1 }

/-- Requests a slice holds: accepted and not responded to (R9). -/
def Req.accepted (r : Req) : Bool := r.st == .queued || r.st == .filling || r.st == .cxl

/-! ## The physical map (R2, R3) -/

inductive PaKind where
  | hbm | pooled | peer | host | hole
  deriving DecidableEq, Repr

def hbmTop : Nat := 2 ^ 42
def poolBase : Nat := 2 ^ 50
def poolTop : Nat := 2 ^ 50 + 2 ^ 46
def peerBase : Nat := 2 ^ 51
def hostBase : Nat := 3 * 2 ^ 50

def homeDie (pa : Nat) : Nat := bits pa 18 4

/-- XOR of the 4-bit groups of `v`. -/
def foldGroups : Nat → Nat → Nat
  | 0, _ => 0
  | n + 1, v => (v % 16) ^^^ foldGroups n (v / 16)

/-- The home slice on the home die (R3, R66). -/
def fold (pa : Nat) : Nat := foldGroups 11 (bits pa 22 30 * 2 ^ 11 + bits pa 7 11)

/-- The home slice unit of a line. -/
def homeOf (pa : Nat) : Nat := 16 * homeDie pa + fold pa

/-- The kind of memory at a physical address (R2, R358, R359, R363). In reduced service pooled and peer memory are windows whose accesses wait for
full service, whatever will then be there (R365). -/
def paKind (d : Dev) (pa : Nat) : PaKind :=
  if pa < hbmTop then (if bitAt d.dies (homeDie pa) then .hbm else .hole)
  else if poolBase ≤ pa ∧ pa < poolTop then
    if d.red then .pooled
    else if d.pool.any (fun e => match e with
      | [off, len, _, port] => decide (off ≤ pa - poolBase) && decide (pa - poolBase < off + len) && bitAt d.cxlp (port % 4)
      | _ => false) && bitAt d.dies (homeDie pa) then .pooled else .hole
  else if peerBase ≤ pa ∧ pa < hostBase then
    let n := (pa - peerBase) / 2 ^ 42
    if d.red then .peer
    else if d.span && n != d.sdev && d.peers.contains n && bitAt d.dies (homeDie pa) then .peer else .hole
  else if hostBase ≤ pa ∧ pa < 2 ^ 52 then .host else .hole

/-- Reduced memory (R365). -/
def inReduced (pa : Nat) : Bool := decide (pa < 2 ^ 28) && homeDie pa == 0

/-- An access that waits until full service (R365). -/
def waitsService (d : Dev) (pa : Nat) : Bool := d.red && paKind d pa != .host && !inReduced pa

/-! ## Page tables (R331 to R334) -/

/-- A found leaf, or a fault kind with the level at which the walk stopped. -/
inductive Walked where
  | leaf (e : TlbE) (level : Nat)
  | fail (kind level : Nat)
  deriving DecidableEq, Repr

def granuleOf (va : Nat) : Nat := va / 2 ^ 18

/-- A page table must lie in HBM or pooled memory. -/
def tableOk (d : Dev) (pa len : Nat) : Bool :=
  let ok := fun p => match paKind d p with
    | .hbm => true
    | .pooled => true
    | _ => false
  ok pa && ok (pa + len - 1)

/-- Index of a level's entry, size of the table, page size of a leaf (R332). -/
def levelIndex (level va : Nat) : Nat :=
  match level with
  | 0 => bits va 42 14
  | 1 => bits va 30 12
  | 2 => bits va 24 6
  | _ => bits va 18 6

def pageSize (level : Nat) : Nat :=
  match level with
  | 1 => 2 ^ 30
  | 2 => 2 ^ 24
  | _ => 2 ^ 18

def nextTable (level : Nat) : Nat := if level = 0 then 2 ^ 15 else 2 ^ 9

/-- A walk from `level` with the table at `tab` (R332, R333). `fuel` bounds the four levels. -/
def walkFrom (d : Dev) (mem : Mem) (asid va : Nat) : Nat → Nat → Nat → Walked
  | 0, level, _ => .fail 3 level
  | fuel + 1, level, tab =>
    let e := mem.num (tab + 8 * levelIndex level va) 8
    let leaf := bitAt e 1
    let addr := bits e 9 43 * 512
    if !bitAt e 0 then .fail 0 level
    else if bits e 4 5 != 0 || bits e 52 12 != 0 then .fail 3 level
    else if level = 0 && leaf || level = 3 && !leaf then .fail 3 level
    else if leaf then
      if addr % pageSize level != 0 then .fail 3 level
      else .leaf ⟨asid, va / pageSize level * (pageSize level / 2 ^ 18), pageSize level / 2 ^ 18, addr, bitAt e 2, bitAt e 3⟩ level
    else if bitAt e 2 || bitAt e 3 then .fail 3 level
    else if addr % nextTable level != 0 || !tableOk d addr (nextTable level) then .fail 3 level
    else walkFrom d mem asid va fuel (level + 1) addr

/-- A walk from the root (R332, R334). -/
def walk (d : Dev) (mem : Mem) (c : Ctx) (va : Nat) : Walked :=
  if !bitAt c.ptroot 0 then .fail 0 0
  else if !tableOk d (bits c.ptroot 17 35 * 2 ^ 17) (2 ^ 17) then .fail 3 0
  else walkFrom d mem c.asid va 4 0 (bits c.ptroot 17 35 * 2 ^ 17)

/-- Does a TLB entry translate the granule? -/
def TlbE.covers (e : TlbE) (asid g : Nat) : Bool := e.asid == asid && decide (e.granule ≤ g) && decide (g < e.granule + e.size)

/-- Does it permit the access (R333)? -/
def TlbE.permits (e : TlbE) : Acc → Bool
  | .read => true
  | .write => e.w
  | .fetch => e.x

/-- The physical address of `va` through the entry. -/
def TlbE.at_ (e : TlbE) (va : Nat) : Nat := e.pa + (va - e.granule * 2 ^ 18)

/-! ## Notifications (R356) -/

/-- An access of the device to host memory leaves over link 0, or over link 1 while link 0 is down, with its bus address (R351). -/
def hostBus (pa : Nat) (m : Mach) : Mach :=
  { m with dev := { m.dev with bus := some (if m.dev.link0 then 0 else 1, pa - hostBase) } }

/-- The records that wait move to the ring while it has places (R356). `fuel` bounds the waiting records. -/
def drainNotices : Nat → Mach → Mach
  | 0, m => m
  | fuel + 1, m =>
    match m.dev.nring, m.dev.nwait with
    | some (base, lgn), r :: rest =>
      if m.dev.nprod - m.dev.ncons < 2 ^ lgn then
        let a := base + 32 * (m.dev.nprod % 2 ^ lgn)
        let bytes := (r.map (toLE 8)).flatten
        let m := hostBus a m
        drainNotices fuel { m with
          mem := m.mem.wrAll (cellsAt a bytes)
          dev := { m.dev with nprod := (m.dev.nprod + 1) % 2 ^ 64, nwait := rest, msix := m.dev.msix.put 0 (m.dev.msix.get 0 0 + 1) } }
      else m
    | _, _ => m

/-- A notification record is written to the ring, waits, or is dropped and counted (R356). -/
def notify (kind cause asid core slot aux val : Nat) (m : Mach) : Mach :=
  let q0 := kind + cause * 2 ^ 8 + asid % 2 ^ 16 * 2 ^ 16 + core * 2 ^ 32 + slot * 2 ^ 46 + aux % 2 ^ 16 * 2 ^ 48
  let r := [q0, val, m.sid, m.dev.nseq]
  let m := { m with dev := { m.dev with nseq := (m.dev.nseq + 1) % 2 ^ 64 } }
  if m.dev.nwait.length < 256 then
    drainNotices 257 { m with dev := { m.dev with nwait := m.dev.nwait ++ [r] } }
  else { m with dev := { m.dev with nlost := (m.dev.nlost + 1) % 2 ^ 64 } }

/-! ## Soft errors in L2, HBM and scratchpad (R344) -/

def wordsOf (a len : Nat) : List Nat := if len = 0 then [] else (List.range ((a + len - 1) / 8 - a / 8 + 1)).map (fun i => (a / 8 + i) * 8)

/-- Is a word of the range poisoned? -/
def poisoned (m : Mach) (pa len : Nat) : Bool := (wordsOf pa len).any (fun w => m.poison.contains w)
def spPoisoned (m : Mach) (a len : Nat) : Bool := (wordsOf a len).any (fun w => m.spoison.contains w)

/-- A read finds the errors planted in the L2 copies of its words (R344, R345). -/
def findL2 (pa len : Nat) (m : Mach) : Mach :=
  (wordsOf pa len).foldl (fun m w => match m.plantL2.find? (·.1 == w) with
    | none => m
    | some (_, uc) =>
      let m := { m with plantL2 := m.plantL2.filter (·.1 != w) }
      if uc && (m.slice (homeOf w)).dirty.contains (w / 128) then
        { (m.bumpMon (homeDie w) 0 4) with poison := w :: m.poison }
      else m.bumpMon (homeDie w) (fold w) 1) m

/-- A fill from HBM finds the errors planted there. -/
def findHbm (line : Nat) (m : Mach) : Mach :=
  (wordsOf (128 * line) 128).foldl (fun m w => match m.plantHbm.find? (·.1 == w) with
    | none => m
    | some (_, uc) =>
      let m := { m with plantHbm := m.plantHbm.filter (·.1 != w) }
      if uc then { (m.bumpMon (homeDie w) 0 4) with poison := w :: m.poison }
      else m.bumpMon (homeDie w) (bits w 13 1) 2) m

/-- A scratchpad read finds the errors planted there. -/
def findSp (a len : Nat) (m : Mach) : Mach :=
  (wordsOf a len).foldl (fun m w => match m.plantSp.find? (·.1 == w) with
    | none => m
    | some (_, uc) =>
      let m := { m with plantSp := m.plantSp.filter (·.1 != w) }
      if uc then { (m.bumpMon (w / 2 ^ 28) 0 4) with spoison := w :: m.spoison }
      else m.bumpMon (w / 2 ^ 28) 0 3) m

/-- Words that one write covers whole lose their poison and planted errors (R344). -/
def wordsWhole (l : List (Nat × Nat)) : List Nat :=
  ((l.map (fun c => c.1 / 8 * 8)).dedup).filter (fun w => (List.range 8).all (fun i => l.any (fun c => c.1 == w + i)))

/-- Memory bytes written by one store. -/
def storeMem (l : List (Nat × Nat)) (m : Mach) : Mach :=
  let ws := wordsWhole l
  { m with
    mem := m.mem.wrAll l
    poison := m.poison.filter (fun w => !ws.contains w)
    plantL2 := m.plantL2.filter (fun w => !ws.contains w.1) }

/-- Scratchpad bytes written by one store; scratchpad addresses are `2^18·core + o[17:0]`. -/
def storeSp (l : List (Nat × Nat)) (m : Mach) : Mach :=
  let ws := wordsWhole l
  { m with
    spad := m.spad.wrAll l
    spoison := m.spoison.filter (fun w => !ws.contains w)
    plantSp := m.plantSp.filter (fun w => !ws.contains w.1) }

/-- The address in `spad` of a window offset of the octet (R87). -/
def spPlace (core o : Nat) : Nat := (core / 8 * 8 + bits o 18 3) * 2 ^ 18 + o % 2 ^ 18

/-! ## L2 (R1, R86, R93): 4,096 sets of 16 ways in a slice -/

/-- The set of a line in its slice (DESIGN CHOICE, log entry 54). -/
def l2Set (line : Nat) : Nat := bits line 0 7 + 128 * bits line 15 5

/-- Is the line held in L2 (for a peer line, as a read-only copy)? -/
def present (m : Mach) (pa : Nat) : Bool := (m.slice (homeOf pa)).lines.contains (pa / 128)

/-- A line leaves its slice: a dirty one is written back, which reads its words; poison found so is told to the host (R93, R344). -/
def l2Evict (line : Nat) (m : Mach) : Mach :=
  let pa := 128 * line
  let u := homeOf pa
  let old := m.poison
  let m := if (m.slice u).dirty.contains line then
      let m := findL2 pa 128 m
      let m := (m.poison.filter (fun w => !old.contains w)).foldl (fun m w => notify 0x0A 0 0 0 0 0 w m) m
      { m with plantHbm := m.plantHbm.filter (fun w => w.1 / 128 != line) }
    else { m with plantL2 := m.plantL2.filter (fun w => w.1 / 128 != line) }
  m.setSlice u (let s := m.slice u
    { s with lines := s.lines.filter (· != line), dirty := s.dirty.filter (· != line), copies := s.copies.filter (·.line != line) })

/-- The way that a new line of the set takes: the least recently used one that no accepted request is for. -/
def l2Victim (m : Mach) (line : Nat) : Option Nat :=
  let inSet := (m.slice (homeOf (128 * line))).lines.filter (fun l => l2Set l == l2Set line)
  if inSet.length < 16 then none
  else match (inSet.filter (fun l => !m.reqs.any (fun r => r.accepted && r.pa / 128 == l))).getLast? with
    | some l => some l
    | none => inSet.getLast?

/-- The line becomes the most recently used of its slice, or with the hint evict-first the next victim of its set (R14). -/
def l2Place (line hint : Nat) (m : Mach) : Mach :=
  let u := homeOf (128 * line)
  m.setSlice u (let s := m.slice u
    let rest := s.lines.filter (· != line)
    { s with lines := if hint = 1 then rest ++ [line] else line :: rest })

/-- A line arrives at its home slice (R93). -/
def bringLine (line : Nat) (m : Mach) : Mach :=
  let pa := 128 * line
  let kind := paKind m.dev pa
  if kind == .host || kind == .hole || present m pa then m
  else
    let m := match l2Victim m line with
      | some v => l2Evict v m
      | none => m
    let m := l2Place line 0 (if kind == .hbm then findHbm line m else m)
    if kind == .peer then
      m.setSlice (homeOf pa) (let s := m.slice (homeOf pa)
        { s with copies := { line := line, data := (cellsAt 0 (m.mem.rdN pa 128)).foldl (fun d b => d.wr b.1 b.2) [] } :: s.copies })
    else m

/-- The home slice performs a request for a line: cluster units have returned it (R294), and it is the most recently used. -/
def useLine (line hint : Nat) (m : Mach) : Mach :=
  let m := if m.clusters.any (fun c => c.2.held.contains line) then
      { m with clusters := m.clusters.map (fun c => (c.1, { c.2 with held := c.2.held.filter (· != line) })) }
    else m
  if present m (128 * line) then l2Place line hint m else m

/-- Bytes as the home slice of the reading device returns them. -/
def sliceBytes (m : Mach) (sys : Bool) (pa len : Nat) : List Nat :=
  if paKind m.dev pa == .peer && !sys then
    match (m.slice (homeOf pa)).copies.find? (·.line == pa / 128) with
    | some x => x.data.rdN (pa % 128) len
    | none => m.mem.rdN pa len
  else m.mem.rdN pa len

/-- A store is performed at home: an HBM line becomes dirty, a peer copy is updated in place (R93). -/
def homeStore (l : List (Nat × Nat)) (m : Mach) : Mach :=
  let pa := (l.headD (0, 0)).1
  let line := pa / 128
  let m := useLine line 0 (storeMem l m)
  let u := homeOf pa
  let s := m.slice u
  match paKind m.dev pa with
  | .hbm => m.setSlice u { s with dirty := if s.dirty.contains line then s.dirty else line :: s.dirty }
  | .peer => m.setSlice u { s with copies := s.copies.map (fun x => if x.line == line then
      { x with data := x.data.wrAll (l.map (fun b => (b.1 % 128, b.2))) } else x) }
  | _ => m

/-- Removes the local copy of a peer line, as an invalidation does (R94). -/
def dropCopy (line : Nat) (m : Mach) : Mach :=
  let u := homeOf (128 * line)
  m.setSlice u (let s := m.slice u
    { s with lines := s.lines.filter (· != line), copies := s.copies.filter (·.line != line) })

/-- Every invalidation that device `n` has sent to this one arrives: copies of its lines that are no longer as it holds them go (R94). -/
def applyInvalidations (n : Nat) (m : Mach) : Mach :=
  let old := (m.slices.map (fun e => (e.2.copies.filter (fun x => (128 * x.line - peerBase) / 2 ^ 42 == n
    && x.data.rdN 0 128 != m.mem.rdN (128 * x.line) 128)).map (·.line))).flatten
  old.foldl (fun m l => dropCopy l m) m

/-- Bytes in order, those of one line that follow each other together. -/
def byLine (l : List (Nat × Nat)) : List (List (Nat × Nat)) :=
  l.foldr (fun c r => match r with
    | (d :: g) :: r => if d.1 / 128 = c.1 / 128 then (c :: d :: g) :: r else [c] :: (d :: g) :: r
    | r => [c] :: r) []

/-- Where a pooled address lies: the port and the device's address of the map's entry (R358). -/
def cxlPlace (d : Dev) (pa : Nat) : Option (Nat × Nat) := d.pool.findSome? (fun e => match e with
  | [off, len, hpa, port] => if off ≤ pa - poolBase ∧ pa - poolBase < off + len then some (port % 4, hpa + (pa - poolBase - off)) else none
  | _ => none)

/-- A request for a pooled line leaves for its CXL device. -/
def cxlAsk (pa : Nat) (m : Mach) : Mach :=
  if paKind m.dev pa == .pooled then { m with dev := { m.dev with cxl := cxlPlace m.dev (pa / 128 * 128) } } else m

/-- Writes of the device itself or of an engine are performed at home, line by line (R93). One to pooled memory leaves for its CXL device; an engine's
has waited for its completion as a request, and the device's own are performed at once (DESIGN CHOICE, log entry 67). -/
def engStore (l : List (Nat × Nat)) (m : Mach) : Mach :=
  (byLine l).foldl (fun m g =>
    let line := (g.headD (0, 0)).1 / 128
    let m := match paKind m.dev (128 * line) with
      | .hbm => bringLine line m
      | .host => hostBus (128 * line) m
      | _ => cxlAsk (128 * line) m
    homeStore g m) m

/-! ## The device's own translations -/

/-- The addresses of the entries that a walk reads. -/
def walkReads (d : Dev) (mem : Mem) (va : Nat) : Nat → Nat → Nat → List Nat
  | 0, _, _ => []
  | fuel + 1, level, tab =>
    let a := tab + 8 * levelIndex level va
    let e := mem.num a 8
    let addr := bits e 9 43 * 512
    if !bitAt e 0 || bits e 4 5 != 0 || bits e 52 12 != 0 || bitAt e 1 || level == 3 || bitAt e 2 || bitAt e 3
      || addr % nextTable level != 0 || !tableOk d addr (nextTable level) then [a]
    else a :: walkReads d mem va fuel (level + 1) addr

/-- Those of a walk from the root. -/
def rootReads (d : Dev) (mem : Mem) (c : Ctx) (va : Nat) : List Nat :=
  let root := bits c.ptroot 17 35 * 2 ^ 17
  if bitAt c.ptroot 0 && tableOk d root (2 ^ 17) then walkReads d mem va 4 0 root else []

/-- Does a walk of the page read a poisoned entry? Its address (R344). -/
def walkPoison (m : Mach) (c : Ctx) (va : Nat) : Option Nat := (rootReads m.dev m.mem c va).find? (fun a => poisoned m a 8)

/-- The reads of a walk bring the lines of the entries to their home slices and find the errors planted there (R332, R345). -/
def walkFind (c : Ctx) (va : Nat) (m : Mach) : Mach := (rootReads m.dev m.mem c va).foldl (fun m a => findL2 a 8 (bringLine (a / 128) m)) m

/-- Where a walk for an access of the device's own (fence counters, completion counters, signal nodes, spill regions) ends; nothing when it
fails. -/
def reach (m : Mach) (c : Ctx) (va : Nat) (acc : Acc) : Option Nat :=
  if 2 ^ 56 ≤ va then none
  else match walk m.dev m.mem c va with
    | .leaf e _ => if e.permits acc then some (e.at_ va) else none
    | .fail _ _ => none

/-- A walk of a page for the device's own accesses: the errors found, and the address of a poisoned entry (R344). -/
def deviceWalk (c : Ctx) (va : Nat) (m : Mach) : Option Nat × Mach :=
  if 2 ^ 56 ≤ va then (none, m)
  else
    let m := walkFind c va m
    (walkPoison m c va, m)

/-- The dispatcher reads words of memory: it is none of the readers that end a context, so poison is told to the host (R344; DEDUCED, log
entry 67). -/
def deviceSees (pa len : Nat) (m : Mach) : Mach :=
  let m := ((wordsOf pa len).map (· / 128)).dedup.foldl (fun m l => bringLine l m) m
  let m := findL2 pa len m
  ((wordsOf pa len).filter m.poison.contains).foldl (fun m w => notify 0x0A 0 0 0 0 0 w m) m

/-! ## Timeline counters (R36, R305) -/

/-- The five timelines have codes 0 to 4 (R36). A timeline counter's mirror quad (R305) lies at
`MIRROR + 256·core + 64·slot + 8·timeline`. -/
def mirrorAt (c : Ctx) (k t : Nat) : Nat := c.mirror + 256 * coreOf k + 64 * slotOf k + 8 * t

/-- Timeline `t` of slot `k`. -/
def Mach.tlOf (m : Mach) (k t : Nat) : Timeline := (m.slot k).tl.get Timeline.init t

/-- A timeline counter takes a new value, with its mirror quad (R305); WAITEV source 1 of the core's slots is latched (R72)
and the gang of the slot's task makes progress (R273). -/
def setTimeline (k t : Nat) (x : Timeline) (m : Mach) : Mach :=
  let sl := m.slot k
  let adv := x.count != (sl.tl.get Timeline.init t).count
  let m := m.setSlot k { sl with tl := sl.tl.put t x }
  if adv then
    let m := engStore (cellsAt (mirrorAt (m.ctx sl.ctx) k t) (toLE 8 x.count)) m
    let m := { m with
      slots := m.slots.map (fun e => match e.2.wait with
        | some (.timeline j u n) => if j == k && u == t && decide (n ≤ x.count) then (e.1, { e.2 with wait := some .released }) else e
        | _ => e) }
    let m := (List.range 4).foldl (fun m i =>
      let j := keyOf (coreOf k) i
      if (m.slot j).ctx == sl.ctx && (m.slot j).run != .free then m.updSlot j (fun s => { s with latch := s.latch ||| 2 }) else m) m
    match sl.task.bind (·.e.gang) with
    | some g => match m.gangs.find g with
      | some G => { m with gangs := m.gangs.put g { G with timer := m.sid } }
      | none => m
    | none => m
  else m

/-! ## Registers

A register byte is named by its place: the slot's share from 0, predicate qn at 0x8000 + n, byte i of mask pair mn at
0x8100 + 16·n + i, held complemented so that an unlisted byte is all ones (R41, R42, R47, R48). -/

def predPlace (n : Nat) : Nat := 0x8000 + n
def maskPlace (n : Nat) : Nat := 0x8100 + 16 * n

/-- The value of a register byte that an instruction with nominal count `n` reads: the last write in program order that is
readable at `n` (R19). -/
def Slot.byteAt (s : Slot) (n a : Nat) : Nat :=
  match s.pw.foldl (fun r p => if p.due ≤ n then (latest p.cells a).orElse (fun _ => r) else r) none with
  | some v => v % 256
  | none => s.rf.rd a

/-- `len` register bytes as read at the slot's nominal count. -/
def Slot.bytes (s : Slot) (a len : Nat) : List Nat := (List.range len).map (fun i => s.byteAt s.n (a + i))

/-- Register gk at the slot's nominal count (R42). -/
def Slot.g (s : Slot) (k : Nat) : Nat := ofLE (s.bytes (8 * k) 8)

/-- Predicate qn (R48): q15 reads 1. -/
def Slot.q (s : Slot) (n : Nat) : Bool := n == 15 || s.byteAt s.n (predPlace n) == 1

/-- Row and column of mask pair mn (R47): m0 is all ones. -/
def Slot.mrow (s : Slot) (n : Nat) : Nat :=
  if n = 0 then 2 ^ 64 - 1 else 2 ^ 64 - 1 - ofLE (s.bytes (maskPlace n) 8)
def Slot.mcol (s : Slot) (n : Nat) : Nat :=
  if n = 0 then 2 ^ 64 - 1 else 2 ^ 64 - 1 - ofLE (s.bytes (maskPlace n + 8) 8)

/-- A range of register bytes: first place and length. -/
abbrev Rng := Nat × Nat

def inRng (r : List Rng) (a : Nat) : Bool := r.any (fun p => decide (p.1 ≤ a) && decide (a < p.1 + p.2))

/-- Is the last write to byte `a` in program order a fixed-latency one still unreadable at the slot's count (R19)? A pending interlocked write
is younger than every pending fixed-latency one to its bytes, which waits for none (R21). -/
def Slot.stale (s : Slot) (a : Nat) : Bool :=
  !s.il.any (fun l => l.cells.any (fun c => c.1 == a)) && s.pw.foldl (fun r p => if p.cells.any (fun c => c.1 == a) then decide (s.n < p.due) else r) false

/-- Would a read of the ranges find a byte older than a pending fixed-latency write (R23)? A byte that a later write has made readable is
not older. -/
def Slot.underrun (s : Slot) (r : List Rng) : Bool :=
  s.pw.any (fun p => p.cells.any (fun c => inRng r c.1 && s.stale c.1))
    || s.il.any (fun l => decide (s.n < l.from_) && l.cells.any (fun c => inRng r c.1))

/-- Is an interlocked write to the ranges pending (R21)? -/
def Slot.interlocked (s : Slot) (r : List Rng) : Bool :=
  s.il.any (fun l => decide (l.from_ ≤ s.n) && l.cells.any (fun c => inRng r c.1))

/-- Is any interlocked write to the ranges pending, whatever the count (R21: a fixed-latency destination)? -/
def Slot.pendingTo (s : Slot) (r : List Rng) : Bool := s.il.any (fun l => l.cells.any (fun c => inRng r c.1))

/-- Drops bytes that can have no effect: writes to q15 and m0 are discarded (R12). -/
def keepCells (l : List (Nat × Nat)) : List (Nat × Nat) :=
  l.filter (fun c => c.1 != predPlace 15 && !(decide (maskPlace 0 ≤ c.1) && decide (c.1 < maskPlace 1)))

/-- In a handler, the bytes written are remembered for RTE (R22). -/
def Slot.note (s : Slot) (l : List Nat) : Slot := if s.inh then { s with written := s.written ++ l } else s

/-- A fixed-latency write: readable from the slot's count plus `lat` (R19). -/
def Slot.pend (s : Slot) (lat : Nat) (cells : List (Nat × Nat)) : Slot :=
  let cells := keepCells cells
  if cells.isEmpty then s else Slot.note { s with pw := s.pw ++ [⟨cells, s.n + lat⟩] } (cells.map (·.1))

/-- A write readable at once and at every count (R69). -/
def Slot.pendNow (s : Slot) (cells : List (Nat × Nat)) : Slot :=
  let cells := keepCells cells
  if cells.isEmpty then s else Slot.note { s with pw := s.pw ++ [⟨cells, 0⟩] } (cells.map (·.1))

/-- Pending writes land in program order once their count is reached. -/
def landOldest (n : Nat) : List Pend → Mem → List Pend × Mem
  | [], rf => ([], rf)
  | p :: l, rf => if p.due ≤ n then landOldest n l (rf.wrAll p.cells) else (p :: l, rf)

def Slot.settle (s : Slot) : Slot :=
  let r := landOldest s.n s.pw s.rf
  { s with pw := r.1, rf := r.2 }

/-- A write that takes effect at once: an interlocked value landing. Every earlier pending write to those bytes is
superseded (R21: register writes land in program order). -/
def Slot.poke (s : Slot) (cells : List (Nat × Nat)) : Slot :=
  let cells := keepCells cells
  let hit := fun a => cells.any (fun c => c.1 == a)
  let s : Slot := { s with
    pw := (s.pw.map (fun p => { p with cells := p.cells.filter (fun c => !hit c.1) })).filter (fun p => !p.cells.isEmpty)
    rf := s.rf.wrAll cells }
  s.note (cells.map (·.1))

/-! ## The form of an execution -/

/-- How an instruction ends without taking effect in the ordinary way. -/
inductive Stop where
  | trap (cause val : Nat)                       -- a precise trap, return address the instruction (R340)
  | trapAt (m : Mach) (cause val ret : Nat)       -- a trap in a state the instruction reached, with its return address
  | stay (m : Mach)                               -- the instruction stays at issue in the given state
  | block (w : Wait)                              -- it stays at issue and has done nothing
  | blockWith (f : Mach → Mach) (w : Wait)        -- the same, but `f` has been done (entries sent, R90)
  | looks (l : List Look)                         -- it has done nothing and waits for look-ups (R326)
  | park                                          -- it has done nothing; every look-up has ended, and the one that decides failed (R326)
  | fault (f : Fault)
  | refused (r : Refusal)

/-- An execution: from a state to a value and a state, or a stop. -/
abbrev M := StateT Mach (Except Stop)

def halt {α : Type} (f : Mach → Stop) : M α := fun m => .error (f m)
def trap {α : Type} (cause val : Nat) : M α := fun _ => .error (.trap cause val)
def trapIf (b : Bool) (cause val : Nat) : M Unit := fun m => if b then .error (.trap cause val) else .ok ((), m)
/-- The slot blocks with its pc on the instruction, which has done nothing. -/
def block {α : Type} (w : Wait) : M α := fun _ => .error (.block w)
def blockIf (b : Bool) (w : Wait) : M Unit := fun m => if b then .error (.block w) else .ok ((), m)
/-- It blocks having done nothing but `f` to the machine. -/
def blockWith (b : Bool) (f : Mach → Mach) (w : Wait) : M Unit := fun m => if b then .error (.blockWith f w) else .ok ((), m)
def look {α : Type} (f : Mach → α) : M α := fun m => .ok (f m, m)
def mine {α : Type} (f : Slot → α) : M α := fun m => .ok (f m.sl, m)
def change (f : Mach → Mach) : M Unit := fun m => .ok ((), f m)
def changeMine (f : Slot → Slot) : M Unit := fun m => .ok ((), m.updSlot m.cur f)
/-- A name for an in-flight request, command or pending write. -/
def freshId : M Nat := fun m => .ok (m.nextId, { m with nextId := m.nextId + 1 })
/-- A number that no other use of a free value has (log entry 5). -/
def freshNo : M Nat := fun m => .ok (m.fresh, { m with fresh := m.fresh + 1 })

/-- A fixed-latency result. -/
def setFixed (lat : Nat) (cells : List (Nat × Nat)) : M Unit := changeMine (·.pend lat cells)

/-- An interlocked result: register bytes from `a` receive the bytes when it lands (R21). -/
def setLand (src : LandSrc) (cells : List (Nat × Option Nat)) (from_ : Nat := 0) : M Unit := do
  let id ← freshId
  let cells := cells.filter (fun c => !(keepCells [(c.1, 0)]).isEmpty)
  if cells.isEmpty && (src = .ready || src = .gang) then pure ()
  else changeMine (fun s => Slot.note { s with il := s.il ++ [{ id := id, cells := cells, src := src, from_ := from_ }] } (cells.map (·.1)))

/-- A pending interlocked write whose bytes are not known yet; its name. -/
def newLand (src : LandSrc) (cells : List Nat) : M Nat := do
  let id ← freshId
  changeMine (fun s => Slot.note { s with il := s.il ++ [{ id := id, cells := cells.map (fun a => (a, none)), src := src, from_ := 0 }] } cells)
  pure id

def known (l : List (Nat × Nat)) : List (Nat × Option Nat) := l.map (fun c => (c.1, some c.2))
def gCells (k v : Nat) : List (Nat × Nat) := cellsAt (8 * k) (toLE 8 v)
def qCells (n : Nat) (v : Bool) : List (Nat × Nat) := [(predPlace n, ofBool v)]
def mCells (n row col : Nat) : List (Nat × Nat) :=
  cellsAt (maskPlace n) (toLE 8 (2 ^ 64 - 1 - row % 2 ^ 64)) ++ cellsAt (maskPlace n + 8) (toLE 8 (2 ^ 64 - 1 - col % 2 ^ 64))

/-! ## Ending a context (R343) -/

/-- A queue's number as the host knows it: host queues 0 to 3, then device-side queues (R352, R354). -/
def hostQueue (q : Nat) : Nat := if q < 16 then q + 4 else q - 16

/-- A queue enters the error state and the host is told (R262). -/
def queueError (c q cause val : Nat) (m : Mach) : Mach :=
  let x := m.ctx c
  let y := x.queues.get Queue.init q
  notify 0x02 cause x.asid 0 0 (hostQueue q) val (m.updCtx c (fun x => { x with queues := x.queues.put q { y with err := true } }))

/-- A gang completes (R260): its completion counter receives 1 as an atomic at .sys, or its queue enters the error state. -/
def completeGang (g : Nat) (m : Mach) : Mach :=
  match m.gangs.find g with
  | none => m
  | some G =>
    let m := { m with gangs := m.gangs.del g }
    let c := m.ctx G.ctx
    let q := c.queues.get Queue.init G.queue
    let q := { q with active := q.active.map (fun p => if p.2 == .running g then (p.1, .done) else p) }
    let fail := fun cause m => queueError G.ctx G.queue cause G.csig m
    let m := m.updCtx G.ctx (fun c => { c with queues := c.queues.put G.queue q })
    if G.csig = 0 then m
    else match reach m c G.csig .write with
      | none => fail 0 m
      | some pa =>
        let add := fun m => engStore (cellsAt pa (toLE 8 ((m.mem.num pa 8 + 1) % 2 ^ 64))) (deviceSees pa 8 m)
        match paKind m.dev pa with
        | .hole => fail 0x16 m
        | .host => fail 0x19 m
        | .peer => dropCopy (pa / 128) (add m)
        | _ => add m

/-- What a slot keeps when its context ends: nothing that runs. -/
def Slot.ended (s : Slot) : Slot :=
  { s with run := .stopped, wait := none, look := [], parked := false, task := none, next := none, deque := [], spilled := [],
           spillHead := 0, spillCnt := 0, il := [], rep := none, mid := false, got := [], comet := none, aside := [], streams := [], grantP := 0, grantN := 0,
           grantReq := 0, backoff := none, hcSent := false, ocLd := 0, ocSt := 0, ocAt := 0, ocLw := 0 }

/-- DB, DR and ST of a copy's record (R211 to R213). -/
def copyWriteBack (c : Cmd) (row byte : Nat) (st : Option Nat) (m : Mach) : Mach :=
  let n := if c.op = 0xCC then byte / 8 else byte
  storeSp (cellsAt (spPlace (coreOf c.slot) (c.args.getD 0 0 + 48)) (toLE 4 n ++ toLE 4 row ++ (match st with
    | some s => [s]
    | none => []))) m

def isCopy (op : Nat) : Bool := op == 0xCA || op == 0xCB || op == 0xCC

/-- A cancelled copy's record says where it stands, with status 4 (R216). -/
def cancelRecord (c : Cmd) (m : Mach) : Mach :=
  if isCopy c.op then copyWriteBack c (c.args.getD 1 0) (c.args.getD 2 0) (some 4) m else m

/-- The engine commands of an ending context are cancelled as by ECANCEL: its timelines but tl.fx, whose remote commands are abandoned, reach
their last numbers, in its slots and in those saved (R216, R343). -/
def cancelAll (c : Nat) (m : Mach) : Mach :=
  let m := (m.cmds.filter (·.ctx == c)).foldl (fun m d => cancelRecord d m) m
  let m := (m.slotsOfCtx c).foldl (fun m k => (List.range 4).foldl (fun m t =>
    let x := m.tlOf k t
    if x.count < x.issued then setTimeline k t ⟨x.issued, x.issued, 4⟩ m else m) m) m
  let x := m.ctx c
  x.kept.foldl (fun m e => (List.range 4).foldl (fun m t =>
    let y := e.2.tl.get Timeline.init t
    if y.count < y.issued then engStore (cellsAt (mirrorAt x e.1 t) (toLE 8 y.issued)) m else m) m) m

/-- Is the request of an ended context still performed (R340)? What its instructions wrote, updated or asked a law unit to do is. -/
def Req.outlives (r : Req) : Bool := match r.kind with
  | .store _ _ => true
  | .atomic _ _ _ _ _ _ => true
  | .law _ _ _ _ _ _ _ _ => true
  | _ => false

/-- A miss that had joined a fill which leaves with its context is sent on its own. -/
def unjoin (m : Mach) : Mach :=
  { m with reqs := m.reqs.map (fun x => if x.st == .joined && !m.reqs.any (fun r => r.st != .joined && coreOf r.slot == coreOf x.slot
      && r.pa / 128 == x.pa / 128 && (match r.kind with
        | .load _ _ alloc _ _ => alloc
        | .data _ alloc _ => alloc
        | .line l1 => l1
        | _ => false)) then { x with st := .sent } else x) }

/-- What leaves the machine when a context ends (R343): every slot stops, commands are cancelled, units forget its entries, gangs
complete. Stores, atomics and law operations under way are still performed. -/
def clearContext (c : Nat) (m : Mach) : Mach :=
  let keys := m.slotsOfCtx c
  let m := cancelAll c m
  let m : Mach := keys.foldl (fun m j => m.updSlot j Slot.ended) m
  let m : Mach := { m with
    reqs := m.reqs.filter (fun r => r.ctx != c || r.outlives)
    cmds := m.cmds.filter (·.ctx != c)
    records := m.records.filter (·.ctx != c)
    ingests := m.ingests.filter (·.ctx != c)
    octets := m.octets.map (fun e => (e.1, { e.2 with
      eph := e.2.eph.filter (·.ctx != c)
      claims := e.2.claims.filter (fun x => !keys.contains x.slot) }))
    slices := m.slices.map (fun e => (e.1, { e.2 with eph := e.2.eph.filter (·.ctx != c) }))
    clusters := m.clusters.map (fun e => (e.1, {
      held := e.2.held
      bars := e.2.bars.map (fun b => if b.2.ctx == c then (b.1, { b.2 with live := false }) else b)
      subs := e.2.subs.filter (fun s => s.2.ctx != c)
      nodes := e.2.nodes.filter (fun n => decide (n.1 < (m.ctx c).nbase) || decide ((m.ctx c).nbase + (m.ctx c).ncnt ≤ n.1) ||
        !((m.ctx c).cores.any (fun x => clusterOf x == e.1)))
      cons := e.2.cons.filter (fun n => n.2.ctx != c) })) }
  let m : Mach := (m.gangs.filter (fun g => g.2.ctx == c)).foldl (fun m g =>
    completeGang g.1 { m with gangs := m.gangs.put g.1 { g.2 with killed := true } }) m
  unjoin (m.updCtx c (fun x => { x with st := .ended, pre := none, kept := [], keptBufs := [], keptCmds := [] }))

/-- A context ends (R343) with a cause; `k` is the slot and `val` the address the host is told. -/
def endContext (c cause k val : Nat) (m : Mach) : Mach :=
  notify 0x01 cause (m.ctx c).asid (coreOf k) (slotOf k) 0 val (clearContext c m)

/-- A translation by the device for its own access of context `c` on behalf of slot `k`: poison in the walk ends the context (R344). -/
def deviceXlate (c k va : Nat) (acc : Acc) (m : Mach) : Option Nat × Mach :=
  match deviceWalk (m.ctx c) va m with
  | (some a, m) => (none, endContext c 0x81 k a m)
  | (none, m) => (reach m (m.ctx c) va acc, m)

/-- Nothing more happens in a context that has just ended. -/
def unlessEnded (c : Nat) (f : Mach → Mach) (m : Mach) : Mach := if (m.ctx c).st == .ended then m else f m

/-- A gang completes while its context runs: a walk to its counter that reads poison ends the context instead (R260, R344). -/
def finishGang (g : Nat) (m : Mach) : Mach :=
  match m.gangs.find g with
  | none => m
  | some G => match (if G.csig = 0 then (none, m) else deviceWalk (m.ctx G.ctx) G.csig m) with
    | (some a, m) => endContext G.ctx 0x81 0 a m
    | (none, m) => completeGang g m

/-! ## Taking a trap and returning from one (R340, R22) -/

/-- Special-function results that readers at the slot's count do not see yet (R21, R231). -/
def Slot.early (s : Slot) : List Land := s.il.filter (fun l => decide (s.n < l.from_))

/-- The old value of every register byte with a pending fixed-latency write that has not landed at the slot's count. -/
def Slot.oldBytes (s : Slot) : List (Nat × Nat) :=
  let s := s.settle
  ((s.pw.map (fun p => p.cells.map (·.1))).flatten ++ (s.early.map (fun l => l.cells.map (·.1))).flatten).map (fun a => (a, s.byteAt s.n a))

/-- A handler sees such a result as landed: it waits for it (R22). -/
def Land.inHandler (n : Nat) (l : Land) : Land := if n < l.from_ then { l with from_ := 0, back := some l.from_ } else l

/-- The interrupted flow sees it from its own count on again. -/
def Land.resumed (l : Land) : Land := match l.back with
  | some b => { l with from_ := b, back := none }
  | none => l

/-- The priority ceiling of a slot (R71, R254). -/
def Slot.ceiling (s : Slot) : Nat := min s.ceil s.cfgCeil

/-- A SLOTCFG setting applies (R81): a level above the new ceiling is lowered to it. -/
def Slot.configured (s : Slot) (en : Bool) (ceil : Nat) : Slot :=
  let s : Slot := { s with enabled := en, cfgCeil := ceil, cfgNext := none }
  { s with level := min s.level s.ceiling }

/-- The slot is between instructions: a setting that waits for this applies (R81). -/
def Slot.boundary (s : Slot) : Slot :=
  let s : Slot := { s with mid := false, got := [] }
  match s.cfgNext with
  | some p => s.configured p.1 p.2
  | none => s

/-- A word on its way to a follower that its leader repeats, or with which its leader begins repetitions (R83). -/
def Fwd.repeated (f : Fwd) : Bool := f.rep.any (fun r => r.pc != f.pc)
def Fwd.begins (f : Fwd) : Bool := f.rep.any (fun r => r.pc == f.pc)

/-- The REP whose body the slot is about to execute; a following follower is in a repetition when its leader was (R69, R83). -/
def Slot.inRep (s : Slot) : Option Rep := match s.comet with
  | some (.follower _ q) => if q.head?.any Fwd.repeated then s.rep else none
  | _ => s.rep

/-- A slot in a repetition goes back to REP's address, with the count from which REP brings it to the repetition's own (R22, R69; log
entry 56). -/
def Slot.toRep (s : Slot) (r : Rep) : Slot := { s with pc := r.pc, n := s.n - (r.sc + 1), rep := none }

/-- The slot as an interruption saves it: at REP in a repetition, else at its own word. -/
def Slot.atReturn (s : Slot) : Slot := match s.inRep with
  | some r => s.toRep r
  | none => s

/-- The handler's entry: pending writes are saved and seen as landed, and the handler has its own count (R22). -/
def Slot.enterHandler (s : Slot) (cause val ret : Nat) : Slot :=
  let s := s.boundary
  let old := s.oldBytes
  { s with
    saved := some ⟨s.atReturn.n, old, s.settle.pw⟩
    rf := s.pw.foldl (fun rf p => rf.wrAll p.cells) s.rf
    pw := []
    il := s.il.map (Land.inHandler s.n)
    written := []
    n := 0
    rep := none
    wait := none
    look := []
    parked := false
    tret := ret % 2 ^ 56 / 4 * 4
    tcause := cause
    tval := val % 2 ^ 64
    inh := true
    pc := s.tvec % 2 ^ 56 / 4 * 4 }

/-- Does slot `l` still lead slot `k` (R85)? -/
def leads (m : Mach) (l k : Nat) : Bool := match (m.slot l).comet with
  | some (.leader ms _ _) => ms.contains k
  | _ => false

/-- A following follower goes on on its own: detached (R83, R84), or in no comet when its leader has left the comet (R85). -/
def Slot.detach (s : Slot) (led : Nat → Bool) : Slot :=
  match s.comet with
  | some (.follower l _) => { s with comet := if led l then some (.detached l) else none, rep := s.inRep }
  | _ => s

/-- Causes whose fault value is an address (R340): the notification of an ended context names it (R343, R356). -/
def addressCause (cause : Nat) : Bool := [0x14, 0x15, 0x16, 0x17, 0x40].contains cause

/-- Taking a trap (R340) in slot `k`, with its return address: the one place where a trap is taken. It counts no issue: a word that ends in a trap
which returns to it has not issued, while TRAP and a failing ASSERT count before they trap (R77; DEDUCED, log entry 47). -/
def takeTrap (k cause val ret : Nat) (m : Mach) : Mach :=
  let s := m.slot k
  if s.tvec % 2 ^ 56 / 4 = 0 then endContext s.ctx cause k (if addressCause cause then val % 2 ^ 64 else 0) m
  else if s.inh then endContext s.ctx 0x80 k 0 m
  else m.setSlot k ((s.detach (fun l => leads m l k)).enterHandler cause val ret)

/-- The return (R22, R340): the handler's own pending writes have landed, every byte the handler did not write takes back its
saved old value, and its saved pending writes land at their remaining distance. -/
def Slot.leaveHandler (s : Slot) : Slot :=
  let rf := s.pw.foldl (fun rf p => rf.wrAll p.cells) s.rf
  match s.saved with
  | none => { s with rf := rf, pw := [], il := s.il.map Land.resumed, inh := false, pc := s.tret, written := [] }
  | some sv =>
    let kept := fun a => s.written.contains a
    { s with
      rf := rf.wrAll (sv.old.filter (fun c => !kept c.1))
      pw := (sv.pw.map (fun p => { p with cells := p.cells.filter (fun c => !kept c.1) })).filter (fun p => !p.cells.isEmpty)
      il := s.il.map Land.resumed
      n := sv.n
      saved := none
      written := []
      inh := false
      pc := s.tret }

/-- The address to which an instruction of the slot returns after a trap: REP's own for a trap in a repetition (R69). -/
def Slot.retAddr (s : Slot) : Nat := s.atReturn.pc

def lookOpen (l : Look) : Bool := l.st == .toL2 || l.st == .walking

/-- Look-ups that have ended. -/
def endedOnly (l : List Look) : List Look := l.filter (fun x => !lookOpen x)

/-- The outcome of an execution (R340): a trap is taken, a wait leaves the instruction at issue. -/
def finish (s : State) : Except Stop (Unit × Mach) → Host.Outcome State Fault Refusal
  | .ok (_, m) => .next { s with m := m }
  | .error (.trap cause val) => .next { s with m := takeTrap s.m.cur cause val s.m.sl.retAddr s.m }
  | .error (.trapAt m cause val ret) => .next { s with m := takeTrap m.cur cause val ret m }
  | .error (.stay m) => .next { s with m := m }
  | .error (.block w) => .next { s with m := s.m.updSlot s.m.cur (fun x => { x with wait := some w, look := [], parked := false }) }
  | .error (.blockWith f w) => .next { s with m := (f s.m).updSlot s.m.cur (fun x => { x with wait := some w, look := [], parked := false }) }
  | .error (.looks l) => .next { s with m := s.m.updSlot s.m.cur (fun x =>
      { x with wait := some .xlate, look := endedOnly x.look ++ l, parked := false }) }
  | .error .park => .next { s with m := s.m.updSlot s.m.cur (fun x => { x with wait := some .xlate, look := endedOnly x.look, parked := true }) }
  | .error (.fault f) => .fault f
  | .error (.refused r) => .refused r

/-- Runs an execution from a state. -/
def run (x : M Unit) (s : State) : Host.Outcome State Fault Refusal := finish s (x s.m)

/-- Runs a device step, refused where it is not enabled. -/
def device (x : M Unit) (s : State) : Host.Outcome State Fault Refusal := finish s (x s.m)
def notEnabled {α : Type} : M α := fun _ => .error (.refused .notEnabled)
def enabledIf (b : Bool) : M Unit := fun m => if b then .ok ((), m) else .error (.refused .notEnabled)
def need {α : Type} (o : Option α) : M α := fun m => match o with
  | some x => .ok (x, m)
  | none => .error (.refused .notEnabled)

end Sys2Proof.Machine
end

