-- ==== Sys2Proof/Machine/Access.lean ====
section
/-! DEFINITION. Memory accesses: translation, L1, the write-combining buffer, home slices, scratchpad banks (R86 to R99,
R326 to R330, R344). -/
namespace Sys2Proof.Machine

/-! ## Translation of an instruction's accesses (R92, R326) -/

/-- The translation that a look-up of the instruction at issue ended with. -/
def lookHit (s : Slot) (asid va : Nat) (acc : Acc) : Option TlbE :=
  s.look.findSome? (fun l => match l.st with
    | .served e => if e.covers asid (granuleOf va) && e.permits acc then some e else none
    | _ => none)

/-- The entry of the core's L1 TLB, or the look-up of the instruction, that serves an access. -/
def tlbHit (m : Mach) (core asid va : Nat) (acc : Acc) : Option TlbE :=
  match (m.core core).tlb.find? (fun e => e.covers asid (granuleOf va) && e.permits acc) with
  | some e => some e
  | none => lookHit m.sl asid va acc

/-- The access that one look-up of a page is made for, when the instruction makes several: the first, or a write if there is one (DEDUCED,
log entry 55). -/
def strongest : Acc → Acc → Acc
  | _, .write => .write
  | a, _ => a

/-- The look-ups an instruction still has to make, one per distinct page (R326). -/
def missing (m : Mach) (core asid : Nat) (l : List (Nat × Acc)) : List Look :=
  let l := (l.filter (fun p => (tlbHit m core asid p.1 p.2).isNone)).map (fun p => (granuleOf p.1, p.2))
  ((l.map (·.1)).dedup).map (fun g =>
    let accs := (l.filter (fun p => p.1 == g)).map (·.2)
    ⟨g, accs.foldl strongest (accs.headD .read), .toL2⟩)

/-- Has the look-up of the instruction at issue ended without a translation? -/
def lookFailed (s : Slot) (l : Look) : Bool := s.look.any (fun x => x.granule == l.granule && x.acc == l.acc && x.st == .failed)

/-- The instruction waits for look-ups that it has still to make; when all have ended it parks (R326). -/
def waitLooks {α : Type} (l : List Look) : M α := fun m =>
  let new := l.filter (fun x => !lookFailed m.sl x)
  .error (if new.isEmpty then .park else .looks new)

/-- What the translation of one access of an instruction meets. -/
inductive Met where
  | trap (cause val : Nat)
  | look
  | pa (a : Nat)
  deriving DecidableEq, Repr

/-- The physical address, where nothing stands against the access. -/
def metPa : Met → Option Nat
  | .pa a => some a
  | .look => none
  | .trap _ _ => none

/-- A trap that comes before the translation, a range beyond 2^56 (R331), a look-up, a hole (R2, R340) or another type of memory that is not
allowed, or a physical address. -/
def meetAt (scope : PaKind → Option Nat) (m : Mach) (p : Nat × Acc × Option (Nat × Nat)) : Met := match p.2.2 with
  | some t => .trap t.1 t.2
  | none =>
    if 2 ^ 56 ≤ p.1 then .trap 0x17 p.1
    else match tlbHit m m.curCore m.cx.asid p.1 p.2.1 with
      | none => .look
      | some e =>
        match scope (paKind m.dev (e.at_ p.1)) with
        | some c => .trap c (if c = 0x16 then p.1 else 0)
        | none => .pa (e.at_ p.1)

/-- Translates the accesses of an instruction in their order, each with the trap that its own checks give, if any. The first that fails decides
(R39): its trap is raised, or the instruction stays at issue with every look-up it has to make, or it parks (R326, R331). `scope` gives the
cause that a type of memory raises (R2, R135). -/
def xlateScoped (scope : PaKind → Option Nat) (l : List (Nat × Acc × Option (Nat × Nat))) : M (List Nat) := do
  let m ← get
  let r := l.map (meetAt scope m)
  match r.find? (fun x => (metPa x).isNone) with
  | some (.trap c v) => trap c v
  | some _ => waitLooks (missing m m.curCore m.cx.asid
      ((l.filter (fun p => p.2.2.isNone && decide (p.1 < 2 ^ 56))).map (fun p => (p.1, p.2.1))))
  | none =>
    let pas := r.map (fun x => (metPa x).getD 0)
    blockIf (pas.any (waitsService m.dev)) .service
    pure pas

/-- A hole traps (R2, R340); every type of memory is allowed. -/
def anyMemory : PaKind → Option Nat
  | .hole => some 0x16
  | _ => none

/-- The same with that scope. -/
def xlateChecked (l : List (Nat × Acc × Option (Nat × Nat))) : M (List Nat) := xlateScoped anyMemory l

/-- The same for accesses without checks of their own. -/
def xlateAll (l : List (Nat × Acc)) : M (List Nat) := xlateChecked (l.map (fun p => (p.1, p.2, none)))

def xlate (va : Nat) (acc : Acc) : M Nat := do
  let l ← xlateAll [(va, acc)]
  pure (l.headD 0)

/-! ## Translation faults and TLBs (R327, R328, R337) -/

def accCode : Acc → Nat
  | .read => 0
  | .write => 1
  | .fetch => 2

/-- A pending fault is recorded in the context's buffer, or sets DROPPED (R327); the host is told (R356). -/
def recordFault (c die g : Nat) (acc : Acc) (kind lvl : Nat) (m : Mach) : Mach :=
  let x := m.ctx c
  let va := g * 2 ^ 18
  let q1 := accCode acc + kind * 2 ^ 2 + lvl * 2 ^ 5 + die * 2 ^ 7 + 2 ^ 31 + x.fseq % 2 ^ 32 * 2 ^ 32
  let tell := notify 0x05 0 x.asid 0 0 0 va
  if x.fbuf.length < 8 then
    let m := m.updCtx c (fun x => { x with fbuf := x.fbuf ++ [(va, q1)], fseq := (x.fseq + 1) % 2 ^ 32 })
    if x.fbuf.isEmpty then tell m else m
  else
    let m := m.updCtx c (fun x => { x with dropped := true })
    if x.dropped then m else tell m

def pending (m : Mach) (die asid g : Nat) : Option PFault := (m.die die).faults.find? (fun f => f.asid == asid && f.granule == g)

/-- A pending fault is created for the page, with its record, unless one stands. -/
def newFault (c die asid g : Nat) (acc : Acc) (kind lvl : Nat) (m : Mach) : Mach :=
  if (pending m die asid g).isSome then m
  else
    let d := m.die die
    recordFault c die g acc kind lvl (m.setDie die { d with faults := d.faults ++ [⟨asid, g, kind⟩] })

/-- KIND of an access that a valid leaf does not permit (R334). -/
def permKind : Acc → Nat
  | .fetch => 2
  | _ => 1

/-- The level of a leaf by its size in granules. -/
def leafLevel (size : Nat) : Nat := if size = 1 then 3 else if size = 64 then 2 else 1

/-- A TLB of `n` entries takes a translation, the oldest one leaving. -/
def tlbPut (n : Nat) (e : TlbE) (l : List TlbE) : List TlbE := (e :: l.filter (· != e)).take n

def l1TlbPut (core : Nat) (e : TlbE) (m : Mach) : Mach := m.updCore core (fun c => { c with tlb := tlbPut 32 e c.tlb })
def l2TlbPut (die : Nat) (e : TlbE) (m : Mach) : Mach :=
  let d := m.die die
  m.setDie die { d with tlb := tlbPut 16384 e d.tlb }

/-- Is the page, which no TLB of the core or its die holds, being walked (R327)? -/
def walking (m : Mach) (core asid va : Nat) : Bool :=
  let g := granuleOf va
  !(m.core core).tlb.any (·.covers asid g) && !(m.die (dieOf core)).tlb.any (·.covers asid g)
    && (m.die (dieOf core)).walks.any (fun w => w.asid == asid && w.granule == g)

/-- An access that never parks joins a walk of its page: the instruction waits for it (R327). -/
def joinWalk (va : Nat) : M Unit := do
  let m ← get
  blockIf (walking m m.curCore m.cx.asid va) (.walk (dieOf m.curCore) m.cx.asid (granuleOf va))

/-- The slot's counters that PMSEL assigns to an event advance (R361). -/
def bumpPmc (s : Slot) (ev by_ : Nat) : Tab Nat :=
  (List.range 8).foldl (fun t n => if bits s.pmsel (8 * n) 8 == ev then t.put n ((t.get 0 n + by_) % 2 ^ 64) else t) s.pmc

/-- An instruction's own access that never parks counts a miss of the L1 TLB (R361). -/
def countTlb (k va : Nat) (m : Mach) : Mach :=
  if (m.core (coreOf k)).tlb.any (·.covers (m.ctx (m.slot k).ctx).asid (granuleOf va)) then m else m.updSlot k (fun s => { s with pmc := bumpPmc s 6 1 })

/-- A translation for slot `k` that never parks and records nothing (R101, R103): from the core's TLB, from the die's, or by a walk when no
pending fault stands; a valid one is kept (R328). A walk over poison ends the context (R344). -/
def quietXlate (k va : Nat) (acc : Acc) (m : Mach) : Option Nat × Mach :=
  let core := coreOf k
  let die := dieOf core
  let ci := (m.slot k).ctx
  let c := m.ctx ci
  let g := granuleOf va
  let use := fun (e : TlbE) => if e.permits acc then some (e.at_ va) else none
  if 2 ^ 56 ≤ va then (none, m)
  else match (m.core core).tlb.find? (·.covers c.asid g) with
    | some e => (use e, m)
    | none => match (m.die die).tlb.find? (·.covers c.asid g) with
      | some e => (use e, l1TlbPut core e m)
      | none =>
        if (pending m die c.asid g).isSome then (none, m)
        else
          let m := walkFind c va m
          match walkPoison m c va with
          | some a => (none, endContext ci 0x81 k a m)
          | none => match walk m.dev m.mem c va with
            | .leaf e _ => (use e, l1TlbPut core e (l2TlbPut die e m))
            | .fail _ _ => (none, m)

/-! ## Writer capabilities (R321, R322) -/

/-- The table entry of the granule of `va`, if it lies in the window. -/
def capEntryAt (c : Ctx) (va : Nat) : Option Nat :=
  if c.capwin ≤ va ∧ (va - c.capwin) / 4096 < c.capn then some (c.captab + 2 * ((va - c.capwin) / 4096)) else none

/-- Does the core hold the granule of `va`? -/
def capHeld (m : Mach) (c : Ctx) (core va : Nat) : Bool :=
  match capEntryAt c va with
  | some a => m.mem.num a 2 == 2 ^ 14 + core % 2 ^ 14
  | none => false

/-- Every granule boundary of a range, starting with its first byte. -/
def rangeVas (va len : Nat) : List Nat :=
  if len = 0 then []
  else va :: (List.range ((va + len - 1) / 4096 - va / 4096)).map (fun i => (va / 4096 + i + 1) * 4096)

/-- The first byte of a range whose granule the core does not hold (R322). -/
def capFails (m : Mach) (c : Ctx) (core va len : Nat) : Option Nat :=
  if c.det then (rangeVas va len).find? (fun a => !capHeld m c core a) else none

/-- The check of R322 on a range the instruction would write. -/
def capCheck (va len : Nat) : M Unit := do
  let m ← get
  match capFails m m.cx m.curCore va len with
  | some a => trap 0x40 a
  | none => pure ()

/-! ## L1 (R89) -/

/-- The copy of a line in the core's L1. -/
def l1Find (c : Core) (line : Nat) : Option L1Line := c.l1.find? (·.line == line)

/-- Removes a line. -/
def l1Drop (c : Core) (line : Nat) : Core := { c with l1 := c.l1.filter (·.line != line) }

/-- Allocates a line as most recently used, replacing the least recently used way of its set; a hint makes it the next victim
or the last one (R14, R89). -/
def l1Alloc (c : Core) (x : L1Line) (ch : Nat) : Core :=
  let c := l1Drop c x.line
  let inSet := c.l1.filter (fun y => y.line % 64 == x.line % 64)
  let c := if inSet.length < 4 then c else match inSet.getLast? with
    | some y => l1Drop c y.line
    | none => c
  { c with l1 := if ch = 1 then c.l1 ++ [x] else x :: c.l1 }

/-- The L1 copy of a line becomes the most recently used. -/
def l1Touch (c : Core) (line ch : Nat) : Core := match l1Find c line with
  | some x => l1Alloc c x ch
  | none => c

/-- L1 invalidation: every line goes and fills in flight are not allocated (R89, R102). -/
def l1Inv (core : Nat) (m : Mach) : Mach :=
  let m := m.updCore core (fun c => { c with l1 := [] })
  { m with reqs := m.reqs.map (fun r => if coreOf r.slot == core then { r with gone := true } else r) }

/-- L1 invalidation of the lines given. -/
def l1InvLines (core : Nat) (lines : List Nat) (m : Mach) : Mach :=
  let m := m.updCore core (fun c => { c with l1 := c.l1.filter (fun x => !lines.contains x.line) })
  { m with reqs := m.reqs.map (fun r => if coreOf r.slot == core && lines.contains (r.pa / 128) then { r with gone := true } else r) }

/-! ## Requests -/

def isQuery : ReqKind → Bool
  | .query _ _ => true
  | _ => false

/-- Is a request for the line under way: held by its slice, or sent by the core? A SLICEQ is for no line (R8). -/
def lineBusy (m : Mach) (core line : Nat) : Bool :=
  m.reqs.any (fun r => r.pa / 128 == line && !isQuery r.kind && (r.accepted || r.st == .sent && coreOf r.slot == core))

/-- The latest store to each byte that the core's write-combining buffer holds; two contexts' entries may hold one byte. Stores already sent lie
before any later request of the core at their home slice, so a load needs only these (R91, R99). -/
def wcbBytes (m : Mach) (core : Nat) : List (Nat × Nat) :=
  let es := (m.core core).wcb
  (es.map (fun w => w.bytes.filter (fun b => !es.any (fun v => decide (w.seqs.get 0 b.1 < v.seqs.get 0 b.1))))).flatten

/-- Bytes as a load of the core would return them, when none of its stores to the line is on its way (R79, R91). -/
def homeBytes (m : Mach) (core pa len : Nat) : List Nat :=
  let own := wcbBytes m core
  (List.range len).map (fun i => (latest own (pa + i)).getD (m.mem.rd (pa + i)))

def isStore : ReqKind → Bool
  | .store _ _ => true
  | _ => false

/-- Is a store of the slot to a line of host memory still to be sent? -/
def ownHostStore (m : Mach) (k line : Nat) : Bool := m.reqs.any (fun r => r.st == .host && isStore r.kind && r.slot == k && r.pa / 128 == line)

/-- The slot of a store token. -/
def storeKey (t : Nat) : Nat := t % 2 ^ 16

/-- Sends write-combining entry `w` of a core (R90). -/
def sendOne (core : Nat) (w : Wcb) (m : Mach) : Mach :=
  addReq (storeKey (w.stores.headD (keyOf core 0))) w.ctx (w.line * 128) .sent (.store w.bytes w.stores) m

/-- Sends every entry that the test selects, after the earlier entries of the same home slice (R90). -/
def sendWcb (core : Nat) (p : Wcb → Bool) (m : Mach) : Mach :=
  let es := (m.core core).wcb
  let homes := (es.filter p).map (fun w => homeOf (w.line * 128))
  let lastIx := fun h => ((es.zipIdx.filter (fun e => p e.1 && homeOf (e.1.line * 128) == h)).map (·.2)).getLastD 0
  let go := fun (e : Wcb × Nat) => let h := homeOf (e.1.line * 128)
    homes.contains h && decide (e.2 ≤ lastIx h)
  let out := es.zipIdx.filter go
  let m := m.updCore core (fun c => { c with wcb := (es.zipIdx.filter (fun e => !go e)).map (·.1) })
  out.foldl (fun m e => sendOne core e.1 m) m

/-- A strong access sends the entries that hold its bytes (R90, R99). -/
def sendBytes (core pa len : Nat) (m : Mach) : Mach :=
  sendWcb core (fun w => w.bytes.any (fun c => decide (pa ≤ c.1) && decide (c.1 < pa + len))) m

/-- Does a fill of the line for this request go on to L1? -/
def fillsL1 : ReqKind → Bool
  | .load _ _ alloc _ _ => alloc
  | .data _ alloc _ => alloc
  | .line l1 => l1
  | _ => false

/-- The request whose fill of the line is on its way to the core's L1: a later weak miss of the line joins it, so that no older fill follows a
younger one (R300). -/
def filler (m : Mach) (core line : Nat) : Option Req :=
  m.reqs.find? (fun r => fillsL1 r.kind && r.st != .joined && !r.gone && coreOf r.slot == core && r.pa / 128 == line)

/-- A weak miss of the executing slot: it joins the fill of its line, with the stores since, or is sent. -/
def missReq (alloc : Bool) (pa ch : Nat) (kind : ReqKind) (m : Mach) : Mach :=
  match (if alloc then filler m m.curCore (pa / 128) else none) with
  | some r => addReq m.cur m.sl.ctx pa .joined kind m (fun x => { x with mine := r.mine ++ r.later, hint := ch })
  | none => addReq m.cur m.sl.ctx pa .sent kind m (fun x => { x with mine := wcbBytes m m.curCore, hint := ch })

/-- A store of the core updates the L1 copy and every fill on its way to that core (R90, R91); a hint moves the copy (R14), and without one the
order of use stays (DESIGN CHOICE, log entry 27). -/
def storeL1 (core ch : Nat) (l : List (Nat × Nat)) (m : Mach) : Mach :=
  let m := m.updCore core (fun c =>
    let c := { c with l1 := c.l1.map (fun x =>
      let bytes := (l.filter (fun b => b.1 / 128 == x.line)).map (fun b => (b.1 % 128, b.2))
      { x with data := x.data.wrAll bytes, bad := x.bad.filter (fun w => !(wordsWhole bytes).contains w) }) }
    if ch = 1 ∨ ch = 2 then ((l.map (·.1 / 128)).dedup).foldl (fun c line => l1Touch c line ch) c else c)
  { m with reqs := m.reqs.map (fun r => if fillsL1 r.kind && coreOf r.slot == core then
      { r with later := r.later ++ l.filter (fun b => b.1 / 128 == r.pa / 128) } else r) }

def bumpSt (k : Nat) (m : Mach) : Mach := m.updSlot k (fun s => { s with ocSt := s.ocSt + 1 })

/-- A weak store of bytes of one line by slot `k`, with its token and cache hint (R90). A store to host memory goes to the PCIe port
(R307). -/
def weakStoreT (k t ch : Nat) (l : List (Nat × Nat)) (m : Mach) : Mach :=
  let core := coreOf k
  let pa := (l.headD (0, 0)).1
  let c := (m.slot k).ctx
  if paKind m.dev pa == .host then addReq k c pa .host (.store l [t]) m
  else
    let m := storeL1 core ch l m
    let line := pa / 128
    let es := (m.core core).wcb
    let seq := 1 + ((es.map (fun w => w.seqs.map (·.2))).flatten).foldl max 0
    let mark := fun (t : Tab Nat) => l.foldl (fun t b => t.put b.1 seq) t
    let m := if es.any (fun w => w.line == line && w.ctx == c) then
        m.updCore core (fun x => { x with wcb := x.wcb.map (fun w =>
          if w.line == line && w.ctx == c then
            { w with bytes := w.bytes.filter (fun b => !l.any (fun d => d.1 == b.1)) ++ l, seqs := mark w.seqs, stores := w.stores ++ [t] }
          else w) })
      else
        let m := if es.length < 4 then m else
          match es.head? with
          | some e => sendWcb core (fun w => w == e) m
          | none => m
        m.updCore core (fun x => { x with wcb := x.wcb ++ [⟨line, l, mark [], c, [t], m.cyc⟩] })
    sendWcb core (fun w => w.bytes.length == 128) m

/-- A weak store instruction's bytes: it counts in oc.st. -/
def weakStore (ch : Nat) (l : List (Nat × Nat)) (m : Mach) : Mach := weakStoreT m.cur m.cur ch l (bumpSt m.cur m)

/-- A strong store of bytes of one line (R99): it updates the L1 copy and goes home after the entries that hold its bytes. -/
def strongStoreT (k t ch : Nat) (l : List (Nat × Nat)) (m : Mach) : Mach :=
  let pa := (l.headD (0, 0)).1
  if paKind m.dev pa == .host then weakStoreT k t ch l m
  else
    let m := l.foldl (fun m c => sendBytes (coreOf k) c.1 1 m) m
    addReq k (m.slot k).ctx pa .sent (.store l [t]) (storeL1 (coreOf k) ch l m)

def strongStore (ch : Nat) (l : List (Nat × Nat)) (m : Mach) : Mach := strongStoreT m.cur m.cur ch l (bumpSt m.cur m)

/-- Does a store of the token remain under way? -/
def tokenHeld (m : Mach) (t : Nat) : Bool :=
  (m.core (coreOf (storeKey t))).wcb.any (fun w => w.stores.contains t) || m.reqs.any (fun r => match r.kind with
    | .store _ ts => ts.contains t
    | _ => false)

/-- A store's acknowledgement: the count goes down, for an instruction of several stores at its last one (R95). -/
def ackToken (m : Mach) (t : Nat) : Mach :=
  if decide (2 ^ 16 ≤ t) && tokenHeld m t then m else m.updSlot (storeKey t) (fun s => { s with ocSt := s.ocSt - 1 })

/-- Little-endian bytes of a loaded value extended to `out` bytes (R98). -/
def extend (out : Nat) (signed : Bool) (l : List Nat) : List Nat :=
  let w := 8 * l.length
  toLE out (if signed then ofInt (8 * out) (sx w (ofLE l)) else ofLE l)

/-- Cells `[i, i + bytes.length)` of a pending interlocked write receive their values. -/
def Land.fill (x : Land) (i : Nat) (bytes : List Nat) : Land :=
  { x with cells := x.cells.zipIdx.map (fun c =>
      if i ≤ c.2 ∧ c.2 < i + bytes.length then (c.1.1, some (bytes.getD (c.2 - i) 0)) else c.1) }

def fillLand (k id i : Nat) (bytes : List Nat) (m : Mach) : Mach :=
  m.updSlot k (fun s => { s with il := s.il.map (fun x => if x.id == id then x.fill i bytes else x) })

/-- The bytes a weak load or a stream pop obtains from L1, if it hits (R89). -/
def l1Bytes (m : Mach) (core pa len : Nat) : Option (List Nat) :=
  (l1Find (m.core core) (pa / 128)).map (fun x => x.data.rdN (pa % 128) len)

/-- Is a word of the range poisoned in the core's L1 copy (R344)? -/
def l1Poisoned (m : Mach) (core pa len : Nat) : Bool :=
  ((l1Find (m.core core) (pa / 128)).map (fun x => (wordsOf (pa % 128) len).any (fun w => x.bad.contains w))).getD false

def Slot.countEvents (s : Slot) (ev by_ : Nat) : Slot := { s with pmc := bumpPmc s ev by_ }
def Slot.countEvent (s : Slot) (ev : Nat) : Slot := s.countEvents ev 1

/-- The parts of one line reach the pending write `land`. -/
def fillParts (k land : Nat) (signed : Bool) (parts : List Part) (read : Nat → Nat → List Nat) (m : Mach) : Mach :=
  parts.foldl (fun m p => fillLand k land p.cell (extend p.out signed (toLE p.len (ofLE (read p.pa p.len) / 2 ^ p.low * 2 ^ p.low))) m) m

/-- The load of parts of one line by the executing slot into the pending write `land` (R98, R99, R237). It does not count: the
instruction does. A load of host memory goes to the PCIe port (R307). -/
def startLine (parts : List Part) (signed strong sys : Bool) (ch land : Nat) (m : Mach) : Mach :=
  let core := m.curCore
  let k := m.cur
  let pa := (parts.headD ⟨0, 0, 0, 0, 0⟩).pa
  let alloc := !strong && ch != 3
  if paKind m.dev pa == .host then addReq k m.sl.ctx pa .host (.load parts signed false false land) m
  else if alloc && (l1Bytes m core pa 1).isSome then
    let bad := parts.any (fun p => l1Poisoned m core p.pa p.len)
    let m := fillParts k land signed parts (fun a n => (l1Bytes m core a n).getD []) m
    let m := (m.updSlot k (·.countEvent 4)).updCore core (fun c => l1Touch c (pa / 128) ch)
    if bad then endContext m.sl.ctx 0x81 k pa m else m
  else
    let m := if strong then parts.foldl (fun m p => sendBytes core p.pa p.len m) m else m.updSlot k (·.countEvent 5)
    missReq alloc pa ch (.load parts signed alloc sys land) m

/-- A load of one register: `len` bytes at `pa` into cells `[cell, cell + out)`. -/
def startLoad (pa len : Nat) (signed strong sys : Bool) (ch land cell out : Nat) (m : Mach) : Mach :=
  startLine [⟨pa, len, cell, out, 0⟩] signed strong sys ch land m

/-! ## The home slice (R9, R93) -/

def occupancy (m : Mach) (u : Nat) : Nat := (m.reqs.filter (fun r => r.accepted && homeOf r.pa == u)).length
/-- The entries held for data requests of a context: instruction fetch and table walks are not counted (R7). -/
def ownCount (m : Mach) (u c : Nat) : Nat := (m.reqs.filter (fun r => r.accepted && homeOf r.pa == u && r.ctx == c && r.kind != .code)).length

/-- A slice counts an accepted data request of a context (R7), which it holds unless it has answered it already. -/
def countAccept (u c : Nat) (m : Mach) : Mach :=
  let s := m.slice u
  let x := s.cnt.get ⟨0, 0⟩ c
  m.setSlice u { s with cnt := s.cnt.put c ⟨max x.high (ownCount m u c), (x.acc + 1) % 2 ^ 32⟩ }

/-- A request that the slice holds in an entry already counted (R7). -/
def countHeld (u c : Nat) (m : Mach) : Mach :=
  let s := m.slice u
  let x := s.cnt.get ⟨0, 0⟩ c
  m.setSlice u { s with cnt := s.cnt.put c { x with high := max x.high (ownCount m u c) } }

/-- A request that a slice accepts, performs and answers at once: it held an entry and counts (R7, R9). -/
def countAtOnce (u c : Nat) (m : Mach) : Mach :=
  let s := m.slice u
  let x := s.cnt.get ⟨0, 0⟩ c
  m.setSlice u { s with cnt := s.cnt.put c ⟨max x.high (ownCount m u c + 1), (x.acc + 1) % 2 ^ 32⟩ }

/-- May the slice perform a request for the line now, had it accepted it last (R9, R93)? It has an entry free, and every earlier one it holds has
been performed, but for pooled stores to other lines that await their completions. -/
def sliceFree (m : Mach) (pa : Nat) : Bool :=
  decide (occupancy m (homeOf pa) < 32) && m.reqs.all (fun r => !(r.accepted && homeOf r.pa == homeOf pa) || r.st == .cxl && r.pa / 128 != pa / 128)

/-! ## Integer types (R31) and atomic updates (R296) -/

def Ty.size : Ty → Nat
  | .i64 => 8
  | .n64 => 8
  | .i32 => 4
  | .n32 => 4
  | .i16 => 2
  | .n16 => 2
  | .i8 => 1
  | .n8 => 1

def Ty.signed : Ty → Bool
  | .i64 => true
  | .i32 => true
  | .i16 => true
  | .i8 => true
  | _ => false

/-- `val(x, TY)` of R57. -/
def Ty.val (t : Ty) (x : Nat) : Int := if Ty.signed t then sx (8 * Ty.size t) x else (x % 2 ^ (8 * Ty.size t) : Nat)
/-- `pat(x, TY)` of R57. -/
def Ty.pat (t : Ty) (x : Nat) : Nat := x % 2 ^ (8 * Ty.size t)
/-- `wrap(v, TY)` of R57, as a 64-bit pattern. -/
def Ty.wrap (t : Ty) (v : Int) : Nat := ofInt 64 (Ty.val t (ofInt 64 v))

end Sys2Proof.Machine
end

