-- ==== Sys2Proof/Machine/Formats.lean ====
section
/-! DEFINITION. Number formats, scales and rounding (R170 to R182): exact values are dyadic, `(-1)^s · m · 2^e`. -/
namespace Sys2Proof.Machine

/-- An exact value, an infinity or a non-number; a zero keeps its sign (R177). -/
inductive Num where
  | fin (neg : Bool) (m : Nat) (e : Int)
  | inf (neg : Bool)
  | nan
  deriving DecidableEq, Repr

def Num.zero (neg : Bool) : Num := .fin neg 0 0
def Num.ofInt (v : Int) : Num := .fin (decide (v < 0)) v.natAbs 0
def Num.isNan : Num → Bool
  | .nan => true
  | _ => false
def Num.isInf : Num → Bool
  | .inf _ => true
  | _ => false
def Num.isZero : Num → Bool
  | .fin _ m _ => m == 0
  | _ => false
def Num.sign : Num → Bool
  | .fin s _ _ => s
  | .inf s => s
  | .nan => false
def Num.neg : Num → Num
  | .fin s m e => .fin (!s) m e
  | .inf s => .inf (!s)
  | .nan => .nan
def Num.abs : Num → Num
  | .fin _ m e => .fin false m e
  | .inf _ => .inf false
  | .nan => .nan

/-- `m · 2^(e - f)` for `f ≤ e`. -/
def scaleTo (m : Nat) (e f : Int) : Nat := m * 2 ^ (e - f).toNat

/-- The exact sum, with the sign of a zero sum (R177). -/
def Num.add (rd : Bool) : Num → Num → Num
  | .nan, _ => .nan
  | _, .nan => .nan
  | .inf s, .inf t => if s == t then .inf s else .nan
  | .inf s, _ => .inf s
  | _, .inf t => .inf t
  | .fin s m e, .fin t n f =>
    if m = 0 ∧ n = 0 then .fin (if s == t then s else rd) 0 0
    else
      let g := min e f
      let a : Int := scaleTo m e g
      let b : Int := scaleTo n f g
      let v := (if s then -a else a) + (if t then -b else b)
      if v = 0 then .fin rd 0 0 else .fin (decide (v < 0)) v.natAbs g

/-- The exact product (R177, R183). -/
def Num.mul : Num → Num → Num
  | .nan, _ => .nan
  | _, .nan => .nan
  | .inf s, .inf t => .inf (s != t)
  | .inf s, .fin t n _ => if n = 0 then .nan else .inf (s != t)
  | .fin s m _, .inf t => if m = 0 then .nan else .inf (s != t)
  | .fin s m e, .fin t n f => .fin (s != t) (m * n) (e + f)

/-- `x · 2^k`. -/
def Num.shift (k : Int) : Num → Num
  | .fin s m e => .fin s m (e + k)
  | x => x

/-- Comparison of magnitudes `m · 2^e` and `n · 2^f`. -/
def magLe (m : Nat) (e : Int) (n : Nat) (f : Int) : Bool :=
  let g := min e f
  decide (scaleTo m e g ≤ scaleTo n f g)

/-- A signed integer that orders finite values and infinities of one exponent base. -/
def Num.le : Num → Num → Bool
  | .nan, _ => false
  | _, .nan => false
  | .inf s, .inf t => s || !t
  | .inf s, _ => s
  | _, .inf t => !t
  | .fin s m e, .fin t n f =>
    let g := min e f
    let a : Int := scaleTo m e g
    let b : Int := scaleTo n f g
    decide ((if s then -a else a) ≤ (if t then -b else b))

def Num.eq (x y : Num) : Bool := x.le y && y.le x
def Num.lt (x y : Num) : Bool := x.le y && !y.le x

/-- The exact quotient, with a sticky last bit when it is not dyadic: it lies strictly between the same neighbours of every
format as the true quotient. -/
def Num.div : Num → Num → Num
  | .nan, _ => .nan
  | _, .nan => .nan
  | .inf _, .inf _ => .nan
  | .inf s, .fin t _ _ => .inf (s != t)
  | .fin s _ _, .inf t => .fin (s != t) 0 0
  | .fin s m e, .fin t n f =>
    if n = 0 then (if m = 0 then .nan else .inf (s != t))
    else
      let q := m * 2 ^ 400 / n
      .fin (s != t) (2 * q + (if m * 2 ^ 400 % n = 0 then 0 else 1)) (e - f - 401)

/-! ## Formats -/

/-- How a format's codes are read. -/
inductive Shape where
  | tapered (n es : Nat)
  | flt (ew fw : Nat) (bias : Int) (ieee : Bool) (nanCode : Option Nat) (maxMag : Nat)
  | log
  | int (n : Nat) (signed : Bool)
  | tern
  | bin
  deriving DecidableEq, Repr

/-- The formats (R171 to R176). For E8M10 the shape describes bits [31:13] (R174). -/
def shape : Fmt → Shape
  | .t8e0 => .tapered 8 0
  | .t8e1 => .tapered 8 1
  | .t8e2 => .tapered 8 2
  | .t6e0 => .tapered 6 0
  | .t6e1 => .tapered 6 1
  | .e4m3 => .flt 4 3 7 false (some 0x7F) 0x7E
  | .e5m2 => .flt 5 2 15 true (some 0x7E) 0x7B
  | .e3m4 => .flt 3 4 3 false (some 0x7F) 0x7E
  | .e3m2 => .flt 3 2 3 false none 0x1F
  | .e2m3 => .flt 2 3 1 false none 0x1F
  | .e2m1 => .flt 2 1 1 false none 0x7
  | .l8 => .log
  | .i8 => .int 8 true
  | .n8 => .int 8 false
  | .i4 => .int 4 true
  | .n4 => .int 4 false
  | .i2 => .int 2 true
  | .tern => .tern
  | .bin => .bin
  | .i16 => .int 16 true
  | .fp16 => .flt 5 10 15 true (some 0x7E00) 0x7BFF
  | .bf16 => .flt 8 7 127 true (some 0x7FC0) 0x7F7F
  | .fp32 => .flt 8 23 127 true (some 0x7FC00000) 0x7F7FFFFF
  | .e8m10 => .flt 8 10 127 true (some 0x3FE00) 0x3FBFF

/-- Element width in bits (R170). -/
def Fmt.width : Fmt → Nat
  | .t6e0 => 6
  | .t6e1 => 6
  | .e3m2 => 6
  | .e2m3 => 6
  | .e2m1 => 4
  | .i4 => 4
  | .n4 => 4
  | .i2 => 2
  | .tern => 2
  | .bin => 1
  | .i16 => 16
  | .fp16 => 16
  | .bf16 => 16
  | .fp32 => 32
  | .e8m10 => 32
  | _ => 8

/-- Number of equal bits `r` of `b` from bit `i - 1` downward. -/
def runLen (b : Nat) (r : Bool) : Nat → Nat
  | 0 => 0
  | i + 1 => if bitAt b i == r then 1 + runLen b r i else 0

/-- Magnitude of a tapered code with nonzero magnitude bits (R171). -/
def taperedMag (n es b : Nat) : Nat × Int :=
  let r := bitAt b (n - 2)
  let m := runLen b r (n - 1)
  let k : Int := if r then (m : Int) - 1 else -(m : Int)
  let rw := n - 1 - m - 1
  let rest := b % 2 ^ rw
  if rw < es then (1, k * 2 ^ es + (rest * 2 ^ (es - rw) : Nat))
  else
    let fw := rw - es
    (2 ^ fw + rest % 2 ^ fw, k * 2 ^ es + (rest / 2 ^ fw : Nat) - fw)

/-- Magnitude of a binary floating-point code without its sign (R173). -/
def floatMag (fw : Nat) (bias : Int) (b : Nat) : Nat × Int :=
  let E := b / 2 ^ fw
  if E = 0 then (b % 2 ^ fw, 1 - bias - fw) else (2 ^ fw + b % 2 ^ fw, (E : Int) - bias - fw)

/-- c_j of R175. -/
def logC (j : Nat) : Nat := [128, 140, 152, 166, 181, 197, 215, 235].getD j 128

/-- Magnitude of an L8 code (R175). -/
def logMag (b : Nat) : Nat × Int := if b = 0 then (0, 0) else (logC (b % 8), (b / 8 : Int) - 15)

/-- The value of a code of a shape. -/
def decShape (s : Shape) (c : Nat) : Num :=
  match s with
  | .tapered n es =>
    let b := c % 2 ^ (n - 1)
    if b = 0 then (if bitAt c (n - 1) then .nan else .zero false)
    else let x := taperedMag n es b; .fin (bitAt c (n - 1)) x.1 x.2
  | .flt ew fw bias ieee nc maxMag =>
    let b := c % 2 ^ (ew + fw)
    let sg := bitAt c (ew + fw)
    if b ≤ maxMag then let x := floatMag fw bias b; .fin sg x.1 x.2
    else if ieee && b == maxMag + 1 then .inf sg
    else match nc with
      | some _ => .nan
      | none => .nan
  | .log =>
    let b := c % 128
    if b = 0 then (if bitAt c 7 then .nan else .zero false)
    else let x := logMag b; .fin (bitAt c 7) x.1 x.2
  | .int n sg => if sg then .ofInt (sx n c) else .fin false (c % 2 ^ n) 0
  | .tern => if c % 4 = 1 then .fin false 1 0 else if c % 4 = 3 then .fin true 1 0 else .zero false
  | .bin => .fin (c % 2 == 1) 1 0

/-- The value of a code of a format. -/
def dec (f : Fmt) (c : Nat) : Num := match f with
  | .e8m10 => decShape (shape .e8m10) (c / 2 ^ 13)
  | _ => decShape (shape f) c

/-! ## Rounding (R172, R177, R178) -/

/-- The greatest magnitude code below `2^n` (and at most `top`) whose magnitude is at most `m · 2^e`. -/
def searchMag (mag : Nat → Nat × Int) (top m : Nat) (e : Int) : Nat → Nat → Nat
  | 0, acc => acc
  | i + 1, acc =>
    let c := acc + 2 ^ i
    if c ≤ top && (let x := mag c; magLe x.1 x.2 m e) then searchMag mag top m e i c else searchMag mag top m e i acc

/-- Of the neighbours `a` below and `b` above the magnitude, is the upper one chosen? -/
def roundUp (mode : Rm) (neg : Bool) (m : Nat) (e : Int) (a b : Nat × Int) (aCode : Nat) : Bool :=
  match mode with
  | .rz => false
  | .ru => !neg
  | .rd => neg
  | .ro => aCode % 2 == 0
  | .rne =>
    let g := min e (min a.2 b.2)
    let x := 2 * scaleTo m e g
    let s := scaleTo a.1 a.2 g + scaleTo b.1 b.2 g
    if x = s then aCode % 2 == 1 else decide (s < x)

/-- The magnitude code for `m · 2^e`, `m` nonzero, whose exact value has sign `neg`; `top` is the largest finite code and
`over` the rule beyond it. -/
def roundMag (mag : Nat → Nat × Int) (top n : Nat) (mode : Rm) (neg : Bool) (m : Nat) (e : Int) (ieee : Bool) : Nat :=
  let t := mag top
  if magLe m e t.1 t.2 then
    let a := searchMag mag top m e n 0
    let x := mag a
    if magLe m e x.1 x.2 then a
    else if roundUp mode neg m e x (mag (a + 1)) a then a + 1 else a
  else if !ieee then top
  else match mode with
    | .rz => top
    | .ro => top
    | .ru => if neg then top else top + 1
    | .rd => if neg then top + 1 else top
    | .rne => if roundUp .rne neg m e t (mag (top + 1)) top then top + 1 else top

/-- An exact value rounded to an integer (R177). -/
def roundInt (mode : Rm) (neg : Bool) (m : Nat) (e : Int) : Int :=
  if 0 ≤ e then (if neg then -(m * 2 ^ e.toNat : Int) else m * 2 ^ e.toNat)
  else
    let d := 2 ^ (-e).toNat
    let a := m / d
    let r := m % d
    let up := r != 0 && (match mode with
      | .rz => false
      | .ru => !neg
      | .rd => neg
      | .ro => a % 2 == 0
      | .rne => if 2 * r = d then a % 2 == 1 else decide (d < 2 * r))
    let v : Int := (if up then a + 1 else a : Nat)
    if neg then -v else v

/-- Limits of an integer-like format (R178). -/
def clampInt (lo hi v : Int) : Int := min (max v lo) hi

def rndInt (lo hi : Int) (mode : Rm) (x : Num) : Int :=
  match x with
  | .nan => 0
  | .inf neg => if neg then lo else hi
  | .fin neg m e => clampInt lo hi (roundInt mode neg m e)

/-- `rnd(x, mode, F)` for a shape. -/
def rndShape (s : Shape) (mode : Rm) (x : Num) : Nat :=
  match s with
  | .tapered n es =>
    let sb := 2 ^ (n - 1)
    let top := sb - 1
    match x with
    | .nan => sb
    | .inf neg => top + (if neg then sb else 0)
    | .fin neg m e =>
      if m = 0 then 0
      else
        let c := roundMag (fun b => if b = 0 then (0, 0) else taperedMag n es b) top n mode neg m e false
        (if c = 0 then 1 else c) + (if neg then sb else 0)
  | .flt ew fw bias ieee nc maxMag =>
    let sb := 2 ^ (ew + fw)
    match x with
    | .nan => nc.getD 0
    | .inf neg => (if ieee then maxMag + 1 else maxMag) + (if neg then sb else 0)
    | .fin neg m e =>
      (if m = 0 then 0 else roundMag (floatMag fw bias) maxMag (ew + fw) mode neg m e ieee) + (if neg then sb else 0)
  | .log =>
    match x with
    | .nan => 0x80
    | .inf neg => 127 + (if neg then 128 else 0)
    | .fin neg m e =>
      if m = 0 then 0
      else
        let c := roundMag logMag 127 7 mode neg m e false
        if c = 0 then 0 else c + (if neg then 128 else 0)
  | .int n sg =>
    let v := if sg then rndInt (-(2 ^ (n - 1) : Nat)) (2 ^ (n - 1) - 1 : Nat) mode x else rndInt 0 (2 ^ n - 1 : Nat) mode x
    ofInt n v
  | .tern => ofInt 2 (rndInt (-1) 1 mode x)
  | .bin => match x with
    | .fin neg m _ => if neg && m != 0 then 1 else 0
    | .inf neg => if neg then 1 else 0
    | .nan => 0

/-- `rnd(x, mode, F)` (R177, R178). -/
def rnd (f : Fmt) (mode : Rm) (x : Num) : Nat := match f with
  | .e8m10 => rndShape (shape .e8m10) mode x * 2 ^ 13
  | _ => rndShape (shape f) mode x

/-- A conversion keeps the sign of a zero only where the source format has a signed zero (R177): the decoder gives +0 for
every other zero. -/
def convert (fa fd : Fmt) (mode : Rm) (c : Nat) : Nat := rnd fd mode (dec fa c)

/-! ## Scales (R180 to R182) -/

/-- A scale format. -/
inductive Scale where
  | none | e8m0 | xq8
  deriving DecidableEq, Repr

def decScale : Scale → Nat → Num
  | .none, _ => .fin false 1 0
  | .e8m0, c => if c % 256 = 255 then .nan else .fin false 1 ((c % 256 : Nat) - 127)
  | .xq8, c =>
    if c % 256 = 0x7F ∨ 128 ≤ c % 256 then .nan
    else if bits c 3 4 = 0 then .fin false (c % 8) (-9)
    else .fin false (8 + c % 8) ((bits c 3 4 : Nat) - 10)

/-- Conversion into a scale format (R181). -/
def rndScale (s : Scale) (mode : Rm) (x : Num) : Nat :=
  match s with
  | .none => 0
  | .e8m0 => match x with
    | .nan => 0xFF
    | .inf neg => if neg then 0xFF else 0xFE
    | .fin neg m e =>
      if neg || m == 0 then 0xFF
      else if magLe m e 1 (-127) then 0
      else roundMag (fun b => (1, (b : Int) - 127)) 0xFE 8 mode false m e false
  | .xq8 => match x with
    | .nan => 0x7F
    | .inf neg => if neg then 0x7F else 0x7E
    | .fin neg m e =>
      if m = 0 then 0
      else if neg then 0x7F
      else roundMag (floatMag 3 7) 0x7E 7 mode false m e false

/-- A scaled term (R182). -/
def scaledTerm (p : Num) (ka : Scale) (a : Nat) (kb : Scale) (b : Nat) : Num :=
  let sa := decScale ka a
  let sb := decScale kb b
  if sa.isNan || sb.isNan || p.isNan then .nan
  else if sa.isZero || sb.isZero then (if p.isInf then .nan else .zero p.sign)
  else (p.mul sa).mul sb

/-! ## FP32 steps -/

def f32 (c : Nat) : Num := dec .fp32 c
def toF32 (mode : Rm) (x : Num) : Nat := rnd .fp32 mode x
/-- The two-addend sum under a mode (R177). -/
def addMode (mode : Rm) (x y : Num) : Num := Num.add (mode == .rd) x y
/-- FP32 addition under .rne (R139, R185, R218, R278, R295, R314). -/
def fadd32 (a b : Nat) : Nat := toF32 .rne (addMode .rne (f32 a) (f32 b))
/-- The fused step of R185. -/
def fma32 (acc a b : Num) : Nat := toF32 .rne (addMode .rne acc (a.mul b))

end Sys2Proof.Machine
end

