-- ==== Sys2Proof/Machine/Slice.lean ====
section
/-! DEFINITION. What home slices, banks and the network do on their own: acceptance, fills, completions and landings
(R9, R21, R86, R90, R93 to R95, R297, R344). -/
namespace Sys2Proof.Machine

/-- The new value of an atomic's location (R295), from the old one, at width `w` bytes of type `ty`. -/
def atomicNew (op : AtomOp) (ty : Ty) (mv b : Nat) : Nat :=
  let w := 8 * Ty.size ty
  match op with
  | .add => (mv + b) % 2 ^ w
  | .min => if Ty.val ty mv ≤ Ty.val ty b then mv else b
  | .max => if Ty.val ty mv ≤ Ty.val ty b then b else mv
  | .and => mv &&& b
  | .or => mv ||| b
  | .xor => mv ^^^ b
  | .xchg => b
  | .cas new => if mv = b then new % 2 ^ w else mv
  | .inc => (mv + 1) % 2 ^ w
  | .fadd => fadd32 mv b

/-- A request's response leaves: it is removed. -/
def dropReq (id : Nat) (m : Mach) : Mach := { m with reqs := m.reqs.filter (·.id != id) }
def setReq (r : Req) (m : Mach) : Mach := { m with reqs := m.reqs.map (fun x => if x.id == r.id then r else x) }

/-- A line's 128 bytes at the moment a load of it is performed. -/
def lineBytes (m : Mach) (sys : Bool) (pa : Nat) : List Nat := sliceBytes m sys (pa / 128 * 128) 128

/-- A context that reads a poisoned word ends (R344). -/
def poisonEnd (k pa len : Nat) (m : Mach) : Mach :=
  if poisoned m pa len then endContext (m.slot k).ctx 0x81 k pa m else m

/-- The device whose peer window holds the address (R2). -/
def peerOf (pa : Nat) : Nat := (pa - peerBase) / 2 ^ 42

/-- The bytes of the core's buffer at issue where it held one (R91), over the home's. -/
def Req.over (r : Req) (pa : Nat) (l : List Nat) : List Nat := l.zipIdx.map (fun b => (latest r.mine (pa + b.2)).getD b.1)

/-- The update of an atomic or reduction (R294 to R296), and the value it returns on its way. A cluster unit holds the line afterwards. -/
def performAtomic (r : Req) (op : AtomOp) (ty : Ty) (b : Nat) (land : Option Nat) (sco : Sco) (m : Mach) : Mach :=
  let n := Ty.size ty
  let m := findL2 r.pa n m
  let old := ofLE (m.mem.rdN r.pa n)
  let m1 := homeStore (cellsAt r.pa (toLE n (atomicNew op ty old (b % 2 ^ (8 * n))))) m
  let m1 := match land with
    | some x => fillLand r.slot x 0 (toLE 8 (Ty.wrap ty old)) m1
    | none => m1
  let m1 := if sco == .sys && paKind m.dev r.pa == .peer then dropCopy (r.pa / 128) m1 else m1
  let cl := clusterOf (coreOf r.slot)
  let m1 := if sco == .clu then m1.setCluster cl (let u := m1.cluster cl; { u with held := r.pa / 128 :: u.held }) else m1
  let m1 := setReq { r with st := .done } m1
  if poisoned m r.pa n then endContext (m.slot r.slot).ctx 0x81 r.slot r.pa m1 else m1

/-- An engine's line has had its turn at the slice. -/
def serveEng (r : Req) (cmd : Nat) (m : Mach) : Mach :=
  dropReq r.id { m with cmds := m.cmds.map (fun c => if c.id == cmd then { c with served := r.pa / 128 :: c.served } else c) }

/-- Where `got` marks a line that has been brought for a law operation of the instruction at issue. -/
def broughtAt (line : Nat) : Nat := 2 ^ 60 + line

/-- Performs an accepted request whose line is present (R93). -/
def perform (r : Req) (m : Mach) : Mach :=
  let base := r.pa / 128 * 128
  let line := r.pa / 128
  match r.kind with
  | .load parts sg alloc sys land =>
    let m := useLine line 0 m
    let m := if alloc then findL2 base 128 m else parts.foldl (fun m p => findL2 p.pa p.len m) m
    let poison := fun m => parts.foldl (fun m p => poisonEnd r.slot p.pa p.len m) m
    if alloc then setReq { r with st := .done, val := lineBytes m sys r.pa } (poison m)
    else
      let m := if sys && paKind m.dev r.pa == .peer then applyInvalidations (peerOf r.pa) m else m
      dropReq r.id (poison (fillParts r.slot land sg parts (fun a n => r.over a (sliceBytes m sys a n)) m))
  | .data len _ _ =>
    let m := findL2 base 128 (useLine line 0 m)
    setReq { r with st := .done, val := lineBytes m false r.pa } (poisonEnd r.slot r.pa len m)
  | .line l1 =>
    let m := useLine line 0 m
    if l1 then (let m := findL2 base 128 m; setReq { r with st := .done, val := lineBytes m false r.pa } m) else dropReq r.id m
  | .bring => (dropReq r.id (useLine line r.hint m)).updSlot r.slot (fun s =>
      if s.wait == some .data then { s with got := s.got ++ [(broughtAt line, 1)] } else s)
  | .code => dropReq r.id (useLine line 0 m)
  | .eng cmd _ => serveEng r cmd (useLine line r.hint m)
  | .store l _ => setReq { r with st := .done } (homeStore l m)
  | .atomic op ty b land _ sco => performAtomic r op ty b land sco m
  | .law _ _ _ _ _ _ _ _ => m
  | .ingest => m
  | .query _ _ => m

def isLaw : ReqKind → Bool
  | .law _ _ _ _ _ _ _ _ => true
  | .ingest => true
  | _ => false

/-- Does the request need its line in L2 (R93)? Peer accesses at .sys are performed at the target. -/
def needsLine (m : Mach) (r : Req) : Bool := match r.kind with
  | .load _ _ _ sys _ => !(sys && paKind m.dev r.pa == .peer)
  | .store _ _ => paKind m.dev r.pa == .hbm
  | .eng _ true => paKind m.dev r.pa == .hbm
  | .atomic _ _ _ _ _ _ => paKind m.dev r.pa != .peer
  | .law _ _ _ _ _ _ _ _ => paKind m.dev r.pa != .peer
  | .bring => paKind m.dev r.pa != .peer
  | .query _ _ => false
  | _ => true

/-- Is it a store that goes to a CXL device before it is performed (R93)? -/
def pooledStore (m : Mach) (r : Req) : Bool := paKind m.dev r.pa == .pooled && (match r.kind with
  | .store _ _ => true
  | .eng _ w => w
  | _ => false)

/-- Performs the requests of one slice in acceptance order, as far as nothing holds them (R93): a line on its way, or a law operation, which
is a step of its own (R135). A pooled store that awaits its completion holds only later requests for its line (`skip`). `fuel` bounds the
requests. -/
def pump : Nat → Nat → List Nat → Mach → Mach
  | 0, _, _, m => m
  | fuel + 1, u, skip, m =>
    match m.reqs.find? (fun r => r.accepted && homeOf r.pa == u && !skip.contains (r.pa / 128)) with
    | none => m
    | some r =>
      if r.st == .cxl then pump fuel u (r.pa / 128 :: skip) m
      else if r.st == .filling then m
      else if needsLine m r && !present m r.pa then
        cxlAsk r.pa (setReq { r with st := .filling, since := if paKind m.dev r.pa == .pooled then m.cyc else r.since } m)
      else if pooledStore m r then pump fuel u (r.pa / 128 :: skip) (cxlAsk r.pa (setReq { r with st := .cxl, since := m.cyc } m))
      else if isLaw r.kind then m
      else pump fuel u skip (perform r m)

def pumpSlice (u : Nat) (m : Mach) : Mach := pump (m.reqs.length + 1) u [] m

/-- Does a cluster unit hold the line of a .clu atomic, which it then performs itself (R294)? Not while the slice holds an earlier request for
the line, for which the unit returns it. -/
def unitHolds (m : Mach) (r : Req) : Bool := match r.kind with
  | .atomic _ _ _ _ _ sco => sco == .clu && (m.cluster (clusterOf (coreOf r.slot))).held.contains (r.pa / 128)
    && !m.reqs.any (fun x => x.accepted && x.pa / 128 == r.pa / 128)
  | _ => false

/-- May the slice accept the request (R8, R9, R99): sent, a free entry if it takes one, no earlier request of its core to the slice
unaccepted? -/
def canAccept (m : Mach) (r : Req) : Bool :=
  r.st == .sent && (isQuery r.kind || unitHolds m r || decide (occupancy m (homeOf r.pa) < 32)) &&
  (match m.reqs.find? (fun x => x.st == .sent && coreOf x.slot == coreOf r.slot && homeOf x.pa == homeOf r.pa) with
   | some x => x.id == r.id
   | none => false)

/-- The result word of SLICEQ for a unit and context (R7). -/
def sliceWord (m : Mach) (u c : Nat) : Nat :=
  let x := (m.slice u).cnt.get ⟨0, 0⟩ c
  occupancy m u + ownCount m u c * 2 ^ 8 + x.high * 2 ^ 16 + x.acc % 2 ^ 32 * 2 ^ 32

/-- An address whose home is slice unit `u`. -/
def unitPa (u : Nat) : Nat := u / 16 % 16 * 2 ^ 18 + u % 16 * 2 ^ 7

/-- SLICEQ is performed at the slice (R8). -/
def answerQuery (r : Req) (land : Nat) (clear : Bool) (m : Mach) : Mach :=
  let u := homeOf r.pa
  let m := dropReq r.id (fillLand r.slot land 0 (toLE 8 (sliceWord m u r.ctx)) m)
  if clear then m.setSlice u (let s := m.slice u; { s with cnt := s.cnt.put r.ctx ⟨ownCount m u r.ctx, 0⟩ }) else m

/-- The slice counts an accepted request, if it is one for data (R7). -/
def countReq (r : Req) (m : Mach) : Mach := if r.kind = .code then m else countAccept (homeOf r.pa) r.ctx m

/-- SLICE_REQUEST (R9): the slice accepts a request into its queue and performs it in acceptance order. A missing line is asked for
at once, unless an earlier request for the line waits: the requests for one line leave in acceptance order. -/
def execSliceRequest (id : Nat) : State → Host.Outcome State Fault Refusal := device do
  let m ← get
  let r ← need (m.reqs.find? (·.id == id))
  enabledIf (canAccept m r)
  match r.kind with
  | .query land clear => change (answerQuery r land clear)
  | _ =>
    if unitHolds m r then change (perform r)
    else change (fun m =>
      let behind := m.reqs.any (fun x => (x.st == .queued || x.st == .cxl) && x.pa / 128 == r.pa / 128)
      let r := { r with st := if needsLine m r && !present m r.pa && !behind then .filling else .queued, since := m.cyc }
      let m : Mach := { m with reqs := m.reqs.filter (·.id != id) ++ [r] }
      let m := if r.st == .filling then cxlAsk r.pa m else m
      pumpSlice (homeOf r.pa) (countReq r m))

/-- L2_FILL (R9, R93): the line a request waits for arrives at its home slice, from HBM no sooner than 300 arithmetic cycles after the
request's acceptance. A poisoned CXL.mem completion poisons the words `bad` that it returns (R358). -/
def execL2Fill (l : FillReport) : State → Host.Outcome State Fault Refusal := device do
  let m ← get
  let r ← need (m.reqs.find? (fun r => r.id == l.id && r.st == .filling))
  enabledIf (paKind m.dev r.pa != .hbm || decide (r.since + 300 ≤ m.cyc))
  change (fun m =>
    let m := bringLine (r.pa / 128) m
    let words := if paKind m.dev r.pa == .pooled then (wordsOf (r.pa / 128 * 128) 128).filter l.bad.contains else []
    let m : Mach := { m with poison := words ++ m.poison.filter (fun w => !words.contains w) }
    pumpSlice (homeOf r.pa) { m with reqs := m.reqs.map (fun x => if x.st == .filling && x.pa / 128 == r.pa / 128 then { x with st := .queued } else x) })

/-- The poisoned words of a line as L1 receives it, as offsets (R344). -/
def badWords (m : Mach) (line : Nat) (own : List (Nat × Nat)) : List Nat :=
  ((wordsOf (128 * line) 128).filter (fun w => m.poison.contains w && !(wordsWhole own).contains w)).map (· % 128)

/-- A line that has been read reaches the core's L1 unless an invalidation intervened (R89), with the core's own stores (R91). -/
def allocLine (r : Req) (m : Mach) : Mach :=
  let line := r.pa / 128
  let own := r.mine.filter (fun b => b.1 / 128 == line) ++ r.later
  let data : Mem := Mem.wrAll (Mem.wrAll [] (cellsAt 0 r.val)) (own.map (fun b => (b.1 % 128, b.2)))
  if r.gone then m else m.updCore (coreOf r.slot) (fun c => l1Alloc c ⟨line, data, badWords m line own⟩ r.hint)

/-- Bytes of the line that a request has read, with those of the core's buffer. -/
def Req.read (r : Req) (pa len : Nat) : List Nat := r.over pa ((r.val.drop (pa % 128)).take len)

def isData (k : Nat) (r : Req) : Bool := r.slot == k && (match r.kind with
  | .data _ _ _ => true
  | _ => false)

/-- The bytes reach the instruction at issue that asked for them; with the last of its requests the count in oc.ld goes down (R95). -/
def giveData (r : Req) (len : Nat) (cnt : Bool) (m : Mach) : Mach :=
  let m := dropReq r.id m
  m.updSlot r.slot (fun s => { s with
    got := if s.wait == some .data then s.got ++ cellsAt r.pa (r.read r.pa len) else s.got
    ocLd := if cnt && !m.reqs.any (isData r.slot) then s.ocLd - 1 else s.ocLd })

/-- The miss `x` that joined the fill of request `r` receives its bytes (R300); poison ends its context (R344). -/
def serveJoined (r x : Req) (m : Mach) : Mach :=
  let x := { x with val := r.val }
  let poison := fun (pa len : Nat) (m : Mach) => if (wordsOf pa len).any (fun w => m.poison.contains w && !(wordsWhole x.mine).contains w)
    then endContext x.ctx 0x81 x.slot pa m else m
  match x.kind with
  | .load parts sg _ _ land => parts.foldl (fun m p => poison p.pa p.len m) (dropReq x.id (fillParts x.slot land sg parts x.read m))
  | .data len _ cnt => poison x.pa len (giveData x len cnt m)
  | _ => m

/-- Every miss of the line that joined the fill (R300). -/
def serveAllJoined (r : Req) (m : Mach) : Mach :=
  if r.gone && (filler m (coreOf r.slot) (r.pa / 128)).isSome then m
  else (m.reqs.filter (fun x => x.st == .joined && coreOf x.slot == coreOf r.slot && x.pa / 128 == r.pa / 128)).foldl (fun m x => serveJoined r x m) m

/-- L1_FILL (R89): the line reaches L1; it is allocated unless an invalidation intervened, and serves its load and the misses that joined
it. -/
def execL1Fill (id : Nat) : State → Host.Outcome State Fault Refusal := device do
  let m ← get
  let r ← need (m.reqs.find? (fun r => r.id == id && r.st == .done))
  match r.kind with
  | .load parts sg _ _ land => change (fun m => serveAllJoined r (dropReq id (allocLine r (fillParts r.slot land sg parts r.read m))))
  | .data len alloc cnt => change (fun m => serveAllJoined r (giveData r len cnt (if alloc then allocLine r m else m)))
  | .line _ => change (fun m => serveAllJoined r (dropReq id (allocLine r m)))
  | _ => notEnabled

/-- CXL_COMPLETION (R93, R358): a pooled store's completion returns; the slice performs and acknowledges it. -/
def execCxlCompletion (id : Nat) : State → Host.Outcome State Fault Refusal := device do
  let m ← get
  let r ← need (m.reqs.find? (fun r => r.id == id && r.st == .cxl))
  match r.kind with
  | .store l _ => change (fun m => pumpSlice (homeOf r.pa) (setReq { r with st := .done } (homeStore l m)))
  | .eng cmd _ => change (fun m => pumpSlice (homeOf r.pa) (serveEng r cmd m))
  | _ => notEnabled

/-- CXL_TIMEOUT (R358): no completion within 100 µs ends the waiting context with "fabric error". -/
def execCxlTimeout (id : Nat) : State → Host.Outcome State Fault Refusal := device do
  let m ← get
  let r ← need (m.reqs.find? (fun r => r.id == id && (r.st == .cxl || r.st == .filling)))
  enabledIf (paKind m.dev r.pa == .pooled && decide (r.since + 120000 ≤ m.cyc))
  change (endContext r.ctx 0x83 (if r.kind = .ingest then 0 else r.slot) r.pa)

/-- PEER_INVALIDATION (R94): the reader's home slice drops its copy of the line. -/
def execPeerInvalidation (line : Nat) : State → Host.Outcome State Fault Refusal := device do
  let m ← get
  enabledIf ((m.slice (homeOf (128 * line))).copies.any (·.line == line))
  change (dropCopy line)

/-- WCB_ENTRY_TIMEOUT (R90): entries open for 32 cycles are sent. -/
def execWcbEntryTimeout (core : Nat) : State → Host.Outcome State Fault Refusal := device do
  let m ← get
  let old := fun (w : Wcb) => decide (w.opened + 32 ≤ m.cyc)
  enabledIf ((m.core core).wcb.any old)
  change (sendWcb core old)

/-- The core's oldest access to host memory of one kind: its writes leave in issue order, and its reads one at a time (R307). -/
def firstHost (m : Mach) (core : Nat) (store : Bool) : Option Req :=
  m.reqs.find? (fun r => r.st == .host && coreOf r.slot == core && isStore r.kind == store)

/-- STORE_ACK (R86, R95): the acknowledgement returns and oc.st is decremented. The PCIe port has then sent a store to host memory, which the
model performs at that moment (log entry 48). -/
def execStoreAck (id : Nat) : State → Host.Outcome State Fault Refusal := device do
  let m ← get
  let r ← need (m.reqs.find? (fun r => r.id == id && (r.st == .done || r.st == .host)))
  enabledIf (r.st == .done || (firstHost m (coreOf r.slot) true).map (·.id) == some id)
  match r.kind with
  | .store l ts => change (fun m => ts.foldl ackToken (dropReq id (if r.st == .host then hostBus r.pa (storeMem l m) else m)))
  | _ => notEnabled

/-! ## Landings (R21) -/

def Land.isKnown (x : Land) : Bool := x.cells.all (fun c => c.2.isSome)
def Land.values (x : Land) : List (Nat × Nat) := x.cells.map (fun c => (c.1, c.2.getD 0))

/-- The first pending write, in program order, of the given kind that may land: its value is known and no earlier pending
write to one of its bytes remains. -/
def landable (p : LandSrc → Bool) : List Land → List Land → Option Land
  | _, [] => none
  | before, x :: l =>
    if p x.src && x.isKnown && !before.any (fun y => y.cells.any (fun c => x.cells.any (fun d => d.1 == c.1))) then some x
    else landable p (before ++ [x]) l

/-- The value lands (R21). A special-function result stays unread before its count (R231); while a handler runs, the interrupted flow takes
it back at that count (R22). -/
def Slot.landOne (s : Slot) (x : Land) : Slot :=
  let s := { s with il := s.il.filter (fun y => y.id != x.id) }
  match x.back with
  | some b => { s with
      rf := s.rf.wrAll (keepCells x.values)
      saved := s.saved.map (fun v => { v with pw := v.pw ++ [⟨keepCells x.values, b⟩] }) }
  | none => if s.n < x.from_ then { s with pw := s.pw ++ [⟨keepCells x.values, x.from_⟩] } else s.poke x.values

/-- A landing write is no longer restored by RTE (R22). -/
def Slot.unsave (s : Slot) (x : Land) : Slot :=
  let hit := fun a => x.cells.any (fun c => c.1 == a)
  { s with saved := s.saved.map (fun v => { v with
      old := v.old.filter (fun c => !hit c.1)
      pw := (v.pw.map (fun p => { p with cells := p.cells.filter (fun c => !hit c.1) })).filter (fun p => !p.cells.isEmpty) }) }

/-- A pending write may land when its value is known and no earlier pending write to one of its bytes remains. -/
def canLand (id : Nat) (il : List Land) : Option Land :=
  let before := il.takeWhile (fun y => y.id != id)
  match il.find? (fun x => x.id == id && x.isKnown) with
  | some x => if before.any (fun y => y.cells.any (fun c => x.cells.any (fun d => d.1 == c.1))) then none else some x
  | none => none

/-- Places from here on are bytes of memory that an output stream receives (R49), with the stream's cache hint above the address. -/
def memBase : Nat := 2 ^ 20
def memPlace (ch pa : Nat) : Nat := memBase + ch * 2 ^ 60 + pa

/-- A pending write of slot `k` lands; what goes to an output stream enters the write-combining buffer as a weak store, counted at issue: one
for each register of eight bytes. -/
def landAt (k : Nat) (x : Land) (m : Mach) : Mach :=
  let m := m.updSlot k (fun s =>
    let s := s.landOne { x with cells := x.cells.filter (fun c => decide (c.1 < memBase)) }
    if x.back.isSome then s else s.unsave x)
  (List.range ((x.cells.length + 7) / 8)).foldl (fun m i =>
    let out := ((x.values.drop (8 * i)).take 8).filter (fun c => decide (memBase ≤ c.1))
    match out with
    | [] => m
    | c :: _ => weakStoreT k k ((c.1 - memBase) / 2 ^ 60) (out.map (fun c => ((c.1 - memBase) % 2 ^ 60, c.2))) m) m

/-- The slot's host read is performed, if it is the core's oldest (R307). -/
def hostRead (k : Nat) (m : Mach) : Mach :=
  match firstHost m (coreOf k) false with
  | some r => if r.slot != k then m else match r.kind with
    | .load parts sg _ _ land => dropReq r.id (fillParts k land sg parts m.mem.rdN (hostBus r.pa m))
    | _ => m
  | none => m

/-- INTERLOCK_LAND (R21): a variable-latency result lands. -/
def execInterlockLand (k : Nat) : State → Host.Outcome State Fault Refusal := device do
  let m ← get
  let x ← need (landable (fun s => s == .ready || s == .gang) [] (m.slot k).il)
  change (landAt k x)

/-- A load whose value is on its way to the register. -/
def loadSrc (s : LandSrc) : Bool := s == .load || s == .counted

/-- A load's value lands and oc.ld is decremented, if one may. -/
def loadLand (k : Nat) (m : Mach) : Mach := match landable loadSrc [] (m.slot k).il with
  | some x => (landAt k x m).updSlot k (fun s => { s with ocLd := s.ocLd - 1 })
  | none => m

/-- LOAD_LAND (R95): a load's value lands and oc.ld is decremented; a read of host memory is performed when no other value is there (R307). -/
def execLoadLand (k : Nat) : State → Host.Outcome State Fault Refusal := device do
  let m ← get
  if (landable loadSrc [] (m.slot k).il).isSome then change (loadLand k)
  else
    enabledIf ((firstHost m (coreOf k) false).any (·.slot == k))
    change (fun m => loadLand k (hostRead k m))

/-- ATOMIC_COMPLETE (R297, R298): the completion returns, the result lands, oc.at is decremented, and L1 is invalidated after
an ATOM at .dev or .sys. A PUBLISH or STOPREF waits for its notices (R245). -/
def execAtomicComplete (id : Nat) : State → Host.Outcome State Fault Refusal := device do
  let m ← get
  let r ← need (m.reqs.find? (fun r => r.id == id && r.st == .done))
  enabledIf (!m.notices.any (·.req == id))
  match r.kind with
  | .atomic _ _ _ land inv _ =>
    match land with
    | some l =>
      let x ← need (canLand l (m.slot r.slot).il)
      change (fun m =>
        let m := (landAt r.slot x m).updSlot r.slot (fun s => { s with ocAt := s.ocAt - 1 })
        let m := if inv then l1Inv (coreOf r.slot) m else m
        dropReq id m)
    | none => change (fun m => dropReq id (m.updSlot r.slot (fun s => { s with ocAt := s.ocAt - 1 })))
  | _ => notEnabled

/-! ## Soft errors (R344) -/

/-- POISON_READ (R344): a read of a poisoned word ends the reading context. -/
def execPoisonRead (k addr : Nat) : State → Host.Outcome State Fault Refusal := device do
  let m ← get
  enabledIf (poisoned m addr 1 && (m.slot k).run != .free)
  change (endContext (m.slot k).ctx 0x81 k addr)

end Sys2Proof.Machine
end

