-- ==== Sys2Proof/Machine/Operands.lean ====
section
/-! DEFINITION. Operands: register files, streams, views, lanes and tiles, masks; and the issue of a word: the order of its
checks (R39), its guard (R13), its interlocks (R21), its marks (R15) and its retirement (R19, R69, R83). -/
namespace Sys2Proof.Machine

/-! ## Register bytes of a word (R12) -/

def isG (b : BitVec 8) : Bool := decide (b.toNat < 0x40)
def isQ (b : BitVec 8) : Bool := decide (0x80 ≤ b.toNat) && decide (b.toNat < 0x90)
/-- Number of a register within its file. -/
def gNo (b : BitVec 8) : Nat := b.toNat
def vNo (b : BitVec 8) : Nat := b.toNat - 0x40
def tNo (b : BitVec 8) : Nat := b.toNat - 0x60
def mNo (b : BitVec 8) : Nat := b.toNat - 0x70
def qNo (b : BitVec 8) : Nat := b.toNat - 0x80

/-- The stream that a register byte names, when it is bound (R49). -/
def Slot.stream (s : Slot) (b : BitVec 8) : Option Stream :=
  if 56 ≤ b.toNat ∧ b.toNat < 64 then s.streams.find (b.toNat - 56) else none

/-- Register bytes read through an operand position: none when it names a bound stream (R49). -/
def gRng (s : Slot) (b : BitVec 8) : List Rng := if (s.stream b).isSome then [] else [(8 * gNo b, 8)]
def gPlain (b : BitVec 8) : List Rng := [(8 * gNo b, 8)]
def gPlains (b : BitVec 8) (n : Nat) : List Rng := [(8 * gNo b, 8 * n)]
def qRng (b : BitVec 8) : List Rng := if qNo b = 15 then [] else [(predPlace (qNo b), 1)]
def mRng (n : Nat) : List Rng := if n = 0 then [] else [(maskPlace n, 16)]

/-! ## Streams (R49 to R53) -/

def Stream.len (x : Stream) : Nat := x.cnt0 * x.cnt1
/-- Address of the element at position `p`. -/
def Stream.addr (x : Stream) (p : Nat) : Nat :=
  ofInt 64 ((x.base : Int) + (p / x.cnt0 : Nat) * x.str1 + (p % x.cnt0 : Nat) * x.str0)

/-- The number of the stream a register byte names. -/
def sNo (b : BitVec 8) : Nat := b.toNat - 56

/-- Look-ups for the elements that the instruction will pop or append, so that each page is looked up in one pass (R326):
operands in the order they are read, then the destination. -/
def streamVas (s : Slot) : List (BitVec 8 × Acc) → List (Nat × Acc)
  | [] => []
  | (b, acc) :: l =>
    match s.stream b with
    | some x =>
      if x.pos < x.len ∧ x.addr x.pos % Ty.size x.ty = 0 ∧ x.addr x.pos < 2 ^ 56 then
        (x.addr x.pos, acc) :: streamVas { s with streams := s.streams.put (sNo b) { x with pos := x.pos + 1 } } l
      else streamVas s l
    | none => streamVas s l

/-! ## What an instruction reads of memory while it is at issue (R50, R99, R105)

Stream pops, block moves and memory records are weak loads. A line that is not in L1 is asked for in a request of its own; the instruction
stays at issue, and is executed again when the bytes are there. -/

/-- Does the slot have the bytes that its request brought? -/
def Slot.has (s : Slot) (pa len : Nat) : Bool := (List.range len).all (fun i => s.got.any (fun c => c.1 == pa + i))

/-- May the instruction read the bytes of one line at once: brought for it, in L1 if it looks there (R14), or in host memory? -/
def atHand (m : Mach) (pa len ch : Nat) : Bool :=
  m.sl.has pa len || ch != 3 && (l1Bytes m m.curCore pa len).isSome || paKind m.dev pa == .host

/-- The load entries of the core that are held (R95). -/
def loadEntries (m : Mach) (core : Nat) : Nat :=
  ((List.range 4).map (fun i =>
    ((m.slot (keyOf core i)).il.filter (·.src == .load)).length + (if m.reqs.any (isData (keyOf core i)) then 1 else 0))).sum

/-- Asks for the bytes of one line. -/
def askData (cnt : Bool) (ch : Nat) (p : Nat × Nat) (m : Mach) : Mach :=
  missReq (ch != 3) p.1 ch (.data p.2 (ch != 3) cnt) (m.updSlot m.cur (·.countEvent 5))

/-- Brings the bytes `ps` (address and length, each of one line) to hand. With `cnt` they are one load of oc.ld, which takes a load entry
(R95). Host reads come after the core's earlier ones (R307). -/
def bringData (cnt : Bool) (ch : Nat) (ps : List (Nat × Nat)) : M Unit := do
  let m ← get
  blockIf (cnt && decide (64 ≤ loadEntries m m.curCore)) .loadEntry
  blockIf (cnt && decide (255 ≤ m.sl.ocLd)) (.counter 0 254)
  blockIf (ps.any (fun p => paKind m.dev p.1 == .host) && (firstHost m m.curCore false).isSome) .hostRead
  let l := ps.filter (fun p => !atHand m p.1 p.2 ch)
  blockWith (!l.isEmpty) (fun m =>
    let m := l.foldl (fun m p => askData cnt ch p m) m
    if cnt then m.updSlot m.cur (fun s => { s with ocLd := s.ocLd + 1 }) else m) .data

/-- Asks for the lines of law words at their home slices, after the core's own buffered stores to the words (R90, R137). -/
def askLines (ps : List (Nat × Nat)) (ch : Nat) (m : Mach) : Mach :=
  let m := ps.foldl (fun m p => sendBytes m.curCore p.1 p.2 m) m
  ((ps.map (·.1 / 128)).dedup).foldl (fun m line => addReq m.cur m.sl.ctx (128 * line) .sent .bring m (fun r => { r with hint := ch })) m

/-- Law words `ps` (address and length) have their turn at their home slices, as requests of the slot in issue order (R9, R137): each line is
brought, and nothing that the slices have accepted is still to be performed. Host memory has no home slice. -/
def bringLaw (ps : List (Nat × Nat)) (ch : Nat := 0) : M Unit := do
  let m ← get
  let ps := ps.filter (fun p => paKind m.dev p.1 != .host)
  let here := fun (p : Nat × Nat) => m.sl.got.any (fun c => c.1 == broughtAt (p.1 / 128)) && (present m p.1 || paKind m.dev p.1 == .peer)
  blockWith (!ps.all here) (askLines (ps.filter (fun p => !here p)) ch) .data
  match ps.find? (fun p => !sliceFree m p.1) with
  | some p => block (.slice (homeOf p.1))
  | none => pure ()

/-- Reads bytes of one line that are at hand; poison ends the context (R344). -/
def weakRead (pa len ch : Nat) : M (List Nat) := do
  let m ← get
  let core := m.curCore
  if m.sl.has pa len then pure ((List.range len).map (fun i => (latest m.sl.got (pa + i)).getD 0))
  else if paKind m.dev pa == .host then
    change (hostBus pa)
    pure (m.mem.rdN pa len)
  else if l1Poisoned m core pa len then halt (fun m => .stay (endContext m.sl.ctx 0x81 m.cur pa m))
  else
    change (fun m => (m.updSlot m.cur (·.countEvent 4)).updCore core (fun c => l1Touch c (pa / 128) ch))
    pure ((l1Bytes m core pa len).getD [])

/-! ## Accesses held by an ATOM (R297) -/

/-- An ATOM of the slot that has not completed holds every later access and engine command. -/
def atomHeld (m : Mach) (k : Nat) : Bool := m.reqs.any (fun r => r.slot == k && (match r.kind with
  | .atomic _ _ _ (some _) _ _ => true
  | _ => false))

def accessGate : M Unit := do
  let m ← get
  blockIf (atomHeld m m.cur) (.counter 2 0)

/-- Pops the next element of a stream (R49, R50): a weak load that counts in oc.ld until it is consumed. -/
def pop (b : BitVec 8) (x : Stream) : M Nat := do
  trapIf x.out 0x12 0
  trapIf (decide (x.len ≤ x.pos)) 0x13 0
  let a := x.addr x.pos
  trapIf (a % Ty.size x.ty != 0) 0x14 a
  let pa ← xlate a .read
  accessGate
  bringData true x.ch [(pa, Ty.size x.ty)]
  let l ← weakRead pa (Ty.size x.ty) x.ch
  changeMine (fun s => { s with streams := s.streams.put (sNo b) { x with pos := x.pos + 1 } })
  pure (ofLE (extend 8 (Ty.signed x.ty) l))

/-- What an append checks (R49, R50), with the element's physical address: the position moves on and the append counts in oc.st. -/
def appendAt (b : BitVec 8) (x : Stream) : M Nat := do
  trapIf (!x.out) 0x12 0
  trapIf (decide (x.len ≤ x.pos)) 0x13 0
  let a := x.addr x.pos
  trapIf (a % Ty.size x.ty != 0) 0x14 a
  capCheck a (Ty.size x.ty)
  let pa ← xlate a .write
  accessGate
  let s ← mine id
  blockIf (decide (255 ≤ s.ocSt)) (.counter 1 254)
  changeMine (fun s => { s with streams := s.streams.put (sNo b) { x with pos := x.pos + 1 }, ocSt := s.ocSt + 1 })
  pure pa

/-- Appends a value to a stream (R49, R50): a weak store with the stream's cache hint. -/
def append (b : BitVec 8) (x : Stream) (v : Nat) : M Unit := do
  let pa ← appendAt b x
  change (fun m => weakStoreT m.cur m.cur x.ch (cellsAt pa (toLE (Ty.size x.ty) v)) m)

/-- The places that an asynchronous result for operand `b` goes to: its eight register bytes, or the element that a bound
output stream appends, with places that discard the bytes above it (R49). -/
def resPlaces (b : BitVec 8) : M (List Nat) := do
  let s ← mine id
  match s.stream b with
  | none => pure ((List.range 8).map (fun i => 8 * gNo b + i))
  | some x =>
    let pa ← appendAt b x
    pure ((List.range 8).map (fun i => if i < Ty.size x.ty then memPlace x.ch (pa + i) else predPlace 15))

/-- Reads a g operand that accepts streams (R49). -/
def rdG (b : BitVec 8) : M Nat := do
  let s ← mine id
  match s.stream b with
  | some x => pop b x
  | none => pure (s.g (gNo b))

/-- Reads a g register as register bytes. -/
def rdGp (b : BitVec 8) : M Nat := mine (fun s => s.g (gNo b))
def rdGn (k : Nat) : M Nat := mine (fun s => s.g k)
def rdQ (b : BitVec 8) : M Bool := mine (fun s => s.q (qNo b))

/-- Writes a g destination with a fixed latency, or appends (R49). -/
def wrG (lat : Nat) (b : BitVec 8) (v : Nat) : M Unit := do
  let s ← mine id
  match s.stream b with
  | some x => append b x v
  | none => setFixed lat (gCells (gNo b) v)

/-- Writes a g destination with an interlocked result, or appends. -/
def wrLand (src : LandSrc) (b : BitVec 8) (v : Nat) : M Unit := do
  let s ← mine id
  match s.stream b with
  | some x => append b x v
  | none => setLand src (known (gCells (gNo b) v))

def wrQ (lat : Nat) (b : BitVec 8) (v : Bool) : M Unit := setFixed lat (qCells (qNo b) v)

/-- Ends a binding (R52). -/
def unbind (n : Nat) : M Unit := changeMine (fun s => { s with streams := s.streams.del n })

/-! ## Views, lanes and tiles (R43 to R47, R223) -/

def ewOf (c : Nat) : Nat := 2 ^ c
def Slot.VB (s : Slot) : Nat := 8 * bits s.view 0 12
def Slot.VS (s : Slot) : Nat := 8 * bits s.view 12 8
/-- Lane width in bytes. -/
def Slot.vew (s : Slot) : Nat := ewOf (bits s.view 20 2)
def Slot.TB (s : Slot) : Nat := 8 * bits s.view 24 12
def Slot.TR (s : Slot) : Nat := bits s.view 36 6
def Slot.TC (s : Slot) : Nat := bits s.view 42 6
def Slot.tew (s : Slot) : Nat := ewOf (bits s.view 48 2)
def Slot.TS (s : Slot) : Nat := 8 * bits s.view 50 12
def Slot.vbyte (s : Slot) (n l : Nat) : Nat := s.VB + s.VS * n + l * s.vew
def Slot.vcap (s : Slot) : Nat := s.VS / s.vew
def Slot.tbyte (s : Slot) (n i j : Nat) : Nat := s.TB + s.TS * n + (i * (s.TC + 1) + j) * s.tew

/-- Lanes a vector operation covers: below the nominal grant and the capacity (R47). -/
def Slot.vlanes (s : Slot) : Nat := min s.grantN s.vcap
def Slot.laneActive (s : Slot) (k l : Nat) : Bool :=
  decide (l < s.grantN) && decide (l < s.vcap) && bitAt (s.mrow k) (l / 64) && bitAt (s.mcol k) (l % 64)
def Slot.elemActive (s : Slot) (k i j : Nat) : Bool :=
  decide (i ≤ s.TR) && decide (j ≤ s.TC) && bitAt (s.mrow k) i && bitAt (s.mcol k) j

/-- The traps of R45 on a v operand whose lanes `0` to `n - 1` the instruction touches. -/
def vCheck (b : BitVec 8) (n : Nat) : M Unit := do
  let m ← get
  let s := m.sl
  trapIf (s.VS == 0) 0x0D 0
  trapIf (decide (0 < n) && decide (shareOf m.cx.slots < s.vbyte (vNo b) n)) 0x0E 0

/-- The traps of R45 on a whole t operand. -/
def tCheck (b : BitVec 8) : M Unit := do
  let m ← get
  let s := m.sl
  trapIf (s.TS == 0) 0x0D 0
  trapIf (decide (shareOf m.cx.slots < s.tbyte (tNo b) s.TR s.TC + s.tew)) 0x0E 0

/-- "lane width" (R223): the format is wider than the lane. -/
def laneFits (ew w : Nat) : M Unit := trapIf (decide (8 * ew < w)) 0x10 0

/-- The code of an element of `w` bits held in a lane at register byte `a`. -/
def Slot.elem (s : Slot) (a w : Nat) : Nat := ofLE (s.bytes a ((w + 7) / 8)) % 2 ^ w

/-- The lane bytes that hold an element (R223): sign extension for I8, I16, I4 and I2, zeros otherwise. -/
def laneBytes (ew : Nat) (f : Fmt) (c : Nat) : List Nat :=
  let w := Fmt.width f
  let sg := match f with
    | .i8 => true
    | .i16 => true
    | .i4 => true
    | .i2 => true
    | _ => false
  toLE ew (if sg then ofInt (8 * ew) (sx w c) else c % 2 ^ w)

/-- Lanes and elements lie in the register file, below predicates and masks; what lies beyond is read by no instruction (R45). -/
def inFile (r : List Rng) : List Rng := r.map (fun p => (p.1, min p.2 (0x8000 - p.1)))
/-- Register bytes of the lanes `0` to `n - 1` of a v register (R21, R23). -/
def vRng (s : Slot) (b : BitVec 8) (n : Nat) : List Rng := if n = 0 then [] else inFile [(s.vbyte (vNo b) 0, n * s.vew)]
/-- Register bytes of the active lanes of a v register. -/
def vActive (s : Slot) (b : BitVec 8) (k n : Nat) : List Rng :=
  inFile (((List.range n).filter (s.laneActive k)).map (fun l => (s.vbyte (vNo b) l, s.vew)))
def tRng (s : Slot) (b : BitVec 8) : List Rng := inFile [(s.tbyte (tNo b) 0 0, (s.TR + 1) * (s.TC + 1) * s.tew)]

/-! ## Scratchpad (R87) -/

/-- Does the byte range lie wholly in a share of a slot of the context, or wholly in a buffer of one of its tasks (R87)? -/
def spOk (m : Mach) (c core o len : Nat) : Bool :=
  let cc := core / 8 * 8 + bits o 18 3
  let lo := o % 2 ^ 18
  let cx := m.ctx c
  if 2 ^ 21 < o + len || 2 ^ 18 < lo + len then false
  else if lo < 0x30000 then
    let k := lo / spShareOf cx.slots
    decide (lo + len ≤ (k + 1) * spShareOf cx.slots) && (let s := m.slot (keyOf cc k); s.run != .free && s.ctx == c)
  else (m.core cc).bufs.any (fun b => decide (b.off % 2 ^ 18 ≤ lo) && decide (lo + len ≤ b.off % 2 ^ 18 + 1024 * b.size) &&
    (match b.owner with
     | some k => (m.slot k).ctx == c
     | none => b.given))

/-- The range check of R87 on a window range of the executing slot; an empty range needs none. -/
def spFails (m : Mach) (o len : Nat) : Bool := len != 0 && !spOk m m.sl.ctx m.curCore o len

/-- Reads scratchpad bytes at the banks (R88); poison ends the context (R344). -/
def spRead (o len : Nat) : M (List Nat) := do
  let m ← get
  let a := spPlace m.curCore o
  change (findSp a len)
  let m ← get
  if spPoisoned m a len then halt (fun m => .stay (endContext m.sl.ctx 0x81 m.cur o m)) else pure ()
  pure (m.spad.rdN a len)

def spWrite (o : Nat) (l : List Nat) : M Unit := change (fun m => storeSp (cellsAt (spPlace m.curCore o) l) m)

/-! ## Counters (R95) -/

/-- A load takes an entry and counts (R95). -/
def countLd (entry : Bool) : M Unit := do
  let m ← get
  blockIf (entry && decide (64 ≤ loadEntries m m.curCore)) .loadEntry
  blockIf (decide (255 ≤ m.sl.ocLd)) (.counter 0 254)
  changeMine (fun s => { s with ocLd := s.ocLd + 1 })
def roomSt : M Unit := do
  let s ← mine id
  blockIf (decide (255 ≤ s.ocSt)) (.counter 1 254)
/-- A store instruction of several requests: it counts once (R95). -/
def countStore : M Nat := do
  roomSt
  let i ← freshId
  changeMine (fun s => { s with ocSt := s.ocSt + 1 })
  let m ← get
  pure (m.cur + 2 ^ 16 * (i + 1))
def countAt : M Unit := do
  let s ← mine id
  blockIf (decide (255 ≤ s.ocAt)) (.counter 2 254)
  changeMine (fun s => { s with ocAt := s.ocAt + 1 })
def countLw : M Unit := do
  let s ← mine id
  blockIf (decide (255 ≤ s.ocLw)) (.counter 3 254)
  changeMine (fun s => { s with ocLw := s.ocLw + 1 })

/-- Sends every write-combining entry that holds a store of the slot (R96). -/
def sendMine (k : Nat) (m : Mach) : Mach := sendWcb (coreOf k) (fun w => w.stores.any (fun t => storeKey t == k)) m

/-- Waits until the named counters are 0; a wait on oc.st sends the slot's entries (R96, R297, R301). -/
def drain (ld st at_ lw : Bool) : M Unit := do
  let s ← mine id
  blockWith (ld && s.ocLd != 0 || st && s.ocSt != 0 || at_ && s.ocAt != 0 || lw && s.ocLw != 0)
    (fun m => if st then sendMine m.cur m else m) (.allZero ld st at_ lw)

/-- A store performed at once counts in oc.st until its acknowledgement (R86). -/
def ackLater (m : Mach) : Mach := addReq m.cur m.sl.ctx 0 .done (.store [] [m.cur]) (bumpSt m.cur m)

/-- The granule starts of a virtual range, beginning with its first byte. -/
def pagesOf (va len : Nat) : List Nat :=
  if len = 0 then [] else va :: (List.range (granuleOf (va + len - 1) - granuleOf va)).map (fun i => (granuleOf va + i + 1) * 2 ^ 18)

/-- The physical address of byte `i` of a range translated page by page. -/
def paAt (va : Nat) (pas : List Nat) (i : Nat) : Nat :=
  let g := granuleOf (va + i) - granuleOf va
  if g = 0 then pas.headD 0 + i else pas.getD g 0 + (va + i) % 2 ^ 18

/-! ## Handles (R255, R299) -/

/-- The live buffer of the core that a handle names, if it is not stale. -/
def bufOf (m : Mach) (core h : Nat) : Option Buf :=
  if bits h 18 3 != core % 8 then none
  else (m.core core).bufs.find? (fun b => b.off == h % 2 ^ 21 && b.gen == bits h 32 32)

def freeBuf (core off : Nat) (m : Mach) : Mach :=
  m.updCore core (fun c => { c with bufs := c.bufs.filter (fun b => b.off != off) })

/-! ## Issue and retirement -/

/-- What the order of checks needs to know of an instruction beside its body. -/
structure Use where
  rd : List Rng := []           -- register bytes read besides the guard
  wr : List Rng := []           -- fixed-latency destinations
  pops : List (BitVec 8 × Acc) := []  -- operand positions that may be streams, in the order they are used
  priv : Bool := false
  nondet : Bool := false
  handleA : Bool := false       -- operand A is read as a handle (R15)
  vas : List (Nat × Acc) := []  -- addresses that it accesses besides its streams (R326)
  barred : Ctx → Bool := fun _ => false  -- barred in deterministic mode for the operands it has (R317)

def Slot.isFollower (s : Slot) : Bool := match s.comet with
  | some (.follower _ _) => true
  | _ => false

/-- The register updates of REP after a repetition, which the next one reads without further gap (R69). -/
def Slot.repUpdate (s : Slot) (d a inc : Nat) : Slot :=
  let s := s.pendNow (gCells a (add64 (s.g a) inc))
  s.pendNow (gCells d (dec64 (s.g d)))

/-- The words of a leader's stream travel to its following members, which issue them `lag` cycles later (R83). -/
def forward (k : Nat) (f : Fwd) (m : Mach) : Mach :=
  match (m.slot k).comet with
  | some (.leader ms lag _) => let f := { f with due := m.cyc + lag }; ms.foldl (fun m j => match (m.slot j).comet with
      | some (.follower l q) => if l == k then m.updSlot j (fun s => { s with comet := some (.follower l (q ++ [f])) }) else m
      | _ => m) m
  | _ => m

/-- A word has executed: the count advances (R19) and the slot is last in the round-robin order (R271). -/
def Slot.counted (s : Slot) (h : Hdr) (rr : Nat) : Slot :=
  Slot.countEvent { s.boundary with n := s.n + h.sc.toNat + 1, cycles := s.cycles + 1, look := [], age := 0, boost := 0, stamp := rr } 1

/-- Is the word at the slot's pc the one that its REP repeats? -/
def Slot.repeats (s : Slot) : Option Rep := match s.rep with
  | some r => if s.pc == nextPc r.pc then some r else none
  | none => none

/-- The REP that the slot's word is the body of, or begins. -/
def Slot.repOf (s : Slot) : Option Rep := match s.rep with
  | some r => if s.pc == nextPc r.pc || s.pc == r.pc then some r else none
  | none => none

/-- The pc moves on, to the target if there is one (R67); the repeated word stays until its count is 0 (R69). -/
def Slot.advance (s : Slot) (tgt : Option Nat) : Slot :=
  match s.repeats with
  | some r =>
    let s := s.repUpdate r.d r.a r.inc
    if s.g r.d = 0 then { s with rep := none, pc := nextPc s.pc } else s
  | none => { s with pc := pcBits (tgt.getD (nextPc s.pc)) }

/-- A following follower goes where its leader went. With its leader's repetition it updates the registers of a REP that it executed itself
(R83). -/
def Slot.followed (s : Slot) (l : Nat) (f : Fwd) (q : List Fwd) (led : Bool) : Slot :=
  let s := match (if f.repeated then s.rep else none) with
    | some r => s.repUpdate r.d r.a r.inc
    | none => s
  let on := f.repeated && f.next == f.pc || f.begins && s.rep.any (fun r => r.pc == f.pc)
  { s with pc := f.next, rep := if on then s.rep else none, comet := if q.isEmpty && !led then none else some (.follower l q) }

/-- A word that has executed and traps to the next one: it counts, and goes to the followers as any word of the stream (R74, R83). -/
def passed (h : Hdr) (m : Mach) : Mach :=
  let s0 := m.slot m.cur
  let m1 := { (m.setSlot m.cur (s0.counted h m.dev.rr)) with dev := { m.dev with rr := m.dev.rr + 1 } }
  if s0.inh then m1 else forward m.cur ⟨s0.pc, s0.ir, nextPc s0.pc, s0.repeats, 0⟩ m1

/-- Retirement: the count advances (R19), REP repeats (R69), the pc moves, and a leader's word is forwarded (R83). -/
def retire (h : Hdr) (tgt : Option Nat) (m : Mach) : Mach :=
  let s0 := m.slot m.cur
  let s1 := s0.counted h m.dev.rr
  let s := match s1.comet with
    | some (.follower l (f :: q)) => s1.followed l f q (leads m l m.cur)
    | _ => s1.advance tgt
  let m1 := { (m.setSlot m.cur s) with dev := { m.dev with rr := m.dev.rr + 1 } }
  if s.inh then m1 else forward m.cur ⟨s0.pc, s.ir, s.pc, s0.repOf, 0⟩ m1

/-- Does an incomplete command of the slot have a scratchpad range in the buffer (R299)? -/
def bufBusy (m : Mach) (k : Nat) (lo len : Nat) : Bool :=
  m.cmds.any (fun c => c.slot == k && c.spans.any (fun r => decide (r.1 < lo + len) && decide (lo < r.1 + r.2)))

/-- Frees a buffer that the running task owns, once no command has a range in it (R299). -/
def freeOwn (b : Buf) : M Unit := do
  let m ← get
  blockIf (bufBusy m m.cur b.off (1024 * b.size)) (.buffer b.off (1024 * b.size))
  change (freeBuf m.curCore b.off)
  changeMine (fun s => { s with owned := s.owned.erase b.off })

/-- A last-read mark acts at retirement (R15). -/
def actMark (on : Bool) (handle : Bool) (b : BitVec 8) (bound : Bool) (hv : Nat) : M Unit :=
  if !on then pure ()
  else if bound then unbind (sNo b)
  else if handle then do
    let m ← get
    match bufOf m m.curCore hv with
    | some x => freeOwn x
    | none => pure ()
  else pure ()

/-- A slot whose word is at issue: writes whose count is reached have landed, and nothing waits. -/
def Slot.atIssue (s : Slot) : Slot := { s.settle with wait := none, look := endedOnly s.look, parked := false }

/-- What keeps a word from reading its guard (R39): an underrun (R23) or an interlock (R21). -/
def Slot.guardStop (s : Slot) (h : Hdr) : Option Stop :=
  let gr := qRng (BitVec.ofNat 8 (0x80 + h.g.toNat))
  if s.schk && s.underrun gr then some (.trap 0x03 0)
  else if s.interlocked gr then some (.block (.register (predPlace h.g.toNat) 1))
  else none

/-- What keeps a word whose guard passes from executing (R39): an underrun, an interlock of a register it reads or writes, a
privileged word in a context without PRV, a nondeterministic one in a context with DET, the look-ups of its stream elements and of what else
it accesses, in one pass (R326). -/
def useStop (m : Mach) (u : Use) : Option Stop :=
  let s := m.sl
  if s.schk && s.underrun u.rd then some (.trap 0x03 0)
  else match u.rd.find? (fun r => s.interlocked [r]) with
    | some r => some (.block (.register r.1 r.2))
    | none => match u.wr.find? (fun r => s.pendingTo [r]) with
      | some r => some (.block (.register r.1 r.2))
      | none =>
        if u.priv && !m.cx.prv then some (.trap 0x02 0)
        else if (u.nondet || u.barred m.cx) && m.cx.det then some (.trap 0x04 0)
        else
          let ms := (missing m m.curCore m.cx.asid (streamVas s u.pops ++ (if (streamVas s u.pops).isEmpty then [] else u.vas))).filter
            (fun l => !lookFailed s l)
          if ms.isEmpty then none else some (.looks ms)

/-- The instruction has done some of its units and is at a restart point (R106). -/
def restart {α : Type} : M α := halt (fun m => .stay (m.updSlot m.cur (fun s => { s with mid := true })))

/-- Stops if there is a reason to. -/
def stopIf (o : Option Stop) : M Unit := fun m => match o with
  | some x => .error x
  | none => .ok ((), m)

/-- Issue of a word (R39), with its register bytes `a` and `b` for the marks. The body answers a branch target, if any. -/
def issue (h : Hdr) (a b : BitVec 8) (use : Slot → Use) (body : M (Option Nat)) : M Unit := do
  changeMine Slot.atIssue
  let s ← mine id
  stopIf (s.guardStop h)
  if s.q h.g.toNat == h.gn then change (retire h none)
  else
    let m ← get
    let u := use s
    stopIf (useStop m u)
    let hv := if u.handleA then s.g (gNo a) else 0
    let tgt ← body
    actMark h.la u.handleA a (s.stream a).isSome hv
    actMark h.lb false b (s.stream b).isSome 0
    change (retire h tgt)

end Sys2Proof.Machine
end

