-- ==== Sys2Proof/Machine/Real.lean ====
section
/-! DEFINITION. Real functions as fixed-point numbers of 800 fraction bits, for results that the spec defines as a rounding or a
bracketing of an exact real value (R126, R231). The error of every function is below 2^-760; a value that is rounded is
irrational, so it lies on no boundary, and that it lies no nearer than 2^-700 to one is log entry 9. -/
namespace Sys2Proof.Machine

/-- Fraction bits. -/
def prec : Nat := 800
def one : Nat := 2 ^ prec

/-- `atan(1/q)`, by its series in odd powers. -/
def atanInv (q : Nat) : Nat → Nat → Int → Int → Int
  | 0, _, _, acc => acc
  | fuel + 1, i, t, acc => if t = 0 then acc else atanInv q fuel (i + 1) (-t / (q * q : Nat)) (acc + t / (2 * i + 1 : Nat))

/-- π (Machin's formula). -/
def piFix : Nat := (16 * atanInv 5 600 0 (one / 5 : Nat) 0 - 4 * atanInv 239 600 0 (one / 239 : Nat) 0).toNat

/-- Twice the odd-power series of the inverse hyperbolic tangent of `1/q`, so that `ln((q + 1)/(q - 1))`. -/
def lnSeries (q : Nat) : Nat → Nat → Nat → Nat → Nat
  | 0, _, _, acc => acc
  | fuel + 1, i, t, acc => if t = 0 then acc else lnSeries q fuel (i + 1) (t / (q * q)) (acc + 2 * (t / (2 * i + 1)))

def ln2Fix : Nat := lnSeries 3 600 0 (one / 3) 0

/-- `e^x` for a signed fixed-point `x` of small magnitude. -/
def expFix (x : Int) : Nat :=
  let rec go : Nat → Nat → Int → Int → Int
    | 0, _, _, acc => acc
    | fuel + 1, i, t, acc => if t = 0 then acc else go fuel (i + 1) (t * x / (one : Int) / (i + 1 : Nat)) (acc + t)
  (go 400 0 one 0).toNat

/-- `2^(n/d)` for `0 ≤ n < d`, fixed-point. -/
def exp2Frac (n d : Nat) : Nat := expFix (n * ln2Fix / d : Nat)

/-- Sine and cosine of a fixed-point angle of magnitude at most 2. -/
def sinFix (x : Int) : Int :=
  let rec go : Nat → Nat → Int → Int → Int
    | 0, _, _, acc => acc
    | fuel + 1, i, t, acc =>
      if t = 0 then acc else go fuel (i + 1) (-(t * x / (one : Int) * x / (one : Int)) / ((2 * i + 2) * (2 * i + 3) : Nat)) (acc + t)
  go 400 0 x 0
def cosFix (x : Int) : Int :=
  let rec go : Nat → Nat → Int → Int → Int
    | 0, _, _, acc => acc
    | fuel + 1, i, t, acc =>
      if t = 0 then acc else go fuel (i + 1) (-(t * x / (one : Int) * x / (one : Int)) / ((2 * i + 1) * (2 * i + 2) : Nat)) (acc + t)
  go 400 0 one 0

/-- `(cos, sin)` of `2π·n/d`. -/
def cosSin (n d : Nat) : Int × Int :=
  let r := 4 * (n % d)
  let j := r / d
  let x : Int := (piFix * (r % d) / (2 * d) : Nat)
  let c := cosFix x
  let s := sinFix x
  match j with
  | 0 => (c, s)
  | 1 => (-s, c)
  | 2 => (-c, -s)
  | _ => (s, -c)

/-- `ln(m / 2^k)` for `2^k ≤ m < 2^(k+1)`, by the series in `(y - 1)/(y + 1)`. -/
def lnFrac (m k : Nat) : Nat :=
  let z := (m - 2 ^ k) * one / (m + 2 ^ k)
  let z2 := z * z / one
  let rec go : Nat → Nat → Nat → Nat → Nat
    | 0, _, _, acc => acc
    | fuel + 1, i, t, acc => if t = 0 then acc else go fuel (i + 1) (t * z2 / one) (acc + 2 * (t / (2 * i + 1)))
  go 600 0 z 0

/-- A fixed-point number as an exact value. -/
def fixNum (x : Int) : Num := .fin (decide (x < 0)) x.natAbs (-(prec : Int))

/-- `z · 2^(-n/d)` rounded to FP32 under .rne, for an exact finite `z` and a further addend `b`; the exponent is cut at 2000,
beyond which every product vanishes in FP32 or in the sum. -/
def decayed (z : Num) (n d : Nat) : Num :=
  let q : Int := min (n / d) 2000
  if n % d = 0 then z.shift (-q)
  else (z.mul (fixNum (exp2Frac (d - n % d) d))).shift (-q - 1)

end Sys2Proof.Machine
end

