-- ==== Sys2Proof/Machine/LawWord.lean ====
section
/-! DEFINITION. Law words, descriptors, the laws and their crossings, the ephemeris and the performance of one law operation by
its unit (R115 to R131, R139, R143 to R150). -/
namespace Sys2Proof.Machine

/-! ## Words and descriptors -/

/-- A law word's fields (R117, R118); a law64 word has no Y and no CNT. -/
structure LawWord where
  x : Nat
  y : Nat
  stamp : Nat
  law : Nat
  cnt : Nat
  c : Bool
  l : Bool
  a : Bool
  deriving DecidableEq, Repr

def lawSize (w128 : Bool) : Nat := if w128 then 16 else 8
/-- `bits(w)` of R115. -/
def stampBits (w128 : Bool) : Nat := if w128 then 40 else 20

def LawWord.of (w128 : Bool) (v : Nat) : LawWord :=
  if w128 then ⟨bits v 0 32, bits v 32 32, bits v 64 40, bits v 104 8, bits v 112 8, bitAt v 120, bitAt v 121, bitAt v 122⟩
  else ⟨bits v 0 32, 0, bits v 32 20, bits v 52 8, 0, bitAt v 60, bitAt v 61, bitAt v 62⟩

def LawWord.pack (w128 : Bool) (w : LawWord) : Nat :=
  if w128 then w.x % 2 ^ 32 + w.y % 2 ^ 32 * 2 ^ 32 + w.stamp % 2 ^ 40 * 2 ^ 64 + w.law % 256 * 2 ^ 104 + w.cnt % 256 * 2 ^ 112
    + ofBool w.c * 2 ^ 120 + ofBool w.l * 2 ^ 121 + ofBool w.a * 2 ^ 122
  else w.x % 2 ^ 32 + w.stamp % 2 ^ 20 * 2 ^ 32 + w.law % 256 * 2 ^ 52
    + ofBool w.c * 2 ^ 60 + ofBool w.l * 2 ^ 61 + ofBool w.a * 2 ^ 62

/-- A descriptor's fields (R121). -/
structure Desc where
  kind : Nat
  vf : Bool
  wf : Bool
  sh : Nat
  dir : Nat
  act : Nat
  ten : Bool
  yuse : Nat
  tgtm : Nat
  dom : Nat
  h : Nat
  slope : Nat
  p : Nat
  b : Nat
  theta : Nat
  rst : Nat
  tgt : Nat
  deriving DecidableEq, Repr

/-- The 256 bits of a descriptor from its quads. -/
def Desc.of (q : List Nat) : Desc :=
  let v := (q.getD 0 0) + (q.getD 1 0) * 2 ^ 64 + (q.getD 2 0) * 2 ^ 128 + (q.getD 3 0) * 2 ^ 192
  { kind := bits v 0 2, vf := bitAt v 2, wf := bitAt v 3, sh := bits v 4 6, dir := bits v 10 2, act := bits v 12 3,
    ten := bitAt v 15, yuse := bits v 16 2, tgtm := bits v 18 2, dom := bits v 20 4, h := bits v 32 32, slope := bits v 64 32,
    p := bits v 96 32, b := bits v 128 32, theta := bits v 160 32, rst := bits v 192 32, tgt := bits v 224 32 }

/-- A 32-bit value in the descriptor's VF. -/
def Desc.num (d : Desc) (x : Nat) : Num := if d.vf then f32 x else .ofInt (sx 32 x)

/-- A valid descriptor (R122). -/
def Desc.ok (q : List Nat) : Bool :=
  let d := Desc.of q
  let finite := fun x => !(f32 x).isNan && !(f32 x).isInf
  let nan := fun x => d.vf && (f32 x).isNan
  bits (q.getD 0 0) 24 8 == 0 && bits d.tgt 16 16 == 0 && d.dir != 3 && decide (d.act ≤ 4) && decide (d.tgtm ≤ 1) && decide (d.sh ≤ 40)
  && (match d.kind with
      | 0 => true
      | 1 => d.vf
      | 2 => !d.vf
      | _ => d.vf && d.wf && d.yuse == 3)
  && (match d.yuse with
      | 0 => d.kind != 3
      | 1 => d.kind == 1 && d.wf
      | 2 => d.kind == 2 && d.wf
      | _ => d.kind == 3)
  && (if d.kind = 1 then d.h != 0 else d.kind == 3 || d.h == 0)
  && (d.slope == 0 || d.kind == 2 && d.yuse == 0)
  && (if d.kind = 3 then d.p != 0 else d.p == 0)
  && (if d.kind = 1 ∧ d.yuse = 0 then finite d.b else d.b == 0)
  && (if d.ten then d.kind != 0 && !nan d.theta && !nan d.rst && !(d.act == 1 && d.kind == 3)
      else d.dir == 0 && d.act == 0 && d.theta == 0 && d.rst == 0)
  && (d.tgtm == 0 || d.act == 3 || d.act == 4) && (d.tgtm == 1 || d.tgt == 0)

/-- The descriptor that a context loaded at an index (R121). -/
def descOf (c : Ctx) (i : Nat) : Option Desc := (c.laws.find i).map Desc.of

/-- The descriptor of a valid law word (R119). -/
def lawDesc (c : Ctx) (w128 : Bool) (v : Nat) : Option Desc :=
  if (if w128 then bits v 123 5 != 0 else bitAt v 63) then none
  else match descOf c (LawWord.of w128 v).law with
    | some d => if d.wf == w128 then some d else none
    | none => none

/-- The same check on LWSET's new word (R136). -/
def setDesc (c : Ctx) (w128 : Bool) (b b1 : Nat) : Option Desc :=
  if (if w128 then bits b1 59 5 != 0 else bitAt b 63) then none
  else match descOf c (if w128 then bits b1 40 8 else bits b 52 8) with
    | some d => if d.wf == w128 then some d else none
    | none => none

/-- Domain time (R115, R131). -/
def domainTime (m : Mach) (c : Ctx) (dom : Nat) : Nat := (c.stepped.find dom).getD m.sid

/-! ## The laws (R126) -/

def nan32 : Nat := 0x7FC00000
/-- An exact zero is +0. -/
def posZero (x : Num) : Num := if x.isZero then .zero false else x
/-- Saturation to I32. -/
def sat32 (v : Int) : Nat := ofInt 32 (min (max v (-2147483648)) 2147483647)

/-- `4·cos` of `15°·k` in the basis 1, √2, √3, √6. -/
def cos15 : Nat → Int × Int × Int × Int
  | 0 => (4, 0, 0, 0)
  | 1 => (0, 1, 0, 1)
  | 2 => (0, 0, 2, 0)
  | 3 => (0, 2, 0, 0)
  | 4 => (2, 0, 0, 0)
  | 5 => (0, -1, 0, 1)
  | _ => (0, 0, 0, 0)
def neg4 (x : Int × Int × Int × Int) : Int × Int × Int × Int := (-x.1, -x.2.1, -x.2.2.1, -x.2.2.2)
def cosAt (k : Nat) : Int × Int × Int × Int :=
  let k := k % 24
  if k ≤ 6 then cos15 k else if k ≤ 12 then neg4 (cos15 (12 - k)) else if k ≤ 18 then neg4 (cos15 (k - 12)) else cos15 (24 - k)

/-- `x·c − y·s` for exact `x`, `y` and coefficients of one basis element over 4. -/
def mix (x y : Num) (c s : Int) : Num := ((x.mul (.ofInt c)).add false ((y.mul (.ofInt s)).neg)).shift (-2)

/-- One component `x·cos − y·sin` of the rotated and decayed value, rounded. `k` of `p` turns, decay `n / h`. The rotation is
taken exactly where a product is rational or a rational multiple of √2, which happens only at multiples of 15°. -/
def oscPart (x y : Num) (k p n h : Nat) : Nat :=
  let c := cosAt (24 * k / p)
  let s := cosAt (24 * k / p + 18)
  let v1 := mix x y c.1 s.1
  let v2 := mix x y c.2.1 s.2.1
  let v3 := mix x y c.2.2.1 s.2.2.1
  let v6 := mix x y c.2.2.2 s.2.2.2
  if 24 * k % p = 0 ∧ v3.isZero ∧ v6.isZero ∧ (v1.isZero ∨ v2.isZero) then
    if v2.isZero then toF32 .rne (posZero (decayed v1 n h)) else toF32 .rne (posZero (decayed (v2.shift 1) (2 * n + h) (2 * h)))
  else
    let cs := cosSin k p
    toF32 .rne (posZero (decayed ((x.mul (fixNum cs.1)).add false ((y.mul (fixNum cs.2)).neg)) n h))

/-- `ev(n)` from the value `st` (R126). -/
def ev (d : Desc) (st : Nat × Nat) (n : Nat) : Nat × Nat :=
  if n = 0 then st
  else match d.kind with
    | 0 => st
    | 2 => (sat32 (sx 32 st.1 + sx 32 (if d.yuse = 2 then st.2 else d.slope) * n), st.2)
    | 1 =>
      let x := f32 st.1
      let b := f32 (if d.yuse = 1 then st.2 else d.b)
      if x.isNan || b.isNan || b.isInf then (nan32, st.2)
      else if x.isInf then st
      else (toF32 .rne (posZero ((decayed (x.add false b.neg) n d.h).add false b)), st.2)
    | _ =>
      let x := f32 st.1
      let y := f32 st.2
      if x.isNan || y.isNan || x.isInf || y.isInf then (nan32, nan32)
      else
        let k := n % d.p
        let e := if d.h = 0 then (0, 1) else (n, d.h)
        (oscPart x y k d.p e.1 e.2, oscPart y x.neg k d.p e.1 e.2)

/-! ## Crossings (R127) -/

/-- Does the pair of successive X values cross θ? -/
def Desc.crosses (d : Desc) (a b : Nat) : Bool :=
  let x := d.num a
  let y := d.num b
  let t := d.num d.theta
  let up := x.lt t && t.le y
  let down := t.lt x && y.le t
  match d.dir with
  | 0 => up
  | 1 => down
  | _ => up || down

/-- The least number in `(lo, hi]` with a property that holds at `hi` and, once it holds, for ever. -/
def bisect (p : Nat → Bool) : Nat → Nat → Nat → Nat
  | 0, _, hi => hi
  | fuel + 1, lo, hi =>
    if hi ≤ lo + 1 then hi
    else
      let mid := (lo + hi) / 2
      if p mid then bisect p fuel lo mid else bisect p fuel mid hi

/-- The first number after `lo`, among the next `n`, with a property. -/
def scan (p : Nat → Bool) : Nat → Nat → Option Nat
  | 0, _ => none
  | n + 1, lo => if p (lo + 1) then some (lo + 1) else scan p n (lo + 1)

/-- The least `c` with `0 < c ≤ hi` at which ev from `st` crosses θ. INTEG and LEAK are monotone, so their crossing is found by
bisection; OSC is searched tick by tick. -/
def firstCross (d : Desc) (st : Nat × Nat) (hi : Nat) : Option Nat :=
  let x := fun n => (ev d st n).1
  if hi = 0 then none
  else if d.kind = 3 then scan (fun n => d.crosses (x (n - 1)) (x n)) hi 0
  else if d.crosses st.1 (x hi) then some (bisect (fun n => d.crosses st.1 (x n)) 64 0 hi)
  else none

/-- Every crossing in `(0, hi]`: their number, the first and the last. -/
def allCross (d : Desc) (st : Nat × Nat) : Nat → Nat × Nat × Nat
  | 0 => (0, 0, 0)
  | n + 1 =>
    let r := allCross d st n
    if d.crosses (ev d st n).1 (ev d st (n + 1)).1 then (r.1 + 1, if r.1 = 0 then n + 1 else r.2.1, n + 1) else r

/-- What an advance finds: crossings, first and last tick, X and Y at the last, and the value it leaves. -/
structure Adv where
  n : Nat
  first : Nat
  last : Nat
  vlast : Nat × Nat
  out : Nat × Nat
  deriving DecidableEq, Repr

/-- Is the word frozen under CLAMP (R127, R140)? -/
def frozen (d : Desc) (w : LawWord) : Bool := d.act == 1 && w.c

/-- The procedure of R127 over Δ law ticks, with the closed form for the crossings after a reset. -/
def advance (d : Desc) (w : LawWord) (dt : Nat) : Adv :=
  let st := (w.x, w.y)
  if frozen d w then ⟨0, 0, 0, st, st⟩
  else if !d.ten then ⟨0, 0, 0, st, ev d st dt⟩
  else match d.act with
    | 1 => match firstCross d st dt with
      | none => ⟨0, 0, 0, st, ev d st dt⟩
      | some c => ⟨1, c, c, ev d st c, (d.theta, w.y)⟩
    | 2 => again st
    | 4 => again st
    | _ =>
      if d.kind = 3 then
        let r := allCross d st dt
        ⟨r.1, r.2.1, r.2.2, ev d st r.2.2, ev d st dt⟩
      else match firstCross d st dt with
        | none => ⟨0, 0, 0, st, ev d st dt⟩
        | some c => ⟨1, c, c, ev d st c, ev d st dt⟩
where
  again (st : Nat × Nat) : Adv :=
    match firstCross d st dt with
    | none => ⟨0, 0, 0, st, ev d st dt⟩
    | some c =>
      let rs := (d.rst, if d.kind = 3 then 0 else w.y)
      match firstCross d rs (dt - c) with
      | none => ⟨1, c, c, ev d st c, ev d rs (dt - c)⟩
      | some t =>
        let k := (dt - c) / t
        let last := c + k * t
        ⟨1 + k, c, last, if k = 0 then ev d st c else ev d rs t, ev d rs (dt - last)⟩

/-- A tick after which no crossing of the law can come (R145): INTEG has saturated, LEAK has reached its asymptote or 0, and OSC
has turned once without decay, or has died away. -/
def lastTick (d : Desc) : Nat :=
  match d.kind with
  | 2 => 2 ^ 33
  | 1 => 600 * d.h
  | _ => if d.h = 0 then d.p + 1 else 600 * d.h + d.p

/-- `c_next` of R145. -/
def nextCross (d : Desc) (w : LawWord) : Option Nat :=
  if !d.ten || frozen d w then none else firstCross d (w.x, w.y) (lastTick d)

/-! ## The ephemeris (R143 to R150) -/

/-- A word's place: scratchpad bytes of the octet, or memory. -/
structure LawAt where
  oct : Bool
  place : Nat
  w128 : Bool
  deriving DecidableEq, Repr

/-- The octet that holds a scratchpad byte. -/
def octOf (a : Nat) : Nat := a / 2 ^ 21

def ephOf (m : Mach) (p : LawAt) : List EphEntry :=
  if p.oct then (m.octet (octOf p.place)).eph else (m.slice (homeOf p.place)).eph
def setEph (m : Mach) (p : LawAt) (l : List EphEntry) : Mach :=
  if p.oct then m.setOctet (octOf p.place) { m.octet (octOf p.place) with eph := l }
  else m.setSlice (homeOf p.place) { m.slice (homeOf p.place) with eph := l }
/-- Entries a unit holds (R143). -/
def ephRoom (p : LawAt) : Nat := if p.oct then 1024 else 4096
def ephFind (m : Mach) (p : LawAt) (c : Nat) : Option EphEntry := (ephOf m p).find? (fun e => e.place == p.place && e.ctx == c)
def ephDrop (p : LawAt) (c : Nat) (m : Mach) : Mach := setEph m p ((ephOf m p).filter (fun e => !(e.place == p.place && e.ctx == c)))
def ephPut (p : LawAt) (e : EphEntry) (m : Mach) : Mach :=
  let m := ephDrop p e.ctx m
  setEph m p (ephOf m p ++ [e])
/-- An LWARM is refused (R151). -/
def ephRefuse (p : LawAt) (c : Nat) (m : Mach) : Mach :=
  if p.oct then
    let o := m.octet (octOf p.place)
    m.setOctet (octOf p.place) { o with refused := o.refused.put c ((o.refused.get 0 c + 1) % 2 ^ 32) }
  else
    let s := m.slice (homeOf p.place)
    m.setSlice (homeOf p.place) { s with refused := s.refused.put c ((s.refused.get 0 c + 1) % 2 ^ 32) }

def lawRead (m : Mach) (p : LawAt) : Nat :=
  if p.oct then m.spad.num p.place (lawSize p.w128) else m.mem.num p.place (lawSize p.w128)
def lawWrite (p : LawAt) (v : Nat) (m : Mach) : Mach :=
  if p.oct then storeSp (cellsAt p.place (toLE (lawSize p.w128) v)) m else homeStore (cellsAt p.place (toLE (lawSize p.w128) v)) m
/-- Errors planted in the word are found by the unit's read (R344). -/
def lawFind (p : LawAt) (m : Mach) : Mach :=
  if p.oct then findSp p.place (lawSize p.w128) m
  else
    let m := if present m p.place || paKind m.dev p.place == .peer then m else bringLine (p.place / 128) m
    findL2 p.place (lawSize p.w128) m
def lawPoison (m : Mach) (p : LawAt) : Bool :=
  if p.oct then spPoisoned m p.place (lawSize p.w128) else poisoned m p.place (lawSize p.w128)

/-- A law operation as its unit sees it. `k` is the slot that TGTM 00 names, `named` the address it named (R130), `laws` the descriptors that
a request to another device carries (R135). -/
structure LawReq where
  c : Nat
  k : Nat
  op : LawOp
  at_ : LawAt
  named : Nat
  b : Nat
  b1 : Nat
  src : Nat
  laws : Option (Tab (List Nat)) := none
  deriving DecidableEq, Repr

/-- The context whose descriptors the unit uses. -/
def LawReq.ctx (r : LawReq) (m : Mach) : Ctx := match r.laws with
  | some t => { m.ctx r.c with laws := t }
  | none => m.ctx r.c

/-- Addition in VF (R139). -/
def Desc.add (d : Desc) (x v : Nat) : Nat := if d.vf then fadd32 x v else sat32 (sx 32 x + sx 32 v)
/-- `fmax` of R139. -/
def Desc.fmax (d : Desc) (x v : Nat) : Nat :=
  if d.vf then
    if (f32 v).isNan then x else if (f32 x).isNan then v
    else if (f32 x).eq (f32 v) then (if (f32 x).isZero && (f32 x).sign then v else x)
    else if (f32 x).lt (f32 v) then v else x
  else if sx 32 x < sx 32 v then v else x

/-- Crossings found are latched (R120): `n` of them, discovered or not. -/
def LawWord.found (w : LawWord) (w128 : Bool) (n : Nat) (late : Bool) : LawWord :=
  if n = 0 then w else { w with c := true, l := late, cnt := if w128 then min 255 (w.cnt + n) else w.cnt }

/-- The crossings an operation reports. -/
structure Found where
  n : Nat
  first : Nat
  last : Nat
  vlast : Nat × Nat
  deriving DecidableEq, Repr

/-- The test of R128: the modified value replaces X, and a crossing by it is on time and acted on at once. -/
def testMod (d : Desc) (w128 : Bool) (w : LawWord) (dt : Nat) (f : Found) (x : Nat) : LawWord × Found :=
  let w1 := { w with x := x }
  if d.ten && !frozen d w && d.crosses w.x x then
    let w2 := w1.found w128 1 (f.n != 0 && w.l)
    let w3 := match d.act with
      | 1 => { w2 with x := d.theta }
      | 2 => { w2 with x := d.rst, y := if d.kind = 3 then 0 else w2.y }
      | 4 => { w2 with x := d.rst, y := if d.kind = 3 then 0 else w2.y }
      | _ => w2
    (w3, ⟨f.n + 1, if f.n = 0 then dt else f.first, dt, (x, w1.y)⟩)
  else (w1, f)

/-- The entry of a word after an operation that wrote it back (R149), and its A flag: the entry of the operation's context, at the word size of
the operation that armed it (DEDUCED, log entry 66). -/
def rearm (p : LawAt) (c : Nat) (d : Desc) (lnow : Nat) (w : LawWord) (m : Mach) : LawWord × Mach :=
  match ephFind m p c with
  | none => (w, m)
  | some e =>
    match nextCross d w with
    | some n =>
      if n ≤ 2 ^ stampBits p.w128 - 1 then ({ w with a := true }, ephPut p { e with time := (lnow + n) * 2 ^ d.sh, domain := d.dom } m)
      else ({ w with a := false }, ephDrop p c m)
    | none => ({ w with a := false }, ephDrop p c m)

/-- LWARM's status and entry (R146). With no next crossing or one out of range the status says so also when every entry is held; status 1 alone
counts as refused (DEDUCED, log entry 66). Nothing is armed for a context that has ended (R144). -/
def armWord (r : LawReq) (d : Desc) (lnow : Nat) (w : LawWord) (m : Mach) : Nat × LawWord × Mach :=
  let p := r.at_
  match nextCross d w with
  | none => (2, { w with a := false }, ephDrop p r.c m)
  | some n =>
    if 2 ^ stampBits p.w128 - 1 < n then (3, { w with a := false }, ephDrop p r.c m)
    else if (m.ctx r.c).st = .ended then (1, { w with a := false }, m)
    else if (ephFind m p r.c).isNone && decide (ephRoom p ≤ (ephOf m p).length) then (1, { w with a := false }, ephRefuse p r.c m)
    else (0, { w with a := true }, ephPut p ⟨p.place, r.c, r.k, d.dom, (lnow + n) * 2 ^ d.sh, p.w128, r.named⟩ m)

/-- The event record of R130. -/
def lawRecord (r : LawReq) (d : Desc) (lnow dt present : Nat) (f : Found) (v : Nat) (w : LawWord) : List Nat :=
  let w128 := r.at_.w128
  let time := fun (c : Nat) => ofInt 64 (((lnow : Int) - dt + c) * (2 ^ d.sh : Nat))
  [r.named % 2 ^ 64, v % 2 ^ 64, time f.first, time f.last,
   f.vlast.1 % 2 ^ 32 + min 255 f.n * 2 ^ 32 + (ofBool w.c + 2 * ofBool w.l + 4 * ofBool w.a) * 2 ^ 40 + r.src * 2 ^ 44,
   present % 2 ^ 64, v / 2 ^ 64, if w128 then f.vlast.2 % 2 ^ 32 else 0]

/-- The slot a record goes to (R130). -/
def recordTo (d : Desc) (k : Nat) : Nat := if d.tgtm = 1 then keyOf (bits d.tgt 0 14) (bits d.tgt 14 2) else k

/-- The law unit of a word, as records name it (R158). -/
def unitOf (m : Mach) (p : LawAt) : Nat :=
  if p.oct then 2 * octOf p.place + 1
  else 2 * (homeOf p.place + (if paKind m.dev p.place == .peer then 256 * (1 + peerOf p.place) else 0))

/-- The record of an operation leaves its unit, if it emits one (R130). -/
def emit (r : LawReq) (d : Desc) (lnow dt present : Nat) (f : Found) (v : Nat) (w : LawWord) (m : Mach) : Mach :=
  if f.n != 0 && (d.act == 3 || d.act == 4) then
    { m with records := m.records ++ [⟨r.c, recordTo d r.k, lawRecord r d lnow dt present f v w, none, some (unitOf m r.at_)⟩] }
  else m

/-- One operation on a valid word (R139), with its present and law time; `onTime` marks a firing, whose crossing at Δ is on time
(R147). Answers what the result registers receive. -/
def lawOn (r : LawReq) (d : Desc) (present lnow : Nat) (onTime : Bool) (m : Mach) : Nat × Mach :=
  let p := r.at_
  let w128 := p.w128
  let w0 := LawWord.of w128 (lawRead m p)
  match r.op with
  | .set =>
    let w := if w128 then { w0 with x := bits r.b 0 32, y := bits r.b 32 32, law := bits r.b1 40 8, stamp := lnow, c := false, l := false, cnt := 0 }
      else { w0 with x := bits r.b 0 32, law := bits r.b 52 8, stamp := lnow, c := false, l := false, cnt := 0 }
    let y := rearm p r.c d lnow w m
    (0, lawWrite p (y.1.pack w128) y.2)
  | _ =>
    let sb := 2 ^ stampBits w128
    let dt := (lnow % sb + sb - w0.stamp) % sb
    let a := advance d w0 dt
    let late := !(onTime && a.n == 1 && a.last == dt)
    let w1 := ({ w0 with x := a.out.1, y := a.out.2, stamp := lnow } : LawWord).found w128 a.n late
    let f : Found := ⟨a.n, a.first, a.last, a.vlast⟩
    let old := w1.pack w128
    let test := testMod d w128 w1 dt f
    let back := fun (w : LawWord) (f : Found) (retOld : Bool) (m : Mach) =>
      let y := rearm p r.c d lnow w m
      let v := y.1.pack w128
      ((if retOld then old else v), emit r d lnow dt present f v y.1 (lawWrite p v y.2))
    match r.op with
    | .adv => back w1 f false m
    | .add => let t := test (d.add w1.x (bits r.b 0 32)); back t.1 t.2 false m
    | .max => let t := test (d.fmax w1.x (bits r.b 0 32)); back t.1 t.2 false m
    | .cas => if w1.x = bits r.b 0 32 then (let t := test (bits r.b 32 32); back t.1 t.2 true m) else back w1 f true m
    | .xch => back (if w128 then { w1 with x := bits r.b 0 32, y := bits r.b 32 32 } else { w1 with x := bits r.b 0 32 }) f true m
    | .clr => back { w1 with c := false, l := false, cnt := 0 } f true m
    | .arm =>
      let s := armWord r d lnow w1 m
      let v := s.2.1.pack w128
      (s.1, emit r d lnow dt present f v s.2.1 (lawWrite p v s.2.2))
    | _ => (old, m)

/-- LWDISARM (R150). -/
def disarm (p : LawAt) (c : Nat) (m : Mach) : Mach :=
  let m := ephDrop p c m
  let v := lawRead m p
  lawWrite p (setBits v (if p.w128 then 122 else 62) 1 0) m

/-- A firing of an entry (R147): an LWADV at the entry's time; a bad word loses the entry. -/
def fire (p : LawAt) (e : EphEntry) (m : Mach) : Mach :=
  let m := lawFind p m
  if lawPoison m p then endContext e.ctx 0x81 e.slot p.place m
  else match lawDesc (m.ctx e.ctx) p.w128 (lawRead m p) with
    | none => ephDrop p e.ctx m
    | some d => (lawOn ⟨e.ctx, e.slot, .adv, p, e.named, 0, 0, 1, none⟩ d e.time (e.time / 2 ^ d.sh) true m).2

/-- The entry with the earliest time. -/
def earliest (l : List EphEntry) : Option EphEntry := l.foldl (fun r e => match r with
  | none => some e
  | some x => if e.time < x.time then some e else some x) none

/-- The earliest due entry of a word, of whichever context: the operation's context `c` has its domains at `present`. -/
def dueEntry (m : Mach) (p : LawAt) (c : Nat) (present : Nat → Nat) : Option EphEntry :=
  earliest ((ephOf m p).filter (fun e => e.place == p.place &&
    decide (e.time ≤ if e.ctx = c then present e.domain else domainTime m (m.ctx e.ctx) e.domain)))

/-- Firings that precede an operation at a present (R148). `fuel` bounds their number: each moves the entry's time on. -/
def fireDue (p : LawAt) (c : Nat) (present : Nat → Nat) : Nat → Mach → Mach
  | 0, m => m
  | fuel + 1, m =>
    match dueEntry m p c present with
    | some e => fireDue p c present fuel (fire { p with w128 := e.w128 } e m)
    | none => m

/-- A unit performs a law operation on its word (R136, R139): `tick d` gives its present and law time. A bad word is left as it is
and its entry goes. -/
def lawDo (r : LawReq) (clock : Nat → Nat) (tick : Desc → Nat → Nat × Nat) (m : Mach) : Nat × Mach :=
  let p := r.at_
  let c := r.ctx m
  let m := lawFind p m
  if lawPoison m p then (0, endContext r.c 0x81 r.k p.place m)
  else
    let m := fireDue p r.c clock (2 ^ 64) m
    let v := lawRead m p
    match r.op with
    | .disarm => (0, disarm p r.c m)
    | .set => match setDesc c p.w128 r.b r.b1 with
      | none => (0, m)
      | some d => let t := tick d v; lawOn r d t.1 t.2 false m
    | op => match lawDesc c p.w128 v with
      | none => ((match op with
          | .arm => 2
          | _ => v), ephDrop p r.c m)
      | some d => let t := tick d v; lawOn r d t.1 t.2 false m

/-- Does an operation take its present from another device's clock? -/
def onPeer (m : Mach) (p : LawAt) : Bool := !p.oct && paKind m.dev p.place == .peer

/-- Another device's clock at a reading: the first one finds any value; a later one as much more as has passed here, but for the rates of the
two clocks, each within 200 ppm of its nominal one, so that it never decreases (R114 to R116). -/
def peerNow (n sid : Nat) : Option (Nat × Nat) → Nat
  | none => Config.peerClock n sid
  | some (t, at_) =>
    let d := sid - at_
    let off := (400 * d + 10 ^ 6 - 1) / 10 ^ 6
    min (t + d + off) (max (t + d - off) (Config.peerClock n sid))

/-- The other device's clock is read at the performance. -/
def readPeer (p : LawAt) (m : Mach) : Mach :=
  if onPeer m p then
    let n := peerOf p.place
    { m with dev := { m.dev with peerClk := m.dev.peerClk.put n (peerNow n m.sid (m.dev.peerClk.find n), m.sid) } }
  else m

/-- The present of a core's operation (R115): the domain's time, which for a peer word of a free-running domain is the target's clock. A stepped
domain's is the issuing context's domain clock on every word (DEDUCED, log entry 10). -/
def lawClock (m : Mach) (c : Ctx) (p : LawAt) (dom : Nat) : Nat :=
  if onPeer m p && (c.stepped.find dom).isNone then (m.dev.peerClk.get (0, 0) (peerOf p.place)).1 else domainTime m c dom

/-- A core's law operation at its unit. -/
def lawCore (r : LawReq) (m : Mach) : Nat × Mach :=
  let c := m.ctx r.c
  let m := readPeer r.at_ m
  lawDo r (lawClock m c r.at_) (fun d _ => let t := lawClock m c r.at_ d.dom; (t, t / 2 ^ d.sh)) m

end Sys2Proof.Machine
end

