-- ==== Sys2Proof/Machine/Flags.lean ====
section
/-! DEFINITION. Conditions (R32, R60) and predicate logic (R61): the machine's flags are its predicates. -/
namespace Sys2Proof.Machine

/-- A condition between two integers, with their unsigned patterns for the bit tests (R32). -/
def holdsInt (c : Cnd) (a b : Int) (ua ub : Nat) : Bool :=
  match c with
  | .eq => decide (a = b)
  | .ne => decide (a ≠ b)
  | .lt => decide (a < b)
  | .le => decide (a ≤ b)
  | .gt => decide (b < a)
  | .ge => decide (b ≤ a)
  | .un => false
  | .ord => true
  | .tst => (ua &&& ub) != 0
  | .ntst => (ua &&& ub) == 0

/-- A condition between two floating-point values (R60): -0 equals +0, and a NaN makes every condition false but .ne and
.un. -/
def holdsFp (c : Cnd) (x y : Num) : Bool :=
  match c with
  | .eq => x.eq y
  | .ne => !x.eq y
  | .lt => x.lt y
  | .le => x.le y
  | .gt => y.lt x
  | .ge => y.le x
  | .un => x.isNan || y.isNan
  | .ord => !(x.isNan || y.isNan)
  | .tst => false
  | .ntst => false

/-- The truth table of PLOG (R61). -/
def plogAt (tt : Nat) (a b : Bool) : Bool := bitAt tt (2 * ofBool a + ofBool b)

end Sys2Proof.Machine
end

