-- ==== Sys2Proof/Machine/Scalar.lean ====
section
/-! DEFINITION. The scalar group, opcodes 0x00 to 0x1F (R57 to R66). -/
namespace Sys2Proof.Machine

/-- ILL (R16): the illegal-instruction trap, whatever the guard. -/
def execIll (s : State) : Host.Outcome State Fault Refusal := run (trap 0x01 0) s

/-- Limits of an integer type (R57). -/
def Ty.lo (t : Ty) : Int := if Ty.signed t then -(2 ^ (8 * Ty.size t - 1) : Nat) else 0
def Ty.hi (t : Ty) : Int := if Ty.signed t then (2 ^ (8 * Ty.size t - 1) - 1 : Nat) else (2 ^ (8 * Ty.size t) - 1 : Nat)
/-- `sat(v, TY)` of R57. -/
def Ty.sat (t : Ty) (v : Int) : Nat := Ty.wrap t (min (max v (Ty.lo t)) (Ty.hi t))
/-- What the destination receives (R57). -/
def Ty.result (t : Ty) (saturate : Bool) (v : Int) : Nat := if saturate then Ty.sat t v else Ty.wrap t v
/-- `imm(TY)` of R57. -/
def Ty.imm (t : Ty) (i : BitVec 32) : Int :=
  Ty.val t (if Ty.signed t then ofInt 64 (sx 32 i.toNat) else i.toNat)

/-- A class S instruction of two g sources (R58): `f` gives v from the 64-bit operands. -/
def scalar2 (x : SW) (lat : Nat) (saturate : Bool) (f : Nat → Nat → Int) : M Unit :=
  issue x.h x.a x.b (fun s => { rd := gRng s x.a ++ gRng s x.b, wr := gRng s x.d, pops := [(x.a, .read), (x.b, .read), (x.d, .write)] }) do
    let a ← rdG x.a
    let b ← rdG x.b
    wrG lat x.d (Ty.result x.ty saturate (f a b))
    pure none

/-- A class S instruction of one g source. -/
def scalar1 (x : SW) (lat : Nat) (f : Nat → Int) : M Unit :=
  issue x.h x.a x.b (fun s => { rd := gRng s x.a, wr := gRng s x.d, pops := [(x.a, .read), (x.d, .write)] }) do
    let a ← rdG x.a
    wrG lat x.d (Ty.result x.ty false (f a))
    pure none

def satBit (x : SW) : Bool := bitAt x.mod.toNat 0

/-- `sh` of R58. -/
def Ty.sh (t : Ty) (b : Nat) : Nat := b % (8 * Ty.size t)

def vAdd (t : Ty) (a b : Nat) : Int := Ty.val t a + Ty.val t b
def vSub (t : Ty) (a b : Nat) : Int := Ty.val t a - Ty.val t b
def vMul (t : Ty) (a b : Nat) : Int := Ty.val t a * Ty.val t b
def vMulh (t : Ty) (a b : Nat) : Int := (Ty.val t a * Ty.val t b) / (2 ^ (8 * Ty.size t) : Nat)
def vAndn (t : Ty) (a b : Nat) : Nat := Ty.pat t a &&& (2 ^ (8 * Ty.size t) - 1 - Ty.pat t b)
def vShl (t : Ty) (a b : Nat) : Nat := Ty.pat t a * 2 ^ Ty.sh t b
def vShr (t : Ty) (a b : Nat) : Nat := Ty.pat t a / 2 ^ Ty.sh t b
def vSar (t : Ty) (a b : Nat) : Int := sx (8 * Ty.size t) a / (2 ^ Ty.sh t b : Nat)
def vRotl (t : Ty) (a b : Nat) : Nat :=
  let w := 8 * Ty.size t
  (Ty.pat t a * 2 ^ Ty.sh t b + Ty.pat t a / 2 ^ (w - Ty.sh t b)) % 2 ^ w
/-- Position of the highest one bit plus one, below bit `n`. -/
def bitLen (x : Nat) : Nat → Nat
  | 0 => 0
  | n + 1 => if bitAt x n then n + 1 else bitLen x n
def vClz (t : Ty) (a : Nat) : Nat := 8 * Ty.size t - bitLen (Ty.pat t a) (8 * Ty.size t)
def popCount (x : Nat) : Nat → Nat
  | 0 => 0
  | n + 1 => ofBool (bitAt x n) + popCount x n
def vPopc (t : Ty) (a : Nat) : Nat := popCount (Ty.pat t a) (8 * Ty.size t)

/-- ADD (R58). -/
def execAdd (x : SW) : State → Host.Outcome State Fault Refusal := run (scalar2 x 2 (satBit x) (vAdd x.ty))
/-- ADDI (R58). -/
def execAddi (x : IW) : State → Host.Outcome State Fault Refusal := run <|
  issue x.h x.a x.b (fun s => { rd := gRng s x.a, wr := gRng s x.d, pops := [(x.a, .read), (x.d, .write)] }) do
    let a ← rdG x.a
    wrG 2 x.d (Ty.result x.ty (bitAt x.mod.toNat 0) (Ty.val x.ty a + Ty.imm x.ty x.imm))
    pure none
/-- SUB (R58). -/
def execSub (x : SW) : State → Host.Outcome State Fault Refusal := run (scalar2 x 2 (satBit x) (vSub x.ty))
/-- MUL (R58). -/
def execMul (x : SW) : State → Host.Outcome State Fault Refusal := run (scalar2 x 4 (satBit x) (vMul x.ty))
/-- MULH (R58). -/
def execMulh (x : SW) : State → Host.Outcome State Fault Refusal := run (scalar2 x 4 false (vMulh x.ty))

/-- `v` of DIV (R59). -/
def vDiv (t : Ty) (x y : Nat) : Int :=
  let a := Ty.val t x
  let b := Ty.val t y
  if b = 0 then -1 else if Ty.signed t && a == Ty.lo t && b == -1 then Ty.lo t else a.tdiv b
/-- `v` of REM (R59). -/
def vRem (t : Ty) (x y : Nat) : Int :=
  let a := Ty.val t x
  let b := Ty.val t y
  if b = 0 then a else if Ty.signed t && a == Ty.lo t && b == -1 then 0 else a - b * a.tdiv b

/-- DIV and REM: an interlocked result (R59). -/
def divide (x : SW) (f : Nat → Nat → Int) : M Unit :=
  issue x.h x.a x.b (fun s => { rd := gRng s x.a ++ gRng s x.b, pops := [(x.a, .read), (x.b, .read), (x.d, .write)] }) do
    let a ← rdG x.a
    let b ← rdG x.b
    wrLand .ready x.d (Ty.wrap x.ty (f a b))
    pure none
/-- DIV (R59). -/
def execDiv (x : SW) : State → Host.Outcome State Fault Refusal := run (divide x (vDiv x.ty))
/-- REM (R59). -/
def execRem (x : SW) : State → Host.Outcome State Fault Refusal := run (divide x (vRem x.ty))

/-- MAC (R58): operands are read in the order A, B, C. -/
def execMac (x : SW) : State → Host.Outcome State Fault Refusal := run <|
  issue x.h x.a x.b (fun s => { rd := gRng s x.a ++ gRng s x.b ++ gRng s x.c, wr := gRng s x.d,
                                pops := [(x.a, .read), (x.b, .read), (x.c, .read), (x.d, .write)] }) do
    let a ← rdG x.a
    let b ← rdG x.b
    let c ← rdG x.c
    wrG 4 x.d (Ty.result x.ty (satBit x) (Ty.val x.ty c + Ty.val x.ty a * Ty.val x.ty b))
    pure none
/-- AND (R58). -/
def execAnd (x : SW) : State → Host.Outcome State Fault Refusal :=
  run (scalar2 x 2 false (fun a b => ((Ty.pat x.ty a &&& Ty.pat x.ty b : Nat) : Int)))
/-- OR (R58). -/
def execOr (x : SW) : State → Host.Outcome State Fault Refusal :=
  run (scalar2 x 2 false (fun a b => ((Ty.pat x.ty a ||| Ty.pat x.ty b : Nat) : Int)))
/-- XOR (R58). -/
def execXor (x : SW) : State → Host.Outcome State Fault Refusal :=
  run (scalar2 x 2 false (fun a b => ((Ty.pat x.ty a ^^^ Ty.pat x.ty b : Nat) : Int)))
/-- ANDN (R58). -/
def execAndn (x : SW) : State → Host.Outcome State Fault Refusal := run (scalar2 x 2 false (fun a b => (vAndn x.ty a b : Int)))
/-- SHL (R58). -/
def execShl (x : SW) : State → Host.Outcome State Fault Refusal := run (scalar2 x 2 false (fun a b => (vShl x.ty a b : Int)))
/-- SHR (R58). -/
def execShr (x : SW) : State → Host.Outcome State Fault Refusal := run (scalar2 x 2 false (fun a b => (vShr x.ty a b : Int)))
/-- SAR (R58). -/
def execSar (x : SW) : State → Host.Outcome State Fault Refusal := run (scalar2 x 2 false (vSar x.ty))
/-- ROTL (R58). -/
def execRotl (x : SW) : State → Host.Outcome State Fault Refusal := run (scalar2 x 2 false (fun a b => (vRotl x.ty a b : Int)))
/-- MIN (R58). -/
def execMin (x : SW) : State → Host.Outcome State Fault Refusal :=
  run (scalar2 x 2 false (fun a b => min (Ty.val x.ty a) (Ty.val x.ty b)))
/-- MAX (R58). -/
def execMax (x : SW) : State → Host.Outcome State Fault Refusal :=
  run (scalar2 x 2 false (fun a b => max (Ty.val x.ty a) (Ty.val x.ty b)))

/-- CMP (R60). -/
def execCmp (x : SW) : State → Host.Outcome State Fault Refusal := run <|
  issue x.h x.a x.b (fun s => { rd := gRng s x.a ++ gRng s x.b, wr := qRng x.d, pops := [(x.a, .read), (x.b, .read)] }) do
    let a ← rdG x.a
    let b ← rdG x.b
    wrQ 2 x.d (if bitAt x.mod.toNat 0 then holdsFp x.cnd (f32 (a % 2 ^ 32)) (f32 (b % 2 ^ 32))
      else holdsInt x.cnd (Ty.val x.ty a) (Ty.val x.ty b) (Ty.pat x.ty a) (Ty.pat x.ty b))
    pure none
/-- CMPI (R60). -/
def execCmpi (x : IW) : State → Host.Outcome State Fault Refusal := run <|
  issue x.h x.a x.b (fun s => { rd := gRng s x.a, wr := qRng x.d, pops := [(x.a, .read)] }) do
    let a ← rdG x.a
    let i := Ty.imm x.ty x.imm
    wrQ 2 x.d (holdsInt x.cnd (Ty.val x.ty a) i (Ty.pat x.ty a) (Ty.pat x.ty (ofInt 64 i)))
    pure none
/-- PLOG (R61). -/
def execPlog (x : SW) : State → Host.Outcome State Fault Refusal := run <|
  issue x.h x.a x.b (fun _ => { rd := qRng x.a ++ qRng x.b, wr := qRng x.d }) do
    let a ← rdQ x.a
    let b ← rdQ x.b
    wrQ 2 x.d (plogAt (bits x.mod.toNat 0 4) a b)
    pure none
/-- SEL (R62). -/
def execSel (x : SW) : State → Host.Outcome State Fault Refusal := run <|
  issue x.h x.a x.b (fun s => { rd := gRng s x.a ++ gRng s x.b ++ qRng x.c, wr := gRng s x.d,
                                pops := [(x.a, .read), (x.b, .read), (x.d, .write)] }) do
    let a ← rdG x.a
    let b ← rdG x.b
    let c ← rdQ x.c
    wrG 2 x.d (if c then a else b)
    pure none
/-- MOV (R62). -/
def execMov (x : SW) : State → Host.Outcome State Fault Refusal := run <|
  issue x.h x.a x.b (fun s => {
      rd := if isQ x.a then qRng x.a else gRng s x.a
      wr := if isQ x.d then qRng x.d else gRng s x.d
      pops := (if isQ x.a then [] else [(x.a, .read)]) ++ (if isQ x.d then [] else [(x.d, .write)]) }) do
    if isQ x.a then
      let a ← rdQ x.a
      if isQ x.d then wrQ 2 x.d a else wrG 2 x.d (ofBool a)
    else
      let a ← rdG x.a
      if isQ x.d then wrQ 2 x.d (a != 0) else wrG 2 x.d (Ty.wrap x.ty (Ty.val x.ty a))
    pure none
/-- MOVI (R58, R62). -/
def execMovi (x : IW) : State → Host.Outcome State Fault Refusal := run <|
  issue x.h x.a x.b (fun s => { wr := gRng s x.d, pops := [(x.d, .write)] }) do
    wrG 2 x.d (Ty.wrap x.ty (Ty.imm x.ty x.imm))
    pure none
/-- CLZ (R58). -/
def execClz (x : SW) : State → Host.Outcome State Fault Refusal := run (scalar1 x 2 (fun a => (vClz x.ty a : Int)))
/-- POPC (R58). -/
def execPopc (x : SW) : State → Host.Outcome State Fault Refusal := run (scalar1 x 2 (fun a => (vPopc x.ty a : Int)))

/-- BFX (R64). -/
def execBfx (x : IW) : State → Host.Outcome State Fault Refusal := run <|
  issue x.h x.a x.b (fun s => { rd := gRng s x.a, wr := gRng s x.d, pops := [(x.a, .read), (x.d, .write)] }) do
    let a ← rdG x.a
    let pos := bits x.imm.toNat 0 6
    let len := bits x.imm.toNat 8 7
    let f := bits a pos len
    wrG 2 x.d (if Ty.signed x.ty then ofInt 64 (sx len f) else f)
    pure none
/-- BFI (R64): it reads g[D]; a bound stream in D is read, then written. -/
def execBfi (x : IW) : State → Host.Outcome State Fault Refusal := run <|
  issue x.h x.a x.b (fun s => { rd := gRng s x.a ++ gRng s x.d, wr := gRng s x.d,
                                pops := [(x.a, .read), (x.d, .read), (x.d, .write)] }) do
    let a ← rdG x.a
    let d ← rdG x.d
    wrG 2 x.d (setBits d (bits x.imm.toNat 0 6) (bits x.imm.toNat 8 7) a)
    pure none
/-- LEA (R65): the base is read as register bytes. -/
def execLea (x : MW) : State → Host.Outcome State Fault Refusal := run <|
  issue x.h x.a x.b (fun s => { rd := gRng s x.a ++ (if bitAt x.c.toNat 3 then gRng s x.b else []), wr := gRng s x.d
                                pops := [(x.a, .read)] ++ (if bitAt x.c.toNat 3 then [(x.b, .read)] else []) ++ [(x.d, .write)] }) do
    let a ← rdG x.a
    let i ← if bitAt x.c.toNat 3 then rdG x.b else pure 0
    wrG 2 x.d ((addDisp a x.disp + i * 2 ^ bits x.c.toNat 0 3) % 2 ^ 64)
    pure none
/-- FOLD (R66). -/
def execFold (x : SW) : State → Host.Outcome State Fault Refusal := run (scalar1 { x with ty := .n64 } 2 (fun a => (fold a : Int)))

end Sys2Proof.Machine
end

