-- ==== Sys2Proof/Machine/Memory.lean ====
section
/-! DEFINITION. Loads and stores, scratchpad accesses, prefetch and invalidation, block moves, atomics and reductions
(R96 to R106, R294 to R298). -/
namespace Sys2Proof.Machine

/-- An address of `n` bytes that an instruction accesses besides its streams, for its look-ups (R326). -/
def ownVa (ea n : Nat) (acc : Acc) : List (Nat × Acc) := if ea % n = 0 ∧ ea < 2 ^ 56 then [(ea, acc)] else []
/-- The address `g[A] + disp` of class M at the slot's count. -/
def Slot.ea (s : Slot) (x : MW) : Nat := addDisp (s.g (gNo x.a)) x.disp

/-- A load of `n` bytes at `ea` into D (R98, R99). An output stream in D receives the value as an append (R97). -/
def loadAt (h : Hdr) (d : BitVec 8) (ty : Ty) (kind : Kind) (sco : Sco) (ea : Nat) : M Unit := do
  accessGate
  trapIf (ea % Ty.size ty != 0) 0x14 ea
  let pa ← xlate ea .read
  let places ← resPlaces d
  countLd true
  let id ← newLand .load places
  change (startLoad pa (Ty.size ty) (Ty.signed ty) (kind == .strong) (kind == .strong && sco == .sys) h.ch.toNat id 0 8)

/-- A store of the low bytes of `v` at `ea` (R98, R99, R322). -/
def storeAt (h : Hdr) (ty : Ty) (kind : Kind) (ea v : Nat) : M Unit := do
  accessGate
  trapIf (ea % Ty.size ty != 0) 0x14 ea
  capCheck ea (Ty.size ty)
  let pa ← xlate ea .write
  roomSt
  let l := cellsAt pa (toLE (Ty.size ty) v)
  change (if kind == .strong then strongStore h.ch.toNat l else weakStore h.ch.toNat l)

/-- LD (R97, R98). -/
def execLd (x : MW) : State → Host.Outcome State Fault Refusal := run <|
  issue x.h x.a x.b (fun s => { rd := gPlain x.a, pops := [(x.d, .write)], vas := ownVa (s.ea x) (Ty.size x.ty) .read }) do
    let a ← rdGp x.a
    loadAt x.h x.d x.ty x.kind x.sco (addDisp a x.disp)
    pure none
/-- ST (R97, R98). -/
def execSt (x : MW) : State → Host.Outcome State Fault Refusal := run <|
  issue x.h x.a x.b (fun s => { rd := gPlain x.a ++ gRng s x.b, pops := [(x.b, .read)], vas := ownVa (s.ea x) (Ty.size x.ty) .write }) do
    let a ← rdGp x.a
    let b ← rdG x.b
    storeAt x.h x.ty x.kind (addDisp a x.disp) b
    pure none
/-- The address of LDX and STX (R98). -/
def indexed (a : Nat) (disp : BitVec 32) (b sh : Nat) : Nat := (addDisp a disp + b * 2 ^ sh) % 2 ^ 64
/-- That address for the look-ups; an index that a stream gives is not known before its element has been popped (log entry 55). -/
def indexedVa (s : Slot) (x : MW) (acc : Acc) : List (Nat × Acc) :=
  if (s.stream x.b).isSome then []
  else ownVa (indexed (s.g (gNo x.a)) x.disp (s.g (gNo x.b)) (bits x.c.toNat 0 3)) (Ty.size x.ty) acc
/-- LDX (R97, R98). -/
def execLdx (x : MW) : State → Host.Outcome State Fault Refusal := run <|
  issue x.h x.a x.b (fun s => { rd := gPlain x.a ++ gRng s x.b, pops := [(x.b, .read), (x.d, .write)], vas := indexedVa s x .read }) do
    let a ← rdGp x.a
    let b ← rdG x.b
    loadAt x.h x.d x.ty x.kind x.sco (indexed a x.disp b (bits x.c.toNat 0 3))
    pure none
/-- STX (R97, R98): operands are read in the order A, B, then the data register D. -/
def execStx (x : MW) : State → Host.Outcome State Fault Refusal := run <|
  issue x.h x.a x.b (fun s => { rd := gPlain x.a ++ gRng s x.b ++ gRng s x.d, pops := [(x.b, .read), (x.d, .read)], vas := indexedVa s x .write }) do
    let a ← rdGp x.a
    let b ← rdG x.b
    let d ← rdG x.d
    storeAt x.h x.ty x.kind (indexed a x.disp b (bits x.c.toNat 0 3)) d
    pure none
/-- LDS (R100). -/
def execLds (x : MW) : State → Host.Outcome State Fault Refusal := run <|
  issue x.h x.a x.b (fun _ => { rd := gPlain x.a, pops := [(x.d, .write)] }) do
    let a ← rdGp x.a
    let ea := addDisp a x.disp
    let n := Ty.size x.ty
    accessGate
    trapIf (ea % n != 0) 0x14 ea
    let m ← get
    trapIf (spFails m ea n) 0x15 ea
    let places ← resPlaces x.d
    countLd true
    let l ← spRead ea n
    setLand .load (known (places.zip (extend 8 (Ty.signed x.ty) l)))
    pure none
/-- STS (R100). -/
def execSts (x : MW) : State → Host.Outcome State Fault Refusal := run <|
  issue x.h x.a x.b (fun s => { rd := gPlain x.a ++ gRng s x.b, pops := [(x.b, .read)] }) do
    let a ← rdGp x.a
    let b ← rdG x.b
    let ea := addDisp a x.disp
    let n := Ty.size x.ty
    accessGate
    trapIf (ea % n != 0) 0x14 ea
    let m ← get
    trapIf (spFails m ea n) 0x15 ea
    roomSt
    spWrite ea (toLE n b)
    change ackLater
    pure none

/-- PF (R101): dropped on a translation failure, on a hole and for host memory. -/
def execPf (x : MW) : State → Host.Outcome State Fault Refusal := run <|
  issue x.h x.a x.b (fun _ => { rd := gPlain x.a }) do
    let a ← rdGp x.a
    let ea := addDisp a x.disp
    accessGate
    trapIf (decide (2 ^ 56 ≤ ea)) 0x17 ea
    joinWalk ea
    change (fun m => match quietXlate m.cur ea .read (countTlb m.cur ea m) with
      | (none, m) => m
      | (some pa, m) =>
        let k := paKind m.dev pa
        if k == .hole || k == .host || waitsService m.dev pa || !bitAt x.c.toNat 0 && (filler m m.curCore (pa / 128)).isSome then m
        else addReq m.cur m.sl.ctx (pa / 128 * 128) .sent (.line (!bitAt x.c.toNat 0)) m
          (fun r => { r with mine := wcbBytes m m.curCore, hint := x.h.ch.toNat }))
    pure none
/-- L1INV (R102). -/
def execL1inv (x : ZW) : State → Host.Outcome State Fault Refusal := run <|
  issue x.h 0 0 (fun _ => {}) do
    drain true false false false
    change (fun m => l1Inv m.curCore m)
    pure none
/-- L1INVR (R103): a page without a valid translation is skipped. -/
def execL1invr (x : MW) : State → Host.Outcome State Fault Refusal := run <|
  issue x.h x.a x.b (fun s => { rd := gPlain x.a ++ gRng s x.b, pops := [(x.b, .read)] }) do
    let a ← rdGp x.a
    let b ← rdG x.b
    let ea := addDisp a x.disp
    drain true false false false
    let m ← get
    let vas := if b = 0 ∨ 32768 < b then [] else (List.range ((ea + b - 1) / 128 - ea / 128 + 1)).map (fun i => (ea / 128 + i) * 128)
    match vas.find? (walking m m.curCore m.cx.asid) with
    | some v => joinWalk v
    | none => pure ()
    change (fun m =>
      if b = 0 then m
      else if 32768 < b then l1Inv m.curCore m
      else
        vas.foldl (fun m v => match quietXlate m.cur v .read (countTlb m.cur v m) with
          | (some pa, m) => l1InvLines m.curCore [pa / 128] m
          | (none, m) => m) m)
    pure none
/-- CWAIT (R96). -/
def execCwait (x : IW) : State → Host.Outcome State Fault Refusal := run <|
  issue x.h 0 0 (fun _ => {}) do
    let s ← mine id
    let n := x.imm.toNat
    let c := x.d.toNat
    let v := if c = 0 then s.ocLd else if c = 1 then s.ocSt else if c = 2 then s.ocAt else s.ocLw
    blockWith (decide (n < v)) (fun m => if c = 1 then sendMine m.cur m else m) (.counter c n)
    pure none

/-- The pieces, each of one line, of a translated range of `n` bytes. -/
def linePieces (va : Nat) (pas : List Nat) (n : Nat) : List (Nat × Nat) :=
  if n = 0 then []
  else (List.range ((va + n - 1) / 128 - va / 128 + 1)).map (fun i =>
    let lo := max va ((va / 128 + i) * 128)
    let hi := min (va + n) ((va / 128 + i + 1) * 128)
    (paAt va pas (lo - va), hi - lo))

/-- Reads a translated range in ascending order as weak accesses of the instruction at issue; with `cnt` they are one load (R95). -/
def readRange (cnt : Bool) (va : Nat) (pas : List Nat) (n ch : Nat) : M (List Nat) := do
  let ps := linePieces va pas n
  bringData cnt ch ps
  ps.foldlM (fun acc p => do
    let l ← weakRead p.1 p.2 ch
    pure (acc ++ l)) []

/-- Quads of memory at a translated range. -/
def readQuads (ea : Nat) (pas : List Nat) (n ch : Nat) : M (List Nat) := do
  let l ← readRange false ea pas (8 * n) ch
  pure ((List.range n).map (fun i => ofLE ((l.drop (8 * i)).take 8)))

/-! ## Block moves (R104 to R106): one unit per step, with the restart point after it -/

/-- The unit's bytes at the source: scratchpad bytes, or memory bytes of one or two lines. Those of host memory are read once the stores of
earlier units to their lines have been sent, so that the copy is ascending. -/
def blockRead (ssp : Bool) (a u : Nat) (pas : List Nat) (ch : Nat) : M (List Nat) :=
  if ssp then spRead a u
  else do
    let m ← get
    let lines := ((List.range u).map (fun i => paAt a pas i / 128)).dedup
    match (if m.sl.mid then lines.find? (ownHostStore m m.cur) else none) with
    | some line => block (.hostStore line)
    | none => readRange true a pas u ch

/-- The unit's bytes leave for their destination. -/
def blockStore (dsp : Bool) (d : Nat) (pas : List Nat) (ch : Nat) (l : List Nat) : M Unit := do
  if dsp then
    spWrite d l
    change ackLater
  else change (weakStore ch (l.zipIdx.map (fun b => (paAt d pas b.2, b.1))))

/-- Registers at the restart point after a unit of `u` bytes; the instruction completes when the count is 0. -/
def blockNext (x : MW) (d a b u : Nat) (moveA : Bool) : M (Option Nat) := do
  changeMine (fun s => s.poke (gCells (gNo x.d) ((d + u) % 2 ^ 64) ++ (if moveA then gCells (gNo x.a) ((a + u) % 2 ^ 64) else [])
    ++ gCells (gNo x.b) (b - u)))
  if b = u then pure none else restart

/-- A copy in ascending order, so that a byte written is read by the bytes above it (R105). -/
def copyUp (read : Nat → Nat) (src dst : Nat → Nat) : Nat → Nat → List (Nat × Nat) → List (Nat × Nat)
  | 0, _, acc => acc
  | n + 1, i, acc =>
    let v := (latest acc (src i)).getD (read i)
    copyUp read src dst n (i + 1) (acc ++ [(dst i, v)])

/-- MOVBLK. -/
def execMovblk (x : MW) : State → Host.Outcome State Fault Refusal := run <|
  issue x.h x.a x.b (fun _ => { rd := gPlain x.d ++ gPlain x.a ++ gPlain x.b, wr := gPlain x.d ++ gPlain x.a ++ gPlain x.b }) do
    let d ← rdGp x.d
    let a ← rdGp x.a
    let b ← rdGp x.b
    if b = 0 then pure none
    else
      accessGate
      let ssp := bitAt x.c.toNat 0
      let dsp := bitAt x.c.toNat 1
      let u := min b (128 - d % 128)
      let m ← get
      trapIf (ssp && spFails m a u) 0x15 a
      trapIf (dsp && spFails m d u) 0x15 d
      if dsp then pure () else capCheck d u
      let ps := if ssp then [] else pagesOf a u
      let pd := if dsp then [] else pagesOf d u
      let pas ← xlateAll (ps.map (fun v => (v, Acc.read)) ++ pd.map (fun v => (v, Acc.write)))
      let pasS := pas.take ps.length
      let pasD := pas.drop ps.length
      roomSt
      if ssp then bringData true 0 [] else pure ()
      let bytes ← blockRead ssp a u pasS x.h.ch.toNat
      let src := fun i => if ssp then 2 * spPlace m.curCore (a + i) + 1 else 2 * paAt a pasS i
      let dst := fun i => if dsp then 2 * spPlace m.curCore (d + i) + 1 else 2 * paAt d pasD i
      let out := (copyUp (fun i => bytes.getD i 0) src dst u 0 []).map (·.2)
      blockStore dsp d pasD x.h.ch.toNat out
      blockNext x d a b u true
/-- FILLBLK. -/
def execFillblk (x : MW) : State → Host.Outcome State Fault Refusal := run <|
  issue x.h x.a x.b (fun _ => { rd := gPlain x.d ++ gPlain x.a ++ gPlain x.b, wr := gPlain x.d ++ gPlain x.b }) do
    let d ← rdGp x.d
    let a ← rdGp x.a
    let b ← rdGp x.b
    if b = 0 then pure none
    else
      accessGate
      let dsp := bitAt x.c.toNat 1
      let u := min b (128 - d % 128)
      let m ← get
      trapIf (dsp && spFails m d u) 0x15 d
      if dsp then pure () else capCheck d u
      let pas ← xlateAll (if dsp then [] else (pagesOf d u).map (fun v => (v, Acc.write)))
      roomSt
      blockStore dsp d pas x.h.ch.toNat ((List.range u).map (fun i => a / 2 ^ (8 * ((d + i) % 8)) % 256))
      blockNext x d a b u false

/-! ## Atomics and reductions (R294 to R298) -/

/-- The scope rule of R294 for translated addresses. -/
def scopeOk (sco : Sco) (k : PaKind) : Bool :=
  match k with
  | .hbm => true
  | .pooled => true
  | .peer => sco == .sys
  | _ => false

/-- The request of an atomic or reduction goes to the home slice of `pa`, or to the cluster unit (R294, R297), after the core's own buffered
stores to its bytes; a hint moves the line's L1 copy (R14). -/
def sendAtomic (x : MW) (op : AtomOp) (pa b : Nat) (land : Option Nat) (inv : Bool) (m : Mach) : Mach :=
  let m := sendBytes m.curCore pa (Ty.size x.ty) m
  let m := if x.h.ch = 1 ∨ x.h.ch = 2 then m.updCore m.curCore (fun c => l1Touch c (pa / 128) x.h.ch.toNat) else m
  addReq m.cur m.sl.ctx pa .sent (.atomic op x.ty b land inv x.sco) m

/-- An atomic or reduction at scope .oct is performed at the bank (R297); its completion returns later. -/
def bankAtomic (x : MW) (op : AtomOp) (ea old b : Nat) (land : Option Nat) (m : Mach) : Mach :=
  let n := Ty.size x.ty
  let m := storeSp (cellsAt (spPlace m.curCore ea) (toLE n (atomicNew op x.ty old (b % 2 ^ (8 * n))))) m
  let m := match land with
    | some id => fillLand m.cur id 0 (toLE 8 (Ty.wrap x.ty old)) m
    | none => m
  addReq m.cur m.sl.ctx 0 .done (.atomic op x.ty b land false .oct) m

/-- The pending write that receives what an ATOM returns. -/
def atomicLand (ret : Bool) (places : List Nat) : M (Option Nat) := do
  if ret then
    let id ← newLand .atomic places
    pure (some id)
  else pure none

/-- An atomic (`ret`) or reduction at its point (R294, R296 to R298): `b` is the operand. -/
def atomicAt (x : MW) (op : AtomOp) (ret : Bool) (ea b : Nat) : M Unit := do
  accessGate
  let n := Ty.size x.ty
  trapIf (ea % n != 0) 0x14 ea
  if x.sco == .oct then
    let m ← get
    trapIf (spFails m ea n) 0x15 ea
    if ret then drain true true true true else pure ()
    let places ← if ret then resPlaces x.d else pure []
    countAt
    let l ← spRead ea n
    let land ← atomicLand ret places
    change (bankAtomic x op ea (ofLE l) b land)
  else
    capCheck ea n
    let pa ← xlate ea .write
    let m ← get
    trapIf (!scopeOk x.sco (paKind m.dev pa)) 0x19 0
    if ret then drain true true true true else pure ()
    let places ← if ret then resPlaces x.d else pure []
    countAt
    let land ← atomicLand ret places
    change (sendAtomic x op pa b land (ret && (x.sco == .dev || x.sco == .sys)))

/-- The address of an atomic for its look-ups. -/
def atomicVa (s : Slot) (x : MW) : List (Nat × Acc) := if x.sco == .oct then [] else ownVa (s.ea x) (Ty.size x.ty) .write

/-- ATOM with operand B. -/
def atomOp (x : MW) (op : AtomOp) : M Unit :=
  issue x.h x.a x.b (fun s => {
      rd := gPlain x.a ++ gRng s x.b, pops := [(x.b, .read), (x.d, .write)], nondet := true, vas := atomicVa s x }) do
    let a ← rdGp x.a
    let b ← rdG x.b
    atomicAt x op true (addDisp a x.disp) b
    pure none
/-- ATOM.ADD (R295). -/
def execAtomAdd (x : MW) : State → Host.Outcome State Fault Refusal := run (atomOp x .add)
/-- ATOM.MIN (R295). -/
def execAtomMin (x : MW) : State → Host.Outcome State Fault Refusal := run (atomOp x .min)
/-- ATOM.MAX (R295). -/
def execAtomMax (x : MW) : State → Host.Outcome State Fault Refusal := run (atomOp x .max)
/-- ATOM.AND (R295). -/
def execAtomAnd (x : MW) : State → Host.Outcome State Fault Refusal := run (atomOp x .and)
/-- ATOM.OR (R295). -/
def execAtomOr (x : MW) : State → Host.Outcome State Fault Refusal := run (atomOp x .or)
/-- ATOM.XOR (R295). -/
def execAtomXor (x : MW) : State → Host.Outcome State Fault Refusal := run (atomOp x .xor)
/-- ATOM.XCHG (R295). -/
def execAtomXchg (x : MW) : State → Host.Outcome State Fault Refusal := run (atomOp x .xchg)
/-- ATOM.CAS (R295): operands are read in the order A, B, C. -/
def execAtomCas (x : MW) : State → Host.Outcome State Fault Refusal := run <|
  issue x.h x.a x.b (fun s => {
      rd := gPlain x.a ++ gRng s x.b ++ gRng s x.c, pops := [(x.b, .read), (x.c, .read), (x.d, .write)]
      nondet := true, vas := atomicVa s x }) do
    let a ← rdGp x.a
    let b ← rdG x.b
    let c ← rdG x.c
    atomicAt x (.cas c) true (addDisp a x.disp) b
    pure none
/-- ATOM.INC (R295). -/
def execAtomInc (x : MW) : State → Host.Outcome State Fault Refusal := run <|
  issue x.h x.a x.b (fun s => { rd := gPlain x.a, pops := [(x.d, .write)], nondet := true, vas := atomicVa s x }) do
    let a ← rdGp x.a
    atomicAt x .inc true (addDisp a x.disp) 0
    pure none
/-- ATOM.FADD (R295). -/
def execAtomFadd (x : MW) : State → Host.Outcome State Fault Refusal := run (atomOp x .fadd)

/-- RED with operand B. -/
def redOp (x : MW) (op : AtomOp) (nondet : Bool) : M Unit :=
  issue x.h x.a x.b (fun s => { rd := gPlain x.a ++ gRng s x.b, pops := [(x.b, .read)], nondet := nondet, vas := atomicVa s x }) do
    let a ← rdGp x.a
    let b ← rdG x.b
    atomicAt x op false (addDisp a x.disp) b
    pure none
/-- RED.ADD (R295). -/
def execRedAdd (x : MW) : State → Host.Outcome State Fault Refusal := run (redOp x .add false)
/-- RED.MIN (R295). -/
def execRedMin (x : MW) : State → Host.Outcome State Fault Refusal := run (redOp x .min false)
/-- RED.MAX (R295). -/
def execRedMax (x : MW) : State → Host.Outcome State Fault Refusal := run (redOp x .max false)
/-- RED.LOG (R295). -/
def execRedLog (x : MW) : State → Host.Outcome State Fault Refusal :=
  run (redOp x (match bits x.c.toNat 0 2 with
    | 0 => .and
    | 1 => .or
    | _ => .xor) false)
/-- RED.FADD (R295, R296). -/
def execRedFadd (x : MW) : State → Host.Outcome State Fault Refusal := run (redOp x .fadd true)

/-! ## Writer capabilities (R321 to R323) -/

/-- May a write of an engine command go to the bytes of the granule that starts at virtual address `g` (R323)? -/
def cmdWrites (c : Cmd) (g : Nat) : Bool := c.wvas.any (fun r => decide (r.1 < g + 4096) && decide (g < r.1 + r.2))

/-- Does a write to the granule of `va`, at `pa`, by a slot of the context on the core remain outstanding (R323)? -/
def granuleBusy (m : Mach) (c core va pa : Nat) : Bool :=
  (m.core core).wcb.any (fun w => w.ctx == c && w.line * 128 / 4096 == pa / 4096)
  || m.reqs.any (fun r => r.ctx == c && coreOf r.slot == core && r.pa / 4096 == pa / 4096 && (match r.kind with
    | .store l _ => !l.isEmpty
    | .atomic _ _ _ _ _ _ => true
    | .law _ _ _ _ _ _ _ _ => true
    | _ => false))
  || m.slots.any (fun e => e.2.ctx == c && coreOf e.1 == core && e.2.il.any (fun l => l.cells.any (fun p =>
      decide (memBase ≤ p.1) && (p.1 - memBase) % 2 ^ 60 / 4096 == pa / 4096)))
  || m.cmds.any (fun x => x.ctx == c && coreOf x.slot == core && cmdWrites x (va / 4096 * 4096))

/-- CAPGIVE and CAPTAKE count in oc.at until they complete (R323). -/
def atLater (m : Mach) : Mach := addReq m.cur m.sl.ctx 0 .done (.atomic .add .i64 0 none false .oct) m

/-- A table entry of the context's writer capabilities is rewritten (R321). -/
def setCap (e v : Nat) (m : Mach) : Mach := engStore (cellsAt e (toLE 2 v)) m

/-- CAPGIVE (R323). -/
def execCapgive (x : MW) : State → Host.Outcome State Fault Refusal := run <|
  issue x.h x.a x.b (fun s => { rd := gPlain x.a ++ gRng s x.b, pops := [(x.b, .read)], vas := ownVa (s.ea x) 1 .read }) do
    let a ← rdGp x.a
    let b ← rdG x.b
    let va := addDisp a x.disp
    accessGate
    let m ← get
    let c := m.cx
    match capEntryAt c va with
    | none => trap 0x18 0
    | some e =>
      trapIf (decide (2 ^ 14 ≤ b) || !(List.range 4).any (fun i => (m.slot (keyOf b i)).ctx == m.sl.ctx && (m.slot (keyOf b i)).run != .free)) 0x18 0
      let pa ← xlate va .read
      blockWith (granuleBusy m m.sl.ctx m.curCore va pa)
        (fun m => sendWcb m.curCore (fun w => w.ctx == m.sl.ctx && w.line * 128 / 4096 == pa / 4096) m) (.granule va pa)
      trapIf (m.mem.num e 2 != 2 ^ 14 + m.curCore) 0x40 va
      countAt
      change (fun m => atLater (setCap e (2 ^ 15 + b) m))
      pure none
/-- CAPTAKE (R323). -/
def execCaptake (x : MW) : State → Host.Outcome State Fault Refusal := run <|
  issue x.h x.a x.b (fun _ => { rd := gPlain x.a }) do
    let a ← rdGp x.a
    let va := addDisp a x.disp
    accessGate
    let m ← get
    match capEntryAt m.cx va with
    | none => trap 0x18 0
    | some e =>
      let _ ← xlate va .read
      let v := m.mem.num e 2
      blockIf (v != 2 ^ 15 + m.curCore && v != 2 ^ 14 + m.curCore) (.capability e m.curCore)
      countAt
      change (fun m => l1Inv m.curCore (atLater (setCap e (2 ^ 14 + m.curCore) m)))
      pure none
/-- CAPQ (R323). -/
def execCapq (x : MW) : State → Host.Outcome State Fault Refusal := run <|
  issue x.h x.a x.b (fun _ => { rd := gPlain x.a, pops := [(x.d, .write)] }) do
    let a ← rdGp x.a
    let va := addDisp a x.disp
    accessGate
    let m ← get
    match capEntryAt m.cx va with
    | none => wrLand .ready x.d 0
    | some e =>
      let _ ← xlate va .read
      let v := m.mem.num e 2
      wrLand .ready x.d (v + (if v = 2 ^ 14 + m.curCore then 2 ^ 16 else 0))
    pure none

end Sys2Proof.Machine
end

