-- ==== Sys2Proof/Machine/Law.lean ====
section
/-! DEFINITION. Law instructions and the steps of law units (R135 to R156). -/
namespace Sys2Proof.Machine

/-- Bit W128 and bit NR of mod8 (R138). -/
def w128Of (x : MW) : Bool := bitAt x.c.toNat 0
def nrOf (x : MW) : Bool := bitAt x.c.toNat 1

/-- The memory that a law instruction's scope allows (R135). -/
def lawScope (sco : Sco) (k : PaKind) : Option Nat :=
  if k == .host || k == .peer && sco != .sys then some 0x1B else anyMemory k

/-- The place of a law word, with the traps of R136 that do not concern its contents; `peek` of an operation that writes nothing. -/
def lawPlace (sco : Sco) (w128 peek : Bool) (ea : Nat) : M LawAt := do
  accessGate
  let n := lawSize w128
  trapIf (ea % n != 0) 0x14 ea
  if sco == .oct then
    let m ← get
    trapIf (spFails m ea n) 0x15 ea
    pure ⟨true, spPlace m.curCore ea, w128⟩
  else
    let pas ← xlateScoped (lawScope sco) [(ea, if peek then .read else .write, none)]
    pure ⟨false, pas.headD 0, w128⟩

/-- Is the descriptor's domain barred to the context: free-running in deterministic mode (R317)? -/
def domBarred (c : Ctx) (o : Option Desc) : Bool := c.det && o.any (fun d => (c.stepped.find d.dom).isNone)

/-- The check of the word at acceptance (R119, R136, R322), the domain's before the others (R39): its domain must be stepped in deterministic
mode, LWDISARM's too (R317); the granule of a word to be written must be held; and the word must be good, which LWDISARM does not ask. -/
def lawCheck (op : LawOp) (p : LawAt) (ea b b1 : Nat) : M Unit := do
  let m ← get
  let o := match op with
    | .set => setDesc m.cx p.w128 b b1
    | _ => lawDesc m.cx p.w128 (lawRead m p)
  trapIf (domBarred m.cx o) 0x04 0
  if p.oct || op == .peek then pure () else capCheck ea (lawSize p.w128)
  trapIf (op != .disarm && o.isNone) 0x1C 0

def lawReq (m : Mach) (op : LawOp) (p : LawAt) (named b b1 : Nat) : LawReq := ⟨m.sl.ctx, m.cur, op, p, named, b, b1, 0, none⟩

/-- The pending write that receives what a law operation returns. -/
def lawLand (result : Bool) (places : List Nat) : M (Option Nat) := do
  if result then
    let id ← newLand .law places
    pure (some id)
  else pure none

/-- A law operation that leaves its unit at once; its completion returns later, when the `lines` leave L1. -/
def lawDone (op : LawOp) (w128 : Bool) (b b1 : Nat) (land : Option Nat) (named : Nat) (lines : List Nat) (m : Mach) : Mach :=
  addReq m.cur m.sl.ctx 0 .done (.law op w128 b b1 land named true none) m (fun r => { r with val := lines })

/-- A law operation enters its law unit (R136, R137): at the octet it is performed at once; a home slice, where its line has had its turn,
holds it in its queue, in the entry that the line's request had (R9). A request to another device carries the context's descriptors (R135). -/
def startLaw (op : LawOp) (p : LawAt) (ea b b1 : Nat) (land : Option Nat) (m : Mach) : Mach :=
  if p.oct then
    let r := lawCore (lawReq m op p ea b b1) m
    let m := match land with
      | some id => fillLand m.cur id 0 (toLE 16 r.1) r.2
      | none => r.2
    lawDone op p.w128 b b1 land ea [] m
  else
    countHeld (homeOf p.place) m.sl.ctx (addReq m.cur m.sl.ctx p.place .queued
      (.law op p.w128 b b1 land ea false (if paKind m.dev p.place == .peer then some m.cx.laws else none)) m (fun r => { r with since := m.cyc }))

/-- A scalar law operation at its point (R136, R137). Its result, if any, goes to `res` registers from D. -/
def lawAt (x : MW) (op : LawOp) (ea b b1 : Nat) (result : Bool) : M Unit := do
  let w128 := w128Of x
  let m ← get
  trapIf (op == .set && domBarred m.cx (setDesc m.cx w128 b b1)) 0x04 0
  let p ← lawPlace x.sco w128 (op == .peek) ea
  if p.oct then pure () else bringLaw [(p.place, lawSize w128)]
  lawCheck op p ea b b1
  let places ← if !result then pure []
    else if w128 && op != .arm then (do
      let l ← resPlaces x.d
      let h ← resPlaces (x.d + 1)
      pure (l ++ h))
    else resPlaces x.d
  countLw
  let land ← lawLand result places
  change (startLaw op p ea b b1 land)

/-- The word's address for its look-ups. -/
def lawVa (s : Slot) (x : MW) (op : LawOp) : List (Nat × Acc) :=
  if x.sco == .oct then [] else ownVa (s.ea x) (lawSize (w128Of x)) (if op == .peek then .read else .write)

/-- Class M law instruction with operands A and, when `useB`, B; `wide` also reads B + 1 (R138). -/
def lawOp (x : MW) (op : LawOp) (useB wide result : Bool) : M Unit :=
  issue x.h x.a x.b (fun s => {
      rd := gPlain x.a ++ (if useB then gRng s x.b else []) ++ (if wide then gRng s (x.b + 1) else [])
      pops := (if useB then [(x.b, .read)] else []) ++ (if wide then [(x.b + 1, .read)] else [])
        ++ (if result then [(x.d, .write)] else []) ++ (if result && w128Of x && op != .arm then [(x.d + 1, .write)] else [])
      vas := lawVa s x op
      barred := fun c => op == .set && (s.stream x.b).isNone && !(wide && (s.stream (x.b + 1)).isSome)
        && domBarred c (setDesc c (w128Of x) (s.g (gNo x.b)) (s.g (gNo x.b + 1))) }) do
    let a ← rdGp x.a
    let b ← if useB then rdG x.b else pure 0
    let b1 ← if wide then rdG (x.b + 1) else pure 0
    lawAt x op (addDisp a x.disp) b b1 result
    pure none

/-- LWADV (R139). -/
def execLwadv (x : MW) : State → Host.Outcome State Fault Refusal := run (lawOp x .adv false false (!nrOf x))
/-- LWADD (R139). -/
def execLwadd (x : MW) : State → Host.Outcome State Fault Refusal := run (lawOp x .add true false (!nrOf x))
/-- LWSET (R139). -/
def execLwset (x : MW) : State → Host.Outcome State Fault Refusal := run (lawOp x .set true (w128Of x) false)
/-- LWMAX (R139). -/
def execLwmax (x : MW) : State → Host.Outcome State Fault Refusal := run (lawOp x .max true false (!nrOf x))
/-- LWARM (R146). -/
def execLwarm (x : MW) : State → Host.Outcome State Fault Refusal := run (lawOp x .arm false false true)
/-- LWDISARM (R150). -/
def execLwdisarm (x : MW) : State → Host.Outcome State Fault Refusal := run (lawOp x .disarm false false false)
/-- LWPEEK (R139). -/
def execLwpeek (x : MW) : State → Host.Outcome State Fault Refusal := run (lawOp x .peek false false true)
/-- LWCAS (R139). -/
def execLwcas (x : MW) : State → Host.Outcome State Fault Refusal := run (lawOp x .cas true false true)
/-- LWXCH (R139). -/
def execLwxch (x : MW) : State → Host.Outcome State Fault Refusal := run (lawOp x .xch true false true)
/-- LWCLR (R139). -/
def execLwclr (x : MW) : State → Host.Outcome State Fault Refusal := run (lawOp x .clr false false (!nrOf x))

/-- Is the request the next that its slice performs (R93)? -/
def atHead (m : Mach) (r : Req) : Bool :=
  match m.reqs.find? (fun x => x.accepted && homeOf x.pa == homeOf r.pa && !(x.st == .cxl && x.pa / 128 != r.pa / 128)) with
  | some x => x.id == r.id
  | none => false

/-- LAW_OP_PERFORM (R113, R137, R139): the unit performs an accepted operation. -/
def execLawOpPerform (id : Nat) : State → Host.Outcome State Fault Refusal := device do
  let m ← get
  let r ← need (m.reqs.find? (fun r => r.id == id && r.st == .queued))
  enabledIf (atHead m r)
  match r.kind with
  | .law op w128 b b1 land named oct laws =>
    change (fun m =>
      let m := useLine (r.pa / 128) 0 (if needsLine m r then bringLine (r.pa / 128) m else m)
      let y := lawCore ⟨r.ctx, r.slot, op, ⟨oct, r.pa, w128⟩, named, b, b1, 0, laws⟩ m
      let m := match land with
        | some l => fillLand r.slot l 0 (toLE 16 y.1) y.2
        | none => y.2
      pumpSlice (homeOf r.pa) (setReq { r with st := .done } m))
  | _ => notEnabled

/-- LAW_OP_COMPLETE (R136, R137): the result lands, oc.lw is decremented, and the lines of its words leave the issuing core's L1. -/
def execLawOpComplete (id : Nat) : State → Host.Outcome State Fault Refusal := device do
  let m ← get
  let r ← need (m.reqs.find? (fun r => r.id == id && r.st == .done))
  match r.kind with
  | .law _ _ _ _ land _ oct _ =>
    let fin := fun (m : Mach) =>
      let m := m.updSlot r.slot (fun s => { s with ocLw := s.ocLw - 1 })
      dropReq id (l1InvLines (coreOf r.slot) (if oct then r.val else [r.pa / 128]) m)
    match land with
    | some l =>
      let y ← need (canLand l (m.slot r.slot).il)
      change (fun m => fin (landAt r.slot y m))
    | none => change fin
  | _ => notEnabled

/-- EPHEMERIS_FIRE (R116, R147): the earliest due entry of a word fires. `u` is twice the slice's number, or twice the octet's plus one. -/
def execEphemerisFire (u place : Nat) : State → Host.Outcome State Fault Refusal := device do
  let m ← get
  let oct := u % 2 == 1
  let l := if oct then (m.octet (u / 2)).eph else (m.slice (u / 2)).eph
  let e ← need (earliest ((l.filter (fun e => e.place == place && decide (e.time ≤ domainTime m (m.ctx e.ctx) e.domain)))))
  change (fire ⟨oct, place, e.w128⟩ e)

/-! ## Descriptors, lanes and sweeps -/

/-- LWDSC (R141, R123): it installs the descriptor at every law unit of the context and completes. -/
def execLwdsc (x : MW) : State → Host.Outcome State Fault Refusal := run <|
  issue x.h x.a x.b (fun _ => { rd := gPlain x.a }) do
    let a ← rdGp x.a
    let ea := addDisp a x.disp
    accessGate
    trapIf (ea % 8 != 0) 0x14 ea
    let pas ← xlateAll ((pagesOf ea 32).map (fun v => (v, Acc.read)))
    let s ← mine id
    blockIf (decide (255 ≤ s.ocLw)) (.counter 3 254)
    let q ← readQuads ea pas 4 x.h.ch.toNat
    trapIf (!Desc.ok q) 0x1D 0
    change (fun m => m.updCtx m.sl.ctx (fun c => { c with laws := c.laws.put x.c.toNat q }))
    pure none

/-- The checks of the lanes' words, in lane order (R136, R142, R322): a barred domain, then, in memory, a granule that the core does not hold. -/
def laneChecks (l : List (Nat × LawAt)) : M Unit := do
  let m ← get
  match l.findSome? (fun e =>
    if domBarred m.cx (lawDesc m.cx false (lawRead m e.2)) then some (0x04, 0)
    else if e.2.oct then none else (capFails m m.cx m.curCore e.1 8).map (fun a => (0x40, a))) with
  | some t => trap t.1 t.2
  | none => pure ()

/-- The places of the lanes of VLWADV and VLWADD; the first lane that fails decides (R142), so the words of the lanes before the first
whose address fails are checked before it traps. -/
def lanePlaces (sco : Sco) (eas : List Nat) : M (List LawAt) := do
  accessGate
  let m ← get
  if sco == .oct then
    let fails := fun ea => if ea % 8 ≠ 0 then some (0x14, ea) else if spFails m ea 8 then some (0x15, ea) else none
    let at_ := fun ea => (⟨true, spPlace m.curCore ea, false⟩ : LawAt)
    laneChecks ((eas.takeWhile (fun ea => (fails ea).isNone)).map (fun ea => (ea, at_ ea)))
    match eas.findSome? fails with
    | some t => trap t.1 t.2
    | none => pure (eas.map at_)
  else
    let l := eas.map (fun ea => (ea, Acc.write, if ea % 8 ≠ 0 then some (0x14, ea) else none))
    let pre := ((l.map (meetAt (lawScope sco) m)).map metPa).takeWhile Option.isSome |>.map (·.getD 0)
    blockIf (pre.any (waitsService m.dev)) .service
    bringLaw (pre.map (fun pa => (pa, 8)))
    laneChecks (List.zip eas (pre.map (fun pa => ⟨false, pa, false⟩)))
    let pas ← xlateScoped (lawScope sco) l
    pure (pas.map (fun pa => ⟨false, pa, false⟩))

/-- Every lane is a request at its home slice; the first one of each line has been counted (R7). -/
def countLanes (lines : List Nat) (m : Mach) : Mach :=
  (lines.foldl (fun (r : List Nat × Mach) line =>
    (line :: r.1, if r.1.contains line then countAtOnce (homeOf (128 * line)) m.sl.ctx r.2 else r.2)) ([], m)).2

/-- Every lane's word in lane order, performed at one present; a bad word is left and its lane answered. -/
def performLanes (op : LawOp) : List (Nat × LawAt × Nat × Nat) → List (Nat × Nat) → List Nat → Mach → List (Nat × Nat) × List Nat × Mach
  | [], out, bad, m => (out, bad, m)
  | (lane, p, named, v) :: l, out, bad, m =>
    if (lawDesc m.cx false (lawRead m p)).isNone then performLanes op l out (bad ++ [lane]) m
    else
      let r := lawCore (lawReq m op p named v 0) m
      performLanes op l (out ++ [(lane, r.1 % 2 ^ 32)]) bad r.2

/-- The lanes' results are known, the words' lines leave L1, and the operation completes as one (R142). -/
def finishLanes (op : LawOp) (id : Nat) (bytes lines : List Nat) (m : Mach) : Mach :=
  lawDone op false 0 0 (some id) 0 lines (l1InvLines m.curCore lines (fillLand m.cur id 0 bytes m))

/-- The register bytes of lanes that law operations return. -/
def laneResults (s : Slot) (b : BitVec 8) (l : List (Nat × Nat)) : List (Nat × Nat) :=
  (l.map (fun e => cellsAt (s.vbyte (vNo b) e.1) (toLE 4 e.2))).flatten

/-- The word has completed for its good lanes when it traps for a bad one (R142). -/
def badLane (h : Hdr) (cells : List (Nat × Nat)) (lines : List Nat) (m : Mach) : Mach :=
  passed h ((l1InvLines m.curCore lines m).updSlot m.cur (fun s => { s.poke cells with ocLw := s.ocLw - 1 }))

/-- VLWADV and VLWADD (R142). Its lanes are performed together in lane order once every word's line has had its turn at its home slice. -/
def lawLanes (x : MW) (op : LawOp) (cReg : Option (BitVec 8)) (dest : Bool) : M Unit :=
  issue x.h x.a x.b (fun s => {
      rd := gPlain x.a ++ vRng s x.b s.vlanes ++ (match cReg with
        | some c => vRng s c s.vlanes
        | none => []) }) do
    let a ← rdGp x.a
    let s ← mine id
    let n := s.vlanes
    vCheck x.b s.vcap
    match cReg with
    | some c => vCheck c s.vcap
    | none => pure ()
    if dest then vCheck x.d s.vcap else pure ()
    trapIf (s.vew != 4) 0x10 0
    let lanes := List.range n
    let eas := lanes.map (fun l => (addDisp a x.disp + 8 * s.elem (s.vbyte (vNo x.b) l) 32) % 2 ^ 64)
    let ps ← lanePlaces x.sco eas
    countLw
    let vals := lanes.map (fun l => match cReg with
      | some c => s.elem (s.vbyte (vNo c) l) 32
      | none => 0)
    let m ← get
    let r := performLanes op (List.zip lanes (List.zip ps (List.zip eas vals))) [] [] m
    let slices := (ps.filter (fun p => !p.oct)).map (fun p => p.place / 128)
    change (fun _ => countLanes slices r.2.2)
    let cells := laneResults s x.d r.1
    let lines := slices.dedup
    match r.2.1 with
    | [] =>
      let id ← newLand .law (if dest then cells.map (·.1) else [])
      change (finishLanes op id (if dest then cells.map (·.2) else []) lines)
      pure none
    | bad :: _ =>
      halt (fun m =>
        let m := badLane x.h (if dest then cells else []) lines m
        .trapAt m 0x1C bad (nextPc m.sl.pc))

/-- VLWADV (R142). -/
def execVlwadv (x : MW) : State → Host.Outcome State Fault Refusal := run (lawLanes x .adv none true)
/-- VLWADD (R142). -/
def execVlwadd (x : MW) : State → Host.Outcome State Fault Refusal := run (lawLanes x .add (some x.c) (x.d != 0))

/-- The place of the word that LWSCAN looks at, checked. Only a valid one is written, so only then the right to write it is checked (R152,
R322), after its domain (R39). -/
def scanPlace (sco : Sco) (w128 : Bool) (ea : Nat) : M LawAt := do
  let p ← lawPlace sco w128 true ea
  if p.oct then pure () else bringLaw [(p.place, lawSize w128)]
  let m ← get
  if (lawDesc m.cx w128 (lawRead m p)).isNone then pure p
  else
    lawCheck .adv p ea 0 0
    if sco == .oct then pure p else lawPlace sco w128 false ea

/-- LWSCAN (R152): one word per step, with the restart point after it; each word is a request of its own (R7). -/
def execLwscan (x : MW) : State → Host.Outcome State Fault Refusal := run <|
  issue x.h x.a x.b (fun _ => { rd := gPlain x.a ++ gPlain x.b, wr := gPlain x.a ++ gPlain x.b, priv := true }) do
    let a ← rdGp x.a
    let b ← rdGp x.b
    if b = 0 then pure none
    else
      let w128 := w128Of x
      let p ← scanPlace x.sco w128 a
      let m ← get
      match lawDesc m.cx w128 (lawRead m p) with
      | none => pure ()
      | some _ =>
        change (fun m =>
          let op := if (LawWord.of w128 (lawRead m p)).a && (ephFind m p m.sl.ctx).isNone then LawOp.arm else LawOp.adv
          let m := (lawCore (lawReq m op p a 0 0) m).2
          if p.oct then m else l1InvLines m.curCore [p.place / 128] m)
      changeMine (fun s => s.poke (gCells (gNo x.a) ((a + lawSize w128) % 2 ^ 64) ++ gCells (gNo x.b) (b - 1)))
      changeMine (fun s => { s with got := [] })
      if b = 1 then pure none else restart

/-! ## Time domains (R131, R153 to R155) -/

/-- LWDOM (R153). -/
def execLwdom (x : IW) : State → Host.Outcome State Fault Refusal := run <|
  issue x.h 0 0 (fun _ => {}) do
    let m ← get
    let i := x.imm.toNat
    let d := bits i 0 4
    let core := bits i 5 14
    let c := m.cx
    if bitAt i 4 then
      change (fun m => m.updCtx m.sl.ctx (fun c => { c with
        desig := c.desig.put d core
        stepped := if (c.stepped.find d).isSome then c.stepped else c.stepped.put d (m.sid / 2 ^ 20 * 2 ^ 20) }))
    else
      match c.stepped.find d with
      | some t =>
        blockIf (decide (m.sid < t)) (.domain m.sl.ctx d)
        change (fun m => m.updCtx m.sl.ctx (fun c => { c with desig := c.desig.del d, stepped := c.stepped.del d }))
      | none => pure ()
    pure none

/-- The unit and entry of the earliest firing of a domain with its time in `(lo, hi]`. -/
def nextFiring (m : Mach) (c d lo hi : Nat) : Option (Bool × EphEntry) :=
  let es := (m.octets.map (fun o => o.2.eph.map (fun e => (true, e)))).flatten ++ (m.slices.map (fun o => o.2.eph.map (fun e => (false, e)))).flatten
  (es.filter (fun e => e.2.ctx == c && e.2.domain == d && decide (lo < e.2.time) && decide (e.2.time ≤ hi))).foldl
    (fun r e => match r with
      | none => some e
      | some x => if e.2.time < x.2.time then some e else some x) none

/-- The firings of a step, in ascending time order (R154). Each one moves its entry on or removes it. -/
def stepFirings (c d lo hi : Nat) : Nat → Mach → Mach
  | 0, m => m
  | fuel + 1, m => match nextFiring m c d lo hi with
    | none => m
    | some e => stepFirings c d lo hi fuel (fire ⟨e.1, e.2.place, e.2.w128⟩ e.2 m)

/-- LWSTEP (R154). -/
def execLwstep (x : IW) : State → Host.Outcome State Fault Refusal := run <|
  issue x.h 0 0 (fun _ => {}) do
    let m ← get
    let d := x.imm.toNat
    let c := m.sl.ctx
    match m.cx.stepped.find d with
    | none => trap 0x1E 0
    | some t =>
      trapIf (m.cx.desig.find d != some m.curCore) 0x1F 0
      change (fun m =>
        let m := stepFirings c d t (t + 2 ^ 20) (2 ^ 64) m
        m.updCtx c (fun x => { x with stepped := x.stepped.put d ((t + 2 ^ 20) % 2 ^ 64) }))
      pure none

/-- LWTIME (R155). -/
def execLwtime (x : SW) : State → Host.Outcome State Fault Refusal := run <|
  issue x.h x.a x.b (fun s => {
      wr := gRng s x.d, pops := [(x.d, .write)], barred := fun c => (c.stepped.find (bits x.mod.toNat 0 4)).isNone }) do
    let m ← get
    let d := bits x.mod.toNat 0 4
    wrG 2 x.d (domainTime m m.cx d / 2 ^ bits x.mod.toNat 4 6)
    pure none

/-- EPHSTAT (R151). -/
def execEphstat (x : YW) : State → Host.Outcome State Fault Refusal := run <|
  issue x.h x.a x.b (fun _ => { pops := [(x.d, .write)], nondet := true }) do
    let m ← get
    let i := x.imm.toNat
    let c := m.sl.ctx
    let u := if bitAt i 0 then (let s := m.slice (bits i 1 8); (s.eph, s.refused)) else (let o := m.octet (octetOf m.curCore); (o.eph, o.refused))
    wrLand .ready x.d (u.1.length + (u.1.filter (fun e => e.ctx == c)).length * 2 ^ 16 + u.2.get 0 c * 2 ^ 32)
    pure none

end Sys2Proof.Machine
end

