-- ==== Sys2Proof/Machine/Fetch.lean ====
section
/-! DEFINITION. Instruction fetch through the octet's instruction cache (R11, R63, R79, R80). -/
namespace Sys2Proof.Machine

/-- Lines that the instruction cache of an octet holds (R1: 64 KiB). -/
def icLines : Nat := 512

/-- The line as the octet's cache holds it. -/
def icFind (m : Mach) (core line : Nat) : Option L1Line := (m.octet (octetOf core)).icache.find? (·.line == line)

/-- A full cache loses the line that came first, but none that the same fetch reads. -/
def icTrim (keep : List Nat) (l : List L1Line) : List L1Line :=
  if l.length ≤ icLines then l else (l.reverse.eraseP (fun x => !keep.contains x.line)).reverse

/-- The cache with a line, read as a load of the core would read it (R79); the lines of the fetch, `keep`, stay. Host memory is read over its
link (R351). -/
def icFill (keep : List Nat) (core line : Nat) (m : Mach) : Mach :=
  if (icFind m core line).isSome then m
  else
    let m := if paKind m.dev (128 * line) == .host then hostBus (128 * line) m else if present m (128 * line) then m else cxlAsk (128 * line) m
    let m := findL2 (128 * line) 128 (useLine line 0 (bringLine line m))
    let x : L1Line := ⟨line, Mem.wrAll [] (cellsAt 0 (homeBytes m core (128 * line) 128)), badWords m line (wcbBytes m core)⟩
    m.setOctet (octetOf core) (let o := m.octet (octetOf core); { o with icache := icTrim keep (x :: o.icache) })

/-- A byte as the octet's cache holds it. -/
def icByte (m : Mach) (core pa : Nat) : Nat := ((icFind m core (pa / 128)).map (fun x => x.data.rd (pa % 128))).getD 0

/-- Does it hold the byte in a poisoned word (R344)? -/
def icPoisoned (m : Mach) (core pa : Nat) : Bool := ((icFind m core (pa / 128)).map (fun x => x.bad.contains (pa % 128 / 8 * 8))).getD false

/-- A pooled line that a fetch or a walk of the slot needs is asked for at its home slice, from its CXL device (R358). -/
def askCode (line : Nat) (m : Mach) : Mach := addReq m.cur m.sl.ctx (128 * line) .sent .code m

/-- Reads `n` bytes at `va` as a fetch does (R11, R63): both pages are translated, lines come through the cache once no request for them is
under way, a pooled line once its home slice has it (R358), poison ends the context (R344). -/
def fetchBytes (va n : Nat) : M (List Nat) := do
  let va1 := va + n - 1
  let pas ← xlateAll (if granuleOf va = granuleOf va1 then [(va, .fetch)] else [(va, .fetch), (granuleOf va1 * 2 ^ 18, .fetch)])
  let m ← get
  let core := m.curCore
  let p0 := pas.headD 0
  let p1 := pas.getLastD 0
  let pa := fun i => if granuleOf (va + i) = granuleOf va then p0 + i else p1 + (va + i - granuleOf va1 * 2 ^ 18)
  let places := (List.range n).map pa
  let lines := (places.map (· / 128)).dedup
  match lines.find? (fun line => (icFind m core line).isNone && lineBusy m core line) with
  | some line => block (.line line)
  | none => pure ()
  match lines.find? (fun line => (icFind m core line).isNone && paKind m.dev (128 * line) == .pooled && !present m (128 * line)) with
  | some line => halt (fun m => .blockWith (askCode line) (.line line))
  | none => pure ()
  change (fun m => lines.foldl (fun m line => icFill lines core line m) m)
  let m ← get
  if places.any (icPoisoned m core) then halt (fun m => .stay (endContext m.sl.ctx 0x81 m.cur p0 m)) else pure ()
  pure (places.map (icByte m core))

/-- The word at a virtual address (R11). -/
def fetchWord (va : Nat) : M Nat := do
  let l ← fetchBytes va 12
  pure (ofLE l)

end Sys2Proof.Machine
end

