-- ==== Sys2Proof/Machine/Control.lean ====
section
/-! DEFINITION. The control group: branches, waits, traps, time, fetch control and comets (R46, R51 to R53, R67 to R69,
R71 to R74, R76 to R85). -/
namespace Sys2Proof.Machine

/-- A word without operands. -/
def plain (h : Hdr) (body : M (Option Nat)) : M Unit := issue h 0 0 (fun _ => {}) body

/-- Branch target of class B (R17). -/
def relTarget (s : Slot) (off : BitVec 32) : Nat := ofInt 56 ((s.pc : Int) + 4 * sx 32 off.toNat)

/-- `tgt(x)` of R67. -/
def tgt (x : Nat) : M Nat := do
  trapIf (x % 4 != 0 || decide (2 ^ 56 ≤ x)) 0x09 0
  pure x

/-- NOP (R67). -/
def execNop (x : ZW) : State → Host.Outcome State Fault Refusal := run (plain x.h (pure none))
/-- BR (R67). -/
def execBr (x : BW) : State → Host.Outcome State Fault Refusal := run (plain x.h do
  let t ← mine (fun s => relTarget s x.off)
  pure (some t))
/-- BRI (R67, R83): a follower takes the leader's target and does not read A. -/
def execBri (x : SW) : State → Host.Outcome State Fault Refusal := run <|
  issue x.h x.a x.b (fun s => if s.isFollower then {} else { rd := gRng s x.a, pops := [(x.a, .read)] }) do
    let f ← mine Slot.isFollower
    if f then pure none
    else
      let a ← rdG x.a
      let t ← tgt a
      pure (some t)

/-- The link write (R67). -/
def link : M Unit := do
  let s ← mine id
  setFixed 2 (gCells 55 (nextPc s.pc))
/-- CALL (R67). -/
def execCall (x : BW) : State → Host.Outcome State Fault Refusal := run <|
  issue x.h x.a x.b (fun _ => { wr := [(8 * 55, 8)] }) do
    let t ← mine (fun s => relTarget s x.off)
    link
    pure (some t)
/-- CALLI (R67): A is read before g55 is written. -/
def execCalli (x : SW) : State → Host.Outcome State Fault Refusal := run <|
  issue x.h x.a x.b (fun s => if s.isFollower then { wr := [(8 * 55, 8)] }
      else { rd := gRng s x.a, wr := [(8 * 55, 8)], pops := [(x.a, .read)] }) do
    let f ← mine Slot.isFollower
    if f then
      link
      pure none
    else
      let a ← rdG x.a
      let t ← tgt a
      link
      pure (some t)
/-- RET (R67). -/
def execRet (x : ZW) : State → Host.Outcome State Fault Refusal := run <|
  issue x.h 0 0 (fun s => if s.isFollower then {} else { rd := [(8 * 55, 8)] }) do
    let f ← mine Slot.isFollower
    if f then pure none
    else
      let a ← rdGn 55
      let t ← tgt a
      pure (some t)
/-- LOOP (R68). -/
def execLoop (x : BW) : State → Host.Outcome State Fault Refusal := run <|
  issue x.h x.a x.b (fun _ => { rd := gPlain x.d, wr := gPlain x.d }) do
    let d ← rdGp x.d
    let v := dec64 d
    setFixed 2 (gCells (gNo x.d) v)
    let t ← mine (fun s => relTarget s x.off)
    pure (if v = 0 then none else some t)

/-- Register bytes in the g positions of a word of the opcodes that REP repeats (R69, and each instruction's fields). -/
def bodyRegs (w : Nat) : List Nat :=
  let op := w % 256
  let d := bits w 8 8
  let a := bits w 16 8
  let b := bits w 24 8
  if op = 0x08 then [d, a, b, bits w 48 8]
  else if op = 0x13 then [a, b]
  else if op = 0x14 then [a]
  else if op = 0x15 then []
  else if op = 0x18 ∨ op = 0x19 then [d]
  else if op = 0x1E then [d, a] ++ (if bitAt w 91 then [b] else [])
  else if op = 0x02 ∨ op = 0x17 ∨ (0x1A ≤ op ∧ op < 0x20) then [d, a]
  else if op < 0x20 then [d, a, b]
  else if op = 0x40 ∨ op = 0x42 ∨ op = 0x54 ∨ op = 0x5D then [d, a]
  else if op = 0x41 ∨ op = 0x43 ∨ op = 0x48 then [a, b]
  else if op = 0x46 ∨ op = 0x5C ∨ op = 0x5E ∨ op = 0x5F then [a]
  else if op = 0x47 ∨ op = 0x49 then []
  else if op = 0x53 then [d, a, b, bits w 88 8]
  else if 0x56 ≤ op ∧ op ≤ 0x5B then [a, b]
  else if op < 0x60 then [d, a, b]
  else if op = 0x80 ∨ op = 0x82 ∨ op = 0x94 ∨ op = 0xBA ∨ op = 0xBB ∨ op = 0xBC then [d]
  else if op = 0x93 ∨ op = 0xB2 ∨ op = 0xB3 then [a]
  else if op = 0x96 ∨ op = 0xBF then [b, bits w 65 8]
  else if op = 0x9B then [bits w 65 8]
  else if op = 0x9D ∨ op = 0x9E ∨ op = 0xB4 ∨ op = 0xB5 ∨ op = 0xB9 then [a, b]
  else if op = 0xA1 then [b]
  else if 0xAE ≤ op ∧ op ≤ 0xB1 then [a] ++ (if bitAt w 73 then [b] else [])
  else if op = 0xB7 then (if bits w 73 4 = 0 then [] else [b])
  else []

/-- REP (R69): the body is checked before the first repetition, also when g[D] = 0 and there is none (DESIGN CHOICE, log entry 56); with
g[D] = 0 it is skipped. A follower makes the check too, takes the leader's path and updates its registers with the leader's repetitions (R83). -/
def execRep (x : IW) : State → Host.Outcome State Fault Refusal := run <|
  issue x.h x.a x.b (fun _ => { rd := gPlain x.d ++ gPlain x.a, wr := gPlain x.d ++ gPlain x.a }) do
    let s ← mine id
    let rep : Rep := ⟨s.pc, gNo x.d, gNo x.a, ofInt 64 (sx 32 x.imm.toNat), x.h.sc.toNat⟩
    let w ← fetchWord (s.pc + 12)
    let op := w % 256
    trapIf (!(decide (op < 0x20) || (decide (0x40 ≤ op) && decide (op < 0x60)) || (decide (0x80 ≤ op) && decide (op < 0xC0)))
      || (bodyRegs w).contains (gNo x.d)) 0x0A 0
    if !s.isFollower && s.g (gNo x.d) == 0 then pure (some ((s.pc + 24) % 2 ^ 56))
    else
      changeMine (fun s => { s with rep := some rep })
      pure none

/-! ## Yielding and waiting -/

/-- YIELD (R71): retirement places the slot last in the round-robin order. A follower does nothing (R83). -/
def execYield (x : ZW) : State → Host.Outcome State Fault Refusal := run (plain x.h (pure none))
/-- PRIO (R71). -/
def execPrio (x : IW) : State → Host.Outcome State Fault Refusal := run <|
  issue x.h 0 0 (fun _ => {}) do
    changeMine (fun s => { s with level := min x.imm.toNat s.ceiling, age := 0 })
    pure none

/-- The WAITEV sources present, in bits [4:0] (R72). -/
def Slot.sources (s : Slot) : Nat := (if s.evq.isEmpty then 0 else 1) + s.latch % 32 / 2 * 2

/-- WAITEV (R72). -/
def execWaitev (x : IW) : State → Host.Outcome State Fault Refusal := run <|
  issue x.h x.a x.b (fun s => {
      rd := if bitAt x.mod.toNat 0 && !s.isFollower then gRng s x.a else []
      pops := if s.isFollower then [] else (if bitAt x.mod.toNat 0 then [(x.a, .read)] else []) ++ [(x.d, .write)]
      nondet := bitAt x.mod.toNat 0 || (popCount (x.imm.toNat % 32) 5 != 1) }) do
    let f ← mine Slot.isFollower
    if f then pure none
    else
      let dl ← if bitAt x.mod.toNat 0 then (do let a ← rdG x.a; pure (some a)) else pure none
      let m ← get
      let sel := x.imm.toNat % 32
      let here := m.sl.sources &&& sel
      let late := match dl with
        | some t => decide (t ≤ m.sid)
        | none => false
      blockIf (here == 0 && !late) (.events sel dl)
      changeMine (fun s => { s with latch := s.latch - (s.latch &&& here &&& 0x1E) })
      wrLand .ready x.d (here + (if late then 2 ^ 63 else 0))
      pure none
/-- SLEEP (R73). -/
def execSleep (x : IW) : State → Host.Outcome State Fault Refusal := run <|
  issue x.h x.a x.b (fun s => if s.isFollower then {} else { rd := gRng s x.a, pops := [(x.a, .read)] }) do
    let f ← mine Slot.isFollower
    if f then pure none
    else
      let a ← rdG x.a
      let m ← get
      blockIf (decide (m.sid < a + x.imm.toNat)) (.until_ (a + x.imm.toNat))
      pure none

/-! ## Traps (R74) -/

/-- TRAP: the software trap, returning to the next word. -/
def execTrap (x : IW) : State → Host.Outcome State Fault Refusal := run <|
  issue x.h 0 0 (fun _ => {}) do
    halt (fun m => .trapAt (passed x.h m) 0x05 x.imm.toNat (nextPc m.sl.pc))
/-- BRK: the breakpoint, returning to the word itself. -/
def execBrk (x : IW) : State → Host.Outcome State Fault Refusal := run <|
  issue x.h 0 0 (fun _ => {}) do
    trap 0x06 x.imm.toNat
/-- ASSERT: a trap when the predicate is 0. -/
def execAssert (x : IW) : State → Host.Outcome State Fault Refusal := run <|
  issue x.h x.a 0 (fun _ => { rd := qRng x.a }) do
    let q ← rdQ x.a
    if q then pure none else halt (fun m => .trapAt (passed x.h m) 0x07 x.imm.toNat (nextPc m.sl.pc))
/-- RTE (R22, R74, R340): it waits until the handler's pending writes have landed, then leaves the handler. -/
def execRte (x : ZW) : State → Host.Outcome State Fault Refusal := run <|
  issue x.h 0 0 (fun _ => {}) do
    let s ← mine id
    trapIf (!s.inh) 0x08 0
    blockIf (!s.il.isEmpty) .landed
    halt (fun m => .stay { (m.updSlot m.cur (fun s => Slot.countEvent { s.leaveHandler with cycles := s.cycles + 1, age := 0, boost := 0, stamp := m.dev.rr } 1))
      with dev := { m.dev with rr := m.dev.rr + 1 } })

/-! ## Time and counts -/

/-- TIME (R76). -/
def execTime (x : SW) : State → Host.Outcome State Fault Refusal := run <|
  issue x.h x.a x.b (fun s => { wr := gRng s x.d, pops := [(x.d, .write)], nondet := true }) do
    let m ← get
    wrG 2 x.d (m.sid % 2 ^ 64)
    pure none
/-- CYCLES (R77). -/
def execCycles (x : SW) : State → Host.Outcome State Fault Refusal := run <|
  issue x.h x.a x.b (fun s => { wr := gRng s x.d, pops := [(x.d, .write)], nondet := true }) do
    let m ← get
    wrG 2 x.d ((if bitAt x.mod.toNat 0 then m.sl.cycles else m.cyc) % 2 ^ 64)
    pure none

/-- The gang of the slot's task makes progress (R273). -/
def progress (k : Nat) (m : Mach) : Mach :=
  match (m.slot k).task.bind (·.e.gang) with
  | some g => match m.gangs.find g with
    | some G => { m with gangs := m.gangs.put g { G with timer := m.sid } }
    | none => m
  | none => m
/-- BEAT (R78). -/
def execBeat (x : ZW) : State → Host.Outcome State Fault Refusal := run (plain x.h do
  change (fun m => progress m.cur m)
  pure none)

/-! ## Fetch control -/

/-- LDLIT (R63). -/
def execLdlit (x : BW) : State → Host.Outcome State Fault Refusal := run <|
  issue x.h x.a x.b (fun _ => { pops := [(x.d, .write)] }) do
    let s ← mine id
    let l ← fetchBytes (ofInt 64 ((s.pc : Int) + 4 * sx 32 x.off.toNat)) 8
    wrLand .ready x.d (ofLE l)
    pure none
/-- IFENCE (R79). -/
def execIfence (x : ZW) : State → Host.Outcome State Fault Refusal := run (plain x.h do
  drain false true false false
  change (fun m => m.setOctet (octetOf m.curCore) { m.octet (octetOf m.curCore) with icache := [] })
  pure none)
/-- PREFI (R80): lines whose translation fails are dropped, and lines on which a request is under way. -/
def execPrefi (x : BW) : State → Host.Outcome State Fault Refusal := run (plain x.h do
  let s ← mine id
  let va := ofInt 64 ((s.pc : Int) + 4 * sx 32 x.off.toNat) / 128 * 128
  joinWalk va
  joinWalk (va + 128 * bits x.mod.toNat 0 4)
  change (fun m => (List.range (bits x.mod.toNat 0 4 + 1)).foldl (fun m i =>
    match quietXlate m.cur (va + 128 * i) .fetch (countTlb m.cur (va + 128 * i) m) with
    | (some pa, m) =>
      if paKind m.dev pa == .hole || waitsService m.dev pa || lineBusy m m.curCore (pa / 128) then m else icFill [] m.curCore (pa / 128) m
    | (none, m) => m) m)
  pure none)
/-- SLOTCFG (R81): a slot that has done some units of its instruction takes the setting at its next boundary, every other one at once, one that waits
too (DEDUCED, log entry 60). -/
def execSlotcfg (x : YW) : State → Host.Outcome State Fault Refusal := run <|
  issue x.h x.a x.b (fun s => { rd := gRng s x.a, pops := [(x.a, .read)], priv := true }) do
    let a ← rdG x.a
    let core := x.imm.toNat
    let m ← get
    let n := (m.core core).slots
    trapIf (decide (2 ^ 12 ≤ a) || (List.range 4).any (fun k => decide (n ≤ k) && (bitAt a k || bits a (4 + 2 * k) 2 != 0))) 0x0C 0
    change (fun m => (List.range n).foldl (fun m k => m.updSlot (keyOf core k) (fun s =>
      if s.mid then { s with cfgNext := some (bitAt a k, bits a (4 + 2 * k) 2) } else s.configured (bitAt a k) (bits a (4 + 2 * k) 2))) m)
    pure none

/-! ## Views and streams -/

/-- VIEW (R46). -/
def execView (x : YW) : State → Host.Outcome State Fault Refusal := run <|
  issue x.h x.a x.b (fun s => { rd := gRng s x.a, pops := [(x.a, .read)] }) do
    let w ← rdG x.a
    trapIf (bits w 22 2 != 0 || bits w 62 2 != 0 || bits w 20 2 == 3 || bits w 48 2 == 3) 0x0F 0
    changeMine (fun s => { s with view := w })
    pure none
/-- SBIND (R51). -/
def execSbind (x : MW) : State → Host.Outcome State Fault Refusal := run <|
  issue x.h x.a x.b (fun _ => { rd := gPlain x.a ++ gPlains x.b 2 }) do
    let a ← rdGp x.a
    let c ← rdGp x.b
    let st ← rdGn (gNo x.b + 1)
    changeMine (fun s => { s with streams := s.streams.put (sNo x.d) (Stream.mk
      (addDisp a x.disp) (c % 2 ^ 32) (bits c 32 32) (sx 32 st) (sx 32 (st / 2 ^ 32)) x.ty (bitAt x.c.toNat 0) 0 x.h.ch.toNat) })
    pure none
/-- SUNBIND (R52). -/
def execSunbind (x : SW) : State → Host.Outcome State Fault Refusal := run <|
  issue x.h 0 0 (fun _ => {}) do
    unbind (sNo x.d)
    pure none
/-- The word of SSTAT (R53). -/
def sstatWord (o : Option Stream) : Nat := match o with
  | none => 0
  | some x => min (x.len - x.pos) (2 ^ 32 - 1) + 2 ^ 32 + ofBool x.out * 2 ^ 33 + Ty.code x.ty * 2 ^ 34
/-- SSTAT (R53). -/
def execSstat (x : SW) : State → Host.Outcome State Fault Refusal := run <|
  issue x.h 0 0 (fun _ => { pops := [(x.d, .write)] }) do
    let s ← mine id
    wrLand .ready x.d (sstatWord (s.streams.find (sNo x.a)))
    pure none

/-! ## Comets (R82 to R85) -/

/-- The core index in its octet of a slot. -/
def indexOf (k : Nat) : Nat := coreOf k % 8

/-- The slot of a core that waits in comet.join for slot `k` (R82); a disabled slot makes no progress (R81). -/
def joiner (m : Mach) (k core : Nat) : Option Nat :=
  ((List.range 4).map (keyOf core)).find? (fun j => let s := m.slot j
    s.run == .running && s.enabled && s.ctx == (m.slot k).ctx && (match s.wait with
      | some (.follow idx _) => idx == indexOf k
      | _ => false))

/-- The waiting followers of a leader at `k`, one for each core of the mask but `self`, if none is missing. -/
def joiners (m : Mach) (k mask : Nat) (self : Option Nat) : Option (List Nat) :=
  ((List.range 8).filter (fun i => bitAt mask i && self != some (coreOf k / 8 * 8 + i))).mapM (fun i => joiner m k (coreOf k / 8 * 8 + i))

/-- A slot's blocked COMET has been executed: its count has advanced, and it goes on at `pc`. -/
def Slot.passComet (s : Slot) (sc pc : Nat) : Slot := { s with n := s.n + sc + 1, cycles := s.cycles + 1, wait := none, pc := pc, age := 0, boost := 0 }

/-- Waiting followers become members; they go on at the word after the leader's comet.lead. -/
def follow (k pc : Nat) (js : List Nat) (m : Mach) : Mach :=
  js.foldl (fun m j => m.updSlot j (fun s => match s.wait with
    | some (.follow _ sc) => { s.passComet sc pc with comet := some (.follower k []) }
    | _ => s)) m

/-- The comet of a leader at `k` that has executed comet.lead: its followers follow (R82). -/
def leadComet (k lag : Nat) (js : List Nat) (m : Mach) : Mach :=
  follow k (m.slot k).pc js (m.updSlot k (fun s => { s with comet := some (.leader js lag false) }))

/-- COMET, the leader's role (R82): the comet forms when every named core waits in comet.join. -/
def execCometLead (x : YW) : State → Host.Outcome State Fault Refusal := run do
  let k ← look (·.cur)
  let mask := bits x.mod.toNat 2 8
  let lag := bits x.mod.toNat 10 3 + 2
  let js ← look (fun m => joiners m k mask none)
  issue x.h 0 0 (fun _ => {}) do
    let s ← mine id
    trapIf (bitAt mask (indexOf k) || s.comet.isSome) 0x0B 0
    match js with
    | some _ =>
      changeMine (fun s => { s with comet := some (.leader [] lag false) })
      pure none
    | none => block (.lead mask lag x.h.sc.toNat)
  change (fun m => match (m.slot k).comet, js with
    | some (.leader [] _ false), some js => leadComet k lag js m
    | _, _ => m)

/-- The leader that waits in comet.lead for the core of slot `k`, with its other followers, when nobody else is missing. -/
def waitingLead (m : Mach) (k idx : Nat) : Option (Nat × Nat × Nat × List Nat) :=
  ((List.range 4).map (keyOf (coreOf k / 8 * 8 + idx))).findSome? (fun l => let s := m.slot l
    match s.wait with
    | some (.lead mask lag sc) =>
      if s.run == .running && s.enabled && s.ctx == (m.slot k).ctx && bitAt mask (indexOf k) then
        (joiners m l mask (some (coreOf k))).map (fun js => (l, lag, sc, js))
      else none
    | _ => none)

/-- The comet of the waiting leader `l` that forms with the follower `k`, which has executed comet.join (R82). -/
def joinComet (k l lag sc : Nat) (js : List Nat) (m : Mach) : Mach :=
  let pc := nextPc (m.slot l).pc
  let m := follow l pc js (m.updSlot l (fun s => { s.passComet sc pc with comet := some (.leader (js ++ [k]) lag false) }))
  m.updSlot k (fun s => { s with comet := some (.follower l []), pc := pc })

/-- COMET, the follower's role (R82). -/
def execCometJoin (x : YW) : State → Host.Outcome State Fault Refusal := run do
  let k ← look (·.cur)
  let idx := bits x.mod.toNat 2 3
  let free ← look (fun m => m.sl.comet.isNone)
  let lead ← look (fun m => waitingLead m k idx)
  issue x.h 0 0 (fun _ => {}) do
    let s ← mine id
    trapIf (idx == indexOf k || s.comet.isSome) 0x0B 0
    match lead with
    | some p =>
      changeMine (fun s => { s with comet := some (.detached p.1) })
      pure none
    | none => block (.follow idx x.h.sc.toNat)
  change (fun m => match (if free then (m.slot k).comet else none), lead with
    | some (.detached _), some (l, lag, sc, js) => joinComet k l lag sc js m
    | _, _ => m)

/-- COMET_FORM (R82): a comet forms once every named follower waits in comet.join, here after a slot was enabled again. -/
def execCometForm (k : Nat) : State → Host.Outcome State Fault Refusal := device do
  let m ← get
  let s := m.slot k
  match s.wait with
  | some (.lead mask lag sc) =>
    enabledIf (s.run == .running && s.enabled)
    let js ← need (joiners m k mask none)
    let pc := nextPc s.pc
    change (fun m => follow k pc js (m.updSlot k (fun s => { s.passComet sc pc with comet := some (.leader js lag false) })))
  | _ => notEnabled

/-- A slot leaves its leader's list of members. A leader whose last follower has left leads no comet any more (DESIGN CHOICE, log entry 57). -/
def leaveComet (k : Nat) (m : Mach) : Mach :=
  let lead := match (m.slot k).comet with
    | some (.follower l _) => some l
    | some (.detached l) => some l
    | _ => none
  let m := m.updSlot k (fun s => { s with comet := none })
  match lead with
  | some l => m.updSlot l (fun s => match s.comet with
    | some (.leader ms lag r) => { s with comet := if (ms.erase k).isEmpty then none else some (.leader (ms.erase k) lag r) }
    | _ => s)
  | none => m

/-- The leader's end dissolves the comet (R85): following members leave once they have executed the words already sent to
them; detached members go on alone. -/
def dissolve (k : Nat) (m : Mach) : Mach :=
  match (m.slot k).comet with
  | some (.leader ms _ _) =>
    let m := m.updSlot k (fun s => { s with comet := none })
    ms.foldl (fun m j => m.updSlot j (fun s => match s.comet with
      | some (.detached _) => { s with comet := none, wait := (match s.wait with
          | some (.rejoin _) => none
          | w => w) }
      | some (.follower _ []) => { s with comet := none }
      | _ => s)) m
  | _ => m

/-- COMET, the end (R82, R85): the leader's dissolves the comet after the word has been sent; a follower's removes it alone. -/
def execCometEnd (x : YW) : State → Host.Outcome State Fault Refusal := run do
  let k ← look (fun m => m.cur)
  issue x.h 0 0 (fun _ => {}) do
    let s ← mine id
    match s.comet with
    | some (.leader ms lag _) =>
      changeMine (fun s => { s with comet := some (.leader ms lag true) })
      pure none
    | some (.follower _ q) =>
      change (leaveComet k)
      pure (q.head?.map (·.next))
    | some (.detached _) =>
      change (leaveComet k)
      pure none
    | none => pure none
  change (fun m => match (m.slot k).comet with
    | some (.leader _ _ true) => dissolve k m
    | _ => m)

/-- DETACH (R84). -/
def execDetach (x : BW) : State → Host.Outcome State Fault Refusal := run <|
  issue x.h 0 0 (fun _ => {}) do
    let s ← mine id
    match s.comet with
    | some (.leader _ _ _) => pure none
    | some (.follower _ _) =>
      change (fun m => m.updSlot m.cur (fun s => { s.detach (fun l => leads m l m.cur) with rep := none }))
      pure (some (relTarget s x.off))
    | _ => pure (some (relTarget s x.off))

/-- Does the slot wait in REJOIN? A disabled one makes no progress (R81, R84). -/
def Slot.rejoining (s : Slot) : Option Nat := match s.wait with
  | some (.rejoin sc) => if s.enabled then some sc else none
  | _ => none

/-- Is every detached member of the leader waiting in REJOIN (R84)? -/
def allRejoin (m : Mach) (k : Nat) : Bool :=
  match (m.slot k).comet with
  | some (.leader ms _ _) => ms.all (fun j => match (m.slot j).comet with
    | some (.detached l) => l != k || (m.slot j).rejoining.isSome
    | _ => true)
  | _ => true

/-- The detached members of leader `k` that wait in REJOIN have executed it, and follow again from `pc` (R84). -/
def takeBack (k pc : Nat) (m : Mach) : Mach :=
  match (m.slot k).comet with
  | some (.leader ms lag _) =>
    let m := ms.foldl (fun m j => match (m.slot j).comet, (m.slot j).rejoining with
      | some (.detached l), some sc =>
        if l == k then m.updSlot j (fun s => { s.passComet sc pc with comet := some (.follower l []) }) else m
      | _, _ => m) m
    m.updSlot k (fun s => { s with comet := some (.leader ms lag false) })
  | _ => m

/-- REJOIN (R84): when both sides meet, the detached members follow again from the word after the leader's REJOIN, which goes only to those that
followed before. -/
def execRejoin (x : ZW) : State → Host.Outcome State Fault Refusal := run do
  let k ← look (·.cur)
  issue x.h 0 0 (fun _ => {}) do
    let m ← get
    match m.sl.comet with
    | some (.detached _) => block (.rejoin x.h.sc.toNat)
    | some (.leader ms lag _) =>
      blockIf (!allRejoin m m.cur) (.rejoin x.h.sc.toNat)
      changeMine (fun s => { s with comet := some (.leader ms lag true) })
      pure none
    | _ => pure none
  change (fun m => match (m.slot k).comet with
    | some (.leader _ _ true) => takeBack k (m.slot k).pc m
    | _ => m)

end Sys2Proof.Machine
end

