-- ==== Sys2Proof/Machine/Image.lean ====
section
/-! DEFINITION. What a core image holds of a slot and of a state that JOIN has set aside (R347). The spec names the parts and their order; their
places are chosen (log entry 45): one quad after another. -/
namespace Sys2Proof.Machine

/-! ## Words that the image shares with system registers (R55, R156, R274, R281) -/

/-- CTXCTL (R55). -/
def ctxctlWord (c : Ctx) (s : Slot) : Nat :=
  ofBool s.schk + ofBool c.prv * 2 + ofBool c.det * 4 + c.slots * 8 + c.asid % 2 ^ 16 * 2 ^ 8

/-- EVQSTAT (R156). -/
def evqstatWord (s : Slot) : Nat := s.evq.length + s.rq * 2 ^ 8 + s.drop * 2 ^ 32 + ofBool s.ovf * 2 ^ 63

/-- A position in a gang: GRP, CIX, SHP and NG. -/
def posWord (grp cix shp ng : Nat) : Nat := grp + cix * 2 ^ 16 + shp * 2 ^ 22 + ng * 2 ^ 24

/-- GANGPOS (R274). -/
def gangposWord (s : Slot) : Nat := match s.task with
  | some t => posWord t.grp t.cix t.shp t.ng
  | none => 0

def originCode : Origin → Nat
  | .forked => 0
  | .root => 1
  | .fired _ _ => 2
  | .node _ _ => 3

/-- The TASKID word. -/
def taskidWord (s : Slot) : Nat := match s.task with
  | some t => t.core + t.slot * 2 ^ 14 + ofBool t.stolen * 2 ^ 16 + originCode t.e.origin * 2 ^ 17 + t.seq % 2 ^ 32 * 2 ^ 32
  | none => 0

/-! ## The quads of a slot, and of a set-aside state -/

/-- A part in a comet: none, leader with lag and members, follower or detached with the leader. Slots of an octet by their place in it. -/
def cometQuad : Option CometRole → Nat
  | none => 0
  | some (.leader ms lag ending) => 1 + lag * 2 ^ 2 + ofBool ending * 2 ^ 7 + ((List.range 32).map (fun i => if ms.any (fun k => k % 32 == i) then 2 ^ (i + 8) else 0)).sum
  | some (.follower l _) => 2 + l % 32 * 2 ^ 8
  | some (.detached l) => 3 + l % 32 * 2 ^ 8

/-- The part of slot `k` that a quad describes; a follower's words on their way stay. -/
def cometFrom (k : Nat) (kept : Option CometRole) (q : Nat) : Option CometRole :=
  let at_ := fun i => k / 32 * 32 + i
  match q % 4 with
  | 0 => none
  | 1 => some (.leader (((List.range 32).filter (fun i => bitAt q (i + 8))).map at_) (bits q 2 5) (bitAt q 7))
  | 2 => some (.follower (at_ (bits q 8 5)) (match kept with
    | some (.follower _ f) => f
    | _ => []))
  | _ => some (.detached (at_ (bits q 8 5)))

/-- Where a task came from. -/
def originQuad : Origin → Nat
  | .fired cl i => 2 + cl * 2 ^ 8 + i * 2 ^ 32
  | .node cl i => 3 + cl * 2 ^ 8 + i * 2 ^ 32
  | o => originCode o
def originFrom (q : Nat) : Origin := match q % 2 ^ 8 with
  | 0 => .forked
  | 1 => .root
  | 2 => .fired (bits q 8 24) (q / 2 ^ 32)
  | _ => .node (bits q 8 24) (q / 2 ^ 32)

/-- The control quads: pc, nominal count, priorities, CTXCTL, view, grants, GANGPOS, TASKID, TASKH, path, ordinal, STEALD, comet; how many deque
entries and set-aside states there are, and whether a task runs and a handler's interrupted flow is saved. -/
def controlQuads (c : Ctx) (s : Slot) : List Nat :=
  [s.pc, s.n, s.level + s.ceil * 2 ^ 8 + s.cfgCeil * 2 ^ 16, ctxctlWord c s, s.view, s.grantN + s.grantReq * 2 ^ 16, gangposWord s, taskidWord s, s.taskh,
   (s.task.map (·.e.path)).getD 0, (s.task.map (·.ord)).getD 0, s.steald, cometQuad s.comet,
   s.deque.length + s.aside.length * 2 ^ 8 + ofBool s.task.isSome * 2 ^ 16 + ofBool s.saved.isSome * 2 ^ 17]

/-- The rest of the running task: its record, gang, origin, octet and word. -/
def linkQuads (s : Slot) : List Nat := match s.task with
  | none => List.replicate 12 0
  | some t => (List.range 8).map (t.e.quads.getD · 0) ++ [(t.e.gang.map (· + 1)).getD 0, originQuad t.e.origin, t.e.octet, t.e.word]

/-- Masks m1 to m7, predicates, trap registers. -/
def stateQuads (s : Slot) : List Nat :=
  (List.range 14).map (fun i => 2 ^ 64 - 1 - s.rf.num (maskPlace 1 + 8 * i) 8)
  ++ [((List.range 15).map (fun i => if s.rf.rd (predPlace i) = 0 then 0 else 2 ^ i)).sum]
  ++ [s.tvec, s.tcause, s.tret, s.tval, ofBool s.inh, s.ts0, s.ts1, (s.saved.map (·.n)).getD 0]

/-- A stream binding with its position (R54). -/
def streamQuads : Option Stream → List Nat
  | none => List.replicate 7 0
  | some x => [1 + Ty.code x.ty * 2 + ofBool x.out * 2 ^ 5 + x.ch * 2 ^ 6, x.base, x.cnt0, x.cnt1, ofInt 64 x.str0, ofInt 64 x.str1, x.pos]

def streamFrom (q : Nat → Nat) : Option Stream :=
  if bitAt (q 0) 0 then
    some ⟨q 1, q 2, q 3, sx 64 (q 4), sx 64 (q 5), (Ty.ofCode (bits (q 0) 1 4)).getD .i64, bitAt (q 0) 5, q 6, bits (q 0) 6 2⟩
  else none

/-- What a slot and a set-aside state both hold, pending writes apart. -/
def taskQuads (c : Ctx) (s : Slot) : List Nat :=
  controlQuads c s ++ linkQuads s ++ stateQuads s ++ ((List.range 8).map (fun i => streamQuads (s.streams.find i))).flatten

/-- How many quads that is. -/
def taskLen : Nat := 105

/-- The running task that the quads describe; the placement set of its gang stays. -/
def runningFrom (q : Nat → Nat) (kept : Option Task) : Option Task :=
  if bitAt (q 13) 16 then
    let g := if q 22 = 0 then none else some (q 22 - 1)
    let place := match kept with
      | some t => if t.e.gang == g then t.e.place else []
      | none => []
    some ⟨⟨(List.range 8).map (fun i => q (14 + i)), q 9, g, originFrom (q 23), place, q 24, q 25⟩, bitAt (q 7) 16, bits (q 7) 0 14, bits (q 7) 14 2,
      q 10, bits (q 6) 0 16, bits (q 6) 16 6, bits (q 6) 22 2, bits (q 6) 24 16, bits (q 7) 32 32⟩
  else none

/-- A kept slot with what its register bytes and the quads `q` of `taskQuads` say. -/
def taskFrom (k : Nat) (regs : List (Nat × Nat)) (q : Nat → Nat) (kept : Slot) : Slot :=
  { kept with
    rf := Mem.wrAll [] (regs
      ++ ((List.range 14).map (fun i => cellsAt (maskPlace 1 + 8 * i) (toLE 8 (2 ^ 64 - 1 - q (26 + i))))).flatten
      ++ (List.range 15).map (fun i => (predPlace i, ofBool (bitAt (q 40) i))))
    pc := bits (q 0) 0 56
    n := q 1
    level := bits (q 2) 0 2
    ceil := bits (q 2) 8 2
    cfgCeil := bits (q 2) 16 2
    schk := bitAt (q 3) 0
    view := q 4
    grantP := 0
    grantN := bits (q 5) 0 9
    grantReq := bits (q 5) 16 9
    task := runningFrom q kept.task
    taskh := q 8
    steald := bits (q 11) 0 3
    comet := cometFrom k kept.comet (q 12)
    tvec := q 41
    tcause := q 42
    tret := q 43
    tval := q 44
    inh := bitAt (q 45) 0
    ts0 := q 46
    ts1 := q 47
    streams := (List.range 8).filterMap (fun i => (streamFrom (fun j => q (49 + 7 * i + j))).map (fun x => (i, x))) }

/-! ## Lists whose items have their own lengths: pending writes and commands -/

/-- The first items that have room, each with its length before it. -/
def fitItems : Nat → List (List Nat) → List (List Nat)
  | _, [] => []
  | room, x :: l => if x.length + 1 ≤ room then x :: fitItems (room - (x.length + 1)) l else []

/-- A list in a room: how many items stand there and how many do not, then those that do. -/
def packItems (room : Nat) (l : List (List Nat)) : List Nat :=
  let f := fitItems room l
  (f.length + (l.length - f.length) * 2 ^ 32) :: (f.map (fun x => x.length :: x)).flatten

def takeItems : Nat → List Nat → List (List Nat) × List Nat
  | 0, l => ([], l)
  | _ + 1, [] => ([], [])
  | n + 1, k :: l =>
    let r := takeItems n (l.drop k)
    (l.take k :: r.1, r.2)

/-- The items of a packed list, after which the kept ones come that had no room, and the quads behind it. -/
def unpackItems (kept : List (List Nat)) : List Nat → List (List Nat) × List Nat
  | [] => ([], [])
  | h :: l =>
    let r := takeItems (h % 2 ^ 32) l
    (r.1 ++ if h / 2 ^ 32 = 0 then [] else kept.drop r.1.length, r.2)

def bytesQuads (l : List Nat) : List Nat := (List.range ((l.length + 7) / 8)).map (fun i => ofLE ((l.drop (8 * i)).take 8))

/-- Bytes at successive places, together. -/
def runsOfCells : List (Nat × Nat) → List (Nat × List Nat)
  | [] => []
  | c :: l => match runsOfCells l with
    | (a, bs) :: r => if a = c.1 + 1 then (c.1, c.2 :: bs) :: r else (c.1, [c.2]) :: (a, bs) :: r
    | [] => [(c.1, [c.2])]

/-- Pending writes in program order at count `n`: place, bytes and remaining distance of each (R22). -/
def pendItems (n : Nat) (l : List Pend) : List (List Nat) :=
  (l.map (fun p => (runsOfCells p.cells).map (fun r => (r.1 + r.2.length * 2 ^ 24 + (p.due - n) * 2 ^ 48) :: bytesQuads r.2))).flatten

def itemCells (x : List Nat) : List (Nat × Nat) :=
  (List.range (bits (x.getD 0 0) 24 24)).map (fun i => (bits (x.getD 0 0) 0 24 + i, bits (x.getD (1 + i / 8) 0) (8 * (i % 8)) 8))
def pendFrom (n : Nat) (l : List (List Nat)) : List Pend := l.map (fun x => ⟨itemCells x, n + x.getD 0 0 / 2 ^ 48⟩)

/-! ## A slot's state block: pending writes, commands, timelines, event records, deque -/

/-- The operands of a command that its event needs; what a POOL or a SCATTER holds besides stays in the machine. -/
def cmdArgs : Nat := 13

/-- An incomplete command: what it is, its progress, and its operands. -/
def cmdItem (c : Cmd) : List Nat :=
  [c.op + c.tl * 2 ^ 8 + c.st * 2 ^ 16 + c.ch * 2 ^ 24 + c.num % 2 ^ 32 * 2 ^ 32, c.prog] ++ c.args.take cmdArgs

/-- A kept command with what an item says of it; one that is not kept has no name yet. -/
def cmdFrom (k ctx : Nat) (kept : List Cmd) (x : List Nat) : Cmd :=
  let h := x.getD 0 0
  let old := (kept.find? (fun c => c.slot == k && c.tl == bits h 8 8 && c.num % 2 ^ 32 == bits h 32 32)).getD
    { id := 0, slot := k, ctx := ctx, tl := bits h 8 8, num := bits h 32 32, op := 0, args := [], prog := 0, st := 0, issued := 0, node := none, spans := [], wvas := [] }
  { old with
    op := bits h 0 8
    st := bits h 16 8
    ch := bits h 24 2
    prog := x.getD 1 0
    args := x.drop 2 ++ old.args.drop cmdArgs
    served := [] }

/-- Rooms of a state block's lists, in quads. -/
def pendRoom : Nat := 128
def savedRoom : Nat := 48
def cmdRoom : Nat := 160

/-- The pending writes that a handler's entry has saved: old bytes, then new ones (R22). -/
def savedOld (s : Slot) : List (List Nat) := match s.saved with
  | some v => pendItems 0 [⟨v.old, 0⟩]
  | none => []
def savedNew (s : Slot) : List (List Nat) := match s.saved with
  | some v => pendItems v.n v.pw
  | none => []

/-- The timeline counters, EVQRING and EVQSTAT. -/
def tailQuads (s : Slot) : List Nat :=
  ((List.range 5).map (fun t => let x := s.tl.get Timeline.init t; [x.count, x.issued, x.st])).flatten ++ [s.evring, evqstatWord s]

/-- The quads of a slot's state block, in the rule's order. -/
def slotQuads (c : Ctx) (s : Slot) (cmds : List Cmd) : List Nat :=
  taskQuads c s ++ packItems pendRoom (pendItems s.n s.pw) ++ packItems savedRoom (savedOld s) ++ packItems savedRoom (savedNew s)
  ++ packItems cmdRoom (cmds.map cmdItem) ++ tailQuads s

/-- A slot's state block: its quads, the event records at 0x1000, the deque entries at 0x2000 (R257). -/
def blockCells (c : Ctx) (s : Slot) (cmds : List Cmd) : List (Nat × Nat) :=
  cellsAt 0 (((slotQuads c s cmds).map (toLE 8)).flatten)
  ++ cellsAt 0x1000 ((s.evq.map (fun r => (r.map (toLE 8)).flatten)).flatten)
  ++ cellsAt 0x2000 ((s.deque.map (fun e => (e.quads.map (toLE 8)).flatten ++ toLE 8 e.path ++ List.replicate 56 0)).flatten)

/-- What a state block says behind its fixed quads: pending writes, a handler's saved old and new bytes, commands, and the quads of the tail. -/
def blockLists (block : Mem) (kept : Slot) (cmds : List Cmd) : List (List Nat) × List (List Nat) × List (List Nat) × List (List Nat) × List Nat :=
  let a := unpackItems (pendItems kept.n kept.pw) ((List.range (512 - taskLen)).map (fun i => block.num (8 * (taskLen + i)) 8))
  let b := unpackItems (savedOld kept) a.2
  let c := unpackItems (savedNew kept) b.2
  let d := unpackItems (cmds.map cmdItem) c.2
  (a.1, b.1, c.1, d.1, d.2)

/-- A kept slot with what its register bytes and its state block say. -/
def slotFrom (k : Nat) (regs : List (Nat × Nat)) (block : Mem) (kept : Slot) (cmds : List Cmd) : Slot :=
  let q := fun i => block.num (8 * i) 8
  let old := fun i => kept.deque.getD i ⟨[], 0, none, .forked, [], octetOf (coreOf k), 0⟩
  let l := blockLists block kept cmds
  let t := fun i => l.2.2.2.2.getD i 0
  { taskFrom k regs q kept with
    run := .stopped
    pw := pendFrom (q 1) l.1
    saved := if bitAt (q 13) 17 then some ⟨q 48, (l.2.1.map itemCells).flatten, pendFrom (q 48) l.2.2.1⟩ else none
    tl := (List.range 5).map (fun i => (i, ⟨t (3 * i), t (3 * i + 1), t (3 * i + 2)⟩))
    evring := t 15
    rq := bits (t 16) 8 21
    drop := bits (t 16) 32 31
    ovf := bitAt (t 16) 63
    evq := (List.range (bits (t 16) 0 8)).map (fun i => (List.range 8).map (fun j => block.num (0x1000 + 64 * i + 8 * j) 8))
    deque := (List.range (bits (q 13) 0 8)).map (fun i => { old i with
      quads := (List.range 8).map (fun j => block.num (0x2000 + 128 * i + 8 * j) 8)
      path := block.num (0x2000 + 128 * i + 64) 8 }) }

/-- The commands that a state block describes. -/
def cmdsFrom (k ctx : Nat) (block : Mem) (slot : Slot) (kept : List Cmd) : List Cmd :=
  (blockLists block slot kept).2.2.2.1.map (cmdFrom k ctx kept)

/-- The records that have come while a slot was saved, beside those of its image, whose EVQSTAT was `old` (R157). -/
def arrived (old : Nat) (kept s : Slot) : Slot :=
  { s with
    rq := s.rq + (kept.rq - bits old 8 21)
    drop := min 0xFFFF (s.drop + (kept.drop - bits old 32 31))
    ovf := s.ovf || (kept.ovf && (!bitAt old 63 || decide (bits old 32 31 < kept.drop))) }

/-! ## Set-aside states (R277, R347) -/

/-- A set-aside state as the slot would be with it. -/
def Aside.slot (a : Aside) : Slot :=
  { Slot.init with
    rf := a.rf
    pw := a.pw
    pc := a.pc
    n := a.n
    view := a.view
    streams := a.streams
    grantN := a.grantN
    grantReq := a.grantReq
    schk := a.schk
    tvec := a.tvec
    task := a.task
    taskh := a.taskh
    level := a.level
    ceil := a.ceil }

/-- Where the state that slot `k` sets aside at depth `d` lies in a core image. -/
def asideOff (c : Ctx) (k d : Nat) : Nat := 0x100000 + slotOf k * (2 ^ 20 / slotsOf c.slots) + d * (shareOf c.slots + 1024)

/-- A set-aside state of which nothing is kept. -/
def Aside.blank : Aside := ⟨[], [], 0, 0, 0, [], 0, 0, 0, false, 0, none, 0, 0, 0, [], 0⟩

/-- Quads of a set-aside state's pending writes for which the share has room behind the registers. -/
def asideRoom (c : Ctx) : Nat := (shareOf c.slots - 0x200) / 8 - 1

/-- What an image holds of a set-aside state: the registers that a task start sets, its pending writes behind them, and its quads behind the
share. -/
def asideBytes (c : Ctx) (a : Aside) : List Nat :=
  let l := ((packItems (asideRoom c) (pendItems a.n a.pw)).map (toLE 8)).flatten
  a.rf.rdN 0 0x200 ++ l ++ List.replicate (shareOf c.slots - 0x200 - l.length) 0 ++ ((taskQuads c a.slot).map (toLE 8)).flatten

/-- A kept set-aside state with what its part of an image says. -/
def asideFrom (c : Ctx) (k : Nat) (part : Mem) (kept : Aside) : Aside :=
  let s := taskFrom k (cellsAt 0 (part.rdN 0 0x200)) (fun i => part.num (shareOf c.slots + 8 * i) 8) kept.slot
  let l := unpackItems (pendItems kept.n kept.pw) ((List.range (asideRoom c + 1)).map (fun i => part.num (0x200 + 8 * i) 8))
  { kept with
    grantP := 0
    rf := s.rf
    pw := pendFrom s.n l.1
    pc := s.pc
    n := s.n
    view := s.view
    streams := s.streams
    grantN := s.grantN
    grantReq := s.grantReq
    schk := s.schk
    tvec := s.tvec
    task := s.task
    taskh := s.taskh
    level := s.level
    ceil := s.ceil }

end Sys2Proof.Machine
end

