-- ==== Sys2Proof/Machine/Tasks.lean ====
section
/-! DEFINITION. Tasks: records, deques, handle buffers, starting and ending, forking and joining, stealing, task identity
(R41, R70, R252 to R260, R266 to R268, R273, R275 to R278, R281, R282, R299, R318 to R320). -/
namespace Sys2Proof.Machine

/-! ## Path names (R233, R318) -/

/-- The generator value of R233 after its last step. -/
def gen (key ctr : Nat) : Nat :=
  let c1 := 0x9C4E62F135A7D80B
  let c2 := 0xC2B51F368E497A6D
  let z := (ctr + key * c1) % 2 ^ 64
  let z := z ^^^ (z / 2 ^ 31)
  let z := z * c2 % 2 ^ 64
  let z := z ^^^ (z / 2 ^ 29)
  let z := z * c1 % 2 ^ 64
  z ^^^ (z / 2 ^ 32)

/-- The running task's next path name; its ordinal advances (R318). -/
def Slot.nextPath (s : Slot) : Nat := match s.task with
  | some t => gen t.e.path (t.ord + 1)
  | none => gen 0 1
def Slot.countPath (s : Slot) : Slot := { s with task := s.task.map (fun t => { t with ord := t.ord + 1 }) }

/-! ## Task records (R252, R253) -/

def recEntry (q : List Nat) : Nat := bits (q.getD 0 0) 0 56
def recSlt (q : List Nat) : Nat := bits (q.getD 0 0) 56 2
def recPri (q : List Nat) : Nat := bits (q.getD 0 0) 58 2
def recArg (q : List Nat) (i : Nat) : Nat := q.getD (i + 1) 0
def recJoff (q : List Nat) : Nat := bits (q.getD 7 0) 0 21
def recJoct (q : List Nat) : Nat := bits (q.getD 7 0) 21 11
def recJv (q : List Nat) : Bool := bitAt (q.getD 7 0) 32
def recHb (q : List Nat) : Nat := bits (q.getD 7 0) 33 7

/-- Is the record refused, for a context with the given SLOTS code (R253)? -/
def recRefused (slots : Nat) (q : List Nat) : Bool :=
  bits (q.getD 0 0) 60 4 != 0 || bits (q.getD 7 0) 40 24 != 0 || recSlt q == 3 || recEntry q % 4 != 0
  || (if recJv q then recJoff q % 8 != 0 else recJoff q != 0 || recJoct q != 0)
  || decide (64 < recHb q) || decide (shareOf slots < shareOf (recSlt q))

/-- The quads of a record read as bytes. -/
def quadsOf (l : List Nat) (n : Nat) : List Nat := (List.range n).map (fun i => ofLE ((l.drop (8 * i)).take 8))

/-! ## Handle buffers (R254, R255) -/

/-- The first granule of a free run of `n` granules in the pool. -/
def poolFit (bufs : List Buf) (n : Nat) : Option Nat :=
  let busy := fun g => bufs.any (fun b => let o := (b.off % 2 ^ 18 - 0x30000) / 1024; decide (o ≤ g) && decide (g < o + b.size))
  (List.range (65 - n)).find? (fun g => (List.range n).all (fun i => !busy (g + i)))

/-- Allots a buffer to slot `k`; its handle. -/
def allot (k n : Nat) (m : Mach) : Option (Nat × Mach) :=
  let c := m.core (coreOf k)
  match poolFit c.bufs n with
  | none => none
  | some g =>
    let gn := (c.gens.get 0 g + 1) % 2 ^ 32
    let off := coreOf k % 8 * 2 ^ 18 + 0x30000 + 1024 * g
    some (off + n * 2 ^ 21 + gn * 2 ^ 32,
      (m.setCore (coreOf k) { c with bufs := c.bufs ++ [⟨off, n, gn, some k, false⟩], gens := c.gens.put g gn }).updSlot k
        (fun s => { s with owned := s.owned ++ [off] }))

/-! ## Deques (R256, R257) -/

/-- Hardware entries of a slot's deque. -/
def dqRoom (m : Mach) (k : Nat) : Nat := 64 / slotsOf (m.ctx (m.slot k).ctx).slots
def dqLgn (s : Slot) : Nat := bits s.dqring 0 6
def dqBase (s : Slot) : Nat := bits s.dqring 7 49 * 128

/-- Does the slot hold no queued task? -/
def Slot.dqEmpty (s : Slot) : Bool := s.deque.isEmpty && s.spilled.isEmpty

/-- May a push succeed? -/
def canPush (m : Mach) (k : Nat) : Bool :=
  let s := m.slot k
  decide (s.deque.length < dqRoom m k) || (dqLgn s != 0 && decide (s.spilled.length < 2 ^ dqLgn s))

/-- The virtual address of spill entry `i`, counted from the oldest. -/
def spillVa (s : Slot) (i : Nat) : Nat := dqBase s + 128 * ((s.spillHead + i) % 2 ^ dqLgn s)

/-- Where a push would spill to, when the hardware entries are full. -/
def pushSpills (m : Mach) (k : Nat) : Option Nat :=
  let s := m.slot k
  if s.deque.length < dqRoom m k then none else some (spillVa s s.spilled.length)

/-- The bytes of a spill entry: the record, the path name, zeros. -/
def entryBytes (e : Entry) : List Nat := (e.quads.map (toLE 8)).flatten ++ toLE 8 e.path ++ List.replicate 56 0

/-- A push at the bottom; the entry nearest the top moves to the spill region, at `pa`, when the hardware entries are full. -/
def pushBottom (k : Nat) (pa : Option Nat) (e : Entry) (m : Mach) : Mach :=
  let s := m.slot k
  match pushSpills m k, s.deque with
  | some _, t :: l =>
    let m := match pa with
      | some pa => engStore (cellsAt pa (entryBytes t)) m
      | none => m
    m.setSlot k { s with deque := l ++ [e], spilled := s.spilled ++ [t], spillCnt := s.spillCnt + 1 }
  | _, _ => m.setSlot k { s with deque := s.deque ++ [e] }

/-- Where the deque logic finds spill entry `i` when no instruction translates it: nowhere if it does not translate, or in a hole (log
entry 53). -/
def spillSpot (k i : Nat) (m : Mach) : Option Nat × Mach :=
  let s := m.slot k
  let p := deviceXlate s.ctx k (spillVa s i) .read m
  (p.1.filter (fun pa => paKind m.dev pa != .hole), p.2)

/-- The entry that comes back from `pa` in the spill region has the record and the path name that stand there; poison ends the context (R344). -/
def unspill (k : Nat) (pa : Option Nat) (e : Entry) (m : Mach) : Entry × Mach :=
  match pa with
  | none => (e, m)
  | some pa =>
    let m := if paKind m.dev pa == .host then hostBus pa m else findL2 pa 128 (useLine (pa / 128) 0 (bringLine (pa / 128) m))
    ({ e with quads := (List.range 8).map (fun j => m.mem.num (pa + 8 * j) 8), path := m.mem.num (pa + 64) 8 },
      if poisoned m pa 128 then endContext (m.slot k).ctx 0x81 k pa m else m)

/-- Does taking the bottom entry leave the hardware entries empty while the spill region is not? -/
def Slot.popRefills (s : Slot) : Bool := decide (s.deque.length ≤ 1) && !s.spilled.isEmpty

/-- When the hardware entries are empty and the spill region is not, its newest entry moves back, from `pa`. -/
def refillFrom (k : Nat) (pa : Option Nat) (m : Mach) : Mach :=
  let s := m.slot k
  match s.deque, s.spilled.getLast? with
  | [], some e =>
    let r := unspill k pa e m
    unlessEnded s.ctx (fun m => m.updSlot k (fun s =>
      { s with deque := s.deque ++ [r.1], spilled := s.spilled.dropLast, spillCnt := s.spillCnt - 1 })) r.2
  | _, _ => m

/-- The same where no instruction translates. -/
def refillDeque (k : Nat) (m : Mach) : Mach :=
  let s := m.slot k
  if s.deque.isEmpty && !s.spilled.isEmpty then
    let p := spillSpot k (s.spilled.length - 1) m
    refillFrom k p.1 p.2
  else m

/-- The bottom entry; `refill` brings a spilled one where the hardware entries are then empty. -/
def popBottom (k : Nat) (refill : Mach → Mach) (m : Mach) : Option (Entry × Mach) :=
  let s := m.slot k
  s.deque.getLast?.map (fun e => (e, refill (m.setSlot k { s with deque := s.deque.dropLast })))

/-- The top entry: the oldest spilled one first. -/
def takeTop (k : Nat) (m : Mach) : Option (Entry × Mach) :=
  let s := m.slot k
  match s.spilled with
  | e :: l =>
    let p := spillSpot k 0 m
    let r := unspill k p.1 e p.2
    some (r.1, unlessEnded s.ctx (fun m => m.updSlot k (fun s =>
      { s with spilled := l, spillCnt := s.spillCnt - 1, spillHead := (s.spillHead + 1) % 2 ^ dqLgn s })) r.2)
  | [] => match s.deque with
    | e :: l => some (e, m.setSlot k { s with deque := l })
    | [] => none

/-! ## Gangs (R259, R260, R273, R274) -/

/-- Cores of a unit of shape SHP (R261). -/
def unitSize (shp : Nat) : Nat := if shp = 0 then 2 else if shp = 1 then 8 else 64

/-- The live count of a gang changes; `up` adds. -/
def gangCount (g : Option Nat) (n : Nat) (up : Bool) (m : Mach) : Mach :=
  match g.bind m.gangs.find, g with
  | some G, some i => { m with gangs := m.gangs.put i { G with live := if up then G.live + n else G.live - n } }
  | _, _ => m

/-- The gang makes progress. -/
def gangBeat (g : Option Nat) (m : Mach) : Mach :=
  match g.bind m.gangs.find, g with
  | some G, some i => { m with gangs := m.gangs.put i { G with timer := m.sid } }
  | _, _ => m

/-- GANGPOS of a task on a core: a root task carries its own, any other takes the core's place in its gang's units. -/
def gangPos (m : Mach) (e : Entry) (core : Nat) : Nat :=
  match e.origin with
  | .root => e.word
  | _ => match e.gang.bind m.gangs.find with
    | none => 0xFFFF
    | some G =>
      let n := unitSize G.shp
      match G.units.idxOf? (core / n) with
      | some i => posWord i (core % n) G.shp G.units.length
      | none => posWord 0xFFFF 0 G.shp G.units.length

/-! ## Starting a task (R41, R56, R254) -/

/-- Register bytes that a task start sets: below 0x200, and the predicates and masks. -/
def isTaskByte (a : Nat) : Bool := decide (a < 0x200) || decide (0x8000 ≤ a)

/-- The registers of a task that starts with six arguments (R41). -/
def startRegs (rf : Mem) (args : List Nat) : Mem :=
  Mem.wrAll (rf.filter (fun c => !isTaskByte c.1)) ((args.zipIdx.map (fun a => gCells a.2 a.1)).flatten)

/-- Buffers given by an earlier task of the slot pass to the one that starts (R299). -/
def receiveBufs (k : Nat) (m : Mach) : Mach :=
  let held := ((m.slot k).aside.map (·.owned)).flatten
  let mine := (m.core (coreOf k)).bufs.filter (fun b => b.given && b.owner == some k && !held.contains b.off)
  let offs := mine.map (·.off)
  let m := m.updCore (coreOf k) (fun c => { c with bufs := c.bufs.map (fun b => if offs.contains b.off then { b with given := false } else b) })
  m.updSlot k (fun s => { s with owned := s.owned ++ offs })

/-- The word with which a fired task starts: the entry's pending word, which becomes the running one (R247). -/
def firedWord (e : Entry) (m : Mach) : Nat × Mach :=
  match e.origin with
  | .fired cl i =>
    let u := m.cluster cl
    match u.subs.find i with
    | some s => match s.task with
      | .pending h _ => (h, m.setCluster cl { u with subs := u.subs.put i { s with task := .running h } })
      | _ => (e.word, m)
    | none => (e.word, m)
  | _ => (e.word, m)

def isFired : Origin → Bool
  | .fired _ _ => true
  | _ => false

/-- Does the start invalidate L1 (R247, R254)? -/
def freshL1 : Origin → Bool
  | .forked => false
  | _ => true

/-- A task starts in slot `k`; nothing when its buffer cannot be allotted. -/
def beginTask (k : Nat) (e : Entry) (stolen : Bool) (m : Mach) : Option Mach :=
  let q := e.quads
  let m := receiveBufs k (m.updSlot k (fun s => { s with owned := [] }))
  match (if recHb q = 0 then some (0, m) else allot k (recHb q) m) with
  | none => none
  | some (h, m) =>
    let w := firedWord e m
    let m := w.2
    let args := (List.range 6).map (fun i => if isFired e.origin && i == 5 then w.1 else recArg q i)
    let m := if freshL1 e.origin then l1Inv (coreOf k) m else m
    let pos := gangPos m e (coreOf k)
    let e := if isFired e.origin then { e with word := w.1 } else e
    some (m.updSlot k (fun s =>
      let c := m.ctx s.ctx
      let s : Slot := { s with
        rf := startRegs s.rf args
        pw := []
        pc := recEntry q
        n := 0
        view := 0
        streams := []
        grantP := 0
        grantN := 0
        grantReq := 0
        schk := c.schk
        tvec := c.tvec
        taskh := h
        next := none
        nextStolen := false
        wait := none
        look := []
        parked := false
        rep := none
        ceil := recPri q
        cycles := 0
        task := some ⟨e, stolen, coreOf k, slotOf k, 0, bits pos 0 16, bits pos 16 6, bits pos 22 2, bits pos 24 16,
          ((e.gang.bind m.gangs.find).map (·.index)).getD 0⟩ }
      { s with level := s.ceiling }))

/-- A slot that may take a task from its own deque: it runs none, is to start none, and stands in no JOIN or blocked LAUNCH. -/
def Slot.idle (s : Slot) : Bool := s.run == .running && s.task.isNone && s.next.isNone && s.aside.isEmpty

/-- TASK_START (R254, R256): the slot's assigned task starts, or its own bottom task. -/
def execTaskStart (k : Nat) : State → Host.Outcome State Fault Refusal := device do
  let m ← get
  let s := m.slot k
  enabledIf (s.run == .running && s.enabled && s.task.isNone)
  match s.next with
  | some e =>
    let m' ← need (beginTask k e s.nextStolen m)
    change (fun _ => m')
  | none =>
    enabledIf s.idle
    let p ← need (popBottom k (refillDeque k) m)
    if (p.2.ctx s.ctx).st == .ended then change (fun _ => p.2)
    else
    let m1 := p.2.updSlot k (fun s => { s with next := some p.1, nextStolen := false, backoff := none, victims := [] })
    match beginTask k p.1 false m1 with
    | some m' => change (fun _ => m')
    | none => change (fun _ => m1)

/-! ## Firing (R247) -/

/-- Pushes a fired task, if a push can succeed now: on the lowest slot of the context on the entry's core that holds no task, or on the one that
subscribed; while the core holds no slot of the context the fire waits. -/
def firePush (cl i : Nat) (h : Nat) (m : Mach) : Option Mach :=
  match (m.cluster cl).subs.find i with
  | none => none
  | some s =>
    let core := coreOf s.slot
    let own := fun j => (m.slot j).run != .free && (m.slot j).ctx == s.ctx
    let k := ((List.range 4).map (keyOf core)).find? (fun j => let x := m.slot j
      own j && x.task.isNone && x.next.isNone && x.aside.isEmpty)
    let k := k.getD s.slot
    let p := match pushSpills m k with
      | some va => if own k && canPush m k then deviceXlate s.ctx k va .write m else (none, m)
      | none => (none, m)
    let pa := p.1.filter (fun pa => paKind m.dev pa != .hole)
    let e : Entry := ⟨(s.quads.set 5 s.va).set 6 h, s.path, s.gang, .fired cl i, s.place, octetOf core, h⟩
    if (p.2.ctx s.ctx).st == .ended && (m.ctx s.ctx).st != .ended then some p.2
    else if own k && canPush m k && ((pushSpills m k).isNone || pa.isSome) then some (pushBottom k pa e p.2) else none

/-- `fire(e, h)`. -/
def fireSub (cl i h : Nat) (m : Mach) : Mach :=
  match (m.cluster cl).subs.find i with
  | none => m
  | some s =>
    let p := firePush cl i h m
    unlessEnded s.ctx (fun m =>
      let m := gangCount s.gang 1 true m
      let u := m.cluster cl
      m.setCluster cl { u with subs := u.subs.put i { s with fired := h % 2 ^ 32, task := .pending h p.isNone } }) (p.getD m)

/-! ## Ending a task (R70, R247, R268, R299) -/

/-- The subscription entry of a fired task that ends. -/
def subEnd (cl i : Nat) (m : Mach) : Mach :=
  let u := m.cluster cl
  match u.subs.find i with
  | some s => match s.task with
    | .running h =>
      let m := m.setCluster cl { u with subs := u.subs.put i { s with task := .none } }
      if !bitAt s.latest 33 && decide (h % 2 ^ 32 < s.latest % 2 ^ 32) then fireSub cl i s.latest m else m
    | _ => m
  | none => m

/-- The JOIN or blocked LAUNCH whose task was set aside continues (R265, R277). -/
def restoreAside (s : Slot) : Slot := match s.aside with
  | [] => s
  | a :: l =>
    let rest := s.rf.filter (fun c => !isTaskByte c.1)
    { s with rf := Mem.wrAll rest (a.rf.map (fun c => (c.1, c.2.toNat))), pw := a.pw, pc := a.pc, n := a.n, view := a.view, streams := a.streams,
             grantP := a.grantP, grantN := a.grantN, grantReq := a.grantReq, schk := a.schk, tvec := a.tvec, task := a.task, taskh := a.taskh,
             level := a.level, ceil := a.ceil, owned := a.owned, cycles := a.cycles, aside := l }

/-- A joiner that was saved with its image has lost its lanes: it claims them again when it goes on (R221; DEDUCED, log entry 65). -/
def reclaim (k : Nat) (m : Mach) : Mach :=
  let s := m.slot k
  if s.task.isSome && s.grantN != 0 && s.grantP == 0 then
    let o := m.octet (octetOf (coreOf k))
    (m.setOctet (octetOf (coreOf k)) { o with claims := o.claims.filter (fun c => c.slot != k) ++
      [⟨k, s.grantN, if (m.ctx s.ctx).det then s.grantN else 16, true⟩] }).setSlot k { s with wait := some .lanes }
  else m

/-- The slot's task ends. A handler that it was in has not returned: TFLG.INH and the writes saved at its entry stay (DESIGN CHOICE, log
entry 32). -/
def endTask (k : Nat) (m : Mach) : Mach :=
  let s := m.slot k
  match s.task with
  | none => m
  | some t =>
    let core := coreOf k
    let owned := s.owned
    let m := m.updCore core (fun c => { c with bufs := c.bufs.filter (fun b => !owned.contains b.off || b.given) })
    let m := m.setSlot k (restoreAside { s with
      rf := s.pw.foldl (fun rf p => rf.wrAll p.cells) s.rf
      pw := []
      task := none
      owned := []
      streams := []
      grantP := 0
      grantN := 0
      grantReq := 0
      taskh := 0
      wait := none
      look := []
      parked := false
      rep := none })
    let m := reclaim k m
    let m := if recJv t.e.quads then { m with decs := m.decs ++ [⟨recJoct t.e.quads, recJoff t.e.quads⟩] } else m
    let m := gangBeat t.e.gang m
    let m := match t.e.origin with
      | .fired cl i => subEnd cl i m
      | .node cl i =>
        let u := m.cluster cl
        match u.nodes.find i with
        | some n => m.setCluster cl { u with nodes := u.nodes.put i { n with ended := true } }
        | none => m
      | _ => m
    gangCount t.e.gang 1 false m

/-- What EXIT and the end of a comet do to the comet of the slot (R85). -/
def exitComet (k : Nat) (m : Mach) : Mach :=
  match (m.slot k).comet with
  | some (.leader _ _ _) => dissolve k m
  | some _ => leaveComet k m
  | none => m

/-- EXIT (R70). -/
def execExit (x : ZW) : State → Host.Outcome State Fault Refusal := run <|
  issue x.h 0 0 (fun _ => {}) do
    let m ← get
    let k := m.cur
    let s := m.sl
    let cmd := m.cmds.find? (fun c => c.slot == k)
    let busy := s.ocLd != 0 || !s.il.isEmpty || s.ocSt != 0 || s.ocAt != 0 || s.ocLw != 0 || cmd.isSome
    let w := match cmd with
      | some c => Wait.idle k c.tl
      | none => if s.ocLd != 0 || s.ocSt != 0 || s.ocAt != 0 || s.ocLw != 0 then .allZero true true true true else .landed
    blockWith busy (fun m => sendMine k (m.updSlot k (fun s => { s with streams := [], grantP := 0, grantN := 0, grantReq := 0 }))) w
    halt (fun m => .stay (endTask k (exitComet k (retire x.h none m))))

/-! ## Forking (R275, R276, R320) -/

/-- The deque that a FORK pushes on: its own, or in deterministic mode the one that the child's path chooses (R320). -/
def forkTarget (m : Mach) (path : Nat) : Nat :=
  let place := match m.sl.task with
    | some t => t.e.place
    | none => []
  if m.cx.det && !place.isEmpty then place.getD (path % 2 ^ 32 % place.length) m.cur else m.cur

/-- The record of the task that FORK makes (R275). -/
def forkRecord (x : MW) (m : Mach) (d b : Nat) : List Nat :=
  let md := x.c.toNat
  let s := m.sl
  let pri := if bitAt md 0 then min (bits md 1 2) s.ceiling else s.ceiling
  [d + m.cx.slots * 2 ^ 56 + pri * 2 ^ 58] ++ (List.range 6).map (fun i => s.g (gNo x.a + i))
    ++ [(if bitAt md 3 then 0 else b % 2 ^ 21 + octetOf m.curCore * 2 ^ 21 + 2 ^ 32) + x.disp.toNat % 128 * 2 ^ 33]

/-- The child enters its deque, in its parent's gang (R275, R318); `pa` is where an entry spills to. -/
def forkChild (q : List Nat) (pa : Option Nat) (m : Mach) : Mach :=
  let s := m.sl
  let g := s.task.bind (·.e.gang)
  let place := match s.task with
    | some t => t.e.place
    | none => []
  gangCount g 1 true (pushBottom (forkTarget m s.nextPath) pa ⟨q, s.nextPath, g, .forked, place, octetOf m.curCore, 0⟩ m)

/-- FORK. -/
def execFork (x : MW) : State → Host.Outcome State Fault Refusal := run <|
  issue x.h x.a x.b (fun _ => { rd := gPlain x.d ++ gPlains x.a 6 ++ (if bitAt x.c.toNat 3 then [] else gPlain x.b) }) do
    let md := x.c.toNat
    let nj := bitAt md 3
    let d ← rdGp x.d
    let b ← if nj then pure 0 else rdGp x.b
    let s ← mine id
    let m ← get
    accessGate
    trapIf (decide (2 ^ 56 ≤ d)) 0x32 0
    let q := forkRecord x m d b
    trapIf (recRefused m.cx.slots q) 0x32 0
    trapIf (!nj && b % 8 != 0) 0x14 b
    trapIf (!nj && spFails m b 8) 0x15 b
    trapIf (!canPush m (forkTarget m s.nextPath)) 0x33 0
    let pa ← xlateAll ((pushSpills m (forkTarget m s.nextPath)).toList.map (fun va => (va, Acc.write)))
    if nj then pure ()
    else
      let l ← spRead b 8
      spWrite b (toLE 8 ((ofLE l + 1) % 2 ^ 64))
    change (forkChild q pa.head?)
    changeMine Slot.countPath
    pure none

/-! ## Joining (R277, R278) -/

/-- What JOIN or a blocked LAUNCH sets aside. -/
def setAside (s : Slot) : Slot :=
  { s with aside := ⟨s.rf.filter (fun c => isTaskByte c.1), s.pw, s.pc, s.n, s.view, s.streams, s.grantP, s.grantN, s.grantReq, s.schk, s.tvec,
                     s.task, s.taskh, s.level, s.ceil, s.owned, s.cycles⟩ :: s.aside,
           task := none, owned := [], grantP := 0, grantN := 0, grantReq := 0, streams := [], pw := [] }

/-- The set-aside state is written to the save area at once (R347), but for reduced service (R365). -/
def writeAside (k : Nat) (m : Mach) : Mach :=
  let s := m.slot k
  let c := m.ctx s.ctx
  match s.aside, c.cores.idxOf? (coreOf k) with
  | a :: l, some i => if m.dev.red then m else engStore (cellsAt (c.save + 2 ^ 21 * i + asideOff c k l.length) (asideBytes c a)) m
  | _, _ => m

/-- The wait and work of JOIN on the counter at `ea`; it ends with the counter at 0 and L1 invalidated. -/
def joinOn (ea : Nat) : M Unit := do
  accessGate
  let m ← get
  trapIf (ea % 8 != 0) 0x14 ea
  trapIf (spFails m ea 8) 0x15 ea
  let l ← spRead ea 8
  if ofLE l = 0 then change (fun m => l1Inv m.curCore m)
  else
    let s ← mine id
    if !s.dqEmpty && decide (s.aside.length < 16) then
      blockIf (!s.il.isEmpty) .landed
      let pa ← xlateAll (if s.popRefills then [(spillVa s (s.spilled.length - 1), .read)] else [])
      halt (fun m => .stay (match popBottom m.cur (refillFrom m.cur pa.head?) m with
        | some (e, m) => unlessEnded s.ctx (fun m => writeAside m.cur (m.updSlot m.cur (fun s => { setAside s with next := some e, nextStolen := false }))) m
        | none => m))
    else block (.join m.curCore ea)

/-- JOIN (R277). -/
def execJoin (x : MW) : State → Host.Outcome State Fault Refusal := run <|
  issue x.h x.a x.b (fun _ => { rd := gPlain x.a }) do
    let a ← rdGp x.a
    joinOn (addDisp a x.disp)
    pure none

/-- The fold of JOINM. -/
def joinStep (op : Nat) (signed : Bool) (x e : Nat) : Nat :=
  let le := if signed then decide (sx 64 x ≤ sx 64 e) else decide (x ≤ e)
  match op with
  | 0 => (x + e) % 2 ^ 64
  | 1 => fadd32 (x % 2 ^ 32) (e % 2 ^ 32)
  | 2 => if le then x else e
  | _ => if le then e else x

/-- JOINM (R278). -/
def execJoinm (x : MW) : State → Host.Outcome State Fault Refusal := run <|
  issue x.h x.a x.b (fun _ => { rd := gPlain x.a ++ gPlain x.b, pops := [(x.d, .write)] }) do
    let a ← rdGp x.a
    let b ← rdGp x.b
    let o := bits b 0 21
    let n := bits b 32 16
    trapIf (bits b 21 11 != 0 || bits b 48 16 != 0 || o % 8 != 0 || n == 0 || decide (4096 < n)) 0x18 0
    let m ← get
    trapIf (spFails m o (8 * n)) 0x15 o
    joinOn (addDisp a x.disp)
    let l ← spRead o (8 * n)
    let q := quadsOf l n
    wrLand .ready x.d (q.tail.foldl (joinStep (bits x.c.toNat 0 2) (Ty.signed x.ty)) (q.headD 0))
    pure none

/-- JOIN_DECREMENT (R268): the steal network subtracts 1 at the counter's bank. -/
def execJoinDecrement (n : Nat) : State → Host.Outcome State Fault Refusal := device do
  let m ← get
  let d ← need (m.decs[n]?)
  change (fun m =>
    let a := spPlace (8 * d.octet) d.off
    let m := storeSp (cellsAt a (toLE 8 (dec64 (m.spad.num a 8)))) m
    { m with decs := m.decs.eraseIdx n })

/-! ## Handles (R299) -/

/-- The running task's buffer that a handle names. -/
def ownBuf (h : Nat) : M Buf := do
  let m ← get
  match bufOf m m.curCore h with
  | some b => do
    trapIf (!m.sl.owned.contains b.off) 0x3F 0
    pure b
  | none => trap 0x3F 0

/-- HGIVE. -/
def execHgive (x : SW) : State → Host.Outcome State Fault Refusal := run <|
  issue x.h x.a x.b (fun s => { rd := gRng s x.a, pops := [(x.a, .read)], handleA := true }) do
    let a ← rdG x.a
    let b ← ownBuf a
    change (fun m => m.updCore m.curCore (fun c => { c with bufs := c.bufs.map (fun y => if y.off = b.off then { y with given := true } else y) }))
    pure none
/-- HFREE: it waits for commands with a range in the buffer. -/
def execHfree (x : SW) : State → Host.Outcome State Fault Refusal := run <|
  issue x.h x.a x.b (fun s => { rd := gRng s x.a, pops := [(x.a, .read)], handleA := true }) do
    let a ← rdG x.a
    let b ← ownBuf a
    freeOwn b
    pure none

/-! ## Stealing (R266, R267) -/

/-- Is slot `j` in the stealing domain of slot `k`? -/
def inDomain (dom k j : Nat) : Bool :=
  let a := coreOf k
  let b := coreOf j
  match dom with
  | 0 => false
  | 1 => pairOf a == pairOf b
  | 2 => octetOf a == octetOf b
  | 3 => clusterOf a == clusterOf b
  | 4 => dieOf a == dieOf b
  | _ => true

def victimsOf (m : Mach) (k : Nat) : List Nat :=
  ((m.slotsOfCtx (m.slot k).ctx).filter (fun j => j != k && inDomain (m.slot k).steald k j))

/-- May the slot steal now? -/
def mayStealNow (m : Mach) (k : Nat) : Bool :=
  let s := m.slot k
  s.idle && s.dqEmpty && !(m.ctx s.ctx).det && s.enabled

/-- STEAL_ROUND: a round starts at the victim that the generator chooses. -/
def execStealRound (k : Nat) : State → Host.Outcome State Fault Refusal := device do
  let m ← get
  let s := m.slot k
  let v := victimsOf m k
  enabledIf (mayStealNow m k && s.victims.isEmpty && s.backoff.isNone && !v.isEmpty)
  let i := gen (coreOf k) s.round % 2 ^ 32 % v.length
  change (fun m => m.updSlot k (fun s => { s with victims := v.drop i ++ v.take i, round := s.round + 1 }))

/-- STEAL_BACKOFF_EXPIRE: 1 µs after an unsuccessful round. -/
def execStealBackoffExpire (k : Nat) : State → Host.Outcome State Fault Refusal := device do
  let m ← get
  let t ← need (m.slot k).backoff
  enabledIf (decide (t ≤ m.sid))
  change (fun m => m.updSlot k (fun s => { s with backoff := none }))

/-- STEAL_REQUEST: the next victim answers with its top entry or "empty"; a saved slot answers "empty" (R258). -/
def execStealRequest (k : Nat) : State → Host.Outcome State Fault Refusal := device do
  let m ← get
  enabledIf (mayStealNow m k)
  match (m.slot k).victims with
  | [] => notEnabled
  | v :: l =>
    match (if (m.slot v).run == .saved then none else takeTop v m) with
    | some (e, m') => change (fun m => unlessEnded (m.slot k).ctx (fun m => gangBeat e.gang (m.updSlot k (fun s =>
        { s with next := some e, nextStolen := true, victims := [], stealOk := (s.stealOk + 1) % 2 ^ 32 }))) m')
    | none => change (fun m => m.updSlot k (fun s =>
        { s with victims := l, stealEmpty := (s.stealEmpty + 1) % 2 ^ 32, backoff := if l.isEmpty then some (m.sid + 1000) else none }))

/-! ## Identity, deques, watchdog interval (R281, R319) -/

def gangOf (m : Mach) (s : Slot) : Option Gang := (s.task.bind (·.e.gang)).bind m.gangs.find

/-- TASKID. -/
def execTaskid (x : SW) : State → Host.Outcome State Fault Refusal := run <|
  issue x.h x.a x.b (fun s => { wr := gRng s x.d, pops := [(x.d, .write)] }) do
    let m ← get
    wrG 2 x.d (taskidWord m.sl)
    pure none
/-- STEALDOM. -/
def execStealdom (x : IW) : State → Host.Outcome State Fault Refusal := run <|
  issue x.h 0 0 (fun _ => {}) do
    changeMine (fun s => { s with steald := x.imm.toNat, victims := [] })
    pure none
/-- DQSTAT. -/
def execDqstat (x : SW) : State → Host.Outcome State Fault Refusal := run <|
  issue x.h x.a x.b (fun _ => { pops := [(x.d, .write)], nondet := true }) do
    let s ← mine id
    wrLand .ready x.d (s.deque.length + s.spilled.length * 2 ^ 8)
    pure none
/-- PCHK. Its word reflects the state at issue, and PRE also a request that comes before the result lands (`askedFor`). -/
def execPchk (x : SW) : State → Host.Outcome State Fault Refusal := run <|
  issue x.h x.a x.b (fun _ => { pops := [(x.d, .write)], nondet := true }) do
    let m ← get
    let live := match gangOf m m.sl with
      | some G => G.live
      | none => 0
    wrLand .gang x.d (min live (2 ^ 32 - 1) + ofBool m.cx.pre.isSome * 2 ^ 32)
    pure none
/-- WDCFG. -/
def execWdcfg (x : IW) : State → Host.Outcome State Fault Refusal := run <|
  issue x.h 0 0 (fun _ => {}) do
    change (fun m => match m.sl.task.bind (·.e.gang), gangOf m m.sl with
      | some g, some G => { m with gangs := m.gangs.put g { G with wdi := x.imm.toNat, per := true, timer := m.sid } }
      | _, _ => m)
    pure none
/-- DPATH (R319). -/
def execDpath (x : SW) : State → Host.Outcome State Fault Refusal := run <|
  issue x.h x.a x.b (fun s => { wr := gRng s x.d, pops := [(x.d, .write)] }) do
    let s ← mine id
    wrG 2 x.d (match s.task with
      | some t => if bitAt x.mod.toNat 0 then t.ord % 2 ^ 64 else t.e.path
      | none => 0)
    pure none
/-- DQSPILL (R282). -/
def execDqspill (x : MW) : State → Host.Outcome State Fault Refusal := run <|
  issue x.h x.a x.b (fun _ => { rd := gPlain x.a ++ gPlain x.b, priv := true }) do
    let a ← rdGp x.a
    let b ← rdGp x.b
    let ea := addDisp a x.disp
    let s ← mine id
    trapIf (ea % 128 != 0 || decide (64 ≤ b) || !(b == 0 || (decide (7 ≤ b) && decide (b ≤ 20)))) 0x18 0
    trapIf (!s.spilled.isEmpty) 0x34 0
    changeMine (fun s => { s with dqring := b + bits ea 7 49 * 128, spillHead := 0, spillCnt := 0 })
    pure none

end Sys2Proof.Machine
end

