-- ==== Sys2Proof/Machine/Queues.lean ====
section
/-! DEFINITION. Launch queues, packets, the placement of gangs and fences (R259 to R265, R279, R280). -/
namespace Sys2Proof.Machine

/-! ## Units (R259, R264, R265) -/

/-- Is the slot blocked in a LAUNCH to the queue named (R265)? -/
def lending (m : Mach) (c : Nat) (q : Option Nat) (k : Nat) : Bool :=
  let s := m.slot k
  s.run == .running && s.ctx == c && s.next.isNone && s.il.isEmpty && (match s.wait, q with
    | some (.queueRoom c' q'), some q => c' == c && q' == q
    | _, _ => false)

/-- The slot of a core that takes a root task: one blocked in a LAUNCH to the queue, or else the lowest-numbered free one (R259, R265). -/
def freeSlot (m : Mach) (c : Nat) (q : Option Nat) (core : Nat) : Option Nat :=
  let ks := (List.range 4).map (keyOf core)
  (ks.find? (lending m c q)).orElse fun _ => ks.find? (fun k => (m.slot k).ctx == c && (m.slot k).idle)

/-- `n` tasks with the record's join counter are enqueued (R252). -/
def joinAdd (q : List Nat) (n : Nat) (m : Mach) : Mach :=
  if recJv q then
    let p := spPlace (8 * recJoct q) (recJoff q)
    storeSp (cellsAt p (toLE 8 ((m.spad.num p 8 + n) % 2 ^ 64))) m
  else m

def unitCores (shp u : Nat) : List Nat := (List.range (unitSize shp)).map (fun i => u * unitSize shp + i)

/-- Whole units of a shape among the context's cores, ascending. -/
def unitsOf (m : Mach) (c shp : Nat) : List Nat :=
  let cores := (m.ctx c).cores
  ((cores.map (· / unitSize shp)).dedup).filter (fun u => (unitCores shp u).all cores.contains)

def unitFree (m : Mach) (c : Nat) (q : Option Nat) (shp u : Nat) : Bool := (unitCores shp u).all (fun x => (freeSlot m c q x).isSome)

/-- What waits for units (R264, R279): the head LAUNCH of a queue of a context, or a SPAWN, named by 64 plus its slot; with its shape, its
groups, when it began to wait, and whether units are reserved for it. -/
structure Waiter where
  c : Nat
  q : Nat
  shp : Nat
  g : Nat
  since : Nat
  res : Bool
  deriving DecidableEq, Repr

/-- Its place in the round-robin order. -/
def turnOf (c q : Nat) : Nat := 2 ^ 20 * c + q

/-- The launch queue of a waiter, whose blocked LAUNCHes lend their cores (R265). -/
def queueOf (q : Nat) : Option Nat := if q < 64 then some q else none

/-- Head LAUNCHes that wait, but for queues in the error state, and SPAWNs that wait, in the order of (context, queue). -/
def waiters (m : Mach) : List Waiter :=
  (m.ctxs.map (fun e =>
    ((e.2.queues.filter (fun x => !x.2.err)).map (fun x => x.2.active.filterMap (fun a => match a.2 with
      | .placing t res =>
        let w := m.mem.num (e.2.qbase + x.1 * 65536 + a.1 % 256 * 256 + 8) 8
        some (Waiter.mk e.1 x.1 (bits w 16 2) (bits w 0 16) t res)
      | _ => none))).flatten
    ++ (m.slots.filterMap (fun s => match s.2.wait with
      | some (.units g shp t res) => if s.2.ctx == e.1 && s.2.run == .running then some ⟨e.1, 64 + s.1, shp, g, t, res⟩ else none
      | _ => none)))).flatten

/-- Those that hold reservations. -/
def reservers (m : Mach) : List Waiter := (waiters m).filter (·.res)

/-- Is a unit kept free for another launch (R264)? -/
def unitReserved (m : Mach) (c q shp u : Nat) : Bool :=
  (reservers m).any (fun r => !(r.c == c && r.q == q) &&
    (unitsOf m r.c r.shp).any (fun v => (unitCores r.shp v).any (unitCores shp u).contains && unitFree m r.c (queueOf r.q) r.shp v))

/-- The lowest `g` free units among the candidates. -/
def pickUnits (m : Mach) (c q shp g : Nat) (cands : List Nat) : Option (List Nat) :=
  let l := (cands.filter (fun u => unitFree m c (queueOf q) shp u && !unitReserved m c q shp u)).take g
  if l.length = g then some l else none

/-- The waiter whose turn it is among those of a kind: the first one after the queue that the dispatcher served last (R264). -/
def firstTurn (m : Mach) (l : List Waiter) : Option Waiter :=
  (l.find? (fun w => decide (m.dev.turn < turnOf w.c w.q))).orElse fun _ => l.head?

/-- May a waiting launch be placed now? -/
def Waiter.fits (m : Mach) (w : Waiter) : Bool := (pickUnits m w.c w.q w.shp w.g (unitsOf m w.c w.shp)).isSome

/-- The slots and positions of the root tasks: group, core index and slot key. -/
def rootSlots (m : Mach) (c : Nat) (q : Option Nat) (shp rmask : Nat) (units : List Nat) : List (Nat × Nat × Nat) :=
  (units.zipIdx.map (fun u => (List.range (unitSize shp)).filterMap (fun i =>
    if rmask = 0 ∨ bitAt rmask i then (freeSlot m c q (u.1 * unitSize shp + i)).map (fun k => (u.2, i, k)) else none))).flatten

/-- Assigns the root tasks to their slots; a blocked LAUNCH is set aside (R265). -/
def placeRoots (quads : List Nat) (gang : Option Nat) (shp ng : Nat) (path : Nat → Nat → Nat) (roots : List (Nat × Nat × Nat)) (m : Mach) : Mach :=
  let place := roots.map (·.2.2)
  roots.foldl (fun m r =>
    let m := if (m.slot r.2.2).task.isSome then writeAside r.2.2 (m.updSlot r.2.2 (fun s => { setAside s with wait := none })) else m
    let e : Entry := ⟨quads, path r.1 r.2.1, gang, .root, place, octetOf (coreOf r.2.2), posWord r.1 r.2.1 shp ng⟩
    m.updSlot r.2.2 (fun s => { s with next := some e, nextStolen := false, backoff := none, victims := [] })) m

/-! ## Packets (R261, R262) -/

def packetAt (c : Ctx) (q i : Nat) : Nat := c.qbase + q * 65536 + i % 256 * 256

def zeros (l : List Nat) : Bool := l.all (· == 0)

/-- A reserved TYPE, a reserved field that is not 0, or an NC out of range: what LAUNCH and QFENCE trap for (R280). -/
def packetReserved (p : List Nat) : Bool :=
  let h := p.getD 0 0
  let nc := bits h 16 4
  bits h 9 7 != 0 || bits h 20 44 != 0 || (match bits h 0 8 with
    | 0 => nc != 0
    | 1 => nc != 0 || bits (p.getD 1 0) 18 46 != 0 || bits (p.getD 3 0) 32 32 != 0 || !zeros ((p.drop 5).take 3) || !zeros (p.drop 16)
    | 2 => nc == 0 || decide (12 < nc) || !zeros (p.drop (1 + 2 * nc))
    | _ => true)

/-- What is wrong with a packet's own fields at its start: a cause code (R261, R262). -/
def packetBad (slots : Nat) (p : List Nat) : Option Nat :=
  let g := bits (p.getD 1 0) 0 16
  let shp := bits (p.getD 1 0) 16 2
  if packetReserved p then some 0x35
  else if bits (p.getD 0 0) 0 8 != 1 then none
  else if g == 0 || decide (4096 < g) || shp == 3 || p.getD 2 0 % 8 != 0 || decide (2 ^ unitSize shp ≤ p.getD 4 0) then some 0x35
  else if recRefused slots ((p.drop 8).take 8) then some 0x32 else none

/-- What stands against reading a fence counter: cause and address (R261). -/
def fenceBad (m : Mach) (c : Ctx) (va : Nat) : Option Nat :=
  if va % 8 != 0 then some 0x14
  else match reach m c va .read with
    | none => some 0
    | some pa => match paKind m.dev pa with
      | .hbm => none
      | .pooled => none
      | .hole => some 0x16
      | _ => some 0x19

/-- The walks to a FENCE's counters: the errors found, and a poisoned entry's address (R344). -/
def fenceWalk (c : Ctx) (vas : List Nat) (m : Mach) : Option Nat × Mach :=
  vas.foldl (fun r va => match r with
    | (none, m) => deviceWalk c va m
    | r => r) (none, m)

def setActive (c q i : Nat) (st : PacketSt) (m : Mach) : Mach :=
  m.updCtx c (fun x =>
    let y := x.queues.get Queue.init q
    { x with queues := x.queues.put q { y with active := (y.active.filter (fun a => a.1 != i)) ++ [(i, st)] } })

/-- Starts a parsed packet that nothing holds (R262). -/
def startPacket (c q i : Nat) (m : Mach) : Mach :=
  let x := m.ctx c
  let p := (List.range 32).map (fun j => m.mem.num (packetAt x q i + 8 * j) 8)
  match packetBad x.slots p with
  | some cause => queueError c q cause 0 m
  | none => match bits (p.getD 0 0) 0 8 with
    | 0 => setActive c q i .done m
    | 1 =>
      if (unitsOf m c (bits (p.getD 1 0) 16 2)).length < bits (p.getD 1 0) 0 16 then queueError c q 0x18 0 m
      else setActive c q i (.placing m.sid false) m
    | _ =>
      let conds := List.range (bits (p.getD 0 0) 16 4)
      match fenceWalk x (conds.map (fun k => p.getD (1 + 2 * k) 0)) m with
      | (some a, m) => endContext c 0x81 0 a m
      | (none, m) => match conds.find? (fun k => (fenceBad m x (p.getD (1 + 2 * k) 0)).isSome) with
      | some k => let va := p.getD (1 + 2 * k) 0; queueError c q ((fenceBad m x va).getD 0) va m
      | none => setActive c q i (.fencing conds) m

/-- Is the packet still to start or, for a FENCE, to complete, so that no later one is parsed? -/
def holdsQueue : PacketSt → Bool
  | .waitBar => true
  | .placing _ _ => true
  | .fencing _ => true
  | _ => false

def Queue.open_ (q : Queue) : List (Nat × PacketSt) := q.active.filter (fun a => a.2 != .done)

/-- Packets of a queue that have not completed. -/
def Queue.pendingCount (q : Queue) : Nat := q.tail - q.parsed + q.open_.length

/-- PACKET_PARSE (R262): the next packet of the queue is parsed, or a packet with BAR starts once every earlier one has completed; it is
checked then (DESIGN CHOICE, log entry 58). In reduced service host queue 0 alone is served (R365). -/
def execPacketParse (c q : Nat) : State → Host.Outcome State Fault Refusal := device do
  let m ← get
  let x := m.ctx c
  let y := x.queues.get Queue.init q
  enabledIf (x.st == .running && !y.err && decide (q < 20) && (!m.dev.red || q == 16))
  match y.open_.find? (fun a => holdsQueue a.2) with
  | some (i, .waitBar) =>
    enabledIf (y.open_.all (fun a => a.1 == i))
    change (startPacket c q i)
  | some _ => notEnabled
  | none =>
    enabledIf (decide (y.parsed < y.tail))
    let i := y.parsed
    let y' := { y with active := y.open_, parsed := i + 1 }
    change (fun m =>
      let m := deviceSees (packetAt x q i) 256 (m.updCtx c (fun x => { x with queues := x.queues.put q y' }))
      if bitAt (m.mem.num (packetAt x q i) 8) 8 && !y'.active.isEmpty then setActive c q i .waitBar m
      else startPacket c q i m)

/-- GANG_PLACE (R259, R264): a head LAUNCH is placed, all or nothing, in its turn among those that fit. -/
def execGangPlace (c q : Nat) : State → Host.Outcome State Fault Refusal := device do
  let m ← get
  let x := m.ctx c
  let y := x.queues.get Queue.init q
  enabledIf (x.st == .running && x.pre.isNone)
  enabledIf (y.err || (firstTurn m ((waiters m).filter (fun w => w.q < 64 && w.fits m && (m.ctx w.c).pre.isNone && (m.ctx w.c).st == .running))).any
    (fun w => w.c == c && w.q == q))
  let a ← need (y.active.find? (fun a => match a.2 with
    | .placing _ _ => true
    | _ => false))
  let p := (List.range 32).map (fun j => m.mem.num (packetAt x q a.1 + 8 * j) 8)
  let g := bits (p.getD 1 0) 0 16
  let shp := bits (p.getD 1 0) 16 2
  let units ← need (pickUnits m c q shp g (unitsOf m c shp))
  let roots := rootSlots m c (some q) shp (p.getD 4 0) units
  let id ← freshId
  change (fun m =>
    let m := { m with gangs := m.gangs.put id ⟨c, q, a.1, roots.length, p.getD 2 0, p.getD 3 0 % 2 ^ 32, false, m.sid, units, shp, false, false, false⟩ }
    let m := { m with dev := { m.dev with turn := turnOf c q } }
    setActive c q a.1 (.running id) (placeRoots ((p.drop 8).take 8) (some id) shp g (fun grp cix => 64 * grp + cix) roots
      (joinAdd ((p.drop 8).take 8) roots.length m)))

/-- LAUNCH_RESERVE_TIMEOUT (R264, R279): a head LAUNCH, or a SPAWN in slot `q - 64`, that has waited 100 µs reserves units; one gang per shape
at a time, in its turn. -/
def execLaunchReserveTimeout (c q : Nat) : State → Host.Outcome State Fault Refusal := device do
  let m ← get
  let w ← need ((waiters m).find? (fun w => w.c == c && w.q == q))
  let late := fun (w : Waiter) => !w.res && decide (w.since + 100000 ≤ m.sid) && (m.ctx w.c).st == .running
  enabledIf (late w && !(reservers m).any (fun r => r.shp == w.shp)
    && firstTurn m ((waiters m).filter (fun v => late v && v.shp == w.shp)) == some w)
  if 64 ≤ q then change (fun m => m.updSlot (q - 64) (fun s => { s with wait := some (.units w.g w.shp w.since true) }))
  else
    let a ← need (((m.ctx c).queues.get Queue.init q).active.find? (fun a => match a.2 with
      | .placing _ _ => true
      | _ => false))
    change (setActive c q a.1 (.placing w.since true))

/-- FENCE_CONDITION (R261, R263): conditions that hold are struck off; the packet completes when none is left. A FENCE of a queue that enters the
error state otherwise stays as it is (DESIGN CHOICE, log entry 58). -/
def execFenceCondition (c q : Nat) : State → Host.Outcome State Fault Refusal := device do
  let m ← get
  let x := m.ctx c
  let y := x.queues.get Queue.init q
  enabledIf (!y.err)
  let a ← need (y.active.find? (fun a => match a.2 with
    | .fencing _ => true
    | _ => false))
  match a.2 with
  | .fencing l =>
    let at_ := packetAt x q a.1
    let va := fun k => m.mem.num (at_ + 8 + 16 * k) 8
    match fenceWalk x (l.map va) m with
    | (some r, m) => change (fun _ => endContext c 0x81 0 r m)
    | (none, m) => match l.find? (fun k => (fenceBad m x (va k)).isSome) with
    | some k => change (fun _ => queueError c q ((fenceBad m x (va k)).getD 0) (va k) m)
    | none =>
      let left := l.filter (fun k => match reach m x (va k) .read with
        | some pa => decide (m.mem.num pa 8 < m.mem.num (at_ + 16 + 16 * k) 8)
        | none => true)
      enabledIf (decide (left.length < l.length))
      let seen := (l.filter (fun k => !left.contains k)).filterMap (fun k => reach m x (va k) .read)
      change (fun _ => setActive c q a.1 (if left.isEmpty then .done else .fencing left) (seen.foldl (fun m pa => deviceSees pa 8 m) m))
  | _ => notEnabled

/-- GANG_COMPLETE (R260). -/
def execGangComplete (gang : Nat) : State → Host.Outcome State Fault Refusal := device do
  let m ← get
  let G ← need (m.gangs.find gang)
  enabledIf (G.live == 0)
  change (finishGang gang)

/-! ## Launching from code (R279, R280) -/

/-- A packet at the tail of one of the context's queues. -/
def putPacket (q : Nat) (l : List Nat) (m : Mach) : Mach :=
  let y := m.cx.queues.get Queue.init q
  let m := engStore (cellsAt (packetAt m.cx q y.tail) l) m
  m.updCtx m.sl.ctx (fun x => { x with queues := x.queues.put q { y with tail := y.tail + 1 } })

/-- Appends a packet; its sequence number. -/
def appendPacket (q : Nat) (l : List Nat) : M Nat := do
  let m ← get
  change (putPacket q l)
  pure (m.cx.queues.get Queue.init q).tail

/-- LAUNCH and QFENCE: `types` are the packet types accepted. -/
def launchOp (x : MW) (types : List Nat) : M Unit :=
  issue x.h x.a x.b (fun _ => { rd := gPlain x.a, pops := [(x.d, .write)] }) do
    let a ← rdGp x.a
    let ea := addDisp a x.disp
    let q := x.c.toNat
    let m ← get
    trapIf (ea % 8 != 0) 0x14 ea
    trapIf (spFails m ea 256) 0x15 ea
    drain false true true true
    let l ← spRead ea 256
    let p := quadsOf l 32
    trapIf (!types.contains (bits (p.getD 0 0) 0 8) || packetReserved p) 0x35 0
    trapIf (bits (p.getD 0 0) 0 8 == 1 && recRefused m.cx.slots ((p.drop 8).take 8)) 0x32 0
    blockIf (decide (256 ≤ (m.cx.queues.get Queue.init q).pendingCount)) (.queueRoom m.sl.ctx q)
    let i ← appendPacket q l
    wrLand .ready x.d i
    pure none
/-- LAUNCH (R280). -/
def execLaunch (x : MW) : State → Host.Outcome State Fault Refusal := run (launchOp x [0, 1])
/-- QFENCE (R280). -/
def execQfence (x : MW) : State → Host.Outcome State Fault Refusal := run (launchOp x [2])

/-- Where SPAWN may place its groups: the core's cluster, its die, the device (R279). -/
def spawnUnits (m : Mach) (c k shp g : Nat) : Option (List Nat) :=
  let core := coreOf k
  let all := unitsOf m c shp
  let n := unitSize shp
  (pickUnits m c (64 + k) shp g (all.filter (fun u => clusterOf (u * n) == clusterOf core))).orElse fun _ =>
  (pickUnits m c (64 + k) shp g (all.filter (fun u => dieOf (u * n) == dieOf core))).orElse fun _ =>
  pickUnits m c (64 + k) shp g all

/-- The root tasks of SPAWN are placed: joined, counted in the spawning task's gang, named by its path. -/
def spawnRoots (l : List Nat) (shp g : Nat) (units : List Nat) (m : Mach) : Mach :=
  let roots := rootSlots m m.sl.ctx none shp 0 units
  let gang := m.sl.task.bind (·.e.gang)
  let path := m.sl.nextPath
  gangCount gang roots.length true (placeRoots l gang shp g (fun grp cix => gen path (64 * grp + cix)) roots (joinAdd l roots.length m))

/-- SPAWN (R279). -/
def execSpawn (x : MW) : State → Host.Outcome State Fault Refusal := run do
  let w ← mine (·.wait)
  issue x.h x.a x.b (fun _ => { rd := gPlain x.a ++ gPlain x.b, pops := if bitAt x.c.toNat 0 then [(x.d, .write)] else [] }) do
    let a ← rdGp x.a
    let b ← rdGp x.b
    let ea := addDisp a x.disp
    let try_ := bitAt x.c.toNat 0
    let g := bits b 0 16
    let shp := bits b 16 2
    trapIf (decide (2 ^ 18 ≤ b) || g == 0 || decide (4096 < g) || shp == 3) 0x18 0
    accessGate
    trapIf (ea % 8 != 0) 0x14 ea
    let pas ← xlateAll ((pagesOf ea 64).map (fun v => (v, Acc.read)))
    drain false true true true
    let l ← readQuads ea pas 8 0
    let m ← get
    let c := m.sl.ctx
    trapIf (recRefused m.cx.slots l) 0x32 0
    trapIf (decide ((unitsOf m c shp).length < g)) 0x18 0
    match spawnUnits m c m.cur shp g with
    | none => if try_ then wrLand .ready x.d 1 else block (match w with
        | some (.units _ _ t res) => .units g shp t res
        | _ => .units g shp m.sid false)
    | some units =>
      change (spawnRoots l shp g units)
      changeMine Slot.countPath
      if try_ then wrLand .ready x.d 0 else pure ()
    pure none

end Sys2Proof.Machine
end

