-- ==== Sys2Proof/Machine/Sync.lean ====
section
/-! DEFINITION. Barriers, pair semaphores, timelines, versioned tiles and settling (R241 to R251, R283 to R290). -/
namespace Sys2Proof.Machine

/-! ## Barriers (R283 to R285) -/

def barObj (h : Nat) : Nat := bits h 0 6
def barHandle (cl obj gen : Nat) : Nat := obj + cl * 2 ^ 6 + gen * 2 ^ 32

/-- The live object of the context in the core's cluster that a handle names. -/
def barOf (m : Mach) (c core h : Nat) : Option Barrier :=
  if bits h 6 8 != clusterOf core || bits h 14 18 != 0 then none
  else match (m.cluster (clusterOf core)).bars.find (barObj h) with
    | some b => if b.live && b.ctx == c && b.gen == h / 2 ^ 32 then some b else none
    | none => none

def barPut (core obj : Nat) (b : Barrier) (m : Mach) : Mach :=
  let u := m.cluster (clusterOf core)
  m.setCluster (clusterOf core) { u with bars := u.bars.put obj b }

def Barrier.members (b : Barrier) : List Nat := (List.range 64).filter (bitAt b.mask)
def Barrier.lead (b : Barrier) (i : Nat) : Nat := b.arrived.get 0 i - b.phase

/-- Does the core hold a slot of the context? -/
def holdsSlot (m : Mach) (c core : Nat) : Bool := (List.range 4).any (fun i => let s := m.slot (keyOf core i); s.run != .free && s.ctx == c)

/-- BARI. -/
def execBari (x : MW) : State → Host.Outcome State Fault Refusal := run <|
  issue x.h x.a x.b (fun s => { rd := gRng s x.a, pops := [(x.a, .read), (x.d, .write)] }) do
    let a ← rdG x.a
    let m ← get
    let cl := clusterOf m.curCore
    trapIf (a == 0 || (List.range 64).any (fun i => bitAt a i && !holdsSlot m m.sl.ctx (64 * cl + i))) 0x18 0
    match (List.range 64).find? (fun i => !((m.cluster cl).bars.get Barrier.init i).live) with
    | none => trap 0x38 0
    | some i =>
      let g := (((m.cluster cl).bars.get Barrier.init i).gen + 1) % 2 ^ 32
      change (barPut m.curCore i ⟨true, m.sl.ctx, g, a, 0, []⟩)
      wrLand .ready x.d (barHandle cl i g)
    pure none

/-- Does a slot wait on the object? -/
def barWaited (m : Mach) (cl obj : Nat) : Bool := m.slots.any (fun e => match e.2.wait with
  | some (.barrier c o _ _) => c == cl && o == obj
  | some (.arrive c o _ _) => c == cl && o == obj
  | _ => false)

/-- BARI with FREE. -/
def execBariFree (x : MW) : State → Host.Outcome State Fault Refusal := run <|
  issue x.h x.a x.b (fun s => { rd := gRng s x.a, pops := [(x.a, .read)] }) do
    let a ← rdG x.a
    let m ← get
    match barOf m m.sl.ctx m.curCore a with
    | none => trap 0x36 0
    | some b =>
      trapIf (b.members.any (fun i => b.lead i != 0) || barWaited m (clusterOf m.curCore) (barObj a)) 0x39 0
      change (barPut m.curCore (barObj a) { b with live := false })
      pure none

/-- The slots of a barrier's members (R283). -/
def memberSlots (m : Mach) (cl : Nat) (b : Barrier) : List Nat :=
  (m.slotsOfCtx b.ctx).filter (fun k => clusterOf (coreOf k) == cl && bitAt b.mask (coreOf k % 64))

/-- A phase completes: a progress event and WAITEV source 3 for the member slots (R72, R273, R284). -/
def phaseDone (cl : Nat) (b : Barrier) (m : Mach) : Mach :=
  (memberSlots m cl b).foldl (fun m k => gangBeat ((m.slot k).task.bind (·.e.gang)) (m.updSlot k (fun s => { s with latch := s.latch ||| 8 }))) m

/-- BARA. -/
def execBara (x : SW) : State → Host.Outcome State Fault Refusal := run <|
  issue x.h x.a x.b (fun s => { rd := gRng s x.a, pops := [(x.a, .read), (x.d, .write)] }) do
    let a ← rdG x.a
    let m ← get
    let cl := clusterOf m.curCore
    let i := m.curCore % 64
    match barOf m m.sl.ctx m.curCore a with
    | none => trap 0x36 0
    | some b =>
      trapIf (!bitAt b.mask i) 0x37 0
      drain false true true true
      blockIf (b.lead i == 3) (.arrive cl (barObj a) b.gen i)
      let n := b.arrived.get 0 i + 1
      let b' := { b with arrived := b.arrived.put i n }
      let done := b'.members.all (fun j => decide (b'.phase + 1 ≤ b'.arrived.get 0 j))
      change (fun m =>
        let m := barPut m.curCore (barObj a) (if done then { b' with phase := b'.phase + 1 } else b') m
        if done then phaseDone cl b m else m)
      wrLand .ready x.d (n % 4)
      pure none

/-- BARW: the phase that its member names is fixed once, so a BARW whose wait has ended goes on (R285). -/
def execBarw (x : SW) : State → Host.Outcome State Fault Refusal := fun s0 =>
  let before := s0.m.sl.wait
  run (issue x.h x.a x.b (fun s => { rd := gRng s x.a ++ gRng s x.b, pops := [(x.a, .read), (x.b, .read)] }) do
    let a ← rdG x.a
    let q ← rdG x.b
    let m ← get
    let i := m.curCore % 64
    match barOf m m.sl.ctx m.curCore a with
    | none => trap 0x36 0
    | some b =>
      trapIf (!bitAt b.mask i) 0x37 0
      let n := match before with
        | some (.barrier _ _ _ n) => n
        | _ => b.arrived.get 0 i - (b.arrived.get 0 i + 4 - q % 4) % 4
      blockIf (decide (b.phase < n) && before != some .released) (.barrier (clusterOf m.curCore) (barObj a) b.gen n)
      change (fun m => l1Inv m.curCore m)
      pure none) s0

/-! ## Pair semaphores (R286, R287) -/

/-- Slots waiting on a semaphore in order of arrival; a ticket is 8·slot + semaphore. -/
def semQueue (l : List Nat) (sem : Nat) : List Nat := (l.filter (fun t => t % 8 == sem)).map (· / 8)

/-- May slot `k` be served: nobody waits before it? -/
def semFirst (l : List Nat) (sem k : Nat) : Bool := match semQueue l sem with
  | [] => true
  | j :: _ => j == k

/-- SEMP: earlier bank accesses have been performed when it issues. -/
def execSemp (x : IW) : State → Host.Outcome State Fault Refusal := run <|
  issue x.h 0 0 (fun _ => {}) do
    let m ← get
    let k := m.cur
    let c := m.sl.ctx
    let pr := pairOf m.curCore
    let sem := x.d.toNat
    let n := x.imm.toNat
    let p := m.pair c pr
    let t := 8 * k + sem
    blockWith (!(semFirst p.semP sem k && decide (p.ps.get 0 sem + n ≤ 255)))
      (fun m => m.setPair c pr { p with semP := if p.semP.contains t then p.semP else p.semP ++ [t] }) (.semP c pr sem n k)
    change (fun m =>
      let m := m.setPair c pr { p with ps := p.ps.put sem (p.ps.get 0 sem + n), semP := p.semP.erase t }
      (m.slotsOfCtx c).foldl (fun m j => if pairOf (coreOf j) == pr then m.updSlot j (fun s => { s with latch := s.latch ||| 4 }) else m) m)
    pure none

/-- SEMW. -/
def execSemw (x : IW) : State → Host.Outcome State Fault Refusal := run <|
  issue x.h 0 0 (fun _ => {}) do
    let m ← get
    let k := m.cur
    let c := m.sl.ctx
    let pr := pairOf m.curCore
    let sem := x.d.toNat
    let n := x.imm.toNat
    let p := m.pair c pr
    let t := 8 * k + sem
    blockWith (!(semFirst p.semW sem k && decide (n ≤ p.ps.get 0 sem)))
      (fun m => m.setPair c pr { p with semW := if p.semW.contains t then p.semW else p.semW ++ [t] }) (.semW c pr sem n k)
    change (fun m => m.setPair c pr { p with ps := p.ps.put sem (p.ps.get 0 sem - n), semW := p.semW.erase t })
    pure none

/-- SEMI. -/
def execSemi (x : YW) : State → Host.Outcome State Fault Refusal := run <|
  issue x.h 0 0 (fun _ => { priv := true }) do
    change (fun m =>
      let p := m.pair m.sl.ctx (pairOf m.curCore)
      m.setPair m.sl.ctx (pairOf m.curCore) { p with ps := p.ps.put (bits x.mod.toNat 0 3) (bits x.imm.toNat 0 8) })
    pure none

/-- SEMAPHORE_SERVE (R286): the first waiter that the count allows goes on. -/
def execSemaphoreServe (c pair sem : Nat) : State → Host.Outcome State Fault Refusal := device do
  let m ← get
  let p := m.pair c pair
  let served := fun (k : Nat) => match (m.slot k).wait with
    | some (.semW _ _ s n _) => s == sem && decide (n ≤ p.ps.get 0 sem)
    | some (.semP _ _ s n _) => s == sem && decide (p.ps.get 0 sem + n ≤ 255)
    | _ => false
  let k ← need (((semQueue p.semW sem).head?.toList ++ (semQueue p.semP sem).head?.toList).find? served)
  change (fun m => m.updSlot k (fun s => { s with wait := none }))

/-! ## Timeline waits (R288 to R290) -/

/-- The slot whose counter the code names: tl.cj belongs to the issuer core (R37). -/
def tlSlot (k t : Nat) : Nat := if t = 3 then keyOf (2 * pairOf (coreOf k) + 1) (slotOf k) else k

/-- TWAIT. -/
def execTwait (x : IW) : State → Host.Outcome State Fault Refusal := fun s0 =>
  let before := s0.m.sl.wait
  run (issue x.h x.a x.b (fun s => if bitAt x.mod.toNat 0 then { rd := gRng s x.a, pops := [(x.a, .read)] } else {}) do
    let a ← if bitAt x.mod.toNat 0 then rdG x.a else pure 0
    let n := if bitAt x.mod.toNat 0 then ofInt 64 ((a : Int) + sx 32 x.imm.toNat) else x.imm.toNat
    let m ← get
    let t := x.d.toNat - 16
    let k := tlSlot m.cur t
    blockIf (decide ((m.tlOf k t).count < n) && before != some .released) (.timeline k t n)
    change (fun m => l1Inv m.curCore m)
    pure none) s0

/-- TREAD: the destination is in A. -/
def execTread (x : SW) : State → Host.Outcome State Fault Refusal := run <|
  issue x.h 0 0 (fun _ => { pops := [(x.a, .write)], nondet := true }) do
    let m ← get
    let t := x.d.toNat - 16
    wrLand .ready x.a (m.tlOf (tlSlot m.cur t) t).count
    pure none

/-- TSET. -/
def execTset (x : YW) : State → Host.Outcome State Fault Refusal := run <|
  issue x.h x.a x.b (fun s => { rd := gRng s x.a, pops := [(x.a, .read)], priv := true }) do
    let a ← rdG x.a
    let m ← get
    let t := x.d.toNat - 16
    let oth := bitAt x.mod.toNat 0
    let k := tlSlot (if oth then keyOf (bits x.imm.toNat 0 14) (bits x.mod.toNat 1 2) else m.cur) t
    trapIf (oth && !((m.slot k).run != .free && (m.slot k).ctx == m.sl.ctx)) 0x18 0
    trapIf (m.cmds.any (fun c => c.slot == k && c.tl == t)) 0x3A 0
    change (setTimeline k t ⟨a, a, 0⟩)
    pure none

/-! ## Versioned tiles (R241 to R249) -/

def hVer (h : Nat) : Nat := h % 2 ^ 32
def hFin (h : Nat) : Bool := bitAt h 32
def hStop (h : Nat) : Bool := bitAt h 33
def hCnt (h : Nat) : Nat := bits h 40 8

/-- The operation has its turn at the home slice of the header block at `pa` (R244); the header word. -/
def tileWord (pa : Nat) : M Nat := do
  bringLaw [(pa, 64)]
  change (findL2 pa 64)
  let m ← get
  if poisoned m pa 64 then halt (fun m => .stay (endContext m.sl.ctx 0x81 m.cur pa m)) else pure ()
  let h := m.mem.num pa 8
  trapIf (bits h 34 6 != 0 || bits h 48 16 != 0 || decide (7 < hCnt h)) 0x2D 0
  pure h

/-- "tile scope" (R244): the block is to lie in HBM or pooled memory. -/
def tileScope : PaKind → Option Nat
  | .hbm => none
  | .pooled => none
  | .hole => some 0x16
  | _ => some 0x2C

/-- The header block's place, with the checks of R244; its header word. -/
def tileAt (va : Nat) (acc : Acc) (cap : Bool) : M (Nat × Nat) := do
  accessGate
  trapIf (va % 64 != 0) 0x14 va
  if cap then capCheck va 64 else pure ()
  let pas ← xlateScoped tileScope [(va, acc, none)]
  let h ← tileWord (pas.headD 0)
  pure (pas.headD 0, h)

/-- Valid subscriber references: cluster and entry. -/
def refsOf (m : Mach) (pa : Nat) : List (Nat × Nat) :=
  (List.range 7).filterMap (fun i => let q := m.mem.num (pa + 8 + 8 * i) 8
    if bitAt q 16 then some (bits q 0 8, bits q 8 8) else none)

/-- Notices of a header word go out; the instruction counts in oc.at until they have been accepted. -/
def sendNotices (pa h : Nat) (m : Mach) : Mach :=
  atLater { m with notices := m.notices ++ (refsOf m pa).map (fun r => ⟨r.1, r.2, pa, h, m.sl.ctx, m.nextId⟩) }

/-- PUBLISH (R245). -/
def execPublish (x : MW) : State → Host.Outcome State Fault Refusal := run <|
  issue x.h x.a x.b (fun _ => { rd := gPlain x.a }) do
    let a ← rdGp x.a
    drain false true true false
    let t ← tileAt (addDisp a x.disp) .write true
    let h := t.2
    trapIf (hFin h) 0x2E 0
    trapIf (hVer h == 2 ^ 32 - 1) 0x2F 0
    countAt
    let h' := h + 1 + (if bitAt x.c.toNat 0 then 2 ^ 32 else 0)
    change (fun m => sendNotices t.1 h' (homeStore (cellsAt t.1 (toLE 8 h')) m))
    pure none

/-- STOPREF (R248). -/
def execStopref (x : MW) : State → Host.Outcome State Fault Refusal := run <|
  issue x.h x.a x.b (fun _ => { rd := gPlain x.a, nondet := true }) do
    let a ← rdGp x.a
    let t ← tileAt (addDisp a x.disp) .write false
    countAt
    let h' := setBits t.2 33 1 1
    change (fun m => sendNotices t.1 h' (homeStore (cellsAt t.1 (toLE 8 h')) m))
    pure none

/-- REFCHK (R249). -/
def execRefchk (x : MW) : State → Host.Outcome State Fault Refusal := run <|
  issue x.h x.a x.b (fun s => { rd := gPlain x.a ++ gRng s x.b, pops := [(x.b, .read), (x.d, .write)], nondet := true, vas := ownVa (s.ea x) 64 .read }) do
    let a ← rdGp x.a
    let b ← rdG x.b
    let t ← tileAt (addDisp a x.disp) .read false
    let places ← resPlaces x.d
    countLd false
    let id ← newLand .counted places
    change (fun m => fillLand m.cur id 0 (toLE 8 (if hStop t.2 then 2 else if b % 2 ^ 32 < hVer t.2 then 1 else 0)) m)
    pure none

/-- The subscription of the running task to the block at `pa`, header word `h`, becomes entry `i` of the core's cluster unit: the word counts
one reference more, the block's first free place names the entry, and the entry fires at once on a published version (R246, R247). Its path
name is a free value (log entry 5). -/
def subscribe (va pa h i grp : Nat) (quads : List Nat) (no : Nat) (m : Mach) : Mach :=
  let cl := clusterOf m.curCore
  let h := h + 2 ^ 40
  let slot := (List.range 7).find? (fun j => !bitAt (m.mem.num (pa + 8 + 8 * j) 8) 16)
  let place := match m.sl.task with
    | some t => t.e.place
    | none => []
  let sub : Sub := ⟨m.sl.ctx, pa, va, quads, m.cur, grp, h, 0, .none, m.sl.task.bind (·.e.gang), false, (Config.freeWord no).toNat, place⟩
  let m := homeStore (cellsAt pa (toLE 8 h)) m
  let m := match slot with
    | some j => homeStore (cellsAt (pa + 8 + 8 * j) (toLE 8 (cl + i * 2 ^ 8 + 2 ^ 16))) m
    | none => m
  let u := m.cluster cl
  let m := atLater (m.setCluster cl { u with subs := u.subs.put i sub })
  if hVer h != 0 && !hStop h then fireSub cl i h m else m

/-- What SUBSCR finds of its record and block before it acts: the record's checks come first, and both pages are looked up in one pass (R246,
R326). -/
def subscrPlaces (b va : Nat) : M (Nat × Nat) := do
  accessGate
  let m ← get
  let odd := fun (v : Nat) => if v % 64 != 0 then some (0x14, v) else none
  let pas ← xlateChecked [(b, .read, odd b), (va, .write, odd va)]
  trapIf ((tileScope (paKind m.dev (pas.getD 1 0))).isSome) 0x2C 0
  pure (pas.getD 0 0, pas.getD 1 0)

/-- SUBSCR (R246). -/
def execSubscr (x : MW) : State → Host.Outcome State Fault Refusal := run <|
  issue x.h x.a x.b (fun _ => { rd := gPlain x.a ++ gPlain x.b, nondet := true }) do
    let a ← rdGp x.a
    let b ← rdGp x.b
    let p ← subscrPlaces b (addDisp a x.disp)
    let l ← readQuads b [p.1] 8 0
    let h ← tileWord p.2
    let m ← get
    let cl := clusterOf m.curCore
    trapIf (recJv l || recRefused m.cx.slots l) 0x18 0
    trapIf (hCnt h == 7) 0x30 0
    match (List.range 256).find? (fun i => ((m.cluster cl).subs.find i).isNone) with
    | none => trap 0x31 0
    | some i =>
      countAt
      let n ← freshNo
      change (subscribe (addDisp a x.disp) p.2 h i (bits x.c.toNat 0 6) l n)
      pure none

/-- A latched wake source of a slot of the context, which may be saved (R72). -/
def latchSlot (c k b : Nat) (m : Mach) : Mach :=
  let set := fun (s : Slot) => { s with latch := s.latch ||| b }
  if (m.slot k).ctx == c && (m.slot k).run != .free then m.updSlot k set
  else m.updCtx c (fun x => { x with kept := x.kept.map (fun e => if e.1 == k then (e.1, set e.2) else e) })

/-- TILE_NOTICE (R247): a notice reaches its cluster unit; notices of one home slice arrive in order, so one of a higher version is that of a
PUBLISH, which WAITEV's source 4 tells of (R72). -/
def execTileNotice (n : Nat) : State → Host.Outcome State Fault Refusal := device do
  let m ← get
  let x ← need (m.notices[n]?)
  enabledIf (!(m.notices.take n).any (fun y => y.cluster == x.cluster && homeOf y.block == homeOf x.block))
  let m0 := { m with notices := m.notices.eraseIdx n }
  let u := m0.cluster x.cluster
  match u.subs.find x.idx with
  | none => change (fun _ => m0)
  | some e =>
    if e.block != x.block || e.freed then change (fun _ => m0)
    else
      let pub := decide (hVer e.latest < hVer x.h)
      let e := { e with latest := x.h }
      let put := fun e => let m := m0.setCluster x.cluster { u with subs := u.subs.put x.idx e }
        if pub then latchSlot e.ctx e.slot 16 m else m
      match e.task with
      | .none => change (fun _ => if !hStop x.h && decide (e.fired < hVer x.h) then fireSub x.cluster x.idx x.h (put e) else put e)
      | .pending _ held => change (fun _ => put { e with task := .pending x.h held })
      | .running _ => change (fun _ => put e)

/-! ## Settling (R250, R251) -/

/-- Is the group settled? -/
def settled (m : Mach) (cl c grp : Nat) : Bool :=
  (m.cluster cl).subs.all (fun e => e.2.ctx != c || e.2.grp != grp || e.2.freed || ((hFin e.2.latest || hStop e.2.latest) && (match e.2.task with
    | .none => true
    | .pending h _ => hFin h
    | .running h => hFin h)))

/-- Every task of a slot passes through `f`. -/
def Slot.mapEntries (f : Entry → Entry) (s : Slot) : Slot :=
  let task := fun (t : Task) => { t with e := f t.e }
  { s with
    deque := s.deque.map f
    spilled := s.spilled.map f
    next := s.next.map f
    task := s.task.map task
    aside := s.aside.map (fun a => { a with task := a.task.map task }) }

/-- Every task in the machine, in saved slots too, passes through `f`. -/
def mapEntries (f : Entry → Entry) (m : Mach) : Mach :=
  { m with
    slots := m.slots.map (fun e => (e.1, e.2.mapEntries f))
    ctxs := m.ctxs.map (fun x => (x.1, { x.2 with kept := x.2.kept.map (fun e => (e.1, e.2.mapEntries f)) })) }

/-- A freed entry's task goes on without it: the task keeps the word it was to run with. -/
def unlink (cl i : Nat) (word : Option Nat) (m : Mach) : Mach :=
  mapEntries (fun e => if e.origin == .fired cl i then (match word with
    | some h => { e with origin := .fired cl 256, word := h }
    | none => { e with origin := .fired cl 256 }) else e) m

/-- An entry leaves the table. -/
def dropSub (cl i : Nat) (m : Mach) : Mach :=
  let u := m.cluster cl
  m.setCluster cl { u with subs := u.subs.del i }

/-- settlw.rel frees one entry. -/
def freeSub (cl i : Nat) (m : Mach) : Mach :=
  let u := m.cluster cl
  match u.subs.find i with
  | none => m
  | some e => match e.task with
    | .pending _ true => m.setCluster cl { u with subs := u.subs.put i { e with freed := true } }
    | .pending h false => dropSub cl i (unlink cl i (some h) m)
    | .running _ => dropSub cl i (unlink cl i none m)
    | .none => dropSub cl i m

/-- SETTLW: every earlier SUBSCR of the slot has made its entry when it issues. -/
def execSettlw (x : IW) : State → Host.Outcome State Fault Refusal := run <|
  issue x.h 0 0 (fun _ => {}) do
    let m ← get
    let cl := clusterOf m.curCore
    let c := m.sl.ctx
    let g := x.imm.toNat
    blockIf (!settled m cl c g) (.settled cl c g)
    change (fun m => if bitAt x.mod.toNat 0 then
        (((m.cluster cl).subs.filter (fun e => e.2.ctx == c && e.2.grp == g)).map (·.1)).foldl (fun m i => freeSub cl i m) m
      else m)
    pure none

/-- FIRE_RETRY (R247): the push of a held fire is repeated. -/
def execFireRetry (cluster idx : Nat) : State → Host.Outcome State Fault Refusal := device do
  let m ← get
  let e ← need ((m.cluster cluster).subs.find idx)
  match e.task with
  | .pending h true =>
    let m' ← need (firePush cluster idx h m)
    change (fun _ => unlessEnded e.ctx (fun m' =>
      if e.freed then dropSub cluster idx (unlink cluster idx (some h) m')
      else let u := m'.cluster cluster
        m'.setCluster cluster { u with subs := u.subs.put idx { e with task := .pending h false } }) m')
  | _ => notEnabled

end Sys2Proof.Machine
end

