-- ==== Sys2Proof/Machine/EventQ.lean ====
section
/-! DEFINITION. Event queues and their overflow rings (R156 to R162). -/
namespace Sys2Proof.Machine

/-- Hardware record places of a slot (R157). -/
def evRoom (m : Mach) (c : Nat) : Nat := 64 / slotsOf (m.ctx c).slots
def evLgn (s : Slot) : Nat := bits s.evring 0 6
def evBase (s : Slot) : Nat := bits s.evring 6 50 * 64
/-- Where record `i` of the ring lies. -/
def evAt (s : Slot) (i : Nat) : Nat := evBase s + 64 * (i % 2 ^ evLgn s)

def dropRecord (s : Slot) : Slot := { s with drop := min 0xFFFF (s.drop + 1), ovf := true }

/-- The virtual address of the next record of the ring: none when the ring is full or absent. -/
def ringVa (s : Slot) : Option Nat := if evLgn s = 0 ∨ 2 ^ evLgn s ≤ s.rq then none else some (evAt s (s.rqHead + s.rq))

/-- Where the next record of the ring goes (R157): nowhere when the ring is full, absent or not translated. `here` says that the slot stands on
its core: it is not saved. -/
def recordSpot (c k : Nat) (here : Bool) (s : Slot) (m : Mach) : Option Nat × Mach :=
  match ringVa s with
  | none => (none, m)
  | some va =>
    let p := if here then quietXlate k va .write m else deviceXlate c k va .write m
    (p.1.filter (fun pa => paKind m.dev pa != .hole), p.2)

/-- A record goes to the ring, or is dropped. -/
def recordPut (pa : Option Nat) (s : Slot) : Slot := match pa with
  | none => dropRecord s
  | some _ => { s with rq := s.rq + 1 }
def recordStore (pa : Option Nat) (q : List Nat) (m : Mach) : Mach := match pa with
  | none => m
  | some pa => engStore (cellsAt pa ((q.map (toLE 8)).flatten)) m

/-- A record reaches its slot (R157, R346). -/
def deliver (r : Record) (m : Mach) : Mach :=
  let c := m.ctx r.ctx
  let s := m.slot r.slot
  if s.run != .free && s.ctx == r.ctx then
    let m := gangBeat (s.task.bind (·.e.gang)) m
    if c.st == .running && s.rq == 0 && decide (s.evq.length < evRoom m r.ctx) then m.setSlot r.slot { s with evq := s.evq ++ [r.quads] }
    else
      let p := recordSpot r.ctx r.slot true s m
      unlessEnded r.ctx (fun m => (recordStore p.1 r.quads m).updSlot r.slot (recordPut p.1)) p.2
  else match c.kept.find r.slot with
    | some s =>
      let p := recordSpot r.ctx r.slot false s m
      unlessEnded r.ctx (fun m => (recordStore p.1 r.quads m).updCtx r.ctx (fun c => { c with kept := c.kept.put r.slot (recordPut p.1 s) })) p.2
    | none => m.updCtx r.ctx (fun c => { c with evlost := (c.evlost + 1) % 2 ^ 32 })

/-- Must the record wait for a walk of the page of its ring's place, which it joins (R327)? -/
def ringWalked (r : Record) (m : Mach) : Bool :=
  let s := m.slot r.slot
  s.run != .free && s.ctx == r.ctx && !((m.ctx r.ctx).st == .running && s.rq == 0 && decide (s.evq.length < evRoom m r.ctx))
    && (ringVa s).any (walking m (coreOf r.slot) (m.ctx r.ctx).asid)

/-- EVENT_RECORD_DELIVER (R157, R158): records of one law unit to one slot arrive in order; an EVPUSH leaves oc.st. -/
def execEventRecordDeliver (n : Nat) : State → Host.Outcome State Fault Refusal := device do
  let m ← get
  let r ← need (m.records[n]?)
  enabledIf (r.unit.isNone || !(m.records.take n).any (fun y => y.slot == r.slot && y.ctx == r.ctx && y.unit == r.unit))
  enabledIf (!ringWalked r m)
  change (fun m =>
    let m := deliver r { m with records := m.records.eraseIdx n }
    match r.from_ with
    | some k => m.updSlot k (fun s => { s with ocSt := s.ocSt - 1 })
    | none => m)

/-- EVQ_RING_REFILL (R157): a record moves into the hardware queue from the ring. -/
def execEvqRingRefill (k : Nat) : State → Host.Outcome State Fault Refusal := device do
  let m ← get
  let s := m.slot k
  enabledIf (s.run != .free && (m.ctx s.ctx).st == .running && s.rq != 0 && decide (s.evq.length < evRoom m s.ctx))
  enabledIf (!walking m (coreOf k) (m.ctx s.ctx).asid (evAt s s.rqHead))
  let p := quietXlate k (evAt s s.rqHead) .read m
  let pa ← need p.1
  enabledIf (paKind m.dev pa != .hole)
  change (fun _ =>
    let m := findL2 pa 64 (bringLine (pa / 128) p.2)
    poisonEnd k pa 64 (m.updSlot k (fun s => { s with
      evq := s.evq ++ [quadsOf (sliceBytes m false pa 64) 8], rq := s.rq - 1, rqHead := (s.rqHead + 1) % 2 ^ evLgn s })))

/-- The register `i` after the one that a byte names. -/
def regAt (b : BitVec 8) (i : Nat) : BitVec 8 := b + BitVec.ofNat 8 i
def regsAt (b : BitVec 8) (n : Nat) : List (BitVec 8) := (List.range n).map (regAt b)

/-- Interlocked results in successive registers from `b`; one that names a bound stream is appended (R49). -/
def wrLands (b : BitVec 8) (vs : List Nat) : M Unit := do
  let s ← mine id
  let l := vs.zipIdx.map (fun v => (regAt b v.2, v.1))
  l.forM (fun p => match s.stream p.1 with
    | some x => append p.1 x p.2
    | none => pure ())
  setLand .ready (known ((l.filter (fun p => (s.stream p.1).isNone)).map (fun p => gCells (gNo p.1) p.2)).flatten)

/-- EVPOP (R159). -/
def execEvpop (x : SW) : State → Host.Outcome State Fault Refusal := run <|
  issue x.h 0 0 (fun _ => { pops := (regsAt x.d 8).map (fun b => (b, .write)) }) do
    let m ← get
    let s := m.sl
    blockIf (m.cx.det && s.evq.isEmpty && s.rq == 0) (.records 1)
    blockIf (s.evq.isEmpty && s.rq != 0) .refill
    let q := s.evq.headD []
    wrLands x.d ((List.range 8).map (fun i => q.getD i 0))
    if x.c = 0 then pure () else setLand .ready (known (qCells (qNo x.c) (!s.evq.isEmpty)))
    changeMine (fun s => { s with evq := s.evq.tail })
    pure none
/-- EVWAIT (R160). -/
def execEvwait (x : IW) : State → Host.Outcome State Fault Refusal := run <|
  issue x.h 0 0 (fun _ => { pops := [(x.d, .write)], nondet := true }) do
    let s ← mine id
    let n := s.evq.length + s.rq
    blockIf (decide (n < x.imm.toNat)) (.records x.imm.toNat)
    wrLand .ready x.d n
    pure none
/-- EVPUSH (R161). -/
def execEvpush (x : SW) : State → Host.Outcome State Fault Refusal := run <|
  issue x.h x.a x.b (fun s => {
      rd := gRng s x.a ++ ((regsAt x.b 8).map (gRng s)).flatten, pops := (x.a :: regsAt x.b 8).map (fun b => (b, .read)) }) do
    let a ← rdG x.a
    let q ← (regsAt x.b 8).mapM rdG
    let m ← get
    let k := keyOf (bits a 0 14) (bits a 14 2)
    let c := m.sl.ctx
    trapIf (decide (2 ^ 16 ≤ a) || !((m.slot k).run != .free && (m.slot k).ctx == c)) 0x20 0
    roomSt
    change (fun m => bumpSt m.cur { m with records := m.records ++ [{ ctx := c, slot := k, quads := q, from_ := some m.cur }] })
    pure none
/-- EVCFG (R162). -/
def execEvcfg (x : YW) : State → Host.Outcome State Fault Refusal := run <|
  issue x.h x.a x.b (fun s => { rd := gRng s x.a, pops := [(x.a, .read)] }) do
    let a ← rdG x.a
    let s ← mine id
    let lgn := bits a 0 6
    trapIf (decide (2 ^ 56 ≤ a) || (decide (1 ≤ lgn) && decide (lgn ≤ 5)) || decide (20 < lgn)) 0x21 0
    let clr := bitAt x.mod.toNat 0
    trapIf (!clr && s.rq != 0) 0x22 0
    changeMine (fun s =>
      let s := if clr then { s with evq := [], rq := 0, drop := 0, ovf := false } else s
      { s with evring := a, rqHead := 0 })
    pure none

end Sys2Proof.Machine
end

