-- ==== Sys2Proof/Machine/System.lean ====
section
/-! DEFINITION. System registers, translation and its maintenance, fault buffers, monitors and the other privileged
instructions (R6 to R8, R55, R56, R75, R133, R156, R204, R274, R324, R326 to R330, R335 to R340, R345, R357, R361, R362). -/
namespace Sys2Proof.Machine

/-! ## System registers (R55, R75) -/

def AccClass.code : AccClass → Nat
  | .none => 0
  | .exactFloat => 1
  | .exactInt => 2
  | .fp32 => 3

/-- FBSTAT (R337). -/
def fbstatWord (c : Ctx) : Nat := c.fbuf.length + ofBool c.dropped * 2 ^ 4 + c.fseq % 2 ^ 32 * 2 ^ 32

/-- CJSTAT (R204). -/
def cjstatWord (p : Pair) : Nat :=
  p.table.length + p.held * 2 ^ 16 + p.cls.code * 2 ^ 32 + ofBool p.group.isSome * 2 ^ 34 + p.wc * 2 ^ 35

/-- LWDSG0 + n (R156). -/
def lwdsgWord (c : Ctx) (n : Nat) : Nat :=
  ((List.range 4).map (fun j => match c.desig.find (4 * n + j), c.stepped.find (4 * n + j) with
    | some core, some _ => (core % 2 ^ 14 + 2 ^ 14) * 2 ^ (16 * j)
    | _, _ => 0)).sum

/-- The value of a system register, as the executing slot reads it. -/
def sysValue (m : Mach) (sr : Nat) : Nat :=
  let s := m.sl
  let c := m.cx
  if sr = 0x000 then ctxctlWord c s
  else if sr = 0x001 then m.curCore + slotOf m.cur * 2 ^ 16
  else if sr = 0x002 then s.view
  else if sr = 0x003 then s.grantN
  else if sr = 0x010 then s.tvec % 2 ^ 56 / 4 * 4
  else if sr = 0x011 then s.tcause
  else if sr = 0x012 then s.tret
  else if sr = 0x013 then s.tval
  else if sr = 0x014 then ofBool s.inh
  else if sr = 0x015 then s.ts0
  else if sr = 0x016 then s.ts1
  else if sr = 0x020 then ((List.range 16).map (fun d => if (c.stepped.find d).isSome then 2 ^ d else 0)).sum
  else if 0x021 ≤ sr ∧ sr ≤ 0x024 then lwdsgWord c (sr - 0x021)
  else if sr = 0x025 then s.evring
  else if sr = 0x026 then evqstatWord s
  else if sr = 0x027 then c.evlost
  else if 0x030 ≤ sr ∧ sr ≤ 0x03F then domainTime m c (sr - 0x030)
  else if sr = 0x040 then gangposWord s
  else if sr = 0x041 then s.taskh
  else if sr = 0x042 then s.dqring
  else if sr = 0x043 then s.steald
  else if sr = 0x044 then (match gangOf m s with
    | some G => G.wdi + ofBool G.per * 2 ^ 32
    | none => 0)
  else if sr = 0x045 then s.stealOk + s.stealEmpty * 2 ^ 32
  else if sr = 0x060 then cjstatWord (m.pair s.ctx (pairOf m.curCore))
  else if sr = 0x080 then c.ptroot
  else if sr = 0x081 then fbstatWord c
  else if sr = 0x0A0 then s.pmsel
  else if 0x0A1 ≤ sr ∧ sr ≤ 0x0A8 then (if c.det then 0 else s.pmc.get 0 (sr - 0x0A1))
  else 0

/-- Is a read barred in deterministic mode (R317)? -/
def sysBarred (c : Ctx) (sr : Nat) : Bool :=
  sr == 0x026 || sr == 0x027 || sr == 0x081 || (decide (0x030 ≤ sr) && decide (sr ≤ 0x03F) && (c.stepped.find (sr - 0x030)).isNone)

/-- SYSRD (R75). -/
def execSysrd (x : YW) : State → Host.Outcome State Fault Refusal := run <|
  issue x.h 0 0 (fun _ => { pops := [(x.d, .write)], barred := fun c => sysBarred c x.sr.toNat }) do
    let m ← get
    wrLand .ready x.d (sysValue m x.sr.toNat % 2 ^ 64)
    pure none

/-- PMSEL with its reserved event codes written as 0 (R361). -/
def pmselOf (v : Nat) : Nat := ((List.range 8).map (fun n => if bits v (8 * n) 8 ≤ 8 then bits v (8 * n) 8 * 2 ^ (8 * n) else 0)).sum

/-- The writable fields of a system register take the value (R55, R75). -/
def sysWrite (sr v : Nat) (s : Slot) : Slot :=
  if sr = 0x000 then { s with schk := bitAt v 0 }
  else if sr = 0x010 then { s with tvec := bits v 2 54 * 4 }
  else if sr = 0x012 then { s with tret := bits v 2 54 * 4 }
  else if sr = 0x015 then { s with ts0 := v }
  else if sr = 0x016 then { s with ts1 := v }
  else if sr = 0x026 then (if bitAt v 63 then { s with drop := 0, ovf := false } else s)
  else if sr = 0x0A0 then { s with pmsel := pmselOf v }
  else s

/-- SYSWR (R75): TVEC is supervisory. -/
def execSyswr (x : YW) : State → Host.Outcome State Fault Refusal := run <|
  issue x.h x.a x.b (fun s => {
      rd := if bitAt x.mod.toNat 0 then [] else gRng s x.a
      pops := if bitAt x.mod.toNat 0 then [] else [(x.a, .read)]
      priv := x.sr == 0x010 }) do
    let v ← if bitAt x.mod.toNat 0 then pure x.imm.toNat else rdG x.a
    changeMine (sysWrite x.sr.toNat v)
    pure none

/-! ## Look-ups of an instruction (R326 to R329) -/

/-- A look-up of slot `k` takes its end. -/
def endLook (k g : Nat) (acc : Acc) (st : LookSt) (m : Mach) : Mach :=
  m.updSlot k (fun s => { s with look := s.look.map (fun l => if l.granule == g && l.acc == acc then { l with st := st } else l) })

/-- When every look-up has ended the instruction is executed again; it parks there, unless an earlier access traps (R39, R326). -/
def lookDone (k : Nat) (m : Mach) : Mach :=
  m.updSlot k (fun s => if s.look.any lookOpen then s else { s with wait := if s.wait == some .xlate then none else s.wait })

/-- A look-up meets a valid translation: it is served, or a permission fault. -/
def meet (k die : Nat) (l : Look) (e : TlbE) (m : Mach) : Mach :=
  let s := m.slot k
  if e.permits l.acc then l1TlbPut (coreOf k) e (endLook k l.granule l.acc (.served e) m)
  else
    let c := m.ctx s.ctx
    endLook k l.granule l.acc .failed (newFault s.ctx die c.asid l.granule l.acc (permKind l.acc) (leafLevel e.size) m)

/-- Looks of other slots of the core that joined the miss of slot `k` for the page (R326). -/
def sameMiss (m : Mach) (k granule : Nat) : List (Nat × Look) :=
  let asid := (m.ctx (m.slot k).ctx).asid
  (((List.range 4).map (keyOf (coreOf k))).map (fun j => if (m.ctx (m.slot j).ctx).asid = asid then
    ((m.slot j).look.filter (fun l => l.granule == granule && l.st == .toL2)).map (fun l => (j, l)) else [])).flatten

/-- TLB_MISS (R326, R327): a core's miss, with every look that joined it, reaches the die's L2 TLB. -/
def execTlbMiss (k granule : Nat) : State → Host.Outcome State Fault Refusal := device do
  let m ← get
  let s := m.slot k
  let l ← need (s.look.find? (fun l => l.granule == granule && l.st == .toL2))
  let js := sameMiss m k granule
  let all := fun (f : Nat × Look → Mach → Mach) (m : Mach) => js.foldl (fun m j => f j m) m
  let done := all (fun j m => lookDone j.1 m)
  let die := dieOf (coreOf k)
  let asid := (m.ctx s.ctx).asid
  let d := m.die die
  let m := all (fun j m => m.updSlot j.1 (fun s => s.countEvent 6)) m
  match d.tlb.find? (·.covers asid granule) with
  | some e => change (fun _ => done (all (fun j m => meet j.1 die j.2 e m) m))
  | none =>
    if d.walks.any (fun w => w.asid == asid && w.granule == granule) then change (fun _ => all (fun j m => endLook j.1 granule j.2.acc .walking m) m)
    else if (pending m die asid granule).isSome then change (fun _ => done (all (fun j m => endLook j.1 granule j.2.acc .failed m) m))
    else
      enabledIf (decide (d.walks.length < 32))
      change (fun _ => all (fun j m => endLook j.1 granule j.2.acc .walking m) (m.setDie die { d with walks := d.walks ++ [⟨asid, granule, l.acc⟩] }))

/-- The slots of a die whose look-ups joined a walk. -/
def joined (m : Mach) (die asid g : Nat) : List (Nat × Look) :=
  (m.slots.map (fun e => if dieOf (coreOf e.1) == die && (m.ctx e.2.ctx).asid == asid && e.2.run != .free
    then (e.2.look.filter (fun l => l.granule == g && l.st == .walking)).map (fun l => (e.1, l)) else [])).flatten

/-- The first line of pooled memory that a walk reads and its home slice has not (R358). -/
def missingTable (m : Mach) (reads : List Nat) : Option Nat :=
  (reads.find? (fun a => paKind m.dev a == .pooled && !present m a)).map (· / 128)

/-- PAGE_WALK_END (R327, R332 to R334). A walk through pooled memory asks for its lines first, from their CXL device. -/
def execPageWalkEnd (die asid granule : Nat) : State → Host.Outcome State Fault Refusal := device do
  let m ← get
  let d := m.die die
  let w ← need (d.walks.find? (fun w => w.asid == asid && w.granule == granule))
  let m1 := m.setDie die { d with walks := d.walks.erase w }
  let va := granule * 2 ^ 18
  match m.ctxOfAsid asid with
  | none => change (fun _ => m1)
  | some c =>
    let x := m.ctx c
    let reads := rootReads m.dev m.mem x va
    enabledIf (!reads.any (waitsService m.dev))
    let js := joined m die asid granule
    let k := (js.head?.map (·.1)).getD 0
    match missingTable m reads with
    | some line =>
      enabledIf (!m.reqs.any (fun r => r.kind == .code && r.pa / 128 == line))
      change (addReq k c (128 * line) .sent .code)
    | none =>
    let m2 := walkFind x va m1
    match reads.find? (fun a => poisoned m2 a 8) with
    | some a => change (fun _ => endContext c 0x81 k a m2)
    | none =>
      let done := fun m => js.foldl (fun m j => lookDone j.1 m) m
      match walk m.dev m.mem x va with
      | .leaf e _ => change (fun _ => done (js.foldl (fun m j => meet j.1 die j.2 e m) (l2TlbPut die e m2)))
      | .fail kind lvl => change (fun _ =>
          done (js.foldl (fun m j => endLook j.1 granule j.2.acc .failed m) (newFault c die asid granule w.acc kind lvl m2)))

/-- REPLAY-all (R329). -/
def replayAll (c : Nat) (m : Mach) : Mach :=
  let asid := (m.ctx c).asid
  let m : Mach := m.updCtx c (fun x => { x with dropped := false })
  let m : Mach := { m with
    dies := m.dies.map (fun e => (e.1, { e.2 with faults := e.2.faults.filter (fun f => f.asid != asid) }))
    cmds := m.cmds.map (fun x => if x.ctx == c && x.st == 1 then { x with st := 0 } else x) }
  { m with slots := m.slots.map (fun e =>
      if e.2.ctx == c && e.2.run != .free then
        (e.1, if e.2.parked then { e.2 with parked := false, wait := none, look := [] }
              else { e.2 with look := e.2.look.map (fun l => if l.st == .failed then { l with st := .toL2 } else l) })
      else e) }

/-- The context that an ASID names: resident and not ended (R338). -/
def asidCtx (a : Nat) : M Nat := do
  let m ← get
  match m.ctxOfAsid (a % 2 ^ 16) with
  | some c => do
    trapIf (decide (2 ^ 16 ≤ a)) 0x18 0
    pure c
  | none => trap 0x18 0

/-- The oldest entry of a fault buffer leaves it. -/
def popFault (c : Nat) (m : Mach) : (Nat × Nat) × Mach := match (m.ctx c).fbuf with
  | [] => ((0, 0), m)
  | e :: l => (e, m.updCtx c (fun x => { x with fbuf := l }))

/-- FBPOP (R338). -/
def execFbpop (x : YW) : State → Host.Outcome State Fault Refusal := run <|
  issue x.h x.a x.b (fun s => {
      rd := gRng s x.a, pops := (x.a, .read) :: (regsAt x.d 2).map (fun b => (b, .write)), priv := true }) do
    let a ← rdG x.a
    let c ← asidCtx a
    let m ← get
    let p := popFault c m
    change (fun _ => p.2)
    wrLands x.d [p.1.1, p.1.2]
    pure none

/-- REPLAY (R339). -/
def execReplay (x : YW) : State → Host.Outcome State Fault Refusal := run <|
  issue x.h x.a x.b (fun s => { rd := gRng s x.a, pops := [(x.a, .read)], priv := true }) do
    let a ← rdG x.a
    let c ← asidCtx a
    drain false true false false
    change (replayAll c)
    pure none

/-! ## TLB maintenance (R335) -/

/-- Frames of the entries that a removal takes: contexts by ASID (all when none), the granule (all when none). -/
def TlbE.hit (e : TlbE) (asid g : Option Nat) : Bool :=
  (match asid with
   | some a => e.asid == a
   | none => true) &&
  (match g with
   | some g => decide (e.granule ≤ g) && decide (g < e.granule + e.size)
   | none => true)

/-- The entries that a removal takes: from the TLBs, and those that look-ups of instructions at issue keep. -/
def tlbGone (asid g : Option Nat) (m : Mach) : List TlbE :=
  (m.cores.map (fun c => c.2.tlb.filter (·.hit asid g))).flatten ++ (m.dies.map (fun d => d.2.tlb.filter (·.hit asid g))).flatten
    ++ (m.slots.map (fun s => s.2.look.filterMap (fun l => match l.st with
      | .served e => if e.hit asid g then some e else none
      | _ => none))).flatten

/-- Does a physical address lie in a frame of the entries? -/
def inFrame (l : List TlbE) (pa : Nat) : Bool := l.any (fun e => decide (e.pa ≤ pa) && decide (pa < e.pa + e.size * 2 ^ 18))

/-- Removes the entries everywhere; walks in progress are given up and their accesses look again; write-combining entries of
the frames are sent. -/
def tlbRemove (asid g : Option Nat) (m : Mach) : Mach :=
  let gone := tlbGone asid g m
  let given := fun (w : Walk) => (match asid with
    | some a => w.asid == a
    | none => true)
  let asidOf := fun (s : Slot) => (m.ctx s.ctx).asid
  let m : Mach := { m with
    cores := m.cores.map (fun c => (c.1, { c.2 with tlb := c.2.tlb.filter (fun e => !e.hit asid g) }))
    dies := m.dies.map (fun d => (d.1, { d.2 with tlb := d.2.tlb.filter (fun e => !e.hit asid g), walks := d.2.walks.filter (fun w => !given w) }))
    slots := m.slots.map (fun s => (s.1, { s.2 with look := s.2.look.filterMap (fun l => match l.st with
      | .served e => if e.hit asid g then none else some l
      | .walking => if (match asid with
          | some a => asidOf s.2 == a
          | none => true) then some { l with st := .toL2 } else some l
      | _ => some l) })) }
  m.cores.foldl (fun m c => sendWcb c.1 (fun w => inFrame gone (w.line * 128)) m) m

/-- The physical addresses that a remote command took at issue (R310, R311, R313). -/
def Cmd.pas (c : Cmd) : List Nat := if c.tl != 4 then [] else if c.op = 0xD2 then c.args.drop 10 else c.args.take 1

/-- What is under way through the removed entries: requests; remote commands; and pending writes to registers, of the contexts' loads, or to
an output stream in a removed frame. -/
def throughRemoved (asid g : Option Nat) (m : Mach) : List Nat × List Nat × List Nat :=
  let gone := tlbGone asid g m
  let mine : Nat → Bool := fun c => match asid with
    | some a => (m.ctx c).asid == a
    | none => true
  let held := fun (l : Land) => l.src == .load || l.cells.any (fun c => decide (memBase ≤ c.1) && inFrame gone ((c.1 - memBase) % 2 ^ 60))
  ((((tlbRemove asid g m).reqs).filter (fun r => mine r.ctx && !isQuery r.kind && inFrame gone r.pa)).map (·.id),
   (m.cmds.filter (fun c => mine c.ctx && c.pas.any (inFrame gone))).map (·.id),
   (m.slots.map (fun s => if mine s.2.ctx then (s.2.il.filter held).map (·.id) else [])).flatten)

/-- Is one of them still under way? -/
def flushBusy (m : Mach) (rs cs ls : List Nat) : Bool :=
  m.reqs.any (fun r => rs.contains r.id && r.st != .done) || m.cmds.any (fun c => cs.contains c.id)
    || m.slots.any (fun s => s.2.il.any (fun l => ls.contains l.id))

/-- The removal, once, and the wait for it. -/
def flush (before : Option Wait) (asid g : Option Nat) : M Unit := do
  let m ← get
  match before with
  | some (.flush rs cs ls) => blockIf (flushBusy m rs cs ls) (.flush rs cs ls)
  | _ =>
    let p := throughRemoved asid g m
    let m' := tlbRemove asid g m
    blockWith (flushBusy m' p.1 p.2.1 p.2.2) (tlbRemove asid g) (.flush p.1 p.2.1 p.2.2)
    change (fun _ => m')

/-- TLBINV. -/
def execTlbinv (x : MW) : State → Host.Outcome State Fault Refusal := fun s0 =>
  let before := s0.m.sl.wait
  run (issue x.h x.a x.b (fun s => { rd := gPlain x.a ++ gRng s x.b, pops := [(x.b, .read)], priv := true }) do
    let a ← rdGp x.a
    let b ← rdG x.b
    trapIf (decide (2 ^ 16 ≤ b)) 0x18 0
    let ea := addDisp a x.disp
    drain false true false false
    flush before (some b) (some (granuleOf ea))
    pure none) s0

/-- TLBINVA. -/
def execTlbinva (x : YW) : State → Host.Outcome State Fault Refusal := fun s0 =>
  let before := s0.m.sl.wait
  let all := bitAt x.mod.toNat 0
  run (issue x.h x.a x.b (fun s => if all then { priv := true } else { rd := gRng s x.a, pops := [(x.a, .read)], priv := true }) do
    let a ← if all then pure 0 else rdG x.a
    trapIf (decide (2 ^ 16 ≤ a)) 0x18 0
    drain false true false false
    flush before (if all then none else some a) none
    pure none) s0

/-! ## Probing (R336) -/

/-- The result of XLATE for a translation. -/
def leafWord (e : TlbE) (va : Nat) : Nat :=
  e.at_ va + 2 ^ 52 + ofBool e.w * 2 ^ 53 + ofBool e.x * 2 ^ 54 + (3 - leafLevel e.size) * 2 ^ 55

/-- The walk of XLATE: a valid translation is kept, poison ends the context (R328, R344). -/
def probeWalk (va : Nat) : M Nat := do
  change (fun m => walkFind m.cx va m)
  let m ← get
  match walkPoison m m.cx va with
  | some r => halt (fun m => .stay (endContext m.sl.ctx 0x81 m.cur r m))
  | none => match walk m.dev m.mem m.cx va with
    | .leaf e _ =>
      change (fun m => l1TlbPut m.curCore e (l2TlbPut (dieOf m.curCore) e m))
      pure (leafWord e va)
    | .fail kind _ => pure (kind * 2 ^ 57)

/-- The result of XLATE: from a TLB, a pending fault, or a walk. -/
def probe (va : Nat) : M Nat := do
  joinWalk va
  change (fun m => countTlb m.cur va m)
  let m ← get
  let core := m.curCore
  let die := dieOf core
  let asid := m.cx.asid
  let g := granuleOf va
  match (m.core core).tlb.find? (·.covers asid g) with
  | some e => pure (leafWord e va)
  | none => match (m.die die).tlb.find? (·.covers asid g) with
    | some e =>
      change (l1TlbPut core e)
      pure (leafWord e va)
    | none => match pending m die asid g with
      | some f => pure (f.kind * 2 ^ 57)
      | none => probeWalk va

/-- A pending write of the executing slot receives its value. -/
def fillAtCur (id v : Nat) (m : Mach) : Mach := fillLand m.cur id 0 (toLE 8 v) m

/-- XLATE. -/
def execXlate (x : MW) : State → Host.Outcome State Fault Refusal := run <|
  issue x.h x.a x.b (fun _ => { rd := gPlain x.a, pops := [(x.d, .write)] }) do
    let a ← rdGp x.a
    let ea := addDisp a x.disp
    trapIf (decide (2 ^ 56 ≤ ea)) 0x17 ea
    let places ← resPlaces x.d
    countLd false
    let v ← probe ea
    let id ← newLand .counted places
    change (fillAtCur id v)
    pure none

/-! ## Slice counters (R6 to R8) -/

/-- SLICEQ: a request of its own that the slice answers in the order of the core's requests (R8). -/
def execSliceq (x : YW) : State → Host.Outcome State Fault Refusal := run <|
  issue x.h x.a x.b (fun s => { rd := gRng s x.a, pops := [(x.a, .read), (x.d, .write)], nondet := true }) do
    let a ← rdG x.a
    let places ← resPlaces x.d
    countLd false
    let id ← newLand .counted places
    change (fun m => addReq m.cur m.sl.ctx (unitPa (a % 256)) .sent (.query id (bitAt x.mod.toNat 0)) m)
    pure none

/-! ## Monitors (R362) -/

/-- A device monitor. -/
def monitorValue (m : Mach) (die unit counter : Nat) : Nat :=
  if counter ≤ 4 then (m.die die).mon.get 0 (16 * counter + unit)
  else if counter = 5 then (m.die die).mon.get 0 (16 * 5)
  else if counter = 6 then m.dev.temps.get 0 die
  else if counter = 7 then m.dev.power.get 0 die
  else if die < 2 then (m.iodie die).dropped else 0

/-- PMREAD. -/
def execPmread (x : YW) : State → Host.Outcome State Fault Refusal := run <|
  issue x.h 0 0 (fun _ => { pops := [(x.d, .write)] }) do
    let m ← get
    let i := x.imm.toNat
    wrLand .ready x.d (if m.cx.det then 0 else monitorValue m (bits i 0 4) (bits i 4 4) (bits i 8 8) % 2 ^ 64)
    pure none

/-! ## Planting errors (R345) -/

/-- ECCINJ. -/
def execEccinj (x : MW) : State → Host.Outcome State Fault Refusal := run <|
  issue x.h x.a x.b (fun s => { rd := gPlain x.a ++ gRng s x.b, pops := [(x.b, .read)], priv := true }) do
    let a ← rdGp x.a
    let b ← rdG x.b
    let ea := addDisp a x.disp
    trapIf (decide (8 ≤ b) || bits b 1 2 == 3) 0x18 0
    let uc := bitAt b 0
    drain false true false false
    let m ← get
    if bits b 1 2 = 0 then
      trapIf (spFails m ea 1) 0x15 ea
      let w := spPlace m.curCore ea / 8 * 8
      change (fun m => { m with plantSp := (w, uc) :: m.plantSp.filter (·.1 != w) })
    else
      let pa ← xlate ea .write
      let w := pa / 8 * 8
      if bits b 1 2 = 1 then
        trapIf (!present m pa) 0x18 0
        change (fun m => { m with plantL2 := (w, uc) :: m.plantL2.filter (·.1 != w) })
      else change (fun m => { m with plantHbm := (w, uc) :: m.plantHbm.filter (·.1 != w) })
    pure none

/-! ## Writing the capability table (R324): one granule per step, with the restart point after it -/

/-- CAPSET. -/
def execCapset (x : MW) : State → Host.Outcome State Fault Refusal := fun s0 =>
  let streams := s0.m.sl.streams
  run (issue x.h x.a x.b (fun s => {
      rd := gPlain x.a ++ gPlain x.b ++ gRng s x.c
      wr := gPlain x.a ++ gPlain x.b
      pops := [(x.c, .read)]
      priv := true }) do
    let a ← rdGp x.a
    let b ← rdGp x.b
    let v ← rdG x.c
    trapIf (bits v 14 2 == 3 || decide (2 ^ 16 ≤ v)) 0x18 0
    if b = 0 then pure none
    else
      let m ← get
      match capEntryAt m.cx (addDisp a x.disp) with
      | none => trap 0x18 0
      | some e =>
        accessGate
        change (setCap e v)
        changeMine (fun s => s.poke (gCells (gNo x.a) ((a + 4096) % 2 ^ 64) ++ gCells (gNo x.b) (b - 1)))
        if b = 1 then pure none
        else
          changeMine (fun s => { s with streams := streams })
          restart) s0

/-! ## Asking the host (R357) -/

/-- Has the notification ring a free place? -/
def ringPlace (m : Mach) : Bool := match m.dev.nring with
  | some r => m.dev.nwait.isEmpty && decide (m.dev.nprod - m.dev.ncons < 2 ^ r.2)
  | none => false

/-- HCALL. -/
def execHcall (x : YW) : State → Host.Outcome State Fault Refusal := run <|
  issue x.h x.a x.b (fun s => { rd := gRng s x.a, pops := [(x.a, .read), (x.d, .write)] }) do
    let a ← rdG x.a
    drain false true true true
    let m ← get
    if m.sl.hcSent then
      match m.sl.hcReply with
      | none => block .reply
      | some v =>
        changeMine (fun s => { s with hcSent := false, hcReply := none })
        wrLand .ready x.d v
        pure none
    else
      blockIf (!ringPlace m) .ringPlace
      blockWith true (fun m => (notify 0x06 0 m.cx.asid m.curCore (slotOf m.cur) (x.imm.toNat % 2 ^ 16) a m).updSlot m.cur
        (fun s => { s with hcSent := true })) .reply
      pure none

end Sys2Proof.Machine
end

