-- ==== Sys2Proof/Machine/Engine.lean ====
section
/-! DEFINITION. Asynchronous engine commands: their numbers and ends, key queues, copies, gathers, scatters, pools, the
in-stack matvec, and the instructions that inspect and cancel commands (R107 to R112, R187, R190, R191, R211 to R219). -/
namespace Sys2Proof.Machine

/-! ## Commands and timelines (R108, R187, R215, R216) -/

/-- Incomplete commands of timeline `t` of slot `k`, oldest first. -/
def cmdsOf (m : Mach) (k t : Nat) : List Cmd := m.cmds.filter (fun c => c.slot == k && c.tl == t)
def setCmd (c : Cmd) (m : Mach) : Mach := { m with cmds := m.cmds.map (fun x => if x.id == c.id then c else x) }

/-- What a command is to be: its opcode and arguments, its scratchpad ranges, the virtual ranges that it writes, and its cache hint. -/
structure NewCmd where
  op : Nat
  args : List Nat
  spans : List (Nat × Nat) := []
  wvas : List (Nat × Nat) := []
  ch : Nat := 0

def NewCmd.cmd (x : NewCmd) (id k ctx t num sid : Nat) (node : Option (Nat × Nat)) : Cmd :=
  { id := id, slot := k, ctx := ctx, tl := t, num := num, op := x.op, args := x.args, prog := 0, st := 0, issued := sid, node := node,
    spans := x.spans, wvas := x.wvas, ch := x.ch }

/-- A command of slot `k` takes the next number of timeline `t` (R108). -/
def startCmd (k t : Nat) (new : NewCmd) (node : Option (Nat × Nat)) (m : Mach) : Mach :=
  let s := m.slot k
  let x := m.tlOf k t
  let m := m.setSlot k { s with tl := s.tl.put t { x with issued := x.issued + 1 } }
  { m with
    cmds := m.cmds ++ [new.cmd m.nextId k s.ctx t (x.issued + 1) m.sid node]
    nextId := m.nextId + 1 }

/-- The same at issue: at most 16 commands of the timeline are incomplete (R108). -/
def newCmd (t : Nat) (new : NewCmd) : M Unit := do
  let m ← get
  blockIf (decide (16 ≤ (cmdsOf m m.cur t).length)) (.room m.cur t)
  change (startCmd m.cur t new none)

/-- The work of a constellation node ends, with its command's status (R270, R293). -/
def nodeWorkEnd (node : Option (Nat × Nat)) (st : Nat) (m : Mach) : Mach :=
  match node with
  | none => m
  | some (cl, i) =>
    let u := m.cluster cl
    match u.nodes.find i with
    | none => m
    | some n =>
      let u : Cluster := { u with nodes := u.nodes.put i { n with ended := true } }
      m.setCluster cl (if st = 0 then u else match u.cons.find n.con with
        | some x => { u with cons := u.cons.put n.con { x with flt := true } }
        | none => u)

/-- A command ends with a status: its timeline reaches the number below its oldest incomplete command (R111, R215). -/
def endCmd (c : Cmd) (st : Nat) (m : Mach) : Mach :=
  let m : Mach := { m with cmds := m.cmds.filter (·.id != c.id) }
  let x := m.tlOf c.slot c.tl
  let n := match cmdsOf m c.slot c.tl with
    | [] => x.issued
    | d :: _ => d.num - 1
  nodeWorkEnd c.node st (setTimeline c.slot c.tl ⟨n, x.issued, if st = 0 then x.st else st⟩ m)

/-- May an engine work on the command: its context runs, without a stop requested, and no translation fault holds it (R112,
R213)? -/
def cmdMay (m : Mach) (c : Cmd) : Bool :=
  (m.ctx c.ctx).st == .running && (m.ctx c.ctx).pre.isNone && c.st == 0

/-- The slot leaves the queues of the pair semaphores in which it waits. -/
def leaveQueues (k : Nat) (m : Mach) : Mach :=
  let c := (m.slot k).ctx
  let pr := pairOf (coreOf k)
  let p := m.pair c pr
  m.setPair c pr { p with semW := p.semW.filter (fun t => t / 8 != k), semP := p.semP.filter (fun t => t / 8 != k) }

/-! ## Memory as engines reach it (R109, R112, R304, R331) -/

/-- What an engine finds at a virtual address: a physical address, a translation fault with its kind and level (none when a
pending fault stands), or a cause that traps. -/
inductive EngAt where
  | ok (pa : Nat)
  | park (f : Option (Nat × Nat))
  | bad (cause : Nat)
  deriving DecidableEq, Repr

/-- Through a translation that has been found. -/
def engUse (d : Dev) (e : TlbE) (va : Nat) (acc : Acc) : EngAt :=
  if !e.permits acc then .park (some (permKind acc, leafLevel e.size))
  else if paKind d (e.at_ va) == .hole then .bad 0x16
  else .ok (e.at_ va)

/-- The die's walk for an engine of slot `k`: a valid translation is kept, poison ends the context (R328, R344). -/
def engWalk (k va : Nat) (acc : Acc) : M EngAt := do
  let m ← get
  let ci := (m.slot k).ctx
  change (walkFind (m.ctx ci) va)
  let m ← get
  match walkPoison m (m.ctx ci) va with
  | some a => halt (fun m => .stay (endContext ci 0x81 k a m))
  | none => match walk m.dev m.mem (m.ctx ci) va with
    | .leaf e _ =>
      change (l2TlbPut (dieOf (coreOf k)) e)
      pure (engUse m.dev e va acc)
    | .fail kind level => pure (.park (some (kind, level)))

/-- An engine of slot `k` looks an address up in its die's L2 TLB. It joins a walk in progress by waiting for it, and parks on a pending fault
(R327); an access in reduced service waits (R365). -/
def engAt (k va : Nat) (acc : Acc) : M EngAt := do
  let m ← get
  let die := dieOf (coreOf k)
  let asid := (m.ctx (m.slot k).ctx).asid
  let g := granuleOf va
  let r ← if 2 ^ 56 ≤ va then pure (.bad 0x17)
    else match (m.die die).tlb.find? (·.covers asid g) with
      | some e => pure (engUse m.dev e va acc)
      | none =>
        if (m.die die).walks.any (fun w => w.asid == asid && w.granule == g) then notEnabled
        else if (pending m die asid g).isSome then pure (.park none)
        else engWalk k va acc
  enabledIf (match r with
    | .ok pa => !waitsService m.dev pa
    | _ => true)
  pure r

/-- The physical address of each page given, up to the first that fails. -/
def engPages (k : Nat) (acc : Acc) : List Nat → M (List Nat × Option (Nat × EngAt))
  | [] => pure ([], none)
  | p :: l => do
    let e ← engAt k p acc
    match e with
    | .ok pa =>
      let r ← engPages k acc l
      pure (pa :: r.1, r.2)
    | _ => pure ([], some (p, e))

/-- The physical address of every byte of a range. -/
def engBytes (va : Nat) (pas : List Nat) (len : Nat) : List Nat := (List.range len).map (paAt va pas)

/-- Has the command still to ask the home slice of a line for its turn? Host addresses have none. -/
def lineOpen (m : Mach) (c : Cmd) (line : Nat) : Bool := paKind m.dev (128 * line) != .host && !c.served.contains line

/-- Is the command's request for the line under way? -/
def lineAsked (m : Mach) (c : Cmd) (line : Nat) : Bool := m.reqs.any (fun r => r.pa / 128 == line && (match r.kind with
  | .eng id _ => id == c.id
  | _ => false))

/-- The engine's lines have their turn at their home slices, as requests of the issuing core (R7, R9, R93, R111): those that it reads, and those
that it writes. It goes on when each has had it. -/
def engLines (c : Cmd) (reads writes : List Nat) : M Unit := do
  let m ← get
  let lines := ((writes ++ reads).dedup).filter (lineOpen m c)
  let new := lines.filter (fun l => !lineAsked m c l)
  if lines.isEmpty then pure ()
  else if new.isEmpty then notEnabled
  else halt (fun m => .stay (new.foldl (fun m l =>
    addReq c.slot c.ctx (128 * l) .sent (.eng c.id (writes.contains l)) m (fun r => { r with hint := if reads.contains l then c.ch else 0 })) m))

/-- Lines and planted errors that reads of the bytes meet (R93, R344). -/
def engFind (pas : List Nat) (m : Mach) : Mach :=
  let m := ((pas.map (· / 128)).dedup).foldl (fun m l =>
    if paKind m.dev (128 * l) == .host then hostBus (128 * l) m else bringLine l m) m
  ((pas.map (fun a => a / 8 * 8)).dedup).foldl (fun m w => findL2 w 8 m) m

def poisonAt (m : Mach) (pa : Nat) : Bool := m.poison.contains (pa / 8 * 8)

/-- An engine reads bytes for slot `k`; poison ends the context (R112, R344). -/
def engRead (k : Nat) (pas : List Nat) : M (List Nat) := do
  change (engFind pas)
  let m ← get
  match pas.find? (poisonAt m) with
  | some a => halt (fun m => .stay (endContext (m.slot k).ctx 0x81 k a m))
  | none => pure ()
  pure (pas.map (fun a => (sliceBytes m false a 1).headD 0))

/-- An engine reads scratchpad bytes of the slot's octet. -/
def engSpRead (k o len : Nat) : M (List Nat) := do
  let a := spPlace (coreOf k) o
  change (findSp a len)
  let m ← get
  if spPoisoned m a len then halt (fun m => .stay (endContext (m.slot k).ctx 0x81 k o m)) else pure ()
  pure (m.spad.rdN a len)

def engSpWrite (k o : Nat) (l : List Nat) (m : Mach) : Mach := storeSp (cellsAt (spPlace (coreOf k) o) l) m

/-- A command stops where an access fails: a translation fault is recorded (R112, R327); any other cause traps in the issuing
slot (R2, R331). -/
def engStop (c : Cmd) (p : Nat × EngAt) (acc : Acc) (m : Mach) : Mach :=
  let m := setCmd { c with st := 1 } m
  match p.2 with
  | .park (some f) => newFault c.ctx (dieOf (coreOf c.slot)) (m.ctx c.ctx).asid (granuleOf p.1) acc f.1 f.2 m
  | .bad cause => takeTrap c.slot cause p.1 (m.slot c.slot).retAddr (leaveQueues c.slot m)
  | _ => m

/-- Is the range in the slot's own share (R87)? -/
def ownShare (m : Mach) (k o len : Nat) : Bool :=
  let sh := spShareOf (m.ctx (m.slot k).ctx).slots
  bits o 18 3 == coreOf k % 8 && decide (o < 2 ^ 21) && decide (slotOf k * sh ≤ o % 2 ^ 18) && decide (o % 2 ^ 18 + len ≤ (slotOf k + 1) * sh)

/-- The first address of a virtual range that lies beyond the address space (R331). -/
def beyond (va len : Nat) : Option Nat :=
  if len = 0 then none else if 2 ^ 56 ≤ va then some va else if 2 ^ 56 < va + len then some (2 ^ 56) else none

def rangeCheck (va len : Nat) : M Unit := match beyond va len with
  | some a => trap 0x17 a
  | none => pure ()

/-! ## Key queues (R190, R191) -/

/-- Does an earlier COPYK of the slot to the queue remain incomplete? -/
def copykTo (m : Mach) (k q : Nat) : Bool := m.cmds.any (fun c => c.slot == k && c.op == 0xCC && c.args.getD 3 4 == q)

/-- KQPUSH. -/
def execKqpush (x : JW) : State → Host.Outcome State Fault Refusal := run <|
  issue x.h x.a x.b (fun s => { rd := gRng s x.a, pops := [(x.a, .read)] }) do
    let a ← rdG x.a
    let m ← get
    let c := m.sl.ctx
    let pr := pairOf m.curCore
    let p := m.pair c pr
    let q := x.d.toNat
    let l := p.kq.get [] q
    blockIf (decide (64 ≤ l.length) || copykTo m m.cur q) (.keyRoom pr c q)
    change (fun m => m.setPair c pr { p with kq := p.kq.put q (l ++ [a]) })
    pure none

/-- KQSTAT: with FLUSH in deterministic mode it writes 0. -/
def execKqstat (x : JW) : State → Host.Outcome State Fault Refusal :=
  let fl := bitAt x.mod.toNat 0
  run <| issue x.h 0 0 (fun _ => { pops := [(x.d, .write)], nondet := !fl }) do
    let m ← get
    let c := m.sl.ctx
    let pr := pairOf m.curCore
    let p := m.pair c pr
    let q := x.a.toNat
    wrLand .ready x.d (if m.cx.det then 0 else (p.kq.get [] q).length)
    change (fun m => if fl then m.setPair c pr { p with kq := p.kq.put q [] } else m)
    pure none

/-! ## The copy engine (R211 to R213) -/

/-- A copy record (R211). -/
structure CopyRec where
  dst : Nat
  src : Nat
  len : Nat
  rows : Nat
  dp : Nat
  sp : Nat
  ssp : Bool
  dsp : Bool
  que : Nat
  db : Nat
  dr : Nat

def copyRec (op : Nat) (q : List Nat) : CopyRec where
  dst := q.getD 0 0
  src := q.getD 1 0
  len := (if op = 0xCC then 8 else 1) * bits (q.getD 2 0) 0 32
  rows := if op = 0xCB then bits (q.getD 2 0) 32 32 else 1
  dp := q.getD 3 0
  sp := q.getD 4 0
  ssp := bitAt (q.getD 5 0) 0
  dsp := bitAt (q.getD 5 0) 1
  que := bits (q.getD 5 0) 2 2
  db := (if op = 0xCC then 8 else 1) * bits (q.getD 6 0) 0 32
  dr := if op = 0xCB then bits (q.getD 6 0) 32 32 else 0

/-- Is the record refused (R211)? -/
def copyBad (op : Nat) (q : List Nat) : Bool :=
  bits (q.getD 5 0) 4 60 != 0 || bits (q.getD 7 0) 8 56 != 0 || (op != 0xCB && bits (q.getD 2 0) 32 32 != 0)
  || (op == 0xCC && (q.getD 0 0 != 0 || bitAt (q.getD 5 0) 1))

/-- Starts of the source and destination rows. -/
def CopyRec.srcAt (r : CopyRec) (i : Nat) : Nat := (r.src + i * r.sp) % 2 ^ 64
def CopyRec.dstAt (r : CopyRec) (i : Nat) : Nat := (r.dst + i * r.dp) % 2 ^ 64

/-- What stands against a record that is not refused: cause and address (R87, R211, R331). A COPYK whose SRC is no multiple of 8 is misaligned (R212;
DEDUCED, log entry 36). -/
def copyFails (m : Mach) (k op : Nat) (r : CopyRec) : Option (Nat × Nat) :=
  let rows := if r.len = 0 then [] else List.range r.rows
  let sp := fun a => if !spOk m (m.slot k).ctx (coreOf k) a r.len then some (0x15, a) else none
  let va := fun a => (beyond a r.len).map (fun b => (0x17, b))
  (if op = 0xCC ∧ r.src % 8 ≠ 0 then some (0x14, r.src) else none).orElse fun _ =>
  (rows.findSome? (fun i => if r.ssp then sp (r.srcAt i) else none)).orElse fun _ =>
  (rows.findSome? (fun i => if r.dsp then sp (r.dstAt i) else none)).orElse fun _ =>
  (rows.findSome? (fun i => if r.ssp then none else va (r.srcAt i))).orElse fun _ =>
  if op = 0xCC then none else rows.findSome? (fun i => if r.dsp then none else va (r.dstAt i))

/-- The virtual ranges that a copy writes. -/
def CopyRec.wvas (op : Nat) (r : CopyRec) : List (Nat × Nat) :=
  if op = 0xCC ∨ r.dsp ∨ r.len = 0 then [] else (List.range r.rows).map (fun i => (r.dstAt i, r.len))

/-- The first byte of the ranges in a granule that the core does not hold, at issue (R322). -/
def capRanges (m : Mach) (l : List (Nat × Nat)) : Option (Nat × Nat) :=
  l.findSome? (fun p => (capFails m m.cx m.curCore p.1 p.2).map (fun a => (0x40, a)))

def CopyRec.spans (op : Nat) (r : CopyRec) : List (Nat × Nat) :=
  ((List.range r.rows).map (fun i => (if r.ssp then [(r.srcAt i, r.len)] else []) ++
    (if r.dsp && op != 0xCC then [(r.dstAt i, r.len)] else []))).flatten

/-- A copy command's arguments: the place of its record, the row and byte reached, its queue, and DR and DB as the engine last saw them. -/
def copyArgs (a : Nat) (r : CopyRec) (row byte : Nat) : List Nat := [a, row, byte, r.que, r.dr, r.db]

/-- A copy command as issued. -/
def newCopy (a op : Nat) (r : CopyRec) (ch : Nat) : NewCmd :=
  { op := op, args := copyArgs a r r.dr r.db, spans := (a, 64) :: r.spans op, wvas := r.wvas op, ch := ch }

/-- COPY, COPY2D and COPYK at issue. -/
def copyOp (x : JW) (op : Nat) : M Unit :=
  issue x.h x.a x.b (fun _ => { rd := gPlain x.a }) do
    let a ← rdGp x.a
    accessGate
    trapIf (a % 64 != 0) 0x14 a
    let m ← get
    trapIf (!ownShare m m.cur a 64) 0x15 a
    let l ← spRead a 64
    let q := quadsOf l 8
    trapIf (copyBad op q) 0x18 0
    let r := copyRec op q
    match (copyFails m m.cur op r).orElse (fun _ => capRanges m (r.wvas op)) with
    | some p => trap p.1 p.2
    | none => pure ()
    newCmd 0 (newCopy a op r x.h.ch.toNat)
    pure none
/-- COPY. -/
def execCopy (x : JW) : State → Host.Outcome State Fault Refusal := run (copyOp x 0xCA)
/-- COPY2D. -/
def execCopy2d (x : JW) : State → Host.Outcome State Fault Refusal := run (copyOp x 0xCB)
/-- COPYK. -/
def execCopyk (x : JW) : State → Host.Outcome State Fault Refusal := run (copyOp x 0xCC)

/-- A side of a copy from byte `i` of a row of `len` bytes at `a`: the bytes before the first failure, the failure, and the
place of each byte. -/
def copySide (c : Cmd) (sp : Bool) (a i len : Nat) (acc : Acc) : M (Nat × Option (Nat × EngAt) × (Nat → Nat)) := do
  if sp then pure (len - i, none, fun j => spPlace (coreOf c.slot) a + i + j)
  else
    let va := a + i
    let r ← engPages c.slot acc (pagesOf va (len - i))
    pure (match r.2 with
      | none => (len - i, none, paAt va r.1)
      | some (p, e) => (p - va, some (p, e), paAt va r.1))

/-- Bytes of one row, source and destination places, up to a failure. -/
def copyRow (c : Cmd) (r : CopyRec) (row i : Nat) : M (List (Nat × Nat) × Option (Acc × Nat × EngAt)) := do
  let s ← copySide c r.ssp (r.srcAt row) i r.len .read
  let d ← if c.op = 0xCC then pure (r.len - i, none, id) else copySide c r.dsp (r.dstAt row) i r.len .write
  let n := min s.1 d.1
  pure ((List.range n).map (fun j => (s.2.2 j, d.2.2 j)),
    if n = r.len - i then none
    else if s.1 ≤ d.1 then s.2.1.map (fun p => (.read, p)) else d.2.1.map (fun p => (.write, p)))

/-- What a copy can do from a row and byte on: the bytes, then the row and byte where it stands, and the failure that stops it there. -/
structure CopyGo where
  bytes : List (Nat × Nat)
  row : Nat
  byte : Nat
  fault : Option (Acc × Nat × EngAt)

/-- `n` rows from `row` and byte `i` on. -/
def copyRows (c : Cmd) (r : CopyRec) : Nat → Nat → Nat → M CopyGo
  | 0, row, _ => pure ⟨[], row, 0, none⟩
  | n + 1, row, i => do
    let p ← copyRow c r row i
    match p.2 with
    | some f => pure ⟨p.1, row, i + p.1.length, some f⟩
    | none =>
      let q ← copyRows c r n (row + 1) 0
      pure { q with bytes := p.1 ++ q.bytes }

/-- The lines of memory among the places of a copy's bytes have their turn. -/
def copyLines (c : Cmd) (r : CopyRec) (l : List (Nat × Nat)) : M Unit :=
  engLines c (if r.ssp then [] else l.map (·.1 / 128)) (if r.dsp || c.op == 0xCC then [] else l.map (·.2 / 128))

/-- Poisoned bytes among places of one kind. -/
def placePoison (m : Mach) (sp : Bool) (a : Nat) : Bool :=
  if sp then m.spoison.contains (a / 8 * 8) else poisonAt m a

/-- Reads of a copy's source meet planted errors (R345). -/
def srcFind (sp : Bool) (srcs : List Nat) (m : Mach) : Mach :=
  if sp then ((srcs.map (fun a => a / 8 * 8)).dedup).foldl (fun m w => findSp w 8 m) m else engFind srcs m

/-- The bytes are copied; poison moves with them, and the context that read it ends (R112, R344). -/
def copyBytes (c : Cmd) (r : CopyRec) (l : List (Nat × Nat)) : M Unit := do
  let srcs := l.map (·.1)
  change (srcFind r.ssp srcs)
  let m ← get
  let val := fun a => if r.ssp then m.spad.rd a else (sliceBytes m false a 1).headD 0
  let out := l.map (fun p => (p.2, val p.1))
  let bad := l.filter (fun p => placePoison m r.ssp p.1)
  let words := (bad.map (fun p => p.2 / 8 * 8)).dedup
  change (if r.dsp then storeSp out else engStore out)
  change (fun m => if r.dsp then { m with spoison := words ++ m.spoison.filter (fun w => !words.contains w) }
    else { m with poison := words ++ m.poison.filter (fun w => !words.contains w) })
  match bad with
  | [] => pure ()
  | p :: _ => halt (fun m => .stay (endContext c.ctx 0x81 c.slot (if r.ssp then p.1 % 2 ^ 21 else p.1) m))

/-- Lines or keys done, as ESTAT reports them (R215). -/
def copyProg (c : Cmd) (r : CopyRec) (row byte : Nat) : Nat := (row * r.len + byte) / (if c.op = 0xCC then 8 else 128)

/-- The record as it stands (R213). -/
def copyRead (c : Cmd) : M (List Nat) := do
  let l ← engSpRead c.slot (c.args.getD 0 0) 64
  pure (quadsOf l 8)

/-- Keys taken from bytes, appended to the queue (R212). -/
def copyKeys (c : Cmd) (que : Nat) (l : List Nat) (m : Mach) : Mach :=
  let pr := pairOf (coreOf c.slot)
  let p := m.pair c.ctx pr
  m.setPair c.ctx pr { p with kq := p.kq.put que (p.kq.get [] que ++ quadsOf l (l.length / 8)) }

/-- A copy command where its record says: DR and DB count when they are no longer what the engine saw (R213). -/
def Cmd.where_ (c : Cmd) (r : CopyRec) : Cmd :=
  if r.dr == c.args.getD 4 0 && r.db == c.args.getD 5 0 then c else { c with args := copyArgs (c.args.getD 0 0) r r.dr r.db }

/-- The copy that an event is about, its record as it stands, and the command where the record says. -/
def copyOf (id : Nat) : M (Cmd × List Nat × CopyRec) := do
  let m ← get
  let c ← need (m.cmds.find? (fun c => c.id == id && isCopy c.op))
  let q ← copyRead c
  let r := copyRec c.op q
  pure (c.where_ r, q, r)

/-- The row and the byte in it where a copy goes on; a byte beyond its row is the start of the next one. -/
def copyPoint (c : Cmd) (r : CopyRec) : Nat × Nat :=
  if c.args.getD 2 0 < r.len then (c.args.getD 1 0, c.args.getD 2 0) else (c.args.getD 1 0 + 1, 0)

/-- How many bytes a copy still has to write up to the next 128-byte boundary of its destination or the end of its row (R213): none when nothing is
left of it. -/
def copyLeft (c : Cmd) (r : CopyRec) : Nat :=
  let p := copyPoint c r
  if p.1 < r.rows then min (r.len - p.2) ((128 - (r.dstAt p.1 + p.2) % 128) % 128) else 0

/-- Does an earlier COPYK of the slot to the queue remain incomplete (R190)? -/
def copyBefore (m : Mach) (c : Cmd) : Bool :=
  m.cmds.any (fun d => d.slot == c.slot && d.op == 0xCC && decide (d.num < c.num) && d.args.getD 3 4 == c.args.getD 3 4)

/-- A COPYK pushes the keys that its queue has room for (R212). -/
def copyPush (c : Cmd) (r : CopyRec) : M Unit := do
  let m ← get
  enabledIf (!copyBefore m c)
  let byte := c.args.getD 2 0
  let p ← copyRow c r 0 byte
  let room := 64 - ((m.pair c.ctx (pairOf (coreOf c.slot))).kq.get [] r.que).length
  let n := 8 * min room (p.1.length / 8)
  enabledIf (n != 0 || (p.1.isEmpty && p.2.isNone))
  copyLines c r (p.1.take n)
  let srcs := (p.1.take n).map (·.1)
  change (srcFind r.ssp srcs)
  let m ← get
  match srcs.find? (placePoison m r.ssp) with
  | some a => halt (fun m => .stay (endContext c.ctx 0x81 c.slot (if r.ssp then a % 2 ^ 21 else a) m))
  | none => pure ()
  change (copyKeys c r.que (if r.ssp then srcs.map m.spad.rd else srcs.map (fun a => (sliceBytes m false a 1).headD 0)))
  if byte + n = r.len ∨ r.len ≤ byte then change (fun m => endCmd c 0 (copyWriteBack c 0 0 (some 0) m))
  else change (setCmd { c with args := copyArgs (c.args.getD 0 0) r 0 (byte + n), prog := (byte + n) / 8, served := [] })

/-- With a stop requested, a copy runs on to the next 128-byte boundary of its destination (R213). -/
def copyOn (c : Cmd) (r : CopyRec) : M Unit := do
  let row := (copyPoint c r).1
  let byte := (copyPoint c r).2
  let p ← copyRow c r row byte
  let l := p.1.take (copyLeft c r)
  enabledIf (!l.isEmpty)
  copyLines c r l
  copyBytes c r l
  let there := if byte + l.length < r.len then (row, byte + l.length) else (row + 1, 0)
  if r.rows ≤ there.1 then change (fun m => endCmd c 0 (copyWriteBack c r.rows 0 (some 0) m))
  else change (setCmd { c with args := copyArgs (c.args.getD 0 0) r there.1 there.2, prog := copyProg c r there.1 there.2 })

/-- A copy's record in scratchpad, as a stop finds it. -/
def copyStands (m : Mach) (c : Cmd) : CopyRec := copyRec c.op (quadsOf (m.spad.rdN (spPlace (coreOf c.slot) (c.args.getD 0 0)) 64) 8)

/-- Is the copy one that a stop of its context still lets run on? -/
def copyRuns (m : Mach) (c : Cmd) (r : CopyRec) : Bool :=
  (m.ctx c.ctx).st == .running && (m.ctx c.ctx).pre.isSome && c.st == 0 && c.op != 0xCC && copyLeft c r != 0
    && (copyFails m c.slot c.op r).isNone

/-- COPY_COMPLETE (R212): a copy completes; a COPYK pushes the keys that its queue has room for. A record that has become one
that issue would refuse ends the command with status 4 (log entry 41). -/
def execCopyComplete (id : Nat) : State → Host.Outcome State Fault Refusal := device do
  let p ← copyOf id
  let c := p.1
  let r := p.2.2
  let m ← get
  if copyRuns m c r then copyOn c r
  else
    enabledIf (cmdMay m c)
    if copyBad c.op p.2.1 || (copyFails m c.slot c.op r).isSome then
      change (fun m => endCmd c 4 (copyWriteBack c (c.args.getD 1 0) (c.args.getD 2 0) (some 4) m))
    else if c.op = 0xCC then copyPush c r
    else
      let row := c.args.getD 1 0
      let g ← copyRows c r (r.rows - row) row (c.args.getD 2 0)
      enabledIf g.fault.isNone
      copyLines c r g.bytes
      copyBytes c r g.bytes
      change (fun m => endCmd c 0 (copyWriteBack c r.rows 0 (some 0) m))

/-- A translation fault stops a copy, after the bytes before it (R112, R212). -/
def copyFault (id : Nat) : M Unit := do
  let p ← copyOf id
  let c := p.1
  let r := p.2.2
  let m ← get
  enabledIf ((cmdMay m c || copyRuns m c r) && !(copyBad c.op p.2.1 || (copyFails m c.slot c.op r).isSome))
  let row := c.args.getD 1 0
  let byte := c.args.getD 2 0
  let g ← copyRows c r (r.rows - row) row byte
  let f ← need g.fault
  enabledIf (cmdMay m c || g.bytes.isEmpty)
  enabledIf (c.op != 0xCC || decide (g.bytes.length < 8) && !copyBefore m c)
  if c.op = 0xCC then change (engStop { c with args := copyArgs (c.args.getD 0 0) r row byte } f.2 f.1)
  else
    copyLines c r g.bytes
    copyBytes c r g.bytes
    change (engStop { c with args := copyArgs (c.args.getD 0 0) r g.row g.byte, prog := copyProg c r g.row g.byte, served := [] } f.2 f.1)

/-! ## Gather, scatter and pool (R107 to R112) -/

/-- Arguments of a command: D, A, B, entries, bags, elements or bytes per row, stride, row bytes, index bytes, mod24, format
and rounding codes, bags written; then the rows of the bag in progress, or SCATTER's list as it was read at issue. -/
def gpArg (c : Cmd) (i : Nat) : Nat := c.args.getD i 0
def gpHeld (c : Cmd) : List Nat := c.args.drop 13

/-- Index `j` and its weight (R109). -/
def gpIndex (c : Cmd) (l : List Nat) (j : Nat) : Nat × Nat :=
  let e := ofLE ((l.drop (j * gpArg c 8)).take (gpArg c 8))
  if c.op = 0xCF then (e % 2 ^ 32, e / 2 ^ 32) else (e, 0)

def gpRowVa (a idx s : Nat) : Nat := (a + idx * s) % 2 ^ 64

/-- The rows that SCATTER writes, as its index list stands at issue. -/
def scatterVas (x : NewCmd) (li : List Nat) : List (Nat × Nat) :=
  let c := x.cmd 0 0 0 0 0 0 none
  (List.range (gpArg c 3)).map (fun j => (gpRowVa (gpArg c 1) (gpIndex c li j).1 (gpArg c 6), gpArg c 7))

/-- The scratchpad ranges of a command with these arguments: its list and its packed rows or output. -/
def gpSpans (op : Nat) (args : List Nat) : List (Nat × Nat) :=
  let a := fun i => args.getD i 0
  if a 3 = 0 ∨ a 5 = 0 then []
  else [(a 2, a 3 * a 8 + (if op = 0xCF then 4 * a 4 else 0)), (a 0, if op = 0xCF then a 4 * a 5 * 4 else a 3 * a 5)]

/-- GATHER, SCATTER and POOL at issue (R108). In deterministic mode SCATTER's list is read here, before the number is taken (R322). -/
def gpOp (x : JW) (op : Nat) : M Unit :=
  issue x.h x.a x.b (fun _ => { rd := gPlain x.d ++ gPlain x.a ++ gPlain x.b ++ gPlain x.c ++ gPlain x.e }) do
    let d ← rdGp x.d
    let a ← rdGp x.a
    let b ← rdGp x.b
    let c ← rdGp x.c
    let e ← rdGp x.e
    accessGate
    let n := bits c 0 32
    let nb := bits c 32 32
    let l := bits e 0 32
    let s := bits e 32 32
    let rb := if op = 0xCF then l * Fmt.width x.fmt / 8 else l
    let ib := if op = 0xCF ∨ bitAt x.mod.toNat 0 then 8 else 4
    trapIf (decide (16384 < l) || decide (65536 < rb)) 0x18 0
    let m ← get
    let idle := n == 0 || l == 0
    let lists := n * ib + (if op = 0xCF then 4 * nb else 0)
    let side := if op = 0xCF then nb * l * 4 else n * l
    trapIf (spFails m b lists) 0x15 b
    trapIf (spFails m d side) 0x15 d
    let args := [d, a, b, n, nb, l, s, rb, ib, x.mod.toNat, Fmt.code x.fmt, Rm.code x.rm, 0]
    let li ← if op = 0xCE ∧ !idle ∧ m.cx.det then spRead b lists else pure []
    let wvas := if op = 0xCE ∧ !idle then scatterVas { op := op, args := args } (if m.cx.det then li else m.spad.rdN (spPlace m.curCore b) lists) else []
    match capRanges m wvas with
    | some p => trap p.1 p.2
    | none => pure ()
    newCmd 1 { op := op, args := args ++ li, spans := gpSpans op args, wvas := wvas, ch := x.h.ch.toNat }
    pure none
/-- GATHER. -/
def execGather (x : JW) : State → Host.Outcome State Fault Refusal := run (gpOp x 0xCD)
/-- SCATTER. -/
def execScatter (x : JW) : State → Host.Outcome State Fault Refusal := run (gpOp x 0xCE)
/-- POOL. -/
def execPool (x : JW) : State → Host.Outcome State Fault Refusal := run (gpOp x 0xCF)

/-- The rows that a command reaches: the physical addresses of each row's bytes, and the row that fails. -/
structure GpRows where
  rows : List (List Nat)
  fault : Option (Nat × Nat × EngAt)

/-- `n` rows from row `j` on, up to the first that fails (R109). -/
def gpRows (c : Cmd) (l : List Nat) (acc : Acc) : Nat → Nat → M GpRows
  | 0, _ => pure ⟨[], none⟩
  | n + 1, j => do
    let va := gpRowVa (gpArg c 1) (gpIndex c l j).1 (gpArg c 6)
    let p ← engPages c.slot acc (pagesOf va (gpArg c 7))
    match p.2 with
    | some f => pure ⟨[], some (j, f)⟩
    | none =>
      let r ← gpRows c l acc n (j + 1)
      pure { r with rows := engBytes va p.1 (gpArg c 7) :: r.rows }

/-- A command of tl.gp writes bytes: those that a higher-numbered command of the timeline has written meanwhile stand (R110). -/
def gpWrite (c : Cmd) (sp : Bool) (cells : List (Nat × Nat)) (m : Mach) : Mach :=
  let name := fun a => if sp then 2 * a + 1 else 2 * a
  let cells := cells.filter (fun b => !c.later.contains (name b.1))
  let m := if sp then storeSp cells m else engStore cells m
  { m with cmds := m.cmds.map (fun d => if d.slot == c.slot && d.tl == c.tl && decide (d.num < c.num) then
      { d with later := cells.map (fun b => name b.1) ++ d.later } else d) }

/-- One output element of a bag (R110), from the weights and bytes of its rows. -/
def poolElem (f : Fmt) (rm : Rm) (w oi : Bool) (rows : List (Nat × List Nat)) (e : Nat) : Nat :=
  let sz := Fmt.width f / 8
  let terms := rows.map (fun r =>
    Num.mul (if w then f32 r.1 else .fin false 1 0) (dec f (ofLE ((r.2.drop (e * sz)).take sz))))
  let sum := terms.foldl (Num.add false) (.zero false)
  if terms.any Num.isNan then 0x7FC00000
  else match sum with
    | .nan => 0x7FC00000
    | .inf s => toF32 .rne (.inf s)
    | .fin _ k _ =>
      if oi then ofInt 32 (rndInt (-(2 ^ 31)) (2 ^ 31 - 1) .rz sum)
      else if k = 0 then (if (!terms.isEmpty && terms.all Num.sign) || rm == .rd then 2 ^ 31 else 0)
      else toF32 rm sum

/-- Bags as first entry and one past the last (R110). -/
def poolBags (n : Nat) : List Nat → Nat → List (Nat × Nat)
  | [], _ => []
  | l :: ls, at_ => (at_, min n (at_ + l)) :: poolBags n ls (min n (at_ + l))

/-- The bags of a POOL command. -/
def gpBags (c : Cmd) (l : List Nat) : List (Nat × Nat) :=
  poolBags (gpArg c 3) ((List.range (gpArg c 4)).map (fun b => ofLE ((l.drop (gpArg c 3 * gpArg c 8 + 4 * b)).take 4))) 0

/-- The output row of bag `b`, from the bytes of the rows from row `from_` on. -/
def poolRow (c : Cmd) (l all : List Nat) (from_ : Nat) (b : Nat × Nat) : List Nat :=
  let rb := gpArg c 7
  let rows := (List.range (b.2 - b.1)).map (fun i =>
    ((gpIndex c l (b.1 + i)).2, (all.drop ((b.1 + i - from_) * rb)).take rb))
  ((List.range (gpArg c 5)).map (fun e => toLE 4 (poolElem ((Fmt.ofCode (gpArg c 10)).getD .i8) ((Rm.ofCode (gpArg c 11)).getD .rne)
    (bitAt (gpArg c 9) 1) (bitAt (gpArg c 9) 2) rows e))).flatten

/-- POOL has read its rows up to row `hi`: it writes the bags that end there, empty ones too, and keeps the rows of the bag in progress. -/
def poolDo (c : Cmd) (l : List Nat) (lo hi : Nat) (new : List Nat) : M (List Nat) := do
  let old := gpHeld c
  let from_ := lo - old.length / gpArg c 7
  let all := old ++ new
  let bags := gpBags c l
  let done := (bags.filter (fun b => decide (b.2 ≤ hi))).length
  ((List.range done).drop (gpArg c 12)).forM (fun b =>
    change (gpWrite c true (cellsAt (spPlace (coreOf c.slot) (gpArg c 0 + 4 * (b * gpArg c 5))) (poolRow c l all from_ (bags.getD b (0, 0))))))
  let start := (bags.getD done (hi, hi)).1
  pure (c.args.take 12 ++ [done] ++ all.drop ((start - from_) * gpArg c 7))

/-- The rows given, from row `lo` on, are performed; the command's arguments afterwards. -/
def gpDo (c : Cmd) (l : List Nat) (lo : Nat) (rows : List (List Nat)) : M (List Nat) := do
  if c.op = 0xCD then
    (rows.zipIdx).forM (fun r => do
      let b ← engRead c.slot r.1
      change (gpWrite c true (cellsAt (spPlace (coreOf c.slot) (gpArg c 0 + (lo + r.2) * gpArg c 5)) b)))
    pure c.args
  else if c.op = 0xCE then
    (rows.zipIdx).forM (fun r => do
      let b ← engSpRead c.slot (gpArg c 0 + (lo + r.2) * gpArg c 5) (gpArg c 5)
      change (gpWrite c false (r.1.zip b)))
    pure c.args
  else
    let new ← rows.foldlM (fun acc r => do
      let b ← engRead c.slot r
      pure (acc ++ b)) []
    poolDo c l lo (lo + rows.length) new

def gpAcc (c : Cmd) : Acc := if c.op = 0xCE then .write else .read
def isGp (op : Nat) : Bool := op == 0xCD || op == 0xCE || op == 0xCF
def gpIdle (c : Cmd) : Bool := gpArg c 3 == 0 || gpArg c 5 == 0
/-- Entries of a command that are read: none when N or the row is empty; on POOL those of its bags (R108, R110). -/
def gpEntries (c : Cmd) (l : List Nat) : Nat :=
  if gpIdle c then 0 else if c.op = 0xCF then ((gpBags c l).getLast?.map (·.2)).getD 0 else gpArg c 3
def gpList (c : Cmd) : M (List Nat) :=
  if gpIdle c then pure []
  else if c.op = 0xCE ∧ !(gpHeld c).isEmpty then pure (gpHeld c)
  else engSpRead c.slot (gpArg c 2) (gpArg c 3 * gpArg c 8 + (if c.op = 0xCF then 4 * gpArg c 4 else 0))

/-- What an event of a gather, scatter or pool performs: the command, its list, and the rows before a failure, whose lines have had their turn.
`fails` says which of the two events it is. -/
def gpReady (id : Nat) (fails : Bool) : M (Cmd × List Nat × GpRows) := do
  let m ← get
  let c ← need (m.cmds.find? (fun c => c.id == id && isGp c.op))
  enabledIf (cmdMay m c)
  let l ← gpList c
  let r ← gpRows c l (gpAcc c) (gpEntries c l - c.prog) c.prog
  enabledIf (r.fault.isSome == fails)
  let lines := r.rows.flatten.map (· / 128)
  engLines c (if c.op = 0xCE then [] else lines) (if c.op = 0xCE then lines else [])
  pure (c, l, r)

/-- GP_COMMAND_COMPLETE (R111). -/
def execGpCommandComplete (id : Nat) : State → Host.Outcome State Fault Refusal := device do
  let p ← gpReady id false
  if gpIdle p.1 then pure ()
  else do
    let _ ← gpDo p.1 p.2.1 p.1.prog p.2.2.rows
    pure ()
  change (endCmd p.1 0)

/-- A translation fault stops the command at its row: every row before it has been completed (R109, R112). -/
def gpFault (id : Nat) : M Unit := do
  let p ← gpReady id true
  let f ← need p.2.2.fault
  let args ← gpDo p.1 p.2.1 p.1.prog p.2.2.rows
  change (fun m =>
    let c := (m.cmds.find? (fun c => c.id == id)).getD p.1
    engStop { c with prog := f.1, args := args, served := [] } f.2 (gpAcc c) m)

/-! ## The in-stack matvec (R217 to R219) -/

/-- Is the record of a matvec refused (R217)? -/
def smvBad (q : List Nat) : Bool :=
  let nrow := bits (q.getD 1 0) 0 32
  let ncol := bits (q.getD 1 0) 32 32
  let wf := bits (q.getD 2 0) 0 5
  let size := (match Fmt.ofCode wf with
    | some f => Fmt.width f
    | none => 8) / 8
  nrow == 0 || decide (65536 < nrow) || ncol == 0 || decide (16384 < ncol) || !([0, 1, 2, 5, 6, 12, 20, 21, 22].contains wf)
    || bits (q.getD 2 0) 8 16 == 0 || bits (q.getD 2 0) 5 3 != 0 || bits (q.getD 2 0) 24 40 != 0 || !(q.drop 5).all (· == 0)
    || q.getD 0 0 % size != 0

/-- SMVCFG. -/
def execSmvcfg (x : JW) : State → Host.Outcome State Fault Refusal := run <|
  issue x.h x.a x.b (fun _ => { rd := gPlain x.a }) do
    let a ← rdGp x.a
    accessGate
    let m ← get
    trapIf (!ownShare m m.cur a 64) 0x15 a
    let l ← spRead a 64
    let q := quadsOf l 8
    trapIf (smvBad q) 0x18 0
    changeMine (fun s => { s with smv := some q })
    pure none

/-- The scratchpad ranges of a matvec with these arguments. -/
def smvSpans (args : List Nat) : List (Nat × Nat) :=
  let a := fun i => args.getD i 0
  [(a 1, 4 * a 2 * bits (a 4) 32 32), (a 0, 4 * a 2 * bits (a 4) 0 32)]

/-- SMV. -/
def execSmv (x : JW) : State → Host.Outcome State Fault Refusal := run <|
  issue x.h x.a x.b (fun _ => { rd := gPlain x.d ++ gPlain x.a ++ gPlain x.b }) do
    let d ← rdGp x.d
    let a ← rdGp x.a
    let nv ← rdGp x.b
    accessGate
    let m ← get
    match m.sl.smv with
    | none => trap 0x18 0
    | some q =>
      trapIf (nv == 0 || decide (8 < nv)) 0x18 0
      let nrow := bits (q.getD 1 0) 0 32
      let ncol := bits (q.getD 1 0) 32 32
      trapIf (spFails m a (4 * nv * ncol)) 0x15 a
      trapIf (spFails m d (4 * nv * nrow)) 0x15 d
      newCmd 2 { op := 0xD0, args := [d, a, nv] ++ q ++ [0], spans := smvSpans ([d, a, nv] ++ q), ch := x.h.ch.toNat }
      pure none

/-- Rows, columns, weight format and row address of a command. -/
def smvRows (c : Cmd) : Nat := bits (c.args.getD 4 0) 0 32
def smvCols (c : Cmd) : Nat := bits (c.args.getD 4 0) 32 32
def smvFmt (c : Cmd) : Fmt := (Fmt.ofCode (bits (c.args.getD 5 0) 0 5)).getD .i8
def smvRowVa (c : Cmd) (r : Nat) : Nat :=
  let g := bits (c.args.getD 5 0) 8 16
  (c.args.getD 3 0 + r % g * c.args.getD 6 0 + r / g * c.args.getD 7 0) % 2 ^ 64
def smvRowLen (c : Cmd) : Nat := smvCols c * (Fmt.width (smvFmt c) / 8)

/-- The stack of a physical address; none outside HBM. -/
def stackOf (d : Dev) (pa : Nat) : Option Nat := if paKind d pa == .hbm then some (bits pa 18 4 * 2 + bits pa 13 1) else none

/-- What stops a row: a failing access, or a weight line in another stack than the first line's (none inside). -/
inductive SmvStop where
  | fault (p : Nat × EngAt)
  | span
  | none

/-- The lines of weights at the addresses given, up to the first that stops the command. -/
def smvLines (k : Nat) (first : Option Nat) : List Nat → M (List Nat × SmvStop)
  | [] => pure ([], .none)
  | a :: l => do
    let e ← engAt k (a % 2 ^ 64) .read
    let m ← get
    match e with
    | .ok pa =>
      if stackOf m.dev pa != first || first.isNone then pure ([], .span)
      else
        let r ← smvLines k first l
        pure (pa / 128 :: r.1, r.2)
    | _ => pure ([], .fault (a % 2 ^ 64, e))

/-- The lines of row `r`. -/
def smvRow (c : Cmd) (first : Option Nat) (r : Nat) : M (List Nat × SmvStop) :=
  let va := smvRowVa c r
  smvLines c.slot first (va :: (List.range ((va + smvRowLen c - 1) / 128 - va / 128)).map (fun i => (va / 128 + i + 1) * 128))

/-- The stack of the first line, which the command keeps once it has been found; none when it does not translate or lies in no stack. -/
def smvFirst (c : Cmd) : M (Option Nat) := do
  if c.args.getD 11 0 = 0 then
    let e ← engAt c.slot (smvRowVa c 0) .read
    let m ← get
    pure (match e with
      | .ok pa => stackOf m.dev pa
      | _ => none)
  else pure (some (c.args.getD 11 0 - 1))

/-- What a matvec can do: the rows before one that stops it, their lines, and what stops it. -/
structure SmvGo where
  hi : Nat
  lines : List Nat
  stop : SmvStop

/-- `n` rows from row `r` on. -/
def smvRowsFrom (c : Cmd) (first : Option Nat) : Nat → Nat → M SmvGo
  | 0, r => pure ⟨r, [], .none⟩
  | n + 1, r => do
    let p ← smvRow c first r
    match p.2 with
    | .none =>
      let q ← smvRowsFrom c first n (r + 1)
      pure { q with lines := p.1 ++ q.lines }
    | s => pure ⟨r, [], s⟩

/-- The sum of one row and vector (R218). -/
def smvSum (f : Fmt) (ws : List Nat) (xs : List Nat) : Nat :=
  let sz := Fmt.width f / 8
  let p := xs.zipIdx.foldl (fun (p : List Nat) e =>
    let b := e.2 / 64 % 16
    p.set b (fma32 (f32 (p.getD b 0)) (dec f (ofLE ((ws.drop (e.2 * sz)).take sz))) (f32 e.1))) (List.replicate 16 0)
  p.tail.foldl fadd32 (p.headD 0)

/-- Rows `lo` to `hi - 1` are written. -/
def smvDo (c : Cmd) (lo hi : Nat) : M Unit :=
  (List.range (hi - lo)).forM (fun i => do
    let va := smvRowVa c (lo + i)
    let pas ← engPages c.slot .read (pagesOf va (smvRowLen c))
    let ws ← engRead c.slot (engBytes va pas.1 (smvRowLen c))
    (List.range (c.args.getD 2 0)).forM (fun v => do
      let l ← engSpRead c.slot (c.args.getD 1 0 + 4 * v * smvCols c) (4 * smvCols c)
      let xs := (List.range (smvCols c)).map (fun j => ofLE ((l.drop (4 * j)).take 4))
      change (engSpWrite c.slot (c.args.getD 0 0 + 4 * (v * smvRows c + lo + i)) (toLE 4 (smvSum (smvFmt c) ws xs)))))

/-- What an event of a matvec performs: the command, which keeps the stack of its first line, and the rows that it can write. -/
def smvReady (id : Nat) : M (Cmd × SmvGo) := do
  let m ← get
  let c ← need (m.cmds.find? (fun c => c.id == id && c.op == 0xD0))
  enabledIf (cmdMay m c)
  let first ← smvFirst c
  let g ← smvRowsFrom c first (smvRows c - c.prog) c.prog
  pure ({ c with args := c.args.set 11 ((first.map (· + 1)).getD 0) }, g)

/-- SMV_COMPLETE (R219). -/
def execSmvComplete (id : Nat) : State → Host.Outcome State Fault Refusal := device do
  let p ← smvReady id
  enabledIf (match p.2.stop with
    | .fault _ => false
    | _ => true)
  engLines p.1 p.2.lines []
  smvDo p.1 p.1.prog p.2.hi
  change (endCmd p.1 (match p.2.stop with
    | .span => 3
    | _ => 0))

/-- A translation fault stops a matvec at its row (R219). -/
def smvFault (id : Nat) : M Unit := do
  let p ← smvReady id
  match p.2.stop with
  | .fault f =>
    engLines p.1 p.2.lines []
    smvDo p.1 p.1.prog p.2.hi
    change (engStop { p.1 with prog := p.2.hi, served := [] } f .read)
  | _ => notEnabled

/-! ## A translation fault stops a command (R112, R212, R219) -/

/-- GP_ROW_FAULT: every row before the fault has been completed. -/
def execGpRowFault (id : Nat) : State → Host.Outcome State Fault Refusal := device do
  let m ← get
  let c ← need (m.cmds.find? (fun c => c.id == id))
  if isGp c.op then gpFault id
  else if c.op = 0xD0 then smvFault id
  else if isCopy c.op then copyFault id
  else notEnabled

/-! ## Prefetch of pooled lines (R214) -/

/-- The line at a virtual address is asked for if it lies in pooled memory. -/
def prefetchLine (ch va : Nat) (m : Mach) : Mach := match quietXlate m.cur va .read (countTlb m.cur va m) with
  | (none, m) => m
  | (some pa, m) =>
    if paKind m.dev pa == .pooled then addReq m.cur m.sl.ctx pa .sent (.line false) m (fun r => { r with hint := ch }) else m

/-- The lines of a virtual range. -/
def vaLines (a n : Nat) : List Nat := if n = 0 then [] else (List.range ((a + n - 1) / 128 - a / 128 + 1)).map (fun i => (a / 128 + i) * 128)

/-- PFPOOL: lines of other memory types, and lines whose translation fails, are skipped. -/
def execPfpool (x : JW) : State → Host.Outcome State Fault Refusal := run <|
  issue x.h x.a x.b (fun _ => { rd := gPlain x.a ++ gPlain x.b }) do
    let a ← rdGp x.a
    let b ← rdGp x.b
    accessGate
    rangeCheck a b
    let m ← get
    match (vaLines a b).find? (walking m m.curCore m.cx.asid) with
    | some v => joinWalk v
    | none => pure ()
    change (fun m => (vaLines a b).foldl (fun m v => prefetchLine x.h.ch.toNat v m) m)
    pure none

/-! ## Inspecting and cancelling (R215, R216) -/

/-- The word of ESTAT (R215); PROG and NUM read 0 when no command is incomplete (DESIGN CHOICE, log entry 36). -/
def estatWord (m : Mach) (k t : Nat) : Nat :=
  let x := m.tlOf k t
  match cmdsOf m k t with
  | [] => x.st * 2 ^ 8
  | c :: l => (l.length + 1) + (if c.st = 0 then x.st else c.st) * 2 ^ 8 + c.prog % 2 ^ 32 * 2 ^ 16 + c.num % 2 ^ 16 * 2 ^ 48

/-- ESTAT. -/
def execEstat (x : JW) : State → Host.Outcome State Fault Refusal := run <|
  issue x.h 0 0 (fun _ => { pops := [(x.d, .write)], nondet := true }) do
    let m ← get
    let t := x.a.toNat - 16
    wrLand .ready x.d (estatWord m (tlSlot m.cur t) t)
    pure none

/-- A command ends where it stands, with status 4; a copy's record says so. -/
def cancelCmd (c : Cmd) (m : Mach) : Mach := endCmd c 4 (cancelRecord c m)

/-- ECANCEL: every incomplete command of the timeline has stopped and completed when it does. -/
def execEcancel (x : JW) : State → Host.Outcome State Fault Refusal := run <|
  issue x.h 0 0 (fun _ => {}) do
    let m ← get
    change (fun m1 => (cmdsOf m m.cur (x.d.toNat - 16)).foldl (fun m c => cancelCmd c m) m1)
    pure none

end Sys2Proof.Machine
end

