-- ==== Sys2Proof/Machine/Conjunction.lean ====
section
/-! DEFINITION. The conjunction engine: its commands, the accumulator table and spill ring, contraction, draining, saving and
set operations (R168, R169, R183 to R185, R186, R187, R189, R192 to R210). -/
namespace Sys2Proof.Machine

/-! ## One command at a time (R186, R187) -/

def issuerOnly : M Unit := do
  let m ← get
  trapIf (!isIssuer m.curCore) 0x24 0

/-- The pair state of the executing slot. -/
def Mach.cj (m : Mach) : Pair := m.pair m.sl.ctx (pairOf m.curCore)
def Mach.setCj (m : Mach) (p : Pair) : Mach := m.setPair m.sl.ctx (pairOf m.curCore) p

/-- The engine belongs to the synchronous command of a slot, after the commands issued so far; or to none. -/
def setBusy (b : Option Nat) (m : Mach) : Mach := m.setCj { m.cj with busy := b, from_ := m.nextId }

/-- Is the pair's engine another slot's, or is an earlier tl.cj command of the issuer core incomplete (R187)? -/
def engineHeld (m : Mach) (k : Nat) : Bool :=
  let s := m.slot k
  let p := m.pair s.ctx (pairOf (coreOf k))
  (match p.busy with
   | some j => j != k
   | none => false)
  || m.cmds.any (fun c => c.tl == 3 && coreOf c.slot == coreOf k && c.ctx == s.ctx && (p.busy.isNone || decide (c.id < p.from_)))

/-- The wait for the engine: another slot's synchronous command, and every earlier tl.cj command of the issuer core. Commands issued later come
after this one. -/
def cjWait : M Unit := do
  accessGate
  let m ← get
  blockWith (engineHeld m m.cur) (fun m => if m.cj.busy.isNone then setBusy (some m.cur) m else m) .engine

/-- A synchronous command completes and takes its number. -/
def completeCj (m : Mach) : Mach :=
  let x := m.tlOf m.cur 3
  setTimeline m.cur 3 ⟨x.issued + 1, x.issued + 1, x.st⟩ (setBusy none m)
def cjDone : M Unit := change completeCj

/-- A trap ends the engine's work on the slot's command (R199). -/
def freeOnTrap {α : Type} (x : M α) : M α := fun m => match x m with
  | .error (.trap cause val) => .error (.trapAt (if m.cj.busy == some m.cur then setBusy none m else m) cause val m.sl.retAddr)
  | r => r

/-! ## The table (R183 to R185, R192 to R194) -/

/-- Strip elements per tuple. -/
def Pair.w (p : Pair) : Nat := if p.wc = 0 then 64 else if p.wc = 1 then 16 else 4
def Pair.roff (p : Pair) : Nat := bits p.ring 0 21
def Pair.rcap (p : Pair) : Nat := bits p.ring 32 16
/-- Bytes of a spill record. -/
def Pair.recSize (p : Pair) : Nat := 16 + 16 * p.w * p.w

/-- The class of a format (R194). -/
def accClass (f : Fmt) : AccClass :=
  if f.code ≤ 11 ∨ f.code = 20 then .exactFloat else if f.code ≤ 19 then .exactInt else .fp32

def cjHash (x : Nat) : Nat := bits x 0 12 ^^^ bits x 12 12 ^^^ bits x 24 12 ^^^ bits x 36 12

/-- Where a key goes: a place that holds it, or a free place; none when the probe ends (R193). -/
def Pair.probe (p : Pair) (x : Nat) : Option Nat :=
  let h := cjHash x
  let bank := if p.wc = 0 then 0 else h % 16 % p.nb
  let start := bits h 4 8 % p.ns
  (List.range p.p).findSome? (fun t =>
    let place := bank * p.ns + (start + t) % p.ns
    match p.table.find? (·.place == place) with
    | some e => if e.key = x then some place else none
    | none => some place)

/-- A product is added to an exact cell (R183). -/
def cellAdd (c : Nat) (x : Num) : Nat :=
  match x with
  | .nan => setBits c 127 1 1
  | .inf neg => setBits c (if neg then 126 else 125) 1 1
  | .fin neg m e =>
    let v : Int := if 0 ≤ e + 48 then m * 2 ^ (e + 48).toNat else m / 2 ^ (-(e + 48)).toNat
    setBits c 0 125 (ofInt 125 ((bits c 0 125 : Nat) + (if neg then -v else v)))

/-- One step of a cell: exact, or fused FP32 (R183, R185). -/
def cellStep (k : AccClass) (c : Nat) (a b : Num) : Nat := match k with
  | .fp32 => fma32 (f32 c) a b
  | _ => cellAdd c (a.mul b)

/-- Two cells of one key are combined (R184, R185, R200). -/
def cellJoin (k : AccClass) (c d : Nat) : Nat := match k with
  | .fp32 => fadd32 (c % 2 ^ 32) (d % 2 ^ 32)
  | _ => (bits c 125 3 ||| bits d 125 3) * 2 ^ 125 + (c + d) % 2 ^ 125

/-- The drained result of a cell (R184, R185). DESIGN CHOICE (log entry 62): an integer cell that CJLOAD has loaded with a value that is no
multiple of 2^48, or with PI, NI or NN set, drains its value truncated toward zero, and the flags have no effect. -/
def cellResult (k : AccClass) (rm : Rm) (c : Nat) : Nat :=
  let v := sx 125 c
  match k with
  | .fp32 => c % 2 ^ 32
  | .exactInt => ofInt 32 (rndInt (-(2 ^ 31)) (2 ^ 31 - 1) .rz (.fin (decide (v < 0)) v.natAbs (-48)))
  | _ =>
    if bitAt c 127 || (bitAt c 125 && bitAt c 126) then 0x7FC00000
    else if bitAt c 125 then 0x7F800000
    else if bitAt c 126 then 0xFF800000
    else if v = 0 then (if rm == .rd then 2 ^ 31 else 0)
    else toF32 rm (.fin (decide (v < 0)) v.natAbs (-48))

/-- Elements of a strip (R170, R189). -/
def stripElems (f : Fmt) (w : Nat) (l : List Nat) : List Num :=
  (List.range w).map (fun e => dec f (bits (ofLE l) (e * Fmt.width f) (Fmt.width f)))

/-- The cells after an outer product is added, row-major. -/
def outer (k : AccClass) (a b : List Num) (cells : List Nat) : List Nat :=
  let w := b.length
  (List.range (a.length * w)).map (fun i => cellStep k (cells.getD i 0) (a.getD (i / w) (.zero false)) (b.getD (i % w) (.zero false)))

/-- The place in scratchpad of spill ring record `i` of the executing slot's core. -/
def ringPlaceAt (core : Nat) (p : Pair) (i : Nat) : Nat := spPlace core p.roff + i % (max p.rcap 1) * p.recSize

/-- A match is applied (R193); nothing when the ring is full. -/
def applyMatch (x : Nat) (a b : List Num) (m : Mach) : Option Mach :=
  let p := m.cj
  match p.probe x with
  | some place =>
    let old := match p.table.find? (·.place == place) with
      | some e => e.cells
      | none => []
    some (m.setCj { p with table := p.table.filter (·.place != place) ++ [⟨place, x, outer p.cls a b old⟩] })
  | none =>
    if p.rcap ≤ p.held then none
    else
      let bytes := toLE 16 x ++ ((outer p.cls a b []).map (toLE 16)).flatten
      let m := storeSp (cellsAt (ringPlaceAt m.curCore p (p.ringHead + p.held)) bytes) m
      some (m.setCj { p with held := p.held + 1, high := max p.high (p.held + 1) })

/-! ## CJCFG (R192) -/

def ringBad (m : Mach) (k a recSize : Nat) : Option Nat :=
  if bits a 21 11 != 0 || bits a 48 16 != 0 || a % 16 != 0 then some 0x18
  else if bits a 32 16 != 0 && !ownShare m k (bits a 0 21) (bits a 32 16 * recSize) then some 0x15
  else none

/-- The engine with its geometry and ring set, its table and ring empty (R192). -/
def Pair.configured (p : Pair) (md ring : Nat) : Pair :=
  { p with
    wc := bits md 0 2
    nb := bits md 2 4 + 1
    ns := bits md 6 6 + 1
    p := bits md 12 3 + 1
    ring := ring
    cls := .none
    table := []
    held := 0
    ringHead := 0
    high := 0
    group := none }

/-- CJCFG. -/
def execCjcfg (x : JW) : State → Host.Outcome State Fault Refusal := run <|
  issue x.h x.a x.b (fun _ => { rd := gPlain x.a }) do
    issuerOnly
    let a ← rdGp x.a
    cjWait
    freeOnTrap do
      let m ← get
      let p := m.cj.configured x.mod.toNat a
      match ringBad m m.cur a p.recSize with
      | some c => trap c (if c = 0x15 then bits a 0 21 else 0)
      | none => pure ()
      change (fun m => m.setCj p)
      cjDone
      pure none

/-! ## CONTRACT (R189, R195 to R199): one tuple, one pair or one boundary per step -/

def kOf (key : Nat) : Nat := bits key 0 24
def ijOf (key : Nat) : Nat := bits key 24 24
def badKey (key : Nat) : Bool := bits key 48 16 != 0

def stripBytes (f : Fmt) (w : Nat) : Nat := (w * Fmt.width f + 7) / 8

/-- Neighbouring pieces of one line as one piece. -/
def joinPieces (l : List (Nat × Nat)) : List (Nat × Nat) := l.foldr (fun p r => match r with
  | q :: t => if p.1 + p.2 = q.1 ∧ p.1 / 128 = q.1 / 128 then (p.1, p.2 + q.2) :: t else p :: q :: t
  | [] => [p]) []

/-- The next strip of a stream (R189, R196): its elements are popped together. -/
def popStrip (b : BitVec 8) (x : Stream) (n ch : Nat) : M (List Nat) := do
  let sz := Ty.size x.ty
  let as := (List.range n).map (fun i => x.addr (x.pos + i))
  match as.zipIdx.find? (fun a => decide (x.len ≤ x.pos + a.2) || a.1 % sz != 0) with
  | some a => if x.len ≤ x.pos + a.2 then trap 0x13 0 else trap 0x14 a.1
  | none => pure ()
  let pas ← xlateAll (as.map (fun a => (a, Acc.read)))
  bringData true ch (joinPieces (pas.map (fun pa => (pa, sz))))
  let l ← pas.foldlM (fun acc pa => do
    let l ← weakRead pa sz ch
    pure (acc ++ l)) []
  changeMine (fun s => { s with streams := s.streams.put (sNo b) { x with pos := x.pos + n } })
  pure l

/-- The engine's state and the cursor's four registers from `d` on. -/
def cursorAt (d : Nat) (r : List Nat) (p : Pair) (m : Mach) : Mach :=
  (m.setCj p).updSlot m.cur (fun s => s.poke ((r.zipIdx.map (fun v => gCells (d + v.2) v.1)).flatten))

/-- A CONTRACT at work: its destination register, the engine, the four registers, its queues, strip size and cache hint. -/
structure CjGo where
  d : Nat
  p : Pair
  regs : List Nat
  qc : Nat
  qe : Nat
  sb : Nat
  ch : Nat

def CjGo.reg (c : CjGo) (i : Nat) : Nat := c.regs.getD i 0
def CjGo.head (c : CjGo) (q : Nat) : Option Nat := (c.p.kq.get [] q).head?
def CjGo.take (c : CjGo) (q : Nat) : Tab (List Nat) := c.p.kq.put q (c.p.kq.get [] q).tail

/-- The head of a key queue when the register says that tuples remain (R195): none when none do. It is waited for, and it is checked before it is
used (R168). -/
def CjGo.key (c : CjGo) (i q : Nat) : M (Option Nat) := do
  let m ← get
  if c.reg i = 0 then pure none
  else match c.head q with
    | none => block (.keyHead (pairOf m.curCore) m.sl.ctx c.qc c.qe (i == 0) (i == 1))
    | some x =>
      trapIf (badKey x) 0x26 0
      pure (some x)

/-- One unit of CONTRACT is done: the registers stand at the cursor, and the instruction stays at issue. -/
def cjUnit {α : Type} (d : Nat) (r : List Nat) (p : Pair) : M α := do
  change (cursorAt d r p)
  restart

/-- CONTRACT begins, or is executed again after a trap or a stop (R189, R194, R195): the table's class is set, and a held group stays if the
registers stand at its cursor; it goes to the probe. -/
def contractStart (f : Fmt) (c : CjGo) (sa sb : Stream) : M (Option Nat) := do
  let bad := fun (s : Stream) => decide (c.sb < Ty.size s.ty) || c.sb % Ty.size s.ty != 0
  trapIf (bad sa || bad sb) 0x27 0
  trapIf (!(c.p.table.isEmpty && c.p.held == 0) && c.p.cls != accClass f) 0x28 0
  let m ← get
  cjUnit c.d c.regs { c.p with
    cls := accClass f
    busy := some m.cur
    from_ := m.nextId
    group := match c.p.group with
      | some g => if g.cursor == c.regs then some { g with opening := false } else none
      | none => none }

/-- Without a group: the next k, or the chunk's end. -/
def contractLoop (f : Fmt) (c : CjGo) : M (Option Nat) := do
  let ka ← c.key 0 c.qc
  let kb ← c.key 1 c.qe
  let cend := (c.reg 2 / 128 + 1) * 128
  let k := (ka.toList ++ kb.toList).foldl (fun k x => min k (kOf x)) (2 ^ 64)
  if cend ≤ k then
    change (cursorAt c.d (c.regs.set 2 (cend % 2 ^ 64)) c.p)
    cjDone
    pure none
  else
    trapIf (decide (k < c.reg 2)) 0x25 0
    let r := c.regs.set 2 k
    cjUnit c.d r { c.p with group := some ⟨k, true, [], none, 0, r, f⟩ }

/-- With a group that takes its B tuples: the next one, or the end of them. -/
def contractOpen (x : JW) (c : CjGo) (g : Group) (s : Stream) : M (Option Nat) := do
  let kb ← c.key 1 c.qe
  match kb with
  | some t =>
    if kOf t = g.k then
      trapIf (decide (256 ≤ g.places.length)) 0x29 0
      let l ← popStrip x.b s (c.sb / Ty.size s.ty) c.ch
      let r := c.regs.set 1 (c.reg 1 - 1)
      cjUnit c.d r { c.p with kq := c.take c.qe, group := some { g with places := g.places ++ [⟨t, l⟩], cursor := r } }
    else cjUnit c.d c.regs { c.p with group := some { g with opening := false } }
  | none => cjUnit c.d c.regs { c.p with group := some { g with opening := false } }

/-- With a group that has them: the next A tuple, or the group closes. -/
def contractProbe (x : JW) (c : CjGo) (g : Group) (s : Stream) : M (Option Nat) := do
  let ka ← c.key 0 c.qc
  match ka with
  | some t =>
    if kOf t = g.k then
      let l ← popStrip x.a s (c.sb / Ty.size s.ty) c.ch
      cjUnit c.d c.regs { c.p with kq := c.take c.qc, group := some { g with held := some ⟨t, l⟩, next := 0 } }
    else cjUnit c.d c.regs { c.p with group := none }
  | none => cjUnit c.d c.regs { c.p with group := none }

/-- With an A tuple held: its next pair is applied, or it is released. -/
def contractPair (f : Fmt) (c : CjGo) (g : Group) (t : Tuple) : M (Option Nat) := do
  let m ← get
  if g.next < g.places.length then
    let b := g.places.getD g.next ⟨0, []⟩
    let r := c.regs.set 3 ((c.reg 3 + 1) % 2 ^ 64)
    match applyMatch (ijOf t.key + ijOf b.key * 2 ^ 24) (stripElems f c.p.w t.strip) (stripElems f c.p.w b.strip) m with
    | none => trap 0x2A 0
    | some m' =>
      change (fun _ => m'.updSlot m.cur (·.countEvent 8))
      cjUnit c.d r { m'.cj with group := some { g with next := g.next + 1, cursor := r } }
  else
    let r := c.regs.set 0 (c.reg 0 - 1)
    cjUnit c.d r { c.p with group := some { g with held := none, next := 0, cursor := r } }

/-- CONTRACT. The four registers stand at the cursor after every unit; the last-read marks act at completion. -/
def execContract (x : JW) : State → Host.Outcome State Fault Refusal := run <|
  issue x.h x.a x.b (fun _ => { rd := gPlains x.d 4, wr := gPlains x.d 4 }) do
    issuerOnly
    cjWait
    freeOnTrap do
      let m ← get
      let d := gNo x.d
      let c : CjGo := ⟨d, m.cj, (List.range 4).map (fun i => m.sl.g (d + i)), x.c.toNat, x.e.toNat, stripBytes x.fmt m.cj.w, x.h.ch.toNat⟩
      match m.sl.stream x.a, m.sl.stream x.b with
      | some sa, some sb =>
        trapIf (sa.out || sb.out) 0x12 0
        if !m.sl.mid then contractStart x.fmt c sa sb
        else match c.p.group with
          | none => contractLoop x.fmt c
          | some g => match g.held with
            | some t => contractPair x.fmt c g t
            | none => if g.opening then contractOpen x c g sb else contractProbe x c g sa
      | _, _ => trap 0x12 0

/-- CONTRACT_PREEMPT_TIMEOUT (R198): 8 µs after a pre-emption request, or the expiry of its gang's watchdog (R273), a CONTRACT within a group stops
at a pair boundary: not while its B tuples are being taken, unless it waits for one (log entry 37). -/
def execContractPreemptTimeout (k : Nat) : State → Host.Outcome State Fault Refusal := device do
  let m ← get
  let s := m.slot k
  let c := m.ctx s.ctx
  let p := m.pair s.ctx (pairOf (coreOf k))
  let late := c.pre.isSome && decide (c.preAt + 8000 ≤ m.sid)
    || ((s.task.bind (·.e.gang)).bind m.gangs.find).any (fun G => G.wd && decide (G.timer + 8000 ≤ m.sid))
  let boundary := p.group.any (fun g => !g.opening) || (match s.wait with
    | some (.keyHead _ _ _ _ _ _) => true
    | _ => s.parked)
  enabledIf (s.run == .running && late && p.busy == some k && p.group.isSome && boundary && s.wait != some .stopped)
  change (fun m => m.updSlot k (fun s => { s with wait := some .stopped }))

/-! ## Draining and clearing (R200 to R203) -/

/-- Insertion in ascending order. -/
def insertUp (x : Nat) : List Nat → List Nat
  | [] => [x]
  | y :: l => if x ≤ y then x :: y :: l else y :: insertUp x l

/-- Distinct keys in ascending order. -/
def keysUp (l : List Nat) : List Nat := l.dedup.foldr insertUp []

/-- The ring's records in order, as key and cells, read at the banks. -/
def ringRecords : M (List (Nat × List Nat)) := do
  let m ← get
  let p := m.cj
  (List.range p.held).foldlM (fun acc i => do
    let o := p.roff + (p.ringHead + i) % (max p.rcap 1) * p.recSize
    let l ← spRead o p.recSize
    pure (acc ++ [(ofLE (l.take 8), (List.range (p.w * p.w)).map (fun j => ofLE ((l.drop (16 + 16 * j)).take 16)))])) []

/-- The merged cells of every key, keys ascending (R200). -/
def mergedCells (p : Pair) (rs : List (Nat × List Nat)) : List (Nat × List Nat) :=
  (keysUp (p.table.map (·.key) ++ rs.map (·.1))).map (fun x =>
    let l := (p.table.filter (·.key == x)).map (·.cells) ++ (rs.filter (·.1 == x)).map (·.2)
    (x, l.tail.foldl (fun c r => (c.zip r).map (fun z => cellJoin p.cls z.1 z.2)) (l.headD [])))

/-- Table and ring emptied (R200, R202). -/
def Pair.emptied (p : Pair) : Pair :=
  { p with table := [], held := 0, ringHead := (p.ringHead + p.held) % (max p.rcap 1), cls := .none }

/-- DRAIN and ACCST: keys and cells of `size` bytes; the count. -/
def drainOp (x : JW) (size : Nat) (cell : Pair → Nat → Nat) (clear : Bool) : M Unit :=
  issue x.h x.a x.b (fun _ => { rd := gPlain x.a ++ gPlain x.b, pops := [(x.d, .write)] }) do
    issuerOnly
    let a ← rdGp x.a
    let b ← rdGp x.b
    cjWait
    freeOnTrap do
      let m ← get
      let p := m.cj
      let n := p.table.length + p.held
      trapIf (a % 8 != 0) 0x14 a
      trapIf (b % size != 0) 0x14 b
      trapIf (spFails m a (8 * n)) 0x15 a
      trapIf (spFails m b (size * n * p.w * p.w)) 0x15 b
      let rs ← ringRecords
      let out := mergedCells p rs
      spWrite a ((out.map (fun e => toLE 8 e.1)).flatten)
      spWrite b ((out.map (fun e => (e.2.map (fun c => toLE size (cell p c))).flatten)).flatten)
      change (fun m => if clear then m.setCj (Pair.emptied m.cj) else m)
      wrLand .ready x.d out.length
      cjDone
      pure none

/-- DRAIN. -/
def execDrain (x : JW) : State → Host.Outcome State Fault Refusal := run (drainOp x 4 (fun p c => cellResult p.cls x.rm c) true)
/-- ACCST. -/
def execAccst (x : JW) : State → Host.Outcome State Fault Refusal := run (drainOp x 16 (fun _ c => c) (!bitAt x.mod.toNat 0))

/-- ACCLR. -/
def execAcclr (x : JW) : State → Host.Outcome State Fault Refusal := run <|
  issue x.h 0 0 (fun _ => {}) do
    issuerOnly
    cjWait
    change (fun m => m.setCj { Pair.emptied m.cj with group := if bitAt x.mod.toNat 0 then none else m.cj.group })
    cjDone
    pure none

/-- SPILLST. -/
def execSpillst (x : JW) : State → Host.Outcome State Fault Refusal := run <|
  issue x.h 0 0 (fun _ => { pops := [(x.d, .write)] }) do
    issuerOnly
    cjWait
    let m ← get
    wrLand .ready x.d (m.cj.held + m.cj.high * 2 ^ 16 + m.cj.rcap * 2 ^ 32)
    change (setBusy none)
    pure none

/-! ## Saving and loading (R207, R208) -/

def areaSize : Nat := 0x80000

/-- Offset of cell `i` of the entry at a place. -/
def cellOff (p : Pair) (place i : Nat) : Nat :=
  if p.wc = 0 then 0x4000 * (i / 256) + 16 * (256 * place + i % 256)
  else 0x4000 * (place / p.ns) + 16 * (place % p.ns * p.w * p.w + i)

/-- A CAM place or the held A tuple. -/
def tupleCells (off : Nat) (t : Tuple) : List (Nat × Nat) := cellsAt off (toLE 8 t.key ++ t.strip)

/-- The save area of an engine's state, byte by byte (R207). DESIGN CHOICE (log entry 64): the entry of a bank and slot takes key-store slot
`bank * NS + slot`, and its cells stand from `slot * W²` of the bank on; at W = 64 cell `i` stands in bank `i / 256`. -/
def cjImage (p : Pair) : Mem :=
  let quad := fun i v => cellsAt (0x62A00 + 8 * i) (toLE 8 v)
  let g := p.group
  let nPlaces := (g.map (·.places.length)).getD 0
  Mem.wrAll [] (
    ((p.table.map (fun e => (e.cells.zipIdx.map (fun c => cellsAt (cellOff p e.place c.2) (toLE 16 c.1))).flatten)).flatten)
    ++ (p.table.map (fun e => cellsAt (0x40000 + 8 * e.place) (toLE 8 (e.key % 2 ^ 48 + 2 ^ 63)))).flatten
    ++ (match g with
      | some g => (g.places.zipIdx.map (fun t => tupleCells (0x42000 + 512 * t.2) t.1)).flatten ++ (match g.held with
        | some t => tupleCells 0x62000 t
        | none => [])
      | none => [])
    ++ ((List.range 4).map (fun n => ((p.kq.get [] n).zipIdx.map (fun e => cellsAt (0x62200 + 512 * n + 8 * e.2) (toLE 8 e.1))).flatten)).flatten
    ++ quad 0 (p.wc + (p.nb - 1) * 2 ^ 2 + (p.ns - 1) * 2 ^ 6 + (p.p - 1) * 2 ^ 12 + p.cls.code * 2 ^ 16 + (g.map (·.fmt.code)).getD 0 * 2 ^ 18)
    ++ quad 1 p.ring
    ++ quad 2 (p.ringHead + p.held * 2 ^ 16 + p.high * 2 ^ 32)
    ++ quad 3 (match g with
      | some g => 1 + nPlaces * 2 + g.next * 2 ^ 10 + ofBool g.held.isSome * 2 ^ 19 + g.k * 2 ^ 20
      | none => 0)
    ++ ((List.range 4).map (fun i => quad (4 + i) ((g.map (fun g => g.cursor.getD i 0)).getD 0))).flatten
    ++ quad 8 (((List.range 4).map (fun n => (p.kq.get [] n).length * 2 ^ (8 * n))).sum))

def classOfCode : Nat → AccClass
  | 1 => .exactFloat
  | 2 => .exactInt
  | 3 => .fp32
  | _ => .none

/-- The engine state that an area describes, over the semaphores and slot in service of `old`. -/
def cjParse (old : Pair) (a : Mem) : Pair :=
  let q := fun i => a.num (0x62A00 + 8 * i) 8
  let q0 := q 0
  let p : Pair := { old with
    wc := bits q0 0 2
    nb := bits q0 2 4 + 1
    ns := bits q0 6 6 + 1
    p := bits q0 12 3 + 1
    cls := classOfCode (bits q0 16 2)
    ring := q 1
    ringHead := bits (q 2) 0 16
    held := bits (q 2) 16 16
    high := bits (q 2) 32 16
    table := []
    group := none
    kq := (List.range 4).map (fun n => (n, (List.range (bits (q 8) (8 * n) 7)).map (fun i => a.num (0x62200 + 512 * n + 8 * i) 8))) }
  let fmt := (Fmt.ofCode (bits q0 18 5)).getD .t8e0
  let sb := stripBytes fmt p.w
  let tuple := fun o => (⟨a.num o 8, a.rdN (o + 8) sb⟩ : Tuple)
  let cw := if p.cls == .fp32 then 4 else 16
  { p with
    table := ((List.range 1024).filter (fun n => bitAt (a.num (0x40000 + 8 * n) 8) 63)).map (fun n =>
      ⟨n, bits (a.num (0x40000 + 8 * n) 8) 0 48, (List.range (p.w * p.w)).map (fun i => a.num (cellOff p n i) cw)⟩)
    group := if bitAt (q 3) 0 then some ⟨bits (q 3) 20 24, !bitAt (q 3) 19, (List.range (bits (q 3) 1 9)).map (fun i => tuple (0x42000 + 512 * i)),
      if bitAt (q 3) 19 then some (tuple 0x62000) else none, bits (q 3) 10 9, (List.range 4).map (fun i => q (4 + i)), fmt⟩ else none }

/-- Does the described state keep every limit (R208)? -/
def cjLimits (m : Mach) (k : Nat) (p : Pair) : Bool :=
  let geo := if p.wc = 0 then p.nb == 16 && decide (p.ns ≤ 4) else if p.wc = 1 then decide (p.ns ≤ 4) else p.wc == 2
  let g := match p.group with
    | some g => decide (g.places.length ≤ 256) && decide (g.next ≤ g.places.length)
    | none => true
  geo && g && p.table.all (fun e => decide (e.place < (if p.wc = 0 then p.ns else p.nb * p.ns)))
  && p.kq.all (fun e => decide (e.2.length ≤ 64)) && decide (p.held ≤ p.rcap) && decide (p.high ≤ p.rcap) && decide (p.ringHead < max p.rcap 1)
  && (ringBad m k p.ring p.recSize).isNone

/-- The physical addresses of the pages of the area of CJSAVE and CJLOAD. -/
def areaPas (a : Nat) (acc : Acc) : M (List Nat) := do
  trapIf (a % 4096 != 0) 0x14 a
  if acc == .write then capCheck a areaSize else pure ()
  xlateAll ((pagesOf a areaSize).map (fun v => (v, acc)))

/-- The area's image leaves line by line as weak stores of the slot, which then waits for its acknowledgements (R207). -/
def saveCj (a : Nat) (pas : List Nat) (t : Nat) (m : Mach) : Mach :=
  let img := cjImage m.cj
  let m := (List.range (areaSize / 128)).foldl (fun m i =>
    weakStoreT m.cur t 0 ((img.rdN (128 * i) 128).zipIdx.map (fun b => (paAt a pas (128 * i + b.2), b.1))) m) m
  sendMine m.cur (m.updSlot m.cur (fun s => { s with mid := true }))

/-- CJSAVE: it completes when every store has been acknowledged. -/
def execCjsave (x : JW) : State → Host.Outcome State Fault Refusal := run <|
  issue x.h x.a x.b (fun _ => { rd := gPlain x.a }) do
    issuerOnly
    let a ← rdGp x.a
    cjWait
    freeOnTrap do
      let m ← get
      if m.sl.mid then
        blockIf (m.sl.ocSt != 0) (.counter 1 0)
        cjDone
        pure none
      else
        let pas ← areaPas a .write
        let t ← countStore
        change (fun m => saveCj a pas t (setBusy (some m.cur) m))
        halt .stay

/-- The lines of an aligned range, as pieces. -/
def linesAt (a : Nat) (pas : List Nat) (len : Nat) : List (Nat × Nat) := (List.range (len / 128)).map (fun i => (paAt a pas (128 * i), 128))

/-- CJLOAD: an area that does not describe an engine state exactly raises "bad engine image". -/
def execCjload (x : JW) : State → Host.Outcome State Fault Refusal := run <|
  issue x.h x.a x.b (fun _ => { rd := gPlain x.a }) do
    issuerOnly
    let a ← rdGp x.a
    cjWait
    freeOnTrap do
      let pas ← areaPas a .read
      bringLaw (linesAt a pas areaSize) x.h.ch.toNat
      let k ← look (·.cur)
      let bytes ← engRead k (engBytes a pas areaSize)
      let m ← get
      let img := Mem.wrAll [] (cellsAt 0 bytes)
      let p := cjParse m.cj img
      trapIf (!cjLimits m m.cur p || cjImage p != img) 0x2B 0
      change (fun m => m.setCj p)
      cjDone
      pure none

/-! ## Set operations (R209, R210) -/

/-- The compared field of an entry. -/
def cfField (cf v : Nat) : Nat :=
  if cf = 0 then v % 2 ^ 64 else if cf = 1 then bits v 0 48 else if cf = 2 then bits v 0 24 else bits v 24 24

/-- Bytes of an entry, and the most entries that an operation puts out. -/
def setEntry (op : Nat) : Nat := if op = 0xDB then 16 else 8
def setMost (op nx ny : Nat) : Nat := if op = 0xDA then 0 else if op = 0xC5 then ny else nx + ny

/-- The scratchpad ranges of a set operation with these arguments. -/
def setSpans (op : Nat) (args : List Nat) : List (Nat × Nat) :=
  let a := fun i => args.getD i 0
  let es := setEntry op
  [(a 1, es * a 3), (a 2, es * a 4), (a 0, es * setMost op (a 3) (a 4)), (a 5, 8)]

/-- ISECT, UNION, MERGE, ISECTC and MERGEK at issue. -/
def setOp (x : JW) (op : Nat) : M Unit :=
  issue x.h x.a x.b (fun _ => { rd := (if op = 0xDA then [] else gPlain x.d) ++ gPlain x.a ++ gPlain x.b ++ gPlain x.c ++ gPlain x.e }) do
    issuerOnly
    let d ← if op = 0xDA then pure 0 else rdGp x.d
    let a ← rdGp x.a
    let b ← rdGp x.b
    let c ← rdGp x.c
    let e ← rdGp x.e
    accessGate
    let nx := bits c 0 32
    let ny := bits c 32 32
    let es := setEntry op
    let no := setMost op nx ny
    trapIf (decide (256 < nx)) 0x18 0
    trapIf (a % es != 0) 0x14 a
    trapIf (b % es != 0) 0x14 b
    trapIf (d % es != 0) 0x14 d
    let m ← get
    trapIf (spFails m a (es * nx)) 0x15 a
    trapIf (spFails m b (es * ny)) 0x15 b
    trapIf (spFails m d (es * no)) 0x15 d
    trapIf (spFails m e 8) 0x15 e
    let args := [d, a, b, nx, ny, e, x.mod.toNat]
    newCmd 3 { op := op, args := args, spans := setSpans op args }
    pure none
/-- ISECT. -/
def execIsect (x : JW) : State → Host.Outcome State Fault Refusal := run (setOp x 0xC5)
/-- UNION. -/
def execUnion (x : JW) : State → Host.Outcome State Fault Refusal := run (setOp x 0xC6)
/-- MERGE. -/
def execMerge (x : JW) : State → Host.Outcome State Fault Refusal := run (setOp x 0xC7)
/-- ISECTC. -/
def execIsectc (x : JW) : State → Host.Outcome State Fault Refusal := run (setOp x 0xDA)
/-- MERGEK. -/
def execMergek (x : JW) : State → Host.Outcome State Fault Refusal := run (setOp x 0xDB)

/-- Entries with their fields, as (field, entry). -/
abbrev Fe := Nat × Nat

/-- Entries before the first one out of order. -/
def inOrder : Option Nat → List Fe → List Fe
  | _, [] => []
  | p, e :: l => if (match p with
      | some f => decide (e.1 < f)
      | none => false) then [] else e :: inOrder (some e.1) l

/-- An X entry goes before the first Y entry whose field is not smaller, after X entries of equal field. -/
def mergeOne (x : Fe) : List (Bool × Fe) → List (Bool × Fe)
  | [] => [(true, x)]
  | y :: l => if x.1 < y.2.1 ∨ (x.1 = y.2.1 ∧ !y.1) then (true, x) :: y :: l else y :: mergeOne x l

/-- The merged order of R209. -/
def mergeXY (xs ys : List Fe) : List Fe := (xs.foldl (fun acc x => mergeOne x acc) (ys.map (fun y => (false, y)))).map (·.2)

/-- Runs of equal fields. -/
def runsOf : List Fe → List (List Fe)
  | [] => []
  | e :: l => match runsOf l with
    | (f :: r) :: rs => if e.1 = f.1 then (e :: f :: r) :: rs else [e] :: (f :: r) :: rs
    | _ => [[e]]

/-- The value of a run under OPK. -/
def runValue (opk : Nat) (l : List Nat) : Nat :=
  l.tail.foldl (fun a v =>
    if opk = 0 then a else if opk = 1 then (a + v) % 2 ^ 64 else if opk = 2 then min a v else max a v) (l.headD 0)

/-- Output entries and whether the command ended early (R209, R210). DESIGN CHOICE (log entry 37), where the spec does not say which entries have
been output before an early end: with X out of order, none; with Y out of order, of X those not above the last good Y, and of MERGEK's runs all
but the last. -/
def setResult (op opk : Nat) (xs ys : List Fe) : List Nat × Bool :=
  let x1 := inOrder none xs
  let y1 := inOrder none ys
  let early := decide (x1.length < xs.length) || decide (y1.length < ys.length)
  if x1.length < xs.length then ([], true)
  else if op = 0xC5 ∨ op = 0xDA then ((y1.filter (fun y => x1.any (fun x => x.1 == y.1))).map (·.2), early)
  else
    let x2 := if early then (match y1.getLast? with
      | some y => x1.filter (fun x => decide (x.1 ≤ y.1))
      | none => []) else x1
    let l := mergeXY x2 y1
    let rs := runsOf l
    (if op = 0xC7 then l.map (·.2)
     else if op = 0xC6 then rs.map (fun r => (r.headD (0, 0)).2)
     else ((if early then rs.dropLast else rs).map (fun r =>
       (r.headD (0, 0)).2 % 2 ^ 64 + runValue opk (r.map (fun e => e.2 / 2 ^ 64)) * 2 ^ 64)), early)

def isSetOp (op : Nat) : Bool := op == 0xC5 || op == 0xC6 || op == 0xC7 || op == 0xDA || op == 0xDB

/-- SET_OP_COMPLETE (R210): the oldest command of the pair's engine, in issue order (R187). -/
def execSetOpComplete (id : Nat) : State → Host.Outcome State Fault Refusal := device do
  let m ← get
  let c ← need (m.cmds.find? (fun c => c.id == id && isSetOp c.op))
  enabledIf (cmdMay m c)
  let p := m.pair c.ctx (pairOf (coreOf c.slot))
  enabledIf ((m.cmds.find? (fun x => x.tl == 3 && coreOf x.slot == coreOf c.slot && x.ctx == c.ctx)) == some c
    && (p.busy.isNone || decide (c.id < p.from_)))
  let arg := fun i => c.args.getD i 0
  let es := if c.op = 0xDB then 16 else 8
  let entries := fun (l : List Nat) (n : Nat) => (List.range n).map (fun i =>
    let v := ofLE ((l.drop (es * i)).take es)
    (cfField (bits (arg 6) 0 2) v, v))
  let lx ← engSpRead c.slot (arg 1) (es * arg 3)
  let ly ← engSpRead c.slot (arg 2) (es * arg 4)
  let r := setResult c.op (bits (arg 6) 2 2) (entries lx (arg 3)) (entries ly (arg 4))
  change (fun m =>
    let m := if c.op = 0xDA then m else engSpWrite c.slot (arg 0) ((r.1.map (toLE es)).flatten) m
    let m := engSpWrite c.slot (arg 5) (toLE 8 (r.1.length + ofBool r.2 * 2 ^ 63)) m
    endCmd c (if r.2 then 2 else 0) m)

end Sys2Proof.Machine
end

