-- ==== Sys2Proof/Machine/Lanes.lean ====
section
/-! DEFINITION. The lane pool and its grants (R220 to R222), elements in lanes, and the form of a class V instruction
(R223, R224). -/
namespace Sys2Proof.Machine

/-! ## The pool (R220) -/

/-- The physical grants of a slot: its own and those of the tasks it has set aside. -/
def Slot.grants (s : Slot) : Nat := s.grantP + (s.aside.map (·.grantP)).sum

def octetSlots (o : Nat) : List Nat := (List.range 32).map (fun i => 32 * o + i)

/-- Free lanes of an octet. -/
def freeLanes (m : Mach) (o : Nat) : Nat := 256 - ((octetSlots o).map (fun k => (m.slot k).grants)).sum

/-- Is the claim's slot waiting for lanes? -/
def claimLive (m : Mach) (c : Claim) : Bool := (m.slot c.slot).wait == some .lanes

/-- The oldest waiting claim. -/
def headClaim (m : Mach) (o : Nat) : Option Claim := (m.octet o).claims.find? (claimLive m)

def setClaims (o : Nat) (f : List Claim → List Claim) (m : Mach) : Mach :=
  let x := m.octet o
  m.setOctet o { x with claims := f x.claims }

def granule16 (n : Nat) : Nat := n / 16 * 16

/-- LANE_GRANT (R220, R221): the oldest waiting claim is served. -/
def execLaneGrant (octet : Nat) : State → Host.Outcome State Fault Refusal := device do
  let m ← get
  let c ← need (headClaim m octet)
  let free := freeLanes m octet
  enabledIf (decide (c.least ≤ free))
  let p := granule16 (min c.want free)
  change (fun m => (setClaims octet (fun l => l.filter (fun x => x.slot != c.slot)) m).updSlot c.slot (fun s =>
    if c.keep then { s with grantP := p, wait := none }
    else { s with grantP := p, grantN := p, grantReq := c.want, wait := some .released }))

/-- VCLAIM (R222). -/
def execVclaim (x : IW) : State → Host.Outcome State Fault Refusal := fun s0 =>
  let before := s0.m.sl.wait
  run (issue x.h x.a x.b (fun _ => { pops := [(x.d, .write)] }) do
    let m ← get
    let n := bits x.imm.toNat 0 9
    let mn := bits x.imm.toNat 16 9
    let least := if m.cx.det then n else if mn = 0 then 16 else mn
    let o := octetOf m.curCore
    if before == some .released then pure ()
    else
      let rel := fun (m : Mach) => m.updSlot m.cur (fun s => { s with grantP := 0 })
      let free := freeLanes (rel m) o
      let first := match headClaim m o with
        | some c => c.slot == m.cur
        | none => true
      blockWith (!first || decide (free < least))
        (fun m => setClaims o (fun l => if before == some .lanes then l
          else l.filter (fun c => c.slot != m.cur) ++ [⟨m.cur, n, least, false⟩]) (rel m)) .lanes
      let p := granule16 (min n free)
      change (fun m => (setClaims o (fun l => l.filter (fun c => c.slot != m.cur)) m).updSlot m.cur (fun s =>
        { s with grantP := p, grantN := p, grantReq := n }))
    let s ← mine id
    wrLand .ready x.d s.grantN
    pure none) s0

/-- VREL (R222). -/
def execVrel (x : ZW) : State → Host.Outcome State Fault Refusal := run <|
  issue x.h 0 0 (fun _ => {}) do
    let s ← mine id
    blockIf (!s.il.isEmpty) .landed
    changeMine (fun s => { s with grantP := 0, grantN := 0 })
    pure none

/-- VRENEG (R222). How far P grows is left open: it grows by all that the request still lacks, as far as lanes are free, in whole granules
(DESIGN CHOICE, log entry 65); in deterministic mode, where its result must not depend on other slots, it does not grow (R240; DEDUCED, log entry 65). -/
def execVreneg (x : SW) : State → Host.Outcome State Fault Refusal := run <|
  issue x.h x.a x.b (fun _ => { pops := [(x.d, .write)] }) do
    let m ← get
    let o := octetOf m.curCore
    let s := m.sl
    let add := if (headClaim m o).isSome || m.cx.det then 0 else granule16 (min (s.grantReq - s.grantP) (freeLanes m o))
    changeMine (fun s => { s with grantP := s.grantP + add, grantN := s.grantP + add })
    let s ← mine id
    wrLand .ready x.d s.grantN
    pure none

/-! ## Elements (R223, R224) -/

/-- An element format of a lane: an operand format, or a 32-bit integer through IT. -/
inductive Elt where
  | fmt (f : Fmt)
  | i32
  | n32
  deriving DecidableEq, Repr

def eltOf (it : Nat) (f : Fmt) : Elt := if it = 1 then .i32 else if it = 2 then .n32 else .fmt f

def Elt.width : Elt → Nat
  | .fmt f => Fmt.width f
  | _ => 32

/-- Width and signedness of an integer element. -/
def Elt.int : Elt → Option (Nat × Bool)
  | .i32 => some (32, true)
  | .n32 => some (32, false)
  | .fmt .i8 => some (8, true)
  | .fmt .n8 => some (8, false)
  | .fmt .i4 => some (4, true)
  | .fmt .n4 => some (4, false)
  | .fmt .i2 => some (2, true)
  | .fmt .i16 => some (16, true)
  | _ => none

/-- Does an element extend with its sign (R223)? -/
def Elt.signed (e : Elt) : Bool := match e.int with
  | some (_, s) => s
  | none => false

def Elt.isInt (e : Elt) : Bool := e.int.isSome

/-- The integer that an element's code holds. -/
def Elt.val (e : Elt) (c : Nat) : Int := if e.signed then sx e.width c else (c % 2 ^ e.width : Nat)

/-- The exact value of a code. -/
def Elt.dec : Elt → Nat → Num
  | .fmt f, c => Machine.dec f c
  | .i32, c => .ofInt (sx 32 c)
  | .n32, c => .fin false (c % 2 ^ 32) 0

/-- `rnd` into an element (R177, R178). -/
def Elt.rnd : Elt → Rm → Num → Nat
  | .fmt f, mode, x => Machine.rnd f mode x
  | .i32, mode, x => rndShape (.int 32 true) mode x
  | .n32, mode, x => rndShape (.int 32 false) mode x

def Elt.lo (e : Elt) : Int := if e.signed then -(2 ^ (e.width - 1) : Nat) else 0
def Elt.hi (e : Elt) : Int := if e.signed then (2 ^ (e.width - 1) - 1 : Nat) else (2 ^ e.width - 1 : Nat)

/-- An integer result wrapped, or saturated under .sat (R226). -/
def Elt.fit (e : Elt) (sat : Bool) (v : Int) : Nat := ofInt e.width (if sat then min (max v e.lo) e.hi else v)

/-- How many of its lowest bits an element that is written has as 0: the 13 that E8M10 ignores (R174). -/
def Elt.low : Elt → Nat
  | .fmt .e8m10 => 13
  | _ => 0
def Elt.clean (e : Elt) (c : Nat) : Nat := c / 2 ^ e.low * 2 ^ e.low

/-- A lane of `ew` bytes holding an element, as a number (R174, R223). -/
def Elt.place (e : Elt) (ew c : Nat) : Nat := if e.signed then ofInt (8 * ew) (sx e.width c) else e.clean (c % 2 ^ e.width)

/-- A lane as a number, and the code of the element in it. -/
def Slot.lane (s : Slot) (b : BitVec 8) (l : Nat) : Nat := ofLE (s.bytes (s.vbyte (vNo b) l) s.vew)
def Slot.code (s : Slot) (e : Elt) (b : BitVec 8) (l : Nat) : Nat := s.lane b l % 2 ^ e.width

/-! ## Destinations -/

/-- Register bytes of the destination lanes that an instruction writes: the active ones, and under .z all of them. -/
def vDest (s : Slot) (b : BitVec 8) (k : Nat) (zm : Bool) : List Rng :=
  if zm then vRng s b s.vcap else vActive s b k s.vlanes

/-- The bytes written: `f` at the lanes that `on` selects, zeros elsewhere under .z. -/
def vCells (s : Slot) (b : BitVec 8) (zm : Bool) (on : Nat → Bool) (f : Nat → Nat) : List (Nat × Nat) :=
  ((List.range s.vcap).map (fun l =>
    if on l then cellsAt (s.vbyte (vNo b) l) (toLE s.vew (f l))
    else if zm then cellsAt (s.vbyte (vNo b) l) (List.replicate s.vew 0) else [])).flatten

/-- The mask pair of the word. -/
def mkOf (x : VW) : Nat := x.mp.toNat

/-- What a lane-wise instruction reads and where its result goes: v registers read at the active lanes, g operands in the
order they are read, the elements whose width the lane must hold, and the latency, none when interlocked. -/
structure VUse where
  vs : List (BitVec 8)
  gs : List (BitVec 8) := []
  elts : List Elt := []
  lat : Option Nat

/-- The checks of R45 and R223 for v operands. -/
def vChecks (vs : List (BitVec 8)) (elts : List Elt) : M Unit := do
  let s ← mine id
  vs.forM (fun b => vCheck b s.vcap)
  elts.forM (fun e => laneFits s.vew e.width)

/-- Reads g operands in order. -/
def rdGs : List (BitVec 8) → M (List Nat)
  | [] => pure []
  | b :: l => do
    let v ← rdG b
    let r ← rdGs l
    pure (v :: r)

/-- A lane-wise instruction: `f` gives the number that each active lane receives. -/
def vecOp (x : VW) (u : VUse) (f : Slot → List Nat → Nat → Nat) : M Unit :=
  issue x.h x.a x.b (fun s => {
      rd := mRng (mkOf x) ++ (u.gs.map (gRng s)).flatten ++ (u.vs.map (fun b => vActive s b (mkOf x) s.vlanes)).flatten
      wr := if u.lat.isSome then vDest s x.d (mkOf x) x.zm else []
      pops := u.gs.map (fun b => (b, .read)) }) do
    vChecks (x.d :: u.vs) u.elts
    let g ← rdGs u.gs
    let s ← mine id
    let cells := vCells s x.d x.zm (s.laneActive (mkOf x)) (f s g)
    match u.lat with
    | some n => setFixed n cells
    | none => setLand .ready (known cells)
    pure none

end Sys2Proof.Machine
end

