-- ==== Sys2Proof/Machine/Special.lean ====
section
/-! DEFINITION. The special functions (R231): the exact real value as a number with a sticky end, and the format value that
brackets it. -/
namespace Sys2Proof.Machine

/-- The largest `r` below `2^n` with `r * r ≤ m`. -/
def isqrt (m : Nat) : Nat → Nat → Nat
  | 0, r => r
  | i + 1, r => let t := r + 2 ^ i; if t * t ≤ m then isqrt m i t else isqrt m i r

/-- Number of bits of `x`, at most `n`. -/
def bitsOf (x : Nat) : Nat → Nat
  | 0 => 0
  | n + 1 => if 2 ^ n ≤ x then n + 1 else bitsOf x n

/-- The exact square root of a positive dyadic number, with a sticky last bit. -/
def rootOf (m : Nat) (e : Int) : Num :=
  let odd := e % 2 != 0
  let x := (if odd then 2 * m else m) * 2 ^ 400
  let h : Int := (if odd then e - 1 else e) / 2
  let r := isqrt x (bitsOf x 1200 / 2 + 1) 0
  .fin false (2 * r + (if r * r = x then 0 else 1)) (h - 201)

/-- `m · 2^e` as a fixed-point number. -/
def toFix (neg : Bool) (m : Nat) (e : Int) : Int :=
  let v : Int := (if 0 ≤ e + prec then m * 2 ^ (e + prec).toNat else m / 2 ^ (-(e + prec)).toNat : Nat)
  if neg then -v else v

/-- `e^x` for a fixed-point `x`. -/
def expNum (x : Int) : Num :=
  let n := x / (ln2Fix : Int)
  .fin false (expFix (x - n * (ln2Fix : Int))) (n - prec)

/-- A positive number below every format's least value. -/
def tiny : Num := .fin false 1 (-3000)
/-- A number just below 1, and one just below 1 in magnitude with a sign. -/
def almostOne (neg : Bool) : Num := .fin neg (one - 1) (-(prec : Int))

/-- The same value with 2,000 more bits, so that a quotient by a long number keeps its precision. -/
def widen : Num → Num
  | .fin s m e => .fin s (m * 2 ^ 2000) (e - 2000)
  | x => x

/-- Is `m · 2^e` integral? -/
def integral (m : Nat) (e : Int) : Bool := decide (0 ≤ e) || m % 2 ^ (-e).toNat == 0

/-- Is `m · 2^e` at least `2^k`? -/
def atLeast (m : Nat) (e : Int) (k : Int) : Bool := magLe 1 k m e

/-- The exact value of a special function, as a number that lies strictly between the same format values. -/
def specialValue (f : Config.Special) (a : Num) : Num :=
  match f, a with
  | _, .nan => .nan
  | .exp2, .inf neg => if neg then .zero false else .inf false
  | .exp2, .fin neg m e =>
    if m = 0 then .fin false 1 0
    else if atLeast m e 12 then (if neg then tiny else .inf false)
    else if integral m e then
      let v : Int := roundInt .rz neg m e
      .fin false 1 v
    else
      let d : Nat := 2 ^ (-e).toNat
      let v : Int := if neg then -(m : Int) else m
      .fin false (exp2Frac (v % (d : Int)).toNat d) (v / (d : Int) - (prec : Int))
  | .log2, .inf neg => if neg then .nan else .inf false
  | .log2, .fin neg m e =>
    if m = 0 then .inf true
    else if neg then .nan
    else
      let k := bitsOf m 200 - 1
      if m = 2 ^ k then .ofInt (k + e)
      else fixNum ((k + e) * (one : Int) + (lnFrac m k * one / ln2Fix : Nat))
  | .rsq, .inf neg => if neg then .nan else .zero false
  | .rsq, .fin neg m e => if m = 0 then .inf neg else if neg then .nan else rootOf' (Num.div (.fin false 1 0) (.fin false m e))
  | .sinpi, .inf _ => .nan
  | .sinpi, .fin neg m e =>
    if m = 0 || integral m e then .zero neg
    else
      let d : Nat := 2 ^ (-e).toNat
      let v := fixNum (cosSin (m % (2 * d)) (2 * d)).2
      if neg then v.neg else v
  | .cospi, .inf _ => .nan
  | .cospi, .fin _ m e =>
    if m = 0 then .fin false 1 0
    else if 0 ≤ e then (if m * 2 ^ e.toNat % 2 = 0 then .fin false 1 0 else .fin true 1 0)
    else
      let d : Nat := 2 ^ (-e).toNat
      if m % d * 2 = d then .zero false
      else fixNum (cosSin (m % (2 * d)) (2 * d)).1
  | .tanh, .inf neg => .fin neg 1 0
  | .tanh, .fin neg m e =>
    if m = 0 then .zero neg
    else if atLeast m e 8 then almostOne neg
    else
      let x := expNum (2 * toFix false m e)
      let r := (widen (x.add false (.fin true 1 0))).div (x.add false (.fin false 1 0))
      if neg then r.neg else r
  | .sigm, .inf neg => if neg then .zero false else .fin false 1 0
  | .sigm, .fin neg m e =>
    if m = 0 then .fin false 1 (-1)
    else if atLeast m e 8 then (if neg then tiny else almostOne false)
    else (widen (.fin false 1 0)).div ((Num.fin false 1 0).add false (expNum (toFix (!neg) m e)))
where
  /-- The root of a quotient: its own last bit is sticky. -/
  rootOf' (x : Num) : Num := match x with
    | .fin _ m e => rootOf m e
    | x => x

/-- One of the two bracketing values, or the value itself; the choice is fixed by the operand (log entry 6), but for an overflow of VEXP2, which
gives +infinity (R231). -/
def specialCode (f : Config.Special) (fmt : Fmt) (c : Nat) : Nat :=
  let v := specialValue f (dec fmt c)
  let lo := rnd fmt .rd v
  let hi := rnd fmt .ru v
  if f == .exp2 && dec fmt hi == .inf false then hi else if Config.special f fmt c then hi else lo

/-- VSQRT: correctly rounded. -/
def sqrtCode (fmt : Fmt) (mode : Rm) (c : Nat) : Nat :=
  match dec fmt c with
  | .nan => rnd fmt mode .nan
  | .inf neg => rnd fmt mode (if neg then .nan else .inf false)
  | .fin neg m e => if m = 0 then rnd fmt mode (.zero neg) else if neg then rnd fmt mode .nan else rnd fmt mode (rootOf m e)

end Sys2Proof.Machine
end

