-- ==== Sys2Proof/Machine/Vector.lean ====
section
/-! DEFINITION. Class V instructions on lanes and masks (R225 to R235, R239). -/
namespace Sys2Proof.Machine

/-! ## Arithmetic (R226, R227) -/

/-- Bit by bit on whole lanes. -/
def laneOp2 (x : VW) (f : Nat → Nat → Nat) : M Unit :=
  vecOp x { vs := [x.a, x.b], lat := some 4 } (fun s _ l => f (s.lane x.a l) (s.lane x.b l))

/-- Elements of FD = FA from two sources: integers through `fi`, floats through `ff` on codes. -/
def elemOp2 (x : VW) (latF : Nat) (fi : Int → Int → Int) (ff : Nat → Nat → Nat) : M Unit :=
  let e := eltOf x.it x.fd
  vecOp x { vs := [x.a, x.b], elts := [e], lat := some (if e.isInt then 4 else latF) } (fun s _ l =>
    let a := s.code e x.a l
    let b := s.code e x.b l
    e.place s.vew (if e.isInt then e.fit x.sat (fi (e.val a) (e.val b)) else ff a b))

/-- The same with one source. -/
def elemOp1 (x : VW) (fi : Int → Int) (ff : Nat → Nat) : M Unit :=
  let e := eltOf x.it x.fd
  vecOp x { vs := [x.a], elts := [e], lat := some 4 } (fun s _ l =>
    let a := s.code e x.a l
    e.place s.vew (if e.isInt then e.fit x.sat (fi (e.val a)) else ff a))

def addF (f : Fmt) (rm : Rm) (a b : Nat) : Nat := rnd f rm (addMode rm (dec f a) (dec f b))
def subF (f : Fmt) (rm : Rm) (a b : Nat) : Nat := rnd f rm (addMode rm (dec f a) (dec f b).neg)
def mulF (f : Fmt) (rm : Rm) (a b : Nat) : Nat := rnd f rm ((dec f a).mul (dec f b))
def fmaF (f : Fmt) (rm : Rm) (d a b : Nat) : Nat := rnd f rm (addMode rm (dec f d) ((dec f a).mul (dec f b)))

/-- The order of floating minima and maxima, −0 below +0. -/
def leZero (a b : Num) : Bool := a.lt b || (a.eq b && (a.sign || !b.sign))

/-- Floating minimum or maximum of two codes (R226). -/
def pickF (f : Fmt) (mx : Bool) (a b : Nat) : Nat :=
  let u := dec f a
  let v := dec f b
  if u.isNan && v.isNan then rnd f .rne .nan
  else if u.isNan then b
  else if v.isNan then a
  else if leZero u v then (if mx then b else a) else (if mx then a else b)

/-- VADD. -/
def execVadd (x : VW) : State → Host.Outcome State Fault Refusal := run (elemOp2 x 6 (· + ·) (addF x.fd x.rm))
/-- VSUB. -/
def execVsub (x : VW) : State → Host.Outcome State Fault Refusal := run (elemOp2 x 6 (· - ·) (subF x.fd x.rm))
/-- VMUL. -/
def execVmul (x : VW) : State → Host.Outcome State Fault Refusal := run (elemOp2 x 6 (· * ·) (mulF x.fd x.rm))
/-- VFMA: D is a source too. -/
def execVfma (x : VW) : State → Host.Outcome State Fault Refusal :=
  let e := Elt.fmt x.fd
  run (vecOp x { vs := [x.d, x.a, x.b], elts := [e], lat := some 6 } (fun s _ l =>
    fmaF x.fd x.rm (s.code e x.d l) (s.code e x.a l) (s.code e x.b l)))
/-- VMIN. -/
def execVmin (x : VW) : State → Host.Outcome State Fault Refusal := run (elemOp2 x 4 min (pickF x.fd false))
/-- VMAX. -/
def execVmax (x : VW) : State → Host.Outcome State Fault Refusal := run (elemOp2 x 4 max (pickF x.fd true))
/-- VABS: a float's sign bit is cleared. -/
def execVabs (x : VW) : State → Host.Outcome State Fault Refusal :=
  run (elemOp1 x (fun a => (a.natAbs : Int)) (fun a => a % 2 ^ (Fmt.width x.fd - 1)))
/-- VNEG: a float's sign bit is toggled. -/
def execVneg (x : VW) : State → Host.Outcome State Fault Refusal :=
  run (elemOp1 x (fun a => -a) (fun a => a ^^^ 2 ^ (Fmt.width x.fd - 1)))
/-- VAND. -/
def execVand (x : VW) : State → Host.Outcome State Fault Refusal := run (laneOp2 x (· &&& ·))
/-- VOR. -/
def execVor (x : VW) : State → Host.Outcome State Fault Refusal := run (laneOp2 x (· ||| ·))
/-- VXOR. -/
def execVxor (x : VW) : State → Host.Outcome State Fault Refusal := run (laneOp2 x (· ^^^ ·))

/-- Shifts of elements by another element's value mod the width. -/
def shiftOp (x : VW) (f : Elt → Nat → Nat → Int) : M Unit :=
  let e := eltOf x.it x.fd
  vecOp x { vs := [x.a, x.b], elts := [e], lat := some 4 } (fun s _ l =>
    e.place s.vew (e.fit false (f e (s.code e x.a l) (s.code e x.b l % e.width))))
/-- VSHL. -/
def execVshl (x : VW) : State → Host.Outcome State Fault Refusal := run (shiftOp x (fun _ a sh => (a * 2 ^ sh : Nat)))
/-- VSHR: arithmetic on signed formats. -/
def execVshr (x : VW) : State → Host.Outcome State Fault Refusal := run (shiftOp x (fun e a sh => e.val a / (2 ^ sh : Nat)))
/-- VMULH. -/
def execVmulh (x : VW) : State → Host.Outcome State Fault Refusal :=
  let e := eltOf x.it x.fd
  run (elemOp2 x 4 (fun a b => a * b / (2 ^ e.width : Nat)) (fun _ _ => 0))
/-- VSAT: the value limited to FD's range, written in FA. -/
def execVsat (x : VW) : State → Host.Outcome State Fault Refusal :=
  let e := eltOf x.it x.fa
  let d := Elt.fmt x.fd
  run (vecOp x { vs := [x.a], elts := [e], lat := some 4 } (fun s _ l =>
    e.place s.vew (e.fit false (min (max (e.val (s.code e x.a l)) d.lo) d.hi))))
/-- VIOTA. -/
def execViota (x : VW) : State → Host.Outcome State Fault Refusal :=
  let e := eltOf x.it x.fd
  run (vecOp x { vs := [], gs := [x.a, x.b], elts := [e], lat := some 4 } (fun s g l =>
    e.place s.vew (e.fit false (sx 64 (g.getD 0 0) + (l : Int) * sx 64 (g.getD 1 0)))))
/-- The scales that SUB selects for VFMAS. -/
def scaleOf (b : Bool) : Scale := if b then .xq8 else .e8m0
/-- VFMAS (R227). The list `SUB[1:0]: SFA, SFB` is read low to high, SFA in SUB[0] and SFB in SUB[1] (DEDUCED, log entry 63). -/
def execVfmas (x : VW) : State → Host.Outcome State Fault Refusal :=
  let e := Elt.fmt x.fd
  let a := Elt.fmt x.fa
  run (vecOp x { vs := [x.d, x.a], gs := [x.b, x.c], elts := [e, a], lat := some 6 } (fun s g l =>
    let t := scaledTerm (a.dec (s.code a x.a l)) (scaleOf (bitAt x.sub 0)) (g.getD 0 0 % 256) (scaleOf (bitAt x.sub 1)) (g.getD 1 0 % 256)
    rnd x.fd x.rm (addMode x.rm (e.dec (s.code e x.d l)) t)))

/-! ## Comparison, selection, moves (R228) -/

/-- The condition that SUB codes (R32). -/
def cndOf (n : Nat) : Cnd := [Cnd.eq, .ne, .lt, .le, .gt, .ge, .un, .ord, .tst, .ntst].getD n .eq
/-- VCMP. -/
def execVcmp (x : VW) : State → Host.Outcome State Fault Refusal :=
  let e := eltOf x.it x.fa
  run (vecOp x { vs := [x.a, x.b], elts := [e], lat := some 4 } (fun s _ l =>
    let a := s.code e x.a l
    let b := s.code e x.b l
    if (if e.isInt then holdsInt (cndOf x.sub) (e.val a) (e.val b) a b else holdsFp (cndOf x.sub) (e.dec a) (e.dec b))
    then 2 ^ (8 * s.vew) - 1 else 0))
/-- VSEL. -/
def execVsel (x : VW) : State → Host.Outcome State Fault Refusal :=
  run (vecOp x { vs := [x.a, x.b, x.c], lat := some 4 } (fun s _ l => if s.lane x.c l ≠ 0 then s.lane x.a l else s.lane x.b l))
/-- VMOV. -/
def execVmov (x : VW) : State → Host.Outcome State Fault Refusal := run (vecOp x { vs := [x.a], lat := some 4 } (fun s _ l => s.lane x.a l))
/-- VBCAST. -/
def execVbcast (x : VW) : State → Host.Outcome State Fault Refusal :=
  let e := eltOf x.it x.fd
  run (vecOp x { vs := [], gs := [x.a], elts := [e], lat := some 4 } (fun s g _ => e.place s.vew (g.getD 0 0 % 2 ^ e.width)))

/-! ## Reductions and scans (R229) -/

/-- The exact sum of floats with the sign of an exact zero sum; none for no lanes. -/
def sumF (rm : Rm) (l : List Num) : Num :=
  if l.isEmpty then .zero false
  else
    let v := l.tail.foldl (fun a b => a.add false b) (l.headD (.zero false))
    if v.isZero then .zero (l.all (fun n => n.isZero && n.sign) || rm == .rd) else v

/-- VREDUCE of the lanes' numbers (codes, or whole lanes for the logical operations): a code or a lane. -/
def reduce (op : Nat) (e : Elt) (ew : Nat) (sat : Bool) (rm : Rm) (l : List Nat) : Nat :=
  match op, e with
  | 0, .fmt f => if e.isInt then e.fit sat (l.map e.val).sum else rnd f rm (sumF rm (l.map (dec f)))
  | 0, _ => e.fit sat (l.map e.val).sum
  | 1, .fmt f => if e.isInt then ofInt e.width (l.foldl (fun a c => min a (e.val c)) e.hi) else l.foldl (pickF f false) (rnd f .rne .nan)
  | 1, _ => ofInt e.width (l.foldl (fun a c => min a (e.val c)) e.hi)
  | 2, .fmt f => if e.isInt then ofInt e.width (l.foldl (fun a c => max a (e.val c)) e.lo) else l.foldl (pickF f true) (rnd f .rne .nan)
  | 2, _ => ofInt e.width (l.foldl (fun a c => max a (e.val c)) e.lo)
  | 3, _ => l.foldl (· &&& ·) (2 ^ (8 * ew) - 1)
  | 4, _ => l.foldl (· ||| ·) 0
  | _, _ => l.foldl (· ^^^ ·) 0

/-- The number that a lane contributes. -/
def redLane (x : VW) (e : Elt) (s : Slot) (l : Nat) : Nat := if 3 ≤ x.sub then s.lane x.a l else s.code e x.a l

def activeLanes (s : Slot) (k : Nat) : List Nat := (List.range s.vlanes).filter (s.laneActive k)

/-- A v source read at the active lanes and a scalar result. -/
def vToG (x : VW) (elts : List Elt) (lat : Option Nat) (f : Slot → Nat) : M Unit :=
  issue x.h x.a x.b (fun s => {
      rd := mRng (mkOf x) ++ vActive s x.a (mkOf x) s.vlanes
      wr := if lat.isSome then gRng s x.d else []
      pops := [(x.d, .write)] }) do
    vChecks [x.a] elts
    let s ← mine id
    match lat with
    | some n => wrG n x.d (f s)
    | none => wrLand .ready x.d (f s)
    pure none

/-- VREDUCE. -/
def execVreduce (x : VW) : State → Host.Outcome State Fault Refusal :=
  let e := eltOf x.it x.fd
  run (vToG x (if 3 ≤ x.sub then [] else [e]) none (fun s =>
    let r := reduce x.sub e s.vew x.sat x.rm ((activeLanes s (mkOf x)).map (redLane x e s))
    if 3 ≤ x.sub then r else e.place 8 r))
/-- VSCAN. -/
def execVscan (x : VW) : State → Host.Outcome State Fault Refusal :=
  let e := eltOf x.it x.fd
  run (vecOp x { vs := [x.a], elts := if 3 ≤ x.sub then [] else [e], lat := none } (fun s _ l =>
    let on := (activeLanes s (mkOf x)).filter (fun j => decide (j < l) || (j == l && !bitAt x.imm16 0))
    let r := reduce x.sub e s.vew x.sat x.rm (on.map (redLane x e s))
    if 3 ≤ x.sub then r else e.place s.vew r))

/-! ## Conversions (R230) -/

/-- The elements of the two sides: SIDE names the 32-bit integer one. -/
def sideElts (x : VW) (side : Bool) : Elt × Elt :=
  if x.it = 0 then (.fmt x.fa, .fmt x.fd)
  else if side then (eltOf x.it x.fa, .fmt x.fd) else (.fmt x.fa, eltOf x.it x.fd)
/-- VCVT. -/
def execVcvt (x : VW) : State → Host.Outcome State Fault Refusal :=
  let p := sideElts x (bitAt x.sub 0)
  run (vecOp x { vs := [x.a], elts := [p.1, p.2], lat := some 4 } (fun s _ l =>
    p.2.place s.vew (p.2.rnd x.rm (p.1.dec (s.code p.1 x.a l)))))
/-- VCVTS. -/
def execVcvts (x : VW) : State → Host.Outcome State Fault Refusal :=
  let p := sideElts x (bitAt x.sub 1)
  run (vecOp x { vs := [x.a], gs := [x.b], elts := [p.1, p.2], lat := some 4 } (fun s g l =>
    p.2.place s.vew (p.2.rnd x.rm (scaledTerm (p.1.dec (s.code p.1 x.a l)) (scaleOf (bitAt x.sub 0)) (g.getD 0 0 % 256) .none 0))))
/-- A float rounded to an integral value of its format. -/
def roundF (f : Fmt) (rm : Rm) (c : Nat) : Nat :=
  match dec f c with
  | .fin neg m e =>
    let v := roundInt rm neg m e
    rnd f .rne (if v = 0 then .zero neg else .ofInt v)
  | y => rnd f .rne y
/-- VRND. -/
def execVrnd (x : VW) : State → Host.Outcome State Fault Refusal :=
  let e := Elt.fmt x.fd
  run (vecOp x { vs := [x.a], elts := [e], lat := some 4 } (fun s _ l => roundF x.fd x.rm (s.code e x.a l)))
/-- Is a nonzero code of a floating format subnormal? -/
def subnormal (f : Fmt) (c : Nat) : Bool := match shape f with
  | .flt ew fw _ _ _ _ => (if f == .e8m10 then c / 2 ^ 13 else c) / 2 ^ fw % 2 ^ ew == 0
  | _ => false
/-- The class of a code, 0 to 8. -/
def classOf (f : Fmt) (c : Nat) : Nat := match dec f c with
  | .nan => 0
  | .inf neg => if neg then 1 else 8
  | .fin neg m _ =>
    if m = 0 then (if neg then 4 else 5)
    else if subnormal f c then (if neg then 3 else 6) else (if neg then 2 else 7)
/-- VCLASS: the spec states no value for +∞ in a one-byte lane, which has no bit 8: there the lane is a free value fixed by the format
(log entry 5). -/
def execVclass (x : VW) : State → Host.Outcome State Fault Refusal :=
  let e := Elt.fmt x.fa
  run <| issue x.h x.a x.b (fun s => {
      rd := mRng (mkOf x) ++ vActive s x.a (mkOf x) s.vlanes
      wr := vDest s x.d (mkOf x) x.zm }) do
    vChecks [x.d, x.a] [e]
    let s ← mine id
    setFixed 4 (vCells s x.d x.zm (s.laneActive (mkOf x)) (fun l =>
      let c := classOf x.fa (s.code e x.a l)
      if 8 * s.vew ≤ c then (Config.classInf x.fa).toNat else 2 ^ c))
    pure none

/-! ## Special functions (R231) -/

/-- A special function: fixed latency 12 while its table is held, else interlocked from count N + 12; the table is loaded, the
one used longest ago leaving. -/
def specialOp (x : VW) (op : Nat) (vs : List (BitVec 8)) (f : Slot → Nat → Nat) : M Unit :=
  issue x.h x.a x.b (fun s => {
      rd := mRng (mkOf x) ++ (vs.map (fun b => vActive s b (mkOf x) s.vlanes)).flatten
      wr := vDest s x.d (mkOf x) x.zm }) do
    vChecks (x.d :: vs) [.fmt x.fd]
    let m ← get
    let s := m.sl
    let o := m.octet (octetOf m.curCore)
    let cells := vCells s x.d x.zm (s.laneActive (mkOf x)) (f s)
    if o.tables.contains op then setFixed 12 cells else setLand .ready (known cells) (s.n + 12)
    change (fun m => m.setOctet (octetOf m.curCore) { o with tables := (op :: o.tables.erase op).take 4 })
    pure none
/-- A function of one operand with a bracketed result. -/
def special1 (x : VW) (op : Nat) (f : Config.Special) : M Unit :=
  specialOp x op [x.a] (fun s l => specialCode f x.fd (s.code (.fmt x.fd) x.a l))
/-- VEXP2. -/
def execVexp2 (x : VW) : State → Host.Outcome State Fault Refusal := run (special1 x 0xA4 .exp2)
/-- VLOG2. -/
def execVlog2 (x : VW) : State → Host.Outcome State Fault Refusal := run (special1 x 0xA5 .log2)
/-- VRCP: correctly rounded. -/
def execVrcp (x : VW) : State → Host.Outcome State Fault Refusal :=
  run (specialOp x 0xA6 [x.a] (fun s l => rnd x.fd x.rm ((Num.fin false 1 0).div (dec x.fd (s.code (.fmt x.fd) x.a l)))))
/-- VRSQ. -/
def execVrsq (x : VW) : State → Host.Outcome State Fault Refusal := run (special1 x 0xA7 .rsq)
/-- VSQRT: correctly rounded. -/
def execVsqrt (x : VW) : State → Host.Outcome State Fault Refusal :=
  run (specialOp x 0xA8 [x.a] (fun s l => sqrtCode x.fd x.rm (s.code (.fmt x.fd) x.a l)))
/-- VDIV: correctly rounded. -/
def execVdiv (x : VW) : State → Host.Outcome State Fault Refusal :=
  run (specialOp x 0xA9 [x.a, x.b] (fun s l =>
    rnd x.fd x.rm ((dec x.fd (s.code (.fmt x.fd) x.a l)).div (dec x.fd (s.code (.fmt x.fd) x.b l)))))
/-- VSINPI. -/
def execVsinpi (x : VW) : State → Host.Outcome State Fault Refusal := run (special1 x 0xAA .sinpi)
/-- VCOSPI. -/
def execVcospi (x : VW) : State → Host.Outcome State Fault Refusal := run (special1 x 0xAB .cospi)
/-- VTANH. -/
def execVtanh (x : VW) : State → Host.Outcome State Fault Refusal := run (special1 x 0xAC .tanh)
/-- VSIGM. -/
def execVsigm (x : VW) : State → Host.Outcome State Fault Refusal := run (special1 x 0xAD .sigm)

/-! ## Compare-exchange (R232) -/

/-- The total order of keys: is `a` below `b`? -/
def keyLt (e : Elt) (a b : Nat) : Bool :=
  if e.isInt then decide (e.val a < e.val b)
  else
    let u := e.dec a
    let v := e.dec b
    if u.isNan then false else if v.isNan then true else u.lt v || (u.eq v && u.sign && !v.sign)
/-- Is the pair that lane `l` belongs to taken and exchanged? The other lane. -/
def vcxPartner (x : VW) (e : Elt) (s : Slot) (l : Nat) : Option Nat :=
  let j := bits x.imm16 0 3
  let k := bits x.imm16 3 4
  let lo := if bitAt l j then l - 2 ^ j else l
  let hi := lo + 2 ^ j
  let on := s.laneActive (mkOf x)
  if decide (hi < s.vlanes) && on lo && on hi then
    let up := bitAt lo k == bitAt x.sub 0
    let a := s.code e x.d lo
    let b := s.code e x.d hi
    if (if up then keyLt e b a else keyLt e a b) then some (if l = lo then hi else lo) else none
  else none
/-- VCX. -/
def execVcx (x : VW) : State → Host.Outcome State Fault Refusal :=
  let e := eltOf x.it x.fd
  let pay := x.c != 0
  let vs := x.d :: (if pay then [x.c] else [])
  run <| issue x.h x.a x.b (fun s => {
      rd := mRng (mkOf x) ++ (vs.map (fun b => vActive s b (mkOf x) s.vlanes)).flatten
      wr := (vs.map (fun b => vActive s b (mkOf x) s.vlanes)).flatten }) do
    vChecks vs [e]
    let s ← mine id
    let part := vcxPartner x e s
    let key := vCells s x.d false (fun l => decide (l < s.vlanes) && (part l).isSome) (fun l => e.place s.vew (s.code e x.d ((part l).getD l)))
    let load := if pay then vCells s x.c false (fun l => decide (l < s.vlanes) && (part l).isSome) (fun l => s.lane x.c ((part l).getD l)) else []
    setFixed 4 (key ++ load)
    pure none

/-! ## The generator (R233) -/

/-- VRNG. -/
def execVrng (x : VW) : State → Host.Outcome State Fault Refusal :=
  run <| issue x.h x.a x.b (fun s => { rd := mRng (mkOf x) ++ gRng s x.a ++ gRng s x.b, pops := [(x.a, .read), (x.b, .read)] }) do
    vChecks [x.d] []
    let s ← mine id
    trapIf (s.vew != 4) 0x10 0
    let g ← rdGs [x.a, x.b]
    let s ← mine id
    setLand .ready (known (vCells s x.d x.zm (s.laneActive (mkOf x)) (fun l =>
      let z := gen (g.getD 0 0) ((g.getD 1 0 + l) % 2 ^ 64)
      if x.it = 0 then rnd .fp32 .rne (.fin false (z / 2 ^ 40) (-24)) else z % 2 ^ 32)))
    pure none

/-! ## Permutes, compression and lookup (R234) -/

/-- VPERM: source lanes are read whether active or not. -/
def execVperm (x : VW) : State → Host.Outcome State Fault Refusal :=
  run <| issue x.h x.a x.b (fun s => { rd := mRng (mkOf x) ++ vRng s x.a s.vlanes ++ vActive s x.b (mkOf x) s.vlanes }) do
    vChecks [x.d, x.a, x.b] []
    let s ← mine id
    setLand .ready (known (vCells s x.d x.zm (s.laneActive (mkOf x)) (fun l => s.lane x.a (s.lane x.b l % s.vlanes))))
    pure none
/-- Active lanes with a nonzero B, ascending. -/
def picked (x : VW) (s : Slot) : List Nat := (activeLanes s (mkOf x)).filter (fun l => s.lane x.b l != 0)
/-- VCOMPR. -/
def execVcompr (x : VW) : State → Host.Outcome State Fault Refusal :=
  run <| issue x.h x.a x.b (fun s => {
      rd := mRng (mkOf x) ++ vActive s x.a (mkOf x) s.vlanes ++ vActive s x.b (mkOf x) s.vlanes
      pops := [(x.c, .write)] }) do
    vChecks [x.d, x.a, x.b] []
    let s ← mine id
    let l := picked x s
    setLand .ready (known (((List.range s.vlanes).map (fun i =>
      if i < l.length then cellsAt (s.vbyte (vNo x.d) i) (toLE s.vew (s.lane x.a (l.getD i 0)))
      else if x.zm then cellsAt (s.vbyte (vNo x.d) i) (List.replicate s.vew 0) else [])).flatten))
    wrLand .ready x.c l.length
    pure none
/-- VEXPND. -/
def execVexpnd (x : VW) : State → Host.Outcome State Fault Refusal :=
  run <| issue x.h x.a x.b (fun s => {
      rd := mRng (mkOf x) ++ vRng s x.a (picked x s).length ++ vActive s x.b (mkOf x) s.vlanes }) do
    vChecks [x.d, x.a, x.b] []
    let s ← mine id
    let l := picked x s
    setLand .ready (known (vCells s x.d x.zm l.contains (fun i => s.lane x.a (l.idxOf i))))
    pure none
/-- Reads the table elements that lanes name. -/
def tableReads (base size : Nat) : List Nat → M (List Nat)
  | [] => pure []
  | i :: l => do
    let v ← spRead (base + i * size) size
    let r ← tableReads base size l
    pure (ofLE v :: r)
/-- VLUT. -/
def execVlut (x : VW) : State → Host.Outcome State Fault Refusal :=
  let e := eltOf x.it x.fd
  let n := e.width / 8
  run <| issue x.h x.a x.b (fun s => {
      rd := mRng (mkOf x) ++ vActive s x.a (mkOf x) s.vlanes ++ gRng s x.b ++ gRng s x.c
      pops := [(x.b, .read), (x.c, .read)] }) do
    vChecks [x.d, x.a] [e]
    accessGate
    let g ← rdGs [x.b, x.c]
    let base := g.getD 0 0
    let cnt := g.getD 1 0
    trapIf (base % n != 0) 0x14 base
    let m ← get
    trapIf (spFails m base (cnt * n)) 0x15 base
    let s ← mine id
    let idx := ((activeLanes s (mkOf x)).map (s.lane x.a)).filter (· < cnt)
    let vals ← tableReads base n idx
    setLand .ready (known (vCells s x.d x.zm (s.laneActive (mkOf x)) (fun l =>
      let i := s.lane x.a l
      if i < cnt then e.place s.vew (vals.getD (idx.idxOf i) 0) else 0)))
    pure none

/-! ## Packing (R235) -/

/-- The bytes of a v register as one number, over `n` bytes. -/
def Slot.vnum (s : Slot) (b : BitVec 8) (n : Nat) : Nat := ofLE (s.bytes (s.vbyte (vNo b) 0) n)
/-- VPACK. -/
def execVpack (x : VW) : State → Host.Outcome State Fault Refusal :=
  let w := Fmt.width x.fa
  run <| issue x.h x.a x.b (fun s => {
      rd := vRng s x.a s.vlanes ++ (if s.vlanes * w % 8 = 0 then [] else [(s.vbyte (vNo x.d) 0 + s.vlanes * w / 8, 1)])
      wr := [(s.vbyte (vNo x.d) 0, (s.vlanes * w + 7) / 8)] }) do
    vChecks [x.d, x.a] []
    let s ← mine id
    trapIf (decide (8 * s.vew ≤ w)) 0x10 0
    let n := (s.vlanes * w + 7) / 8
    let v := ((List.range s.vlanes).map (fun l => s.lane x.a l % 2 ^ w * 2 ^ (l * w))).sum
    setFixed 4 (cellsAt (s.vbyte (vNo x.d) 0) (toLE n (setBits (s.vnum x.d n) 0 (s.vlanes * w) v)))
    pure none
/-- VUNPK. -/
def execVunpk (x : VW) : State → Host.Outcome State Fault Refusal :=
  let e := Elt.fmt x.fa
  let w := e.width
  run <| issue x.h x.a x.b (fun s => {
      rd := mRng (mkOf x) ++ (activeLanes s (mkOf x)).map (fun l => (s.vbyte (vNo x.a) 0 + l * w / 8, (l * w + w - 1) / 8 - l * w / 8 + 1))
      wr := vDest s x.d (mkOf x) x.zm }) do
    vChecks [x.d, x.a] []
    let s ← mine id
    trapIf (decide (8 * s.vew ≤ w)) 0x10 0
    let v := s.vnum x.a ((s.vlanes * w + 7) / 8)
    setFixed 4 (vCells s x.d x.zm (s.laneActive (mkOf x)) (fun l => e.place s.vew (bits v (l * w) w)))
    pure none

/-! ## Masks and lane counts (R239) -/

/-- MSET. -/
def execMset (x : VW) : State → Host.Outcome State Fault Refusal :=
  run <| issue x.h x.a x.b (fun s => {
      rd := gRng s x.a ++ gRng s x.b
      wr := mRng (mNo x.d)
      pops := [(x.a, .read), (x.b, .read)] }) do
    let g ← rdGs [x.a, x.b]
    setFixed 2 (mCells (mNo x.d) (g.getD 0 0) (g.getD 1 0))
    pure none
/-- MGET. -/
def execMget (x : VW) : State → Host.Outcome State Fault Refusal :=
  run <| issue x.h x.a x.b (fun s => { rd := mRng (mNo x.a), wr := gRng s x.d, pops := [(x.d, .write)] }) do
    let s ← mine id
    wrG 2 x.d (if bitAt x.sub 0 then s.mcol (mNo x.a) else s.mrow (mNo x.a))
    pure none
/-- VMASK: one half of the pair is written. -/
def execVmask (x : VW) : State → Host.Outcome State Fault Refusal :=
  run <| issue x.h x.a x.b (fun s => {
      rd := vRng s x.a (min s.vlanes 64)
      wr := if mNo x.d = 0 then [] else [(maskPlace (mNo x.d) + (if bitAt x.sub 0 then 8 else 0), 8)] }) do
    vChecks [x.a] []
    let s ← mine id
    let v := ((List.range (min s.vlanes 64)).map (fun l => if s.lane x.a l ≠ 0 then 2 ^ l else 0)).sum
    let cells := mCells (mNo x.d) v v
    setFixed 4 (if bitAt x.sub 0 then cells.drop 8 else cells.take 8)
    pure none
/-- VPOPC. -/
def execVpopc (x : VW) : State → Host.Outcome State Fault Refusal :=
  run (vToG x [] (some 4) (fun s => ((activeLanes s (mkOf x)).filter (fun l => s.lane x.a l != 0)).length))
/-- VFIRST. -/
def execVfirst (x : VW) : State → Host.Outcome State Fault Refusal :=
  run (vToG x [] (some 4) (fun s => (((activeLanes s (mkOf x)).find? (fun l => s.lane x.a l != 0)).getD (2 ^ 64 - 1))))

end Sys2Proof.Machine
end

