-- ==== Sys2Proof/Machine/Remote.lean ====
section
/-! DEFINITION. Remote commands over Span and collectives, on tl.fx (R309 to R316), and a device entering or leaving the Span
domain (R359). -/
namespace Sys2Proof.Machine

/-! ## RPUT and RGET (R310) -/

/-- The checks of R310 on a length, an address and a scratchpad offset; the physical address. -/
def remoteAt (va off len : Nat) (acc : Acc) : M Nat := do
  accessGate
  trapIf (len == 0 || decide (262144 < len) || granuleOf va != granuleOf (va + len - 1)) 0x18 0
  let m ← get
  trapIf (spFails m off len) 0x15 off
  if acc == .write then capCheck va len else pure ()
  let pa ← xlate va acc
  let m ← get
  trapIf (!scopeOk .sys (paKind m.dev pa)) 0x1A 0
  pure pa

/-- RPUT. -/
def execRput (x : JW) : State → Host.Outcome State Fault Refusal := run <|
  issue x.h x.a x.b (fun _ => { rd := gPlain x.d ++ gPlain x.a ++ gPlain x.b }) do
    let d ← rdGp x.d
    let a ← rdGp x.a
    let b ← rdGp x.b
    let pa ← remoteAt d a b .write
    newCmd 4 { op := 0xD3, args := [pa, a, b], spans := [(a, b)], wvas := [(d, b)] }
    pure none
/-- RGET. -/
def execRget (x : JW) : State → Host.Outcome State Fault Refusal := run <|
  issue x.h x.a x.b (fun _ => { rd := gPlain x.d ++ gPlain x.a ++ gPlain x.b }) do
    let d ← rdGp x.d
    let a ← rdGp x.a
    let b ← rdGp x.b
    let pa ← remoteAt a d b .read
    newCmd 4 { op := 0xD4, args := [pa, d, b], spans := [(d, b)] }
    pure none

/-! ## RATOM and RRED (R311) -/

/-- OP and TY of mod24 (R309). -/
def remoteOpOf (op new : Nat) : AtomOp :=
  match op with
  | 0 => .add
  | 1 => .min
  | 2 => .max
  | 3 => .and
  | 4 => .or
  | 5 => .xor
  | 6 => .xchg
  | 7 => .cas new
  | _ => .fadd
def remoteTy (md : Nat) : Ty := (Ty.ofCode (bits md 4 2)).getD .i64

/-- RATOM and RRED at issue. -/
def remoteAtomic (op : Nat) (x : JW) (va b c d : Nat) : M Unit := do
  accessGate
  let n := Ty.size (remoteTy x.mod.toNat)
  trapIf (va % n != 0) 0x14 va
  let m ← get
  trapIf (op == 0xD5 && spFails m d 8) 0x15 d
  capCheck va n
  let pa ← xlate va .write
  let m ← get
  trapIf (!scopeOk .sys (paKind m.dev pa)) 0x19 0
  newCmd 4 { op := op, args := [pa, d, n, b, c, x.mod.toNat], spans := if op = 0xD5 then [(d, 8)] else [], wvas := [(va, n)] }

/-- The page of the word that RATOM or RRED names (R326). -/
def remoteVa (s : Slot) (x : JW) : List (Nat × Acc) := ownVa (s.g (gNo x.a)) (Ty.size (remoteTy x.mod.toNat)) .write

/-- RATOM. -/
def execRatom (x : JW) : State → Host.Outcome State Fault Refusal :=
  let cas := bits x.mod.toNat 0 4 == 7
  run <| issue x.h x.a x.b (fun s => {
      rd := gPlain x.d ++ gPlain x.a ++ gRng s x.b ++ (if cas then gRng s x.c else [])
      pops := (x.b, .read) :: (if cas then [(x.c, .read)] else [])
      nondet := true
      vas := remoteVa s x }) do
    let d ← rdGp x.d
    let a ← rdGp x.a
    let b ← rdG x.b
    let c ← if cas then rdG x.c else pure 0
    remoteAtomic 0xD5 x a b c d
    pure none
/-- RRED. -/
def execRred (x : JW) : State → Host.Outcome State Fault Refusal := run <|
  issue x.h x.a x.b (fun s => { rd := gPlain x.a ++ gRng s x.b, pops := [(x.b, .read)], nondet := bits x.mod.toNat 0 4 == 8, vas := remoteVa s x }) do
    let a ← rdGp x.a
    let b ← rdG x.b
    remoteAtomic 0xD6 x a b 0 0
    pure none

/-! ## Completion (R310 to R312) -/

/-- Does an earlier remote operation of the slot reach the same bytes? They are performed in issue order (R311). -/
def remoteEarlier (m : Mach) (c : Cmd) : Bool :=
  (m.cmds.takeWhile (·.id != c.id)).any (fun e => e.slot == c.slot && e.tl == 4 && e.op != 0xD2 &&
    decide (e.args.getD 0 0 < c.args.getD 0 0 + c.args.getD 2 0) && decide (c.args.getD 0 0 < e.args.getD 0 0 + e.args.getD 2 0))

/-- Lines and errors met at the point of coherence; a peer line is met at its own device. -/
def homeFind (pas : List Nat) (m : Mach) : Mach := engFind (pas.filter (fun a => paKind m.dev a != .peer)) m

/-- REMOTE_COMMAND_COMPLETE: the command is performed at the points of coherence and completes. A stop requested does not hold
it (R312). -/
def execRemoteCommandComplete (id : Nat) : State → Host.Outcome State Fault Refusal := device do
  let m ← get
  let c ← need (m.cmds.find? (fun c => c.id == id && c.tl == 4 && c.op != 0xD2))
  enabledIf ((m.ctx c.ctx).st == .running && !remoteEarlier m c)
  let pa := c.args.getD 0 0
  let n := c.args.getD 2 0
  let pas := (List.range n).map (pa + ·)
  let reads := c.op == 0xD4 && paKind m.dev pa != .peer
  engLines c (if reads then pas.map (· / 128) else []) (if reads then [] else pas.map (· / 128))
  if c.op = 0xD3 then
    let l ← engSpRead c.slot (c.args.getD 1 0) n
    change (fun m => endCmd c 0 (engStore (pas.zip l) m))
  else
    change (homeFind pas)
    let m ← get
    match pas.find? (poisonAt m) with
    | some a => halt (fun m => .stay (endContext c.ctx 0x81 c.slot a m))
    | none => pure ()
    let old := m.mem.rdN pa n
    if c.op = 0xD4 then change (fun m => endCmd c 0 (engSpWrite c.slot (c.args.getD 1 0) old m))
    else
      let md := c.args.getD 5 0
      let ty := remoteTy md
      let new := atomicNew (remoteOpOf (bits md 0 4) (c.args.getD 4 0)) ty (ofLE old) (c.args.getD 3 0 % 2 ^ (8 * n))
      change (engStore (cellsAt pa (toLE n new)))
      change (fun m => if paKind m.dev pa == .peer then dropCopy (pa / 128) m else m)
      change (fun m => endCmd c 0 (if c.op = 0xD5 then engSpWrite c.slot (c.args.getD 1 0) (toLE 8 (Ty.wrap ty (ofLE old))) m else m))

/-! ## Collectives (R313 to R316) -/

/-- Bytes of an element format. -/
def collSize (f : Nat) : Nat := if f = 0 then 4 else if f = 1 then 2 else if f = 2 then 4 else 8

/-- Fields of a collective record. -/
structure CollRec where
  op : Nat
  red : Nat
  fmt : Nat
  ring : Bool
  rank : Nat
  nrank : Nat
  sbuf : Nat
  dbuf : Nat
  cnt : Nat
  rtab : Nat
  root : Nat

def collRec (q : List Nat) : CollRec where
  op := bits (q.getD 0 0) 0 8
  red := bits (q.getD 0 0) 8 4
  fmt := bits (q.getD 0 0) 12 4
  ring := bitAt (q.getD 0 0) 16
  rank := bits (q.getD 0 0) 32 16
  nrank := bits (q.getD 0 0) 48 16
  sbuf := q.getD 2 0
  dbuf := q.getD 3 0
  cnt := bits (q.getD 4 0) 0 32
  rtab := bits (q.getD 5 0) 0 21
  root := bits (q.getD 6 0) 0 6

/-- Elements of the output. -/
def CollRec.outs (r : CollRec) : Nat := if r.op = 1 then r.cnt / r.nrank else if r.op = 2 then r.cnt * r.nrank else r.cnt

/-- Is the record refused, with the device's number and the rank table (R313, R314)? -/
def collBad (dev : Nat) (q table : List Nat) : Bool :=
  let r := collRec q
  bits (q.getD 0 0) 17 15 != 0 || bits (q.getD 4 0) 32 32 != 0 || bits (q.getD 5 0) 21 43 != 0 || bits (q.getD 6 0) 6 58 != 0
  || bits (q.getD 7 0) 8 56 != 0 || decide (3 < r.op) || decide (2 < r.red) || (decide (2 ≤ r.op) && r.red != 0) || decide (3 < r.fmt)
  || decide (r.nrank < 2) || decide (64 < r.nrank) || decide (r.nrank ≤ r.rank) || r.cnt == 0 || decide (2 ^ 24 < r.cnt)
  || (r.op == 1 && r.cnt % r.nrank != 0) || (if r.op = 3 then decide (r.nrank ≤ r.root) else r.root != 0)
  || table.zipIdx.any (fun t => decide (64 ≤ t.1) || (t.1 == dev && t.2 != r.rank))

/-- An element range lies in HBM or pooled memory, or the command is bad, in a hole too (R313). -/
def collScope : PaKind → Option Nat
  | .hbm => none
  | .pooled => none
  | _ => some 0x18

/-- COLL. Its arguments: the record's place, its quads, and the page addresses of its input and output. -/
def execColl (x : JW) : State → Host.Outcome State Fault Refusal := run <|
  issue x.h x.a x.b (fun _ => { rd := gPlain x.a }) do
    let a ← rdGp x.a
    accessGate
    trapIf (a % 64 != 0) 0x14 a
    let m ← get
    trapIf (!ownShare m m.cur a 64) 0x15 a
    let l ← spRead a 64
    let q := quadsOf l 8
    let r := collRec q
    trapIf (collBad 64 q []) 0x18 0
    let m ← get
    trapIf (spFails m r.rtab r.nrank) 0x15 r.rtab
    let table ← spRead r.rtab r.nrank
    trapIf (collBad m.dev.sdev q table) 0x18 0
    let sz := collSize r.fmt
    trapIf ((beyond r.sbuf (sz * r.cnt)).isSome || (beyond r.dbuf (sz * r.outs)).isSome) 0x18 0
    capCheck r.dbuf (sz * r.outs)
    let sp := pagesOf r.sbuf (sz * r.cnt)
    let dp := pagesOf r.dbuf (sz * r.outs)
    let pas ← xlateScoped collScope (sp.map (fun v => (v, Acc.read, none)) ++ dp.map (fun v => (v, Acc.write, none)))
    newCmd 4 { op := 0xD2, args := [a] ++ q ++ [sp.length] ++ pas, spans := [(a, 64), (r.rtab, r.nrank)], wvas := [(r.dbuf, sz * r.outs)] }
    pure none

def Cmd.coll (c : Cmd) : CollRec := collRec ((c.args.drop 1).take 8)

/-- The places of this rank's input and output. -/
def collSrc (c : Cmd) : List Nat :=
  let r := c.coll
  engBytes r.sbuf ((c.args.drop 10).take (c.args.getD 9 0)) (collSize r.fmt * r.cnt)
def collDst (c : Cmd) : List Nat :=
  let r := c.coll
  engBytes r.dbuf ((c.args.drop 10).drop (c.args.getD 9 0)) (collSize r.fmt * r.outs)

/-- This rank's input, as element codes. -/
def collInput (c : Cmd) : M (List Nat) := do
  let r := c.coll
  let sz := collSize r.fmt
  let l ← engRead c.slot (collSrc c)
  pure ((List.range r.cnt).map (fun i => ofLE ((l.drop (sz * i)).take sz)))

/-- One step of a reduction (R314); BF16 accumulates in FP32. -/
def collStep (red fmt a x : Nat) : Nat :=
  let x := if fmt = 1 then x * 2 ^ 16 else x
  let w := if fmt = 3 then 64 else 32
  if fmt ≤ 1 then (if red = 0 then fadd32 a x else pickF .fp32 (red == 2) a x)
  else if red = 0 then (a + x) % 2 ^ w
  else if red = 1 then (if sx w a ≤ sx w x then a else x)
  else (if sx w a ≤ sx w x then x else a)

/-- The accumulated value of element `e` over ranks in order. -/
def collAcc (red fmt : Nat) (inputs : List (List Nat)) (e : Nat) : Nat :=
  let first := (inputs.headD []).getD e 0
  inputs.tail.foldl (fun a x => collStep red fmt a (x.getD e 0)) (if fmt = 1 then first * 2 ^ 16 else first)

def collReduce (red fmt : Nat) (inputs : List (List Nat)) (e : Nat) : Nat :=
  let a := collAcc red fmt inputs e
  if fmt = 1 then rnd .bf16 .rne (f32 a) else a

/-- The output elements of a rank (R314), from every rank's input. -/
def collOutput (r : CollRec) (inputs : List (List Nat)) : List Nat :=
  match r.op with
  | 0 => (List.range r.cnt).map (collReduce r.red r.fmt inputs)
  | 1 => (List.range (r.cnt / r.nrank)).map (fun i => collReduce r.red r.fmt inputs (r.rank * (r.cnt / r.nrank) + i))
  | 2 => (inputs.map (fun x => (List.range r.cnt).map (fun i => x.getD i 0))).flatten
  | _ => (List.range r.cnt).map (fun i => (inputs.getD r.root []).getD i 0)

/-- ST of the record is written and the command ends (R315). -/
def collEnd (c : Cmd) (st : Nat) (m : Mach) : Mach := endCmd c st (engSpWrite c.slot (c.args.getD 0 0 + 56) [st] m)

def collCmd (id : Nat) : M Cmd := do
  let m ← get
  let c ← need (m.cmds.find? (fun c => c.id == id && c.op == 0xD2))
  enabledIf ((m.ctx c.ctx).st == .running)
  pure c

/-- COLL_RESULT (R315, R316): the result, as the other ranks' inputs determine it, or LATE. Under the device-ring method a
rank other than 0 has passed its partial result on before. -/
def execCollResult (id : Nat) (others : List (List Nat)) (late : Bool) : State → Host.Outcome State Fault Refusal := device do
  let c ← collCmd id
  let r := c.coll
  if late then change (collEnd c 5)
  else
    enabledIf (others.length + 1 == r.nrank && (!r.ring || r.rank == 0 || c.prog == 1))
    engLines c ((collSrc c).map (· / 128)) ((collDst c).map (· / 128))
    let own ← collInput c
    let out := collOutput r (others.take r.rank ++ [own] ++ others.drop r.rank)
    change (fun m => collEnd c 0 (engStore ((collDst c).zip ((out.map (toLE (collSize r.fmt))).flatten)) m))

/-- COLL_PARTIAL_RESULT (R316): the predecessor's partial result, as the earlier ranks' inputs determine it, arrives; this
rank's input is added and the sum goes on. What was sent is kept with the command. -/
def execCollPartialResult (id : Nat) (others : List (List Nat)) : State → Host.Outcome State Fault Refusal := device do
  let c ← collCmd id
  let r := c.coll
  enabledIf (r.ring && r.rank != 0 && c.prog == 0 && others.length == r.rank)
  engLines c ((collSrc c).map (· / 128)) []
  let own ← collInput c
  let inputs := others ++ [own]
  let sent := if r.op ≤ 1 then (List.range r.cnt).map (collAcc r.red r.fmt inputs) else inputs.flatten
  change (setCmd { c with prog := 1, args := c.args ++ sent })

/-- COLL_SWITCH_TIMEOUT (R315): the switch abandons the sequence 200 µs after its first contribution. -/
def execCollSwitchTimeout (id : Nat) : State → Host.Outcome State Fault Refusal := device do
  let c ← collCmd id
  let m ← get
  enabledIf (!c.coll.ring && decide (c.issued + 200000 ≤ m.sid))
  change (collEnd c 5)

/-- COLL_RING_TIMEOUT (R316): the rank has waited 10 ms for its predecessor. -/
def execCollRingTimeout (id : Nat) : State → Host.Outcome State Fault Refusal := device do
  let c ← collCmd id
  let m ← get
  enabledIf (c.coll.ring && c.coll.rank != 0 && c.prog == 0 && decide (c.issued + 10000000 ≤ m.sid))
  change (collEnd c 5)

/-! ## The Span domain (R359) -/

/-- Contexts with an outstanding access to a device's window, with the slot and address of one. -/
def accessesTo (m : Mach) (n : Nat) : List (Nat × Nat × Nat) :=
  let at_ := fun pa => paKind m.dev pa == .peer && peerOf pa == n
  (m.reqs.filter (fun r => at_ r.pa)).map (fun r => (r.ctx, r.slot, r.pa))
  ++ (m.cores.map (fun e => (e.2.wcb.filter (fun w => at_ (128 * w.line))).map
      (fun w => (w.ctx, storeKey (w.stores.headD (keyOf e.1 0)), 128 * w.line)))).flatten
  ++ (m.cmds.filter (fun c => c.tl == 4 && c.op != 0xD2 && at_ (c.args.getD 0 0))).map
    (fun c => (c.ctx, c.slot, c.args.getD 0 0))

/-- SPAN_DEVICE_LEAVE: the device's window becomes a hole and every outstanding access to it ends its context. -/
def execSpanDeviceLeave (device_ : Nat) : State → Host.Outcome State Fault Refusal := device do
  let m ← get
  enabledIf (m.dev.span && m.dev.peers.contains device_)
  change (fun m =>
    let hit := accessesTo m device_
    let m : Mach := { m with dev := { m.dev with peers := m.dev.peers.erase device_ } }
    hit.foldl (fun m h => if (m.ctx h.1).st == .ended then m else endContext h.1 0x83 h.2.1 h.2.2 m) m)

/-- SPAN_DEVICE_JOIN: its window stops being a hole. -/
def execSpanDeviceJoin (device_ : Nat) : State → Host.Outcome State Fault Refusal := device do
  let m ← get
  enabledIf (m.dev.span && decide (device_ < 64) && device_ != m.dev.sdev && !m.dev.peers.contains device_)
  change (fun m => { m with dev := { m.dev with peers := device_ :: m.dev.peers } })

end Sys2Proof.Machine
end

