-- ==== Sys2Proof/Machine/Graph.lean ====
section
/-! DEFINITION. Constellations: nodes, launch and finish (R269, R270, R291 to R293, R318, R320). -/
namespace Sys2Proof.Machine

/-! ## Records (R269) -/

def nodeBad (q : List Nat) : Bool :=
  let a := q.getD 0 0
  bits a 2 2 != 0 || bits a 12 4 != 0 || bits a 60 4 != 0 || q.getD 3 0 != 0 || (bits a 0 2 == 0 && q.getD 2 0 != 0)
    || (bits a 0 2 == 1 && decide (2 < q.getD 2 0))

def nodeSucc (q : List Nat) : List Nat :=
  (List.range 4).filterMap (fun i => let s := bits (q.getD 0 0) (16 + 11 * i) 11
    if bitAt s 10 then some (s % 1024) else none)

/-- Is the index in the context's range (R291)? -/
def inNodes (c : Ctx) (i : Nat) : Bool := decide (c.nbase ≤ i) && decide (i < c.nbase + c.ncnt)

/-- GNODE (R291). -/
def execGnode (x : MW) : State → Host.Outcome State Fault Refusal := run <|
  issue x.h x.a x.b (fun _ => { rd := gPlain x.a ++ gPlain x.b }) do
    let a ← rdGp x.a
    let b ← rdGp x.b
    let ea := addDisp a x.disp
    accessGate
    let m ← get
    let cl := clusterOf m.curCore
    trapIf (ea % 32 != 0) 0x14 ea
    trapIf (spFails m ea 32) 0x15 ea
    let l ← spRead ea 32
    let q := quadsOf l 4
    trapIf (!inNodes m.cx b || (nodeSucc q).any (fun i => !inNodes m.cx i)) 0x3B 0
    trapIf (((m.cluster cl).nodes.find b).any (·.live)) 0x3C 0
    trapIf (nodeBad q) 0x18 0
    let node : Node := ⟨bits (q.getD 0 0) 0 2, bits (q.getD 0 0) 4 8, nodeSucc q, q.getD 1 0, q.getD 2 0, false, false, false, false, false, 0⟩
    change (fun m =>
      let u := m.cluster cl
      m.setCluster cl { u with nodes := u.nodes.put b node })
    pure none

/-! ## Launch and finish (R270) -/

def setNode (cl i : Nat) (n : Node) (m : Mach) : Mach :=
  let u := m.cluster cl
  m.setCluster cl { u with nodes := u.nodes.put i n }

def setCon (cl i : Nat) (x : Constel) (m : Mach) : Mach :=
  let u := m.cluster cl
  m.setCluster cl { u with cons := u.cons.put i x }

/-- The node cannot be carried out: it does not finish, and GQRY reports FLT. -/
def stickNode (cl i : Nat) (n : Node) (m : Mach) : Mach :=
  let u := m.cluster cl
  m.setCluster cl { u with
    nodes := u.nodes.put i { n with launched := true, stuck := true }
    cons := match u.cons.find n.con with
      | some x => u.cons.put n.con { x with flt := true }
      | none => u.cons }

/-- The physical address of the counter of a signal or wait node; none when it cannot be reached. -/
def counterAt (m : Mach) (c : Ctx) (n : Node) : Option Nat :=
  if n.arg % 8 ≠ 0 then none
  else match reach m c n.arg (if n.kind = 2 then .write else .read) with
    | none => none
    | some pa => match paKind m.dev pa with
      | .hbm => some pa
      | .pooled => some pa
      | .peer => if n.kind = 2 then some pa else none
      | _ => none

/-- The task record of a node; none when it does not translate, lies in a hole or is refused (DESIGN CHOICE, log entry 42). -/
def nodeRecord (m : Mach) (c : Ctx) (va : Nat) : Option (List Nat) :=
  if va % 8 ≠ 0 then none
  else match (pagesOf va 64).mapM (fun p => (reach m c p .read).filter (fun pa => paKind m.dev pa != .hole)) with
    | none => none
    | some pas =>
      let l := (engBytes va pas 64).map m.mem.rd
      let q := quadsOf l 8
      if recRefused c.slots q then none else some q

/-- Bytes that the walker reads for a node of a kind other than copy. -/
def nodeLen (n : Node) : Nat := if n.kind = 0 then 64 else 8

/-- The parts of the node's record or counter in memory, where their pages translate. -/
def nodeParts (m : Mach) (c : Ctx) (n : Node) : List (Nat × Nat) :=
  (pagesOf n.arg (nodeLen n)).filterMap (fun p => (reach m c p .read).map (fun pa => (pa, min (nodeLen n) (2 ^ 18 - p % 2 ^ 18))))

/-- The walker's reads for a node of the core's slot `k` find the errors planted in what they read (R345). -/
def nodeFind (c : Ctx) (k : Nat) (n : Node) (m : Mach) : Mach :=
  if n.kind = 1 then findSp (spPlace (coreOf k) n.arg) 64 m
  else
    let m := (pagesOf n.arg (nodeLen n)).foldl (fun m p => (deviceWalk c p m).2) m
    (nodeParts m c n).foldl (fun m p => findL2 p.1 p.2 (if paKind m.dev p.1 == .hbm then bringLine (p.1 / 128) m else m)) m

/-- A poisoned word that the walker meets for a node: a table entry of its counter's or record's page, or a word of them (R344). -/
def nodePoison (m : Mach) (c : Ctx) (k : Nat) (n : Node) : Option Nat :=
  if n.kind = 1 then if spPoisoned m (spPlace (coreOf k) n.arg) 64 then some n.arg else none
  else ((pagesOf n.arg (nodeLen n)).findSome? (fun p => if p < 2 ^ 56 then walkPoison m c p else none)).orElse fun _ =>
    (nodeParts m c n).findSome? (fun p => (wordsOf p.1 p.2).find? m.poison.contains)

/-- The node is launched, if it can be now: a task needs a free slot of the cluster's cores, a copy a place among the slot's
commands (R108). -/
def launchNode (cl i : Nat) (m : Mach) : Mach :=
  match (m.cluster cl).nodes.find i with
  | none => m
  | some n => match (m.cluster cl).cons.find n.con with
    | none => m
    | some x =>
      let c := m.ctx x.ctx
      let n' := { n with launched := true }
      let m := nodeFind c x.slot n m
      match nodePoison m c x.slot n with
      | some a => endContext x.ctx 0x81 x.slot a m
      | none => match n.kind with
      | 0 => match nodeRecord m c n.arg with
        | none => stickNode cl i n m
        | some q => match (c.cores.filter (fun k => clusterOf k == cl)).findSome? (freeSlot m x.ctx none) with
          | none => m
          | some k =>
            let e : Entry := ⟨q, gen x.path i, x.gang, .node cl i, x.place, octetOf (coreOf k), 0⟩
            let m := gangCount x.gang 1 true (joinAdd q 1 (setNode cl i n' m))
            m.updSlot k (fun s => { s with next := some e, nextStolen := false, backoff := none, victims := [] })
      | 1 =>
        let op := 0xCA + n.val
        let m1 := setNode cl i n' m
        if n.arg % 64 ≠ 0 ∨ !ownShare m x.slot n.arg 64 then nodeWorkEnd (some (cl, i)) 4 m1
        else if 16 ≤ (cmdsOf m x.slot 0).length then m
        else
          let q := quadsOf (m.spad.rdN (spPlace (coreOf x.slot) n.arg) 64) 8
          let r := copyRec op q
          let new : NewCmd := if copyBad op q then { op := op, args := copyArgs n.arg r r.dr r.db, spans := [(n.arg, 64)] } else newCopy n.arg op r 0
          startCmd x.slot 0 new (some (cl, i)) m1
      | _ => if (counterAt m c n).isNone then stickNode cl i n m else setNode cl i n' m

/-- A successor of a finished node (R270). -/
def feedNode (cl con j : Nat) (m : Mach) : Mach :=
  match (m.cluster cl).nodes.find j with
  | none => m
  | some n =>
    if n.npred = 0 then match (m.cluster cl).cons.find con with
      | some x => setCon cl con { x with bad := true } m
      | none => m
    else
      let n := { n with npred := n.npred - 1 }
      let m := setNode cl j n m
      if n.npred = 0 ∧ n.live ∧ !n.launched then launchNode cl j m else m

/-- A node finishes; when every live node of its constellation has, they cease to be live (R292). -/
def finishNode (cl i : Nat) (n : Node) (m : Mach) : Mach :=
  let m := setNode cl i { n with finished := true, ended := true } m
  let m := n.succ.foldl (fun m j => feedNode cl n.con j m) m
  match (m.cluster cl).cons.find n.con with
  | none => m
  | some x =>
    let m := setCon cl n.con { x with left := x.left - 1, live := decide (1 < x.left) } m
    if 1 < x.left then m
    else
      let u := m.cluster cl
      m.setCluster cl { u with nodes := u.nodes.map (fun e => if e.2.con == n.con && e.2.live then (e.1, { e.2 with live := false }) else e) }

/-- NODE_FINISH (R270): the walker launches a node that waits for a slot, performs a signal's add, or sees that a task or copy has
ended or a counter has been reached. -/
def execNodeFinish (cluster node : Nat) : State → Host.Outcome State Fault Refusal := device do
  let m ← get
  let n ← need ((m.cluster cluster).nodes.find node)
  let x ← need ((m.cluster cluster).cons.find n.con)
  let c := m.ctx x.ctx
  enabledIf (n.live && !n.finished && !n.stuck && n.npred == 0 && c.st == .running)
  if !n.launched then
    let m' := launchNode cluster node m
    enabledIf (((m'.cluster cluster).nodes.find node).any (·.launched) || (m'.ctx x.ctx).st == .ended)
    change (fun _ => m')
  else if n.kind ≤ 1 then
    enabledIf n.ended
    change (finishNode cluster node n)
  else
    let m := nodeFind c x.slot n m
    match nodePoison m c x.slot n with
    | some a => change (fun _ => endContext x.ctx 0x81 x.slot a m)
    | none => match counterAt m c n with
      | none => change (fun _ => stickNode cluster node n m)
      | some pa =>
        if n.kind = 2 then
          change (fun _ => finishNode cluster node n (engStore (cellsAt pa (toLE 8 ((m.mem.num pa 8 + n.val) % 2 ^ 64))) m))
        else
          enabledIf (decide (n.val ≤ m.mem.num pa 8))
          change (fun _ => finishNode cluster node n m)

/-! ## GSUB and GQRY (R292, R293) -/

def conHandle (cl i gn : Nat) : Nat := i + cl * 2 ^ 6 + gn % 2 ^ 32 * 2 ^ 32

/-- The generation that constellation `i` of a cluster unit takes next. -/
def nextGen (u : Cluster) (i : Nat) : Nat := (match u.cons.find i with
  | some y => y.gen + 1
  | none => 1) % 2 ^ 32

/-- The nodes of a list become the live nodes of constellation `i` (R292), named by the task's next path. -/
def makeConstellation (cl i gn : Nat) (ix : List Nat) (m : Mach) : Mach :=
  let s := m.sl
  let place := match s.task with
    | some t => t.e.place
    | none => []
  let u := m.cluster cl
  m.setCluster cl { u with
    cons := u.cons.put i ⟨gn, s.ctx, m.cur, true, ix.length, false, false, s.nextPath, s.task.bind (·.e.gang), place⟩
    nodes := ix.foldl (fun t j => match t.find j with
      | some n => t.put j { n with live := true, launched := false, ended := false, finished := false, stuck := false, con := i }
      | none => t) u.nodes }

/-- The nodes without predecessors are launched, in list order (R292). -/
def launchFirst (cl : Nat) (ix : List Nat) (m : Mach) : Mach :=
  ix.foldl (fun m j => match (m.cluster cl).nodes.find j with
    | some n => if n.npred = 0 then launchNode cl j m else m
    | none => m) m

/-- GSUB (R292, R318): it forms a path name, from which those of its task nodes come. -/
def execGsub (x : MW) : State → Host.Outcome State Fault Refusal := run <|
  issue x.h x.a x.b (fun _ => { rd := gPlain x.a ++ gPlain x.b, pops := [(x.d, .write)] }) do
    let a ← rdGp x.a
    let b ← rdGp x.b
    let ea := addDisp a x.disp
    accessGate
    let m ← get
    let cl := clusterOf m.curCore
    trapIf (b == 0 || decide (1024 < b)) 0x18 0
    trapIf (ea % 2 != 0) 0x14 ea
    trapIf (spFails m ea (2 * b)) 0x15 ea
    let l ← spRead ea (2 * b)
    let ix := (List.range b).map (fun i => ofLE ((l.drop (2 * i)).take 2))
    let nodes := (m.cluster cl).nodes
    trapIf (ix.any (fun i => !inNodes m.cx i || (match nodes.find i with
      | some n => n.live
      | none => true)) || ix.dedup.length != ix.length) 0x3D 0
    match (List.range 64).find? (fun i => !((m.cluster cl).cons.find i).any (·.live)) with
    | none => trap 0x3E 0
    | some i =>
      drain false true true true
      let m ← get
      let gn := nextGen (m.cluster cl) i
      change (makeConstellation cl i gn ix)
      changeMine Slot.countPath
      wrLand .ready x.d (conHandle cl i gn)
      change (launchFirst cl ix)
      pure none

/-- The word of GQRY. -/
def gqryWord (m : Mach) (c h : Nat) : Nat :=
  match (m.cluster (bits h 6 8)).cons.find (bits h 0 6) with
  | some x => if x.ctx == c && x.gen == h / 2 ^ 32 && bits h 14 18 == 0 then
      x.left + ofBool (!x.live) * 2 ^ 11 + ofBool x.bad * 2 ^ 12 + ofBool x.flt * 2 ^ 13
    else 2 ^ 14
  | none => 2 ^ 14

/-- GQRY (R293). -/
def execGqry (x : MW) : State → Host.Outcome State Fault Refusal := run <|
  issue x.h x.a x.b (fun _ => { rd := gPlain x.a, pops := [(x.d, .write)], nondet := true }) do
    let a ← rdGp x.a
    let m ← get
    wrLand .ready x.d (gqryWord m m.sl.ctx a)
    pure none

end Sys2Proof.Machine
end

