-- ==== Sys2Proof/Machine/Sha.lean ====
section
/-! DEFINITION. SHAKE256, the measurement of R366 and R367. The spec names the function and does not define it: this is the one of FIPS 202
(PRESUMED, log entry 7). -/
namespace Sys2Proof.Machine

/-- A 64-bit lane turned left by `n`. -/
def rotl64 (x n : Nat) : Nat := (x * 2 ^ n + x / 2 ^ (64 - n)) % 2 ^ 64

/-- The round constants. -/
def keccakRc : List Nat :=
  [0x0000000000000001, 0x0000000000008082, 0x800000000000808A, 0x8000000080008000, 0x000000000000808B, 0x0000000080000001,
   0x8000000080008081, 0x8000000000008009, 0x000000000000008A, 0x0000000000000088, 0x0000000080008009, 0x000000008000000A]
  ++ [0x000000008000808B, 0x800000000000008B, 0x8000000000008089, 0x8000000000008003, 0x8000000000008002, 0x8000000000000080,
   0x000000000000800A, 0x800000008000000A, 0x8000000080008081, 0x8000000000008080, 0x0000000080000001, 0x8000000080008008]

/-- The turn of lane `x + 5 * y`. -/
def keccakRot : List Nat := [0, 1, 62, 28, 27, 36, 44, 6, 55, 20, 3, 10, 43, 25, 39] ++ [41, 45, 15, 21, 8, 18, 2, 61, 56, 14]

/-- One round over the 25 lanes `x + 5 * y`: the column parities, the turns and moves of the lanes, the rows, the constant. -/
def keccakRound (a : List Nat) (rc : Nat) : List Nat :=
  let at_ := fun (l : List Nat) i => l.getD i 0
  let c := (List.range 5).map (fun x => at_ a x ^^^ at_ a (x + 5) ^^^ at_ a (x + 10) ^^^ at_ a (x + 15) ^^^ at_ a (x + 20))
  let d := (List.range 5).map (fun x => at_ c ((x + 4) % 5) ^^^ rotl64 (at_ c ((x + 1) % 5)) 1)
  let a := (List.range 25).map (fun i => at_ a i ^^^ at_ d (i % 5))
  -- lane (x, y) moves to (y, 2x + 3y): place (X, Y) receives the lane with x = X + 3Y mod 5 and y = X
  let b := (List.range 25).map (fun i =>
    let j := (i % 5 + 3 * (i / 5)) % 5 + 5 * (i % 5)
    rotl64 (at_ a j) (at_ keccakRot j))
  let e := (List.range 25).map (fun i =>
    let y := 5 * (i / 5)
    at_ b i ^^^ ((2 ^ 64 - 1 - at_ b (y + (i + 1) % 5)) &&& at_ b (y + (i % 5 + 2) % 5)))
  (at_ e 0 ^^^ rc) :: e.tail

/-- The permutation. -/
def keccak (a : List Nat) : List Nat := keccakRc.foldl keccakRound a

/-- A block of 136 bytes is taken into the state. -/
def keccakAbsorb (a blk : List Nat) : List Nat :=
  keccak (a.zipIdx.map (fun e => if e.2 < 17 then e.1 ^^^ ofLE ((blk.drop (8 * e.2)).take 8) else e.1))

/-- The message with the suffix 1111 and the padding. -/
def shakePad (l : List Nat) : List Nat :=
  let n := 135 - l.length % 136
  if n = 0 then l ++ [0x9F] else l ++ [0x1F] ++ List.replicate (n - 1) 0 ++ [0x80]

/-- Blocks in order; `fuel` bounds their number. -/
def shakeBlocks : Nat → List Nat → List Nat → List Nat
  | 0, a, _ => a
  | fuel + 1, a, l => if l.isEmpty then a else shakeBlocks fuel (keccakAbsorb a (l.take 136)) (l.drop 136)

/-- The first 32 bytes of SHAKE256 of a byte string. -/
def measurement (l : List Nat) : List Nat :=
  let p := shakePad l
  ((shakeBlocks (p.length / 136) (List.replicate 25 0) p).take 4).flatMap (toLE 8)

end Sys2Proof.Machine
end

