-- ==== Sys2Proof/Machine/Ports.lean ====
section
/-! DEFINITION. Event ports: rules, frames, ingest operations, the receive ring and the PTP servo (R114, R163 to R167, R360). -/
namespace Sys2Proof.Machine

/-! ## Rules (R164, R167) -/

/-- Is the rule record refused, its context apart? -/
def ruleBad (q : List Nat) : Bool :=
  let f := fun i lo n => bits (q.getD i 0) lo n
  f 0 16 2 == 3 || f 0 18 14 != 0 || f 0 48 16 != 0 || f 1 16 16 != 0 || f 2 32 32 != 0 || f 3 18 46 != 0
    || decide (3 ≤ f 6 32 3) || f 6 36 12 != 0 || f 7 48 16 != 0 || f 5 0 3 != 0 || f 6 0 3 != 0

def setRule (die idx : Nat) (q : Option (List Nat)) (m : Mach) : Mach :=
  let d := m.iodie die
  m.setIodie die { d with rules := match q with
    | some q => d.rules.put idx q
    | none => d.rules.del idx }

/-- EVRULE: the rule is in force when it completes. -/
def execEvrule (x : JW) : State → Host.Outcome State Fault Refusal := run <|
  issue x.h x.a 0 (fun _ => { rd := gPlain x.a, priv := true }) do
    let a ← rdGp x.a
    let m ← get
    trapIf (spFails m a 64) 0x15 a
    accessGate
    let l ← spRead a 64
    let q := quadsOf l 8
    let m ← get
    match m.ctxOfAsid (bits (q.getD 0 0) 32 16) with
    | none => trap 0x23 0
    | some c => trapIf (ruleBad q || (m.ctx c).det) 0x23 0
    change (setRule (bits x.mod.toNat 8 1) (bits x.mod.toNat 0 8) (some q))
    pure none
/-- EVRULE, the removal. -/
def execEvruleOff (x : JW) : State → Host.Outcome State Fault Refusal := run <|
  issue x.h 0 0 (fun _ => { priv := true }) do
    change (setRule (bits x.mod.toNat 8 1) (bits x.mod.toNat 0 8) none)
    pure none

/-! ## The receive ring (R360) -/

/-- A frame goes to the die's receive ring with a reason and rule index, or is dropped and counted. The spec gives the ring no consumer
index: once every place has been written, whether it is full is a free value (log entry 43). -/
def toRing (die tin reason idx : Nat) (frame : List Nat) (m : Mach) : Mach :=
  let d := m.iodie die
  let drop := fun (m : Mach) => m.setIodie die { d with dropped := (d.dropped + 1) % 2 ^ 64 }
  match d.ring with
  | none => drop m
  | some (base, lgn) =>
    let asked := decide (2 ^ lgn ≤ d.prod)
    let full := asked && (Config.freeWord m.fresh).toNat % 2 == 1
    let m := if asked then { m with fresh := m.fresh + 1 } else m
    if full then drop m
    else
      let cut := frame.take 2032
      let bytes := toLE 8 tin ++ toLE 2 frame.length ++ [reason + (if 2032 < frame.length then 4 else 0), if reason = 0 then 0 else idx] ++ toLE 4 0 ++ cut
      let a := base + 2048 * (d.prod % 2 ^ lgn)
      let m := hostBus a m
      let m := { m with
        mem := m.mem.wrAll (cellsAt a bytes)
        dev := { m.dev with msix := m.dev.msix.put (1 + die) (m.dev.msix.get 0 (1 + die) + 1) } }
      m.setIodie die { d with prod := d.prod + 1 }

/-! ## Frames (R163, R165) -/

/-- Bytes in network order. -/
def ofBE (l : List Nat) : Nat := ofLE l.reverse

/-- The one's-complement sum of the 16-bit groups of a byte string. -/
def sum16 : List Nat → Nat
  | a :: b :: l => a * 256 + b + sum16 l
  | [a] => a * 256
  | [] => 0
def fold16 (n : Nat) : Nat := let a := n % 65536 + n / 65536; let b := a % 65536 + a / 65536; b % 65536 + b / 65536

/-- A UDP datagram. -/
structure Datagram where
  v6 : Bool
  dport : Nat
  payload : List Nat
  deriving DecidableEq, Repr

/-- A UDP datagram in IP's payload, with the pseudo-header's bytes; none when it is malformed or its checksum fails. -/
def udpOf (v6 : Bool) (pseudo l : List Nat) : Option Datagram :=
  let len := ofBE ((l.drop 4).take 2)
  let sum := ofBE ((l.drop 6).take 2)
  if l.length < 8 ∨ len < 8 ∨ l.length < len then none
  else if sum ≠ 0 ∧ fold16 (sum16 pseudo + 17 + len + sum16 (l.take len)) ≠ 0xFFFF then none
  else some ⟨v6, ofBE ((l.drop 2).take 2), (l.take len).drop 8⟩

/-- The UDP datagram that a frame carries, if rules may see it (R163). -/
def datagramOf (frame : List Nat) : Option Datagram :=
  let et := fun (l : List Nat) => ofBE ((l.drop 12).take 2)
  let at_ := if et frame = 0x8100 then 18 else 14
  let ty := if et frame = 0x8100 then ofBE ((frame.drop 16).take 2) else et frame
  let l := frame.drop at_
  if ty = 0x0800 then
    let hl := 4 * (l.getD 0 0 % 16)
    let tot := ofBE ((l.drop 2).take 2)
    let frag := ofBE ((l.drop 6).take 2)
    if l.getD 0 0 / 16 ≠ 4 ∨ hl < 20 ∨ tot < hl ∨ l.length < tot ∨ frag % 8192 ≠ 0 ∨ bitAt frag 13 ∨ l.getD 9 0 ≠ 17 then none
    else udpOf false ((l.drop 12).take 8) ((l.take tot).drop hl)
  else if ty = 0x86DD then
    let n := ofBE ((l.drop 4).take 2)
    if l.getD 0 0 / 16 ≠ 6 ∨ l.length < 40 + n ∨ l.getD 6 0 ≠ 17 then none
    else udpOf true ((l.drop 8).take 32) ((l.drop 40).take n)
  else none

/-- Does a rule match the datagram (R165)? -/
def ruleMatches (q : List Nat) (d : Datagram) : Bool :=
  let f := fun i lo n => bits (q.getD i 0) lo n
  let n := d.payload.length
  f 0 0 16 == d.dport && (f 0 16 2 == 0 || (f 0 16 2 == 2) == d.v6)
  && decide (f 1 0 16 + 4 ≤ n) && decide (f 3 0 16 + (if f 3 16 1 = 1 then 8 else 4) ≤ n) && (f 6 35 1 == 0 || decide (f 6 48 16 + 4 ≤ n))
  && ofBE ((d.payload.drop (f 1 0 16)).take 4) &&& f 1 32 32 == f 2 0 32

/-- Payload bytes as the rule's KLE orders them. -/
def ruleNum (q : List Nat) (d : Datagram) (off len : Nat) : Nat :=
  let l := (d.payload.drop off).take len
  if bitAt (q.getD 3 0) 17 then ofLE l else ofBE l

/-- The name under which a port's requests reach the slices, beyond the cores' slots. -/
def portKey (port : Nat) : Nat := keyOf (2 ^ 14 + port) 0

/-- The matching rule acts on the frame (R165): an operation goes to a law unit, or the frame to the ring. -/
def ruleAct (port idx : Nat) (q : List Nat) (d : Datagram) (frame : List Nat) (m : Mach) : Mach :=
  let f := fun i lo n => bits (q.getD i 0) lo n
  let k := ruleNum q d (f 3 0 16) (if f 3 16 1 = 1 then 8 else 4)
  let va := (q.getD 5 0 + k * f 6 0 32) % 2 ^ 64
  if q.getD 4 0 ≤ k then toRing port m.sid 1 idx frame m
  else match m.ctxOfAsid (f 0 32 16) with
    | none => toRing port m.sid 2 idx frame m
    | some c => match deviceXlate c 0 va .write m with
      | (none, m) => toRing port m.sid 2 idx frame m
      | (some pa, m) => match paKind m.dev pa with
        | .hbm => send m c va pa k
        | .pooled => send m c va pa k
        | _ => toRing port m.sid 3 idx frame m
where
  send (m : Mach) (c va pa _k : Nat) : Mach :=
    let f := fun i lo n => bits (q.getD i 0) lo n
    let op := match f 6 32 3 with
      | 0 => LawOp.add
      | 1 => .max
      | _ => .adv
    let v := if f 6 35 1 = 1 then ruleNum q d (f 6 48 16) 4 else f 7 0 32
    let id := m.nextId
    let m := addReq (portKey port) c pa .sent .ingest m
    { m with ingests := m.ingests ++ [⟨c, va, pa, op, v, m.sid, keyOf (f 7 32 14) (f 7 46 2), port, idx, frame, id⟩] }

/-- EVENT_PORT_FRAME: a frame with a good FCS is stamped and matched; PTP messages, known by their UDP ports 319 and 320, are the servo's
(PTP_MESSAGE; DEDUCED, log entry 44). -/
def execEventPortFrame (port : Nat) (frame : List Nat) (fcsOk : Bool) : State → Host.Outcome State Fault Refusal := device do
  let m ← get
  enabledIf (decide (port < 2) && decide (6 ≤ m.dev.step))
  if !fcsOk then pure ()
  else match datagramOf frame with
    | none => change (toRing port m.sid 0 0 frame)
    | some d =>
      if d.dport = 319 ∨ d.dport = 320 then pure ()
      else match (m.iodie port).rules.find? (fun r => ruleMatches r.2 d) with
        | none => change (toRing port m.sid 0 0 frame)
        | some r => change (ruleAct port r.1 r.2 d frame)

/-! ## The law unit (R166) -/

/-- Present and law time of an ingest operation on a word with stamp `w`. -/
def ingestTick (m : Mach) (c : Ctx) (tin : Nat) (d : Desc) (w : Nat) : Nat × Nat :=
  match c.stepped.find d.dom with
  | some t => (t, t / 2 ^ d.sh)
  | none =>
    let lin := tin / 2 ^ d.sh
    let b := 2 ^ stampBits false
    let dl := (lin % b + b - (LawWord.of false w).stamp) % b
    if 0 < dl ∧ dl < b / 2 then (tin, lin)
    else if dl = 0 then (min m.sid ((lin + 1) * 2 ^ d.sh - 1), lin)
    else (min m.sid ((lin + (b - dl) + 1) * 2 ^ d.sh - 1), lin + (b - dl))

/-- INGEST_OPERATION: the operation, which its home slice has accepted as a request of the context (R7, R9), is performed in acceptance order,
and so operations of one port to one unit in arrival order. A bad word sends the frame to the ring. -/
def execIngestOperation (n : Nat) : State → Host.Outcome State Fault Refusal := device do
  let m ← get
  let x ← need (m.ingests[n]?)
  let r ← need (m.reqs.find? (fun r => r.id == x.req && r.st == .queued))
  enabledIf (atHead m r)
  change (fun m => useLine (x.pa / 128) 0 (bringLine (x.pa / 128) m))
  let m ← get
  let m0 := dropReq r.id { m with ingests := m.ingests.eraseIdx n }
  let c := m.ctx x.ctx
  let w := m.mem.num x.pa 8
  match lawDesc c false w with
  | none => change (fun _ => pumpSlice (homeOf x.pa) (toRing x.port x.tin 3 x.rule x.frame m0))
  | some d =>
    let present := (ingestTick m c x.tin d w).1
    let clock := fun dom => match c.stepped.find dom with
      | some t => t
      | none => present
    change (fun _ => pumpSlice (homeOf x.pa)
      (lawDo ⟨x.ctx, x.target, x.op, ⟨false, x.pa, false⟩, x.va, x.v, 0, 2, none⟩ clock (ingestTick m c x.tin) m0).2)

/-! ## The PTP servo (R114, R360) -/

/-- The source address that EPCFG has set for a version; 0 when unset. -/
def IoDie.source (d : IoDie) (v6 : Bool) : Nat := if v6 then d.ipv6 else d.ipv4

/-- PTP_MESSAGE: the servo disciplines the clock's rate; an offset above 1 ms is reported once (log entry 44). On a version without
a source address the servo does not lock. The grandmaster's messages say on which version the servo answers. -/
def execPtpMessage (port : Nat) (v6 _lead : Bool) (offset ppm : Nat) (faster : Bool) : State → Host.Outcome State Fault Refusal := device do
  let m ← get
  let d := m.iodie port
  enabledIf (decide (port < 2) && decide (ppm ≤ 200) && decide (6 ≤ m.dev.step))
  if d.source v6 = 0 then pure ()
  else
    change (fun m =>
      let far := decide (1000000 < offset)
      let m := m.setIodie port { d with locked := true, v6 := v6 }
      let told := m.dev.ptpAlert
      let m := { m with dev := { m.dev with rate := if faster then (ppm : Int) else -(ppm : Int), ptpAlert := far } }
      if far && !told then notify 0x07 0 0 0 0 0 0 m else m)

/-- The PTP primary multicast address of an IP version: 224.0.1.129 or FF0E::181 (R360). -/
def ptpMulticast (v6 : Bool) : Nat := if v6 then 0xFF0E * 2 ^ 112 + 0x181 else 224 * 2 ^ 24 + 256 + 129

/-- A Delay_Req of a port: its MAC address, source and destination addresses, and UDP port (R360). -/
def delayReq (port : Nat) (d : IoDie) (v6 : Bool) : List Nat := [(Config.portMac port).toNat, d.source v6, ptpMulticast v6, 319]

/-- PTP_DELAY_REQ: the servo sends a Delay_Req, on the IP version on which the grandmaster's Sync messages arrive. -/
def execPtpDelayReq (port : Nat) (v6 : Bool) : State → Host.Outcome State Fault Refusal := device do
  let m ← get
  let d := m.iodie port
  enabledIf (decide (port < 2) && d.locked && d.v6 == v6 && d.source v6 != 0)
  change (fun m => m.setIodie port { d with delayReqs := d.delayReqs + 1, frame := delayReq port d v6 })

end Sys2Proof.Machine
end

