-- ==== Sys2Proof/Machine/Preempt.lean ====
section
/-! DEFINITION. Pre-emption: stop requests, core images, resuming, the watchdog (R221, R258, R264, R273, R346 to R349). -/
namespace Sys2Proof.Machine

/-! ## Requests and stop points (R346) -/

/-- Does the slot run a task of a gang whose watchdog has expired (R273)? -/
def gangStops (m : Mach) (k : Nat) : Bool := (((m.slot k).task.bind (·.e.gang)).bind m.gangs.find).any (·.wd)

/-- Is the slot's CONTRACT inside a group (R198)? -/
def midGroup (m : Mach) (k : Nat) : Bool :=
  let s := m.slot k
  let p := m.pair s.ctx (pairOf (coreOf k))
  s.run == .running && p.busy == some k && p.group.isSome && s.wait != some .stopped && !s.parked

/-- A PCHK of the slot whose result has not landed finds the request (R281, R346): bit 32 of the word is bit 0 of its byte 4. -/
def askedFor (s : Slot) : Slot :=
  { s with il := s.il.map (fun l => if l.src == .gang then { l with cells := l.cells.zipIdx.map (fun c =>
      if c.2 = 4 then (c.1.1, c.1.2.map (· ||| 1)) else c.1) } else l) }

/-- A slot is to stop: it leaves its wait, with its claims and its place in the queues, unless its CONTRACT is inside a group. -/
def haltSlot (k : Nat) (m : Mach) : Mach :=
  let m := setClaims (octetOf (coreOf k)) (fun l => l.filter (fun y => y.slot != k)) (sendMine k (leaveQueues k m))
  if midGroup m k then m else m.updSlot k (fun s => { s with wait := none, look := [], parked := false })

/-- Is the slot's instruction at issue a CONTRACT? -/
def Slot.contracts (s : Slot) : Bool := s.ir % 2 ^ 8 == 0xC1

/-- A slot stops: it gives its lanes back; a REP goes on at its own address (R69), a CONTRACT is executed anew (R197), and the instruction at issue
asks for its lines again. -/
def stopSlot (s : Slot) : Slot :=
  let s := if s.isFollower then s else s.atReturn
  { s with
    run := .stopped
    mid := s.mid && !s.contracts
    wait := none
    look := []
    parked := false
    grantP := 0
    got := s.got.filter (fun b => decide (256 ≤ b.2)) }

/-- A stop, or a stop and save, of a running context is requested: every slot but one inside a group is at its stop point between
instructions and leaves its wait. A second request can only add the save. -/
def requestStop (c : Nat) (save : Bool) (m : Mach) : Mach :=
  let x := m.ctx c
  match x.pre with
  | some b => m.updCtx c (fun x => { x with pre := some (b || save) })
  | none =>
    let keys := m.slotsOfCtx c
    let m := m.updCtx c (fun x => { x with pre := some save, preAt := m.sid })
    keys.foldl (fun m k => haltSlot k (m.updSlot k askedFor)) m

/-- Has the slot reached its stop point and drained, its copies too (R213)? -/
def stopDone (m : Mach) (c k : Nat) : Bool :=
  let s := m.slot k
  !midGroup m k && s.il.isEmpty && s.ocLd == 0 && s.ocSt == 0 && s.ocAt == 0 && s.ocLw == 0
    && !m.cmds.any (fun x => x.ctx == c && x.slot == k && (x.tl == 4 || isCopy x.op && copyRuns m (x.where_ (copyStands m x)) (copyStands m x)))

/-! ## Core images (R347) -/

def imageSize : Nat := 2 ^ 21

/-- Slots of the context on the core. -/
def coreSlots (m : Mach) (c core : Nat) : Tab Slot := m.slots.filter (fun e => e.2.run != .free && e.2.ctx == c && coreOf e.1 == core)

def moved (by_ : Nat) (l : List (Nat × Nat)) : List (Nat × Nat) := l.map (fun b => (b.1 + by_, b.2))

/-- Cells of `[lo, lo + len)` of a memory, from offset 0. -/
def cellsIn (m : Mem) (lo len : Nat) : List (Nat × Nat) :=
  (m.filter (fun e => decide (lo ≤ e.1) && decide (e.1 < lo + len))).map (fun e => (e.1 - lo, e.2.toNat))

/-- Scratchpad ranges of the image: the slots' shares and the granules of their buffers, as offsets in the core's scratchpad. -/
def spRanges (cx : Ctx) (slots : Tab Slot) (bufs : List Buf) : List (Nat × Nat) :=
  slots.map (fun e => (slotOf e.1 * spShareOf cx.slots, spShareOf cx.slots)) ++ bufs.map (fun b => (b.off % 2 ^ 18, 1024 * b.size))

/-- The image of a core: scratchpad, registers, state blocks, semaphores, engine, set-aside states. -/
def coreImage (m : Mach) (c core : Nat) (slots : Tab Slot) (bufs : List Buf) : Mem :=
  let cx := m.ctx c
  let pr := m.pair c (pairOf core)
  Mem.wrAll [] (
    ((spRanges cx slots bufs).map (fun r => moved r.1 (cellsIn m.spad (core * 2 ^ 18 + r.1) r.2))).flatten
    ++ (slots.map (fun e => moved (0x40000 + slotOf e.1 * shareOf cx.slots) (cellsIn e.2.rf 0 (shareOf cx.slots)))).flatten
    ++ (slots.map (fun e => moved (0x48000 + 0x4000 * slotOf e.1) (blockCells cx e.2 (m.cmds.filter (·.slot == e.1))))).flatten
    ++ (if isIssuer core then cellsAt 0x58000 ((List.range 8).map (pr.ps.get 0)) ++ moved 0x60000 (cellsIn (cjImage pr) 0 areaSize) else [])
    ++ (slots.map (fun e => (e.2.aside.zipIdx.map (fun a =>
        cellsAt (asideOff cx e.1 (e.2.aside.length - 1 - a.2)) (asideBytes cx a.1))).flatten)).flatten)

/-- Poisoned scratchpad words of the image, as offsets in it (R344). -/
def imagePoison (m : Mach) (c core : Nat) (slots : Tab Slot) (bufs : List Buf) : List Nat :=
  (m.spoison.filter (fun w => w / 2 ^ 18 == core && (spRanges (m.ctx c) slots bufs).any (fun r =>
    decide (r.1 ≤ w % 2 ^ 18) && decide (w % 2 ^ 18 < r.1 + r.2)))).map (· % 2 ^ 18)

/-- The slots' images are made: records that come from now on are counted beside them (R157). -/
def noteStat (c core : Nat) (m : Mach) : Mach :=
  m.updCtx c (fun x => { x with keptStat := (coreSlots m c core).foldl (fun t e => t.put e.1 (evqstatWord e.2)) x.keptStat })

/-- The slots of a core become saved and leave it, with their buffers, commands and claims of the pair's engine. -/
def leaveCore (c core : Nat) (m : Mach) : Mach :=
  let slots := coreSlots m c core
  let keys := slots.map (·.1)
  let mine := fun (b : Buf) => match b.owner with
    | some k => keys.contains k
    | none => false
  let bufs := (m.core core).bufs.filter mine
  let m := m.updCtx c (fun x => { x with
    kept := slots.foldl (fun t e => t.put e.1 { e.2 with run := .saved }) x.kept
    keptBufs := x.keptBufs.put core bufs
    keptCmds := x.keptCmds ++ m.cmds.filter (fun d => keys.contains d.slot) })
  let m := m.updCore core (fun y => { y with bufs := y.bufs.filter (fun b => !mine b) })
  let m := if isIssuer core then m.setPair c (pairOf core) { m.pair c (pairOf core) with busy := none } else m
  { m with
    slots := m.slots.filter (fun e => !keys.contains e.1)
    cmds := m.cmds.filter (fun d => !keys.contains d.slot) }

/-- What is saved of a core: its image, and the offsets of the poisoned words; the reads find the errors planted in its scratchpad (R345). -/
def takeImage (c core : Nat) (m : Mach) : Mem × List Nat × Mach :=
  let slots := coreSlots m c core
  let keys := slots.map (·.1)
  let bufs := (m.core core).bufs.filter (fun b => match b.owner with
    | some k => keys.contains k
    | none => false)
  let at_ := fun w => w / 2 ^ 18 == core && (spRanges (m.ctx c) slots bufs).any (fun r => decide (r.1 ≤ w % 2 ^ 18) && decide (w % 2 ^ 18 < r.1 + r.2))
  let m := (m.plantSp.filter (fun w => at_ w.1)).foldl (fun m w => findSp w.1 8 m) m
  (coreImage m c core slots bufs, imagePoison m c core slots bufs, m)

/-- The device writes the core's image to the bytes `pas`; poison goes with its words. -/
def saveCore (c core : Nat) (pas : List Nat) (m : Mach) : Mach :=
  let i := takeImage c core m
  let bad := i.2.1.map (fun o => pas.getD o 0)
  let m := engStore (pas.zipIdx.map (fun a => (a.1, i.1.rd a.2))) i.2.2
  leaveCore c core (noteStat c core { m with poison := bad ++ m.poison.filter (fun w => !bad.contains w) })

/-- A slot's state block in an image. -/
def imageBlock (img : Mem) (k : Nat) : Mem := Mem.wrAll [] (cellsIn img (0x48000 + 0x4000 * slotOf k) 0x4000)

/-- A kept slot as the image describes it, with its set-aside states, the newest first. -/
def imageSlot (cx : Ctx) (img : Mem) (k : Nat) (s : Slot) : Slot :=
  let block := imageBlock img k
  let n := bits (block.num (8 * 13) 8) 8 8
  let part := fun d => Mem.wrAll [] (cellsIn img (asideOff cx k d) (shareOf cx.slots + 1024))
  { slotFrom k (cellsIn img (0x40000 + slotOf k * shareOf cx.slots) (shareOf cx.slots)) block s (cx.keptCmds.filter (·.slot == k)) with
    aside := (List.range n).map (fun i => asideFrom cx k (part (n - 1 - i)) (s.aside.reverse.getD (n - 1 - i) Aside.blank)) }

/-- Queued tasks for which the test fails leave a slot's deque. Spilled entries that stay move together in the spill region (R257). -/
def dropQueued (k : Nat) (stays : Entry → Bool) (m : Mach) : Mach :=
  let s := m.slot k
  let left := s.spilled.zipIdx.filter (fun e => stays e.1)
  let move := fun (m : Mach) (e : (Entry × Nat) × Nat) =>
    if e.1.2 = e.2 then m
    else
      let p := spillSpot k e.1.2 m
      let r := unspill k p.1 e.1.1 p.2
      unlessEnded s.ctx (fun m =>
        let q := deviceXlate s.ctx k (spillVa s e.2) .write m
        match q.1.filter (fun pa => paKind q.2.dev pa != .hole) with
        | some pa => engStore (cellsAt pa (entryBytes r.1)) q.2
        | none => q.2) r.2
  let m := left.zipIdx.foldl move m
  unlessEnded s.ctx (fun m => refillDeque k (m.updSlot k (fun s => { s with
    deque := s.deque.filter stays, spilled := left.map (·.1), spillCnt := left.length }))) m

/-- A slot without a task, whose inner task has been discarded before it began or in its course, goes on with what JOIN or a blocked LAUNCH set
aside; a stopped one holds no lanes. -/
def goOn (s : Slot) : Slot :=
  if s.task.isSome || s.next.isSome || s.aside.isEmpty then s
  else
    let r := restoreAside s
    if r.run == .stopped then { r with grantP := 0 } else r

/-- A slot loses its tasks of a gang that is killed, running, set aside or queued; another gang's task set aside goes on. -/
def dropGang (g : Nat) (k : Nat) (m : Mach) : Mach :=
  let ofGang := fun (e : Entry) => e.gang == some g
  let s := m.slot k
  let gone := s.task.any (fun t => ofGang t.e)
  let asides := s.aside.filter (fun a => !a.task.any (fun t => ofGang t.e))
  let lost := (if gone then s.owned else []) ++ ((s.aside.filter (fun a => a.task.any (fun t => ofGang t.e))).map (·.owned)).flatten
  let m := if gone then exitComet k (leaveQueues k m) else m
  let m := m.updCore (coreOf k) (fun c => { c with bufs := c.bufs.filter (fun b => !lost.contains b.off) })
  let m := m.updSlot k (fun s => { s with aside := asides, next := if s.next.any ofGang then none else s.next })
  let m := if gone then
    let p := m.pair s.ctx (pairOf (coreOf k))
    let m := if p.busy == some k then m.setPair s.ctx (pairOf (coreOf k)) { p with busy := none } else m
    m.updSlot k (fun s => { s with
      run := if s.run == .stopped && (m.ctx s.ctx).st == .running then .running else s.run
      pw := []
      task := none
      owned := []
      streams := []
      grantP := 0
      grantN := 0
      grantReq := 0
      taskh := 0
      wait := none
      look := []
      parked := false
      rep := none
      mid := false
      got := []
      inh := false
      saved := none
      hcSent := false
      hcReply := none })
    else m
  let idle := (m.slot k).task.isNone
  let m := m.updSlot k goOn
  dropQueued k (fun e => !ofGang e) (if idle && (m.slot k).run == .running then reclaim k m else m)

/-- Gangs that slots' tasks name and that are no more: they were killed while the slots were saved (R273). -/
def deadGangs (m : Mach) (slots : Tab Slot) : List Nat :=
  ((slots.map (fun e => (e.2.task.map (·.e)).toList ++ e.2.next.toList ++ e.2.deque ++ e.2.spilled
    ++ e.2.aside.filterMap (fun a => a.task.map (·.e)))).flatten.filterMap (·.gang)).dedup.filter (fun g => (m.gangs.find g).isNone)

/-- A command that an image describes is one of its timeline's (R36). -/
def cmdOk (d : Cmd) : Bool := match d.tl with
  | 0 => isCopy d.op
  | 1 => isGp d.op
  | 2 => d.op == 0xD0
  | 3 => isSetOp d.op
  | _ => false

/-- The ranges of a command of which nothing is kept. -/
def refit (m : Mach) (d : Cmd) : Cmd :=
  if d.id != 0 then d
  else if isCopy d.op then { d with spans := (d.args.getD 0 0, 64) :: (copyStands m d).spans d.op, wvas := (copyStands m d).wvas d.op }
  else { d with spans := if d.op = 0xD0 then smvSpans d.args else if isGp d.op then gpSpans d.op d.args else setSpans d.op d.args }

/-- Insertion by name: a command that has none yet comes last. -/
def insertCmd (d : Cmd) : List Cmd → List Cmd
  | [] => [d]
  | e :: l => if d.id = 0 ∨ (e.id ≠ 0 ∧ e.id ≤ d.id) then e :: insertCmd d l else d :: e :: l

/-- The commands of a core's images, in the order in which they were issued (R187). -/
def issuedOrder (l : List Cmd) : List Cmd := l.foldl (fun r d => insertCmd d r) []

/-- The machine with the image's state restored on the core; none when the image is bad (R348): it must describe the state it
restores byte for byte. -/
def loadCore (c core : Nat) (img : Mem) (poison : List Nat) (m : Mach) : Option Mach :=
  let cx := m.ctx c
  let here := cx.kept.filter (fun e => coreOf e.1 == core)
  let keys := here.map (·.1)
  let bufs := cx.keptBufs.get [] core
  let slots := here.map (fun e => (e.1, imageSlot cx img e.1 e.2))
  let cmds := issuedOrder (here.map (fun e => cmdsFrom e.1 c (imageBlock img e.1) e.2 (cx.keptCmds.filter (·.slot == e.1)))).flatten
  let ranges := spRanges cx here bufs
  let inR := fun a => ranges.any (fun r => decide (core * 2 ^ 18 + r.1 ≤ a) && decide (a < core * 2 ^ 18 + r.1 + r.2))
  let m1 : Mach := { m with
    slots := slots.foldl (fun t e => t.put e.1 e.2) m.slots
    spad := Mem.wrAll (m.spad.filter (fun e => !inR e.1)) (ranges.map (fun r => moved (core * 2 ^ 18 + r.1) (cellsIn img r.1 r.2))).flatten
    spoison := poison.map (· + core * 2 ^ 18) ++ m.spoison.filter (fun w => !inR w)
    plantSp := m.plantSp.filter (fun w => !inR w.1)
    nextId := m.nextId + cmds.length }
  let m1 := m1.updCore core (fun y => { y with bufs := y.bufs ++ bufs, slots := slotsOf cx.slots })
  let m1 := { m1 with cmds := m.cmds ++ (cmds.map (refit m1)).zipIdx.map (fun (d : Cmd × Nat) => if d.1.id = 0 then { d.1 with id := m.nextId + d.2 } else d.1) }
  let pr := m1.pair c (pairOf core)
  let pr' := if isIssuer core then
      { cjParse pr (Mem.wrAll [] (cellsIn img 0x60000 areaSize)) with ps := (List.range 8).map (fun i => (i, img.rd (0x58000 + i))) }
    else pr
  let m1 := m1.setPair c (pairOf core) pr'
  if (isIssuer core && !cjLimits m1 ((keys.head?).getD 0) pr') || slots.any (fun e => e.2.deque.any (fun d => recRefused cx.slots d.quads))
    || !cmds.all cmdOk || coreImage m1 c core slots bufs != img then none
  else
    let m1 := here.foldl (fun m e => m.updSlot e.1 (arrived (cx.keptStat.get (evqstatWord e.2) e.1) e.2)) m1
    let m1 := m1.updCtx c (fun x => { x with
      kept := x.kept.filter (fun e => !keys.contains e.1)
      keptBufs := x.keptBufs.del core
      keptCmds := x.keptCmds.filter (fun d => !keys.contains d.slot) })
    some ((deadGangs m1 slots).foldl (fun m g => keys.foldl (fun m k => dropGang g k m) m) m1)

/-- The image that bytes of memory hold, and the offsets of its poisoned scratchpad words. -/
def imageAt (m : Mach) (pas : List Nat) : Mem × List Nat :=
  (Mem.wrAll [] (pas.zipIdx.map (fun a => (a.2, m.mem.rd a.1))),
   ((List.range 0x8000).map (8 * ·)).filter (fun o => poisonAt m (pas.getD o 0)))

/-! ## CTXSAVE and CTXLOAD (R348) -/

/-- The context that g[B] names. -/
def imageOwner (b : Nat) : M Nat := do
  let m ← get
  match m.ctxOfAsid (b % 2 ^ 16) with
  | none => trap 0x18 0
  | some c => pure c

/-- The checks of both instructions: the context, the core, and the physical addresses of the image's pages. -/
def imageArgs (acc : Acc) (b ea : Nat) : M (Nat × Nat × List Nat) := do
  accessGate
  trapIf (ea % imageSize != 0) 0x14 ea
  let c ← imageOwner b
  let core := bits b 16 14
  let m ← get
  let x := m.ctx c
  trapIf (bits b 30 34 != 0 || !x.cores.contains core) 0x18 0
  trapIf (c == m.sl.ctx) 0x41 0
  let here := coreSlots m c core
  let kept := x.kept.filter (fun e => coreOf e.1 == core)
  trapIf (if acc == .write then here.isEmpty || here.any (fun e => e.2.run != .stopped)
    else !here.isEmpty || kept.isEmpty || kept.any (fun e => (m.slot e.1).run != .free)) 0x41 0
  let pas ← xlateAll ((pagesOf ea imageSize).map (fun v => (v, acc)))
  pure (c, core, pas)

/-- The image leaves line by line as the weak stores of one instruction. The words to be poisoned when the stores have been performed, the context
and the core are noted among the instruction's bytes with values that no byte has. -/
def sendImage (c core ea : Nat) (pas : List Nat) (t ch : Nat) (m : Mach) : Mach :=
  let i := takeImage c core m
  let m := (List.range (imageSize / 128)).foldl (fun m j =>
    weakStoreT m.cur t ch ((i.1.rdN (128 * j) 128).zipIdx.map (fun b => (paAt ea pas (128 * j + b.2), b.1))) m) (noteStat c core i.2.2)
  sendMine m.cur (m.updSlot m.cur (fun s => { s with mid := true, got := (c, 257) :: (core, 258) :: i.2.1.map (fun o => (paAt ea pas o, 256)) }))

/-- The image stands in memory: the words noted by `sendImage` are poisoned, the core's slots become saved, if they are still stopped, and a
stopped context without slots on any core is saved. -/
def keepImage (m : Mach) : Mach :=
  let noted := fun n => (m.sl.got.filter (fun b => b.2 == n)).map (·.1)
  let c := (noted 257).headD 0
  let core := (noted 258).headD 0
  let bad := noted 256
  let m := { m with poison := bad ++ m.poison.filter (fun w => !bad.contains w) }
  let m := if (coreSlots m c core).all (fun e => e.2.run == .stopped) then leaveCore c core m else m
  if (m.slotsOfCtx c).isEmpty && (m.ctx c).st == .stopped then m.updCtx c (fun x => { x with st := .saved }) else m

/-- CTXSAVE: its stores have been acknowledged when it completes. -/
def execCtxsave (x : MW) : State → Host.Outcome State Fault Refusal := run <|
  issue x.h x.a x.b (fun s => { rd := gPlain x.a ++ gRng s x.b, priv := true, pops := if s.mid then [] else [(x.b, .read)] }) do
    let m ← get
    if m.sl.mid then
      blockIf (m.sl.ocSt != 0) (.counter 1 0)
      change keepImage
      pure none
    else
      let a ← rdGp x.a
      let b ← rdG x.b
      let ea := addDisp a x.disp
      let p ← imageArgs .write b ea
      let t ← countStore
      change (sendImage p.1 p.2.1 ea p.2.2 t x.h.ch.toNat)
      halt .stay

/-- CTXLOAD. -/
def execCtxload (x : MW) : State → Host.Outcome State Fault Refusal := run <|
  issue x.h x.a x.b (fun s => { rd := gPlain x.a ++ gRng s x.b, pops := [(x.b, .read)], priv := true }) do
    let a ← rdGp x.a
    let b ← rdG x.b
    let ea := addDisp a x.disp
    let p ← imageArgs .read b ea
    bringLaw (linesAt ea p.2.2 imageSize) x.h.ch.toNat
    let pas := engBytes ea p.2.2 imageSize
    change (engFind pas)
    let m ← get
    match (pas.drop 0x40000).find? (poisonAt m) with
    | some w => halt (fun m => .stay (endContext m.sl.ctx 0x81 m.cur w m))
    | none => pure ()
    let i := imageAt m pas
    match loadCore p.1 p.2.1 i.1 i.2 m with
    | none => trap 0x42 0
    | some m' => change (fun _ => m'.updCtx p.1 (fun x => if x.kept.isEmpty && x.st == .saved then { x with st := .stopped } else x))
    pure none

/-! ## Completing a stop (R346) -/

/-- Where the image of the context's `i`-th core lies in its save area. -/
def savePlaces (cx : Ctx) (i : Nat) : List Nat := (List.range imageSize).map (fun j => cx.save + imageSize * i + j)

/-- Saves every core of the context that still holds its slots. -/
def saveAll (c : Nat) (m : Mach) : Mach :=
  let cx := m.ctx c
  cx.cores.zipIdx.foldl (fun m e => if (coreSlots m c e.1).isEmpty then m else saveCore c e.1 (savePlaces cx e.2) m) m

/-- A copy writes its progress into its record, and remembers what it wrote (R213). -/
def stopCopy (c : Cmd) (m : Mach) : Mach :=
  let r := copyStands m c
  let d := c.where_ r
  let row := d.args.getD 1 0
  let byte := d.args.getD 2 0
  setCmd { d with args := [d.args.getD 0 0, row, byte, d.args.getD 3 0, if c.op = 0xCB then row else 0, byte] } (copyWriteBack d row byte none m)

/-- The slots given become stopped, and their copies write their progress into their records. -/
def stopSlots (keys : List Nat) (m : Mach) : Mach :=
  let m := keys.foldl (fun m k => m.updSlot k stopSlot) m
  (m.cmds.filter (fun d => keys.contains d.slot && isCopy d.op)).foldl (fun m d => stopCopy d m) m

/-- STOP_COMPLETE: CTXST changes, then the host is told. -/
def execStopComplete (c : Nat) : State → Host.Outcome State Fault Refusal := device do
  let m ← get
  let cx := m.ctx c
  let save ← need cx.pre
  let octs := cx.cores.map octetOf
  enabledIf ((m.slotsOfCtx c).all (stopDone m c) && !m.decs.any (fun d => octs.contains d.octet))
  change (fun m =>
    let m := stopSlots (m.slotsOfCtx c) m
    let m := if save then saveAll c m else m
    let m := m.updCtx c (fun x => { x with st := if save then .saved else .stopped, pre := none })
    notify 0x04 0 cx.asid 0 0 0 0 m)

/-- PREEMPT_BY_CLASS (R264, R346): a head LAUNCH that holds reservations on units that a context of a lower class occupies. -/
def execPreemptByClass (c q victim : Nat) : State → Host.Outcome State Fault Refusal := device do
  let m ← get
  let x := m.ctx c
  let v := m.ctx victim
  let r ← need ((reservers m).find? (fun r => r.c == c && r.q == q))
  enabledIf (decide (q < 64) && x.st == .running && v.st == .running && v.pre.isNone && decide (v.cls < x.cls) && (unitsOf m c r.shp).any (fun u =>
    unitFree m c (some q) r.shp u && (unitCores r.shp u).any (fun core => (coreSlots m victim core).any (fun e => e.2.task.isSome))))
  change (requestStop victim true)

/-! ## Resuming (R221, R349) -/

/-- A slot goes on: with its nominal grant it first claims its lanes again; a slot that the watchdog stopped stays stopped. -/
def resumeSlot (det : Bool) (m : Mach) (k : Nat) : Mach :=
  let s := m.slot k
  let held := match (s.task.bind (·.e.gang)).bind m.gangs.find with
    | some G => G.wd
    | none => false
  if held then m
  else if s.grantN = 0 then m.setSlot k { s with run := .running }
  else (setClaims (octetOf (coreOf k)) (fun l => l.filter (fun c => c.slot != k) ++ [⟨k, s.grantN, if det then s.grantN else 16, true⟩]) m).setSlot k
    { s with run := .running, grantP := 0, wait := some .lanes }

/-- Loads the saved cores of a context from its save area: the machine, or a status. A poisoned word of an image that is no scratchpad word ends the
context (R344). -/
def loadAll (c : Nat) (m : Mach) : Except Nat Mach :=
  let cx := m.ctx c
  cx.cores.zipIdx.foldlM (fun m e =>
    let here := (m.ctx c).kept.filter (fun y => coreOf y.1 == e.1)
    if here.isEmpty then .ok m
    else if here.any (fun y => (m.slot y.1).run != .free) then .error 4
    else
      let pas := savePlaces cx e.2
      let m := engFind pas m
      match (pas.drop 0x40000).find? (poisonAt m) with
      | some w => .ok (endContext c 0x81 (keyOf e.1 0) w m)
      | none =>
        let i := imageAt m pas
        match loadCore c e.1 i.1 i.2 m with
        | some m => .ok m
        | none => .error 2) m

/-- The context runs again (R273, R349). -/
def resumeCtx (c : Nat) (m : Mach) : Mach :=
  let det := (m.ctx c).det
  let m := (m.slotsOfCtx c).foldl (resumeSlot det) m
  let m := m.updCtx c (fun x => { x with st := .running, pre := none })
  { m with
    cmds := m.cmds.map (fun d => if d.ctx == c && d.st == 1 then { d with st := 0 } else d)
    gangs := m.gangs.map (fun g => if g.2.ctx == c then (g.1, { g.2 with timer := m.sid }) else g) }

/-! ## The watchdog (R273) -/

/-- The slots that run a gang's tasks. -/
def gangSlots (m : Mach) (g : Nat) (G : Gang) : List Nat := (m.slotsOfCtx G.ctx).filter (fun k => ((m.slot k).task.bind (·.e.gang)) == some g)

/-- The slots of a gang whose watchdog has expired have all stopped, and the host is told. -/
def gangStopped (g : Nat) (G : Gang) (m : Mach) : Mach :=
  let m := stopSlots ((gangSlots m g G).filter (fun k => (m.slot k).run == .running)) m
  notify 0x03 0 (m.ctx G.ctx).asid 0 0 (G.index % 2 ^ 16) 0 { m with gangs := m.gangs.put g { G with wd := true, told := true } }

/-- WATCHDOG_EXPIRE: the slots that run the gang's tasks are pre-empted and the host is told, when each has come to its stop point and drained
(R346). -/
def execWatchdogExpire (gang : Nat) : State → Host.Outcome State Fault Refusal := device do
  let m ← get
  let G ← need (m.gangs.find gang)
  let c := m.ctx G.ctx
  let still := fun (m : Mach) => (gangSlots m gang G).all (fun k => (m.slot k).run != .running || stopDone m G.ctx k)
  if G.wd then
    enabledIf (!G.told && still m)
    change (gangStopped gang G)
  else
    enabledIf (G.wdi != 0 && c.st == .running && c.pre.isNone && decide (G.timer + 1000 * G.wdi ≤ m.sid))
    change (fun m =>
      let G := { G with wd := true, timer := m.sid }
      let m := (gangSlots m gang G).foldl (fun m k => haltSlot k m) { m with gangs := m.gangs.put gang G }
      if still m then gangStopped gang G m else m)

/-- The host resumes the gang: its slots go on, with the context if that is not running. -/
def resumeGang (g : Nat) (G : Gang) (m : Mach) : Mach :=
  let m := { m with gangs := m.gangs.put g { G with wd := false, told := false, timer := m.sid } }
  let c := m.ctx G.ctx
  if c.st == .running && c.pre.isNone then
    ((gangSlots m g G).filter (fun k => (m.slot k).run == .stopped)).foldl (resumeSlot c.det) m
  else m

/-- The host kills the gang: its tasks are discarded and it completes. Those of a saved context are discarded when it is loaded. -/
def killGang (g : Nat) (G : Gang) (m : Mach) : Mach :=
  let m := (m.slotsOfCtx G.ctx).foldl (fun m k => dropGang g k m) m
  let m : Mach := { m with clusters := m.clusters.map (fun e => (e.1, { e.2 with
    subs := e.2.subs.map (fun s => if s.2.gang == some g then (s.1, { s.2 with task := .none }) else s) })) }
  finishGang g { m with gangs := m.gangs.put g { G with killed := true } }

end Sys2Proof.Machine
end

