-- ==== Sys2Proof/Machine/Waits.lean ====
section
/-! DEFINITION. When a wait ends, aging, and soft errors that no access finds (R72, R95, R271, R344). -/
namespace Sys2Proof.Machine

/-- Does the condition hold for which slot `k` waits? The waits that another step serves (lanes, semaphores, comets, look-ups) never
hold here. -/
def waitHolds (m : Mach) (k : Nat) (w : Wait) : Bool :=
  let s := m.slot k
  let core := coreOf k
  match w with
  | .events sel dl => s.sources &&& sel != 0 || (match dl with
    | some t => decide (t ≤ m.sid)
    | none => false)
  | .until_ t => decide (t ≤ m.sid)
  | .counter c n => decide ((if c = 0 then s.ocLd else if c = 1 then s.ocSt else if c = 2 then s.ocAt else s.ocLw) ≤ n)
      && !(c == 2 && n == 0 && atomHeld m k)
  | .allZero ld st at_ lw => !(ld && s.ocLd != 0 || st && s.ocSt != 0 || at_ && s.ocAt != 0 || lw && s.ocLw != 0)
  | .timeline j t n => decide (n ≤ (m.tlOf j t).count)
  | .idle j t => (cmdsOf m j t).isEmpty
  | .engine => !engineHeld m k
  | .room j t => decide ((cmdsOf m j t).length < 16)
  | .register a len => !s.pendingTo [(a, len)]
  | .join c off => m.spad.num (spPlace c off) 8 == 0 || (!s.dqEmpty && decide (s.aside.length < 16))
  | .barrier cl obj gen n => (match (m.cluster cl).bars.find obj with
    | some b => !b.live || b.gen != gen || decide (n ≤ b.phase)
    | none => true)
  | .arrive cl obj gen i => (match (m.cluster cl).bars.find obj with
    | some b => !b.live || b.gen != gen || b.lead i != 3
    | none => true)
  | .settled cl c grp => settled m cl c grp
  | .records n => decide (n ≤ s.evq.length + s.rq)
  | .refill => !s.evq.isEmpty || s.rq == 0
  | .queueRoom c q => decide (((m.ctx c).queues.get Queue.init q).pendingCount < 256)
  | .units g shp _ _ => (spawnUnits m s.ctx k shp g).isSome
  | .capability e c => m.mem.num e 2 == 2 ^ 15 + c || m.mem.num e 2 == 2 ^ 14 + c
  | .granule va pa => !granuleBusy m s.ctx core va pa
  | .buffer lo len => !bufBusy m k lo len
  | .keyRoom pr c q => decide (((m.pair c pr).kq.get [] q).length < 64) && !copykTo m k q
  | .keyHead pr c qa qb na nb => (!na || !((m.pair c pr).kq.get [] qa).isEmpty) && (!nb || !((m.pair c pr).kq.get [] qb).isEmpty)
  | .reply => s.hcReply.isSome
  | .ringPlace => ringPlace m
  | .line l => !lineBusy m core l
  | .slice u => !m.reqs.any (fun r => r.accepted && homeOf r.pa == u && r.st != .cxl) && decide (occupancy m u < 32)
  | .data => !m.reqs.any (fun r => r.slot == k && (isData k r || r.kind == .bring))
  | .hostStore line => !ownHostStore m k line
  | .hostRead => (firstHost m core false).isNone
  | .walk die asid g => !(m.die die).walks.any (fun w => w.asid == asid && w.granule == g)
  | .service => !m.dev.red
  | .loadEntry => decide (loadEntries m core < 64)
  | .landed => s.il.isEmpty
  | .rejoin _ => (match s.comet with
    | some (.leader _ _ _) => allRejoin m k
    | some (.detached _) => false
    | _ => true)
  | .released => true
  | .domain c d => (match (m.ctx c).stepped.find d with
    | some t => decide (t ≤ m.sid)
    | none => true)
  | .flush rs cs ls => !flushBusy m rs cs ls
  | .banks => true
  | .semW _ _ _ _ _ => false
  | .semP _ _ _ _ _ => false
  | .lanes => false
  | .xlate => false
  | .lead _ _ _ => false
  | .follow _ _ => false
  | .stopped => false

/-- What is left of a wait that has ended: a TWAIT and a BARW stay released (R285, R290), and a TLB removal is not made a second time. -/
def Wait.ended : Wait → Option Wait
  | .timeline _ _ _ => some .released
  | .barrier _ _ _ _ => some .released
  | .flush _ _ _ => some (.flush [] [] [])
  | .units g shp t r => some (.units g shp t r)
  | _ => none

/-- WAIT_RELEASE: a blocked slot of a running context whose condition holds continues: its instruction is executed again. -/
def execWaitRelease (k : Nat) : State → Host.Outcome State Fault Refusal := device do
  let m ← get
  let w ← need (m.slot k).wait
  enabledIf ((m.slot k).run == .running && w != .released && waitHolds m k w)
  change (fun m => m.updSlot k (fun s => { s with wait := w.ended }))

/-- The level at which a slot is chosen (R271). -/
def Slot.shown (s : Slot) : Nat := s.level + max s.boost (s.age / 4096)

/-- AGING_RAISE (R271): at each 4,096 of its aging count a slot is raised one level. -/
def execAgingRaise (k : Nat) : State → Host.Outcome State Fault Refusal := device do
  let m ← get
  enabledIf (decide (4096 * ((m.slot k).boost + 1) ≤ (m.slot k).age))
  change (fun m => m.updSlot k (fun s => { s with boost := s.boost + 1 }))

/-- SOFT_ERROR_DETECTED (R344): an error that a check finds, not a read by a program. Places: a slot for registers; `core · 2^52` plus the
line's address for L1; an address for L2 and HBM; a scratchpad address; a pair's key for accumulators. Poison that nobody has read is told
to the host. -/
def execSoftErrorDetected (place : ErrPlace) (at_ : Nat) (corrected : Bool) : State → Host.Outcome State Fault Refusal := device do
  let m ← get
  let w := at_ / 8 * 8
  let tell := fun (m : Mach) => notify 0x0A 0 0 0 0 0 w m
  match place with
  | .registers =>
    enabledIf (!corrected && (m.slot at_).run != .free)
    change (endContext (m.slot at_).ctx 0x82 at_ 0)
  | .l1 =>
    let core := at_ / 2 ^ 52
    let line := at_ % 2 ^ 52 / 128
    enabledIf (corrected && (m.core core).l1.any (·.line == line))
    change (fun m => (l1InvLines core [line] m).bumpMon (dieOf core) 0 0)
  | .l2Clean =>
    enabledIf (corrected && present m at_ && !(m.slice (homeOf at_)).dirty.contains (at_ / 128))
    change (fun m => m.bumpMon (homeDie at_) (fold at_) 1)
  | .l2Dirty =>
    enabledIf (present m at_ && (m.slice (homeOf at_)).dirty.contains (at_ / 128))
    change (fun m => if corrected then m.bumpMon (homeDie at_) (fold at_) 1
      else tell { (m.bumpMon (homeDie at_) 0 4) with poison := w :: m.poison.filter (· != w) })
  | .hbm =>
    enabledIf (paKind m.dev at_ == .hbm)
    change (fun m => if corrected then m.bumpMon (homeDie at_) (bits at_ 13 1) 2
      else tell { (m.bumpMon (homeDie at_) 0 4) with poison := w :: m.poison.filter (· != w) })
  | .scratchpad =>
    let die := at_ / 2 ^ 28
    enabledIf (decide (die < 16))
    change (fun m => if corrected then m.bumpMon die 0 3
      else notify 0x0A 0 0 (at_ / 2 ^ 18) 0 0 (w % 2 ^ 21) { (m.bumpMon die 0 4) with spoison := w :: m.spoison.filter (· != w) })
  | .accumulator =>
    let c := at_ / 8192
    enabledIf ((m.pairs.find at_).isSome)
    change (fun m => if corrected then m else endContext c 0x81 (keyOf (2 * (at_ % 8192) + 1) 0) 0 m)

end Sys2Proof.Machine
end

