-- ==== Sys2Proof/Machine/HostOps.lean ====
section
/-! DEFINITION. What the host does: BAR2, BAR4 and register accesses, context commands, doorbells, settings, firmware, and power and
temperature (R10, R261, R350 to R359, R363 to R369). -/
namespace Sys2Proof.Machine

/-! ## BAR2 and BAR4 (R10, R350, R351) -/

/-- Are the links up? -/
def linksUp (d : Dev) : Bool := decide (2 ≤ d.step) || d.recov

/-- Do the bytes of a BAR2 access all lie in HBM frames in service? -/
def bar2Ok (d : Dev) (a len : Nat) : Bool := (List.range len).all (fun i => paKind d (a + i) == .hbm)
def bar2Waits (d : Dev) (a len : Nat) : Bool := (List.range len).any (fun i => waitsService d (a + i))

/-- May the home slices of the bytes' lines perform an access now, behind the requests that they hold (R93)? -/
def homesFree (m : Mach) (a len : Nat) : Bool := (List.range ((a % 128 + len + 127) / 128)).all (fun i => sliceFree m (a + 128 * i))

/-- Bytes that the spec leaves open. -/
def freeBytes (n len : Nat) : List Nat := (List.range len).map (fun i => (Config.freeByte (n + i)).toNat)

/-- The host's access is answered: the bytes it reads, and whether with Unsupported Request. -/
def hostAnswer (out : List Nat) (ur : Bool) (m : Mach) : Mach := { m with hostOut := out, dev := { m.dev with ur := ur } }

/-- HOST_BAR2_READ: the bytes go to the host; an Unsupported Request answers none. Poison that only the host reads is told to it, and its
bytes are free values (log entry 46). -/
def execHostBar2Read (addr len : Nat) : State → Host.Outcome State Fault Refusal := device do
  let m ← get
  enabledIf (linksUp m.dev && decide (addr + len ≤ 2 ^ 42))
  if !bar2Ok m.dev addr len then change (hostAnswer [] true)
  else do
    enabledIf (!bar2Waits m.dev addr len && homesFree m addr len)
    let pas := (List.range len).map (addr + ·)
    change (engFind pas)
    change (fun m =>
      let free := freeBytes m.fresh len
      let out := pas.zipIdx.map (fun a => if poisonAt m a.1 then free.getD a.2 0 else m.mem.rd a.1)
      match pas.find? (poisonAt m) with
      | some a => notify 0x0A 0 0 0 0 0 (a / 8 * 8) (hostAnswer out false { m with fresh := m.fresh + len })
      | none => hostAnswer out false m)

/-- Bytes from the host reach their home (R10): a present line is updated, an absent one is not brought in. -/
def hostStore (l : List (Nat × Nat)) (m : Mach) : Mach :=
  (byLine l).foldl (fun m b =>
    if present m (b.headD (0, 0)).1 then homeStore b m
    else
      let ws := wordsWhole b
      let m := storeMem b m
      { m with plantHbm := m.plantHbm.filter (fun w => !ws.contains w.1) }) m

/-- HOST_BAR2_WRITE: an access to a hole is answered with Unsupported Request and writes nothing (R351). -/
def execHostBar2Write (addr : Nat) (bytes : List Nat) : State → Host.Outcome State Fault Refusal := device do
  let m ← get
  enabledIf (linksUp m.dev && decide (addr + bytes.length ≤ 2 ^ 42))
  if !bar2Ok m.dev addr bytes.length then change (hostAnswer [] true)
  else do
    enabledIf (!bar2Waits m.dev addr bytes.length && homesFree m addr bytes.length)
    change (fun m => hostAnswer [] false (hostStore (cellsAt addr bytes) m))

/-- BAR4_WRITE: discarded, and reported as Unsupported Request. -/
def execBar4Write (off : Nat) (_bytes : List Nat) : State → Host.Outcome State Fault Refusal := device do
  let m ← get
  enabledIf (linksUp m.dev && decide (off < 2 ^ 32))
  change (hostAnswer [] true)

/-- The byte at an offset of BAR4, as a host read returns it (R350): of a resident context's mirror, at 4 MiB times its index, or of its
capability table, at 2 GiB and 32 MiB times its index; 0 where neither fills it. The read changes nothing. -/
def bar4Byte (m : Mach) (off : Nat) : Nat :=
  if off < 2 ^ 28 then (m.ctxs.find (off / 2 ^ 22)).elim 0 (fun x => m.mem.rd (x.mirror + off % 2 ^ 22))
  else if 2 ^ 31 ≤ off ∧ off < 2 ^ 32 then
    let o := off % 2 ^ 25
    (m.ctxs.find ((off - 2 ^ 31) / 2 ^ 25)).elim 0 (fun x => if o < 2 * x.capn then m.mem.rd (x.captab + o) else 0)
  else 0

/-- What a host read of `len` bytes of BAR4 returns. -/
def bar4Read (m : Mach) (off len : Nat) : List Nat := (List.range len).map (fun i => bar4Byte m (off + i))

/-! ## Registers (R352, R355, R356) -/

/-- DEVSTAT (R364). -/
def devstat (d : Dev) : Nat :=
  d.step % 16 + ofBool d.red * 2 ^ 4 + ofBool d.part * 2 ^ 5 + ofBool d.recov * 2 ^ 6 + d.dies % 2 ^ 16 * 2 ^ 7 + d.sdev % 64 * 2 ^ 23
    + ofBool d.span * 2 ^ 29 + d.cxlp % 16 * 2 ^ 30

/-- QSTAT: the queues in the error state, the host's first. -/
def qstatWord (x : Ctx) : Nat :=
  ((List.range 20).map (fun i => ofBool (x.queues.get Queue.init (if i < 4 then 16 + i else i - 4)).err * 2 ^ i)).sum

/-- CTXST: 0 running, 1 stopped, 2 saved, 3 ended, 4 free. -/
def ctxstCode (m : Mach) (k : Nat) : Nat := match (m.ctxs.find k).map (·.st) with
  | some CtxSt.running => 0
  | some CtxSt.stopped => 1
  | some CtxSt.saved => 2
  | some CtxSt.ended => 3
  | none => 4

/-- A register of context page `k`, as the host reads it. -/
def pageRead (m : Mach) (k off : Nat) : Nat :=
  if off < 0x20 then m.dev.dbell.get 0 (4 * k + off / 8)
  else if off = 0x20 then (m.ctxs.find k).elim 0 qstatWord
  else if off = 0x50 then (m.ctxs.find k).elim 0 fbstatWord
  else if off = 0x58 then ctxstCode m k
  else 0

/-- The 8 bytes at an offset of BAR0, a multiple of 8, as a host read returns them (R352). The read changes nothing: the one that does is
FBPOPH's of 16 bytes (`execFbpophRead`). CMD reads 0 (R5), and so does what the layout does not list (DESIGN CHOICE, log entry 46). -/
def bar0Read (m : Mach) (off : Nat) : Nat :=
  let d := m.dev
  if 0x10_0000 ≤ off ∧ off < 0x14_0000 then pageRead m ((off - 0x10_0000) / 0x1000) (off % 0x1000)
  else if off = 0x00 then devstat d
  else if off = 0x10 then ofBool d.busy + d.status % 2 ^ 8 * 2 ^ 8
  else if off = 0x18 then d.cmdres
  else if 0x20 ≤ off ∧ off ≤ 0x38 then d.cmdarg.getD ((off - 0x20) / 8) 0
  else if off = 0x40 then d.nprod
  else if off = 0x48 then d.ncons
  else if off = 0x50 then d.nlost
  else 0

/-- REGISTER_WRITE: CMDARG0 to CMDARG3 take a value; a write to a read-only register changes nothing. -/
def execRegisterWrite (off value : Nat) : State → Host.Outcome State Fault Refusal := device do
  let m ← get
  enabledIf (linksUp m.dev)
  change (fun m => if 0x20 ≤ off ∧ off ≤ 0x38 ∧ off % 8 = 0 then
    { m with dev := { m.dev with cmdarg := m.dev.cmdarg.set ((off - 0x20) / 8) (value % 2 ^ 64) } } else m)

/-- NCONS_WRITE. -/
def execNconsWrite (value : Nat) : State → Host.Outcome State Fault Refusal := device do
  let m ← get
  enabledIf (linksUp m.dev)
  change (fun m => drainNotices 257 { m with dev := { m.dev with ncons := value % 2 ^ 64 } })

/-- FBPOPH_READ: the entry's 16 bytes go to the host, zeros when there is none or the read has another size. -/
def execFbpophRead (c size : Nat) : State → Host.Outcome State Fault Refusal := device do
  let m ← get
  enabledIf (linksUp m.dev && decide (c < 64))
  if size = 16 then
    change (fun m => let p := popFault c m; { p.2 with hostOut := toLE 8 p.1.1 ++ toLE 8 p.1.2 })
  else change (fun m => { m with hostOut := List.replicate size 0 })

/-- The index of the oldest packet of a queue that has not completed. -/
def Queue.oldest (q : Queue) : Nat := (q.open_.map (·.1)).foldl min q.parsed

/-- DBELL_WRITE. In reduced service a queue other than host queue 0 is refused with STATUS 5 (R365; log entry 46). -/
def execDbellWrite (c q value size : Nat) : State → Host.Outcome State Fault Refusal := device do
  let m ← get
  enabledIf (linksUp m.dev && decide (c < 64) && decide (q < 4))
  if size ≠ 8 ∨ (m.ctxs.find c).isNone then pure ()
  else if m.dev.red && q != 0 then change (fun m => { m with dev := { m.dev with status := 5 } })
  else
    let y := (m.ctx c).queues.get Queue.init (16 + q)
    let v := value % 2 ^ 64
    if v < y.tail ∨ y.oldest + 256 < v then change (queueError c (16 + q) 0 0)
    else change (fun m =>
      let m := m.updCtx c (fun x => { x with queues := x.queues.put (16 + q) { y with tail := v } })
      { m with dev := { m.dev with dbell := m.dev.dbell.put (4 * c + q) v } })

/-! ## Commands (R352, R354) -/

def Mach.arg (m : Mach) (i : Nat) : Nat := m.dev.cmdarg.getD i 0

/-- CMDSTAT and CMDRES take the outcome of a command: a status, or the machine with a result. -/
def settleCmd (r : Except Nat (Mach × Nat)) (m : Mach) : Mach := match r with
  | .ok (m, v) => { m with dev := { m.dev with status := 0, cmdres := v } }
  | .error st => { m with dev := { m.dev with status := st } }

/-- A command write: ignored while BUSY, refused in recovery mode (R366). -/
def command (body : Mach → Except Nat (Mach × Nat)) : State → Host.Outcome State Fault Refusal := device do
  let m ← get
  enabledIf (linksUp m.dev)
  if m.dev.busy then pure ()
  else change (settleCmd (if m.dev.recov then .error 5 else body m))

/-- A context command: k in ARG0, and the states that its row lists (R354). -/
def ctxCommand (states : List CtxSt) (body : Nat → Ctx → Mach → Except Nat (Mach × Nat)) : State → Host.Outcome State Fault Refusal :=
  command (fun m =>
    let k := m.arg 0
    if 64 ≤ k then .error 2
    else match m.ctxs.find k with
      | none => .error 5
      | some x => if states.contains x.st then body k x m else .error 5)

def done (m : Mach) : Except Nat (Mach × Nat) := .ok (m, 0)

/-! ## CREATE (R353, R365) -/

/-- Does the region lie wholly in HBM frames of dies in service? -/
def inHbm (d : Dev) (pa len : Nat) : Bool :=
  len == 0 || (decide (pa + len ≤ hbmTop) && (List.range ((pa + len - 1) / 2 ^ 18 - pa / 2 ^ 18 + 1)).all (fun i => paKind d ((pa / 2 ^ 18 + i) * 2 ^ 18) == .hbm))

/-- Does the region lie wholly in reduced memory? -/
def allReduced (pa len : Nat) : Bool :=
  len == 0 || (List.range ((pa + len - 1) / 2 ^ 18 - pa / 2 ^ 18 + 1)).all (fun i => inReduced ((pa / 2 ^ 18 + i) * 2 ^ 18))

/-- The cores that the bitmap at CORES assigns. -/
def coresAt (m : Mach) (pa : Nat) : List Nat := (List.range 16384).filter (fun c => bitAt (m.mem.rd (pa + c / 8)) (c % 8))

/-- The context that a record describes, before its index and slots are chosen. -/
def ctxOf (q cores : List Nat) : Ctx :=
  let a := q.getD 0 0
  { Ctx.none with
    asid := bits a 0 16
    slots := bits a 16 2
    prv := bitAt a 18
    det := bitAt a 19
    schk := bitAt a 20
    spc := bits a 21 2
    cls := bits a 23 2
    ptroot := q.getD 1 0
    tvec := q.getD 2 0
    qbase := q.getD 3 0
    mirror := q.getD 4 0
    save := q.getD 5 0
    cores := cores
    nbase := bits (q.getD 7 0) 0 10
    ncnt := bits (q.getD 7 0) 10 11
    capwin := q.getD 8 0
    capn := bits (q.getD 9 0) 0 25
    captab := q.getD 10 0
    st := .running }

/-- Is a field of the record bad (R353)? -/
def createBad (m : Mach) (q : List Nat) (x : Ctx) : Bool :=
  let d := m.dev
  let root := bits x.ptroot 17 35 * 2 ^ 17
  bits (q.getD 0 0) 25 39 != 0 || bits (q.getD 7 0) 21 43 != 0 || bits (q.getD 9 0) 25 39 != 0 || !(q.drop 11).all (· == 0)
  || x.slots == 3 || decide (slotsOf x.slots < x.spc + 1)
  || bits x.ptroot 1 16 != 0 || bits x.ptroot 52 12 != 0 || (bitAt x.ptroot 0 && !tableOk d root (2 ^ 17))
  || bits (q.getD 2 0) 56 8 != 0 || x.capwin % 2 ^ 18 != 0
  || x.qbase % 2 ^ 16 != 0 || !inHbm d x.qbase (20 * 65536)
  || x.mirror % 2 ^ 22 != 0 || !inHbm d x.mirror (2 ^ 22)
  || x.save % 2 ^ 21 != 0 || !inHbm d x.save (2 ^ 21 * x.cores.length)
  || !inHbm d (q.getD 6 0) 2048
  || x.captab % 4096 != 0 || (x.det && !inHbm d x.captab (2 * x.capn))
  || x.cores.any (fun c => !bitAt d.dies (dieOf c))
  || decide (1024 < x.ncnt) || decide (1024 < x.nbase + x.ncnt)
  || (!x.det && (x.capwin != 0 || x.capn != 0 || x.captab != 0)) || decide (2 ^ 24 < x.capn)
  || (d.red && !(allReduced (x.qbase + 2 ^ 20) 65536 && allReduced (q.getD 6 0) 2048 && (!bitAt x.ptroot 0 || allReduced root (2 ^ 17))
      && (!x.det || allReduced x.captab (2 * x.capn))))

/-- Free slots of a core for a context with the given SLOTS code; none when other slots are in use with another code. -/
def freeSlots (m : Mach) (slots core : Nat) : List Nat :=
  let keys := (List.range 4).map (keyOf core)
  let used := keys.filter (fun k => (m.slot k).run != .free)
  if used.any (fun k => (m.ctx (m.slot k).ctx).slots != slots) then []
  else (keys.take (slotsOf slots)).filter (fun k => (m.slot k).run == .free)

/-- Does the record conflict with what is in use (R353)? -/
def createConflict (m : Mach) (x : Ctx) : Bool :=
  m.ctxs.any (fun e => e.2.asid == x.asid) || decide (64 ≤ m.ctxs.length)
  || x.cores.any (fun c => decide ((freeSlots m x.slots c).length < x.spc + 1))
  || m.ctxs.any (fun e => decide (max x.nbase e.2.nbase < min (x.nbase + x.ncnt) (e.2.nbase + e.2.ncnt))
      && e.2.cores.any (fun c => x.cores.any (fun y => clusterOf y == clusterOf c)))

/-- Memory with the bytes of the regions 0. -/
def clearRegions (l : List (Nat × Nat)) (m : Mach) : Mach :=
  let inR := fun a => l.any (fun r => decide (r.1 ≤ a) && decide (a < r.1 + r.2))
  { m with
    mem := m.mem.filter (fun e => !inR e.1)
    poison := m.poison.filter (fun w => !inR w)
    plantL2 := m.plantL2.filter (fun w => !inR w.1)
    plantHbm := m.plantHbm.filter (fun w => !inR w.1) }

/-- A context's regions: those cleared in reduced service, the CORES bitmap at `cores` among them, and the others (R353, R365). The page tables
hold what the host gives, and are left (log entry 46). -/
def earlyRegions (x : Ctx) (cores : Nat) : List (Nat × Nat) := [(x.qbase + 2 ^ 20, 65536), (x.captab, 2 * x.capn), (cores, 2048)]
def lateRegions (x : Ctx) : List (Nat × Nat) :=
  [(x.qbase, 2 ^ 20), (x.qbase + 2 ^ 20 + 65536, 3 * 65536), (x.mirror, 2 ^ 22), (x.save, 2 ^ 21 * x.cores.length)]

/-- A core gives the new context `k` its slots, their shares 0 (R41). They are enabled, and their SLOTCFG ceiling is that of reset, whatever
an earlier context set (R81 does not say how long a setting lasts: DESIGN CHOICE, log entry 60). -/
def giveSlots (k : Nat) (x : Ctx) (m : Mach) (core : Nat) : Mach :=
  let keys := (freeSlots m x.slots core).take (x.spc + 1)
  let gone := fun a => keys.any (fun j => decide (core * 2 ^ 18 + slotOf j * spShareOf x.slots ≤ a) && decide (a < core * 2 ^ 18 + (slotOf j + 1) * spShareOf x.slots))
  let m : Mach := { m with
    spad := m.spad.filter (fun e => !gone e.1)
    spoison := m.spoison.filter (fun w => !gone w)
    plantSp := m.plantSp.filter (fun w => !gone w.1) }
  let m := m.updCore core (fun c => { c with slots := slotsOf x.slots })
  keys.foldl (fun m j => m.setSlot j { Slot.init with run := .running, ctx := k, schk := x.schk, tvec := x.tvec }) m

/-- Context `k` is made: its regions are cleared, its cores give it slots. -/
def createCtx (x : Ctx) (cores k : Nat) (m : Mach) : Mach :=
  let m := clearRegions (earlyRegions x cores ++ (if m.dev.red then [] else lateRegions x)) m
  let m : Mach := { m with
    pairs := m.pairs.filter (fun e => e.1 / 8192 != k)
    slices := m.slices.map (fun e => (e.1, { e.2 with cnt := e.2.cnt.del k, refused := e.2.refused.del k }))
    octets := m.octets.map (fun e => (e.1, { e.2 with refused := e.2.refused.del k }))
    dev := { m.dev with dbell := m.dev.dbell.filter (fun e => e.1 / 4 != k) } }
  x.cores.foldl (giveSlots k x) (m.setCtx k x)

/-- CREATE. While the module is too hot every context is stopped as by STOP, a new one too (R369; DEDUCED, log entry 46). -/
def execCreate : State → Host.Outcome State Fault Refusal := command (fun m =>
  let pa := m.arg 0
  if pa % 64 ≠ 0 ∨ !(tableOk m.dev pa 128) then .error 2
  else if waitsService m.dev pa then .error 5
  else
    let q := (List.range 16).map (fun i => m.mem.num (pa + 8 * i) 8)
    let x := ctxOf q (coresAt m (q.getD 6 0))
    if createBad m q x then .error 2
    else if m.dev.red && (!m.ctxs.isEmpty || x.cores.any (fun c => dieOf c != 0)) then .error 5
    else if createConflict m x then .error 4
    else match (List.range 64).find? (fun k => (m.ctxs.find k).isNone) with
      | none => .error 4
      | some k =>
        let m := createCtx x (q.getD 6 0) k m
        .ok (if m.dev.hot then requestStop k false m else m, k))

/-! ## Ending, stopping and resuming (R343, R346, R349) -/

/-- Has every access of a context that outlives it been performed (R340)? -/
def allPerformed (m : Mach) (c : Nat) : Bool := m.reqs.all (fun r => r.ctx != c || r.st == .done)

/-- The stores of a context that the write-combining buffers still hold are performed. -/
def finishStores (c : Nat) (m : Mach) : Mach :=
  let held := (m.cores.map (fun e => (e.2.wcb.filter (·.ctx == c)).map (·.bytes))).flatten
  let m := held.foldl (fun m l => if l.isEmpty then m else engStore l m) m
  { m with
    reqs := m.reqs.filter (·.ctx != c)
    cores := m.cores.map (fun e => (e.1, { e.2 with wcb := e.2.wcb.filter (·.ctx != c) })) }

/-- Everything of a context leaves the machine. -/
def destroyCtx (c : Nat) (m : Mach) : Mach :=
  let x := m.ctx c
  let keys := m.slotsOfCtx c
  let m := finishStores c (if x.st == .ended then m else clearContext c m)
  let mine := fun (b : Buf) => match b.owner with
    | some k => keys.contains k
    | none => false
  { m with
    ctxs := m.ctxs.del c
    slots := m.slots.filter (fun e => !keys.contains e.1)
    pairs := m.pairs.filter (fun e => e.1 / 8192 != c)
    cores := m.cores.map (fun e => (e.1, { e.2 with bufs := e.2.bufs.filter (fun b => !mine b), tlb := e.2.tlb.filter (·.asid != x.asid) }))
    dies := m.dies.map (fun e => (e.1, { e.2 with
      tlb := e.2.tlb.filter (·.asid != x.asid)
      walks := e.2.walks.filter (·.asid != x.asid)
      faults := e.2.faults.filter (·.asid != x.asid) }))
    iodies := m.iodies.map (fun e => (e.1, { e.2 with rules := e.2.rules.filter (fun r => bits (r.2.getD 0 0) 32 16 != x.asid) }))
    dev := { m.dev with dbell := m.dev.dbell.filter (fun e => e.1 / 4 != c) } }

/-- DESTROY: the command ends once the context's accesses have been performed. -/
def execDestroy : State → Host.Outcome State Fault Refusal := fun s =>
  if !s.m.dev.busy && !s.m.dev.recov && !allPerformed s.m (s.m.arg 0) && [CtxSt.stopped, .saved, .ended].contains (s.m.ctx (s.m.arg 0)).st then
    .refused .notEnabled
  else ctxCommand [.stopped, .saved, .ended] (fun k _ m => done (destroyCtx k m)) s
/-- STOP. -/
def execStop : State → Host.Outcome State Fault Refusal := ctxCommand [.running, .stopped, .saved] (fun k x m =>
  done (if x.st == .running then requestStop k false m else m))
/-- STOPSAVE: not before full service. -/
def execStopsave : State → Host.Outcome State Fault Refusal := ctxCommand [.running, .stopped, .saved] (fun k x m =>
  if m.dev.red then .error 5 else done (if x.st == .saved then m else requestStop k true m))
/-- RESUME: not while the module is too hot (R369). Images that are bad, or slots in use on the cores that the context left, refuse it
(log entry 46); poison in an image ends the context (R344). -/
def execResume : State → Host.Outcome State Fault Refusal := ctxCommand [.stopped, .saved] (fun k x m =>
  if m.dev.hot || x.pre.isSome then .error 5
  else match loadAll k m with
    | .error st => .error st
    | .ok m => done (if (m.ctx k).st == .ended then m else resumeCtx k m))
/-- KILL. -/
def execKill : State → Host.Outcome State Fault Refusal := ctxCommand [.running, .stopped, .saved] (fun k _ m => done (endContext k 0x84 0 0 m))
/-- REPLAY, from the host. -/
def execHostReplay : State → Host.Outcome State Fault Refusal := ctxCommand [.running, .stopped, .saved] (fun k _ m => done (replayAll k m))

/-- The gang of a context with a sequence number and an unanswered watchdog notification. Packets of two queues may bear one number: the
command then names the gang that was placed first (R354 does not say which: DESIGN CHOICE, log entry 46). -/
def gangNamed (m : Mach) (c n : Nat) : Option (Nat × Gang) := m.gangs.find? (fun g => g.2.ctx == c && g.2.told && g.2.index % 2 ^ 32 == n)

/-- GANGRES. -/
def execGangres : State → Host.Outcome State Fault Refusal := ctxCommand [.running, .stopped, .saved] (fun k _ m =>
  match gangNamed m k (m.arg 1) with
  | some g => done (resumeGang g.1 g.2 m)
  | none => .error 5)
/-- GANGKILL. -/
def execGangkill : State → Host.Outcome State Fault Refusal := ctxCommand [.running, .stopped, .saved] (fun k _ m =>
  match gangNamed m k (m.arg 1) with
  | some g => done (killGang g.1 g.2 m)
  | none => .error 5)

/-- QRESET: packets that have not started, and FENCEs that have not completed, are discarded. -/
def execQreset : State → Host.Outcome State Fault Refusal := ctxCommand [.running, .stopped, .saved] (fun k x m =>
  let n := m.arg 1
  if 20 ≤ n then .error 2
  else if m.dev.red && n != 0 then .error 5
  else
    let q := if n < 4 then 16 + n else n - 4
    let y := x.queues.get Queue.init q
    let y' : Queue := { y with
      parsed := y.tail
      err := false
      active := y.active.filter (fun a => match a.2 with
        | .running _ => true
        | _ => false) }
    done (m.updCtx k (fun x => { x with queues := x.queues.put q y' })))

/-- REPLY: the slot may be saved (R346). -/
def execReply : State → Host.Outcome State Fault Refusal := ctxCommand [.running, .stopped, .saved] (fun k x m =>
  let a := m.arg 1
  let key := keyOf (bits a 0 14) (bits a 14 2)
  let v := m.arg 2
  let s := m.slot key
  let may := fun (s : Slot) => s.hcSent && s.hcReply.isNone
  if 2 ^ 16 ≤ a then .error 2
  else if s.run != .free && s.ctx == k then
    if may s then done (m.setSlot key { s with hcReply := some v }) else .error 5
  else match x.kept.find key with
    | some s => if may s then done (m.updCtx k (fun x => { x with kept := x.kept.put key { s with hcReply := some v } })) else .error 5
    | none => .error 5)

/-! ## Settings (R356, R358, R360, R368) -/

/-- Do two map entries share a window address? -/
def mapOverlap (a b : List Nat) : Bool :=
  decide (max (a.getD 0 0) (b.getD 0 0) < min (a.getD 0 0 + a.getD 1 0) (b.getD 0 0 + b.getD 1 0))

def anyPair (p : List Nat → List Nat → Bool) : List (List Nat) → Bool
  | [] => false
  | a :: l => l.any (p a) || anyPair p l

/-- POOLMAP. -/
def execPoolmap : State → Host.Outcome State Fault Refusal := command (fun m =>
  let pa := m.arg 0
  let n := m.mem.num pa 8
  if pa % 8 ≠ 0 ∨ !(tableOk m.dev pa 8) then .error 2
  else if waitsService m.dev pa then .error 5
  else if 16 < n ∨ !(tableOk m.dev pa (8 + 32 * n)) then .error 2
  else
    let es := (List.range n).map (fun i => (List.range 4).map (fun j => m.mem.num (pa + 8 + 32 * i + 8 * j) 8))
    if es.any (fun e => e.getD 0 0 % 2 ^ 18 != 0 || e.getD 1 0 % 2 ^ 18 != 0 || decide (2 ^ 46 < e.getD 0 0 + e.getD 1 0) || decide (4 ≤ e.getD 3 0))
      || anyPair mapOverlap es then .error 2
    else done { m with dev := { m.dev with pool := es } })

/-- Is it a ring of host memory (R356, R360)? -/
def hostRing (d : Dev) (pa lgn size : Nat) : Bool :=
  decide (4 ≤ lgn) && decide (lgn ≤ 16) && paKind d pa == .host && paKind d (pa + size * 2 ^ lgn - 1) == .host

/-- ERXRING. -/
def execErxring : State → Host.Outcome State Fault Refusal := command (fun m =>
  if 2 ≤ m.arg 0 ∨ !(hostRing m.dev (m.arg 1) (m.arg 2) 2048) then .error 2
  else done (m.setIodie (m.arg 0) { m.iodie (m.arg 0) with ring := some (m.arg 1, m.arg 2), prod := 0 }))

/-- NRING: waiting records are written, and a reduced configuration is reported (R363). -/
def execNring : State → Host.Outcome State Fault Refusal := command (fun m =>
  if !(hostRing m.dev (m.arg 0) (m.arg 1) 32) then .error 2
  else
    let first := m.dev.nring.isNone
    let m := drainNotices 257 { m with dev := { m.dev with nring := some (m.arg 0, m.arg 1) } }
    done (if first && m.dev.part then notify 0x09 0 0 0 0 0 0 m else m))

def capOk (w : Nat) : Bool := decide (2000 ≤ w) && decide (w ≤ 7200)

/-- SETCAP: the new cap is in force from the next window on. -/
def execSetcap : State → Host.Outcome State Fault Refusal := command (fun m =>
  if !capOk (m.arg 0) then .error 2 else done { m with dev := { m.dev with cap := m.arg 0 } })
/-- POWER_CAP_EFFECTER_WRITE: the value that SETCAP writes; one out of range is refused. -/
def execPowerCapEffecterWrite (watts : Nat) : State → Host.Outcome State Fault Refusal := device do
  let m ← get
  enabledIf (linksUp m.dev)
  change (fun m => if capOk watts then { m with dev := { m.dev with cap := watts } } else m)

/-- Is a die too warm for the cap to rise (R369)? -/
def throttled (d : Dev) : Bool := d.temps.any (fun t => decide (8 * 93 ≤ t.2)) && decide (d.effCap < d.cap)

/-- Issue bubbles of a window: each core had `n`, which its die counts and the slots that run tasks saw (R361, R362). -/
def bubble (n : Nat) (m : Mach) : Mach :=
  let m := ((List.range 16).filter (bitAt m.dev.dies)).foldl (fun m die =>
    m.setDie die { m.die die with mon := (m.die die).mon.put (16 * 5) ((m.die die).mon.get 0 (16 * 5) + n) }) m
  { m with slots := m.slots.map (fun e => if e.2.run == .running && e.2.task.isSome then (e.1, e.2.countEvents 7 n) else e) }

/-- POWER_CAP_WINDOW: a window of 1 ms ends, with what it measured. The bubbles have held it at or below the
effective cap; a new cap is in force at its end. -/
def execPowerCapWindow (w : WindowReport) : State → Host.Outcome State Fault Refusal := device do
  let m ← get
  enabledIf (decide (w.watts ≤ m.dev.effCap))
  change (fun m => bubble w.bubbles { m with dev := { m.dev with
    effCap := if throttled m.dev then min m.dev.effCap m.dev.cap else m.dev.cap
    power := (List.range 16).map (fun die => (die, w.power.getD die 0)) } })

/-- EPCFG. -/
def execEpcfg : State → Host.Outcome State Fault Refusal := command (fun m =>
  if 2 ≤ m.arg 0 ∨ 2 ^ 32 ≤ m.arg 1 then .error 2
  else done (m.setIodie (m.arg 0) { m.iodie (m.arg 0) with ipv4 := m.arg 1, ipv6 := m.arg 2 * 2 ^ 64 + m.arg 3 }))

/-- UNKNOWN_COMMAND: STATUS 2 in every mode. -/
def execUnknownCommand (code : Nat) : State → Host.Outcome State Fault Refusal := fun s =>
  if 1 ≤ code ∧ code ≤ 0x13 ∨ !linksUp s.m.dev then .refused .notEnabled
  else if s.m.dev.busy then .next s
  else .next { s with m := { s.m with dev := { s.m.dev with status := 2 } } }

/-! ## Firmware, attestation and start-up (R363 to R367) -/

def setStatus (st : Nat) (s : State) : State := { s with m := { s.m with dev := { s.m.dev with status := st } } }

/-- A command that reads or writes flash. -/
def flashCommand (inRecovery : Bool) (body : State → State) : State → Host.Outcome State Fault Refusal := fun s =>
  if !linksUp s.m.dev then .refused .notEnabled
  else if s.m.dev.busy then .next s
  else if s.m.dev.recov && !inRecovery then .next (setStatus 5 s)
  else .next (body s)

/-- Addresses of the frames of a range that is not empty. -/
def framesOf (pa len : Nat) : List Nat := (List.range ((pa + len - 1) / 2 ^ 18 - pa / 2 ^ 18 + 1)).map (fun i => (pa / 2 ^ 18 + i) * 2 ^ 18)

/-- FWSTAGE: an image that does not verify stands in the staging buffer instead of an earlier one, and cannot be committed. -/
def execFwstage : State → Host.Outcome State Fault Refusal := flashCommand true (fun s =>
  let m := s.m
  let pa := m.arg 0
  let n := m.arg 1
  if n = 0 ∨ !(tableOk m.dev pa n) ∨ !(framesOf pa n).all (fun a => tableOk m.dev a 1) then setStatus 2 s
  else if (framesOf pa n).any (waitsService m.dev) then setStatus 5 s
  else
    let l := m.mem.rdN pa n
    if Config.imageOk l then setStatus 0 { s with boot := { s.boot with staged := some l } }
    else setStatus 2 { s with boot := { s.boot with staged := none } })

/-- FWCOMMIT: the write takes time, in which the image in flash is torn (`finishCommit`); length 0 clears the boot record (R363). -/
def execFwcommit : State → Host.Outcome State Fault Refusal := flashCommand true (fun s =>
  if s.m.arg 1 = 0 then setStatus 0 { s with boot := { s.boot with record := List.replicate 10 0, alts := [] } }
  else match s.boot.staged with
    | none => setStatus 5 s
    | some _ => { s with m := { s.m with dev := { s.m.dev with busy := true } }, boot := { s.boot with torn := true } })

/-- A commit under way ends: flash holds the staged image. -/
def finishCommit (s : State) : State :=
  if s.m.dev.busy then
    { s with
      m := { s.m with dev := { s.m.dev with busy := false, status := 0 } }
      boot := { s.boot with torn := false, staged := none, image := s.boot.staged.getD s.boot.image } }
  else s

/-- Does ATTEST's next flash write succeed? -/
def flashWrites (b : Boot) : Bool := b.flash.headD true

/-- ATTEST: the next state index is in flash before the report is signed; when that write fails nothing is signed. -/
def execAttest : State → Host.Outcome State Fault Refusal := flashCommand false (fun s =>
  let m := s.m
  let pa := m.arg 0
  let i := s.boot.sigIndex
  if 2 ^ 40 ≤ i then setStatus 3 s
  else if !(tableOk m.dev pa 108) then setStatus 2 s
  else if waitsService m.dev pa then setStatus 5 s
  else if !(flashWrites s.boot) then setStatus 3 { s with boot := { s.boot with flash := s.boot.flash.tail } }
  else
    let body := m.mem.rdN pa 32 ++ m.dev.meas ++ measurement ((s.boot.record.map (toLE 4)).flatten) ++ toLE 4 (devstat m.dev) ++ toLE 8 i
    let sig := (Config.sign i body).map (· % 256)
    setStatus 0 { m := hostStore (cellsAt (pa + 32) (body.drop 32 ++ sig)) m, boot := { s.boot with sigIndex := i + 1, flash := s.boot.flash.tail } })

/-! ## Start-up (R363), one attempt at a time -/

/-- OUT of a step's entry: 1 attempted, 2 passed, 3 failed, 4 passed by the alternate, 5 skipped. -/
def bootOut (r : List Nat) (i : Nat) : Nat := r.getD i 0 % 8

/-- The entry of a step that is being attempted, and the one after the attempt. -/
def bootTry (old : Nat) : Nat := 1 + min 255 (bits old 8 8 + 1) * 2 ^ 8 + bits old 16 16 * 2 ^ 16
def bootEnd (old out det : Nat) : Nat := out + bits old 8 8 * 2 ^ 8 + det % 2 ^ 16 * 2 ^ 16

/-- Is a step that has failed by its alternate method too skipped on later starts? -/
def skippable (i : Nat) : Bool := i == 3 || i == 4 || i == 5 || i == 7 || i == 8

/-- An attempt at step `i` begins, by the alternate method when the last one failed or power was lost in it, for S2 also when the alternate has
passed; a step whose alternate has failed is skipped where the table allows it. -/
def beginBoot (i : Nat) (s : State) : State :=
  let r := s.boot.record
  let out := bootOut r i
  let alt := i != 0 && i != 1 && i != 9 && (out == 3 || out == 1 || i == 2 && out == 4)
  let skip := out == 5 || out == 3 && skippable i && s.boot.alts.contains i
  { m := { s.m with dev := { s.m.dev with start := some (i, alt) } }
    boot := { s.boot with record := r.set i (if skip then bootEnd (r.getD i 0) 5 (bits (r.getD i 0) 16 16) else bootTry (r.getD i 0)) } }

def passedBoot (out : Nat) : Bool := out == 2 || out == 4

/-- The outcome of the attempt. -/
def attemptOut (s : State) (rep : StartReport) (i : Nat) (alt : Bool) : Nat :=
  if bootOut s.boot.record i = 5 then 5
  else if (if i = 1 then Config.imageOk s.boot.image && !s.boot.torn else if alt then rep.alternate.getD i false else rep.normal.getD i false) then
    (if alt then 4 else 2)
  else 3

/-- The mask of good dies or ports after a step: all when it passes, what the record holds when it is skipped, or what the attempt found. -/
def goodMask (s : State) (i out all found : Nat) : Nat :=
  if passedBoot out then all else if bootOut s.boot.record i = 5 then bits (s.boot.record.getD i 0) 16 16 else found

/-- The module is in recovery mode: nothing else runs. Die 0 gives reduced memory for an image (log entry 46). -/
def recover (s : State) : State :=
  { s with m := { Mach.reset with
      mem := s.m.mem
      agenda := s.m.agenda
      fresh := s.m.fresh
      dev := { Dev.init with step := s.m.dev.step, recov := true, dies := 1, meas := s.m.dev.meas } } }

/-- The configuration is reduced: the host is told, once the ring is set (R363). -/
def setPart (m : Mach) : Mach :=
  if m.dev.part then m
  else
    let m := { m with dev := { m.dev with part := true } }
    if m.dev.nring.isSome then notify 0x09 0 0 0 0 0 0 m else m

/-- Step `i` is complete with an outcome and a mask. -/
def bootDone (i out mask : Nat) (rep : StartReport) (m : Mach) : Mach :=
  let m := { m with dev := { m.dev with step := i } }
  if i = 2 then { m with dev := { m.dev with dies := 2 ^ 16 - 1 } }
  else if i = 3 ∨ i = 4 ∨ i = 5 then
    let m := { m with dev := { m.dev with dies := m.dev.dies &&& mask } }
    if m.dev.dies = 2 ^ 16 - 1 then m else setPart m
  else if i = 6 then { m with sid := if out = 2 ∧ rep.ptpLocked then rep.ptpTime % 2 ^ 64 else 0 }
  else if i = 7 then
    if passedBoot out then { m with dev := { m.dev with span := true, sdev := rep.spanDevice % 64 } } else setPart m
  else if i = 8 then
    let m := { m with dev := { m.dev with cxlp := mask % 16 } }
    if mask % 16 = 15 then m else setPart m
  else m

/-- The attempt at step `i` ends: its result is written, and the next step begins, or the start stops. -/
def endBoot (i : Nat) (alt : Bool) (rep : StartReport) (s : State) : State :=
  let out := attemptOut s rep i alt
  let mask := if i = 3 ∨ i = 4 ∨ i = 5 then goodMask s i out (2 ^ 16 - 1) (rep.dies % 2 ^ 16)
    else if i = 7 then goodMask s i out (rep.spanPorts % 2 ^ 16) (rep.spanPorts % 2 ^ 16)
    else if i = 8 then goodMask s i out 15 (rep.ports % 16) else 0
  let r := s.boot.record
  let boot := { s.boot with
    record := if bootOut r i = 5 then r else r.set i (bootEnd (r.getD i 0) out mask)
    alts := if bootOut r i = 5 then s.boot.alts else (if alt && out == 3 then [i] else []) ++ s.boot.alts.filter (· != i) }
  let m := { s.m with dev := { s.m.dev with start := none, meas := if i = 1 then measurement s.boot.image else s.m.dev.meas } }
  let s1 : State := ⟨m, boot⟩
  if i = 1 ∧ !passedBoot out then recover s1
  else if !passedBoot out ∧ !skippable i then s1
  else
    let s2 : State := ⟨bootDone i out mask rep m, boot⟩
    if 3 ≤ i ∧ !bitAt s2.m.dev.dies 0 then recover ⟨m, boot⟩ else beginBoot (i + 1) s2

/-- POWER_ON: an attempt at the next step of S0 to S8 begins or ends. A start that S0, S2 or S6 stops leaves the module at the step before;
failed firmware or die 0 leaves recovery mode. -/
def execPowerOn (report : StartReport) : State → Host.Outcome State Fault Refusal := fun s =>
  if s.m.dev.recov then .refused .notEnabled
  else match s.m.dev.start with
    | some (i, alt) => if i ≤ 8 then .next (endBoot i alt report s) else .refused .notEnabled
    | none => if s.m.dev.step = 0 then .next (beginBoot 0 { s with boot := { s.boot with flash := report.flash } }) else .refused .notEnabled

/-- FULL_SERVICE (R365): S9. -/
def execFullService : State → Host.Outcome State Fault Refusal := fun s =>
  let m := s.m
  if !m.dev.red ∨ m.dev.step ≠ 8 ∨ m.dev.recov then .refused .notEnabled
  else
    let m := m.ctxs.foldl (fun m e => clearRegions (lateRegions e.2) m) m
    let m : Mach := { m with
      slices := m.slices.map (fun e => (e.1, { e.2 with dirty := e.2.dirty.filter (fun l => !inReduced (128 * l)) }))
      dev := { m.dev with red := false, step := 9, start := none } }
    let r := s.boot.record.set 9 (bootEnd (s.boot.record.getD 9 0) 2 0)
    let all := (List.range 10).all (fun i => bootOut r i == 2)
    .next { m := m, boot := { s.boot with record := if all then r.map (fun e => e - bits e 8 8 * 2 ^ 8) else r } }

/-! ## Links, power and temperature (R351, R369) -/

/-- PCIE_LINK_DOWN: link 0. -/
def execPcieLinkDown : State → Host.Outcome State Fault Refusal := device do
  let m ← get
  enabledIf m.dev.link0
  change (fun m => { m with dev := { m.dev with link0 := false } })
/-- PCIE_LINK_UP. -/
def execPcieLinkUp : State → Host.Outcome State Fault Refusal := device do
  let m ← get
  enabledIf (!m.dev.link0)
  change (fun m => { m with dev := { m.dev with link0 := true } })

/-- Power is gone: everything but flash is lost (R363). -/
def powerOff (s : State) : State :=
  { m := { Mach.reset with agenda := s.m.agenda, fresh := s.m.fresh }, boot := { s.boot with staged := none } }

/-- What the readings `temp` of a die and `inlet` bring about below 120 °C. -/
def heat (die temp inlet : Nat) (m : Mach) : Mach :=
  let old := m.dev.temps.get 0 die
  let d := { m.dev with temps := m.dev.temps.put die temp, inlet := inlet }
  let warm := decide (8 * 95 < temp)
  let trip := decide (8 * 110 < temp) || decide (8 * 45 < inlet)
  let cool := d.temps.all (fun t => decide (t.2 < 8 * 100)) && decide (inlet ≤ 8 * 45)
  let d := { d with
    effCap := if warm || (throttled d && decide (8 * 93 ≤ temp)) then d.effCap - 100 else if throttled d then d.effCap else d.cap
    hot := trip || (d.hot && !cool) }
  let told := m.dev.hot
  let m : Mach := { m with dev := d }
  let m := if warm && decide (old ≤ 8 * 95) then notify 0x08 0 0 0 0 0 0 m else m
  if trip && !told then
    notify 0x08 0 0 0 0 0 0 ((m.ctxs.filter (fun e => e.2.st == .running)).foldl (fun m e => requestStop e.1 false m) m)
  else m

/-- THERMAL_EVENT: a die's and the inlet's temperature, in 0.125 °C. A die above 120 °C takes the power away. -/
def execThermalEvent (die temp inlet : Nat) : State → Host.Outcome State Fault Refusal := fun s =>
  if 16 ≤ die ∨ s.m.dev.step < 2 then .refused .notEnabled
  else if 8 * 120 < temp then .next (powerOff s)
  else .next { s with m := heat die temp inlet s.m }

/-- Does the module remove its own power, or has it lost it (R369)? -/
def PowerCause.holds : PowerCause → Bool
  | .lost => true
  | .overheat temp => decide (8 * 120 < temp)
  | .lowFlow dl => decide (dl < 40)
  | .lowInput mv => decide (mv < 44000)

/-- POWER_LOSS: for a cause that takes the power away, everything but flash is lost. -/
def execPowerLoss (cause : PowerCause) : State → Host.Outcome State Fault Refusal := fun s =>
  if PowerCause.holds cause then .next (powerOff s) else .refused .notEnabled

end Sys2Proof.Machine
end

