-- ==== Sys2Proof/Machine/VecMem.lean ====
section
/-! DEFINITION. Vector and tile memory, tiles (R236 to R238). -/
namespace Sys2Proof.Machine

/-- The signed byte displacement in IMM16. -/
def addImm16 (a i : Nat) : Nat := ofInt 64 ((a : Int) + sx 16 i)

/-- A pending write with some of its bytes known; its name. -/
def landCells (src : LandSrc) (cells : List (Nat × Option Nat)) : M Nat := do
  let id ← freshId
  changeMine (fun s => Slot.note { s with il := s.il ++ [{ id := id, cells := cells, src := src, from_ := 0 }] } (cells.map (·.1)))
  pure id

/-! ## Lane addresses (R236) -/

/-- Addresses of the active lanes, ascending: by stride, or by index. -/
def laneAddrs (s : Slot) (k base : Nat) (step : Int) : List (Nat × Nat) :=
  (activeLanes s k).map (fun (l : Nat) => (l, ofInt 64 ((base : Int) + (l : Int) * step)))
def indexAddrs (s : Slot) (k base : Nat) (b : BitVec 8) (n : Nat) : List (Nat × Nat) :=
  (activeLanes s k).map (fun l => (l, (base + s.lane b l * n) % 2 ^ 64))

/-- Every access is checked at the banks; the first failing one in order traps. -/
def bankCheck (n : Nat) : List Nat → M Unit
  | [] => pure ()
  | a :: l => do
    let m ← get
    trapIf (a % n != 0) 0x14 a
    trapIf (spFails m a n) 0x15 a
    bankCheck n l

/-- Reads elements at the banks in order; the bytes of each. -/
def bankReads (n : Nat) : List Nat → M (List (List Nat))
  | [] => pure []
  | a :: l => do
    let v ← spRead a n
    let r ← bankReads n l
    pure (v :: r)

/-- The cause and value with which an access through a virtual address traps before translation. -/
def vaFails (m : Mach) (n : Nat) (write : Bool) (a : Nat) : Option (Nat × Nat) :=
  if a % n != 0 then some (0x14, a)
  else if 2 ^ 56 ≤ a then some (0x17, a)
  else if write then (capFails m m.cx m.curCore a n).map (fun v => (0x40, v))
  else none

/-- Every access through virtual addresses is checked before any is made; the first failing lane in order decides: it traps, or its
translation fault parks the whole instruction (R236). -/
def vaCheck (n : Nat) (write : Bool) (l : List Nat) : M (List Nat) := do
  let m ← get
  xlateChecked (l.map (fun a => (a, if write then Acc.write else Acc.read, vaFails m n write a)))

/-- Numbers in ascending order, each once. -/
def sortUp : List Nat → List Nat
  | [] => []
  | a :: l => ins a (sortUp l)
where
  ins (a : Nat) : List Nat → List Nat
    | [] => [a]
    | b :: l => if a < b then a :: b :: l else if a = b then b :: l else b :: ins a l

/-- Later bytes stand over earlier ones at the same address. -/
def lastWins (l : List (Nat × Nat)) : List (Nat × Nat) := l.foldl (fun r c => r.filter (fun d => d.1 != c.1) ++ [c]) []

/-- Stores at the banks in order; the acknowledgement follows. -/
def bankStores : List (Nat × List Nat) → M Unit
  | [] => do
    roomSt
    change ackLater
  | (a, v) :: l => do
    spWrite a v
    bankStores l

/-! ## Vector memory (R236, R237) -/

def strideUse (x : VW) : Bool := bitAt x.sub 0

/-- What a vector memory instruction reads besides its data. -/
def vmemUse (x : VW) (index : Bool) (s : Slot) : List Rng × List (BitVec 8 × Acc) :=
  (mRng (mkOf x) ++ gRng s x.a ++ (if index then vActive s x.b (mkOf x) s.vlanes else if strideUse x then gRng s x.b else []),
   (x.a, .read) :: (if !index && strideUse x then [(x.b, .read)] else []))

/-- The element and its size in bytes. -/
def memElt (x : VW) : Elt := eltOf x.it x.fd
def memSize (x : VW) : Nat := (memElt x).width / 8

/-- The lanes and addresses of an instruction, after its operands have been read and its views checked. -/
def lanesOf (x : VW) (index : Bool) : M (List (Nat × Nat)) := do
  vChecks (x.d :: (if index then [x.b] else [])) [memElt x]
  let a ← rdG x.a
  let base := addImm16 a x.imm16
  if index then
    let s ← mine id
    pure (indexAddrs s (mkOf x) base x.b (memSize x))
  else
    let step : Int ← if strideUse x then (do let b ← rdG x.b; pure (sx 64 b)) else pure (memSize x : Int)
    let s ← mine id
    pure (laneAddrs s (mkOf x) base step)

/-- Loads at the banks. -/
def bankLoad (x : VW) (index : Bool) : M Unit :=
  issue x.h x.a x.b (fun s => { rd := (vmemUse x index s).1, pops := (vmemUse x index s).2 }) do
    accessGate
    let ls ← lanesOf x index
    bankCheck (memSize x) (ls.map (·.2))
    countLd true
    let vals ← bankReads (memSize x) (ls.map (·.2))
    let s ← mine id
    setLand .load (known (vCells s x.d x.zm (s.laneActive (mkOf x)) (fun l =>
      (memElt x).place s.vew (ofLE (vals.getD ((ls.map (·.1)).idxOf l) [])))))
    pure none
/-- Stores at the banks. -/
def bankStore (x : VW) (index : Bool) : M Unit :=
  issue x.h x.a x.b (fun s => {
      rd := (vmemUse x index s).1 ++ vActive s x.d (mkOf x) s.vlanes
      pops := (vmemUse x index s).2 }) do
    accessGate
    let ls ← lanesOf x index
    bankCheck (memSize x) (ls.map (·.2))
    let s ← mine id
    bankStores (ls.map (fun l => (l.2, toLE (memSize x) ((memElt x).clean (s.lane x.d l.1)))))
    pure none

/-- VLD. -/
def execVld (x : VW) : State → Host.Outcome State Fault Refusal := run (bankLoad x false)
/-- VST. -/
def execVst (x : VW) : State → Host.Outcome State Fault Refusal := run (bankStore x false)
/-- VLDW. -/
def execVldw (x : VW) : State → Host.Outcome State Fault Refusal := run (bankLoad x true)
/-- VSTW. -/
def execVstw (x : VW) : State → Host.Outcome State Fault Refusal := run (bankStore x true)

/-- Number of `f`-cells before lane `l` in the destination, where the cells of lane `l` begin. -/
def cellIndex (s : Slot) (zm : Bool) (k l : Nat) : Nat :=
  ((List.range l).filter (fun j => zm || s.laneActive k j)).length * s.vew

/-- VLDG: one request for each line, in ascending line order. -/
def execVldg (x : VW) : State → Host.Outcome State Fault Refusal :=
  let strong := bitAt x.sub 1
  run <| issue x.h x.a x.b (fun s => { rd := (vmemUse x false s).1, pops := (vmemUse x false s).2 }) do
    accessGate
    let ls ← lanesOf x false
    let pas ← vaCheck (memSize x) false (ls.map (·.2))
    countLd true
    let s ← mine id
    let k := mkOf x
    let cells := ((List.range s.vcap).map (fun l =>
      let at_ := (List.range s.vew).map (s.vbyte (vNo x.d) l + ·)
      if s.laneActive k l then at_.map (fun a => (a, none)) else if x.zm then at_.map (fun a => (a, some 0)) else [])).flatten
    let id ← landCells .load cells
    let ps := List.zip (ls.map (·.1)) pas
    change (fun m => (sortUp (pas.map (· / 128))).foldl (fun m line =>
      startLine ((ps.filter (fun p => p.2 / 128 == line)).map (fun p => Part.mk p.2 (memSize x) (cellIndex s x.zm k p.1) s.vew (memElt x).low))
        (memElt x).signed strong false x.h.ch.toNat id m) m)
    pure none
/-- VSTG: the lanes' bytes line by line, weak or strong. -/
def execVstg (x : VW) : State → Host.Outcome State Fault Refusal :=
  let strong := bitAt x.sub 1
  run <| issue x.h x.a x.b (fun s => {
      rd := (vmemUse x false s).1 ++ vActive s x.d (mkOf x) s.vlanes
      pops := (vmemUse x false s).2 }) do
    accessGate
    let ls ← lanesOf x false
    let pas ← vaCheck (memSize x) true (ls.map (·.2))
    let s ← mine id
    if ls.isEmpty then
      roomSt
      change ackLater
      pure none
    else
      let t ← countStore
      let bytes := lastWins ((List.zip (ls.map (·.1)) pas).map (fun p => cellsAt p.2 (toLE (memSize x) ((memElt x).clean (s.lane x.d p.1))))).flatten
      change (fun m => (sortUp (bytes.map (·.1 / 128))).foldl (fun m line =>
        let l := bytes.filter (fun c => c.1 / 128 == line)
        if strong then strongStoreT m.cur t x.h.ch.toNat l m else weakStoreT m.cur t x.h.ch.toNat l m) m)
      pure none

/-! ## Tiles (R238) -/

/-- The elements of a tile in row order, and those a mask pair selects. -/
def Slot.elems (s : Slot) : List (Nat × Nat) := ((List.range (s.TR + 1)).map (fun i => (List.range (s.TC + 1)).map (fun j => (i, j)))).flatten
def Slot.activeElems (s : Slot) (k : Nat) : List (Nat × Nat) := s.elems.filter (fun e => s.elemActive k e.1 e.2)
def Slot.elemNum (s : Slot) (b : BitVec 8) (i j : Nat) : Nat := ofLE (s.bytes (s.tbyte (tNo b) i j) s.tew)

def elemRngs (s : Slot) (b : BitVec 8) (l : List (Nat × Nat)) : List Rng := inFile (l.map (fun e => (s.tbyte (tNo b) e.1 e.2, s.tew)))

/-- The bytes written to a tile among the elements `l`: `f` at the selected ones, zeros at the others under .z. -/
def tCells (s : Slot) (b : BitVec 8) (zm : Bool) (l : List (Nat × Nat)) (on : Nat × Nat → Bool) (f : Nat × Nat → Nat) : List (Nat × Nat) :=
  (l.map (fun e => if on e then cellsAt (s.tbyte (tNo b) e.1 e.2) (toLE s.tew (f e))
    else if zm then cellsAt (s.tbyte (tNo b) e.1 e.2) (List.replicate s.tew 0) else [])).flatten

/-- Destination ranges of a tile instruction. -/
def tDest (s : Slot) (x : VW) : List Rng := if x.zm then tRng s x.d else elemRngs s x.d (s.activeElems (mkOf x))

/-- The offsets of the active elements of a tile access, checked. -/
def tileAddrs (x : VW) : M (List ((Nat × Nat) × Nat)) := do
  accessGate
  tCheck x.d
  let a ← rdG x.a
  let b ← rdG x.b
  let s ← mine id
  let base := addImm16 a x.imm16
  trapIf (base % s.tew != 0) 0x14 base
  trapIf (b % s.tew != 0) 0x14 ((base + b) % 2 ^ 64)
  let l := (s.activeElems (mkOf x)).map (fun e => (e, (base + e.1 * b + e.2 * s.tew) % 2 ^ 64))
  bankCheck s.tew (l.map (·.2))
  pure l

/-- TLD. -/
def execTld (x : VW) : State → Host.Outcome State Fault Refusal :=
  run <| issue x.h x.a x.b (fun s => { rd := mRng (mkOf x) ++ gRng s x.a ++ gRng s x.b, pops := [(x.a, .read), (x.b, .read)] }) do
    let l ← tileAddrs x
    countLd true
    let s ← mine id
    let vals ← bankReads s.tew (l.map (·.2))
    setLand .load (known (tCells s x.d x.zm s.elems (fun e => s.elemActive (mkOf x) e.1 e.2) (fun e =>
      ofLE (vals.getD ((l.map (·.1)).idxOf e) []))))
    pure none
/-- TST. -/
def execTst (x : VW) : State → Host.Outcome State Fault Refusal :=
  run <| issue x.h x.a x.b (fun s => {
      rd := mRng (mkOf x) ++ gRng s x.a ++ gRng s x.b ++ elemRngs s x.d (s.activeElems (mkOf x))
      pops := [(x.a, .read), (x.b, .read)] }) do
    let l ← tileAddrs x
    let s ← mine id
    bankStores (l.map (fun e => (e.2, toLE s.tew (s.elemNum x.d e.1.1 e.1.2))))
    pure none
/-- TTR. -/
def execTtr (x : VW) : State → Host.Outcome State Fault Refusal :=
  run <| issue x.h x.a x.b (fun s => {
      rd := mRng (mkOf x) ++ elemRngs s x.a ((s.activeElems (mkOf x)).map (fun e => (e.2, e.1))) }) do
    tCheck x.d
    tCheck x.a
    let s ← mine id
    trapIf (s.TR != s.TC) 0x11 0
    setLand .ready (known (tCells s x.d x.zm s.elems (fun e => s.elemActive (mkOf x) e.1 e.2) (fun e => s.elemNum x.a e.2 e.1)))
    pure none
/-- TMOV. -/
def execTmov (x : VW) : State → Host.Outcome State Fault Refusal :=
  run <| issue x.h x.a x.b (fun s => {
      rd := mRng (mkOf x) ++ elemRngs s x.a (s.activeElems (mkOf x))
      wr := tDest s x }) do
    tCheck x.d
    tCheck x.a
    let s ← mine id
    setFixed 4 (tCells s x.d x.zm s.elems (fun e => s.elemActive (mkOf x) e.1 e.2) (fun e => s.elemNum x.a e.1 e.2))
    pure none
/-- The checks of R21 and R23 on registers that only an operand popped in the word names. -/
def lateUse (rd wr : List Rng) : M Unit := do
  let s ← mine id
  trapIf (s.schk && s.underrun rd) 0x03 0
  match rd.find? (fun r => s.interlocked [r]) with
  | some r => block (.register r.1 r.2)
  | none => match wr.find? (fun r => s.pendingTo [r]) with
    | some r => block (.register r.1 r.2)
    | none => pure ()

/-- The elements of row `r` that TMOV reads: those of the active lanes (R47). -/
def tvReads (x : VW) (s : Slot) (r : Nat) : List Rng :=
  elemRngs s x.a (((activeLanes s (mkOf x)).filter (· ≤ s.TC)).map (fun j => (r, j)))

/-- TMOV from a tile row to a vector. -/
def execTmovTv (x : VW) : State → Host.Outcome State Fault Refusal :=
  run <| issue x.h x.a x.b (fun s => {
      rd := mRng (mkOf x) ++ gRng s x.b ++ (if (s.stream x.b).isSome then [] else tvReads x s (s.g (gNo x.b)))
      wr := vDest s x.d (mkOf x) x.zm
      pops := [(x.b, .read)] }) do
    vChecks [x.d] []
    tCheck x.a
    let r ← rdG x.b
    let s ← mine id
    lateUse (tvReads x s r) []
    trapIf (s.vew != s.tew) 0x10 0
    trapIf (decide (s.TR < r)) 0x11 0
    setFixed 4 (vCells s x.d x.zm (fun l => s.laneActive (mkOf x) l && decide (l ≤ s.TC)) (fun l => s.elemNum x.a r l))
    pure none
/-- The columns of row `r` that a move from a vector writes with lanes (R47, R238), and what it reads and writes. -/
def vtLanes (x : VW) (s : Slot) (r : Nat) : List Nat :=
  (List.range (s.TC + 1)).filter (fun j => decide (j < s.vlanes) && s.elemActive (mkOf x) r j)
def vtReads (x : VW) (s : Slot) (r : Nat) : List Rng := (vtLanes x s r).map (fun j => (s.vbyte (vNo x.a) j, s.vew))
def vtWrites (x : VW) (s : Slot) (r : Nat) : List Rng :=
  elemRngs s x.d ((if x.zm then List.range (s.TC + 1) else vtLanes x s r).map (fun j => (r, j)))

/-- TMOV from a vector to a tile row: MK and ZM act on the elements of that row. -/
def execTmovVt (x : VW) : State → Host.Outcome State Fault Refusal :=
  run <| issue x.h x.a x.b (fun s => {
      rd := mRng (mkOf x) ++ gRng s x.b ++ (if (s.stream x.b).isSome then [] else vtReads x s (s.g (gNo x.b)))
      wr := if (s.stream x.b).isSome then [] else vtWrites x s (s.g (gNo x.b))
      pops := [(x.b, .read)] }) do
    tCheck x.d
    vChecks [x.a] []
    let r ← rdG x.b
    let s ← mine id
    lateUse (vtReads x s r) (vtWrites x s r)
    trapIf (s.vew != s.tew) 0x10 0
    trapIf (decide (s.TR < r)) 0x11 0
    setFixed 4 (tCells s x.d x.zm ((List.range (s.TC + 1)).map (fun j => (r, j)))
      (fun e => decide (e.2 < s.vlanes) && s.elemActive (mkOf x) e.1 e.2) (fun e => s.lane x.a e.2))
    pure none
/-- TZERO. -/
def execTzero (x : VW) : State → Host.Outcome State Fault Refusal :=
  run <| issue x.h x.a x.b (fun s => { rd := mRng (mkOf x), wr := tDest s x }) do
    tCheck x.d
    let s ← mine id
    setFixed 4 (tCells s x.d x.zm s.elems (fun e => s.elemActive (mkOf x) e.1 e.2) (fun _ => 0))
    pure none

end Sys2Proof.Machine
end

