-- ==== Sys2Proof/Machine/Dispatch.lean ====
section
/-! DEFINITION. The dispatch: one arm per instruction and per device step, each one call of its meaning. -/
namespace Sys2Proof.Machine

def exec (i : Instr) (s : State) : Host.Outcome State Fault Refusal :=
  match i with
  | .ill => Sys2Proof.Machine.execIll s
  | .add x => Sys2Proof.Machine.execAdd x s
  | .addi x => Sys2Proof.Machine.execAddi x s
  | .sub x => Sys2Proof.Machine.execSub x s
  | .mul x => Sys2Proof.Machine.execMul x s
  | .mulh x => Sys2Proof.Machine.execMulh x s
  | .div x => Sys2Proof.Machine.execDiv x s
  | .rem x => Sys2Proof.Machine.execRem x s
  | .mac x => Sys2Proof.Machine.execMac x s
  | .and x => Sys2Proof.Machine.execAnd x s
  | .or x => Sys2Proof.Machine.execOr x s
  | .xor x => Sys2Proof.Machine.execXor x s
  | .andn x => Sys2Proof.Machine.execAndn x s
  | .shl x => Sys2Proof.Machine.execShl x s
  | .shr x => Sys2Proof.Machine.execShr x s
  | .sar x => Sys2Proof.Machine.execSar x s
  | .rotl x => Sys2Proof.Machine.execRotl x s
  | .min x => Sys2Proof.Machine.execMin x s
  | .max x => Sys2Proof.Machine.execMax x s
  | .cmp x => Sys2Proof.Machine.execCmp x s
  | .cmpi x => Sys2Proof.Machine.execCmpi x s
  | .plog x => Sys2Proof.Machine.execPlog x s
  | .sel x => Sys2Proof.Machine.execSel x s
  | .mov x => Sys2Proof.Machine.execMov x s
  | .movi x => Sys2Proof.Machine.execMovi x s
  | .ldlit x => Sys2Proof.Machine.execLdlit x s
  | .clz x => Sys2Proof.Machine.execClz x s
  | .popc x => Sys2Proof.Machine.execPopc x s
  | .bfx x => Sys2Proof.Machine.execBfx x s
  | .bfi x => Sys2Proof.Machine.execBfi x s
  | .lea x => Sys2Proof.Machine.execLea x s
  | .fold x => Sys2Proof.Machine.execFold x s
  | .nop x => Sys2Proof.Machine.execNop x s
  | .br x => Sys2Proof.Machine.execBr x s
  | .bri x => Sys2Proof.Machine.execBri x s
  | .call x => Sys2Proof.Machine.execCall x s
  | .calli x => Sys2Proof.Machine.execCalli x s
  | .ret x => Sys2Proof.Machine.execRet x s
  | .loop x => Sys2Proof.Machine.execLoop x s
  | .rep x => Sys2Proof.Machine.execRep x s
  | .exit x => Sys2Proof.Machine.execExit x s
  | .yield x => Sys2Proof.Machine.execYield x s
  | .waitev x => Sys2Proof.Machine.execWaitev x s
  | .sleep x => Sys2Proof.Machine.execSleep x s
  | .cometLead x => Sys2Proof.Machine.execCometLead x s
  | .cometJoin x => Sys2Proof.Machine.execCometJoin x s
  | .cometEnd x => Sys2Proof.Machine.execCometEnd x s
  | .detach x => Sys2Proof.Machine.execDetach x s
  | .rejoin x => Sys2Proof.Machine.execRejoin x s
  | .trap x => Sys2Proof.Machine.execTrap x s
  | .brk x => Sys2Proof.Machine.execBrk x s
  | .assert x => Sys2Proof.Machine.execAssert x s
  | .rte x => Sys2Proof.Machine.execRte x s
  | .sysrd x => Sys2Proof.Machine.execSysrd x s
  | .syswr x => Sys2Proof.Machine.execSyswr x s
  | .time x => Sys2Proof.Machine.execTime x s
  | .cycles x => Sys2Proof.Machine.execCycles x s
  | .beat x => Sys2Proof.Machine.execBeat x s
  | .view x => Sys2Proof.Machine.execView x s
  | .sbind x => Sys2Proof.Machine.execSbind x s
  | .sunbind x => Sys2Proof.Machine.execSunbind x s
  | .sstat x => Sys2Proof.Machine.execSstat x s
  | .ifence x => Sys2Proof.Machine.execIfence x s
  | .prefi x => Sys2Proof.Machine.execPrefi x s
  | .prio x => Sys2Proof.Machine.execPrio x s
  | .slotcfg x => Sys2Proof.Machine.execSlotcfg x s
  | .ld x => Sys2Proof.Machine.execLd x s
  | .st x => Sys2Proof.Machine.execSt x s
  | .lds x => Sys2Proof.Machine.execLds x s
  | .sts x => Sys2Proof.Machine.execSts x s
  | .ldx x => Sys2Proof.Machine.execLdx x s
  | .stx x => Sys2Proof.Machine.execStx x s
  | .pf x => Sys2Proof.Machine.execPf x s
  | .l1inv x => Sys2Proof.Machine.execL1inv x s
  | .l1invr x => Sys2Proof.Machine.execL1invr x s
  | .cwait x => Sys2Proof.Machine.execCwait x s
  | .movblk x => Sys2Proof.Machine.execMovblk x s
  | .fillblk x => Sys2Proof.Machine.execFillblk x s
  | .atomAdd x => Sys2Proof.Machine.execAtomAdd x s
  | .atomMin x => Sys2Proof.Machine.execAtomMin x s
  | .atomMax x => Sys2Proof.Machine.execAtomMax x s
  | .atomAnd x => Sys2Proof.Machine.execAtomAnd x s
  | .atomOr x => Sys2Proof.Machine.execAtomOr x s
  | .atomXor x => Sys2Proof.Machine.execAtomXor x s
  | .atomXchg x => Sys2Proof.Machine.execAtomXchg x s
  | .atomCas x => Sys2Proof.Machine.execAtomCas x s
  | .atomInc x => Sys2Proof.Machine.execAtomInc x s
  | .atomFadd x => Sys2Proof.Machine.execAtomFadd x s
  | .redAdd x => Sys2Proof.Machine.execRedAdd x s
  | .redMin x => Sys2Proof.Machine.execRedMin x s
  | .redMax x => Sys2Proof.Machine.execRedMax x s
  | .redLog x => Sys2Proof.Machine.execRedLog x s
  | .redFadd x => Sys2Proof.Machine.execRedFadd x s
  | .capgive x => Sys2Proof.Machine.execCapgive x s
  | .captake x => Sys2Proof.Machine.execCaptake x s
  | .capq x => Sys2Proof.Machine.execCapq x s
  | .hgive x => Sys2Proof.Machine.execHgive x s
  | .hfree x => Sys2Proof.Machine.execHfree x s
  | .fork x => Sys2Proof.Machine.execFork x s
  | .join x => Sys2Proof.Machine.execJoin x s
  | .joinm x => Sys2Proof.Machine.execJoinm x s
  | .spawn x => Sys2Proof.Machine.execSpawn x s
  | .launch x => Sys2Proof.Machine.execLaunch x s
  | .taskid x => Sys2Proof.Machine.execTaskid x s
  | .stealdom x => Sys2Proof.Machine.execStealdom x s
  | .dqstat x => Sys2Proof.Machine.execDqstat x s
  | .bari x => Sys2Proof.Machine.execBari x s
  | .bariFree x => Sys2Proof.Machine.execBariFree x s
  | .bara x => Sys2Proof.Machine.execBara x s
  | .barw x => Sys2Proof.Machine.execBarw x s
  | .semp x => Sys2Proof.Machine.execSemp x s
  | .semw x => Sys2Proof.Machine.execSemw x s
  | .twait x => Sys2Proof.Machine.execTwait x s
  | .tread x => Sys2Proof.Machine.execTread x s
  | .tset x => Sys2Proof.Machine.execTset x s
  | .gnode x => Sys2Proof.Machine.execGnode x s
  | .gsub x => Sys2Proof.Machine.execGsub x s
  | .gqry x => Sys2Proof.Machine.execGqry x s
  | .publish x => Sys2Proof.Machine.execPublish x s
  | .subscr x => Sys2Proof.Machine.execSubscr x s
  | .stopref x => Sys2Proof.Machine.execStopref x s
  | .refchk x => Sys2Proof.Machine.execRefchk x s
  | .settlw x => Sys2Proof.Machine.execSettlw x s
  | .evpop x => Sys2Proof.Machine.execEvpop x s
  | .evwait x => Sys2Proof.Machine.execEvwait x s
  | .evpush x => Sys2Proof.Machine.execEvpush x s
  | .qfence x => Sys2Proof.Machine.execQfence x s
  | .dpath x => Sys2Proof.Machine.execDpath x s
  | .pchk x => Sys2Proof.Machine.execPchk x s
  | .wdcfg x => Sys2Proof.Machine.execWdcfg x s
  | .evcfg x => Sys2Proof.Machine.execEvcfg x s
  | .vclaim x => Sys2Proof.Machine.execVclaim x s
  | .vrel x => Sys2Proof.Machine.execVrel x s
  | .vreneg x => Sys2Proof.Machine.execVreneg x s
  | .vadd x => Sys2Proof.Machine.execVadd x s
  | .vsub x => Sys2Proof.Machine.execVsub x s
  | .vmul x => Sys2Proof.Machine.execVmul x s
  | .vfma x => Sys2Proof.Machine.execVfma x s
  | .vmin x => Sys2Proof.Machine.execVmin x s
  | .vmax x => Sys2Proof.Machine.execVmax x s
  | .vabs x => Sys2Proof.Machine.execVabs x s
  | .vneg x => Sys2Proof.Machine.execVneg x s
  | .vand x => Sys2Proof.Machine.execVand x s
  | .vor x => Sys2Proof.Machine.execVor x s
  | .vxor x => Sys2Proof.Machine.execVxor x s
  | .vshl x => Sys2Proof.Machine.execVshl x s
  | .vshr x => Sys2Proof.Machine.execVshr x s
  | .vcmp x => Sys2Proof.Machine.execVcmp x s
  | .vsel x => Sys2Proof.Machine.execVsel x s
  | .vmov x => Sys2Proof.Machine.execVmov x s
  | .vbcast x => Sys2Proof.Machine.execVbcast x s
  | .vreduce x => Sys2Proof.Machine.execVreduce x s
  | .vscan x => Sys2Proof.Machine.execVscan x s
  | .vfmas x => Sys2Proof.Machine.execVfmas x s
  | .vmulh x => Sys2Proof.Machine.execVmulh x s
  | .vsat x => Sys2Proof.Machine.execVsat x s
  | .vcx x => Sys2Proof.Machine.execVcx x s
  | .vperm x => Sys2Proof.Machine.execVperm x s
  | .vcompr x => Sys2Proof.Machine.execVcompr x s
  | .vexpnd x => Sys2Proof.Machine.execVexpnd x s
  | .viota x => Sys2Proof.Machine.execViota x s
  | .vrng x => Sys2Proof.Machine.execVrng x s
  | .vmask x => Sys2Proof.Machine.execVmask x s
  | .vcvt x => Sys2Proof.Machine.execVcvt x s
  | .vcvts x => Sys2Proof.Machine.execVcvts x s
  | .vrnd x => Sys2Proof.Machine.execVrnd x s
  | .vclass x => Sys2Proof.Machine.execVclass x s
  | .vexp2 x => Sys2Proof.Machine.execVexp2 x s
  | .vlog2 x => Sys2Proof.Machine.execVlog2 x s
  | .vrcp x => Sys2Proof.Machine.execVrcp x s
  | .vrsq x => Sys2Proof.Machine.execVrsq x s
  | .vsqrt x => Sys2Proof.Machine.execVsqrt x s
  | .vdiv x => Sys2Proof.Machine.execVdiv x s
  | .vsinpi x => Sys2Proof.Machine.execVsinpi x s
  | .vcospi x => Sys2Proof.Machine.execVcospi x s
  | .vtanh x => Sys2Proof.Machine.execVtanh x s
  | .vsigm x => Sys2Proof.Machine.execVsigm x s
  | .vld x => Sys2Proof.Machine.execVld x s
  | .vst x => Sys2Proof.Machine.execVst x s
  | .vldg x => Sys2Proof.Machine.execVldg x s
  | .vstg x => Sys2Proof.Machine.execVstg x s
  | .vldw x => Sys2Proof.Machine.execVldw x s
  | .vstw x => Sys2Proof.Machine.execVstw x s
  | .tld x => Sys2Proof.Machine.execTld x s
  | .tst x => Sys2Proof.Machine.execTst x s
  | .ttr x => Sys2Proof.Machine.execTtr x s
  | .tmov x => Sys2Proof.Machine.execTmov x s
  | .tmovTv x => Sys2Proof.Machine.execTmovTv x s
  | .tmovVt x => Sys2Proof.Machine.execTmovVt x s
  | .tzero x => Sys2Proof.Machine.execTzero x s
  | .mset x => Sys2Proof.Machine.execMset x s
  | .mget x => Sys2Proof.Machine.execMget x s
  | .vpopc x => Sys2Proof.Machine.execVpopc x s
  | .vfirst x => Sys2Proof.Machine.execVfirst x s
  | .vpack x => Sys2Proof.Machine.execVpack x s
  | .vunpk x => Sys2Proof.Machine.execVunpk x s
  | .vlut x => Sys2Proof.Machine.execVlut x s
  | .cjcfg x => Sys2Proof.Machine.execCjcfg x s
  | .contract x => Sys2Proof.Machine.execContract x s
  | .drain x => Sys2Proof.Machine.execDrain x s
  | .acclr x => Sys2Proof.Machine.execAcclr x s
  | .accst x => Sys2Proof.Machine.execAccst x s
  | .isect x => Sys2Proof.Machine.execIsect x s
  | .union x => Sys2Proof.Machine.execUnion x s
  | .merge x => Sys2Proof.Machine.execMerge x s
  | .isectc x => Sys2Proof.Machine.execIsectc x s
  | .mergek x => Sys2Proof.Machine.execMergek x s
  | .kqpush x => Sys2Proof.Machine.execKqpush x s
  | .kqstat x => Sys2Proof.Machine.execKqstat x s
  | .copy x => Sys2Proof.Machine.execCopy x s
  | .copy2d x => Sys2Proof.Machine.execCopy2d x s
  | .copyk x => Sys2Proof.Machine.execCopyk x s
  | .gather x => Sys2Proof.Machine.execGather x s
  | .scatter x => Sys2Proof.Machine.execScatter x s
  | .pool x => Sys2Proof.Machine.execPool x s
  | .smv x => Sys2Proof.Machine.execSmv x s
  | .smvcfg x => Sys2Proof.Machine.execSmvcfg x s
  | .coll x => Sys2Proof.Machine.execColl x s
  | .rput x => Sys2Proof.Machine.execRput x s
  | .rget x => Sys2Proof.Machine.execRget x s
  | .ratom x => Sys2Proof.Machine.execRatom x s
  | .rred x => Sys2Proof.Machine.execRred x s
  | .pfpool x => Sys2Proof.Machine.execPfpool x s
  | .ecancel x => Sys2Proof.Machine.execEcancel x s
  | .estat x => Sys2Proof.Machine.execEstat x s
  | .cjsave x => Sys2Proof.Machine.execCjsave x s
  | .cjload x => Sys2Proof.Machine.execCjload x s
  | .spillst x => Sys2Proof.Machine.execSpillst x s
  | .evrule x => Sys2Proof.Machine.execEvrule x s
  | .evruleOff x => Sys2Proof.Machine.execEvruleOff x s
  | .lwadv x => Sys2Proof.Machine.execLwadv x s
  | .lwadd x => Sys2Proof.Machine.execLwadd x s
  | .lwset x => Sys2Proof.Machine.execLwset x s
  | .lwmax x => Sys2Proof.Machine.execLwmax x s
  | .lwarm x => Sys2Proof.Machine.execLwarm x s
  | .lwdisarm x => Sys2Proof.Machine.execLwdisarm x s
  | .lwpeek x => Sys2Proof.Machine.execLwpeek x s
  | .lwcas x => Sys2Proof.Machine.execLwcas x s
  | .lwxch x => Sys2Proof.Machine.execLwxch x s
  | .lwclr x => Sys2Proof.Machine.execLwclr x s
  | .lawOpPerform id => Sys2Proof.Machine.execLawOpPerform id s
  | .lwstep x => Sys2Proof.Machine.execLwstep x s
  | .lwdsc x => Sys2Proof.Machine.execLwdsc x s
  | .lwtime x => Sys2Proof.Machine.execLwtime x s
  | .vlwadv x => Sys2Proof.Machine.execVlwadv x s
  | .vlwadd x => Sys2Proof.Machine.execVlwadd x s
  | .lwdom x => Sys2Proof.Machine.execLwdom x s
  | .ephstat x => Sys2Proof.Machine.execEphstat x s
  | .ctxsave x => Sys2Proof.Machine.execCtxsave x s
  | .ctxload x => Sys2Proof.Machine.execCtxload x s
  | .tlbinv x => Sys2Proof.Machine.execTlbinv x s
  | .tlbinva x => Sys2Proof.Machine.execTlbinva x s
  | .fbpop x => Sys2Proof.Machine.execFbpop x s
  | .replay x => Sys2Proof.Machine.execReplay x s
  | .pmread x => Sys2Proof.Machine.execPmread x s
  | .eccinj x => Sys2Proof.Machine.execEccinj x s
  | .capset x => Sys2Proof.Machine.execCapset x s
  | .semi x => Sys2Proof.Machine.execSemi x s
  | .dqspill x => Sys2Proof.Machine.execDqspill x s
  | .sliceq x => Sys2Proof.Machine.execSliceq x s
  | .xlate x => Sys2Proof.Machine.execXlate x s
  | .lwscan x => Sys2Proof.Machine.execLwscan x s
  | .hcall x => Sys2Proof.Machine.execHcall x s
  | .interlockLand k => Sys2Proof.Machine.execInterlockLand k s
  | .loadLand k => Sys2Proof.Machine.execLoadLand k s
  | .storeAck id => Sys2Proof.Machine.execStoreAck id s
  | .atomicComplete id => Sys2Proof.Machine.execAtomicComplete id s
  | .lawOpComplete id => Sys2Proof.Machine.execLawOpComplete id s
  | .wcbEntryTimeout core => Sys2Proof.Machine.execWcbEntryTimeout core s
  | .sliceRequest id => Sys2Proof.Machine.execSliceRequest id s
  | .l2Fill line => Sys2Proof.Machine.execL2Fill line s
  | .l1Fill id => Sys2Proof.Machine.execL1Fill id s
  | .cxlCompletion id => Sys2Proof.Machine.execCxlCompletion id s
  | .cxlTimeout id => Sys2Proof.Machine.execCxlTimeout id s
  | .peerInvalidation line => Sys2Proof.Machine.execPeerInvalidation line s
  | .spanDeviceLeave device => Sys2Proof.Machine.execSpanDeviceLeave device s
  | .hostBar2Read addr len => Sys2Proof.Machine.execHostBar2Read addr len s
  | .hostBar2Write addr bytes => Sys2Proof.Machine.execHostBar2Write addr bytes s
  | .bar4Write off bytes => Sys2Proof.Machine.execBar4Write off bytes s
  | .tlbMiss k granule => Sys2Proof.Machine.execTlbMiss k granule s
  | .pageWalkEnd die asid granule => Sys2Proof.Machine.execPageWalkEnd die asid granule s
  | .poisonRead k addr => Sys2Proof.Machine.execPoisonRead k addr s
  | .softErrorDetected place at_ corrected => Sys2Proof.Machine.execSoftErrorDetected place at_ corrected s
  | .ephemerisFire u place => Sys2Proof.Machine.execEphemerisFire u place s
  | .eventRecordDeliver n => Sys2Proof.Machine.execEventRecordDeliver n s
  | .evqRingRefill k => Sys2Proof.Machine.execEvqRingRefill k s
  | .eventPortFrame port frame fcsOk => Sys2Proof.Machine.execEventPortFrame port frame fcsOk s
  | .ingestOperation n => Sys2Proof.Machine.execIngestOperation n s
  | .ptpMessage port v6 lead offset ppm faster => Sys2Proof.Machine.execPtpMessage port v6 lead offset ppm faster s
  | .ptpDelayReq port v6 => Sys2Proof.Machine.execPtpDelayReq port v6 s
  | .gpCommandComplete id => Sys2Proof.Machine.execGpCommandComplete id s
  | .gpRowFault id => Sys2Proof.Machine.execGpRowFault id s
  | .copyComplete id => Sys2Proof.Machine.execCopyComplete id s
  | .smvComplete id => Sys2Proof.Machine.execSmvComplete id s
  | .setOpComplete id => Sys2Proof.Machine.execSetOpComplete id s
  | .remoteCommandComplete id => Sys2Proof.Machine.execRemoteCommandComplete id s
  | .collResult id others late => Sys2Proof.Machine.execCollResult id others late s
  | .collSwitchTimeout id => Sys2Proof.Machine.execCollSwitchTimeout id s
  | .collRingTimeout id => Sys2Proof.Machine.execCollRingTimeout id s
  | .contractPreemptTimeout k => Sys2Proof.Machine.execContractPreemptTimeout k s
  | .tileNotice n => Sys2Proof.Machine.execTileNotice n s
  | .fireRetry cluster idx => Sys2Proof.Machine.execFireRetry cluster idx s
  | .taskStart k => Sys2Proof.Machine.execTaskStart k s
  | .stealRound k => Sys2Proof.Machine.execStealRound k s
  | .stealBackoffExpire k => Sys2Proof.Machine.execStealBackoffExpire k s
  | .stealRequest k => Sys2Proof.Machine.execStealRequest k s
  | .joinDecrement n => Sys2Proof.Machine.execJoinDecrement n s
  | .packetParse c q => Sys2Proof.Machine.execPacketParse c q s
  | .gangPlace c q => Sys2Proof.Machine.execGangPlace c q s
  | .launchReserveTimeout c q => Sys2Proof.Machine.execLaunchReserveTimeout c q s
  | .fenceCondition c q => Sys2Proof.Machine.execFenceCondition c q s
  | .gangComplete gang => Sys2Proof.Machine.execGangComplete gang s
  | .nodeFinish cluster node => Sys2Proof.Machine.execNodeFinish cluster node s
  | .watchdogExpire gang => Sys2Proof.Machine.execWatchdogExpire gang s
  | .agingRaise k => Sys2Proof.Machine.execAgingRaise k s
  | .laneGrant octet => Sys2Proof.Machine.execLaneGrant octet s
  | .semaphoreServe c pair sem => Sys2Proof.Machine.execSemaphoreServe c pair sem s
  | .waitRelease k => Sys2Proof.Machine.execWaitRelease k s
  | .cometForm k => Sys2Proof.Machine.execCometForm k s
  | .preemptByClass c q victim => Sys2Proof.Machine.execPreemptByClass c q victim s
  | .stopComplete c => Sys2Proof.Machine.execStopComplete c s
  | .create => Sys2Proof.Machine.execCreate s
  | .destroy => Sys2Proof.Machine.execDestroy s
  | .stop => Sys2Proof.Machine.execStop s
  | .stopsave => Sys2Proof.Machine.execStopsave s
  | .resume => Sys2Proof.Machine.execResume s
  | .kill => Sys2Proof.Machine.execKill s
  | .hostReplay => Sys2Proof.Machine.execHostReplay s
  | .gangres => Sys2Proof.Machine.execGangres s
  | .gangkill => Sys2Proof.Machine.execGangkill s
  | .qreset => Sys2Proof.Machine.execQreset s
  | .reply => Sys2Proof.Machine.execReply s
  | .poolmap => Sys2Proof.Machine.execPoolmap s
  | .erxring => Sys2Proof.Machine.execErxring s
  | .nring => Sys2Proof.Machine.execNring s
  | .setcap => Sys2Proof.Machine.execSetcap s
  | .attest => Sys2Proof.Machine.execAttest s
  | .fwstage => Sys2Proof.Machine.execFwstage s
  | .fwcommit => Sys2Proof.Machine.execFwcommit s
  | .epcfg => Sys2Proof.Machine.execEpcfg s
  | .unknownCommand code => Sys2Proof.Machine.execUnknownCommand code s
  | .dbellWrite c q value size => Sys2Proof.Machine.execDbellWrite c q value size s
  | .fbpophRead c size => Sys2Proof.Machine.execFbpophRead c size s
  | .registerWrite off value => Sys2Proof.Machine.execRegisterWrite off value s
  | .powerCapWindow window => Sys2Proof.Machine.execPowerCapWindow window s
  | .thermalEvent die temp inlet => Sys2Proof.Machine.execThermalEvent die temp inlet s
  | .powerLoss cause => Sys2Proof.Machine.execPowerLoss cause s
  | .powerOn report => Sys2Proof.Machine.execPowerOn report s
  | .fullService => Sys2Proof.Machine.execFullService s
  | .pcieLinkDown => Sys2Proof.Machine.execPcieLinkDown s
  | .nconsWrite value => Sys2Proof.Machine.execNconsWrite value s
  | .pcieLinkUp => Sys2Proof.Machine.execPcieLinkUp s
  | .spanDeviceJoin device => Sys2Proof.Machine.execSpanDeviceJoin device s
  | .collPartialResult id others => Sys2Proof.Machine.execCollPartialResult id others s
  | .powerCapEffecterWrite watts => Sys2Proof.Machine.execPowerCapEffecterWrite watts s

end Sys2Proof.Machine
end

