-- ==== Sys2Proof/Machine/Sched.lean ====
section
/-! DEFINITION. Which agent moves next, and the execution of a slot's next word (R11, R16, R81, R83, R114, R271, R361, R365; log entry 1). -/
namespace Sys2Proof.Machine

/-! ## The execution of a word -/

/-- Opcodes that issue in reduced service (R365). -/
def reducedOpcode (op : Nat) : Bool := decide (op ≤ 0x5F) || decide (0x80 ≤ op) && decide (op ≤ 0xBF)

/-- Has every following follower issued the words that are due to it, so that the leader may issue; or, for a follower, is its first word due,
and is its leader not in a handler (R83)? -/
def lagOk (m : Mach) (k : Nat) : Bool := match (m.slot k).comet with
  | some (.leader ms _ _) => (m.slot k).inh || ms.all (fun j => match (m.slot j).comet with
    | some (.follower l (f :: _)) => l != k || decide (m.cyc < f.due)
    | _ => true)
  | some (.follower l q) => q.head?.any (fun f => decide (f.due ≤ m.cyc)) && !(leads m l k && (m.slot l).inh)
  | _ => true

/-- May the slot issue (R271, R346)? It runs a task, is enabled, is not stopped, and does not wait. -/
def ready (m : Mach) (k : Nat) : Bool :=
  let s := m.slot k
  let c := m.ctx s.ctx
  s.run == .running && s.task.isSome && s.enabled && c.st == .running && (c.pre.isNone && !gangStops m k || midGroup m k) && lagOk m k
    && (match s.wait with
      | none => true
      | some w => waitHolds m k w)

/-- When a core last issued. -/
def coreStamp (m : Mach) (core : Nat) : Nat := ((List.range 4).map (fun i => (m.slot (keyOf core i)).stamp)).foldl max 0

/-- Does slot `a` issue before slot `b`? On one core the higher level does, then the one that issued longer ago (R271); of two cores, the
one that issued longer ago. -/
def before (m : Mach) (a b : Nat) : Bool :=
  if coreOf a = coreOf b then
    decide ((m.slot b).shown < (m.slot a).shown) || (m.slot a).shown == (m.slot b).shown && decide ((m.slot a).stamp < (m.slot b).stamp)
  else decide (coreStamp m (coreOf a) < coreStamp m (coreOf b))

/-- The one of the slots that issues. -/
def bestOf (m : Mach) (l : List Nat) : Option Nat :=
  l.foldl (fun r k => match r with
    | none => some k
    | some j => if before m k j then some k else some j) none

/-- Slots of a core that are ready. -/
def readyOn (m : Mach) (core : Nat) : List Nat := ((List.range 4).map (keyOf core)).filter (ready m)

/-- Is it the slot that its core issues from (R271)? -/
def mayIssue (m : Mach) (k : Nat) : Bool := bestOf m (readyOn m (coreOf k)) == some k

/-- A follower whose leader goes back to the REP under way, after an interruption, goes back with it (R69, R83). -/
def Slot.again (s : Slot) (f : Fwd) : Slot := match s.rep with
  | some r => if r.pc = f.pc then s.toRep r else s
  | none => s

/-- The word a slot executes next, with the machine after its fetch: a following follower takes its leader's word (R83), any
other slot fetches at its pc (R11). -/
def fetchNext (m : Mach) : Except Stop (Nat × Mach) :=
  match m.sl.comet with
  | some (.follower _ (f :: _)) => .ok (f.word, m.updSlot m.cur (fun s => { s.again f with pc := f.pc }))
  | _ => fetchWord m.sl.pc m

/-- The word at issue in slot `cur`, with the machine after its fetch, is executed. In reduced service some wait (R365). -/
noncomputable def execWord (s : State) (w : Nat) (m : Mach) : Host.Outcome State Fault Refusal :=
  let s1 : State := { s with m := m.updSlot m.cur (fun x => { x with ir := w }) }
  if s.m.dev.red && !reducedOpcode (w % 256) then run (block .service) s1
  else match decode w with
    | some i => exec i s1
    | none => run (trap 0x01 0) s1

/-- Slot `k` executes its next word. -/
noncomputable def execNext (k : Nat) (s : State) : Host.Outcome State Fault Refusal :=
  let s0 : State := { s with m := { s.m with cur := k } }
  match fetchNext s0.m with
  | .ok (w, m) => execWord s0 w m
  | .error e => finish s0 (.error e)

/-- Would the slot's next word issue? A word that has not been tried may have to wait. -/
noncomputable def wouldIssue (s : State) (j : Nat) : Bool := match execNext j s with
  | .next t => t.m.dev.rr != s.m.dev.rr
  | _ => true

/-- The other slots of the core whose next words could have issued in `s`, when slot `k` was chosen, age if it has issued (R271, R361). -/
noncomputable def ageOthers (k : Nat) (s t : State) : State :=
  if t.m.dev.rr = s.m.dev.rr then t
  else { t with m := ((readyOn s.m (coreOf k)).filter (fun j => j != k && wouldIssue s j)).foldl (fun y j =>
    y.updSlot j (fun s => Slot.countEvent { s with age := s.age + 1 } 2)) t.m }

/-- The same, for the outcome of its execution. -/
noncomputable def aged (k : Nat) (s : State) : Host.Outcome State Fault Refusal → Host.Outcome State Fault Refusal
  | .next t => .next (ageOthers k s t)
  | .fault f => .fault f
  | .refused r => .refused r

/-- Slot `k` executes its next word, if its core issues from it. -/
noncomputable def slotStep (k : Nat) (s : State) : Host.Outcome State Fault Refusal :=
  if (s.m.slot k).task.isNone then .fault .noTask
  else if !mayIssue s.m k then .next s
  else aged k s (execNext k s)

/-! ## Time -/

/-- One nanosecond of sidereal time, and what a cycle of the arithmetic clock adds, in 1/(6 * 10^6) ns: 1.2 GHz, or 0.6 GHz in reduced service, at
the rate that PTP discipline has set (R19, R114, R365). -/
def nsUnit : Nat := 6 * 10 ^ 6
def cycleGain (d : Dev) : Nat := (if d.red then 10 else 5) * ((10 ^ 6 : Int) + d.rate).toNat

/-- `n` cycles pass; slots that wait on an interlock count them (R361), and a flash write under way ends (R366). -/
def passCycles (n : Nat) (s : State) : State :=
  let s := finishCommit s
  let m := s.m
  let t := m.dev.phase + n * cycleGain m.dev
  { s with m := { m with
      sid := (m.sid + t / nsUnit) % 2 ^ 64
      cyc := m.cyc + n
      dev := { m.dev with phase := t % nsUnit }
      slots := m.slots.map (fun e => match e.2.wait with
        | some (.register c l) => if waitHolds m e.1 (.register c l) then e else (e.1, e.2.countEvents 3 n)
        | _ => e) } }

/-- The clocks advance by the cycles in which `ns` have passed. -/
def advanceClock (ns : Nat) (s : State) : State :=
  let g := cycleGain s.m.dev
  passCycles ((ns * nsUnit - s.m.dev.phase + g - 1) / g) s

/-- The clocks advance by one cycle. -/
def advanceCycle (s : State) : State := passCycles 1 s

/-- The first whole nanosecond of sidereal time by which `cyc` shows a number. -/
def timeOfCycle (m : Mach) (c : Nat) : Nat :=
  if c ≤ m.cyc then m.sid else m.sid + (m.dev.phase + (c - m.cyc) * cycleGain m.dev + nsUnit - 1) / nsUnit

/-- The times at which something that a device waits for becomes due: deadlines of slots, ephemeris entries of free-running domains, lines on
their way from HBM (R9), words on their way to followers (R83), write-combining entries (R90), watchdogs, reservations, ring and switch timeouts,
CONTRACT groups to be stopped. -/
def dueTimes (m : Mach) : List Nat :=
  let free := fun (e : EphEntry) => if ((m.ctx e.ctx).stepped.find e.domain).isNone then some e.time else none
  List.flatten [
    m.slots.filterMap (fun e => match e.2.wait with
      | some (.until_ t) => some t
      | some (.events _ d) => d
      | some (.units _ _ t false) => some (t + 100000)
      | _ => none),
    m.slots.filterMap (fun e => e.2.backoff),
    m.slots.filterMap (fun e => match e.2.comet with
      | some (.follower _ (f :: _)) => some (timeOfCycle m f.due)
      | _ => none),
    m.reqs.filterMap (fun r => if r.st == .filling then some (timeOfCycle m (r.since + 300)) else none),
    (m.cores.map (fun c => c.2.wcb.map (fun w => timeOfCycle m (w.opened + 32)))).flatten,
    (m.octets.map (fun o => o.2.eph.filterMap free)).flatten,
    (m.slices.map (fun o => o.2.eph.filterMap free)).flatten,
    (m.gangs.map (fun g => if g.2.wd then [g.2.timer + 8000] else if g.2.wdi != 0 then [g.2.timer + 1000 * g.2.wdi] else [])).flatten,
    (m.ctxs.map (fun c => (c.2.queues.map (fun q => q.2.active.filterMap (fun a => match a.2 with
      | .placing t false => some (t + 100000)
      | _ => none))).flatten)).flatten,
    (m.cmds.map (fun c => [c.issued + 200000, c.issued + 10000000])).flatten,
    m.ctxs.filterMap (fun c => if c.2.pre.isSome then some (c.2.preAt + 8000) else none)]

/-- How far the clock advances when nothing else happens: to the first of these times, by 1 ns when there is none. -/
def idleNs (m : Mach) : Nat := match (dueTimes m).filter (fun t => decide (m.sid < t)) with
  | [] => 1
  | t :: l => l.foldl min t - m.sid

/-! ## The default order (log entry 1) -/

/-- Steps for one request under way. -/
noncomputable def reqSteps (r : Req) : List Instr :=
  [Instr.sliceRequest r.id, Instr.l2Fill ⟨r.id, []⟩, Instr.lawOpPerform r.id, Instr.cxlCompletion r.id, Instr.atomicComplete r.id,
    Instr.lawOpComplete r.id, Instr.storeAck r.id, Instr.l1Fill r.id]

/-- Steps for one engine command. -/
noncomputable def cmdSteps (c : Cmd) : List Instr :=
  [Instr.copyComplete c.id, Instr.gpCommandComplete c.id, Instr.gpRowFault c.id, Instr.smvComplete c.id, Instr.setOpComplete c.id,
    Instr.remoteCommandComplete c.id, Instr.collRingTimeout c.id, Instr.collSwitchTimeout c.id]

/-- Steps for messages on their way. -/
noncomputable def messageSteps (m : Mach) : List Instr :=
  List.flatten [(List.range m.notices.length).map Instr.tileNotice, (List.range m.records.length).map Instr.eventRecordDeliver,
    (List.range m.ingests.length).map Instr.ingestOperation, (List.range m.decs.length).map Instr.joinDecrement]

/-- Steps for one slot. -/
noncomputable def slotSteps (m : Mach) (k : Nat) : List Instr :=
  List.flatten [[Instr.interlockLand k, Instr.loadLand k, Instr.evqRingRefill k, Instr.cometForm k, Instr.taskStart k, Instr.agingRaise k,
      Instr.contractPreemptTimeout k],
    (m.slot k).look.map (fun l => Instr.tlbMiss k l.granule)]

/-- Steps by which free slots steal (R267). -/
noncomputable def stealSteps (m : Mach) : List Instr :=
  (m.slots.map (fun e => [Instr.stealRequest e.1, Instr.stealRound e.1, Instr.stealBackoffExpire e.1])).flatten

/-- Steps of firing units. -/
noncomputable def fireSteps (m : Mach) : List Instr :=
  List.flatten [(m.octets.map (fun o => o.2.eph.map (fun e => Instr.ephemerisFire (2 * o.1 + 1) e.place))).flatten,
    (m.slices.map (fun o => o.2.eph.map (fun e => Instr.ephemerisFire (2 * o.1) e.place))).flatten,
    (m.clusters.map (fun u => u.2.subs.map (fun s => Instr.fireRetry u.1 s.1))).flatten,
    (m.clusters.map (fun u => u.2.nodes.map (fun n => Instr.nodeFinish u.1 n.1))).flatten]

/-- Steps of walkers, buffers, lane pools and semaphores. -/
noncomputable def coreSteps (m : Mach) : List Instr :=
  List.flatten [(m.dies.map (fun d => d.2.walks.map (fun w => Instr.pageWalkEnd d.1 w.asid w.granule))).flatten,
    m.cores.map (fun c => Instr.wcbEntryTimeout c.1), m.octets.map (fun o => Instr.laneGrant o.1),
    (m.pairs.map (fun p => (List.range 8).map (fun i => Instr.semaphoreServe (p.1 / 8192) (p.1 % 8192) i))).flatten]

/-- Steps for one queue. -/
noncomputable def queueSteps (c q : Nat) : List Instr :=
  [Instr.packetParse c q, Instr.fenceCondition c q, Instr.gangPlace c q, Instr.launchReserveTimeout c q]

/-- Steps of the dispatcher. -/
noncomputable def dispatchSteps (m : Mach) : List Instr :=
  List.flatten [(m.ctxs.map (fun c => (c.2.queues.map (fun q => queueSteps c.1 q.1)).flatten)).flatten,
    m.ctxs.map (fun c => Instr.stopComplete c.1), m.gangs.map (fun g => Instr.gangComplete g.1), m.gangs.map (fun g => Instr.watchdogExpire g.1),
    (waiters m).filterMap (fun w => if 64 ≤ w.q then some (Instr.launchReserveTimeout w.c w.q) else none),
    ((reservers m).map (fun r => m.ctxs.map (fun v => Instr.preemptByClass r.c r.q v.1))).flatten]

/-- Everything that a device may do by itself. -/
noncomputable def deviceSteps (m : Mach) : List Instr :=
  List.flatten [(m.reqs.map reqSteps).flatten, (m.cmds.map cmdSteps).flatten, messageSteps m, (m.slots.map (fun e => slotSteps m e.1)).flatten,
    coreSteps m, fireSteps m, dispatchSteps m]

/-- The first of the steps that is enabled. -/
def firstEnabled (s : State) : List Instr → Option State
  | [] => none
  | i :: l => match exec i s with
    | .next t => some t
    | _ => firstEnabled s l

/-- The slot that issues next in the default order. -/
def chosen (m : Mach) : Option Nat := bestOf m ((m.slots.map (·.1)).filter (ready m))

/-- A start on which every step passes. -/
def cleanStart : StartReport := ⟨List.replicate 10 true, List.replicate 10 true, 2 ^ 16 - 1, 15, 2 ^ 16 - 1, 0, false, 0, []⟩

/-- Do free slots try to steal now? When no slot can issue, and at every 512 ns. -/
def stealTime (m : Mach) : Bool := (chosen m).isNone || m.sid % 512 == 0

/-- Is a start of the module to begin or under way? -/
def starting (d : Dev) : Bool := match d.start with
  | some (i, _) => decide (i ≤ 8)
  | none => d.step == 0 && !d.recov

/-- The model's own choice when the agenda is empty: start-up, then whatever a device can do, then the slot that R271 chooses, and time. -/
noncomputable def defaultStep (s : State) : Host.Outcome State Fault Refusal :=
  let m := s.m
  if starting m.dev then exec (.powerOn cleanStart) s
  else if m.dev.step = 8 ∧ m.dev.red then exec .fullService s
  else match firstEnabled s (deviceSteps m ++ (if stealTime m then stealSteps m else [])) with
    | some t => .next t
    | none => match chosen m with
      | some k => slotStep k (advanceCycle s)
      | none => .next (advanceClock (idleNs m) s)

/-- One step: the agenda's first turn, or the default order's. -/
noncomputable def nextStep (s : State) : Host.Outcome State Fault Refusal :=
  match s.m.agenda with
  | .slot k :: l => slotStep k { s with m := { s.m with agenda := l } }
  | .event i :: l => exec i { s with m := { s.m with agenda := l } }
  | .tick ns :: l => .next (advanceClock ns { s with m := { s.m with agenda := l } })
  | [] => defaultStep s

end Sys2Proof.Machine
end

