-- ==== Sys2Proof/Machine/Step.lean ====
section
/-! DEFINITION. The step, and the machine with an instruction placed where the step fetches its next. -/
namespace Sys2Proof.Machine

/-- One step of the machine. -/
noncomputable def step (s : State) : Host.Outcome State Fault Refusal := nextStep s

/-- Where `withFetchWord` places the word: an HBM page of die 0, mapped at the same virtual address. -/
def fetchPage : Nat := 2 ^ 22

/-- The task that `withFetchWord` lets the slot run: forked, in no gang. -/
def fetchTask (k : Nat) : Task := ⟨⟨[fetchPage, 0, 0, 0, 0, 0, 0, 0], 0, none, .forked, [], 0, 0⟩, false, coreOf k, slotOf k, 0, 0, 0, 0, 0, 0⟩

/-- `s` with an instruction of `nbits` bits stored where `step` fetches next: full service, a running context whose slot
`cur` runs a task, a translation for the code page, the instruction's twelve bytes, and the slot's turn (log entry 20). -/
def State.withFetchWord (s : State) (nbits w : Nat) : State :=
  let m := s.m
  let k := m.cur
  let sl := m.slot k
  let c := m.cx
  let core := m.core (coreOf k)
  { s with m := { m with
      mem := m.mem.wrAll (cellsAt fetchPage (toLE 12 (w % 2 ^ nbits)))
      poison := []
      octets := m.octets.put (octetOf (coreOf k)) { m.octet (octetOf (coreOf k)) with icache := [] }
      cores := m.cores.put (coreOf k) { core with
        tlb := ⟨c.asid, granuleOf fetchPage, 1, fetchPage, true, true⟩ :: core.tlb
        slots := max core.slots (slotsOf c.slots) }
      ctxs := m.ctxs.put sl.ctx { c with st := .running, pre := none }
      dev := { m.dev with step := 9, red := false, start := none, dies := 2 ^ 16 - 1 }
      slots := m.slots.put k { sl with
        run := .running
        pc := fetchPage
        wait := none
        look := []
        parked := false
        comet := none
        rep := none
        enabled := true
        boost := ((List.range 4).map (fun i => (m.slot (keyOf (coreOf k) i)).shown)).sum + 1
        task := some (if gangStops m k then fetchTask k else sl.task.getD (fetchTask k)) }
      agenda := [.slot k] } }

end Sys2Proof.Machine
end

