-- ==== Sys2Proof/Safety.lean ====
section
/-! DEFINITION. What a safe run is, and the words in which statements speak of a word that executes: the conditions under which
nothing holds it, the slot as it reads it, and the state its retirement leaves. -/
namespace Sys2Proof

/-- The first `n` steps from `s` answer next states. -/
def Safe : Nat → Machine.State → Prop
  | 0, _ => True
  | n + 1, s => ∃ t, Machine.step s = .next t ∧ Safe n t

namespace Claim
open Machine

/-- The executing slot as its word reads it: fixed-latency writes whose count is reached have landed (R19). -/
def sl (s : State) : Slot := s.m.sl.atIssue

/-- The machine with the word at issue. -/
def issued (s : State) : Mach := s.m.updSlot s.m.cur Slot.atIssue

/-- The value of the g register that a byte names, as the word reads it. -/
def val (b : BitVec 8) (s : State) : Nat := (sl s).g (gNo b)

/-- Nothing holds the word and its guard passes: no interlocked write is pending (R21), under SCHK every fixed-latency write is due (R23),
and the guard has its polarity (R13). -/
structure Ready (h : Hdr) (s : State) : Prop where
  landed : s.m.sl.il = []
  due : s.m.sl.schk = true → ∀ p ∈ (sl s).pw, p.due ≤ s.m.sl.n
  guard : ((sl s).q h.g.toNat == h.gn) = false

/-- The byte names a register, no bound stream (R49). -/
def IsReg (b : BitVec 8) (s : State) : Prop := s.m.sl.stream b = none

/-- The state after a word has executed: the effect `f` of its own and its retirement, at the branch target if it has one. -/
def after (h : Hdr) (tgt : Option Nat) (f : Mach → Mach) (s : State) : State := { s with m := retire h tgt (f (issued s)) }

/-- The effect of a fixed-latency result. -/
def fixed (lat : Nat) (cells : List (Nat × Nat)) (m : Mach) : Mach := m.updSlot m.cur (·.pend lat cells)

/-- The effect of an interlocked result: a pending write of the places that keep what is written to them (R12, R21). -/
def lands (src : LandSrc) (cells : List (Nat × Option Nat)) (m : Mach) : Mach :=
  let m1 := { m with nextId := m.nextId + 1 }
  let kept := cells.filter (fun c => !(keepCells [(c.1, 0)]).isEmpty)
  if kept.isEmpty && (src = .ready || src = .gang) then m1
  else m1.updSlot m.cur (fun s => Slot.note { s with il := s.il ++ [⟨m.nextId, kept, src, 0, none⟩] } (kept.map (·.1)))

/-- The context that executes may run privileged words; it is not deterministic. -/
def Privileged (s : State) : Prop := s.m.cx.prv = true
def Free (s : State) : Prop := s.m.cx.det = false

/-- The slot leads and follows no comet and repeats nothing. -/
structure Alone (s : State) : Prop where
  comet : s.m.sl.comet = none
  rep : s.m.sl.rep = none

/-- The same of known bytes that may land only once the slot's count has come to `t` (R231). -/
def landsFrom (t : Nat) (cells : List (Nat × Nat)) (m : Mach) : Mach :=
  let m1 := { m with nextId := m.nextId + 1 }
  let kept := (known cells).filter (fun c => !(keepCells [(c.1, 0)]).isEmpty)
  if kept.isEmpty then m1
  else m1.updSlot m.cur (fun s => Slot.note { s with il := s.il ++ [⟨m.nextId, kept, .ready, t, none⟩] } (kept.map (·.1)))

/-! ## Memory as the word reaches it -/

/-- The core's translations serve the access at `va`, which goes to `pa` (R326): an address below 2^56, no hole (R2), nothing that waits
for full service (R365). -/
structure Maps (va : Nat) (acc : Acc) (pa : Nat) (s : State) : Prop where
  range : va < 2 ^ 56
  entry : ∃ e, tlbHit (issued s) s.m.curCore s.m.cx.asid va acc = some e ∧ e.at_ va = pa
  there : paKind s.m.dev pa ≠ .hole
  service : waitsService s.m.dev pa = false

/-- No atomic of the slot holds its later accesses (R297). -/
def Clear (s : State) : Prop := atomHeld s.m s.m.cur = false
/-- Room for another load and its entry, another store, another atomic, another law operation (R95). -/
def RoomLd (s : State) : Prop := s.m.sl.ocLd < 255 ∧ loadEntries (issued s) s.m.curCore < 64
def RoomSt (s : State) : Prop := s.m.sl.ocSt < 255
def RoomAt (s : State) : Prop := s.m.sl.ocAt < 255
def RoomLw (s : State) : Prop := s.m.sl.ocLw < 255
/-- The four counters are 0: no access of the slot is outstanding (R95). -/
def Idle (s : State) : Prop := s.m.sl.ocLd = 0 ∧ s.m.sl.ocSt = 0 ∧ s.m.sl.ocAt = 0 ∧ s.m.sl.ocLw = 0
/-- The core may write the bytes as far as capabilities go (R322): without DET every byte. -/
def Held (va len : Nat) (s : State) : Prop := capFails s.m s.m.cx s.m.curCore va len = none
/-- The window range is in a share or a buffer of the context (R87). -/
def InWindow (o len : Nat) (s : State) : Prop := spFails (issued s) o len = false
/-- The scratchpad words hold no error (R344). -/
def Sound (o len : Nat) (s : State) : Prop :=
  ∀ w ∈ wordsOf (spPlace s.m.curCore o) len, w ∉ s.m.spoison ∧ ∀ p ∈ s.m.plantSp, p.1 ≠ w

/-- A pending interlocked write to the places has been made; its bytes are not known yet (R21). -/
def awaits (src : LandSrc) (places : List Nat) (m : Mach) : Mach :=
  Mach.updSlot { m with nextId := m.nextId + 1 } m.cur
    (fun s => Slot.note { s with il := s.il ++ [⟨m.nextId, places.map (fun a => (a, none)), src, 0, none⟩] } places)

/-- The slot counts one more of a kind (R95). -/
def countsLd (m : Mach) : Mach := m.updSlot m.cur (fun s => { s with ocLd := s.ocLd + 1 })
def countsAt (m : Mach) : Mach := m.updSlot m.cur (fun s => { s with ocAt := s.ocAt + 1 })
def countsLw (m : Mach) : Mach := m.updSlot m.cur (fun s => { s with ocLw := s.ocLw + 1 })

/-- The part that every word shares (R11); ILL and the steps of other agents have none. -/
def hdr : Instr → Option Hdr
  | .add x => some x.h
  | .addi x => some x.h
  | .sub x => some x.h
  | .mul x => some x.h
  | .mulh x => some x.h
  | .div x => some x.h
  | .rem x => some x.h
  | .mac x => some x.h
  | .and x => some x.h
  | .or x => some x.h
  | .xor x => some x.h
  | .andn x => some x.h
  | .shl x => some x.h
  | .shr x => some x.h
  | .sar x => some x.h
  | .rotl x => some x.h
  | .min x => some x.h
  | .max x => some x.h
  | .cmp x => some x.h
  | .cmpi x => some x.h
  | .plog x => some x.h
  | .sel x => some x.h
  | .mov x => some x.h
  | .movi x => some x.h
  | .ldlit x => some x.h
  | .clz x => some x.h
  | .popc x => some x.h
  | .bfx x => some x.h
  | .bfi x => some x.h
  | .lea x => some x.h
  | .fold x => some x.h
  | .nop x => some x.h
  | .br x => some x.h
  | .bri x => some x.h
  | .call x => some x.h
  | .calli x => some x.h
  | .ret x => some x.h
  | .loop x => some x.h
  | .rep x => some x.h
  | .exit x => some x.h
  | .yield x => some x.h
  | .waitev x => some x.h
  | .sleep x => some x.h
  | .cometLead x => some x.h
  | .cometJoin x => some x.h
  | .cometEnd x => some x.h
  | .detach x => some x.h
  | .rejoin x => some x.h
  | .trap x => some x.h
  | .brk x => some x.h
  | .assert x => some x.h
  | .rte x => some x.h
  | .sysrd x => some x.h
  | .syswr x => some x.h
  | .time x => some x.h
  | .cycles x => some x.h
  | .beat x => some x.h
  | .view x => some x.h
  | .sbind x => some x.h
  | .sunbind x => some x.h
  | .sstat x => some x.h
  | .ifence x => some x.h
  | .prefi x => some x.h
  | .prio x => some x.h
  | .slotcfg x => some x.h
  | .ld x => some x.h
  | .st x => some x.h
  | .lds x => some x.h
  | .sts x => some x.h
  | .ldx x => some x.h
  | .stx x => some x.h
  | .pf x => some x.h
  | .l1inv x => some x.h
  | .l1invr x => some x.h
  | .cwait x => some x.h
  | .movblk x => some x.h
  | .fillblk x => some x.h
  | .atomAdd x => some x.h
  | .atomMin x => some x.h
  | .atomMax x => some x.h
  | .atomAnd x => some x.h
  | .atomOr x => some x.h
  | .atomXor x => some x.h
  | .atomXchg x => some x.h
  | .atomCas x => some x.h
  | .atomInc x => some x.h
  | .atomFadd x => some x.h
  | .redAdd x => some x.h
  | .redMin x => some x.h
  | .redMax x => some x.h
  | .redLog x => some x.h
  | .redFadd x => some x.h
  | .capgive x => some x.h
  | .captake x => some x.h
  | .capq x => some x.h
  | .hgive x => some x.h
  | .hfree x => some x.h
  | .fork x => some x.h
  | .join x => some x.h
  | .joinm x => some x.h
  | .spawn x => some x.h
  | .launch x => some x.h
  | .taskid x => some x.h
  | .stealdom x => some x.h
  | .dqstat x => some x.h
  | .bari x => some x.h
  | .bariFree x => some x.h
  | .bara x => some x.h
  | .barw x => some x.h
  | .semp x => some x.h
  | .semw x => some x.h
  | .twait x => some x.h
  | .tread x => some x.h
  | .tset x => some x.h
  | .gnode x => some x.h
  | .gsub x => some x.h
  | .gqry x => some x.h
  | .publish x => some x.h
  | .subscr x => some x.h
  | .stopref x => some x.h
  | .refchk x => some x.h
  | .settlw x => some x.h
  | .evpop x => some x.h
  | .evwait x => some x.h
  | .evpush x => some x.h
  | .qfence x => some x.h
  | .dpath x => some x.h
  | .pchk x => some x.h
  | .wdcfg x => some x.h
  | .evcfg x => some x.h
  | .vclaim x => some x.h
  | .vrel x => some x.h
  | .vreneg x => some x.h
  | .vadd x => some x.h
  | .vsub x => some x.h
  | .vmul x => some x.h
  | .vfma x => some x.h
  | .vmin x => some x.h
  | .vmax x => some x.h
  | .vabs x => some x.h
  | .vneg x => some x.h
  | .vand x => some x.h
  | .vor x => some x.h
  | .vxor x => some x.h
  | .vshl x => some x.h
  | .vshr x => some x.h
  | .vcmp x => some x.h
  | .vsel x => some x.h
  | .vmov x => some x.h
  | .vbcast x => some x.h
  | .vreduce x => some x.h
  | .vscan x => some x.h
  | .vfmas x => some x.h
  | .vmulh x => some x.h
  | .vsat x => some x.h
  | .vcx x => some x.h
  | .vperm x => some x.h
  | .vcompr x => some x.h
  | .vexpnd x => some x.h
  | .viota x => some x.h
  | .vrng x => some x.h
  | .vmask x => some x.h
  | .vcvt x => some x.h
  | .vcvts x => some x.h
  | .vrnd x => some x.h
  | .vclass x => some x.h
  | .vexp2 x => some x.h
  | .vlog2 x => some x.h
  | .vrcp x => some x.h
  | .vrsq x => some x.h
  | .vsqrt x => some x.h
  | .vdiv x => some x.h
  | .vsinpi x => some x.h
  | .vcospi x => some x.h
  | .vtanh x => some x.h
  | .vsigm x => some x.h
  | .vld x => some x.h
  | .vst x => some x.h
  | .vldg x => some x.h
  | .vstg x => some x.h
  | .vldw x => some x.h
  | .vstw x => some x.h
  | .tld x => some x.h
  | .tst x => some x.h
  | .ttr x => some x.h
  | .tmov x => some x.h
  | .tmovTv x => some x.h
  | .tmovVt x => some x.h
  | .tzero x => some x.h
  | .mset x => some x.h
  | .mget x => some x.h
  | .vpopc x => some x.h
  | .vfirst x => some x.h
  | .vpack x => some x.h
  | .vunpk x => some x.h
  | .vlut x => some x.h
  | .cjcfg x => some x.h
  | .contract x => some x.h
  | .drain x => some x.h
  | .acclr x => some x.h
  | .accst x => some x.h
  | .isect x => some x.h
  | .union x => some x.h
  | .merge x => some x.h
  | .isectc x => some x.h
  | .mergek x => some x.h
  | .kqpush x => some x.h
  | .kqstat x => some x.h
  | .copy x => some x.h
  | .copy2d x => some x.h
  | .copyk x => some x.h
  | .gather x => some x.h
  | .scatter x => some x.h
  | .pool x => some x.h
  | .smv x => some x.h
  | .smvcfg x => some x.h
  | .coll x => some x.h
  | .rput x => some x.h
  | .rget x => some x.h
  | .ratom x => some x.h
  | .rred x => some x.h
  | .pfpool x => some x.h
  | .ecancel x => some x.h
  | .estat x => some x.h
  | .cjsave x => some x.h
  | .cjload x => some x.h
  | .spillst x => some x.h
  | .evrule x => some x.h
  | .evruleOff x => some x.h
  | .lwadv x => some x.h
  | .lwadd x => some x.h
  | .lwset x => some x.h
  | .lwmax x => some x.h
  | .lwarm x => some x.h
  | .lwdisarm x => some x.h
  | .lwpeek x => some x.h
  | .lwcas x => some x.h
  | .lwxch x => some x.h
  | .lwclr x => some x.h
  | .lwstep x => some x.h
  | .lwdsc x => some x.h
  | .lwtime x => some x.h
  | .vlwadv x => some x.h
  | .vlwadd x => some x.h
  | .lwdom x => some x.h
  | .ephstat x => some x.h
  | .ctxsave x => some x.h
  | .ctxload x => some x.h
  | .tlbinv x => some x.h
  | .tlbinva x => some x.h
  | .fbpop x => some x.h
  | .replay x => some x.h
  | .pmread x => some x.h
  | .eccinj x => some x.h
  | .capset x => some x.h
  | .semi x => some x.h
  | .dqspill x => some x.h
  | .sliceq x => some x.h
  | .xlate x => some x.h
  | .lwscan x => some x.h
  | .hcall x => some x.h
  | _ => none

/-! ## What stays -/

/-- Nothing but the executing slot, and in it nothing but its registers, pc, counts, waits and place in the round-robin order, has
changed; one more word has retired. -/
structure OnlyRegisters (s t : State) : Prop where
  boot : t.boot = s.boot
  machine : t.m = { s.m with slots := t.m.slots, dev := { s.m.dev with rr := s.m.dev.rr + 1 } }
  others : ∀ k, k ≠ s.m.cur → t.m.slot k = s.m.slot k
  slot : t.m.sl = { s.m.sl.boundary with
    rf := t.m.sl.rf, pw := t.m.sl.pw, pc := t.m.sl.pc, n := t.m.sl.n, cycles := t.m.sl.cycles, pmc := t.m.sl.pmc, written := t.m.sl.written
    wait := none, look := [], parked := false, age := 0, boost := 0, stamp := s.m.dev.rr }

/-- The same of a word whose result lands later (R21): besides, its pending write has a name, and lies in the ranges. -/
structure OnlyLands (places : List Rng) (s t : State) : Prop where
  boot : t.boot = s.boot
  machine : t.m = { s.m with slots := t.m.slots, nextId := s.m.nextId + 1, dev := { s.m.dev with rr := s.m.dev.rr + 1 } }
  others : ∀ k, k ≠ s.m.cur → t.m.slot k = s.m.slot k
  slot : t.m.sl = { s.m.sl.boundary with
    rf := t.m.sl.rf, pw := t.m.sl.pw, il := t.m.sl.il, pc := t.m.sl.pc, n := t.m.sl.n, cycles := t.m.sl.cycles, pmc := t.m.sl.pmc
    written := t.m.sl.written, wait := none, look := [], parked := false, age := 0, boost := 0, stamp := s.m.dev.rr }
  pending : ∀ l ∈ t.m.sl.il, ∀ c ∈ l.cells, inRng places c.1 = true

/-- Every register byte outside the ranges reads at every later count as it did (R19). -/
def RegistersBut (places : List Rng) (s t : State) : Prop :=
  ∀ n a, s.m.sl.n ≤ n → inRng places a = false → t.m.sl.byteAt n a = s.m.sl.byteAt n a

end Claim
end Sys2Proof
end

