-- ==== Sys2Proof/Certificates/Slice0/Obligations.lean ====
section
/-! DEFINITION. The statements for the provers. A word that nothing holds is `Ready`; its state after is `after` its header, its branch
target and the effect of its own. Where a statement names an effect by the machine's own operations, those are the operations of
Ops, Operands, Access and Slice. -/
section
open Sys2Proof Sys2Proof.Machine Sys2Proof.Claim

/-! ## Words -/

/-- Words of R17's classes as the spec writes them out decode to their instructions (R11, R17, R29, R31 to R35): the worked encoding of 02
and words built from its tables. -/
def Obligations.SpecWordsDecode : Prop :=
  decode 0x00200000_0008002F_00098114 = some (.cmpi ⟨⟨15, false, 1, false, false, 0⟩, 0x81, 9, 0, 8, .i64, .lt, 0⟩) ∧
  decode 0x00000000_0880000F_00001618 = some (.movi ⟨⟨15, false, 0, false, false, 0⟩, 22, 0, 0, 0x880, .i64, .eq, 0⟩) ∧
  decode 0x00000000_00000053_02010301 = some (.add ⟨⟨3, true, 2, false, false, 0⟩, 3, 1, 2, 0, .i64, .eq, 0⟩) ∧
  decode 0x02200000_0010000F_040300E1 = some (.lwadd ⟨⟨15, false, 0, false, false, 0⟩, 0, 3, 4, 0x10, .i64, .dev, .weak, 2⟩) ∧
  decode 0x00123000_0000000F_000504FF = some (.hcall ⟨⟨15, false, 0, false, false, 0⟩, 4, 5, 0, 0, 0, 0x123⟩) ∧
  decode 0x00600000_0008002F_00098114 = none ∧ decode 0x00B00000_0008002F_00098114 = none ∧
  decode 0x00280000_0008002F_00098114 = none ∧ decode 0x00200000_0008002F_02098114 = none ∧
  decode 0x01200000_0008002F_00098114 = none

/-- Every legal word's fields come back from its encoding (R11, R17, R38). -/
def Obligations.DecodeEncodeAgree : Prop := ∀ i : Instr, i.wf = true → decode (encode i) = some i

/-- What decodes is legal, and the word is the encoding of what it decodes to (R11, R38): no bit of a legal word is ignored. -/
def Obligations.EncodeDecodeAgree : Prop :=
  ∀ (w : Nat) (i : Instr), w < 2 ^ 96 → decode w = some i → i.wf = true ∧ (i ≠ .ill → encode i = w)

/-- A slot whose turn it is, and from which its core issues (R271), runs the word at its pc: the fetched word's instruction, in the state after
the fetch (R11); the other ready slots of the core whose next words could have issued age when it has issued (R271). An illegal word traps (R16), and in reduced service a word
outside it waits (R365). The turn is the agenda's (the model's choice, log entry 1). -/
def Sys2Proof.Claim.StepRunsDecodedWord : Prop :=
  ∀ (s : State) (k : Nat) (l : List Turn) (w : Nat) (m : Mach),
    s.m.agenda = .slot k :: l → (s.m.slot k).task.isSome = true → mayIssue { s.m with agenda := l } k = true →
    fetchNext { s.m with agenda := l, cur := k } = .ok (w, m) →
    let at0 : State := { s with m := { s.m with agenda := l } }
    let at_ : State := { s with m := m.updSlot m.cur (fun x => { x with ir := w }) }
    let held : Bool := s.m.dev.red && !reducedOpcode (w % 256)
    (∀ i, decode w = some i → held = false → step s = aged k at0 (exec i at_)) ∧
    (decode w = none → held = false → step s = aged k at0 (exec .ill at_)) ∧
    (held = true → step s = aged k at0 (.next { s with m := at_.m.updSlot at_.m.cur (fun x =>
      { x with wait := some .service, look := [], parked := false }) }))

/-- A fetch through a translation and an instruction-cache line reads the twelve bytes at the pc, little-endian (R11): what the octet's
cache holds of the line, or, when it does not hold it and no request for the line is under way, what a load of the core would read, which the
cache then keeps (R79). A pooled line that its home slice has not is asked for first (R358). -/
def Sys2Proof.Claim.FetchReadsTwelveBytes : Prop :=
  ∀ (m : Mach) (va : Nat) (e : TlbE),
    let p := e.at_ va
    let line := p / 128
    let m0 := findL2 (128 * line) 128 (useLine line 0 (bringLine line (if paKind m.dev (128 * line) == .host then hostBus (128 * line) m else m)))
    va + 11 < 2 ^ 56 → granuleOf (va + 11) = granuleOf va → tlbHit m m.curCore m.cx.asid va .fetch = some e →
    e.at_ va % 128 ≤ 116 → paKind m.dev (e.at_ va) ≠ .hole → waitsService m.dev (e.at_ va) = false →
    (∀ x, icFind m m.curCore line = some x → (∀ i < 12, (p % 128 + i) / 8 * 8 ∉ x.bad) →
      fetchWord va m = .ok (ofLE ((List.range 12).map (fun i => x.data.rd (p % 128 + i))), m)) ∧
    (icFind m m.curCore line = none → lineBusy m m.curCore line = false → paKind m.dev (128 * line) = .pooled → present m (128 * line) = false →
      fetchWord va m = .error (.blockWith (askCode line) (.line line))) ∧
    (icFind m m.curCore line = none → lineBusy m m.curCore line = false → (paKind m.dev (128 * line) = .pooled → present m (128 * line) = true) →
      (∀ i < 12, icPoisoned (icFill [line] m.curCore line m) m.curCore (p + i) = false) →
      fetchWord va m = .ok (ofLE ((List.range 12).map (fun i => (homeBytes m0 m.curCore (128 * line) 128).getD (p % 128 + i) 0 % 256)),
        icFill [line] m.curCore line m))

/-- A step fetches the twelve bytes at the pc and runs the instruction that they decode to (R11, R38). -/
def Obligations.StepRunsDecodedWord : Prop := Claim.StepRunsDecodedWord ∧ Claim.FetchReadsTwelveBytes

/-- A word whose guard does not hold only retires (R13): no operand, memory, counter, queue or engine changes. -/
def Obligations.GuardedOffOnlyRetires : Prop :=
  ∀ (i : Instr) (h : Hdr) (s : State), hdr i = some h → s.m.sl.il = [] → (s.m.sl.schk = true → ∀ p ∈ (sl s).pw, p.due ≤ s.m.sl.n) →
    ((sl s).q h.g.toNat == h.gn) = true → Alone s → s.m.sl.wait = none → exec i s = .next (after h none id s)

/-- ILL traps whatever its guard would be (R16). -/
def Sys2Proof.Claim.IllTraps : Prop :=
  ∀ s : State, exec .ill s = .next { s with m := takeTrap s.m.cur 0x01 0 s.m.sl.retAddr s.m }

/-- The retirement of a word outside comets (R19, R67, R69): the count advances by SC + 1 and the pc by 12 or to the target; the last word
of a repetition instead adds REP's increment to its address register, takes 1 from its count register and, until that is 0, keeps the pc. -/
def Sys2Proof.Claim.RetirementAdvances : Prop :=
  ∀ (h : Hdr) (tgt : Option Nat) (m : Mach), m.sl.comet = none →
    let s := m.sl.counted h m.dev.rr
    let moved : Slot := { s with pc := pcBits (tgt.getD (nextPc m.sl.pc)) }
    let at_ : Slot → Mach := fun x => { m.setSlot m.cur x with dev := { m.dev with rr := m.dev.rr + 1 } }
    s = { m.sl.boundary with n := m.sl.n + h.sc.toNat + 1, cycles := m.sl.cycles + 1, look := [], age := 0, boost := 0, stamp := m.dev.rr, pmc := s.pmc } ∧
    (m.sl.rep = none → retire h tgt m = at_ moved) ∧
    (∀ r, m.sl.rep = some r → m.sl.pc ≠ nextPc r.pc → retire h tgt m = at_ moved) ∧
    (∀ r, m.sl.rep = some r → m.sl.pc = nextPc r.pc →
      let u := s.pendNow (gCells r.a (add64 (s.g r.a) r.inc))
      let v := u.pendNow (gCells r.d (dec64 (u.g r.d)))
      retire h tgt m = at_ (if v.g r.d = 0 then { v with rep := none, pc := nextPc m.sl.pc } else v))

/-- A fixed-latency result is read by words whose count is at least N + L; a word with a smaller count, and every other byte, reads what it
read before (R19, R12). -/
def Sys2Proof.Claim.FixedResultReadableWhenDue : Prop :=
  ∀ (x : Slot) (lat n a : Nat) (cells : List (Nat × Nat)),
    (x.pend lat cells).byteAt n a =
      if x.n + lat ≤ n then ((latest (keepCells cells) a).map (· % 256)).getD (x.byteAt n a) else x.byteAt n a

/-- Results that have become due land: no word with that count or a larger one reads anything else for it (R19). -/
def Sys2Proof.Claim.DueResultsLand : Prop :=
  ∀ (x : Slot) (n a : Nat), x.n ≤ n → x.settle.byteAt n a = x.byteAt n a

/-- Retirement (R19, R38, R61) and fixed-latency results: when a word has executed, when its result reads and when it lands. -/
def Obligations.RetirementAndFixedResults : Prop := Claim.RetirementAdvances ∧ Claim.FixedResultReadableWhenDue ∧ Claim.DueResultsLand

/-! ## The scalar group -/

/-- The instructions of R58 with two g sources: constructor, latency, and the value that D receives from the operands. -/
def Sys2Proof.Claim.scalarBinary : List ((SW → Instr) × Nat × (SW → Nat → Nat → Nat)) := [
  (.add, 2, fun x a b => Ty.result x.ty (bitAt x.mod.toNat 0) (Ty.val x.ty a + Ty.val x.ty b)),
  (.sub, 2, fun x a b => Ty.result x.ty (bitAt x.mod.toNat 0) (Ty.val x.ty a - Ty.val x.ty b)),
  (.mul, 4, fun x a b => Ty.result x.ty (bitAt x.mod.toNat 0) (Ty.val x.ty a * Ty.val x.ty b)),
  (.mulh, 4, fun x a b => Ty.wrap x.ty (Ty.val x.ty a * Ty.val x.ty b / (2 ^ (8 * Ty.size x.ty) : Nat))),
  (.and, 2, fun x a b => Ty.wrap x.ty (Ty.pat x.ty a &&& Ty.pat x.ty b : Nat)),
  (.or, 2, fun x a b => Ty.wrap x.ty (Ty.pat x.ty a ||| Ty.pat x.ty b : Nat)),
  (.xor, 2, fun x a b => Ty.wrap x.ty (Ty.pat x.ty a ^^^ Ty.pat x.ty b : Nat)),
  (.andn, 2, fun x a b => Ty.wrap x.ty (Ty.pat x.ty a &&& (2 ^ (8 * Ty.size x.ty) - 1 - Ty.pat x.ty b) : Nat)),
  (.shl, 2, fun x a b => Ty.wrap x.ty (Ty.pat x.ty a * 2 ^ (b % (8 * Ty.size x.ty)) : Nat)),
  (.shr, 2, fun x a b => Ty.wrap x.ty (Ty.pat x.ty a / 2 ^ (b % (8 * Ty.size x.ty)) : Nat)),
  (.sar, 2, fun x a b => Ty.wrap x.ty (sx (8 * Ty.size x.ty) a / (2 ^ (b % (8 * Ty.size x.ty)) : Nat))),
  (.rotl, 2, fun x a b => Ty.wrap x.ty (((Ty.pat x.ty a * 2 ^ (b % (8 * Ty.size x.ty)) + Ty.pat x.ty a / 2 ^ (8 * Ty.size x.ty - b % (8 * Ty.size x.ty)))
      % 2 ^ (8 * Ty.size x.ty) : Nat))),
  (.min, 2, fun x a b => Ty.wrap x.ty (min (Ty.val x.ty a) (Ty.val x.ty b))),
  (.max, 2, fun x a b => Ty.wrap x.ty (max (Ty.val x.ty a) (Ty.val x.ty b)))]

/-- The results of ADD, SUB, MUL, MULH, AND, OR, XOR, ANDN, SHL, SHR, SAR, ROTL, MIN and MAX (R57, R58): they write D with their latency,
retire and do nothing else. -/
def Obligations.ScalarBinaryResults : Prop :=
  ∀ p ∈ scalarBinary, ∀ (x : SW) (s : State), Ready x.h s → IsReg x.a s → IsReg x.b s → IsReg x.d s →
    exec (p.1 x) s = .next (after x.h none (fixed p.2.1 (gCells (gNo x.d) (p.2.2 x (val x.a s) (val x.b s)))) s)

/-- The results of the scalar instructions of other shapes (R58, R62, R64, R65, R66). -/
def Sys2Proof.Claim.ScalarOtherResults : Prop :=
  (∀ (x : SW) (s : State), Ready x.h s → IsReg x.a s → IsReg x.b s → IsReg x.d s →
    exec (.clz x) s = .next (after x.h none (fixed 2 (gCells (gNo x.d) (Ty.wrap x.ty (8 * Ty.size x.ty - Nat.size (Ty.pat x.ty (val x.a s)) : Nat)))) s) ∧
    exec (.popc x) s = .next (after x.h none (fixed 2 (gCells (gNo x.d)
      (Ty.wrap x.ty ((List.range (8 * Ty.size x.ty)).countP (bitAt (Ty.pat x.ty (val x.a s))) : Nat)))) s) ∧
    exec (.fold x) s = .next (after x.h none (fixed 2 (gCells (gNo x.d) (fold (val x.a s)))) s)) ∧
  (∀ (x : SW) (s : State), Ready x.h s → IsReg x.a s → IsReg x.b s → IsReg x.c s → IsReg x.d s →
    exec (.mac x) s = .next (after x.h none (fixed 4 (gCells (gNo x.d) (Ty.result x.ty (bitAt x.mod.toNat 0)
      (Ty.val x.ty (val x.c s) + Ty.val x.ty (val x.a s) * Ty.val x.ty (val x.b s))))) s)) ∧
  (∀ (x : SW) (s : State), Ready x.h s → IsReg x.a s → IsReg x.b s → IsReg x.d s →
    exec (.sel x) s = .next (after x.h none (fixed 2 (gCells (gNo x.d) (if (sl s).q (qNo x.c) then val x.a s else val x.b s))) s)) ∧
  (∀ (x : IW) (s : State), Ready x.h s → IsReg x.a s → IsReg x.b s → IsReg x.d s →
    exec (.addi x) s = .next (after x.h none (fixed 2 (gCells (gNo x.d) (Ty.result x.ty (bitAt x.mod.toNat 0)
      (Ty.val x.ty (val x.a s) + Ty.imm x.ty x.imm)))) s) ∧
    exec (.movi x) s = .next (after x.h none (fixed 2 (gCells (gNo x.d) (Ty.wrap x.ty (Ty.imm x.ty x.imm)))) s) ∧
    exec (.bfx x) s = .next (after x.h none (fixed 2 (gCells (gNo x.d)
      (if Ty.signed x.ty then ofInt 64 (sx (bits x.imm.toNat 8 7) (bits (val x.a s) (bits x.imm.toNat 0 6) (bits x.imm.toNat 8 7)))
       else bits (val x.a s) (bits x.imm.toNat 0 6) (bits x.imm.toNat 8 7)))) s) ∧
    exec (.bfi x) s = .next (after x.h none (fixed 2 (gCells (gNo x.d)
      (setBits (val x.d s) (bits x.imm.toNat 0 6) (bits x.imm.toNat 8 7) (val x.a s)))) s)) ∧
  (∀ (x : MW) (s : State), Ready x.h s → IsReg x.a s → IsReg x.b s → IsReg x.d s →
    exec (.lea x) s = .next (after x.h none (fixed 2 (gCells (gNo x.d)
      ((addDisp (val x.a s) x.disp + (if bitAt x.c.toNat 3 then val x.b s * 2 ^ bits x.c.toNat 0 3 else 0)) % 2 ^ 64))) s)) ∧
  (∀ (x : SW) (s : State), Ready x.h s → IsReg x.a s → IsReg x.b s → IsReg x.d s →
    exec (.mov x) s = .next (after x.h none (
      if isQ x.a then
        if isQ x.d then fixed 2 (qCells (qNo x.d) ((sl s).q (qNo x.a))) else fixed 2 (gCells (gNo x.d) (ofBool ((sl s).q (qNo x.a))))
      else
        if isQ x.d then fixed 2 (qCells (qNo x.d) (val x.a s != 0)) else fixed 2 (gCells (gNo x.d) (Ty.wrap x.ty (Ty.val x.ty (val x.a s))))) s))

/-- DIV and REM (R59): an interlocked result; a zero divisor gives -1 and the dividend, the most negative dividend by -1 gives itself
and 0. -/
def Sys2Proof.Claim.DivideResults : Prop :=
  ∀ (x : SW) (s : State), Ready x.h s → IsReg x.a s → IsReg x.b s → IsReg x.d s →
    let a := Ty.val x.ty (val x.a s)
    let b := Ty.val x.ty (val x.b s)
    let low : Bool := Ty.signed x.ty && a == Ty.lo x.ty && b == -1
    exec (.div x) s = .next (after x.h none (lands .ready (known (gCells (gNo x.d)
      (Ty.wrap x.ty (if b = 0 then -1 else if low then Ty.lo x.ty else a.tdiv b))))) s) ∧
    exec (.rem x) s = .next (after x.h none (lands .ready (known (gCells (gNo x.d)
      (Ty.wrap x.ty (if b = 0 then a else if low then 0 else a - b * a.tdiv b))))) s)

/-- CMP, CMPI and PLOG write q[D] with latency 2 (R32, R60, R61). -/
def Sys2Proof.Claim.PredicateResults : Prop :=
  (∀ (x : SW) (s : State), Ready x.h s → IsReg x.a s → IsReg x.b s →
    exec (.cmp x) s = .next (after x.h none (fixed 2 (qCells (qNo x.d)
      (if bitAt x.mod.toNat 0 then holdsFp x.cnd (f32 (val x.a s % 2 ^ 32)) (f32 (val x.b s % 2 ^ 32))
       else holdsInt x.cnd (Ty.val x.ty (val x.a s)) (Ty.val x.ty (val x.b s)) (Ty.pat x.ty (val x.a s)) (Ty.pat x.ty (val x.b s))))) s)) ∧
  (∀ (x : IW) (s : State), Ready x.h s → IsReg x.a s → IsReg x.b s →
    exec (.cmpi x) s = .next (after x.h none (fixed 2 (qCells (qNo x.d)
      (holdsInt x.cnd (Ty.val x.ty (val x.a s)) (Ty.imm x.ty x.imm) (Ty.pat x.ty (val x.a s)) (Ty.pat x.ty (ofInt 64 (Ty.imm x.ty x.imm)))))) s)) ∧
  (∀ (x : SW) (s : State), Ready x.h s → IsReg x.a s → IsReg x.b s →
    exec (.plog x) s = .next (after x.h none (fixed 2 (qCells (qNo x.d)
      (bitAt (bits x.mod.toNat 0 4) (2 * ofBool ((sl s).q (qNo x.a)) + ofBool ((sl s).q (qNo x.b)))))) s))

/-- The other scalar results: one-operand and three-operand forms, division, predicates (R58 to R68). -/
def Obligations.ScalarOtherResults : Prop := Claim.ScalarOtherResults ∧ Claim.DivideResults ∧ Claim.PredicateResults

/-- The frame of the instructions with two g sources and of DIV and REM: no register byte but D's eight, and nothing else of the machine
but the retirement, changes (R13, R19, R58, R59). -/
def Obligations.ScalarFrame : Prop :=
  (∀ p ∈ scalarBinary, ∀ (x : SW) (s t : State), Ready x.h s → IsReg x.a s → IsReg x.b s → IsReg x.d s → Alone s →
    exec (p.1 x) s = .next t → OnlyRegisters s t ∧ RegistersBut [(8 * gNo x.d, 8)] s t) ∧
  (∀ (x : SW) (s t : State), Ready x.h s → IsReg x.a s → IsReg x.b s → Alone s →
    exec (.cmp x) s = .next t → OnlyRegisters s t ∧ RegistersBut [(predPlace (qNo x.d), 1)] s t) ∧
  (∀ (x : SW) (s t : State), Ready x.h s → IsReg x.a s → IsReg x.b s → IsReg x.d s → Alone s →
    exec (.div x) s = .next t ∨ exec (.rem x) s = .next t → OnlyLands [(8 * gNo x.d, 8)] s t ∧ RegistersBut [(8 * gNo x.d, 8)] s t)

/-- An operand that names a bound input stream takes its next element: the bytes at the position's address, brought for the instruction, of
host memory or of the core's L1 copy, extended by the element type, and the position advances by one (R49, R50). Bytes that are not at hand
are asked for with a load that counts in oc.ld (R50, R95). -/
def Sys2Proof.Claim.StreamReadsNextElement : Prop :=
  ∀ (b : BitVec 8) (x : Stream) (s : State) (pa : Nat), (sl s).stream b = some x → x.out = false → x.pos < x.len →
    x.addr x.pos % Ty.size x.ty = 0 → Maps (x.addr x.pos) .read pa s → Clear s → RoomLd s →
    let n := Ty.size x.ty
    let host : Bool := paKind s.m.dev pa == .host
    (host = true → firstHost s.m s.m.curCore false = none) →
    (atHand (issued s) pa n x.ch = true → l1Poisoned s.m s.m.curCore pa n = false →
      ∃ m, rdG b (issued s) = .ok (ofLE (extend 8 (Ty.signed x.ty)
          (if (sl s).has pa n then (List.range n).map (fun i => (latest (sl s).got (pa + i)).getD 0)
           else if host then s.m.mem.rdN pa n else (l1Bytes s.m s.m.curCore pa n).getD [])), m) ∧
        m.sl = { sl s with streams := (sl s).streams.put (b.toNat - 56) { x with pos := x.pos + 1 }, pmc := m.sl.pmc } ∧ m.mem = s.m.mem) ∧
    (atHand (issued s) pa n x.ch = false → ∃ f, rdG b (issued s) = .error (.blockWith f .data) ∧
      f (issued s) = countsLd (askData true x.ch (pa, n) (issued s)))

/-! ## The control group -/

/-- NOP and YIELD only retire; BR, BRI, CALL, CALLI, RET and LOOP go where R67 and R68 say, with the link and the count written at latency 2;
a bad target traps. -/
def Sys2Proof.Claim.BranchesGoToTheirTargets : Prop :=
  (∀ (x : ZW) (s : State), Ready x.h s → exec (.nop x) s = .next (after x.h none id s) ∧ exec (.yield x) s = .next (after x.h none id s)) ∧
  (∀ (x : BW) (s : State), Ready x.h s → IsReg x.a s → IsReg x.b s →
    let t := ofInt 56 ((s.m.sl.pc : Int) + 4 * sx 32 x.off.toNat)
    exec (.br x) s = .next (after x.h (some t) id s) ∧
    exec (.call x) s = .next (after x.h (some t) (fixed 2 (gCells 55 (nextPc s.m.sl.pc))) s) ∧
    exec (.loop x) s = .next (after x.h (if dec64 (val x.d s) = 0 then none else some t) (fixed 2 (gCells (gNo x.d) (dec64 (val x.d s)))) s)) ∧
  (∀ (x : SW) (s : State), Ready x.h s → IsReg x.a s → IsReg x.b s → s.m.sl.isFollower = false →
    (val x.a s % 4 = 0 → val x.a s < 2 ^ 56 →
      exec (.bri x) s = .next (after x.h (some (val x.a s)) id s) ∧
      exec (.calli x) s = .next (after x.h (some (val x.a s)) (fixed 2 (gCells 55 (nextPc s.m.sl.pc))) s)) ∧
    (val x.a s % 4 ≠ 0 ∨ 2 ^ 56 ≤ val x.a s →
      exec (.bri x) s = .next { s with m := takeTrap s.m.cur 0x09 0 s.m.sl.retAddr s.m } ∧
      exec (.calli x) s = .next { s with m := takeTrap s.m.cur 0x09 0 s.m.sl.retAddr s.m })) ∧
  (∀ (x : ZW) (s : State), Ready x.h s → s.m.sl.isFollower = false →
    ((sl s).g 55 % 4 = 0 → (sl s).g 55 < 2 ^ 56 → exec (.ret x) s = .next (after x.h (some ((sl s).g 55)) id s)) ∧
    ((sl s).g 55 % 4 ≠ 0 ∨ 2 ^ 56 ≤ (sl s).g 55 → exec (.ret x) s = .next { s with m := takeTrap s.m.cur 0x09 0 s.m.sl.retAddr s.m }))

/-- REP (R69): a body outside the groups it repeats, or one that names its count register, traps; with a zero count the body is skipped;
else the slot repeats the next word, and a following follower does what its leader does (R83). The fetch of the body is that of the next
word. -/
def Sys2Proof.Claim.RepChecksItsBody : Prop :=
  ∀ (x : IW) (s : State) (w : Nat) (m : Mach), Ready x.h s → IsReg x.a s → IsReg x.b s →
    fetchWord (s.m.sl.pc + 12) (issued s) = .ok (w, m) →
    let ok : Prop := (w % 256 < 0x20 ∨ (0x40 ≤ w % 256 ∧ w % 256 < 0x60) ∨ (0x80 ≤ w % 256 ∧ w % 256 < 0xC0)) ∧ gNo x.d ∉ bodyRegs w
    (¬ ok → exec (.rep x) s = .next { s with m := takeTrap s.m.cur 0x0A 0 s.m.sl.retAddr s.m }) ∧
    (ok → s.m.sl.isFollower = false → val x.d s = 0 → exec (.rep x) s = .next (after x.h (some ((s.m.sl.pc + 24) % 2 ^ 56)) (fun _ => m) s)) ∧
    (ok → (s.m.sl.isFollower = true ∨ val x.d s ≠ 0) → exec (.rep x) s = .next (after x.h none (fun _ => m.updSlot m.cur (fun y =>
      { y with rep := some ⟨s.m.sl.pc, gNo x.d, gNo x.a, ofInt 64 (sx 32 x.imm.toNat), x.h.sc.toNat⟩ })) s))

/-- Control flow (R60 to R69).
That a REP whose count is 0 traps on a bad body too is the model's choice (log entry 56); targets taken modulo 2^56 are its reading (log
entry 24). -/
def Obligations.BranchesAndRepeats : Prop := Claim.BranchesGoToTheirTargets ∧ Claim.RepChecksItsBody

/-- WAITEV reports and clears what it selects once a selected source is present or its deadline is reached, and blocks until then (R72);
SLEEP passes once its time has come (R73); PRIO lowers the level to the ceiling (R71); BEAT restarts the watchdog of the gang (R78). -/
def Sys2Proof.Claim.WaitsEndWhenTheirEventsHold : Prop :=
  (∀ (x : IW) (s : State), Ready x.h s → IsReg x.a s → IsReg x.b s → IsReg x.d s → s.m.sl.isFollower = false →
    (bitAt x.mod.toNat 0 = true ∨ popCount (x.imm.toNat % 32) 5 ≠ 1 → Free s) →
    let here := (sl s).sources &&& (x.imm.toNat % 32)
    let dl := bitAt x.mod.toNat 0
    let late := dl && decide (val x.a s ≤ s.m.sid)
    (here ≠ 0 ∨ late = true → exec (.waitev x) s = .next (after x.h none (fun m =>
      lands .ready (known (gCells (gNo x.d) (here + (if late then 2 ^ 63 else 0))))
        (m.updSlot m.cur (fun y => { y with latch := y.latch - (y.latch &&& here &&& 0x1E) }))) s)) ∧
    (here = 0 → late = false → exec (.waitev x) s = .next { s with m := s.m.updSlot s.m.cur (fun y =>
      { y with wait := some (.events (x.imm.toNat % 32) (if dl then some (val x.a s) else none)), look := [], parked := false }) })) ∧
  (∀ (x : IW) (s : State), Ready x.h s → IsReg x.a s → IsReg x.b s → s.m.sl.isFollower = false →
    (val x.a s + x.imm.toNat ≤ s.m.sid → exec (.sleep x) s = .next (after x.h none id s)) ∧
    (s.m.sid < val x.a s + x.imm.toNat → exec (.sleep x) s = .next { s with m := s.m.updSlot s.m.cur (fun y =>
      { y with wait := some (.until_ (val x.a s + x.imm.toNat)), look := [], parked := false }) })) ∧
  (∀ (x : IW) (s : State), Ready x.h s →
    exec (.prio x) s = .next (after x.h none (fun m => m.updSlot m.cur (fun y => { y with level := min x.imm.toNat (min y.ceil y.cfgCeil), age := 0 })) s)) ∧
  (∀ (x : ZW) (s : State), Ready x.h s → exec (.beat x) s = .next (after x.h none (fun m => progress m.cur m) s))

/-- TIME gives the sidereal clock, CYCLES the arithmetic clock or the words the task has issued, outside deterministic mode (R76, R77). -/
def Sys2Proof.Claim.ClockReads : Prop :=
  ∀ (x : SW) (s : State), Ready x.h s → IsReg x.a s → IsReg x.b s → IsReg x.d s → Free s →
    exec (.time x) s = .next (after x.h none (fixed 2 (gCells (gNo x.d) (s.m.sid % 2 ^ 64))) s) ∧
    exec (.cycles x) s = .next (after x.h none (fixed 2 (gCells (gNo x.d)
      ((if bitAt x.mod.toNat 0 then s.m.sl.cycles else s.m.cyc) % 2 ^ 64))) s)

/-- TRAP and ASSERT of a false predicate trap to return behind the word, which has executed and counts, BRK to return to the word; ASSERT of a true
predicate only retires (R74). RTE outside a handler traps; in one whose interlocked writes have landed it leaves it (R22, R74). -/
def Sys2Proof.Claim.SoftwareTraps : Prop :=
  (∀ (x : IW) (s : State), Ready x.h s → IsReg x.a s →
    exec (.trap x) s = .next { s with m := takeTrap s.m.cur 0x05 x.imm.toNat (nextPc s.m.sl.pc) (passed x.h (issued s)) } ∧
    exec (.brk x) s = .next { s with m := takeTrap s.m.cur 0x06 x.imm.toNat s.m.sl.retAddr s.m } ∧
    ((sl s).q (qNo x.a) = true → exec (.assert x) s = .next (after x.h none id s)) ∧
    ((sl s).q (qNo x.a) = false → exec (.assert x) s = .next { s with m := takeTrap s.m.cur 0x07 x.imm.toNat (nextPc s.m.sl.pc) (passed x.h (issued s)) })) ∧
  (∀ (x : ZW) (s : State), Ready x.h s →
    (s.m.sl.inh = false → exec (.rte x) s = .next { s with m := takeTrap s.m.cur 0x08 0 s.m.sl.retAddr s.m }) ∧
    (s.m.sl.inh = true → exec (.rte x) s = .next { s with m := { (issued s).updSlot s.m.cur (fun y =>
      Slot.countEvent { y.leaveHandler with cycles := y.cycles + 1, age := 0, boost := 0, stamp := s.m.dev.rr } 1) with
        dev := { s.m.dev with rr := s.m.dev.rr + 1 } } }))

/-- Taking a trap (R340, R22): with a handler and outside one, the slot's TRET, TCAUSE and TVAL are written, its pc is the handler's, its
count starts again, and the handler sees every pending fixed-latency write landed, in program order; the interrupted flow's count and pending
writes are saved. Without a handler the context ends with the cause, in a handler with "double trap". Nothing else of the machine changes. -/
def Sys2Proof.Claim.TrapEntry : Prop :=
  ∀ (k cause v ret : Nat) (m : Mach),
    (m.slot k).tvec % 2 ^ 56 / 4 ≠ 0 → (m.slot k).inh = false →
    let t := takeTrap k cause v ret m
    t = { m with slots := t.slots } ∧ (∀ j, j ≠ k → t.slot j = m.slot j) ∧
    (t.slot k).pc = (m.slot k).tvec % 2 ^ 56 / 4 * 4 ∧ (t.slot k).tret = ret % 2 ^ 56 / 4 * 4 ∧ (t.slot k).tcause = cause ∧
    (t.slot k).tval = v % 2 ^ 64 ∧ (t.slot k).inh = true ∧ (t.slot k).n = 0 ∧ (t.slot k).rep = none ∧ (t.slot k).pw = [] ∧
    (t.slot k).saved = some ⟨(m.slot k).atReturn.n, (m.slot k).oldBytes, (m.slot k).settle.pw⟩ ∧
    (∀ n a, (∀ p ∈ (m.slot k).pw, p.due ≤ n) → (t.slot k).byteAt 0 a = (m.slot k).byteAt n a)

/-- A trap without a handler ends the context; so does one in a handler, with "double trap" (R340, R343). -/
def Sys2Proof.Claim.TrapWithoutHandlerEndsContext : Prop :=
  ∀ (k cause v ret : Nat) (m : Mach),
    ((m.slot k).tvec % 2 ^ 56 / 4 = 0 → takeTrap k cause v ret m = endContext (m.slot k).ctx cause k
      (if cause = 0x14 ∨ cause = 0x15 ∨ cause = 0x16 ∨ cause = 0x17 ∨ cause = 0x40 then v % 2 ^ 64 else 0) m) ∧
    ((m.slot k).tvec % 2 ^ 56 / 4 ≠ 0 → (m.slot k).inh = true → takeTrap k cause v ret m = endContext (m.slot k).ctx 0x80 k 0 m)

/-- Traps: the words that raise them, what entry saves and where it goes, and a trap without a handler (R73, R74, R340 to R343).
That TRAP and a failing ASSERT save the count of the next word (log entry 47), and the value with which a trap without a handler ends the
context (log entry 21), are the model's reading. -/
def Obligations.Traps : Prop := Claim.IllTraps ∧ Claim.SoftwareTraps ∧ Claim.TrapEntry ∧ Claim.TrapWithoutHandlerEndsContext

/-- Entering a handler and leaving it again (R22): every register byte that the handler did not write reads at every later count as it would
have without the interruption, and every byte it wrote keeps its value; the slot goes on at TRET, with its count (in a repetition the count
from which REP comes back to it, log entry 56). -/
def Obligations.TrapThenReturnRestores : Prop :=
  ∀ (x y : Slot) (cause v ret : Nat), x.inh = false →
    let h := x.enterHandler cause v ret
    y.saved = h.saved → y.pw = [] → (∀ a, a ∉ y.written → y.rf.rd a = h.rf.rd a) →
    (∀ n a, x.n ≤ n → a ∉ y.written → y.leaveHandler.byteAt n a = x.byteAt n a) ∧
    (∀ n a, a ∈ y.written → y.leaveHandler.byteAt n a = y.rf.rd a) ∧
    y.leaveHandler.n = x.atReturn.n ∧ y.leaveHandler.pc = y.tret ∧ y.leaveHandler.inh = false

/-- VIEW takes a legal word and traps on another (R46); SBIND binds a stream whose base, counts and strides it reads (R51), SUNBIND ends a
binding (R52), SSTAT reports one (R53). -/
def Sys2Proof.Claim.ViewsAndStreams : Prop :=
  (∀ (x : YW) (s : State), Ready x.h s → IsReg x.a s → IsReg x.b s →
    let w := val x.a s
    let legal : Prop := bits w 22 2 = 0 ∧ bits w 62 2 = 0 ∧ bits w 20 2 ≠ 3 ∧ bits w 48 2 ≠ 3
    (legal → exec (.view x) s = .next (after x.h none (fun m => m.updSlot m.cur (fun y => { y with view := w })) s)) ∧
    (¬ legal → exec (.view x) s = .next { s with m := takeTrap s.m.cur 0x0F 0 s.m.sl.retAddr s.m })) ∧
  (∀ (x : MW) (s : State), Ready x.h s → IsReg x.a s → IsReg x.b s →
    exec (.sbind x) s = .next (after x.h none (fun m => m.updSlot m.cur (fun y =>
      { y with streams := y.streams.put (x.d.toNat - 56) {
          base := addDisp (val x.a s) x.disp, cnt0 := val x.b s % 2 ^ 32, cnt1 := bits (val x.b s) 32 32,
          str0 := sx 32 ((sl s).g (gNo x.b + 1)), str1 := sx 32 ((sl s).g (gNo x.b + 1) / 2 ^ 32), ty := x.ty, out := bitAt x.c.toNat 0,
          pos := 0, ch := x.h.ch.toNat } })) s)) ∧
  (∀ (x : SW) (s : State), Ready x.h s →
    exec (.sunbind x) s = .next (after x.h none (fun m => m.updSlot m.cur (fun y => { y with streams := y.streams.del (x.d.toNat - 56) })) s)) ∧
  (∀ (x : SW) (s : State), Ready x.h s → IsReg x.d s →
    exec (.sstat x) s = .next (after x.h none (lands .ready (known (gCells (gNo x.d)
      (((sl s).streams.find (x.a.toNat - 56)).elim 0 (fun z =>
        min (z.cnt0 * z.cnt1 - z.pos) (2 ^ 32 - 1) + 2 ^ 32 + ofBool z.out * 2 ^ 33 + Ty.code z.ty * 2 ^ 34))))) s))

/-- Streams as operands, their binding, and views (R43 to R51).
When an element is read (log entry 26), and that its bytes are asked for by the instruction (log entry 12), is the model's reading. -/
def Obligations.StreamsAndViews : Prop := Claim.StreamReadsNextElement ∧ Claim.ViewsAndStreams

/-- LDLIT reads eight bytes at its label as a fetch does (R63); IFENCE, once the slot's stores are acknowledged, empties the octet's
instruction cache (R79); PREFI, while no walk of its pages is in progress, fills it with the lines that translate
and on which no request is under way (R80); SLOTCFG sets the enables and
ceilings of a core's slots, of one amid its instruction at its next boundary (R81). -/
def Sys2Proof.Claim.FetchControl : Prop :=
  (∀ (x : BW) (s : State) (l : List Nat) (m : Mach), Ready x.h s → IsReg x.a s → IsReg x.b s → IsReg x.d s →
    fetchBytes (ofInt 64 ((s.m.sl.pc : Int) + 4 * sx 32 x.off.toNat)) 8 (issued s) = .ok (l, m) → m.sl.stream x.d = none →
    exec (.ldlit x) s = .next (after x.h none (fun _ => lands .ready (known (gCells (gNo x.d) (ofLE l))) m) s)) ∧
  (∀ (x : ZW) (s : State), Ready x.h s →
    (s.m.sl.ocSt = 0 → exec (.ifence x) s = .next (after x.h none (fun m =>
      m.setOctet (octetOf m.curCore) { m.octet (octetOf m.curCore) with icache := [] }) s)) ∧
    (s.m.sl.ocSt ≠ 0 → exec (.ifence x) s = .next { s with m := (sendMine s.m.cur s.m).updSlot s.m.cur (fun y =>
      { y with wait := some (.allZero false true false false), look := [], parked := false }) })) ∧
  (∀ (x : BW) (s : State), Ready x.h s →
    let va := ofInt 64 ((s.m.sl.pc : Int) + 4 * sx 32 x.off.toNat) / 128 * 128
    walking s.m s.m.curCore s.m.cx.asid va = false → walking s.m s.m.curCore s.m.cx.asid (va + 128 * bits x.mod.toNat 0 4) = false →
    exec (.prefi x) s = .next (after x.h none (fun m => (List.range (bits x.mod.toNat 0 4 + 1)).foldl (fun m i =>
      match quietXlate m.cur (va + 128 * i) .fetch (countTlb m.cur (va + 128 * i) m) with
      | (some pa, m) =>
        if paKind m.dev pa == .hole || waitsService m.dev pa || lineBusy m m.curCore (pa / 128) then m else icFill [] m.curCore (pa / 128) m
      | (none, m) => m) m) s)) ∧
  (∀ (x : YW) (s : State), Ready x.h s → IsReg x.a s → IsReg x.b s → Privileged s →
    let n := (s.m.core x.imm.toNat).slots
    val x.a s < 2 ^ 12 → (∀ k < 4, n ≤ k → bitAt (val x.a s) k = false ∧ bits (val x.a s) (4 + 2 * k) 2 = 0) →
    exec (.slotcfg x) s = .next (after x.h none (fun m => (List.range n).foldl (fun m k => m.updSlot (keyOf x.imm.toNat k) (fun y =>
      if y.mid then { y with cfgNext := some (bitAt (val x.a s) k, bits (val x.a s) (4 + 2 * k) 2) }
      else { y with enabled := bitAt (val x.a s) k, cfgCeil := bits (val x.a s) (4 + 2 * k) 2, cfgNext := none,
                    level := min y.level (min y.ceil (bits (val x.a s) (4 + 2 * k) 2)) })) m) s))

/-- Waits, clocks and the control of fetch (R72, R76 to R81). -/
def Obligations.WaitsClocksAndFetchControl : Prop := Claim.WaitsEndWhenTheirEventsHold ∧ Claim.ClockReads ∧ Claim.FetchControl

/-- Comets (R82 to R85): comet.lead forms the comet when every named core waits in comet.join, comet.join when its leader waits for it
alone; each waits otherwise, and traps in a slot that has a role or names its own core; COMET_FORM forms one whose members all wait. COMET's
end dissolves the leader's comet, or takes the follower out, which goes on where its leader's word went, or after its own word when it is
detached; that a leader without members leads no comet is the model's choice (log entry 57). DETACH sends a following follower to its label, out of a
comet that its leader has left.
REJOIN of a leader whose detached members all wait takes them back: each follows again from the word after the leader's; it waits for them
otherwise; it only retires in a following follower and outside a comet. Each member's place in its leader's words is the model's reading (log entry 29). -/
def Obligations.CometsFormAndDissolve : Prop :=
  (∀ (x : YW) (s : State), Ready x.h s →
    let k := s.m.cur
    let mask := bits x.mod.toNat 2 8
    let lag := bits x.mod.toNat 10 3 + 2
    (bitAt mask (indexOf k) = true ∨ s.m.sl.comet ≠ none → exec (.cometLead x) s = .next { s with m := takeTrap k 0x0B 0 s.m.sl.retAddr s.m }) ∧
    (bitAt mask (indexOf k) = false → s.m.sl.comet = none →
    (∀ js, joiners s.m k mask none = some js → exec (.cometLead x) s = .next
      { s with m := leadComet k lag js (after x.h none (fun m => m.updSlot m.cur (fun y => { y with comet := some (.leader [] lag false) })) s).m }) ∧
    (joiners s.m k mask none = none → exec (.cometLead x) s = .next { s with m := s.m.updSlot k (fun y =>
      { y with wait := some (.lead mask lag x.h.sc.toNat), look := [], parked := false }) }))) ∧
  (∀ (x : YW) (s : State), Ready x.h s →
    let k := s.m.cur
    let idx := bits x.mod.toNat 2 3
    (idx = indexOf k ∨ s.m.sl.comet ≠ none → exec (.cometJoin x) s = .next { s with m := takeTrap k 0x0B 0 s.m.sl.retAddr s.m }) ∧
    (idx ≠ indexOf k → s.m.sl.comet = none →
    (∀ l lag sc js, waitingLead s.m k idx = some (l, lag, sc, js) → exec (.cometJoin x) s = .next
      { s with m := joinComet k l lag sc js (after x.h none (fun m => m.updSlot m.cur (fun y => { y with comet := some (.detached l) })) s).m }) ∧
    (waitingLead s.m k idx = none → exec (.cometJoin x) s = .next { s with m := s.m.updSlot k (fun y =>
      { y with wait := some (.follow idx x.h.sc.toNat), look := [], parked := false }) }))) ∧
  (∀ (k mask lag sc : Nat) (js : List Nat) (s : State), (s.m.slot k).wait = some (.lead mask lag sc) → (s.m.slot k).run = .running →
    (s.m.slot k).enabled = true → joiners s.m k mask none = some js →
    exec (.cometForm k) s = .next { s with m := follow k (nextPc (s.m.slot k).pc) js (s.m.updSlot k (fun y =>
      { y.passComet sc (nextPc (s.m.slot k).pc) with comet := some (.leader js lag false) })) }) ∧
  (∀ (x : YW) (s : State), Ready x.h s →
    (∀ ms lag r, s.m.sl.comet = some (.leader ms lag r) →
      let t := (after x.h none (fun m => m.updSlot m.cur (fun y => { y with comet := some (.leader ms lag true) })) s).m
      exec (.cometEnd x) s = .next { s with m := dissolve s.m.cur t }) ∧
    (∀ l q, s.m.sl.comet = some (.follower l q) → exec (.cometEnd x) s =
      .next (after x.h (q.head?.map (·.next)) (leaveComet s.m.cur) s)) ∧
    (∀ l, s.m.sl.comet = some (.detached l) → exec (.cometEnd x) s = .next (after x.h none (leaveComet s.m.cur) s)) ∧
    (s.m.sl.comet = none → exec (.cometEnd x) s = .next (after x.h none id s))) ∧
  (∀ (x : BW) (s : State), Ready x.h s →
    let t := ofInt 56 ((s.m.sl.pc : Int) + 4 * sx 32 x.off.toNat)
    (∀ ms lag r, s.m.sl.comet = some (.leader ms lag r) → exec (.detach x) s = .next (after x.h none id s)) ∧
    (∀ l q, s.m.sl.comet = some (.follower l q) → exec (.detach x) s = .next (after x.h (some t)
      (fun m => m.updSlot m.cur (fun y => { y with comet := if leads m l m.cur then some (.detached l) else none, rep := none })) s)) ∧
    (∀ l, s.m.sl.comet = some (.detached l) → exec (.detach x) s = .next (after x.h (some t) id s)) ∧
    (s.m.sl.comet = none → exec (.detach x) s = .next (after x.h (some t) id s))) ∧
  (∀ (x : ZW) (s : State), Ready x.h s →
    (s.m.sl.comet = none → exec (.rejoin x) s = .next (after x.h none id s)) ∧
    (∀ l q, s.m.sl.comet = some (.follower l q) → exec (.rejoin x) s = .next (after x.h none id s)) ∧
    (∀ ms lag r, s.m.sl.comet = some (.leader ms lag r) →
      let t := (after x.h none (fun m => m.updSlot m.cur (fun y => { y with comet := some (.leader ms lag true) })) s).m
      (allRejoin s.m s.m.cur = true → exec (.rejoin x) s = .next { s with m := takeBack s.m.cur (t.slot s.m.cur).pc t }) ∧
      (allRejoin s.m s.m.cur = false → exec (.rejoin x) s = .next { s with m := s.m.updSlot s.m.cur (fun y =>
        { y with wait := some (.rejoin x.h.sc.toNat), look := [], parked := false }) })) ∧
    (∀ l, s.m.sl.comet = some (.detached l) → exec (.rejoin x) s = .next { s with m := s.m.updSlot s.m.cur (fun y =>
      { y with wait := some (.rejoin x.h.sc.toNat), look := [], parked := false }) })) ∧
  (∀ (k pc j sc lag : Nat) (ms : List Nat) (r : Bool) (m : Mach), (m.slot k).comet = some (.leader ms lag r) → j ∈ ms →
    (m.slot j).comet = some (.detached k) → (m.slot j).wait = some (.rejoin sc) → (m.slot j).enabled = true →
    (takeBack k pc m).slot j = { (m.slot j).passComet sc pc with comet := some (.follower k []) })

/-! ## The memory group -/

/-- LD and LDX load at their address through a pending interlocked write of D, counted in oc.ld; ST and STX store the low bytes of their
data register, weakly or strongly (R97 to R99). A misaligned address traps first (R98, R340). -/
def Sys2Proof.Claim.LoadsAndStores : Prop :=
  ∀ (x : MW) (s : State) (pa : Nat), Ready x.h s → IsReg x.a s → IsReg x.b s → IsReg x.d s → Clear s →
    let n := Ty.size x.ty
    let near := addDisp (val x.a s) x.disp
    let far := (near + val x.b s * 2 ^ bits x.c.toNat 0 3) % 2 ^ 64
    let load : Mach → Mach := fun m => startLoad pa n (Ty.signed x.ty) (x.kind == .strong) (x.kind == .strong && x.sco == .sys) x.h.ch.toNat
      s.m.nextId 0 8 (awaits .load ((List.range 8).map (fun i => 8 * gNo x.d + i)) (countsLd m))
    let store : Nat → Mach → Mach := fun v m => if x.kind = .strong then strongStore x.h.ch.toNat (cellsAt pa (toLE n v)) m
      else weakStore x.h.ch.toNat (cellsAt pa (toLE n v)) m
    (near % n = 0 → Maps near .read pa s → RoomLd s → exec (.ld x) s = .next (after x.h none load s)) ∧
    (far % n = 0 → Maps far .read pa s → RoomLd s → exec (.ldx x) s = .next (after x.h none load s)) ∧
    (near % n = 0 → Held near n s → Maps near .write pa s → RoomSt s → exec (.st x) s = .next (after x.h none (store (val x.b s)) s)) ∧
    (far % n = 0 → Held far n s → Maps far .write pa s → RoomSt s → exec (.stx x) s = .next (after x.h none (store (val x.d s)) s)) ∧
    (near % n ≠ 0 → exec (.ld x) s = .next { s with m := takeTrap s.m.cur 0x14 near s.m.sl.retAddr s.m } ∧
      exec (.st x) s = .next { s with m := takeTrap s.m.cur 0x14 near s.m.sl.retAddr s.m })

/-- LDS reads and STS writes scratchpad bytes of the window at once (R87, R88, R100): LDS's result is interlocked and counts in oc.ld, STS
counts in oc.st until its acknowledgement. A range outside the shares and buffers of the context traps. -/
def Sys2Proof.Claim.ScratchpadAccesses : Prop :=
  ∀ (x : MW) (s : State), Ready x.h s → IsReg x.a s → IsReg x.b s → IsReg x.d s → Clear s →
    let n := Ty.size x.ty
    let ea := addDisp (val x.a s) x.disp
    ea % n = 0 →
    (InWindow ea n s → Sound ea n s → RoomLd s → exec (.lds x) s = .next (after x.h none (fun m =>
      lands .load (known (cellsAt (8 * gNo x.d) (extend 8 (Ty.signed x.ty) (s.m.spad.rdN (spPlace s.m.curCore ea) n)))) (countsLd m)) s)) ∧
    (InWindow ea n s → RoomSt s → exec (.sts x) s = .next (after x.h none (fun m =>
      ackLater (storeSp (cellsAt (spPlace s.m.curCore ea) (toLE n (val x.b s))) m)) s)) ∧
    (¬ InWindow ea n s → exec (.lds x) s = .next { s with m := takeTrap s.m.cur 0x15 ea s.m.sl.retAddr s.m } ∧
      exec (.sts x) s = .next { s with m := takeTrap s.m.cur 0x15 ea s.m.sl.retAddr s.m })

/-- Scalar accesses to memory and to the scratchpad (R97 to R100). -/
def Obligations.LoadsAndStores : Prop := Claim.LoadsAndStores ∧ Claim.ScratchpadAccesses

/-- The frame of STS (R100): the scratchpad reads as its data register's bytes at the range stored to, every other byte of the
scratchpads and every byte of memory reads as before, and no register byte changes. -/
def Sys2Proof.Claim.ScratchpadStoreFrame : Prop :=
  ∀ (x : MW) (s t : State), Ready x.h s → IsReg x.a s → IsReg x.b s → Clear s → Alone s →
    let n := Ty.size x.ty
    let ea := addDisp (val x.a s) x.disp
    ea % n = 0 → InWindow ea n s → RoomSt s → exec (.sts x) s = .next t →
    (∀ i < n, t.m.spad.rd (spPlace s.m.curCore ea + i) = val x.b s / 256 ^ i % 256) ∧
    (∀ a, (a < spPlace s.m.curCore ea ∨ spPlace s.m.curCore ea + n ≤ a) → t.m.spad.rd a = s.m.spad.rd a) ∧
    t.m.mem = s.m.mem ∧ t.m.sl.ocSt = s.m.sl.ocSt + 1 ∧ RegistersBut [] s t

/-- The frame of loads and stores at issue (R86, R90, R98): no byte of any memory or scratchpad changes when a load of words without error in
L1, or a store, executes; a store's bytes reach memory when its home slice performs it. -/
def Sys2Proof.Claim.AccessesLeaveMemoryAtIssue : Prop :=
  ∀ (x : MW) (s t : State) (pa : Nat), Ready x.h s → IsReg x.a s → IsReg x.b s → IsReg x.d s → Clear s →
    let n := Ty.size x.ty
    let ea := addDisp (val x.a s) x.disp
    ea % n = 0 →
    (Maps ea .read pa s → RoomLd s → l1Poisoned s.m s.m.curCore pa n = false → exec (.ld x) s = .next t → t.m.mem = s.m.mem ∧ t.m.spad = s.m.spad) ∧
    (Held ea n s → Maps ea .write pa s → RoomSt s → exec (.st x) s = .next t → t.m.mem = s.m.mem ∧ t.m.spad = s.m.spad)

/-- The frames of scalar accesses (R86, R90, R98, R100). -/
def Obligations.AccessFrames : Prop := Claim.ScratchpadStoreFrame ∧ Claim.AccessesLeaveMemoryAtIssue

/-- PF, while no walk of its page is in progress, sends a line request where its address translates and no fill of the line is
under way (R101, R300), and traps outside the virtual
addresses; L1INV and L1INVR, once the loads of the slot have landed, drop the lines they name (R102, R103); CWAIT passes once its counter is small enough (R96). -/
def Sys2Proof.Claim.CacheControl : Prop :=
  (∀ (x : MW) (s : State), Ready x.h s → IsReg x.a s → IsReg x.b s → Clear s →
    let ea := addDisp (val x.a s) x.disp
    (ea < 2 ^ 56 → walking s.m s.m.curCore s.m.cx.asid ea = false →
      exec (.pf x) s = .next (after x.h none (fun m => match quietXlate m.cur ea .read (countTlb m.cur ea m) with
      | (none, m) => m
      | (some pa, m) => if paKind m.dev pa == .hole || paKind m.dev pa == .host || waitsService m.dev pa
          || !bitAt x.c.toNat 0 && (filler m m.curCore (pa / 128)).isSome then m else
        (let r : Req := { id := m.nextId, slot := m.cur, ctx := m.sl.ctx, pa := pa / 128 * 128, st := .sent, kind := .line (!bitAt x.c.toNat 0),
                          mine := wcbBytes m m.curCore, hint := x.h.ch.toNat }
         { m with reqs := m.reqs ++ [r], nextId := m.nextId + 1 })) s)) ∧
    (2 ^ 56 ≤ ea → exec (.pf x) s = .next { s with m := takeTrap s.m.cur 0x17 ea s.m.sl.retAddr s.m })) ∧
  (∀ (x : ZW) (s : State), Ready x.h s → s.m.sl.ocLd = 0 → exec (.l1inv x) s = .next (after x.h none (fun m => l1Inv m.curCore m) s)) ∧
  (∀ (x : MW) (s : State), Ready x.h s → IsReg x.a s → IsReg x.b s → s.m.sl.ocLd = 0 →
    let ea := addDisp (val x.a s) x.disp
    let vas := (List.range ((ea + val x.b s - 1) / 128 - ea / 128 + 1)).map (fun i => (ea / 128 + i) * 128)
    (val x.b s = 0 → exec (.l1invr x) s = .next (after x.h none id s)) ∧
    (32768 < val x.b s → exec (.l1invr x) s = .next (after x.h none (fun m => l1Inv m.curCore m) s)) ∧
    (0 < val x.b s → val x.b s ≤ 32768 → (∀ v ∈ vas, walking s.m s.m.curCore s.m.cx.asid v = false) →
      exec (.l1invr x) s = .next (after x.h none (fun m => vas.foldl (fun m v => match quietXlate m.cur v .read (countTlb m.cur v m) with
        | (some pa, m) => l1InvLines m.curCore [pa / 128] m
        | (none, m) => m) m) s))) ∧
  (∀ (x : IW) (s : State), Ready x.h s →
    let v := if x.d.toNat = 0 then s.m.sl.ocLd else if x.d.toNat = 1 then s.m.sl.ocSt else if x.d.toNat = 2 then s.m.sl.ocAt else s.m.sl.ocLw
    (v ≤ x.imm.toNat → exec (.cwait x) s = .next (after x.h none id s)) ∧
    (x.imm.toNat < v → exec (.cwait x) s = .next { s with m := (if x.d.toNat = 1 then sendMine s.m.cur s.m else s.m).updSlot s.m.cur (fun y =>
      { y with wait := some (.counter x.d.toNat x.imm.toNat), look := [], parked := false }) }))

/-- The registers at a restart point of a block move: D and, of MOVBLK, A advance by the unit, B counts down (R104). -/
def Sys2Proof.Claim.blockRegs (x : MW) (d a b u : Nat) (moveA : Bool) (m : Mach) : Mach := m.updSlot m.cur (fun y =>
  y.poke (gCells (gNo x.d) ((d + u) % 2 ^ 64) ++ (if moveA then gCells (gNo x.a) ((a + u) % 2 ^ 64) else []) ++ gCells (gNo x.b) (b - u)))

/-- The instruction at issue has done some of its units (R106). -/
def Sys2Proof.Claim.atRestart (m : Mach) : Mach := m.updSlot m.cur (fun y => { y with mid := true })

/-- MOVBLK and FILLBLK (R104 to R106): with nothing to move they retire; else one unit, up to the next 128-byte boundary of the destination,
is read as at the given addresses and leaves for its destination, the registers stand at the restart point, and the word retires with the
last unit and stays at issue before it. -/
def Sys2Proof.Claim.BlockMoves : Prop :=
  ∀ (x : MW) (s : State), Ready x.h s → IsReg x.a s → IsReg x.b s →
    let d := val x.d s
    let a := val x.a s
    let b := val x.b s
    let u := min b (128 - d % 128)
    let ssp := bitAt x.c.toNat 0
    let dsp := bitAt x.c.toNat 1
    (b = 0 → exec (.movblk x) s = .next (after x.h none id s) ∧ exec (.fillblk x) s = .next (after x.h none id s)) ∧
    (∀ (tr tw : List (Nat × Nat)) (bytes : List Nat) (m : Mach), b ≠ 0 → Clear s → RoomLd s → RoomSt s →
      (ssp = true → InWindow a u s ∧ tr = []) → (dsp = true → InWindow d u s ∧ tw = []) → (dsp = false → Held d u s ∧ tw.map (·.1) = pagesOf d u) →
      (ssp = false → tr.map (·.1) = pagesOf a u) → (∀ p ∈ tr, Maps p.1 .read p.2 s) → (∀ p ∈ tw, Maps p.1 .write p.2 s) →
      blockRead ssp a u (tr.map (·.2)) x.h.ch.toNat (issued s) = .ok (bytes, m) →
      let src := fun i => if ssp then 2 * spPlace s.m.curCore (a + i) + 1 else 2 * paAt a (tr.map (·.2)) i
      let dst := fun i => if dsp then 2 * spPlace s.m.curCore (d + i) + 1 else 2 * paAt d (tw.map (·.2)) i
      let out := (copyUp (fun i => bytes.getD i 0) src dst u 0 []).map (·.2)
      let stored := if dsp then ackLater (storeSp (cellsAt (spPlace s.m.curCore d) out) m)
        else weakStore x.h.ch.toNat (out.zipIdx.map (fun c => (paAt d (tw.map (·.2)) c.2, c.1))) m
      m.curCore = s.m.curCore →
      exec (.movblk x) s = .next (if b = u then after x.h none (fun _ => blockRegs x d a b u true stored) s
        else { s with m := atRestart (blockRegs x d a b u true stored) })) ∧
    (∀ (tw : List (Nat × Nat)), b ≠ 0 → Clear s → RoomSt s → (dsp = true → InWindow d u s ∧ tw = []) →
      (dsp = false → Held d u s ∧ tw.map (·.1) = pagesOf d u) → (∀ p ∈ tw, Maps p.1 .write p.2 s) →
      let out := (List.range u).map (fun i => a / 2 ^ (8 * ((d + i) % 8)) % 256)
      let stored := if dsp then ackLater (storeSp (cellsAt (spPlace s.m.curCore d) out) (issued s))
        else weakStore x.h.ch.toNat (out.zipIdx.map (fun c => (paAt d (tw.map (·.2)) c.2, c.1))) (issued s)
      exec (.fillblk x) s = .next (if b = u then after x.h none (fun _ => blockRegs x d a b u false stored) s
        else { s with m := atRestart (blockRegs x d a b u false stored) }))

/-- Cache control and block moves (R96, R101 to R106).
One unit an execution is the model's reading (log entry 12), as are when a unit is read (26) and PF's address-range trap (24). -/
def Obligations.CacheControlAndBlockMoves : Prop := Claim.CacheControl ∧ Claim.BlockMoves

/-- Atomics with operand B and their operations (R295), and the reductions. -/
def Sys2Proof.Claim.atomics : List ((MW → Instr) × AtomOp) := [
  (.atomAdd, .add), (.atomMin, .min), (.atomMax, .max), (.atomAnd, .and), (.atomOr, .or), (.atomXor, .xor), (.atomXchg, .xchg), (.atomFadd, .fadd)]
def Sys2Proof.Claim.reductions : List ((MW → Instr) × (MW → AtomOp) × Bool) := [
  (.redAdd, fun _ => .add, false), (.redMin, fun _ => .min, false), (.redMax, fun _ => .max, false), (.redFadd, fun _ => .fadd, true),
  (.redLog, fun x => if bits x.c.toNat 0 2 = 0 then .and else if bits x.c.toNat 0 2 = 1 then .or else .xor, false)]

/-- Atomics and reductions (R294 to R298): outside deterministic mode an atomic with no access of the slot outstanding sends its request to
the home slice, or at scope .oct changes the scratchpad bytes at once; what D receives is awaited, interlocked. Reductions return nothing
and, but for RED.FADD, run in deterministic mode too. -/
def Obligations.AtomicsAndReductions : Prop :=
  let places : MW → List Nat := fun x => (List.range 8).map (fun i => 8 * gNo x.d + i)
  let inv : MW → Bool := fun x => x.sco == .dev || x.sco == .sys
  (∀ (x : MW) (s : State) (pa : Nat), Ready x.h s → IsReg x.a s → IsReg x.b s → Clear s → RoomAt s →
    let ea := addDisp (val x.a s) x.disp
    ea % Ty.size x.ty = 0 →
    (x.sco ≠ .oct → Held ea (Ty.size x.ty) s → Maps ea .write pa s → scopeOk x.sco (paKind s.m.dev pa) = true →
      (IsReg x.d s → Free s → Idle s →
        (∀ p ∈ atomics, exec (p.1 x) s = .next (after x.h none (fun m =>
          sendAtomic x p.2 pa (val x.b s) (some s.m.nextId) (inv x) (awaits .atomic (places x) (countsAt m))) s)) ∧
        (IsReg x.c s → exec (.atomCas x) s = .next (after x.h none (fun m =>
          sendAtomic x (.cas (val x.c s)) pa (val x.b s) (some s.m.nextId) (inv x) (awaits .atomic (places x) (countsAt m))) s)) ∧
        exec (.atomInc x) s = .next (after x.h none (fun m =>
          sendAtomic x .inc pa 0 (some s.m.nextId) (inv x) (awaits .atomic (places x) (countsAt m))) s)) ∧
      (∀ p ∈ reductions, (p.2.2 = true → Free s) →
        exec (p.1 x) s = .next (after x.h none (fun m => sendAtomic x (p.2.1 x) pa (val x.b s) none false (countsAt m)) s))) ∧
    (x.sco = .oct → InWindow ea (Ty.size x.ty) s → Sound ea (Ty.size x.ty) s →
      let old := ofLE (s.m.spad.rdN (spPlace s.m.curCore ea) (Ty.size x.ty))
      (IsReg x.d s → Free s → Idle s →
        (∀ p ∈ atomics, exec (p.1 x) s = .next (after x.h none (fun m =>
          bankAtomic x p.2 ea old (val x.b s) (some s.m.nextId) (awaits .atomic (places x) (countsAt m))) s)) ∧
        (IsReg x.c s → exec (.atomCas x) s = .next (after x.h none (fun m =>
          bankAtomic x (.cas (val x.c s)) ea old (val x.b s) (some s.m.nextId) (awaits .atomic (places x) (countsAt m))) s)) ∧
        exec (.atomInc x) s = .next (after x.h none (fun m =>
          bankAtomic x .inc ea old 0 (some s.m.nextId) (awaits .atomic (places x) (countsAt m))) s)) ∧
      (∀ p ∈ reductions, (p.2.2 = true → Free s) →
        exec (p.1 x) s = .next (after x.h none (fun m => bankAtomic x (p.2.1 x) ea old (val x.b s) none (countsAt m)) s))))

/-- CAPGIVE turns a granule that the core holds over to another core, CAPTAKE takes one that is given to it, CAPQ reports the table entry
(R321 to R323). -/
def Obligations.Capabilities : Prop :=
  (∀ (x : MW) (s : State) (e pa : Nat), Ready x.h s → IsReg x.a s → IsReg x.b s → Clear s → RoomAt s →
    let va := addDisp (val x.a s) x.disp
    capEntryAt s.m.cx va = some e → Maps va .read pa s →
    (val x.b s < 2 ^ 14 → (∃ i < 4, ((issued s).slot (keyOf (val x.b s) i)).ctx = s.m.sl.ctx ∧ ((issued s).slot (keyOf (val x.b s) i)).run ≠ .free) →
      granuleBusy s.m s.m.sl.ctx s.m.curCore va pa = false → s.m.mem.num e 2 = 2 ^ 14 + s.m.curCore →
      exec (.capgive x) s = .next (after x.h none (fun m =>
        atLater (engStore (cellsAt e (toLE 2 (2 ^ 15 + val x.b s))) (countsAt m))) s)) ∧
    (s.m.mem.num e 2 = 2 ^ 15 + s.m.curCore ∨ s.m.mem.num e 2 = 2 ^ 14 + s.m.curCore →
      exec (.captake x) s = .next (after x.h none (fun m => l1Inv s.m.curCore
        (atLater (engStore (cellsAt e (toLE 2 (2 ^ 14 + s.m.curCore))) (countsAt m)))) s)) ∧
    (IsReg x.d s → exec (.capq x) s = .next (after x.h none (lands .ready (known (gCells (gNo x.d)
      (s.m.mem.num e 2 + (if s.m.mem.num e 2 = 2 ^ 14 + s.m.curCore then 2 ^ 16 else 0))))) s))) ∧
  (∀ (x : MW) (s : State), Ready x.h s → IsReg x.a s → IsReg x.b s → IsReg x.d s → Clear s →
    capEntryAt s.m.cx (addDisp (val x.a s) x.disp) = none →
    exec (.capq x) s = .next (after x.h none (lands .ready (known (gCells (gNo x.d) 0))) s) ∧
    exec (.capgive x) s = .next { s with m := takeTrap s.m.cur 0x18 0 s.m.sl.retAddr s.m } ∧
    exec (.captake x) s = .next { s with m := takeTrap s.m.cur 0x18 0 s.m.sl.retAddr s.m })

/-! ## Tasks, queues and their waits -/

/-- HGIVE gives a buffer of the running task away, HFREE frees one; a handle that names none traps (R255, R299). A last-read mark on the
handle frees the buffer as well (R15). A buffer that a command of the slot uses is waited for (R299). -/
def Sys2Proof.Claim.HandleInstructions : Prop :=
  ∀ (x : SW) (s : State), Ready x.h s → IsReg x.a s → IsReg x.b s →
    let free : Nat → Mach → Mach := fun off m => (freeBuf m.curCore off m).updSlot s.m.cur (fun y => { y with owned := y.owned.erase off })
    let mark : Mach → Mach := fun m => if x.h.la then ((bufOf m m.curCore (val x.a s)).elim m (fun y => free y.off m)) else m
    let unused : Buf → Prop := fun b => ∀ c ∈ s.m.cmds, c.slot = s.m.cur → ∀ r ∈ c.spans, ¬ (r.1 < b.off + 1024 * b.size ∧ b.off < r.1 + r.2)
    let waits : Buf → State := fun b => { s with m := s.m.updSlot s.m.cur (fun y =>
      { y with wait := some (.buffer b.off (1024 * b.size)), look := [], parked := false }) }
    (∀ b, bufOf s.m s.m.curCore (val x.a s) = some b → b.off ∈ s.m.sl.owned →
      (x.h.la = false ∨ unused b → exec (.hgive x) s = .next (after x.h none (fun m => mark (m.updCore m.curCore (fun c =>
        { c with bufs := c.bufs.map (fun y => if y.off = b.off then { y with given := true } else y) }))) s)) ∧
      (unused b → exec (.hfree x) s = .next (after x.h none (free b.off) s)) ∧
      (¬ unused b → exec (.hfree x) s = .next (waits b) ∧ (x.h.la = true → exec (.hgive x) s = .next (waits b)))) ∧
    (bufOf s.m s.m.curCore (val x.a s) = none →
      exec (.hgive x) s = .next { s with m := takeTrap s.m.cur 0x3F 0 s.m.sl.retAddr s.m } ∧
      exec (.hfree x) s = .next { s with m := takeTrap s.m.cur 0x3F 0 s.m.sl.retAddr s.m })

/-- FORK (R275, R276, R318): a record that R253 accepts, whose deque has room, in its spill region if need be (R257), becomes a task of the deque; with a join counter the
counter's eight bytes are one larger; the parent's path ordinal advances. A refused record and a full deque trap. -/
def Sys2Proof.Claim.ForkEnqueuesTask : Prop :=
  ∀ (x : MW) (s : State), Ready x.h s → IsReg x.a s → IsReg x.b s →
    let nj := bitAt x.c.toNat 3
    let b := val x.b s
    let q := forkRecord x (issued s) (val x.d s) (if nj then 0 else b)
    let room := canPush (issued s) (forkTarget (issued s) (sl s).nextPath)
    let old := ofLE (s.m.spad.rdN (spPlace s.m.curCore b) 8)
    Clear s →
    (val x.d s < 2 ^ 56 → recRefused s.m.cx.slots q = false → (nj = false → b % 8 = 0 ∧ InWindow b 8 s ∧ Sound b 8 s) → room = true →
      ∀ sp : Option Nat, (pushSpills (issued s) (forkTarget (issued s) (sl s).nextPath) = none → sp = none) →
      (∀ va, pushSpills (issued s) (forkTarget (issued s) (sl s).nextPath) = some va → ∃ pa, sp = some pa ∧ Maps va .write pa s) →
      exec (.fork x) s = .next (after x.h none (fun m =>
        let m1 := forkChild q sp (if nj then m else storeSp (cellsAt (spPlace m.curCore b) (toLE 8 ((old + 1) % 2 ^ 64))) m)
        m1.updSlot m1.cur Slot.countPath) s)) ∧
    (val x.d s < 2 ^ 56 → recRefused s.m.cx.slots q = true → exec (.fork x) s = .next { s with m := takeTrap s.m.cur 0x32 0 s.m.sl.retAddr s.m }) ∧
    (val x.d s < 2 ^ 56 → recRefused s.m.cx.slots q = false → (nj = false → b % 8 = 0 ∧ InWindow b 8 s) → room = false →
      exec (.fork x) s = .next { s with m := takeTrap s.m.cur 0x33 0 s.m.sl.retAddr s.m })

/-- Handles and FORK (R255, R275, R276, R299). -/
def Obligations.HandlesAndForks : Prop := Claim.HandleInstructions ∧ Claim.ForkEnqueuesTask

/-- EXIT ends the task once the slot has no access, no pending write and no command left (R70); JOIN passes with L1 invalidated once its
counter is 0, else runs the slot's own next task, which a spilled one follows in the hardware entries (R257), or waits (R277); JOINM folds the quads of its range when its counter is 0 (R278). -/
def Obligations.TasksEndAndJoin : Prop :=
  (∀ (x : ZW) (s : State), Ready x.h s → Idle s → (∀ c ∈ s.m.cmds, c.slot ≠ s.m.cur) →
    exec (.exit x) s = .next { s with m := endTask s.m.cur (exitComet s.m.cur (after x.h none id s).m) }) ∧
  (∀ (x : MW) (s : State), Ready x.h s → IsReg x.a s → IsReg x.b s → Clear s →
    let ea := addDisp (val x.a s) x.disp
    ea % 8 = 0 → InWindow ea 8 s → Sound ea 8 s →
    let n := ofLE (s.m.spad.rdN (spPlace s.m.curCore ea) 8)
    (n = 0 → exec (.join x) s = .next (after x.h none (fun m => l1Inv m.curCore m) s)) ∧
    (n ≠ 0 → (sl s).dqEmpty = true ∨ 16 ≤ s.m.sl.aside.length → exec (.join x) s = .next { s with m := s.m.updSlot s.m.cur (fun y =>
      { y with wait := some (.join s.m.curCore ea), look := [], parked := false }) }) ∧
    (∀ e y (sp : Option Nat), n ≠ 0 → (sl s).dqEmpty = false → s.m.sl.aside.length < 16 → ((sl s).popRefills = false → sp = none) →
      ((sl s).popRefills = true → ∃ pa, sp = some pa ∧ Maps (spillVa (sl s) (s.m.sl.spilled.length - 1)) .read pa s) →
      popBottom s.m.cur (refillFrom s.m.cur sp) (issued s) = some (e, y) →
      exec (.join x) s = .next { s with m := unlessEnded s.m.sl.ctx (fun y => writeAside y.cur (y.updSlot y.cur (fun z =>
        { setAside z with next := some e, nextStolen := false }))) y }) ∧
    (IsReg x.d s → n = 0 →
      let b := val x.b s
      let o := bits b 0 21
      let k := bits b 32 16
      bits b 21 11 = 0 → bits b 48 16 = 0 → o % 8 = 0 → 0 < k → k ≤ 4096 → InWindow o (8 * k) s → Sound o (8 * k) s →
      let l := quadsOf (s.m.spad.rdN (spPlace s.m.curCore o) (8 * k)) k
      exec (.joinm x) s = .next (after x.h none (fun m => lands .ready (known (gCells (gNo x.d)
        (l.tail.foldl (joinStep (bits x.c.toNat 0 2) (Ty.signed x.ty)) (l.headD 0)))) (l1Inv m.curCore m)) s)))

/-- LAUNCH and QFENCE append a packet of their types whose fields and record R280 accepts to a queue with room, once the slot's stores, atomics and law
operations are complete, and give its sequence number (R280); with a full queue they wait, and a packet with a reserved field traps. -/
def Sys2Proof.Claim.LaunchAppendsPacket : Prop :=
  ∀ (x : MW) (s : State), Ready x.h s → IsReg x.a s → IsReg x.b s → IsReg x.d s → Idle s →
    let ea := addDisp (val x.a s) x.disp
    let l := s.m.spad.rdN (spPlace s.m.curCore ea) 256
    let p := quadsOf l 32
    let y := s.m.cx.queues.get Queue.init x.c.toNat
    let ty := bits (p.getD 0 0) 0 8
    let done := after x.h none (fun m => lands .ready (known (gCells (gNo x.d) y.tail)) (putPacket x.c.toNat l m)) s
    let waits : State := { s with m := s.m.updSlot s.m.cur (fun z => { z with wait := some (.queueRoom s.m.sl.ctx x.c.toNat), look := [], parked := false }) }
    ea % 8 = 0 → InWindow ea 256 s → Sound ea 256 s →
    (packetReserved p = true → exec (.launch x) s = .next { s with m := takeTrap s.m.cur 0x35 0 s.m.sl.retAddr s.m }) ∧
    (packetReserved p = false → (ty = 1 → recRefused s.m.cx.slots ((p.drop 8).take 8) = false) →
    (y.pendingCount < 256 →
      (ty = 0 ∨ ty = 1 → exec (.launch x) s = .next done) ∧ (ty = 2 → exec (.qfence x) s = .next done)) ∧
    (256 ≤ y.pendingCount →
      (ty = 0 ∨ ty = 1 → exec (.launch x) s = .next waits) ∧ (ty = 2 → exec (.qfence x) s = .next waits)))

/-- SPAWN (R279): with free units for its groups it places the root tasks of its record, in the spawning task's gang and named by its path;
without them .try reports 1 and the plain form waits, from when it began to (R264). -/
def Sys2Proof.Claim.SpawnPlacesRoots : Prop :=
  ∀ (x : MW) (s : State) (tr : List (Nat × Nat)) (l : List Nat) (m : Mach), Ready x.h s → IsReg x.a s → IsReg x.b s → IsReg x.d s → Idle s → Clear s →
    let ea := addDisp (val x.a s) x.disp
    let b := val x.b s
    let g := bits b 0 16
    let shp := bits b 16 2
    let try_ := bitAt x.c.toNat 0
    b < 2 ^ 18 → 0 < g → g ≤ 4096 → shp ≠ 3 → ea % 8 = 0 → tr.map (·.1) = pagesOf ea 64 → (∀ p ∈ tr, Maps p.1 .read p.2 s) →
    readQuads ea (tr.map (·.2)) 8 0 (issued s) = .ok (l, m) → m.sl.stream x.d = none → m.cur = s.m.cur →
    recRefused m.cx.slots l = false → g ≤ (unitsOf m m.sl.ctx shp).length →
    (∀ units, spawnUnits m m.sl.ctx m.cur shp g = some units → (spawnRoots l shp g units m).cur = s.m.cur →
      (spawnRoots l shp g units m).sl.stream x.d = none →
      exec (.spawn x) s = .next (after x.h none (fun _ =>
        let m1 := (spawnRoots l shp g units m).updSlot s.m.cur Slot.countPath
        if try_ then lands .ready (known (gCells (gNo x.d) 0)) m1 else m1) s)) ∧
    (spawnUnits m m.sl.ctx m.cur shp g = none →
      (try_ = true → exec (.spawn x) s = .next (after x.h none (fun _ => lands .ready (known (gCells (gNo x.d) 1)) m) s)) ∧
      (try_ = false → exec (.spawn x) s = .next { s with m := s.m.updSlot s.m.cur (fun z => { z with
        wait := some (match s.m.sl.wait with
          | some (.units _ _ t res) => .units g shp t res
          | _ => .units g shp m.sid false)
        look := []
        parked := false }) }))

/-- Launching from code (R279, R280). -/
def Obligations.LaunchAndSpawn : Prop := Claim.LaunchAppendsPacket ∧ Claim.SpawnPlacesRoots

/-- Identity and deques (R281, R282, R274, R319): TASKID, DPATH, DQSTAT and PCHK report, STEALDOM sets the stealing domain, WDCFG the watchdog
interval of the gang, DQSPILL, privileged, the spill region of an empty deque ring. -/
def Obligations.TaskIdentity : Prop :=
  (∀ (x : SW) (s : State), Ready x.h s → IsReg x.a s → IsReg x.b s → IsReg x.d s →
    exec (.taskid x) s = .next (after x.h none (fixed 2 (gCells (gNo x.d) (taskidWord s.m.sl))) s) ∧
    exec (.dpath x) s = .next (after x.h none (fixed 2 (gCells (gNo x.d)
      (s.m.sl.task.elim 0 (fun t => if bitAt x.mod.toNat 0 then t.ord % 2 ^ 64 else t.e.path)))) s) ∧
    (Free s → exec (.dqstat x) s = .next (after x.h none (lands .ready (known (gCells (gNo x.d) (s.m.sl.deque.length + s.m.sl.spilled.length * 2 ^ 8)))) s) ∧
      exec (.pchk x) s = .next (after x.h none (lands .gang (known (gCells (gNo x.d)
        (min ((gangOf s.m s.m.sl).elim 0 (·.live)) (2 ^ 32 - 1) + ofBool s.m.cx.pre.isSome * 2 ^ 32)))) s))) ∧
  (∀ (x : IW) (s : State), Ready x.h s →
    exec (.stealdom x) s = .next (after x.h none (fun m => m.updSlot m.cur (fun y => { y with steald := x.imm.toNat, victims := [] })) s) ∧
    (∀ t g G, s.m.sl.task = some t → t.e.gang = some g → s.m.gangs.find g = some G →
      exec (.wdcfg x) s = .next (after x.h none (fun m => { m with gangs := m.gangs.put g { G with wdi := x.imm.toNat, per := true, timer := s.m.sid } }) s)) ∧
    (s.m.sl.task = none → exec (.wdcfg x) s = .next (after x.h none id s))) ∧
  (∀ (x : MW) (s : State), Ready x.h s → IsReg x.a s → IsReg x.b s → Privileged s →
    let ea := addDisp (val x.a s) x.disp
    let b := val x.b s
    ea % 128 = 0 → (b = 0 ∨ (7 ≤ b ∧ b ≤ 20)) → s.m.sl.spilled = [] →
    exec (.dqspill x) s = .next (after x.h none (fun m => m.updSlot m.cur (fun y =>
      { y with dqring := b + bits ea 7 49 * 128, spillHead := 0, spillCnt := 0 })) s))

/-- Barriers (R283 to R285): BARI makes an object and gives its handle, .free ends an idle one; BARA counts its core's arrival, gives the
phase it arrived at and completes the phase when every member has arrived; BARW passes, with L1 invalidated, once that phase is complete,
or the one that it began to wait for. -/
def Sys2Proof.Claim.Barriers : Prop :=
  ∀ (x : SW) (y : MW) (s : State),
    let cl := clusterOf s.m.curCore
    let i := s.m.curCore % 64
    (Ready y.h s → IsReg y.a s → IsReg y.b s → IsReg y.d s →
      (∀ j g, val y.a s ≠ 0 → (∀ k < 64, bitAt (val y.a s) k = true → holdsSlot (issued s) s.m.sl.ctx (64 * cl + k) = true) →
        (List.range 64).find? (fun k => !((s.m.cluster cl).bars.get Barrier.init k).live) = some j →
        g = (((s.m.cluster cl).bars.get Barrier.init j).gen + 1) % 2 ^ 32 →
        exec (.bari y) s = .next (after y.h none (fun m => lands .ready (known (gCells (gNo y.d) (j + cl * 2 ^ 6 + g * 2 ^ 32)))
          (barPut m.curCore j ⟨true, s.m.sl.ctx, g, val y.a s, 0, []⟩ m)) s)) ∧
      (∀ b, barOf s.m s.m.sl.ctx s.m.curCore (val y.a s) = some b → (∀ k ∈ b.members, b.lead k = 0) →
        barWaited (issued s) cl (barObj (val y.a s)) = false →
        exec (.bariFree y) s = .next (after y.h none (fun m => barPut m.curCore (barObj (val y.a s)) { b with live := false } m) s))) ∧
    (Ready x.h s → IsReg x.a s → IsReg x.b s → IsReg x.d s →
      ∀ b, barOf s.m s.m.sl.ctx s.m.curCore (val x.a s) = some b → bitAt b.mask i = true →
      (Idle s → b.lead i ≠ 3 →
        let b1 : Barrier := { b with arrived := b.arrived.put i (b.arrived.get 0 i + 1) }
        let done := b1.members.all (fun j => decide (b1.phase + 1 ≤ b1.arrived.get 0 j))
        let met : Mach → Mach := fun m =>
          let m := barPut m.curCore (barObj (val x.a s)) (if done then { b1 with phase := b1.phase + 1 } else b1) m
          if done then phaseDone cl b m else m
        (met (issued s)).cur = s.m.cur → (met (issued s)).sl.stream x.d = none →
        exec (.bara x) s = .next (after x.h none (fun m => lands .ready (known (gCells (gNo x.d) ((b.arrived.get 0 i + 1) % 4))) (met m)) s)) ∧
      (let n := match s.m.sl.wait with
          | some (.barrier _ _ _ n) => n
          | _ => b.arrived.get 0 i - (b.arrived.get 0 i + 4 - val x.b s % 4) % 4
        n ≤ b.phase ∨ s.m.sl.wait = some .released →
        exec (.barw x) s = .next (after x.h none (fun m => l1Inv m.curCore m) s)))

/-- Semaphores (R286, R287): SEMP adds, SEMW subtracts when the count allows it and nobody waits before the slot; SEMI, privileged, sets the
count. SEMAPHORE_SERVE lets the first waiter that the count allows go on. -/
def Sys2Proof.Claim.Semaphores : Prop :=
  (∀ (x : IW) (s : State), Ready x.h s →
    let c := s.m.sl.ctx
    let pr := pairOf s.m.curCore
    let p := s.m.pair c pr
    let sem := x.d.toNat
    let n := x.imm.toNat
    (semFirst p.semP sem s.m.cur = true → p.ps.get 0 sem + n ≤ 255 →
      exec (.semp x) s = .next (after x.h none (fun m =>
        let m := m.setPair c pr { p with ps := p.ps.put sem (p.ps.get 0 sem + n), semP := p.semP.erase (8 * s.m.cur + sem) }
        (m.slotsOfCtx c).foldl (fun m j => if pairOf (coreOf j) == pr then m.updSlot j (fun y => { y with latch := y.latch ||| 4 }) else m) m) s)) ∧
    (semFirst p.semW sem s.m.cur = true → n ≤ p.ps.get 0 sem →
      exec (.semw x) s = .next (after x.h none (fun m =>
        m.setPair c pr { p with ps := p.ps.put sem (p.ps.get 0 sem - n), semW := p.semW.erase (8 * s.m.cur + sem) }) s))) ∧
  (∀ (x : YW) (s : State), Ready x.h s → Privileged s →
    let p := s.m.pair s.m.sl.ctx (pairOf s.m.curCore)
    exec (.semi x) s = .next (after x.h none (fun m => m.setPair s.m.sl.ctx (pairOf s.m.curCore)
      { p with ps := p.ps.put (bits x.mod.toNat 0 3) (bits x.imm.toNat 0 8) }) s)) ∧
  (∀ (c pair sem k n l : Nat) (s : State), (s.m.slot k).wait = some (.semW c pair sem n l) → (semQueue (s.m.pair c pair).semW sem).head? = some k →
    n ≤ (s.m.pair c pair).ps.get 0 sem → exec (.semaphoreServe c pair sem) s = .next { s with m := s.m.updSlot k (fun y => { y with wait := none }) })

/-- Timelines (R288 to R290): TWAIT passes, with L1 invalidated, once the counter has reached its number and waits until then; TREAD reports
the counter, TSET, privileged, sets the counter of a slot of the context that has no command on it. -/
def Sys2Proof.Claim.Timelines : Prop :=
  (∀ (x : IW) (s : State), Ready x.h s → IsReg x.a s → IsReg x.b s →
    let n := if bitAt x.mod.toNat 0 then ofInt 64 ((val x.a s : Int) + sx 32 x.imm.toNat) else x.imm.toNat
    let t := x.d.toNat - 16
    let k := tlSlot s.m.cur t
    (n ≤ ((issued s).tlOf k t).count → exec (.twait x) s = .next (after x.h none (fun m => l1Inv m.curCore m) s)) ∧
    (((issued s).tlOf k t).count < n → s.m.sl.wait ≠ some .released → exec (.twait x) s = .next { s with m := s.m.updSlot s.m.cur (fun y =>
      { y with wait := some (.timeline k t n), look := [], parked := false }) })) ∧
  (∀ (x : SW) (s : State), Ready x.h s → IsReg x.a s → Free s →
    exec (.tread x) s = .next (after x.h none (lands .ready (known (gCells (gNo x.a)
      ((issued s).tlOf (tlSlot s.m.cur (x.d.toNat - 16)) (x.d.toNat - 16)).count))) s)) ∧
  (∀ (x : YW) (s : State), Ready x.h s → IsReg x.a s → IsReg x.b s → Privileged s →
    let t := x.d.toNat - 16
    let other := bitAt x.mod.toNat 0
    let k := tlSlot (if other then keyOf (bits x.imm.toNat 0 14) (bits x.mod.toNat 1 2) else s.m.cur) t
    (other = true → ((issued s).slot k).run ≠ .free ∧ ((issued s).slot k).ctx = s.m.sl.ctx) → (∀ c ∈ s.m.cmds, ¬ (c.slot = k ∧ c.tl = t)) →
    exec (.tset x) s = .next (after x.h none (setTimeline k t ⟨val x.a s, val x.a s, 0⟩) s))

/-- Synchronisation between slots (R283 to R290). -/
def Obligations.BarriersSemaphoresAndTimelines : Prop := Claim.Barriers ∧ Claim.Semaphores ∧ Claim.Timelines

/-- Versioned tiles (R243 to R251): with the header block read as R244 says, PUBLISH makes the next version, STOPREF sets the stop bit, both
send their notices and count in oc.at until they are accepted; REFCHK reports how the version stands; SUBSCR makes an entry, with the free path
name of log entry 5; SETTLW passes once the group is settled. -/
def Obligations.VersionedTiles : Prop :=
  (∀ (x : MW) (s : State) (pa h : Nat) (m : Mach), Ready x.h s → IsReg x.a s → IsReg x.b s →
    let va := addDisp (val x.a s) x.disp
    let noted : Nat → Mach → Mach := fun h' m => sendNotices pa h' (homeStore (cellsAt pa (toLE 8 h')) m)
    m.cur = s.m.cur → m.sl = sl s →
    (Idle s → tileAt va .write true (issued s) = .ok ((pa, h), m) → hFin h = false → hVer h ≠ 2 ^ 32 - 1 →
      exec (.publish x) s = .next (after x.h none (fun _ => noted (h + 1 + (if bitAt x.c.toNat 0 then 2 ^ 32 else 0)) (countsAt m)) s)) ∧
    (Free s → RoomAt s → tileAt va .write false (issued s) = .ok ((pa, h), m) →
      exec (.stopref x) s = .next (after x.h none (fun _ => noted (setBits h 33 1 1) (countsAt m)) s)) ∧
    (Free s → IsReg x.d s → s.m.sl.ocLd < 255 → tileAt va .read false (issued s) = .ok ((pa, h), m) →
      exec (.refchk x) s = .next (after x.h none (fun _ => fillLand s.m.cur m.nextId 0
        (toLE 8 (if hStop h then 2 else if val x.b s % 2 ^ 32 < hVer h then 1 else 0))
        (awaits .counted ((List.range 8).map (fun i => 8 * gNo x.d + i)) (countsLd m))) s))) ∧
  (∀ (x : MW) (s : State) (p : Nat × Nat) (h i : Nat) (l : List Nat) (m m1 m2 : Mach), Ready x.h s → IsReg x.a s → IsReg x.b s → Free s →
    let va := addDisp (val x.a s) x.disp
    subscrPlaces (val x.b s) va (issued s) = .ok (p, m) → readQuads (val x.b s) [p.1] 8 0 m = .ok (l, m1) → tileWord p.2 m1 = .ok (h, m2) →
    m2.sl.ocAt < 255 → recJv l = false → recRefused m2.cx.slots l = false → hCnt h ≠ 7 →
    (List.range 256).find? (fun j => ((m2.cluster (clusterOf m2.curCore)).subs.find j).isNone) = some i →
    exec (.subscr x) s = .next (after x.h none (fun _ => subscribe va p.2 h i (bits x.c.toNat 0 6) l m2.fresh
      { countsAt m2 with fresh := m2.fresh + 1 }) s)) ∧
  (∀ (x : IW) (s : State), Ready x.h s →
    let cl := clusterOf s.m.curCore
    let c := s.m.sl.ctx
    let g := x.imm.toNat
    (settled s.m cl c g = true → exec (.settlw x) s = .next (after x.h none (fun m => if bitAt x.mod.toNat 0 then
      (((m.cluster cl).subs.filter (fun e => e.2.ctx == c && e.2.grp == g)).map (·.1)).foldl (fun m i => freeSub cl i m) m else m) s)) ∧
    (settled s.m cl c g = false → exec (.settlw x) s = .next { s with m := s.m.updSlot s.m.cur (fun y =>
      { y with wait := some (.settled cl c g), look := [], parked := false }) }))

/-! ## Constellations, event queues and lanes -/

/-- GNODE writes a node that R269 accepts; GSUB makes a constellation of nodes that are not live, launches those without predecessors and gives
its handle; GQRY reports it (R291 to R293). -/
def Sys2Proof.Claim.Constellations : Prop :=
  (∀ (x : MW) (s : State), Ready x.h s → IsReg x.a s → IsReg x.b s → Clear s →
    let ea := addDisp (val x.a s) x.disp
    let cl := clusterOf s.m.curCore
    let q := quadsOf (s.m.spad.rdN (spPlace s.m.curCore ea) 32) 4
    ea % 32 = 0 → InWindow ea 32 s → Sound ea 32 s → inNodes s.m.cx (val x.b s) = true → (∀ i ∈ nodeSucc q, inNodes s.m.cx i = true) →
    ((s.m.cluster cl).nodes.find (val x.b s)).any (·.live) = false → nodeBad q = false →
    let node : Node := ⟨bits (q.getD 0 0) 0 2, bits (q.getD 0 0) 4 8, nodeSucc q, q.getD 1 0, q.getD 2 0, false, false, false, false, false, 0⟩
    exec (.gnode x) s = .next (after x.h none (fun m =>
      m.setCluster cl { m.cluster cl with nodes := (m.cluster cl).nodes.put (val x.b s) node }) s)) ∧
  (∀ (x : MW) (s : State) (i : Nat), Ready x.h s → IsReg x.a s → IsReg x.b s → IsReg x.d s → Idle s → Clear s →
    let ea := addDisp (val x.a s) x.disp
    let b := val x.b s
    let cl := clusterOf s.m.curCore
    let l := s.m.spad.rdN (spPlace s.m.curCore ea) (2 * b)
    let ix := (List.range b).map (fun j => ofLE ((l.drop (2 * j)).take 2))
    0 < b → b ≤ 1024 → ea % 2 = 0 → InWindow ea (2 * b) s → Sound ea (2 * b) s →
    (∀ j ∈ ix, inNodes s.m.cx j = true ∧ ∃ n, (s.m.cluster cl).nodes.find j = some n ∧ n.live = false) → ix.Nodup →
    (List.range 64).find? (fun j => !((s.m.cluster cl).cons.find j).any (·.live)) = some i →
    let gn := nextGen (s.m.cluster cl) i
    exec (.gsub x) s = .next (after x.h none (fun m => launchFirst cl ix (lands .ready (known (gCells (gNo x.d) (i + cl * 2 ^ 6 + gn % 2 ^ 32 * 2 ^ 32)))
      ((makeConstellation cl i gn ix m).updSlot m.cur Slot.countPath))) s)) ∧
  (∀ (x : MW) (s : State), Ready x.h s → IsReg x.a s → IsReg x.b s → IsReg x.d s → Free s →
    exec (.gqry x) s = .next (after x.h none (lands .ready (known (gCells (gNo x.d) (gqryWord s.m s.m.sl.ctx (val x.a s))))) s))

/-- Event queues (R157 to R162): EVPOP takes the oldest record into eight registers and says in a predicate whether there was one; EVWAIT passes
with the number of records; EVPUSH sends a record to a slot of the context, counted in oc.st; EVCFG sets the overflow ring and clears. -/
def Sys2Proof.Claim.EventQueueInstructions : Prop :=
  (∀ (x : SW) (s : State), Ready x.h s → (∀ i < 8, IsReg (regAt x.d i) s) →
    (s.m.cx.det = true → s.m.sl.evq ≠ []) → (s.m.sl.evq = [] → s.m.sl.rq = 0) →
    let q := s.m.sl.evq.headD []
    exec (.evpop x) s = .next (after x.h none (fun m =>
      let m := lands .ready (known ((List.range 8).map (fun i => gCells (gNo (regAt x.d i)) (q.getD i 0))).flatten) m
      let m := if x.c = 0 then m else lands .ready (known (qCells (qNo x.c) (!s.m.sl.evq.isEmpty))) m
      m.updSlot m.cur (fun y => { y with evq := y.evq.tail })) s)) ∧
  (∀ (x : IW) (s : State), Ready x.h s → IsReg x.d s → Free s →
    (x.imm.toNat ≤ s.m.sl.evq.length + s.m.sl.rq →
      exec (.evwait x) s = .next (after x.h none (lands .ready (known (gCells (gNo x.d) (s.m.sl.evq.length + s.m.sl.rq)))) s)) ∧
    (s.m.sl.evq.length + s.m.sl.rq < x.imm.toNat → exec (.evwait x) s = .next { s with m := s.m.updSlot s.m.cur (fun y =>
      { y with wait := some (.records x.imm.toNat), look := [], parked := false }) })) ∧
  (∀ (x : SW) (s : State), Ready x.h s → IsReg x.a s → IsReg x.b s → (∀ i < 8, IsReg (regAt x.b i) s) → RoomSt s →
    let k := keyOf (bits (val x.a s) 0 14) (bits (val x.a s) 14 2)
    let there := ((issued s).slot k).run ≠ .free ∧ ((issued s).slot k).ctx = s.m.sl.ctx
    (val x.a s < 2 ^ 16 → there → exec (.evpush x) s = .next (after x.h none (fun m =>
      bumpSt m.cur { m with records := m.records ++ [⟨s.m.sl.ctx, k, (List.range 8).map (fun i => val (regAt x.b i) s), some m.cur, none⟩] }) s)) ∧
    (2 ^ 16 ≤ val x.a s ∨ ¬ there → exec (.evpush x) s = .next { s with m := takeTrap s.m.cur 0x20 0 s.m.sl.retAddr s.m })) ∧
  (∀ (x : YW) (s : State), Ready x.h s → IsReg x.a s → IsReg x.b s →
    let w := val x.a s
    let clr := bitAt x.mod.toNat 0
    w < 2 ^ 56 → (bits w 0 6 = 0 ∨ (6 ≤ bits w 0 6 ∧ bits w 0 6 ≤ 20)) →
    (clr = false → s.m.sl.rq = 0 → exec (.evcfg x) s = .next (after x.h none (fun m => m.updSlot m.cur (fun y =>
      { y with evring := w, rqHead := 0 })) s)) ∧
    (clr = true → exec (.evcfg x) s = .next (after x.h none (fun m => m.updSlot m.cur (fun y =>
      { y with evq := [], rq := 0, drop := 0, ovf := false, evring := w, rqHead := 0 })) s)))

/-- Constellations and event queues (R157 to R162, R291 to R293). -/
def Obligations.ConstellationsAndEventQueues : Prop := Claim.Constellations ∧ Claim.EventQueueInstructions

/-- Lane grants (R220 to R222): VCLAIM gives up the slot's grant, takes at most the lanes asked for, in granules of 16, when no older claim
waits and its least is free, and reports the grant; it waits otherwise; VREL gives the grant back, VRENEG raises it while nobody waits,
outside deterministic mode. That it raises it by all that is lacking, as far as lanes are free, is the model's choice (log entry 65). -/
def Obligations.LaneClaims : Prop :=
  (∀ (x : IW) (s : State), Ready x.h s → IsReg x.a s → IsReg x.b s → IsReg x.d s →
    let n := bits x.imm.toNat 0 9
    let mn := bits x.imm.toNat 16 9
    let least := if s.m.cx.det then n else if mn = 0 then 16 else mn
    let o := octetOf s.m.curCore
    let free := freeLanes ((issued s).updSlot s.m.cur (fun y => { y with grantP := 0 })) o
    let first := (headClaim (issued s) o).elim true (fun c => c.slot == s.m.cur)
    let p := min n free / 16 * 16
    let claim := fun (m : Mach) => (setClaims o (fun l => l.filter (fun c => c.slot != m.cur)) m).updSlot m.cur (fun y =>
      { y with grantP := p, grantN := p, grantReq := n })
    (s.m.sl.wait ≠ some .released → first = true → least ≤ free →
      exec (.vclaim x) s = .next (after x.h none (fun m => lands .ready (known (gCells (gNo x.d) p)) (claim m)) s)) ∧
    (s.m.sl.wait = some .released →
      exec (.vclaim x) s = .next (after x.h none (lands .ready (known (gCells (gNo x.d) s.m.sl.grantN))) s)) ∧
    (s.m.sl.wait ≠ some .released → first = false ∨ free < least → ∃ t, exec (.vclaim x) s = .next t ∧
      t.m.sl.wait = some .lanes ∧ t.m.sl.grantP = 0 ∧ t.m.sl.pc = s.m.sl.pc)) ∧
  (∀ (x : ZW) (s : State), Ready x.h s →
    exec (.vrel x) s = .next (after x.h none (fun m => m.updSlot m.cur (fun y => { y with grantP := 0, grantN := 0 })) s)) ∧
  (∀ (x : SW) (s : State), Ready x.h s → IsReg x.a s → IsReg x.b s → IsReg x.d s →
    let o := octetOf s.m.curCore
    let add := if (headClaim (issued s) o).isSome || s.m.cx.det then 0 else min (s.m.sl.grantReq - s.m.sl.grantP) (freeLanes (issued s) o) / 16 * 16
    exec (.vreneg x) s = .next (after x.h none (fun m => lands .ready (known (gCells (gNo x.d) (s.m.sl.grantP + add)))
      (m.updSlot m.cur (fun y => { y with grantP := y.grantP + add, grantN := y.grantP + add }))) s))

/-! ## Laws -/

/-- The law words of class M with their operations: whether B is an operand, and whether a result is returned (R138, R139). -/
def Sys2Proof.Claim.lawWords : List ((MW → Instr) × LawOp × Bool × (MW → Bool)) := [
  (.lwadv, .adv, false, fun x => !nrOf x), (.lwadd, .add, true, fun x => !nrOf x), (.lwset, .set, true, fun _ => false),
  (.lwmax, .max, true, fun x => !nrOf x), (.lwarm, .arm, false, fun _ => true), (.lwdisarm, .disarm, false, fun _ => false),
  (.lwpeek, .peek, false, fun _ => true), (.lwcas, .cas, true, fun _ => true), (.lwxch, .xch, true, fun _ => true),
  (.lwclr, .clr, false, fun x => !nrOf x)]

/-- The word lies at a place where R136 lets it be operated on: aligned, in the window at .oct, else translated, held, with its home slice in
reach of the scope. -/
def Sys2Proof.Claim.LawPlace (sco : Sco) (w128 peek : Bool) (ea : Nat) (p : LawAt) (s : State) : Prop :=
  let n := lawSize w128
  p.w128 = w128 ∧ ea % n = 0 ∧
  if sco = .oct then p.oct = true ∧ p.place = spPlace s.m.curCore ea ∧ InWindow ea n s
  else p.oct = false ∧ Maps ea (if peek then .read else .write) p.place s ∧ (peek = false → Held ea n s) ∧ paKind s.m.dev p.place ≠ .host ∧
    (paKind s.m.dev p.place = .peer → sco = .sys)

/-- The word's line, asked for by the instruction at issue, has had its turn at its home slice, and the slice holds nothing that is to be
performed before the word (R9, R137); at .oct there is none. -/
def Sys2Proof.Claim.Turned (p : LawAt) (s : State) : Prop := p.oct = false →
  s.m.sl.got.any (fun c => c.1 == broughtAt (p.place / 128)) = true ∧ (present s.m p.place = true ∨ paKind s.m.dev p.place = .peer) ∧
  sliceFree s.m p.place = true

/-- Law operations (R135 to R139, R146, R150): on a word whose descriptor is loaded, and in deterministic mode stepped, the operation enters
its law unit, counted in oc.lw, and what D receives is awaited; on a bad word it traps, but for LWDISARM, which asks nothing of the word. A
word's line that has not had its turn at its home slice is asked for. That the line is asked for by the instruction, and that the operation enters its
unit at the execution in which the line has had its turn, is the model's reading (log entries 12, 30). -/
def Obligations.LawWords : Prop :=
  ∀ w ∈ lawWords, ∀ (x : MW) (s : State) (p : LawAt), Ready x.h s → IsReg x.a s → IsReg x.b s → IsReg x.d s →
    (w128Of x = true → IsReg (x.b + 1) s ∧ IsReg (x.d + 1) s) → Clear s → RoomLw s →
    let ea := addDisp (val x.a s) x.disp
    LawPlace x.sco (w128Of x) (decide (w.2.1 = .peek)) ea p s →
    let b := if w.2.2.1 then val x.b s else 0
    let b1 := if w.2.1 = .set ∧ w128Of x = true then val (x.b + 1) s else 0
    let desc := if w.2.1 = .set then setDesc s.m.cx (w128Of x) b b1 else lawDesc s.m.cx (w128Of x) (lawRead s.m p)
    let places := (List.range 8).map (fun i => 8 * gNo x.d + i) ++
      (if w128Of x = true ∧ w.2.1 ≠ .arm then (List.range 8).map (fun i => 8 * gNo (x.d + 1) + i) else [])
    (Turned p s → (w.2.1 = .disarm ∧ desc = none ∨ ∃ y, desc = some y ∧ (s.m.cx.det = true → (s.m.cx.stepped.find y.dom).isSome = true)) →
      exec (w.1 x) s = .next (after x.h none (fun m =>
        if w.2.2.2 x then startLaw w.2.1 p ea b b1 (some s.m.nextId) (awaits .law places (countsLw m))
        else startLaw w.2.1 p ea b b1 none (countsLw m)) s)) ∧
    (Turned p s → w.2.1 ≠ .disarm → desc = none → exec (w.1 x) s = .next { s with m := takeTrap s.m.cur 0x1C 0 s.m.sl.retAddr s.m }) ∧
    (∀ y, Turned p s → desc = some y → s.m.cx.det = true → s.m.cx.stepped.find y.dom = none →
      exec (w.1 x) s = .next { s with m := takeTrap s.m.cur 0x04 0 s.m.sl.retAddr s.m }) ∧
    (p.oct = false → (w.2.1 = .set → domBarred s.m.cx desc = false) → s.m.sl.got.any (fun c => c.1 == broughtAt (p.place / 128)) = false →
      exec (w.1 x) s = .next { s with m := (askLines [(p.place, lawSize (w128Of x))] 0 s.m).updSlot s.m.cur (fun y =>
        { y with wait := some .data, look := [], parked := false }) })

/-- Law words of vector lanes (R142): VLWADV and VLWADD check every lane's place, perform the lanes' operations in lane order, and count once in
oc.lw. With no bad word their results are awaited together; a bad word leaves the other lanes' results in D and the word traps with the
lane's number, returning past itself. -/
def Sys2Proof.Claim.LawLanes : Prop :=
  ∀ (x : MW) (s : State) (add : Bool) (ps : List LawAt), Ready x.h s → IsReg x.a s → IsReg x.b s → Clear s → RoomLw s →
    let y := sl s
    let n := y.vlanes
    let i := if add then Instr.vlwadd x else Instr.vlwadv x
    let op := if add then LawOp.add else LawOp.adv
    let dest := !add || x.d != 0
    let eas := (List.range n).map (fun l => (addDisp (val x.a s) x.disp + 8 * y.elem (y.vbyte (vNo x.b) l) 32) % 2 ^ 64)
    let vals := (List.range n).map (fun l => if add then y.elem (y.vbyte (vNo x.c) l) 32 else 0)
    let r := performLanes op (List.zip (List.range n) (List.zip ps (List.zip eas vals))) [] [] (countsLw (issued s))
    let cells := if dest then laneResults y x.d r.1 else []
    let asked := (ps.filter (fun p => !p.oct)).map (fun p => p.place / 128)
    let lines := asked.dedup
    let m1 := countLanes asked r.2.2
    let vs := x.b :: ((if add then [x.c] else []) ++ (if dest then [x.d] else []))
    y.VS ≠ 0 → y.vew = 4 → (∀ b ∈ vs, y.vcap = 0 ∨ y.vbyte (vNo b) y.vcap ≤ shareOf s.m.cx.slots) →
    ps.length = n → (∀ e ∈ List.zip eas ps, LawPlace x.sco false false e.1 e.2 s ∧ Turned e.2 s) →
    (∀ p ∈ ps, ∀ d, lawDesc s.m.cx false (lawRead s.m p) = some d → s.m.cx.det = true → (s.m.cx.stepped.find d.dom).isSome = true) →
    (r.2.1 = [] → exec i s = .next (after x.h none (fun _ => finishLanes op m1.nextId (cells.map (·.2)) lines
      (awaits .law (cells.map (·.1)) m1)) s)) ∧
    (∀ l ls, r.2.1 = l :: ls → let m := badLane x.h cells lines m1
      exec i s = .next { s with m := takeTrap m.cur 0x1C l (nextPc m.sl.pc) m })

/-- LWDSC (R123, R141) installs the descriptor that it reads when R122 accepts it, and traps on any other; LWSCAN (R152) operates on one word of
its array and stands, with A and B moved on, at the word unless it was the last. -/
def Sys2Proof.Claim.DescriptorsAndSweeps : Prop :=
  (∀ (x : MW) (s : State) (tr : List (Nat × Nat)) (q : List Nat) (m : Mach), Ready x.h s → IsReg x.a s → IsReg x.b s → Clear s → RoomLw s →
    let ea := addDisp (val x.a s) x.disp
    ea % 8 = 0 → tr.map (·.1) = pagesOf ea 32 → (∀ p ∈ tr, Maps p.1 .read p.2 s) → readQuads ea (tr.map (·.2)) 4 x.h.ch.toNat (issued s) = .ok (q, m) →
    (Desc.ok q = true → exec (.lwdsc x) s = .next (after x.h none (fun _ =>
      m.updCtx m.sl.ctx (fun c => { c with laws := c.laws.put x.c.toNat q })) s)) ∧
    (Desc.ok q = false → exec (.lwdsc x) s = .next { s with m := takeTrap s.m.cur 0x1D 0 s.m.sl.retAddr s.m })) ∧
  (∀ (x : MW) (s : State) (p : LawAt), Ready x.h s → IsReg x.a s → IsReg x.b s → Privileged s →
    let a := val x.a s
    let b := val x.b s
    let moved : Mach → Mach := fun m => m.updSlot m.cur (fun y => { y.poke (gCells (gNo x.a) ((a + lawSize (w128Of x)) % 2 ^ 64) ++ gCells (gNo x.b) (b - 1)) with got := [] })
    let swept : Desc → Mach → Mach := fun _ m =>
      let op := if (LawWord.of (w128Of x) (lawRead m p)).a && (ephFind m p m.sl.ctx).isNone then LawOp.arm else LawOp.adv
      let m1 := (lawCore (lawReq m op p a 0 0) m).2
      if p.oct then m1 else l1InvLines m.curCore [p.place / 128] m1
    (b = 0 → exec (.lwscan x) s = .next (after x.h none id s)) ∧
    (b ≠ 0 → Clear s → LawPlace x.sco (w128Of x) true a p s → Turned p s →
      (∀ d, lawDesc s.m.cx (w128Of x) (lawRead s.m p) = some d → LawPlace x.sco (w128Of x) false a p s → (s.m.cx.det = true → (s.m.cx.stepped.find d.dom).isSome = true) →
        (b = 1 → exec (.lwscan x) s = .next (after x.h none (fun m => moved (swept d m)) s)) ∧
        (1 < b → exec (.lwscan x) s = .next { s with m := atRestart (moved (swept d (issued s))) })) ∧
      (lawDesc s.m.cx (w128Of x) (lawRead s.m p) = none →
        (b = 1 → exec (.lwscan x) s = .next (after x.h none moved s)) ∧
        (1 < b → exec (.lwscan x) s = .next { s with m := atRestart (moved (issued s)) }))))

/-- Law operations of vector lanes, descriptors and sweeps (R123, R141, R142, R152).
One word an execution of LWSCAN (log entry 12), all lanes performed at one execution and counted once, and LWDSC complete when it has
executed (log entry 30) are the model's reading. -/
def Obligations.LawLanesAndSweeps : Prop := Claim.LawLanes ∧ Claim.DescriptorsAndSweeps

/-- Time domains (R131, R151 to R155): LWDOM makes a domain stepped, from the start of the present tick, or lets it run freely again; LWSTEP, in
the designated core, fires what is due in the next tick and moves the domain's time on by one; LWTIME reads the time, EPHSTAT the ephemeris. -/
def Obligations.TimeDomains : Prop :=
  (∀ (x : IW) (s : State), Ready x.h s →
    let i := x.imm.toNat
    let d := bits i 0 4
    (bitAt i 4 = true → exec (.lwdom x) s = .next (after x.h none (fun m => m.updCtx m.sl.ctx (fun c =>
      { c with desig := c.desig.put d (bits i 5 14),
                stepped := if (c.stepped.find d).isSome then c.stepped else c.stepped.put d (s.m.sid / 2 ^ 20 * 2 ^ 20) })) s)) ∧
    (bitAt i 4 = false → s.m.cx.stepped.find d = none → exec (.lwdom x) s = .next (after x.h none id s)) ∧
    (∀ t, bitAt i 4 = false → s.m.cx.stepped.find d = some t → t ≤ s.m.sid →
      exec (.lwdom x) s = .next (after x.h none (fun m => m.updCtx m.sl.ctx (fun c =>
        { c with desig := c.desig.del d, stepped := c.stepped.del d })) s))) ∧
  (∀ (x : IW) (s : State) (t : Nat), Ready x.h s →
    let d := x.imm.toNat
    (s.m.cx.stepped.find d = some t → s.m.cx.desig.find d = some s.m.curCore →
      exec (.lwstep x) s = .next (after x.h none (fun m =>
        (stepFirings s.m.sl.ctx d t (t + 2 ^ 20) (2 ^ 64) m).updCtx s.m.sl.ctx (fun c =>
          { c with stepped := c.stepped.put d ((t + 2 ^ 20) % 2 ^ 64) })) s)) ∧
    (s.m.cx.stepped.find d = none → exec (.lwstep x) s = .next { s with m := takeTrap s.m.cur 0x1E 0 s.m.sl.retAddr s.m }) ∧
    (s.m.cx.stepped.find d = some t → s.m.cx.desig.find d ≠ some s.m.curCore →
      exec (.lwstep x) s = .next { s with m := takeTrap s.m.cur 0x1F 0 s.m.sl.retAddr s.m })) ∧
  (∀ (x : SW) (s : State), Ready x.h s → IsReg x.a s → IsReg x.b s → IsReg x.d s →
    let d := bits x.mod.toNat 0 4
    (s.m.cx.det = true → (s.m.cx.stepped.find d).isSome = true) →
    exec (.lwtime x) s = .next (after x.h none (fixed 2 (gCells (gNo x.d) ((s.m.cx.stepped.find d).getD s.m.sid / 2 ^ bits x.mod.toNat 4 6))) s)) ∧
  (∀ (x : YW) (s : State), Ready x.h s → IsReg x.a s → IsReg x.b s → IsReg x.d s → Free s →
    let c := s.m.sl.ctx
    let slice := s.m.slice (bits x.imm.toNat 1 8)
    let octet := s.m.octet (octetOf s.m.curCore)
    let u := if bitAt x.imm.toNat 0 then (slice.eph, slice.refused.get 0 c) else (octet.eph, octet.refused.get 0 c)
    exec (.ephstat x) s = .next (after x.h none (lands .ready (known (gCells (gNo x.d)
      (u.1.length + (u.1.filter (fun e => e.ctx == c)).length * 2 ^ 16 + u.2 * 2 ^ 32)))) s))

/-- What a law operation leaves in its word (R116, R139): the word is at the present law tick, its law index is as before but under LWSET, and no
other byte of memory or of the scratchpads has changed; LWPEEK changes none. -/
def Obligations.LawOperationFrame : Prop :=
  ∀ (r : LawReq) (d : Desc) (present now : Nat) (onTime : Bool) (m : Mach),
    let w128 := r.at_.w128
    let n := lawSize w128
    let m1 := (lawOn r d present now onTime m).2
    r.op ≠ .disarm →
    (r.op = .peek → m1.mem = m.mem ∧ m1.spad = m.spad) ∧
    (r.op ≠ .peek →
      (LawWord.of w128 (lawRead m1 r.at_)).stamp = now % 2 ^ stampBits w128 ∧
      (r.op ≠ .set → (LawWord.of w128 (lawRead m1 r.at_)).law = (LawWord.of w128 (lawRead m r.at_)).law) ∧
      (r.at_.oct = true → m1.mem = m.mem ∧ ∀ a, (a < r.at_.place ∨ r.at_.place + n ≤ a) → m1.spad.rd a = m.spad.rd a) ∧
      (r.at_.oct = false → m1.spad = m.spad ∧ ∀ a, (a < r.at_.place ∨ r.at_.place + n ≤ a) → m1.mem.rd a = m.mem.rd a))

/-- The laws of R126: the value after no tick is the value; HOLD keeps it for ever; INTEG adds its slope, or Y under YUSE 10, once a tick, saturating;
and of INTEG and HOLD the value after two spans is that after their sum while no saturation falls between. -/
def Obligations.LawValues : Prop :=
  ∀ (d : Desc) (st : Nat × Nat) (n k : Nat), st.1 < 2 ^ 32 →
    ev d st 0 = st ∧
    (d.kind = 0 → ev d st n = st) ∧
    (d.kind = 2 →
      let g : Int := if d.yuse = 2 then sx 32 st.2 else sx 32 d.slope
      (ev d st n).2 = st.2 ∧ sx 32 (ev d st n).1 = min (max (sx 32 st.1 + n * g) (-2147483648)) 2147483647 ∧
      (-2147483648 ≤ sx 32 st.1 + n * g → sx 32 st.1 + n * g ≤ 2147483647 → ev d (ev d st n) k = ev d st (n + k)))
/-! ## System words -/

/-- The words of a privileged context, and SYSWR of TVEC (R56, R75). -/
def Sys2Proof.Claim.privileged : Instr → Bool
  | .semi _ => true
  | .dqspill _ => true
  | .tset _ => true
  | .slotcfg _ => true
  | .ctxsave _ => true
  | .ctxload _ => true
  | .tlbinv _ => true
  | .tlbinva _ => true
  | .fbpop _ => true
  | .replay _ => true
  | .eccinj _ => true
  | .capset _ => true
  | .lwscan _ => true
  | .evrule _ => true
  | .evruleOff _ => true
  | .syswr x => x.sr == 0x010
  | _ => false

/-- The words that deterministic mode bars always, and those it bars for a field of theirs (R317). -/
def Sys2Proof.Claim.barred : Instr → Bool
  | .sliceq _ => true
  | .time _ => true
  | .cycles _ => true
  | .ephstat _ => true
  | .pchk _ => true
  | .estat _ => true
  | .evwait _ => true
  | .gqry _ => true
  | .dqstat _ => true
  | .tread _ => true
  | .subscr _ => true
  | .stopref _ => true
  | .refchk _ => true
  | .ratom _ => true
  | .atomAdd _ => true
  | .atomMin _ => true
  | .atomMax _ => true
  | .atomAnd _ => true
  | .atomOr _ => true
  | .atomXor _ => true
  | .atomXchg _ => true
  | .atomCas _ => true
  | .atomInc _ => true
  | .atomFadd _ => true
  | .redFadd _ => true
  | .waitev x => bitAt x.mod.toNat 0 || (popCount (x.imm.toNat % 32) 5 != 1)
  | .kqstat x => !bitAt x.mod.toNat 0
  | .rred x => bits x.mod.toNat 0 4 == 8
  | .sysrd x => x.sr == 0x026 || x.sr == 0x027 || x.sr == 0x081
  | _ => false

/-- A privileged word of a context without the privilege traps and has no effect (R30, R39, R340; SYSWR of TVEC R75). -/
def Obligations.PrivilegeTraps : Prop :=
  ∀ (i : Instr) (h : Hdr) (s : State), hdr i = some h → privileged i = true → Ready h s → (∀ p ∈ (sl s).pw, p.due ≤ s.m.sl.n) →
    s.m.cx.prv = false → exec i s = .next { s with m := takeTrap s.m.cur 0x02 0 s.m.sl.retAddr s.m }

/-- In deterministic mode a word whose result depends on timing traps and has no effect (R317). -/
def Obligations.DeterministicTraps : Prop :=
  ∀ (i : Instr) (h : Hdr) (s : State), hdr i = some h → barred i = true → Ready h s → (∀ p ∈ (sl s).pw, p.due ≤ s.m.sl.n) →
    s.m.cx.det = true → exec i s = .next { s with m := takeTrap s.m.cur 0x04 0 s.m.sl.retAddr s.m }

/-- What SYSRD gives of the registers that hold one value or the fields of one word (R43, R55, R156, R274, R337, R340, R361), by number. -/
def Sys2Proof.Claim.readable (m : Mach) : List (Nat × Nat) :=
  let y := m.sl
  let c := m.cx
  [(0x000, ofBool y.schk + ofBool c.prv * 2 + ofBool c.det * 4 + c.slots * 8 + c.asid % 2 ^ 16 * 2 ^ 8), (0x001, m.curCore + slotOf m.cur * 2 ^ 16),
   (0x002, y.view), (0x003, y.grantN), (0x010, y.tvec % 2 ^ 56 / 4 * 4), (0x011, y.tcause), (0x012, y.tret), (0x013, y.tval), (0x014, ofBool y.inh), (0x015, y.ts0),
   (0x016, y.ts1), (0x025, y.evring), (0x026, y.evq.length + y.rq * 2 ^ 8 + y.drop * 2 ^ 32 + ofBool y.ovf * 2 ^ 63), (0x027, c.evlost),
   (0x041, y.taskh), (0x042, y.dqring), (0x043, y.steald), (0x045, y.stealOk + y.stealEmpty * 2 ^ 32), (0x080, c.ptroot),
   (0x081, c.fbuf.length + ofBool c.dropped * 2 ^ 4 + c.fseq % 2 ^ 32 * 2 ^ 32), (0x0A0, y.pmsel)]

/-- System registers (R55, R75): SYSRD gives a register's value; SYSWR, privileged for TVEC alone, writes the writable fields of CTXCTL, TVEC, TRET,
TS0, TS1, EVQSTAT (whose OVF bit clears it with DROP) and PMSEL, where a reserved event code is written as 0, and no other part of the state. -/
def Obligations.SystemRegisters : Prop :=
  (∀ (x : YW) (s : State), Ready x.h s → IsReg x.d s → (s.m.cx.det = true → sysBarred s.m.cx x.sr.toNat = false) →
    exec (.sysrd x) s = .next (after x.h none (fun m => lands .ready (known (gCells (gNo x.d) (sysValue m x.sr.toNat % 2 ^ 64))) m) s) ∧
    (∀ p ∈ readable (issued s), x.sr.toNat = p.1 → exec (.sysrd x) s = .next (after x.h none (lands .ready (known (gCells (gNo x.d) (p.2 % 2 ^ 64)))) s))) ∧
  (∀ (x : YW) (s : State), Ready x.h s → IsReg x.a s → IsReg x.b s → (x.sr = 0x010 → Privileged s) →
    let v := if bitAt x.mod.toNat 0 then x.imm.toNat else val x.a s
    let r := x.sr.toNat
    let codes := ((List.range 8).map (fun n => if bits v (8 * n) 8 ≤ 8 then bits v (8 * n) 8 * 2 ^ (8 * n) else 0)).sum
    let written : Slot → Slot := fun y => { y with
      schk := if r = 0x000 then bitAt v 0 else y.schk
      tvec := if r = 0x010 then bits v 2 54 * 4 else y.tvec
      tret := if r = 0x012 then bits v 2 54 * 4 else y.tret
      ts0 := if r = 0x015 then v else y.ts0
      ts1 := if r = 0x016 then v else y.ts1
      drop := if r = 0x026 ∧ bitAt v 63 = true then 0 else y.drop
      ovf := if r = 0x026 ∧ bitAt v 63 = true then false else y.ovf
      pmsel := if r = 0x0A0 then codes else y.pmsel }
    exec (.syswr x) s = .next (after x.h none (fun m => m.updSlot m.cur written) s) ∧
    (∀ t, Alone s → exec (.syswr x) s = .next t → t.boot = s.boot ∧
      t.m = { s.m with slots := t.m.slots, dev := { s.m.dev with rr := s.m.dev.rr + 1 } } ∧ (∀ k, k ≠ s.m.cur → t.m.slot k = s.m.slot k) ∧
      RegistersBut [] s t ∧
      t.m.sl = { written s.m.sl.boundary with
        rf := t.m.sl.rf, pw := t.m.sl.pw, pc := t.m.sl.pc, n := t.m.sl.n, cycles := t.m.sl.cycles, pmc := t.m.sl.pmc
        wait := none, look := [], parked := false, age := 0, boost := 0, stamp := s.m.dev.rr }))

/-- The waiting slot. -/
def Sys2Proof.Claim.waitsFor (w : Wait) (s : State) (m : Mach) : State :=
  { s with m := m.updSlot s.m.cur (fun y => { y with wait := some w, look := [], parked := false }) }

/-- Translation maintenance (R335, R336, R338, R339): TLBINV and TLBINVA remove translations and pass once what went through them is done; XLATE
reports a translation of a TLB, of a pending fault or of a walk; FBPOP takes the oldest record of a context's fault buffer, REPLAY lets its parked slots and commands go on. -/
def Obligations.TranslationWords : Prop :=
  (∀ (i : Instr) (h : Hdr) (asid g : Option Nat) (s : State), Ready h s → Privileged s → s.m.sl.ocSt = 0 →
    ((∃ x : MW, i = .tlbinv x ∧ h = x.h ∧ IsReg x.a s ∧ IsReg x.b s ∧ val x.b s < 2 ^ 16 ∧ asid = some (val x.b s) ∧
        g = some (granuleOf (addDisp (val x.a s) x.disp))) ∨
      (∃ x : YW, i = .tlbinva x ∧ h = x.h ∧ IsReg x.a s ∧ IsReg x.b s ∧ g = none ∧
        ((bitAt x.mod.toNat 0 = true ∧ asid = none) ∨ (bitAt x.mod.toNat 0 = false ∧ val x.a s < 2 ^ 16 ∧ asid = some (val x.a s))))) →
    let p := throughRemoved asid g (issued s)
    (∀ w, s.m.sl.wait = w → (∀ rs cs ls, w ≠ some (.flush rs cs ls)) →
      (flushBusy (tlbRemove asid g (issued s)) p.1 p.2.1 p.2.2 = false → exec i s = .next (after h none (tlbRemove asid g) s)) ∧
      (flushBusy (tlbRemove asid g (issued s)) p.1 p.2.1 p.2.2 = true →
        exec i s = .next (waitsFor (.flush p.1 p.2.1 p.2.2) s (tlbRemove asid g s.m)))) ∧
    (∀ rs cs ls, s.m.sl.wait = some (.flush rs cs ls) →
      (flushBusy (issued s) rs cs ls = false → exec i s = .next (after h none id s)) ∧
      (flushBusy (issued s) rs cs ls = true → exec i s = .next (waitsFor (.flush rs cs ls) s s.m)))) ∧
  (∀ (x : MW) (s : State), Ready x.h s → IsReg x.a s → IsReg x.b s → IsReg x.d s →
    let ea := addDisp (val x.a s) x.disp
    let g := granuleOf ea
    let answers : Nat → Mach → State := fun v m => after x.h none (fun _ => fillLand m.cur m.nextId 0 (toLE 8 v)
      (awaits .counted ((List.range 8).map (fun i => 8 * gNo x.d + i)) m)) s
    (ea < 2 ^ 56 → s.m.sl.ocLd < 255 →
      (∀ v m, probe ea (countsLd (issued s)) = .ok (v, m) → exec (.xlate x) s = .next (answers v m)) ∧
      (∀ e, (s.m.core s.m.curCore).tlb.find? (·.covers s.m.cx.asid g) = some e → exec (.xlate x) s = .next (answers
        (e.at_ ea + 2 ^ 52 + ofBool e.w * 2 ^ 53 + ofBool e.x * 2 ^ 54 + (3 - leafLevel e.size) * 2 ^ 55) (countsLd (issued s)))) ∧
      (∀ f, (s.m.core s.m.curCore).tlb.find? (·.covers s.m.cx.asid g) = none → (s.m.die (dieOf s.m.curCore)).tlb.find? (·.covers s.m.cx.asid g) = none →
        walking s.m s.m.curCore s.m.cx.asid ea = false → pending s.m (dieOf s.m.curCore) s.m.cx.asid g = some f →
        exec (.xlate x) s = .next (answers (f.kind * 2 ^ 57) (countTlb s.m.cur ea (countsLd (issued s)))))) ∧
    (2 ^ 56 ≤ ea → exec (.xlate x) s = .next { s with m := takeTrap s.m.cur 0x17 ea s.m.sl.retAddr s.m })) ∧
  (∀ (x : YW) (s : State), Ready x.h s → IsReg x.a s → IsReg x.b s → Privileged s →
    (∀ c, IsReg x.d s → IsReg (regAt x.d 1) s → val x.a s < 2 ^ 16 → s.m.ctxOfAsid (val x.a s) = some c →
      exec (.fbpop x) s = .next (after x.h none (fun m =>
        lands .ready (known (gCells (gNo x.d) (popFault c m).1.1 ++ gCells (gNo (regAt x.d 1)) (popFault c m).1.2)) (popFault c m).2) s) ∧
      (s.m.sl.ocSt = 0 → exec (.replay x) s = .next (after x.h none (replayAll c) s))) ∧
    (s.m.ctxOfAsid (val x.a s % 2 ^ 16) = none → exec (.fbpop x) s = .next { s with m := takeTrap s.m.cur 0x18 0 s.m.sl.retAddr s.m } ∧
      exec (.replay x) s = .next { s with m := takeTrap s.m.cur 0x18 0 s.m.sl.retAddr s.m }))

/-- The arguments of CTXSAVE and CTXLOAD (R348): an aligned image of one core of another resident context, its pages translated to `pas`. -/
structure Sys2Proof.Claim.Image (x : MW) (acc : Acc) (c core : Nat) (pas : List Nat) (s : State) : Prop where
  aligned : addDisp (val x.a s) x.disp % imageSize = 0
  ctx : s.m.ctxOfAsid (val x.b s % 2 ^ 16) = some c
  core : core = bits (val x.b s) 16 14 ∧ (s.m.ctx c).cores.contains core = true
  high : bits (val x.b s) 30 34 = 0
  other : c ≠ s.m.sl.ctx
  bytes : ∃ tr : List (Nat × Nat), tr.map (·.1) = pagesOf (addDisp (val x.a s) x.disp) imageSize ∧ (∀ p ∈ tr, Maps p.1 acc p.2 s) ∧
    pas = tr.map (·.2)

/-- Core images (R348): CTXSAVE sends a stopped core's image as the stores of one instruction and completes when they have been acknowledged;
CTXLOAD, once the image's lines have had their turn at their home slices, restores one that describes what it restores and traps on any other. -/
def Sys2Proof.Claim.ContextImages : Prop :=
  ∀ (x : MW) (s : State) (c core : Nat) (pas : List Nat), Ready x.h s → IsReg x.a s → IsReg x.b s → Privileged s →
    let here := coreSlots (issued s) c core
    let kept := (s.m.ctx c).kept.filter (fun e => coreOf e.1 == core)
    let ea := addDisp (val x.a s) x.disp
    let bytes := engBytes ea pas imageSize
    let m1 := engFind bytes (issued s)
    let sent := bumpSt s.m.cur { issued s with nextId := s.m.nextId + 1 }
    (Image x .write c core pas s → Clear s → RoomSt s → s.m.sl.mid = false → here ≠ [] → (∀ e ∈ here, e.2.run = .stopped) →
      exec (.ctxsave x) s =
        .next { s with m := sendImage c core ea pas (s.m.cur + 2 ^ 16 * (s.m.nextId + 1)) x.h.ch.toNat sent }) ∧
    (s.m.sl.mid = true → (s.m.sl.ocSt = 0 → exec (.ctxsave x) s = .next (after x.h none keepImage s)) ∧
      (s.m.sl.ocSt ≠ 0 → exec (.ctxsave x) s = .next (waitsFor (.counter 1 0) s s.m))) ∧
    (Image x .read c core pas s → Clear s → bringLaw (linesAt ea pas imageSize) x.h.ch.toNat (issued s) = .ok ((), issued s) → here = [] → kept ≠ [] → (∀ e ∈ kept, ((issued s).slot e.1).run = .free) →
      (bytes.drop 0x40000).find? (poisonAt m1) = none →
      (∀ m2, loadCore c core (imageAt m1 bytes).1 (imageAt m1 bytes).2 m1 = some m2 →
        exec (.ctxload x) s = .next (after x.h none (fun _ =>
          m2.updCtx c (fun y => if y.kept.isEmpty && y.st == .saved then { y with st := .stopped } else y)) s)) ∧
      (loadCore c core (imageAt m1 bytes).1 (imageAt m1 bytes).2 m1 = none →
        exec (.ctxload x) s = .next { s with m := takeTrap s.m.cur 0x42 0 s.m.sl.retAddr s.m }))

/-- CAPSET (R324) writes one entry and stands, with A and B moved on, at the word unless it was the last; ECCINJ (R345) plants an error in a
word of scratchpad, of a present line or of HBM; PMREAD (R362) reads a monitor, 0 in deterministic mode; SLICEQ (R6 to R8) asks a slice for its counters; HCALL (R357)
notifies the host when the ring has a place, waits, and gives the reply. -/
def Sys2Proof.Claim.CapabilitiesErrorsMonitorsHost : Prop :=
  (∀ (x : MW) (s : State), Ready x.h s → IsReg x.a s → IsReg x.b s → IsReg x.c s → Privileged s → (∀ p ∈ (sl s).pw, p.due ≤ s.m.sl.n) →
    let a := val x.a s
    let b := val x.b s
    let v := val x.c s
    let put : Nat → Mach → Mach := fun e m => (engStore (cellsAt e (toLE 2 v)) m).updSlot s.m.cur (fun y =>
      y.poke (gCells (gNo x.a) ((a + 4096) % 2 ^ 64) ++ gCells (gNo x.b) (b - 1)))
    bits v 14 2 ≠ 3 → v < 2 ^ 16 →
    (b = 0 → exec (.capset x) s = .next (after x.h none id s)) ∧
    (∀ e, capEntryAt s.m.cx (addDisp a x.disp) = some e → Clear s →
      (b = 1 → exec (.capset x) s = .next (after x.h none (put e) s)) ∧
      (1 < b → exec (.capset x) s = .next { s with m := atRestart (put e (issued s)) })) ∧
    (b ≠ 0 → capEntryAt s.m.cx (addDisp a x.disp) = none → exec (.capset x) s = .next { s with m := takeTrap s.m.cur 0x18 0 s.m.sl.retAddr s.m })) ∧
  (∀ (x : MW) (s : State), Ready x.h s → IsReg x.a s → IsReg x.b s → Privileged s → s.m.sl.ocSt = 0 →
    let ea := addDisp (val x.a s) x.disp
    let b := val x.b s
    let uc := bitAt b 0
    b < 8 →
    (bits b 1 2 = 0 → InWindow ea 1 s → exec (.eccinj x) s = .next (after x.h none (fun m =>
      { m with plantSp := (spPlace s.m.curCore ea / 8 * 8, uc) :: m.plantSp.filter (·.1 != spPlace s.m.curCore ea / 8 * 8) }) s)) ∧
    (∀ pa, Maps ea .write pa s →
      (bits b 1 2 = 1 → present (issued s) pa = true → exec (.eccinj x) s = .next (after x.h none (fun m =>
        { m with plantL2 := (pa / 8 * 8, uc) :: m.plantL2.filter (·.1 != pa / 8 * 8) }) s)) ∧
      (bits b 1 2 = 2 → exec (.eccinj x) s = .next (after x.h none (fun m =>
        { m with plantHbm := (pa / 8 * 8, uc) :: m.plantHbm.filter (·.1 != pa / 8 * 8) }) s)))) ∧
  (∀ (x : YW) (s : State), Ready x.h s → IsReg x.d s →
    let i := x.imm.toNat
    let v := if s.m.cx.det then 0 else monitorValue s.m (bits i 0 4) (bits i 4 4) (bits i 8 8) % 2 ^ 64
    exec (.pmread x) s = .next (after x.h none (lands .ready (known (gCells (gNo x.d) v))) s)) ∧
  (∀ (x : YW) (s : State), Ready x.h s → IsReg x.a s → IsReg x.b s → IsReg x.d s → Free s → s.m.sl.ocLd < 255 →
    let pa := unitPa (val x.a s % 256)
    homeOf pa = val x.a s % 256 ∧
    exec (.sliceq x) s = .next (after x.h none (fun m =>
      let m := awaits .counted ((List.range 8).map (fun i => 8 * gNo x.d + i)) (countsLd m)
      { m with
        reqs := m.reqs ++ [{ id := s.m.nextId + 1, slot := s.m.cur, ctx := s.m.sl.ctx, pa := pa, st := .sent
                             kind := .query s.m.nextId (bitAt x.mod.toNat 0) }]
        nextId := s.m.nextId + 2 }) s)) ∧
  (∀ (x : YW) (s : State), Ready x.h s → IsReg x.a s → IsReg x.b s → IsReg x.d s → s.m.sl.ocSt = 0 → s.m.sl.ocAt = 0 → s.m.sl.ocLw = 0 →
    (∀ v, s.m.sl.hcSent = true → s.m.sl.hcReply = some v → exec (.hcall x) s = .next (after x.h none (fun m =>
      lands .ready (known (gCells (gNo x.d) v)) (m.updSlot m.cur (fun y => { y with hcSent := false, hcReply := none }))) s)) ∧
    (s.m.sl.hcSent = true → s.m.sl.hcReply = none → exec (.hcall x) s = .next (waitsFor .reply s s.m)) ∧
    (s.m.sl.hcSent = false → ringPlace s.m = true → exec (.hcall x) s = .next (waitsFor .reply s
      ((notify 0x06 0 s.m.cx.asid s.m.curCore (slotOf s.m.cur) (x.imm.toNat % 2 ^ 16) (val x.a s) s.m).updSlot s.m.cur (fun y => { y with hcSent := true })))) ∧
    (s.m.sl.hcSent = false → ringPlace s.m = false → exec (.hcall x) s = .next (waitsFor .ringPlace s s.m)))

/-- Core images, the capability table, planted errors, monitors, slice counters and HCALL (R6 to R8, R324, R345, R348, R357, R362).
The image's bytes of no stated layout are free values kept beside the state (the model's choice, log entries 5
and 45); a monitor's value is free (5); one entry an execution is the model's reading of CAPSET (12). -/
def Obligations.ImagesErrorsMonitorsAndHost : Prop := Claim.ContextImages ∧ Claim.CapabilitiesErrorsMonitorsHost

/-! ## Vectors and tiles -/

/-- The v operands' lanes lie in the slot's share and hold the elements (R45, R223). -/
structure Sys2Proof.Claim.Fits (vs : List (BitVec 8)) (elts : List Elt) (s : State) : Prop where
  bank : (sl s).VS ≠ 0
  share : ∀ b ∈ vs, (sl s).vcap = 0 ∨ (sl s).vbyte (vNo b) (sl s).vcap ≤ shareOf s.m.cx.slots
  width : ∀ e ∈ elts, e.width ≤ 8 * (sl s).vew

/-- A lane-wise instruction: its v sources, its g sources, its elements, its latency, and what a lane receives from the slot's registers and
the g values. -/
structure Sys2Proof.Claim.Lanewise where
  instr : Instr
  vs : List (BitVec 8)
  gs : List (BitVec 8) := []
  elts : List Elt := []
  lat : Option Nat := some 4
  val : Slot → List Nat → Nat → Nat

/-- Two sources' elements: integers through `fi`, wrapped or saturated, floats through `ff` on codes. -/
def Sys2Proof.Claim.two (x : VW) (latF : Nat) (fi : Int → Int → Int) (ff : Nat → Nat → Nat) (i : Instr) : Lanewise :=
  let e := eltOf x.it x.fd
  { instr := i, vs := [x.a, x.b], elts := [e], lat := some (if e.isInt then 4 else latF)
    val := fun y _ l => e.place y.vew (if e.isInt then e.fit x.sat (fi (e.val (y.code e x.a l)) (e.val (y.code e x.b l)))
      else ff (y.code e x.a l) (y.code e x.b l)) }

/-- The lane-wise instructions (R226 to R230). -/
def Sys2Proof.Claim.lanewise (x : VW) : List Lanewise :=
  let d := eltOf x.it x.fd
  let a := eltOf x.it x.fa
  let fd := Elt.fmt x.fd
  let fa := Elt.fmt x.fa
  let cvt := sideElts x (bitAt x.sub 0)
  let cvts := sideElts x (bitAt x.sub 1)
  [two x 6 (· + ·) (addF x.fd x.rm) (.vadd x), two x 6 (· - ·) (subF x.fd x.rm) (.vsub x), two x 6 (· * ·) (mulF x.fd x.rm) (.vmul x),
   two x 4 min (pickF x.fd false) (.vmin x), two x 4 max (pickF x.fd true) (.vmax x),
   two x 4 (fun u v => u * v / (2 ^ d.width : Nat)) (fun _ _ => 0) (.vmulh x)] ++
  [{ instr := .vfma x, vs := [x.d, x.a, x.b], elts := [fd], lat := some 6
     val := fun y _ l => fmaF x.fd x.rm (y.code fd x.d l) (y.code fd x.a l) (y.code fd x.b l) },
   { instr := .vfmas x, vs := [x.d, x.a], gs := [x.b, x.c], elts := [fd, fa], lat := some 6
     val := fun y g l => rnd x.fd x.rm (addMode x.rm (fd.dec (y.code fd x.d l)) (scaledTerm (fa.dec (y.code fa x.a l))
       (scaleOf (bitAt x.sub 0)) (g.getD 0 0 % 256) (scaleOf (bitAt x.sub 1)) (g.getD 1 0 % 256))) },
   { instr := .vabs x, vs := [x.a], elts := [d]
     val := fun y _ l => d.place y.vew (if d.isInt then d.fit x.sat ((d.val (y.code d x.a l)).natAbs : Int)
       else y.code d x.a l % 2 ^ (Fmt.width x.fd - 1)) },
   { instr := .vneg x, vs := [x.a], elts := [d]
     val := fun y _ l => d.place y.vew (if d.isInt then d.fit x.sat (-(d.val (y.code d x.a l)))
       else y.code d x.a l ^^^ 2 ^ (Fmt.width x.fd - 1)) }] ++
  [{ instr := .vand x, vs := [x.a, x.b], val := fun y _ l => y.lane x.a l &&& y.lane x.b l },
   { instr := .vor x, vs := [x.a, x.b], val := fun y _ l => y.lane x.a l ||| y.lane x.b l },
   { instr := .vxor x, vs := [x.a, x.b], val := fun y _ l => y.lane x.a l ^^^ y.lane x.b l },
   { instr := .vshl x, vs := [x.a, x.b], elts := [d]
     val := fun y _ l => d.place y.vew (d.fit false (y.code d x.a l * 2 ^ (y.code d x.b l % d.width) : Nat)) },
   { instr := .vshr x, vs := [x.a, x.b], elts := [d]
     val := fun y _ l => d.place y.vew (d.fit false (d.val (y.code d x.a l) / (2 ^ (y.code d x.b l % d.width) : Nat))) },
   { instr := .vsat x, vs := [x.a], elts := [a]
     val := fun y _ l => a.place y.vew (a.fit false (min (max (a.val (y.code a x.a l)) fd.lo) fd.hi)) },
   { instr := .viota x, vs := [], gs := [x.a, x.b], elts := [d]
     val := fun y g l => d.place y.vew (d.fit false (sx 64 (g.getD 0 0) + (l : Int) * sx 64 (g.getD 1 0))) }] ++
  [{ instr := .vcmp x, vs := [x.a, x.b], elts := [a]
     val := fun y _ l =>
       let u := y.code a x.a l
       let v := y.code a x.b l
       if (if a.isInt then holdsInt (cndOf x.sub) (a.val u) (a.val v) u v else holdsFp (cndOf x.sub) (a.dec u) (a.dec v)) = true
       then 2 ^ (8 * y.vew) - 1 else 0 },
   { instr := .vsel x, vs := [x.a, x.b, x.c], val := fun y _ l => if y.lane x.c l ≠ 0 then y.lane x.a l else y.lane x.b l },
   { instr := .vmov x, vs := [x.a], val := fun y _ l => y.lane x.a l },
   { instr := .vbcast x, vs := [], gs := [x.a], elts := [d], val := fun y g _ => d.place y.vew (g.getD 0 0 % 2 ^ d.width) },
   { instr := .vcvt x, vs := [x.a], elts := [cvt.1, cvt.2]
     val := fun y _ l => cvt.2.place y.vew (cvt.2.rnd x.rm (cvt.1.dec (y.code cvt.1 x.a l))) },
   { instr := .vcvts x, vs := [x.a], gs := [x.b], elts := [cvts.1, cvts.2]
     val := fun y g l => cvts.2.place y.vew (cvts.2.rnd x.rm (scaledTerm (cvts.1.dec (y.code cvts.1 x.a l)) (scaleOf (bitAt x.sub 0))
       (g.getD 0 0 % 256) .none 0)) },
   { instr := .vrnd x, vs := [x.a], elts := [fd], val := fun y _ l => roundF x.fd x.rm (y.code fd x.a l) },
   { instr := .vscan x, vs := [x.a], elts := if 3 ≤ x.sub then [] else [d], lat := none
     val := fun y _ l =>
       let on := (activeLanes y (mkOf x)).filter (fun j => decide (j < l) || (j == l && !bitAt x.imm16 0))
       let r := reduce x.sub d y.vew x.sat x.rm (on.map (redLane x d y))
       if 3 ≤ x.sub then r else d.place y.vew r }]

/-- The bytes that a lane-wise instruction writes: every active lane's value, zeros in the others under .z (R223, R224). -/
def Sys2Proof.Claim.laneCells (x : VW) (f : Nat → Nat) (s : State) : List (Nat × Nat) := vCells (sl s) x.d x.zm ((sl s).laneActive (mkOf x)) f

/-- The state after VCLASS. -/
def Sys2Proof.Claim.classed (x : VW) (s : State) : State :=
  let f : Nat → Nat := fun l =>
    let c := classOf x.fa ((sl s).code (.fmt x.fa) x.a l)
    if 8 * (sl s).vew ≤ c then (Config.classInf x.fa).toNat else 2 ^ c
  after x.h none (fixed 4 (laneCells x f s)) s

/-- Lane-wise vector instructions (R223 to R230): each active lane receives the value that its rule gives, at a fixed latency, VSCAN's interlocked;
VCLASS gives each lane the bit of its class, a free value where the lane has no such bit (log entry 5). That VFMAS takes SUB[0] for A's scale format and
SUB[1] for B's is the model's reading (log entry 63). -/
def Obligations.LanewiseResults : Prop :=
  ∀ (x : VW) (s : State), Ready x.h s → IsReg x.a s → IsReg x.b s →
    (∀ p ∈ lanewise x, Fits (x.d :: p.vs) p.elts s → (∀ b ∈ p.gs, IsReg b s) →
      exec p.instr s = .next (after x.h none (fun m =>
        let cells := laneCells x (p.val (sl s) (p.gs.map (fun b => val b s))) s
        match p.lat with
        | some n => fixed n cells m
        | none => lands .ready (known cells) m) s)) ∧
    (Fits [x.d, x.a] [.fmt x.fa] s → exec (.vclass x) s = .next (classed x s))

/-- The frame of the lane-wise instructions (R223, R224): no register byte outside the lanes written changes, inactive lanes without .z among them,
and nothing but the slot's registers changes. -/
def Obligations.LanewiseFrame : Prop :=
  ∀ (x : VW) (s t : State), Ready x.h s → Alone s → IsReg x.a s → IsReg x.b s →
    ∀ p ∈ lanewise x, p.lat.isSome = true → Fits (x.d :: p.vs) p.elts s → (∀ b ∈ p.gs, IsReg b s) → exec p.instr s = .next t →
      OnlyRegisters s t ∧ RegistersBut (vDest (sl s) x.d (mkOf x) x.zm) s t

/-- A special function's result: fixed at latency 12 while its table is held, else interlocked until then; the table is held from now on, four at
most (R231). -/
def Sys2Proof.Claim.special (x : VW) (op : Nat) (f : Nat → Nat) (s : State) (m : Mach) : Mach :=
  let o := s.m.octet (octetOf s.m.curCore)
  let m1 := if o.tables.contains op then fixed 12 (laneCells x f s) m else landsFrom ((sl s).n + 12) (laneCells x f s) m
  m1.setOctet (octetOf m.curCore) { o with tables := (op :: o.tables.erase op).take 4 }

/-- Special functions (R231): VRCP, VSQRT and VDIV are correctly rounded; the others give a code that the rule's bracket admits, by a choice that
the configuration leaves free (log entry 6). That the four functions used last are held, hence which results are interlocked, is the model's reading
(log entry 18). -/
def Obligations.SpecialFunctions : Prop :=
  ∀ (x : VW) (s : State), Ready x.h s → IsReg x.a s → IsReg x.b s →
    let e := Elt.fmt x.fd
    let u : Nat → Nat := fun l => (sl s).code e x.a l
    let w : Nat → Nat := fun l => (sl s).code e x.b l
    (Fits [x.d, x.a] [e] s →
      exec (.vrcp x) s = .next (after x.h none (special x 0xA6 (fun l => rnd x.fd x.rm ((Num.fin false 1 0).div (dec x.fd (u l)))) s) s) ∧
      exec (.vsqrt x) s = .next (after x.h none (special x 0xA8 (fun l => sqrtCode x.fd x.rm (u l)) s) s) ∧
      (∀ p ∈ [(Instr.vexp2 x, 0xA4, Config.Special.exp2), (.vlog2 x, 0xA5, .log2), (.vrsq x, 0xA7, .rsq), (.vsinpi x, 0xAA, .sinpi),
          (.vcospi x, 0xAB, .cospi), (.vtanh x, 0xAC, .tanh), (.vsigm x, 0xAD, .sigm)],
        exec p.1 s = .next (after x.h none (special x p.2.1 (fun l => specialCode p.2.2 x.fd (u l)) s) s))) ∧
    (Fits [x.d, x.a, x.b] [e] s →
      exec (.vdiv x) s = .next (after x.h none (special x 0xA9 (fun l => rnd x.fd x.rm ((dec x.fd (u l)).div (dec x.fd (w l)))) s) s))

/-- Reductions, permutes, packing and the generator (R229, R232 to R235): VREDUCE, VPOPC and VFIRST give a scalar; VCX exchanges the pairs that are
out of order, with their payload; VPERM, VCOMPR, VEXPND and VLUT move whole lanes; VPACK and VUNPK join and part the elements; VRNG gives the
counter-based numbers. -/
def Sys2Proof.Claim.LaneMovesAndReductions : Prop :=
  ∀ (x : VW) (s : State), Ready x.h s → IsReg x.a s → IsReg x.b s →
    let y := sl s
    let d := eltOf x.it x.fd
    let on := activeLanes y (mkOf x)
    let k := mkOf x
    let nonzero := on.filter (fun l => y.lane x.a l != 0)
    let by_ := picked x y
    let w := Fmt.width x.fa
    (IsReg x.d s → Fits [x.a] (if 3 ≤ x.sub then [] else [d]) s →
      let r := reduce x.sub d y.vew x.sat x.rm (on.map (redLane x d y))
      exec (.vreduce x) s = .next (after x.h none (lands .ready (known (gCells (gNo x.d) (if 3 ≤ x.sub then r else d.place 8 r)))) s)) ∧
    (IsReg x.d s → Fits [x.a] [] s →
      exec (.vpopc x) s = .next (after x.h none (fixed 4 (gCells (gNo x.d) nonzero.length)) s) ∧
      exec (.vfirst x) s = .next (after x.h none (fixed 4 (gCells (gNo x.d) (nonzero.headD (2 ^ 64 - 1)))) s)) ∧
    (Fits (x.d :: (if x.c != 0 then [x.c] else [])) [d] s →
      let part := vcxPartner x d y
      let moved : BitVec 8 → (Nat → Nat) → List (Nat × Nat) := fun b f =>
        vCells y b false (fun l => decide (l < y.vlanes) && (part l).isSome) (fun l => f ((part l).getD l))
      exec (.vcx x) s = .next (after x.h none (fixed 4 (moved x.d (fun l => d.place y.vew (y.code d x.d l)) ++
        (if x.c != 0 then moved x.c (y.lane x.c) else []))) s)) ∧
    (Fits [x.d, x.a, x.b] [] s →
      exec (.vperm x) s = .next (after x.h none (lands .ready (known (laneCells x (fun l => y.lane x.a (y.lane x.b l % y.vlanes)) s))) s) ∧
      exec (.vexpnd x) s = .next (after x.h none (lands .ready (known (vCells y x.d x.zm by_.contains (fun i => y.lane x.a (by_.idxOf i))))) s) ∧
      (IsReg x.c s → exec (.vcompr x) s = .next (after x.h none (fun m => lands .ready (known (gCells (gNo x.c) by_.length))
        (lands .ready (known ((List.range y.vlanes).map (fun i =>
          if i < by_.length then cellsAt (y.vbyte (vNo x.d) i) (toLE y.vew (y.lane x.a (by_.getD i 0)))
          else if x.zm then cellsAt (y.vbyte (vNo x.d) i) (List.replicate y.vew 0) else [])).flatten) m)) s))) ∧
    (Fits [x.d, x.a] [d] s → IsReg x.c s → Clear s →
      let n := d.width / 8
      let base := val x.b s
      let cnt := val x.c s
      base % n = 0 → InWindow base (cnt * n) s → (∀ l ∈ on, y.lane x.a l < cnt → Sound (base + y.lane x.a l * n) n s) →
      exec (.vlut x) s = .next (after x.h none (lands .ready (known (laneCells x (fun l =>
        if y.lane x.a l < cnt then d.place y.vew (ofLE (s.m.spad.rdN (spPlace s.m.curCore (base + y.lane x.a l * n)) n)) else 0) s))) s)) ∧
    (Fits [x.d, x.a] [] s → w < 8 * y.vew →
      (let n := (y.vlanes * w + 7) / 8
       exec (.vpack x) s = .next (after x.h none (fixed 4 (cellsAt (y.vbyte (vNo x.d) 0) (toLE n (setBits (y.vnum x.d n) 0 (y.vlanes * w)
         ((List.range y.vlanes).map (fun l => y.lane x.a l % 2 ^ w * 2 ^ (l * w))).sum)))) s)) ∧
      exec (.vunpk x) s = .next (after x.h none (fixed 4 (laneCells x (fun l =>
        (Elt.fmt x.fa).place y.vew (bits (y.vnum x.a ((y.vlanes * w + 7) / 8)) (l * w) w)) s)) s)) ∧
    (Fits [x.d] [] s → y.vew = 4 → exec (.vrng x) s = .next (after x.h none (lands .ready (known (vCells y x.d x.zm (y.laneActive k) (fun l =>
      let z := gen (val x.a s) ((val x.b s + l) % 2 ^ 64)
      if x.it = 0 then rnd .fp32 .rne (.fin false (z / 2 ^ 40) (-24)) else z % 2 ^ 32)))) s))

/-- Masks (R239): MSET writes the pair's row and column masks, MGET reads one, VMASK sets one from the nonzero lanes. -/
def Sys2Proof.Claim.Masks : Prop :=
  ∀ (x : VW) (s : State), Ready x.h s → IsReg x.a s → IsReg x.b s →
    let y := sl s
    let v := ((List.range (min y.vlanes 64)).map (fun l => if y.lane x.a l ≠ 0 then 2 ^ l else 0)).sum
    exec (.mset x) s = .next (after x.h none (fixed 2 (mCells (mNo x.d) (val x.a s) (val x.b s))) s) ∧
    (IsReg x.d s → exec (.mget x) s = .next (after x.h none (fixed 2 (gCells (gNo x.d)
      (if bitAt x.sub 0 then y.mcol (mNo x.a) else y.mrow (mNo x.a)))) s)) ∧
    (Fits [x.a] [] s → exec (.vmask x) s = .next (after x.h none (fixed 4
      (if bitAt x.sub 0 then (mCells (mNo x.d) v v).drop 8 else (mCells (mNo x.d) v v).take 8)) s))

/-- Reductions, permutes, packing, the generator and masks (R229, R232 to R235, R239).
Corners of packing and permuting are the model's reading (log entries 16, 17). -/
def Obligations.LaneMovesReductionsAndMasks : Prop := Claim.LaneMovesAndReductions ∧ Claim.Masks

/-- The lanes of a vector memory word and their addresses (R236): by stride or by index, ascending. -/
def Sys2Proof.Claim.laneList (x : VW) (index : Bool) (s : State) : List (Nat × Nat) :=
  let base := addImm16 (val x.a s) x.imm16
  if index then indexAddrs (sl s) (mkOf x) base x.b (memSize x)
  else laneAddrs (sl s) (mkOf x) base (if strideUse x then sx 64 (val x.b s) else (memSize x : Int))

/-- Scratchpad bytes stored at the banks, one range after another (R100, R236). -/
def Sys2Proof.Claim.banked (core : Nat) (l : List (Nat × List Nat)) (m : Mach) : Mach :=
  l.foldl (fun m c => storeSp (cellsAt (spPlace core c.1) c.2) m) m

/-- Vector accesses to the scratchpad (R236): VLD and VLDW give each active lane its element, counted in oc.ld, VST and VSTW store each active lane's
element at the banks in order, counted in oc.st until the acknowledgement. The bits that E8M10 ignores are written as 0 (R174). -/
def Sys2Proof.Claim.VectorScratchpad : Prop :=
  ∀ (x : VW) (s : State) (index : Bool), Ready x.h s → IsReg x.a s → IsReg x.b s → Clear s →
    let y := sl s
    let ls := laneList x index s
    let n := memSize x
    Fits (x.d :: (if index then [x.b] else [])) [memElt x] s → (∀ p ∈ ls, p.2 % n = 0 ∧ InWindow p.2 n s) →
    ((∀ p ∈ ls, Sound p.2 n s) → RoomLd s → exec (if index then .vldw x else .vld x) s = .next (after x.h none (fun m =>
      lands .load (known (laneCells x (fun l => (memElt x).place y.vew
        (ofLE (s.m.spad.rdN (spPlace s.m.curCore ((ls.map (·.2)).getD ((ls.map (·.1)).idxOf l) 0)) n))) s)) (countsLd m)) s)) ∧
    (RoomSt s → exec (if index then .vstw x else .vst x) s = .next (after x.h none (fun m =>
      ackLater (banked s.m.curCore (ls.map (fun p => (p.2, toLE n ((memElt x).clean (y.lane x.d p.1))))) m)) s))

/-- A pending write of which some bytes are known. -/
def Sys2Proof.Claim.awaitsCells (cells : List (Nat × Option Nat)) (m : Mach) : Mach :=
  Mach.updSlot { m with nextId := m.nextId + 1 } m.cur (fun y => Slot.note { y with il := y.il ++ [⟨m.nextId, cells, .load, 0, none⟩] } (cells.map (·.1)))

/-- Vector accesses through virtual addresses (R237): with every address of the active lanes aligned, translated and, for a store, held, VLDG sends one
request for each line in ascending order and awaits the lanes' elements, VSTG sends the lanes' bytes line by line, later lanes over earlier; the bits that E8M10 ignores
are written as 0 (R174). -/
def Sys2Proof.Claim.VectorMemory : Prop :=
  ∀ (x : VW) (s : State) (pas : List Nat), Ready x.h s → IsReg x.a s → IsReg x.b s → Clear s →
    let y := sl s
    let ls := laneList x false s
    let n := memSize x
    let k := mkOf x
    let strong := bitAt x.sub 1
    let ps := List.zip (ls.map (·.1)) pas
    let lines := sortUp (pas.map (· / 128))
    Fits [x.d] [memElt x] s → pas.length = ls.length → (∀ p ∈ ls, p.2 % n = 0) →
    ((∀ p ∈ List.zip ls pas, Maps p.1.2 .read p.2 s) → RoomLd s → exec (.vldg x) s = .next (after x.h none (fun m =>
      let cells := ((List.range y.vcap).map (fun l =>
        let at_ := (List.range y.vew).map (y.vbyte (vNo x.d) l + ·)
        if y.laneActive k l then at_.map (fun a => (a, none)) else if x.zm then at_.map (fun a => (a, some 0)) else [])).flatten
      lines.foldl (fun m line =>
        startLine ((ps.filter (fun p => p.2 / 128 == line)).map (fun p => Machine.Part.mk p.2 n (cellIndex y x.zm k p.1) y.vew (memElt x).low))
          (memElt x).signed strong false x.h.ch.toNat s.m.nextId m) (awaitsCells cells (countsLd m))) s)) ∧
    ((∀ p ∈ List.zip ls pas, Maps p.1.2 .write p.2 s ∧ Held p.1.2 n s) → RoomSt s → exec (.vstg x) s = .next (after x.h none (fun m =>
      if ls.isEmpty then ackLater m
      else
        let t := m.cur + 2 ^ 16 * (s.m.nextId + 1)
        let bytes := lastWins (ps.map (fun p => cellsAt p.2 (toLE n ((memElt x).clean (y.lane x.d p.1))))).flatten
        (sortUp (bytes.map (·.1 / 128))).foldl (fun m line =>
          let l := bytes.filter (fun c => c.1 / 128 == line)
          if strong then strongStoreT m.cur t x.h.ch.toNat l m else weakStoreT m.cur t x.h.ch.toNat l m)
          (Mach.updSlot { m with nextId := m.nextId + 1 } m.cur (fun z => { z with ocSt := z.ocSt + 1 }))) s))

/-- Vector accesses (R236, R237). -/
def Obligations.VectorAccesses : Prop := Claim.VectorScratchpad ∧ Claim.VectorMemory

/-- A tile lies in the slot's share (R45). -/
def Sys2Proof.Claim.TileFits (b : BitVec 8) (s : State) : Prop :=
  (sl s).TS ≠ 0 ∧ (sl s).tbyte (tNo b) (sl s).TR (sl s).TC + (sl s).tew ≤ shareOf s.m.cx.slots

/-- Tiles (R236, R238): TLD and TST move the active elements between a tile and the scratchpad rows, TTR transposes a square tile, TMOV copies a
tile, a row to a vector or a vector to a row, TZERO clears; inactive elements keep their bytes, or are zeroed under .z, of a row written from a vector that row's alone (the model's reading, log
entry 17). -/
def Obligations.Tiles : Prop :=
  ∀ (x : VW) (s : State), Ready x.h s → IsReg x.a s → IsReg x.b s →
    let y := sl s
    let k := mkOf x
    let active := fun e : Nat × Nat => y.elemActive k e.1 e.2
    let a := val x.a s
    let b := val x.b s
    let base := addImm16 a x.imm16
    let offset := fun e : Nat × Nat => (base + e.1 * b + e.2 * y.tew) % 2 ^ 64
    (TileFits x.d s →
      (Clear s → base % y.tew = 0 → b % y.tew = 0 → (∀ e ∈ y.activeElems k, offset e % y.tew = 0 ∧ InWindow (offset e) y.tew s) →
        ((∀ e ∈ y.activeElems k, Sound (offset e) y.tew s) → RoomLd s → exec (.tld x) s = .next (after x.h none (fun m =>
          lands .load (known (tCells y x.d x.zm y.elems active (fun e => ofLE (s.m.spad.rdN (spPlace s.m.curCore (offset e)) y.tew)))) (countsLd m)) s)) ∧
        (RoomSt s → exec (.tst x) s = .next (after x.h none (fun m =>
          ackLater (banked s.m.curCore ((y.activeElems k).map (fun e => (offset e, toLE y.tew (y.elemNum x.d e.1 e.2)))) m)) s))) ∧
      (TileFits x.a s → y.TR = y.TC → exec (.ttr x) s = .next (after x.h none
        (lands .ready (known (tCells y x.d x.zm y.elems active (fun e => y.elemNum x.a e.2 e.1)))) s)) ∧
      (TileFits x.a s → exec (.tmov x) s = .next (after x.h none (fixed 4 (tCells y x.d x.zm y.elems active (fun e => y.elemNum x.a e.1 e.2))) s)) ∧
      (Fits [x.a] [] s → y.vew = y.tew → b ≤ y.TR → exec (.tmovVt x) s = .next (after x.h none (fixed 4
        (tCells y x.d x.zm ((List.range (y.TC + 1)).map (fun j => (b, j))) (fun e => decide (e.2 < y.vlanes) && active e) (fun e => y.lane x.a e.2))) s)) ∧
      exec (.tzero x) s = .next (after x.h none (fixed 4 (tCells y x.d x.zm y.elems active (fun _ => 0))) s)) ∧
    (Fits [x.d] [] s → TileFits x.a s → y.vew = y.tew → b ≤ y.TR → exec (.tmovTv x) s = .next (after x.h none (fixed 4
      (vCells y x.d x.zm (fun l => y.laneActive k l && decide (l ≤ y.TC)) (fun l => y.elemNum x.a b l))) s))

/-! ## Engines -/

/-- The slot runs on an issuer core whose conjunction engine serves no other slot and has no command of the core (R186, R187). -/
structure Sys2Proof.Claim.Engine (s : State) : Prop where
  issuer : isIssuer s.m.curCore = true
  free : ∀ k, s.m.cj.busy = some k → k = s.m.cur
  done : ∀ c ∈ s.m.cmds, ¬ (c.tl = 3 ∧ coreOf c.slot = s.m.curCore ∧ c.ctx = s.m.sl.ctx)
  clear : Clear s

/-- The records of the spill ring, oldest first, as key and cells (R200). -/
def Sys2Proof.Claim.ringList (s : State) : List (Nat × List Nat) :=
  let p := s.m.cj
  (List.range p.held).map (fun i =>
    let l := s.m.spad.rdN (spPlace s.m.curCore (p.roff + (p.ringHead + i) % (max p.rcap 1) * p.recSize)) p.recSize
    (ofLE (l.take 8), (List.range (p.w * p.w)).map (fun j => ofLE ((l.drop (16 + 16 * j)).take 16))))

/-- The pages of an area of virtual memory, translated for the access; the core may write it where it is to be written. -/
def Sys2Proof.Claim.Area (va len : Nat) (acc : Acc) (pas : List Nat) (s : State) : Prop :=
  (∃ tr : List (Nat × Nat), tr.map (·.1) = pagesOf va len ∧ (∀ p ∈ tr, Maps p.1 acc p.2 s) ∧ pas = tr.map (·.2)) ∧ (acc = .write → Held va len s)

/-- A trap ends the engine's work on the slot's command (R199). -/
def Sys2Proof.Claim.trapsCj (cause : Nat) (s : State) : State :=
  { s with m := takeTrap s.m.cur cause 0 s.m.sl.retAddr (if s.m.cj.busy == some s.m.cur then setBusy none (issued s) else issued s) }

/-- The conjunction engine's own words (R192, R200 to R208): CJCFG sets its geometry, DRAIN and ACCST write the merged keys and cells, ACCLR empties
it, SPILLST reports the ring, CJSAVE sends its image as the stores of one instruction and completes when they have been acknowledged, CJLOAD, once its
lines have had their turn, restores one. Each but SPILLST completes and takes its number on tl.cj. -/
def Sys2Proof.Claim.ConjunctionTable : Prop :=
  ∀ (x : JW) (s : State), Ready x.h s → IsReg x.a s → IsReg x.b s → Engine s →
    let a := val x.a s
    let b := val x.b s
    let p := s.m.cj
    let n := p.table.length + p.held
    let out := mergedCells p (ringList s)
    let drained : Nat → (Nat → Nat) → Bool → Mach → Mach := fun size cell clear m =>
      let m := storeSp (cellsAt (spPlace s.m.curCore a) ((out.map (fun e => toLE 8 e.1)).flatten)) m
      let m := storeSp (cellsAt (spPlace s.m.curCore b) ((out.map (fun e => (e.2.map (fun c => toLE size (cell c))).flatten)).flatten)) m
      let m := if clear then m.setCj (Pair.emptied m.cj) else m
      completeCj (lands .ready (known (gCells (gNo x.d) out.length)) m)
    let whole : Nat → Prop := fun size => IsReg x.d s ∧ a % 8 = 0 ∧ b % size = 0 ∧ InWindow a (8 * n) s ∧ InWindow b (size * n * p.w * p.w) s ∧
      ∀ i < p.held, Sound (p.roff + (p.ringHead + i) % (max p.rcap 1) * p.recSize) p.recSize s
    (ringBad (issued s) s.m.cur a (p.configured x.mod.toNat a).recSize = none →
      exec (.cjcfg x) s = .next (after x.h none (fun m => completeCj (m.setCj (p.configured x.mod.toNat a))) s)) ∧
    (whole 4 → exec (.drain x) s = .next (after x.h none (drained 4 (cellResult p.cls x.rm) true) s)) ∧
    (whole 16 → exec (.accst x) s = .next (after x.h none (drained 16 id (!bitAt x.mod.toNat 0)) s)) ∧
    exec (.acclr x) s = .next (after x.h none (fun m => completeCj (m.setCj { Pair.emptied p with
      group := if bitAt x.mod.toNat 0 then none else p.group })) s) ∧
    (IsReg x.d s → exec (.spillst x) s = .next (after x.h none (fun m =>
      setBusy none (lands .ready (known (gCells (gNo x.d) (p.held + p.high * 2 ^ 16 + p.rcap * 2 ^ 32))) m)) s)) ∧
    (∀ pas, s.m.sl.mid = false → RoomSt s → a % 4096 = 0 → Area a areaSize .write pas s →
      let sent := bumpSt s.m.cur { issued s with nextId := s.m.nextId + 1 }
      exec (.cjsave x) s = .next { s with m := saveCj a pas (s.m.cur + 2 ^ 16 * (s.m.nextId + 1)) (setBusy (some s.m.cur) sent) }) ∧
    (s.m.sl.mid = true → (s.m.sl.ocSt = 0 → exec (.cjsave x) s = .next (after x.h none completeCj s)) ∧
      (s.m.sl.ocSt ≠ 0 → exec (.cjsave x) s = .next (waitsFor (.counter 1 0) s s.m))) ∧
    (∀ pas bytes m, a % 4096 = 0 → Area a areaSize .read pas s → bringLaw (linesAt a pas areaSize) x.h.ch.toNat (issued s) = .ok ((), issued s) →
      engRead s.m.cur (engBytes a pas areaSize) (issued s) = .ok (bytes, m) →
      let img := Mem.wrAll [] (cellsAt 0 bytes)
      let q := cjParse m.cj img
      (cjLimits m m.cur q = true → cjImage q = img → exec (.cjload x) s = .next (after x.h none (fun _ => completeCj (m.setCj q)) s)) ∧
      (cjLimits m m.cur q = false ∨ cjImage q ≠ img → exec (.cjload x) s = .next (trapsCj 0x2B s)))

/-- A word that only an issuer core may run traps on another (R186). -/
def Sys2Proof.Claim.IssuerTraps : Prop :=
  ∀ (x : JW) (s : State), Ready x.h s → (∀ p ∈ (sl s).pw, p.due ≤ s.m.sl.n) → isIssuer s.m.curCore = false →
    ∀ i ∈ [Instr.cjcfg x, .contract x, .acclr x, .cjsave x, .cjload x, .isect x, .union x, .merge x, .isectc x, .mergek x] ++
        (if (s.m.sl.stream x.d).isNone then [Instr.drain x, .accst x, .spillst x] else []),
      exec i s = .next { s with m := takeTrap s.m.cur 0x24 0 s.m.sl.retAddr s.m }

/-- The conjunction engine's own words, and the trap on a core that is no issuer (R186, R192, R200 to R208).
That CJLOAD accepts only an image that is the image of what it describes (log entry 37), CJSAVE's two executions (12), the image's places (64)
and the results of loaded integer cells (62) are the model's own. -/
def Obligations.ConjunctionTable : Prop := Claim.ConjunctionTable ∧ Claim.IssuerTraps

/-- CONTRACT at issue with two bound input streams (R195, R196), `mid` once it has begun. -/
structure Sys2Proof.Claim.Contracting (x : JW) (sa sb : Stream) (mid : Bool) (s : State) : Prop where
  engine : Engine s
  written : ∀ p ∈ (sl s).pw, p.due ≤ s.m.sl.n
  ready : Ready x.h s
  a : s.m.sl.stream x.a = some sa ∧ sa.out = false
  b : s.m.sl.stream x.b = some sb ∧ sb.out = false
  mid : s.m.sl.mid = mid

/-- CONTRACT at work: the engine with the four registers at the cursor, and the word still at issue. -/
def Sys2Proof.Claim.cjStep (d : Nat) (r : List Nat) (p : Pair) (m : Mach) (s : State) : Host.Outcome State Fault Refusal :=
  .next { s with m := atRestart (cursorAt d r p m) }

/-- CONTRACT begins (R189, R194, R195): with elements that fill the strips of the format, and an engine that is empty or of the format's class, it takes
the engine and keeps a held group whose cursor the registers are, which goes to the probe; else it traps. -/
def Sys2Proof.Claim.ContractBegins : Prop :=
  ∀ (x : JW) (sa sb : Stream) (s : State), Contracting x sa sb false s →
    let p := s.m.cj
    let regs := (List.range 4).map (fun i => (sl s).g (gNo x.d + i))
    let strip := stripBytes x.fmt p.w
    let fits := ∀ y ∈ [sa, sb], Ty.size y.ty ≤ strip ∧ strip % Ty.size y.ty = 0
    let mine := (p.table = [] ∧ p.held = 0) ∨ p.cls = accClass x.fmt
    (fits → mine → exec (.contract x) s = cjStep (gNo x.d) regs { p with
      cls := accClass x.fmt, busy := some s.m.cur, from_ := s.m.nextId
      group := (p.group.filter (fun g => g.cursor == regs)).map (fun g => { g with opening := false }) } (issued s) s) ∧
    (¬fits → exec (.contract x) s = .next (trapsCj 0x27 s)) ∧
    (fits → ¬mine → exec (.contract x) s = .next (trapsCj 0x28 s))

/-- CONTRACT (R168, R195 to R199). A key queue's head that it needs is waited for, kqC's before kqE's, and checked when it is there. Outside a group it
completes, with the cursor at the chunk's end, when no tuple lies in the chunk, and else a group begins at the least coordinate. An open group takes the
B tuples of its coordinate, 256 at most; then A tuple by A tuple every pair is applied, until the group closes. Each step leaves the word at issue with
the cursor in its registers. The steps are the model's reading (log entry 12). -/
def Sys2Proof.Claim.ContractGoesOn : Prop :=
  ∀ (x : JW) (sa sb : Stream) (s : State), Contracting x sa sb true s →
    let d := gNo x.d
    let regs := (List.range 4).map (fun i => (sl s).g (d + i))
    let nA := regs.getD 0 0
    let nB := regs.getD 1 0
    let gk := regs.getD 2 0
    let p := s.m.cj
    let hc := (p.kq.get [] x.c.toNat).head?
    let he := (p.kq.get [] x.e.toNat).head?
    let good : Option Nat → Nat → Prop := fun h n => n ≠ 0 → ∃ k, h = some k ∧ badKey k = false
    let is : Option Nat → Nat → Nat → Prop := fun h n k => n ≠ 0 ∧ ∃ t, h = some t ∧ badKey t = false ∧ kOf t = k
    let least := (((if nA = 0 then [] else hc.toList) ++ (if nB = 0 then [] else he.toList)).map kOf).foldl min (2 ^ 64)
    let cend := (gk / 128 + 1) * 128
    let ends : Mach → Mach := fun m =>
      let m := if x.h.la then m.updSlot m.cur (fun y => { y with streams := y.streams.del (sNo x.a) }) else m
      if x.h.lb then m.updSlot m.cur (fun y => { y with streams := y.streams.del (sNo x.b) }) else m
    let waits : Bool → Wait := fun forA => .keyHead (pairOf s.m.curCore) s.m.sl.ctx x.c.toNat x.e.toNat forA (!forA)
    let asksA := ∀ g, p.group = some g → g.held = none ∧ g.opening = false
    let asksB := (p.group = none → good hc nA) ∧ ∀ g, p.group = some g → g.held = none ∧ g.opening = true
    (asksA → nA ≠ 0 → (hc = none → exec (.contract x) s = .next (waitsFor (waits true) s s.m)) ∧
      (∀ k, hc = some k → badKey k = true → exec (.contract x) s = .next (trapsCj 0x26 s))) ∧
    (asksB → nB ≠ 0 → (he = none → exec (.contract x) s = .next (waitsFor (waits false) s s.m)) ∧
      (∀ k, he = some k → badKey k = true → exec (.contract x) s = .next (trapsCj 0x26 s))) ∧
    (p.group = none → good hc nA → good he nB →
      (cend ≤ least → exec (.contract x) s = .next (after x.h none (fun m => ends (completeCj (cursorAt d (regs.set 2 (cend % 2 ^ 64)) p m))) s)) ∧
      (gk ≤ least → least < cend →
        exec (.contract x) s = cjStep d (regs.set 2 least) { p with group := some ⟨least, true, [], none, 0, regs.set 2 least, x.fmt⟩ } (issued s) s) ∧
      (least < gk → exec (.contract x) s = .next (trapsCj 0x25 s))) ∧
    (∀ g, p.group = some g →
      (∀ t, g.held = some t → g.next < g.places.length →
        let b := g.places.getD g.next ⟨0, []⟩
        let r := regs.set 3 ((regs.getD 3 0 + 1) % 2 ^ 64)
        let applied := applyMatch (ijOf t.key + ijOf b.key * 2 ^ 24) (stripElems x.fmt p.w t.strip) (stripElems x.fmt p.w b.strip) (issued s)
        (∀ m, applied = some m → exec (.contract x) s =
          cjStep d r { m.cj with group := some { g with next := g.next + 1, cursor := r } } (m.updSlot s.m.cur (fun y => y.countEvent 8)) s) ∧
        (applied = none → exec (.contract x) s = .next (trapsCj 0x2A s))) ∧
      (∀ t, g.held = some t → g.places.length ≤ g.next →
        let r := regs.set 0 (nA - 1)
        exec (.contract x) s = cjStep d r { p with group := some { g with held := none, next := 0, cursor := r } } (issued s) s) ∧
      (g.held = none → g.opening = true →
        (is he nB g.k → g.places.length < 256 →
          ∀ l m, popStrip x.b sb (stripBytes x.fmt p.w / Ty.size sb.ty) x.h.ch.toNat (issued s) = .ok (l, m) →
            let r := regs.set 1 (nB - 1)
            exec (.contract x) s = cjStep d r { p with kq := p.kq.put x.e.toNat (p.kq.get [] x.e.toNat).tail
                                                       group := some { g with places := g.places ++ [⟨he.getD 0, l⟩], cursor := r } } m s) ∧
        (is he nB g.k → 256 ≤ g.places.length → exec (.contract x) s = .next (trapsCj 0x29 s)) ∧
        (good he nB → ¬is he nB g.k → exec (.contract x) s = cjStep d regs { p with group := some { g with opening := false } } (issued s) s)) ∧
      (g.held = none → g.opening = false →
        (is hc nA g.k → ∀ l m, popStrip x.a sa (stripBytes x.fmt p.w / Ty.size sa.ty) x.h.ch.toNat (issued s) = .ok (l, m) →
          exec (.contract x) s = cjStep d regs { p with kq := p.kq.put x.c.toNat (p.kq.get [] x.c.toNat).tail
                                                        group := some { g with held := some ⟨hc.getD 0, l⟩, next := 0 } } m s) ∧
        (good hc nA → ¬is hc nA g.k → exec (.contract x) s = cjStep d regs { p with group := none } (issued s) s)))

/-- CONTRACT (R168, R189, R194 to R199): how it begins and how it goes on. Its steps are the model's reading (log entry 12). -/
def Obligations.Contract : Prop := Claim.ContractBegins ∧ Claim.ContractGoesOn

/-- The timeline has room for another command (R108). -/
def Sys2Proof.Claim.Room (t : Nat) (s : State) : Prop := (cmdsOf s.m s.m.cur t).length < 16

/-- Commands of the set-operation, copy, gather, scatter and pool engines and of the matvec (R108, R209, R211, R217): with their ranges in the
window, their records accepted and room on their timeline, they become the timeline's newest command, and the word retires. In deterministic mode
SCATTER has read its list by then (R322). -/
def Sys2Proof.Claim.EngineCommandsStart : Prop :=
  ∀ (x : JW) (s : State), Ready x.h s → IsReg x.a s → IsReg x.b s → Clear s →
    let d := val x.d s
    let a := val x.a s
    let b := val x.b s
    let c := val x.c s
    let e := val x.e s
    let k := s.m.cur
    let starts : Instr → Nat → NewCmd → Prop := fun i t new => exec i s = .next (after x.h none (startCmd k t new none) s)
    (isIssuer s.m.curCore = true → Room 3 s → bits c 0 32 ≤ 256 →
      ∀ p ∈ [(Instr.isect x, 0xC5, d, 8, bits c 32 32), (.union x, 0xC6, d, 8, bits c 0 32 + bits c 32 32),
          (.merge x, 0xC7, d, 8, bits c 0 32 + bits c 32 32), (.isectc x, 0xDA, 0, 8, 0), (.mergek x, 0xDB, d, 16, bits c 0 32 + bits c 32 32)],
        a % p.2.2.2.1 = 0 → b % p.2.2.2.1 = 0 → p.2.2.1 % p.2.2.2.1 = 0 → InWindow a (p.2.2.2.1 * bits c 0 32) s →
        InWindow b (p.2.2.2.1 * bits c 32 32) s → InWindow p.2.2.1 (p.2.2.2.1 * p.2.2.2.2) s → InWindow e 8 s →
        starts p.1 3 {
          op := p.2.1
          args := [p.2.2.1, a, b, bits c 0 32, bits c 32 32, e, x.mod.toNat]
          spans := [(a, p.2.2.2.1 * bits c 0 32), (b, p.2.2.2.1 * bits c 32 32), (p.2.2.1, p.2.2.2.1 * p.2.2.2.2), (e, 8)] }) ∧
    (a % 64 = 0 → ownShare (issued s) k a 64 = true → Sound a 64 s → Room 0 s →
      let q := quadsOf (s.m.spad.rdN (spPlace s.m.curCore a) 64) 8
      ∀ p ∈ [(Instr.copy x, 0xCA), (.copy2d x, 0xCB), (.copyk x, 0xCC)], copyBad p.2 q = false →
        copyFails (issued s) k p.2 (copyRec p.2 q) = none → capRanges (issued s) ((copyRec p.2 q).wvas p.2) = none →
        starts p.1 0 (newCopy a p.2 (copyRec p.2 q) x.h.ch.toNat)) ∧
    (let n := bits c 0 32
     let nb := bits c 32 32
     let l := bits e 0 32
     let idle := n == 0 || l == 0
     Room 1 s → l ≤ 16384 →
     ∀ p ∈ [(Instr.gather x, 0xCD, l, if bitAt x.mod.toNat 0 then 8 else 4, n * l, 0), (.scatter x, 0xCE, l, if bitAt x.mod.toNat 0 then 8 else 4, n * l, 0),
         (.pool x, 0xCF, l * Fmt.width x.fmt / 8, 8, nb * l * 4, 4 * nb)],
       let rb := p.2.2.1
       let ib := p.2.2.2.1
       let side := p.2.2.2.2.1
       let lists := n * ib + p.2.2.2.2.2
       let args := [d, a, b, n, nb, l, bits e 32 32, rb, ib, x.mod.toNat, Fmt.code x.fmt, Rm.code x.rm, 0]
       let rows := if p.2.1 = 0xCE ∧ idle = false then (List.range n).map (fun j =>
         ((a + ofLE (((s.m.spad.rdN (spPlace s.m.curCore b) lists).drop (j * ib)).take ib) * bits e 32 32) % 2 ^ 64, l)) else []
       let list : Bool := p.2.1 == 0xCE && !idle && s.m.cx.det
       rb ≤ 65536 → InWindow b lists s → InWindow d side s → (∀ r ∈ rows, Held r.1 r.2 s) → (list = true → Sound b lists s) →
       starts p.1 1 { op := p.2.1, args := args ++ (if list then s.m.spad.rdN (spPlace s.m.curCore b) lists else []), spans := if idle then [] else [(b, lists), (d, side)], wvas := rows, ch := x.h.ch.toNat }) ∧
    (∀ q, s.m.sl.smv = some q → 0 < b → b ≤ 8 → InWindow a (4 * b * bits (q.getD 1 0) 32 32) s → InWindow d (4 * b * bits (q.getD 1 0) 0 32) s → Room 2 s →
      starts (.smv x) 2 { op := 0xD0, args := [d, a, b] ++ q ++ [0], ch := x.h.ch.toNat
                          spans := [(a, 4 * b * bits (q.getD 1 0) 32 32), (d, 4 * b * bits (q.getD 1 0) 0 32)] }) ∧
    (ownShare (issued s) k a 64 = true → Sound a 64 s →
      let q := quadsOf (s.m.spad.rdN (spPlace s.m.curCore a) 64) 8
      (smvBad q = false → exec (.smvcfg x) s = .next (after x.h none (fun m => m.updSlot m.cur (fun y => { y with smv := some q })) s)) ∧
      (smvBad q = true → exec (.smvcfg x) s = .next { s with m := takeTrap s.m.cur 0x18 0 s.m.sl.retAddr s.m }))

/-- Remote commands and collectives (R310, R311, R313): RPUT, RGET, RATOM, RRED and COLL, with arguments that their rules accept, become the newest
command on tl.fx. -/
def Sys2Proof.Claim.RemoteCommandsStart : Prop :=
  ∀ (x : JW) (s : State), Ready x.h s → IsReg x.a s → IsReg x.b s → Clear s → Room 4 s →
    let d := val x.d s
    let a := val x.a s
    let b := val x.b s
    let starts : Instr → Nat → List Nat → List (Nat × Nat) → List (Nat × Nat) → Prop := fun i op args spans wvas =>
      exec i s = .next (after x.h none (startCmd s.m.cur 4 { op := op, args := args, spans := spans, wvas := wvas } none) s)
    (∀ pa, 0 < b → b ≤ 262144 → scopeOk .sys (paKind s.m.dev pa) = true →
      (granuleOf d = granuleOf (d + b - 1) → InWindow a b s → Held d b s → Maps d .write pa s → starts (.rput x) 0xD3 [pa, a, b] [(a, b)] [(d, b)]) ∧
      (granuleOf a = granuleOf (a + b - 1) → InWindow d b s → Maps a .read pa s → starts (.rget x) 0xD4 [pa, d, b] [(d, b)] [])) ∧
    (let n := Ty.size (remoteTy x.mod.toNat)
     let op := bits x.mod.toNat 0 4
     ∀ pa, a % n = 0 → Held a n s → Maps a .write pa s → scopeOk .sys (paKind s.m.dev pa) = true →
      (Free s → InWindow d 8 s → (op = 7 → IsReg x.c s) →
        starts (.ratom x) 0xD5 [pa, d, n, b, if op = 7 then val x.c s else 0, x.mod.toNat] [(d, 8)] [(a, n)]) ∧
      ((op = 8 → Free s) → starts (.rred x) 0xD6 [pa, 0, n, b, 0, x.mod.toNat] [] [(a, n)])) ∧
    (let q := quadsOf (s.m.spad.rdN (spPlace s.m.curCore a) 64) 8
     let r := collRec q
     let table := s.m.spad.rdN (spPlace s.m.curCore r.rtab) r.nrank
     let i := collSize r.fmt * r.cnt
     let o := collSize r.fmt * r.outs
     ∀ tr tw : List (Nat × Nat), a % 64 = 0 → ownShare (issued s) s.m.cur a 64 = true → Sound a 64 s → collBad 64 q [] = false →
      InWindow r.rtab r.nrank s → Sound r.rtab r.nrank s → collBad s.m.dev.sdev q table = false → beyond r.sbuf i = none → beyond r.dbuf o = none →
      Held r.dbuf o s → tr.map (·.1) = pagesOf r.sbuf i → tw.map (·.1) = pagesOf r.dbuf o → (∀ p ∈ tr, Maps p.1 .read p.2 s) →
      (∀ p ∈ tw, Maps p.1 .write p.2 s) → (∀ p ∈ tr ++ tw, paKind s.m.dev p.2 = .hbm ∨ paKind s.m.dev p.2 = .pooled) →
      starts (.coll x) 0xD2 ([a] ++ q ++ [tr.length] ++ (tr ++ tw).map (·.2)) [(a, 64), (r.rtab, r.nrank)] [(r.dbuf, o)])

/-- Commands of engines and remote commands start (R108, R209 to R219, R310 to R313). -/
def Obligations.CommandsStart : Prop := Claim.EngineCommandsStart ∧ Claim.RemoteCommandsStart

/-- Words about engines (R190, R191, R214 to R216) and event rules (R167): KQPUSH appends a key to a queue with room, KQSTAT reports it and may empty it,
PFPOOL asks for pooled lines, ECANCEL ends the timeline's commands, ESTAT reports them; EVRULE sets a rule that R164 accepts, its other form removes it. -/
def Obligations.EngineWords : Prop :=
  ∀ (x : JW) (s : State), Ready x.h s →
    let p := s.m.cj
    let kq : Nat → List Nat := fun q => p.kq.get [] q
    (IsReg x.a s → IsReg x.b s → (kq x.d.toNat).length < 64 → copykTo s.m s.m.cur x.d.toNat = false →
      exec (.kqpush x) s = .next (after x.h none (fun m => m.setCj { p with kq := p.kq.put x.d.toNat (kq x.d.toNat ++ [val x.a s]) }) s)) ∧
    (IsReg x.d s → (bitAt x.mod.toNat 0 = false → Free s) → exec (.kqstat x) s = .next (after x.h none (fun m =>
      let m := lands .ready (known (gCells (gNo x.d) (if s.m.cx.det then 0 else (kq x.a.toNat).length))) m
      if bitAt x.mod.toNat 0 then m.setCj { p with kq := p.kq.put x.a.toNat [] } else m) s)) ∧
    (IsReg x.a s → IsReg x.b s → Clear s → beyond (val x.a s) (val x.b s) = none →
      (∀ v ∈ vaLines (val x.a s) (val x.b s), walking (issued s) s.m.curCore s.m.cx.asid v = false) →
      exec (.pfpool x) s = .next (after x.h none (fun m => (vaLines (val x.a s) (val x.b s)).foldl (fun m v => prefetchLine x.h.ch.toNat v m) m) s)) ∧
    exec (.ecancel x) s = .next (after x.h none (fun m => (cmdsOf m m.cur (x.d.toNat - 16)).foldl (fun m c => cancelCmd c m) m) s) ∧
    (IsReg x.d s → Free s → exec (.estat x) s = .next (after x.h none (fun m =>
      lands .ready (known (gCells (gNo x.d) (estatWord m (tlSlot m.cur (x.a.toNat - 16)) (x.a.toNat - 16)))) m) s)) ∧
    (IsReg x.a s → Privileged s → Clear s → InWindow (val x.a s) 64 s → Sound (val x.a s) 64 s →
      let q := quadsOf (s.m.spad.rdN (spPlace s.m.curCore (val x.a s)) 64) 8
      (∀ c, s.m.ctxOfAsid (bits (q.getD 0 0) 32 16) = some c → ruleBad q = false → (s.m.ctx c).det = false →
        exec (.evrule x) s = .next (after x.h none (setRule (bits x.mod.toNat 8 1) (bits x.mod.toNat 0 8) (some q)) s)) ∧
      (s.m.ctxOfAsid (bits (q.getD 0 0) 32 16) = none ∨ ruleBad q = true →
        exec (.evrule x) s = .next { s with m := takeTrap s.m.cur 0x23 0 s.m.sl.retAddr s.m })) ∧
    (Privileged s → exec (.evruleOff x) s = .next (after x.h none (setRule (bits x.mod.toNat 8 1) (bits x.mod.toNat 0 8) none) s))

/-! ## Events -/

/-- The machine changed. -/
def Sys2Proof.Claim.goes (f : Mach → Mach) (s : State) : State := { s with m := f s.m }

/-- Results and acknowledgements (R21, R86, R95, R113, R137, R297, R298): INTERLOCK_LAND and LOAD_LAND land the first pending write that may, STORE_ACK, ATOMIC_COMPLETE and
LAW_OP_COMPLETE return, each taking its count from the slot; LAW_OP_PERFORM performs the oldest request that its slice has accepted on its word. -/
def Sys2Proof.Claim.ResultsLand : Prop :=
  (∀ (k : Nat) (x : Land) (s : State),
    (landable (fun c => c == .ready || c == .gang) [] (s.m.slot k).il = some x → exec (.interlockLand k) s = .next (goes (landAt k x) s)) ∧
    (landable loadSrc [] (s.m.slot k).il = some x →
      exec (.loadLand k) s = .next (goes (fun m => (landAt k x m).updSlot k (fun y => { y with ocLd := y.ocLd - 1 })) s)) ∧
    (landable loadSrc [] (s.m.slot k).il = none → (∃ r, firstHost s.m (coreOf k) false = some r ∧ r.slot = k) →
      exec (.loadLand k) s = .next (goes (fun m => loadLand k (hostRead k m)) s))) ∧
  (∀ (id : Nat) (r : Req) (s : State) (l : List (Nat × Nat)) (ts : List Nat),
    s.m.reqs.find? (fun r => r.id == id && (r.st == .done || r.st == .host)) = some r → r.kind = .store l ts →
    (r.st = .done → exec (.storeAck id) s = .next (goes (fun m => ts.foldl ackToken (dropReq id m)) s)) ∧
    (r.st = .host → (firstHost s.m (coreOf r.slot) true).map (·.id) = some id →
      exec (.storeAck id) s = .next (goes (fun m => ts.foldl ackToken (dropReq id (hostBus r.pa (storeMem l m)))) s))) ∧
  (∀ (id : Nat) (r : Req) (s : State), s.m.reqs.find? (fun r => r.id == id && r.st == .done) = some r →
    (∀ op ty b inv sc, r.kind = .atomic op ty b none inv sc → (∀ n ∈ s.m.notices, n.req ≠ id) →
      exec (.atomicComplete id) s = .next (goes (fun m => dropReq id (m.updSlot r.slot (fun y => { y with ocAt := y.ocAt - 1 }))) s)) ∧
    (∀ op ty b l inv sc x, r.kind = .atomic op ty b (some l) inv sc → (∀ n ∈ s.m.notices, n.req ≠ id) → canLand l (s.m.slot r.slot).il = some x →
      exec (.atomicComplete id) s = .next (goes (fun m =>
        let m := (landAt r.slot x m).updSlot r.slot (fun y => { y with ocAt := y.ocAt - 1 })
        dropReq id (if inv then l1Inv (coreOf r.slot) m else m)) s)) ∧
    (∀ op w128 b b1 land named oct laws x, r.kind = .law op w128 b b1 land named oct laws → (∀ l, land = some l → canLand l (s.m.slot r.slot).il = some x) →
      exec (.lawOpComplete id) s = .next (goes (fun m =>
        let m := if land.isSome then landAt r.slot x m else m
        let m := m.updSlot r.slot (fun y => { y with ocLw := y.ocLw - 1 })
        dropReq id (l1InvLines (coreOf r.slot) (if oct then r.val else [r.pa / 128]) m)) s))) ∧
  (∀ (id : Nat) (r : Req) (s : State) (op : LawOp) (w128 : Bool) (b b1 named : Nat) (land : Option Nat) (oct : Bool)
      (laws : Option (Tab (List Nat))),
    s.m.reqs.find? (fun r => r.id == id && r.st == .queued) = some r → r.kind = .law op w128 b b1 land named oct laws →
    s.m.reqs.find? (fun x => x.accepted && homeOf x.pa == homeOf r.pa && !(x.st == .cxl && x.pa / 128 != r.pa / 128)) = some r →
    exec (.lawOpPerform id) s = .next (goes (fun m =>
      let m := useLine (r.pa / 128) 0 (if needsLine m r then bringLine (r.pa / 128) m else m)
      let y := lawCore ⟨r.ctx, r.slot, op, ⟨oct, r.pa, w128⟩, named, b, b1, 0, laws⟩ m
      let m := match land with
        | some l => fillLand r.slot l 0 (toLE 16 y.1) y.2
        | none => y.2
      pumpSlice (homeOf r.pa) (setReq { r with st := .done } m)) s))

/-- Home slices and the fabric (R8, R9, R89, R90, R93, R94, R294, R358): SLICE_REQUEST answers a query, performs what a cluster unit holds, or accepts a request and performs
what it can in acceptance order, L2_FILL brings a line, with poison for what a poisoned completion returned, CXL_COMPLETION performs a pooled store, CXL_TIMEOUT ends the
context after 100 µs, L1_FILL allocates a line and serves its load and the misses that joined it (R300), PEER_INVALIDATION drops a copy, WCB_ENTRY_TIMEOUT sends old entries. -/
def Sys2Proof.Claim.SlicesAndFills : Prop :=
  (∀ (id : Nat) (r : Req) (s : State),
    (s.m.reqs.find? (·.id == id) = some r → canAccept s.m r = true →
      (∀ land clear, r.kind = .query land clear → exec (.sliceRequest id) s = .next (goes (answerQuery r land clear) s)) ∧
      (isQuery r.kind = false → unitHolds s.m r = true → exec (.sliceRequest id) s = .next (goes (perform r) s)) ∧
      (isQuery r.kind = false → unitHolds s.m r = false →
        let behind := s.m.reqs.any (fun x => (x.st == .queued || x.st == .cxl) && x.pa / 128 == r.pa / 128)
        let missing := needsLine s.m r && !present s.m r.pa && !behind
        let held : Req := { r with st := if missing then .filling else .queued, since := s.m.cyc }
        let m : Mach := { s.m with reqs := s.m.reqs.filter (·.id != id) ++ [held] }
        exec (.sliceRequest id) s = .next { s with m := pumpSlice (homeOf r.pa) (countReq r (if missing then cxlAsk r.pa m else m)) })) ∧
    (∀ bad, s.m.reqs.find? (fun r => r.id == id && r.st == .filling) = some r → (paKind s.m.dev r.pa = .hbm → r.since + 300 ≤ s.m.cyc) →
      let line := r.pa / 128
      let m := bringLine line s.m
      let words := if paKind m.dev r.pa == .pooled then (wordsOf (128 * line) 128).filter bad.contains else []
      exec (.l2Fill ⟨id, bad⟩) s = .next { s with m := pumpSlice (homeOf r.pa) { m with
        poison := words ++ m.poison.filter (fun w => !words.contains w)
        reqs := m.reqs.map (fun x => if x.st == .filling && x.pa / 128 == line then { x with st := .queued } else x) } }) ∧
    (s.m.reqs.find? (fun r => r.id == id && r.st == .cxl) = some r →
      (∀ l ts, r.kind = .store l ts → exec (.cxlCompletion id) s = .next (goes (fun m =>
        pumpSlice (homeOf r.pa) (setReq { r with st := .done } (homeStore l m))) s)) ∧
      (∀ c w, r.kind = .eng c w → exec (.cxlCompletion id) s = .next (goes (fun m => pumpSlice (homeOf r.pa) (serveEng r c m)) s))) ∧
    (s.m.reqs.find? (fun r => r.id == id && (r.st == .cxl || r.st == .filling)) = some r → paKind s.m.dev r.pa = .pooled → r.since + 120000 ≤ s.m.cyc →
      exec (.cxlTimeout id) s = .next (goes (endContext r.ctx 0x83 (if r.kind = .ingest then 0 else r.slot) r.pa) s)) ∧
    (s.m.reqs.find? (fun r => r.id == id && r.st == .done) = some r →
      let line := r.pa / 128
      let own := r.mine.filter (fun b => b.1 / 128 == line) ++ r.later
      let data : Mem := Mem.wrAll (Mem.wrAll [] (cellsAt 0 r.val)) (own.map (fun b => (b.1 % 128, b.2)))
      let alloc : Mach → Mach := fun m =>
        if r.gone then m else m.updCore (coreOf r.slot) (fun c => l1Alloc c ⟨line, data, badWords m line own⟩ r.hint)
      (∀ l1, r.kind = .line l1 → exec (.l1Fill id) s = .next (goes (fun m => serveAllJoined r (dropReq id (alloc m))) s)) ∧
      (∀ len l1 cnt, r.kind = .data len l1 cnt → exec (.l1Fill id) s = .next (goes (fun m => serveAllJoined r (giveData r len cnt (if l1 then alloc m else m))) s)) ∧
      (∀ parts sg al sy land, r.kind = .load parts sg al sy land →
        exec (.l1Fill id) s = .next (goes (fun m => serveAllJoined r (dropReq id (alloc (fillParts r.slot land sg parts r.read m)))) s)))) ∧
  (∀ (n : Nat) (s : State),
    ((∃ c ∈ (s.m.slice (homeOf (128 * n))).copies, c.line = n) → exec (.peerInvalidation n) s = .next (goes (dropCopy n) s)) ∧
    ((∃ w ∈ (s.m.core n).wcb, w.opened + 32 ≤ s.m.cyc) →
      exec (.wcbEntryTimeout n) s = .next (goes (sendWcb n (fun w => decide (w.opened + 32 ≤ s.m.cyc))) s)))

/-- What the memory system does on its own (R9, R21, R86 to R95, R113, R137, R297, R298, R358).
Each is a step of the model's own division (log entries 11, 48). -/
def Obligations.AccessEvents : Prop := Claim.ResultsLand ∧ Claim.SlicesAndFills

/-- Translation (R327, R332 to R334): TLB_MISS serves a core's look-ups of a page from the die's L2 TLB (R326), joins or starts a walk, or meets a pending fault; PAGE_WALK_END answers every
look-up that joined, with the leaf or with a fault, recorded once; a walk over poison ends the context (R344); lines of pooled memory are asked for first (R358). -/
def Sys2Proof.Claim.TranslationEvents : Prop :=
  (∀ (k g : Nat) (l : Look) (s : State), (s.m.slot k).look.find? (fun l => l.granule == g && l.st == .toL2) = some l →
    let die := dieOf (coreOf k)
    let asid := (s.m.ctx (s.m.slot k).ctx).asid
    let d := s.m.die die
    let js := sameMiss s.m k g
    let m := js.foldl (fun m j => m.updSlot j.1 (fun y => y.countEvent 6)) s.m
    let doneAll := fun (m : Mach) => js.foldl (fun m j => lookDone j.1 m) m
    let walk := fun (m : Mach) => js.foldl (fun m j => endLook j.1 g j.2.acc .walking m) m
    let joined := d.walks.any (fun w => w.asid == asid && w.granule == g)
    (∀ e, d.tlb.find? (·.covers asid g) = some e → exec (.tlbMiss k g) s = .next { s with m := doneAll (js.foldl (fun m j => meet j.1 die j.2 e m) m) }) ∧
    (d.tlb.find? (·.covers asid g) = none →
      (joined = true → exec (.tlbMiss k g) s = .next { s with m := walk m }) ∧
      (joined = false → (pending m die asid g).isSome = true → exec (.tlbMiss k g) s = .next { s with m := doneAll (js.foldl (fun m j => endLook j.1 g j.2.acc .failed m) m) }) ∧
      (joined = false → pending m die asid g = none → d.walks.length < 32 → exec (.tlbMiss k g) s = .next (goes (fun _ => walk (m.setDie die { d with walks := d.walks ++ [⟨asid, g, l.acc⟩] })) s)))) ∧
  (∀ (die asid g c : Nat) (w : Walk) (s : State), (s.m.die die).walks.find? (fun w => w.asid == asid && w.granule == g) = some w →
    s.m.ctxOfAsid asid = some c →
    let va := g * 2 ^ 18
    let reads := rootReads s.m.dev s.m.mem (s.m.ctx c) va
    let m := walkFind (s.m.ctx c) va (s.m.setDie die { s.m.die die with walks := (s.m.die die).walks.erase w })
    let js := joined s.m die asid g
    (∀ a ∈ reads, waitsService s.m.dev a = false) →
    (∀ line, missingTable s.m reads = some line → (∀ r ∈ s.m.reqs, ¬ (r.kind = .code ∧ r.pa / 128 = line)) →
      exec (.pageWalkEnd die asid g) s = .next (goes (addReq ((js.head?.map (·.1)).getD 0) c (128 * line) .sent .code) s)) ∧
    (missingTable s.m reads = none →
    (∀ a, reads.find? (fun a => poisoned m a 8) = some a →
      exec (.pageWalkEnd die asid g) s = .next { s with m := endContext c 0x81 ((js.head?.map (·.1)).getD 0) a m }) ∧
    ((∀ a ∈ reads, poisoned m a 8 = false) →
    (∀ e n, walk s.m.dev s.m.mem (s.m.ctx c) va = .leaf e n → exec (.pageWalkEnd die asid g) s = .next (goes (fun _ => js.foldl (fun m j => lookDone j.1 m) (js.foldl (fun m j => meet j.1 die j.2 e m) (l2TlbPut die e m))) s)) ∧
    (∀ kind lvl, walk s.m.dev s.m.mem (s.m.ctx c) va = .fail kind lvl → exec (.pageWalkEnd die asid g) s = .next (goes (fun _ => js.foldl (fun m j => lookDone j.1 m) (js.foldl (fun m j => endLook j.1 g j.2.acc .failed m) (newFault c die asid g w.acc kind lvl m))) s)))))

/-- Soft errors (R344): a read of a poisoned word ends the reading context; an error that a check finds is counted, and one that it cannot correct ends the context
of registers or accumulators, and elsewhere poisons the word and is told to the host. -/
def Sys2Proof.Claim.SoftErrors : Prop :=
  ∀ (k a : Nat) (s : State),
    let w := a / 8 * 8
    (poisoned s.m a 1 = true → (s.m.slot k).run ≠ .free → exec (.poisonRead k a) s = .next (goes (endContext (s.m.slot k).ctx 0x81 k a) s)) ∧
    ((s.m.slot a).run ≠ .free → exec (.softErrorDetected .registers a false) s = .next (goes (endContext (s.m.slot a).ctx 0x82 a 0) s)) ∧
    ((∃ l ∈ (s.m.core (a / 2 ^ 52)).l1, l.line = a % 2 ^ 52 / 128) → exec (.softErrorDetected .l1 a true) s =
      .next (goes (fun m => (l1InvLines (a / 2 ^ 52) [a % 2 ^ 52 / 128] m).bumpMon (dieOf (a / 2 ^ 52)) 0 0) s)) ∧
    (present s.m a = true → (s.m.slice (homeOf a)).dirty.contains (a / 128) = false → exec (.softErrorDetected .l2Clean a true) s =
      .next (goes (fun m => m.bumpMon (homeDie a) (fold a) 1) s)) ∧
    (present s.m a = true → (s.m.slice (homeOf a)).dirty.contains (a / 128) = true →
      exec (.softErrorDetected .l2Dirty a true) s = .next (goes (fun m => m.bumpMon (homeDie a) (fold a) 1) s) ∧
      exec (.softErrorDetected .l2Dirty a false) s = .next (goes (fun _ => notify 0x0A 0 0 0 0 0 w
        { s.m.bumpMon (homeDie a) 0 4 with poison := w :: s.m.poison.filter (· != w) }) s)) ∧
    (paKind s.m.dev a = .hbm →
      exec (.softErrorDetected .hbm a true) s = .next (goes (fun m => m.bumpMon (homeDie a) (bits a 13 1) 2) s) ∧
      exec (.softErrorDetected .hbm a false) s = .next (goes (fun _ => notify 0x0A 0 0 0 0 0 w
        { s.m.bumpMon (homeDie a) 0 4 with poison := w :: s.m.poison.filter (· != w) }) s)) ∧
    (a < 2 ^ 32 →
      exec (.softErrorDetected .scratchpad a true) s = .next (goes (fun m => m.bumpMon (a / 2 ^ 28) 0 3) s) ∧
      exec (.softErrorDetected .scratchpad a false) s = .next (goes (fun _ => notify 0x0A 0 0 (a / 2 ^ 18) 0 0 (w % 2 ^ 21)
        { s.m.bumpMon (a / 2 ^ 28) 0 4 with spoison := w :: s.m.spoison.filter (· != w) }) s)) ∧
    ((s.m.pairs.find a).isSome = true → exec (.softErrorDetected .accumulator a false) s =
      .next (goes (endContext (a / 8192) 0x81 (keyOf (2 * (a % 8192) + 1) 0) 0) s))

/-- Look-ups, walks and soft errors (R327, R332 to R334, R344).
When each happens is the agenda's (log entries 1, 11). -/
def Obligations.TranslationAndErrorEvents : Prop := Claim.TranslationEvents ∧ Claim.SoftErrors

/-- Gathers, scatters and pools (R109 to R112): once the lines of the rows have had their turn at their slices, GP_COMMAND_COMPLETE performs them and the command ends;
GP_ROW_FAULT performs the rows before a translation fault, which stops the command there. -/
def Sys2Proof.Claim.GatherEnds : Prop :=
  ∀ (id : Nat) (c : Cmd) (s : State) (l : List Nat) (r : GpRows) (m m1 : Mach),
    s.m.cmds.find? (fun c => c.id == id) = some c → isGp c.op = true → cmdMay s.m c = true → gpList c s.m = .ok (l, m) →
    gpRows c l (gpAcc c) (gpEntries c l - c.prog) c.prog m = .ok (r, m1) →
    let lines := r.rows.flatten.map (· / 128)
    engLines c (if c.op = 0xCE then [] else lines) (if c.op = 0xCE then lines else []) m1 = .ok ((), m1) →
    (r.fault = none → gpIdle c = true → exec (.gpCommandComplete id) s = .next { s with m := endCmd c 0 m1 }) ∧
    (∀ args m2, gpDo c l c.prog r.rows m1 = .ok (args, m2) →
      (r.fault = none → gpIdle c = false → exec (.gpCommandComplete id) s = .next { s with m := endCmd c 0 m2 }) ∧
      (∀ f, r.fault = some f →
        let c1 := (m2.cmds.find? (fun c => c.id == id)).getD c
        exec (.gpRowFault id) s = .next { s with m := engStop { c1 with prog := f.1, args := args, served := [] } f.2 (gpAcc c1) m2 }))

/-- The matvec (R217 to R219): SMV_COMPLETE writes the rows and ends the command, with status 3 where a weight lies in another stack than the first one; a translation
fault stops it at its row. -/
def Sys2Proof.Claim.MatvecEnds : Prop :=
  ∀ (id : Nat) (c0 : Cmd) (s : State) (first : Option Nat) (g : SmvGo) (m m1 m2 : Mach),
    s.m.cmds.find? (fun c => c.id == id) = some c0 → c0.op = 0xD0 → cmdMay s.m c0 = true → smvFirst c0 s.m = .ok (first, m) →
    smvRowsFrom c0 first (smvRows c0 - c0.prog) c0.prog m = .ok (g, m1) →
    let c := { c0 with args := c0.args.set 11 ((first.map (· + 1)).getD 0) }
    engLines c g.lines [] m1 = .ok ((), m1) → smvDo c c.prog g.hi m1 = .ok ((), m2) →
    (g.stop = .none → exec (.smvComplete id) s = .next { s with m := endCmd c 0 m2 }) ∧
    (g.stop = .span → exec (.smvComplete id) s = .next { s with m := endCmd c 3 m2 }) ∧
    (∀ f, g.stop = .fault f → exec (.gpRowFault id) s = .next { s with m := engStop { c with prog := g.hi, served := [] } f .read m2 })

/-- Copies (R211 to R213): COPY_COMPLETE moves the bytes from where the record stands on and writes it back, ends a record that has become bad with status 4 (the
model's choice, log entry 41), pushes a COPYK's keys, and with a stop requested runs on to the destination's next 128-byte boundary; a translation fault stops the
copy after the bytes before it. -/
def Sys2Proof.Claim.CopyEnds : Prop :=
  ∀ (id : Nat) (c0 : Cmd) (s : State) (q : List Nat) (m : Mach), s.m.cmds.find? (fun c => c.id == id) = some c0 → isCopy c0.op = true →
    copyRead c0 s.m = .ok (q, m) →
    let r := copyRec c0.op q
    let c := c0.where_ r
    let row := c.args.getD 1 0
    let byte := c.args.getD 2 0
    let good := copyBad c.op q = false ∧ copyFails m c.slot c.op r = none
    (∀ m1, copyRuns m c r = true → copyOn c r m = .ok ((), m1) → exec (.copyComplete id) s = .next { s with m := m1 }) ∧
    (cmdMay m c = true →
      (¬good → exec (.copyComplete id) s = .next { s with m := endCmd c 4 (copyWriteBack c row byte (some 4) m) }) ∧
      (∀ m1, good → c.op = 0xCC → copyPush c r m = .ok ((), m1) → exec (.copyComplete id) s = .next { s with m := m1 }) ∧
      (∀ g m1 m2, good → c.op ≠ 0xCC → copyRows c r (r.rows - row) row byte m = .ok (g, m1) → copyLines c r g.bytes m1 = .ok ((), m1) →
        copyBytes c r g.bytes m1 = .ok ((), m2) →
        (g.fault = none → exec (.copyComplete id) s = .next { s with m := endCmd c 0 (copyWriteBack c r.rows 0 (some 0) m2) }) ∧
        (∀ f, g.fault = some f →
          let stopped := { c with args := copyArgs (c.args.getD 0 0) r g.row g.byte, prog := copyProg c r g.row g.byte, served := [] }
          exec (.gpRowFault id) s = .next { s with m := engStop stopped f.2 f.1 m2 })))

/-- Set operations (R187, R209, R210): the pair's oldest command on tl.cj, unless a synchronous command came before it, writes its entries and their count, and ends. -/
def Sys2Proof.Claim.SetOpEnds : Prop :=
  ∀ (id : Nat) (c : Cmd) (s : State) (lx ly : List Nat) (m m1 : Mach),
    s.m.cmds.find? (fun c => c.id == id && isSetOp c.op) = some c → cmdMay s.m c = true →
    s.m.cmds.find? (fun x => x.tl == 3 && coreOf x.slot == coreOf c.slot && x.ctx == c.ctx) = some c →
    (let p := s.m.pair c.ctx (pairOf (coreOf c.slot)); p.busy = none ∨ c.id < p.from_) →
    let arg := fun i => c.args.getD i 0
    let es := if c.op = 0xDB then 16 else 8
    engSpRead c.slot (arg 1) (es * arg 3) s.m = .ok (lx, m) → engSpRead c.slot (arg 2) (es * arg 4) m = .ok (ly, m1) →
    let entries := fun (l : List Nat) (n : Nat) => (List.range n).map (fun i =>
      (cfField (bits (arg 6) 0 2) (ofLE ((l.drop (es * i)).take es)), ofLE ((l.drop (es * i)).take es)))
    let r := setResult c.op (bits (arg 6) 2 2) (entries lx (arg 3)) (entries ly (arg 4))
    let m2 := if c.op = 0xDA then m1 else engSpWrite c.slot (arg 0) ((r.1.map (toLE es)).flatten) m1
    let m3 := engSpWrite c.slot (arg 5) (toLE 8 (r.1.length + ofBool r.2 * 2 ^ 63)) m2
    exec (.setOpComplete id) s = .next { s with m := endCmd c (if r.2 then 2 else 0) m3 }

/-- Commands of engines complete or stop (R109 to R112, R209 to R213, R217 to R219), a command whose context runs and whose accesses are served. -/
def Sys2Proof.Claim.EngineCommandsEnd : Prop := Claim.GatherEnds ∧ Claim.MatvecEnds ∧ Claim.CopyEnds ∧ Claim.SetOpEnds

/-- Remote commands and collectives complete (R310 to R316), whatever stop is requested, once their lines have had their turn: REMOTE_COMMAND_COMPLETE performs a put, a get or an
atomic at the points of coherence; COLL_RESULT writes the elements that R314 gives, or status 5 when late; COLL_PARTIAL_RESULT passes on; the timeouts end the command with status
5; a CONTRACT asked to stop does so at a pair. -/
def Sys2Proof.Claim.RemoteCommandsEnd : Prop :=
  (∀ (id : Nat) (c : Cmd) (s : State), s.m.cmds.find? (fun c => c.id == id && c.tl == 4 && c.op != 0xD2) = some c → (s.m.ctx c.ctx).st = .running →
    remoteEarlier s.m c = false →
    let pa := c.args.getD 0 0
    let n := c.args.getD 2 0
    let pas := (List.range n).map (pa + ·)
    let lines := pas.map (· / 128)
    let reads := c.op = 0xD4 ∧ paKind s.m.dev pa ≠ .peer
    engLines c (if reads then lines else []) (if reads then [] else lines) s.m = .ok ((), s.m) →
    (∀ l m, c.op = 0xD3 → engSpRead c.slot (c.args.getD 1 0) n s.m = .ok (l, m) →
      exec (.remoteCommandComplete id) s = .next { s with m := endCmd c 0 (engStore (pas.zip l) m) }) ∧
    (let m := homeFind pas s.m
     let old := m.mem.rdN pa n
     let ty := remoteTy (c.args.getD 5 0)
     let new := atomicNew (remoteOpOf (bits (c.args.getD 5 0) 0 4) (c.args.getD 4 0)) ty (ofLE old) (c.args.getD 3 0 % 2 ^ (8 * n))
     let m1 := engStore (cellsAt pa (toLE n new)) m
     let m2 := if paKind m1.dev pa == .peer then dropCopy (pa / 128) m1 else m1
     (∀ a ∈ pas, poisonAt m a = false) →
     (c.op = 0xD4 → exec (.remoteCommandComplete id) s = .next { s with m := endCmd c 0 (engSpWrite c.slot (c.args.getD 1 0) old m) }) ∧
     (c.op = 0xD5 → exec (.remoteCommandComplete id) s =
       .next { s with m := endCmd c 0 (engSpWrite c.slot (c.args.getD 1 0) (toLE 8 (Ty.wrap ty (ofLE old))) m2) }) ∧
     (c.op = 0xD6 → exec (.remoteCommandComplete id) s = .next { s with m := endCmd c 0 m2 }))) ∧
  (∀ (id : Nat) (c : Cmd) (s : State), s.m.cmds.find? (fun c => c.id == id && c.op == 0xD2) = some c → (s.m.ctx c.ctx).st = .running →
    let r := c.coll
    (∀ others, exec (.collResult id others true) s = .next (goes (collEnd c 5) s)) ∧
    (∀ others own m, others.length + 1 = r.nrank → (r.ring = true → r.rank = 0 ∨ c.prog = 1) →
      engLines c ((collSrc c).map (· / 128)) ((collDst c).map (· / 128)) s.m = .ok ((), s.m) → collInput c s.m = .ok (own, m) →
      let out := collOutput r (others.take r.rank ++ [own] ++ others.drop r.rank)
      exec (.collResult id others false) s = .next { s with m := collEnd c 0 (engStore ((collDst c).zip ((out.map (toLE (collSize r.fmt))).flatten)) m) }) ∧
    (∀ others own m, r.ring = true → r.rank ≠ 0 → c.prog = 0 → others.length = r.rank →
      engLines c ((collSrc c).map (· / 128)) [] s.m = .ok ((), s.m) → collInput c s.m = .ok (own, m) →
      let sent := if r.op ≤ 1 then (List.range r.cnt).map (collAcc r.red r.fmt (others ++ [own])) else (others ++ [own]).flatten
      exec (.collPartialResult id others) s = .next { s with m := setCmd { c with prog := 1, args := c.args ++ sent } m }) ∧
    (r.ring = false → c.issued + 200000 ≤ s.m.sid → exec (.collSwitchTimeout id) s = .next (goes (collEnd c 5) s)) ∧
    (r.ring = true → r.rank ≠ 0 → c.prog = 0 → c.issued + 10000000 ≤ s.m.sid → exec (.collRingTimeout id) s = .next (goes (collEnd c 5) s))) ∧
  (∀ (k : Nat) (s : State),
    let y := s.m.slot k
    let x := s.m.ctx y.ctx
    y.run = .running →
    ((x.pre.isSome = true ∧ x.preAt + 8000 ≤ s.m.sid) ∨
      ∃ g G, y.task.bind (·.e.gang) = some g ∧ s.m.gangs.find g = some G ∧ G.wd = true ∧ G.timer + 8000 ≤ s.m.sid) →
    (s.m.pair y.ctx (pairOf (coreOf k))).busy = some k → (s.m.pair y.ctx (pairOf (coreOf k))).group.isSome = true → y.wait ≠ some .stopped →
    ((∃ g, (s.m.pair y.ctx (pairOf (coreOf k))).group = some g ∧ g.opening = false) ∨ y.parked = true ∨ ∃ a b c d e f, y.wait = some (.keyHead a b c d e f)) →
    exec (.contractPreemptTimeout k) s = .next (goes (fun m => m.updSlot k (fun y => { y with wait := some .stopped })) s))

/-- Commands complete or stop (R111, R112, R198, R210, R212, R219, R310 to R316).
A command's work at one event (log entry 35), the entries of a set operation that ends early (37), the matvec's status 3 and a copy's progress
(36) and the end of a record become bad (41) are the model's choices and readings. -/
def Obligations.CommandsEnd : Prop := Claim.EngineCommandsEnd ∧ Claim.RemoteCommandsEnd

/-- Tasks (R254 to R258, R266 to R268): TASK_START starts the assigned task or the slot's own bottom one; a round of stealing asks the domain's slots in turn, the victim's top entry becomes the
thief's next task, and an empty round backs off; JOIN_DECREMENT subtracts at the counter's bank; a wait whose condition holds is released, and aging raises a slot. -/
def Sys2Proof.Claim.TaskEvents : Prop :=
  (∀ (k : Nat) (s : State),
    let y := s.m.slot k
    (∀ e m, y.run = .running → y.enabled = true → y.task = none → y.next = some e → beginTask k e y.nextStolen s.m = some m → exec (.taskStart k) s = .next { s with m := m }) ∧
    (∀ e m1, y.run = .running → y.enabled = true → y.task = none → y.next = none → y.idle = true → popBottom k (refillDeque k) s.m = some (e, m1) →
      ((m1.ctx y.ctx).st = .ended → exec (.taskStart k) s = .next { s with m := m1 }) ∧
      ((m1.ctx y.ctx).st ≠ .ended →
      let m2 := m1.updSlot k (fun z => { z with next := some e, nextStolen := false, backoff := none, victims := [] })
      exec (.taskStart k) s = .next { s with m := (beginTask k e false m2).getD m2 })) ∧
    (let v := victimsOf s.m k
     let i := gen (coreOf k) y.round % 2 ^ 32 % v.length
     mayStealNow s.m k = true → y.victims = [] → y.backoff = none → v ≠ [] → exec (.stealRound k) s = .next (goes (fun m =>
       m.updSlot k (fun z => { z with victims := v.drop i ++ v.take i, round := z.round + 1 })) s)) ∧
    (∀ t, y.backoff = some t → t ≤ s.m.sid → exec (.stealBackoffExpire k) s = .next (goes (fun m => m.updSlot k (fun z => { z with backoff := none })) s)) ∧
    (∀ v l, mayStealNow s.m k = true → y.victims = v :: l →
      (∀ e m, (s.m.slot v).run ≠ .saved → takeTop v s.m = some (e, m) → exec (.stealRequest k) s = .next (goes (fun _ => unlessEnded y.ctx (fun m =>
        gangBeat e.gang (m.updSlot k (fun z =>
          { z with next := some e, nextStolen := true, victims := [], stealOk := (z.stealOk + 1) % 2 ^ 32 }))) m) s)) ∧
      ((s.m.slot v).run = .saved ∨ takeTop v s.m = none → exec (.stealRequest k) s = .next (goes (fun m => m.updSlot k (fun z =>
        { z with victims := l, stealEmpty := (z.stealEmpty + 1) % 2 ^ 32, backoff := if l.isEmpty then some (m.sid + 1000) else none })) s))) ∧
    (4096 * (y.boost + 1) ≤ y.age → exec (.agingRaise k) s = .next (goes (fun m => m.updSlot k (fun z => { z with boost := z.boost + 1 })) s)) ∧
    (∀ w, y.wait = some w → w ≠ .released → y.run = .running → waitHolds s.m k w = true → exec (.waitRelease k) s = .next (goes (fun m =>
      m.updSlot k (fun z => { z with wait := match w with
        | .timeline _ _ _ => some .released
        | .barrier _ _ _ _ => some .released
        | .flush _ _ _ => some (.flush [] [] [])
        | .units g shp t r => some (.units g shp t r)
        | _ => none })) s))) ∧
  (∀ (n : Nat) (s : State) (d : Dec), s.m.decs[n]? = some d →
    let a := spPlace (8 * d.octet) d.off
    exec (.joinDecrement n) s = .next (goes (fun _ => { storeSp (cellsAt a (toLE 8 ((s.m.spad.num a 8 + 2 ^ 64 - 1) % 2 ^ 64))) s.m with decs := s.m.decs.eraseIdx n }) s)) ∧
  (∀ (k : Nat) (s : State) (mask lag sc : Nat) (js : List Nat), (s.m.slot k).wait = some (.lead mask lag sc) → (s.m.slot k).run = .running →
    (s.m.slot k).enabled = true → joiners s.m k mask none = some js → exec (.cometForm k) s = .next (goes (fun m =>
      follow k (nextPc (s.m.slot k).pc) js (m.updSlot k (fun y => { y.passComet sc (nextPc (s.m.slot k).pc) with comet := some (.leader js lag false) }))) s)) ∧
  (∀ (o : Nat) (s : State) (c : Machine.Claim), headClaim s.m o = some c → c.least ≤ freeLanes s.m o →
    let p := granule16 (min c.want (freeLanes s.m o))
    exec (.laneGrant o) s = .next (goes (fun m => (setClaims o (fun l => l.filter (fun x => x.slot != c.slot)) m).updSlot c.slot (fun y =>
      if c.keep then { y with grantP := p, wait := none } else { y with grantP := p, grantN := p, grantReq := c.want, wait := some .released })) s))

/-- Queues and gangs (R259 to R264, R273, R346): a packet of a running context's queue is parsed in order; GANG_PLACE places a gang all or nothing; a gang without tasks completes; a FENCE strikes
off the conditions that hold, and poison in a walk to a counter ends the context (R344); a launch or SPAWN that has waited 100 µs reserves, in its turn; a head launch stops a context of a lower class; the watchdog stops a gang's slots, and
the host is told when each has drained; a stop completes when every slot has drained. -/
def Sys2Proof.Claim.QueueEvents : Prop :=
  (∀ (c q : Nat) (s : State),
    let x := s.m.ctx c
    let y := x.queues.get Queue.init q
    (x.st = .running → y.err = false → q < 20 → (s.m.dev.red = true → q = 16) →
      (∀ i, y.open_.find? (fun a => holdsQueue a.2) = some (i, .waitBar) → (∀ a ∈ y.open_, a.1 = i) →
        exec (.packetParse c q) s = .next (goes (startPacket c q i) s)) ∧
      (y.open_.find? (fun a => holdsQueue a.2) = none → y.parsed < y.tail →
        let m := deviceSees (packetAt x q y.parsed) 256 (s.m.updCtx c (fun x =>
          { x with queues := x.queues.put q { y with active := y.open_, parsed := y.parsed + 1 } }))
        (bitAt (s.m.mem.num (packetAt x q y.parsed) 8) 8 = true → y.open_ ≠ [] →
          exec (.packetParse c q) s = .next { s with m := setActive c q y.parsed .waitBar m }) ∧
        (bitAt (s.m.mem.num (packetAt x q y.parsed) 8) 8 = false ∨ y.open_ = [] →
          exec (.packetParse c q) s = .next { s with m := startPacket c q y.parsed m }))) ∧
    (∀ a t r units, x.st = .running → x.pre = none → y.active.find? (fun a => match a.2 with
        | .placing _ _ => true
        | _ => false) = some (a, .placing t r) →
      (y.err = true ∨ ∃ w, w.c = c ∧ w.q = q ∧ firstTurn s.m ((waiters s.m).filter (fun w =>
        w.q < 64 && w.fits s.m && (s.m.ctx w.c).pre.isNone && (s.m.ctx w.c).st == .running)) = some w) →
      let p := (List.range 32).map (fun j => s.m.mem.num (packetAt x q a + 8 * j) 8)
      let g := bits (p.getD 1 0) 0 16
      let shp := bits (p.getD 1 0) 16 2
      pickUnits s.m c q shp g (unitsOf s.m c shp) = some units →
      let roots := rootSlots s.m c (some q) shp (p.getD 4 0) units
      let id := s.m.nextId
      let gang : Gang := ⟨c, q, a, roots.length, p.getD 2 0, p.getD 3 0 % 2 ^ 32, false, s.m.sid, units, shp, false, false, false⟩
      let m : Mach := { s.m with nextId := id + 1, gangs := s.m.gangs.put id gang, dev := { s.m.dev with turn := turnOf c q } }
      exec (.gangPlace c q) s = .next (goes (fun _ => setActive c q a (.running id) (placeRoots ((p.drop 8).take 8) (some id) shp g
        (fun grp cix => 64 * grp + cix) roots (joinAdd ((p.drop 8).take 8) roots.length m))) s)) ∧
    (∀ w, (waiters s.m).find? (fun w => w.c == c && w.q == q) = some w →
      let late := fun (w : Waiter) => !w.res && decide (w.since + 100000 ≤ s.m.sid) && (s.m.ctx w.c).st == .running
      late w = true → (∀ r ∈ reservers s.m, r.shp ≠ w.shp) → firstTurn s.m ((waiters s.m).filter (fun v => late v && v.shp == w.shp)) = some w →
      (64 ≤ q → exec (.launchReserveTimeout c q) s = .next (goes (fun m =>
        m.updSlot (q - 64) (fun z => { z with wait := some (.units w.g w.shp w.since true) })) s)) ∧
      (∀ a, q < 64 → y.active.find? (fun a => match a.2 with
          | .placing _ _ => true
          | _ => false) = some a →
        exec (.launchReserveTimeout c q) s = .next (goes (setActive c q a.1 (.placing w.since true)) s))) ∧
    (∀ a l, y.err = false → y.active.find? (fun a => match a.2 with
        | .fencing _ => true
        | _ => false) = some (a, .fencing l) →
      let at_ := packetAt x q a
      let va := fun k => s.m.mem.num (at_ + 8 + 16 * k) 8
      (∀ r m, fenceWalk x (l.map va) s.m = (some r, m) → exec (.fenceCondition c q) s = .next (goes (fun _ => endContext c 0x81 0 r m) s)) ∧
      (∀ m, fenceWalk x (l.map va) s.m = (none, m) →
        let left := l.filter (fun k => match reach m x (m.mem.num (at_ + 8 + 16 * k) 8) .read with
          | some pa => decide (m.mem.num pa 8 < m.mem.num (at_ + 16 + 16 * k) 8)
          | none => true)
        (∀ k ∈ l, fenceBad m x (m.mem.num (at_ + 8 + 16 * k) 8) = none) → left.length < l.length →
        let seen := (l.filter (fun k => !left.contains k)).filterMap (fun k => reach m x (m.mem.num (at_ + 8 + 16 * k) 8) .read)
        exec (.fenceCondition c q) s = .next (goes (fun _ => setActive c q a (if left.isEmpty then .done else .fencing left)
          (seen.foldl (fun m pa => deviceSees pa 8 m) m)) s))) ∧
    (∀ victim r, q < 64 → (reservers s.m).find? (fun r => r.c == c && r.q == q) = some r → x.st = .running → (s.m.ctx victim).st = .running →
      (s.m.ctx victim).pre = none → (s.m.ctx victim).cls < x.cls →
      (∃ u ∈ unitsOf s.m c r.shp, unitFree s.m c (some q) r.shp u = true ∧ ∃ core ∈ unitCores r.shp u, ∃ e ∈ coreSlots s.m victim core, e.2.task.isSome = true) →
      exec (.preemptByClass c q victim) s = .next (goes (requestStop victim true) s))) ∧
  (∀ (g : Nat) (G : Gang) (s : State), s.m.gangs.find g = some G →
    let c := s.m.ctx G.ctx
    (G.live = 0 → exec (.gangComplete g) s = .next (goes (finishGang g) s)) ∧
    (let still := fun (m : Mach) => (gangSlots m g G).all (fun k => (m.slot k).run != .running || stopDone m G.ctx k)
     let G1 := { G with wd := true, timer := s.m.sid }
     let m := (gangSlots s.m g G).foldl (fun m k => haltSlot k m) { s.m with gangs := s.m.gangs.put g G1 }
     (G.wd = true → G.told = false → still s.m = true → exec (.watchdogExpire g) s = .next (goes (gangStopped g G) s)) ∧
     (G.wdi ≠ 0 → G.wd = false → c.st = .running → c.pre = none → G.timer + 1000 * G.wdi ≤ s.m.sid →
       exec (.watchdogExpire g) s = .next { s with m := if still m then gangStopped g G1 m else m }))) ∧
  (∀ (c : Nat) (save : Bool) (s : State), (s.m.ctx c).pre = some save → (∀ k ∈ s.m.slotsOfCtx c, stopDone s.m c k = true) →
    (∀ d ∈ s.m.decs, ((s.m.ctx c).cores.map octetOf).contains d.octet = false) →
    let st := if save then CtxSt.saved else CtxSt.stopped
    exec (.stopComplete c) s = .next (goes (fun m =>
      let m := if save then saveAll c (stopSlots (s.m.slotsOfCtx c) m) else stopSlots (s.m.slotsOfCtx c) m
      notify 0x04 0 (s.m.ctx c).asid 0 0 0 0 (m.updCtx c (fun x => { x with st := st, pre := none }))) s))

/-- What task, queue, gang and pre-emption hardware does (R82, R221, R254 to R273, R346).
When each happens is the agenda's (log entries 1, 11). Placing a LAUNCH of a failed queue and the check of a BAR packet when it starts (log entry
58), SPAWN's reservations and their turn (53) and poison that the dispatcher reads (67) are the model's choices. -/
def Obligations.TaskAndQueueEvents : Prop := Claim.TaskEvents ∧ Claim.QueueEvents

/-- Constellations, tiles and law units (R147, R157, R158, R247, R270): a launched task or copy node whose work has ended, a signal and a counter node that is reached finish; a notice reaches
its cluster unit, a held fire is tried again; the earliest due ephemeris entry of a word fires (R116); a record reaches its slot in order, and one of a ring moves into the hardware queue. -/
def Sys2Proof.Claim.UnitEvents : Prop :=
  (∀ (cl i : Nat) (n : Node) (x : Constel) (s : State), (s.m.cluster cl).nodes.find i = some n → (s.m.cluster cl).cons.find n.con = some x → n.live = true →
    n.finished = false → n.stuck = false → n.npred = 0 → (s.m.ctx x.ctx).st = .running →
    (n.launched = false → (let m := launchNode cl i s.m
        ((m.cluster cl).nodes.find i).any (·.launched) = true ∨ (m.ctx x.ctx).st = .ended) → exec (.nodeFinish cl i) s = .next (goes (launchNode cl i) s)) ∧
    (n.launched = true → n.kind ≤ 1 → n.ended = true → exec (.nodeFinish cl i) s = .next (goes (finishNode cl i n) s)) ∧
    (let m := nodeFind (s.m.ctx x.ctx) x.slot n s.m
     n.launched = true → 1 < n.kind →
      (∀ a, nodePoison m (s.m.ctx x.ctx) x.slot n = some a → exec (.nodeFinish cl i) s = .next (goes (fun _ => endContext x.ctx 0x81 x.slot a m) s)) ∧
      (nodePoison m (s.m.ctx x.ctx) x.slot n = none →
        (counterAt m (s.m.ctx x.ctx) n = none → exec (.nodeFinish cl i) s = .next (goes (fun _ => stickNode cl i n m) s)) ∧
        (∀ pa, counterAt m (s.m.ctx x.ctx) n = some pa →
          (n.kind = 2 → exec (.nodeFinish cl i) s = .next (goes (fun _ =>
            finishNode cl i n (engStore (cellsAt pa (toLE 8 ((m.mem.num pa 8 + n.val) % 2 ^ 64))) m)) s)) ∧
          (n.kind ≠ 2 → n.val ≤ m.mem.num pa 8 → exec (.nodeFinish cl i) s = .next (goes (fun _ => finishNode cl i n m) s)))))) ∧
  (∀ (n : Nat) (x : Notice) (s : State), s.m.notices[n]? = some x →
    (∀ y ∈ s.m.notices.take n, ¬ (y.cluster = x.cluster ∧ homeOf y.block = homeOf x.block)) →
    let m0 := { s.m with notices := s.m.notices.eraseIdx n }
    let u := m0.cluster x.cluster
    (u.subs.find x.idx = none → exec (.tileNotice n) s = .next { s with m := m0 }) ∧
    (∀ e, u.subs.find x.idx = some e → e.block ≠ x.block ∨ e.freed = true → exec (.tileNotice n) s = .next { s with m := m0 }) ∧
    (∀ e, u.subs.find x.idx = some e → e.block = x.block → e.freed = false →
      let put : Sub → Mach := fun e1 =>
        let m := m0.setCluster x.cluster { u with subs := u.subs.put x.idx e1 }
        if hVer e.latest < hVer x.h then latchSlot e.ctx e.slot 16 m else m
      let e1 := { e with latest := x.h }
      (e.task = .none → exec (.tileNotice n) s = .next (goes (fun _ => if !hStop x.h && decide (e.fired < hVer x.h) then fireSub x.cluster x.idx x.h (put e1) else put e1) s)) ∧
      (∀ h held, e.task = .pending h held → exec (.tileNotice n) s = .next { s with m := put { e1 with task := .pending x.h held } }) ∧
      (∀ h, e.task = .running h → exec (.tileNotice n) s = .next { s with m := put e1 }))) ∧
  (∀ (cl i h : Nat) (e : Sub) (m : Mach) (s : State), (s.m.cluster cl).subs.find i = some e → e.task = .pending h true → firePush cl i h s.m = some m →
    (e.freed = true → exec (.fireRetry cl i) s = .next { s with m := unlessEnded e.ctx (fun m => dropSub cl i (unlink cl i (some h) m)) m }) ∧
    (e.freed = false → exec (.fireRetry cl i) s = .next (goes (fun _ => unlessEnded e.ctx (fun m =>
      m.setCluster cl { m.cluster cl with subs := (m.cluster cl).subs.put i { e with task := .pending h false } }) m) s))) ∧
  (∀ (u place : Nat) (e : EphEntry) (s : State),
    earliest ((if u % 2 = 1 then (s.m.octet (u / 2)).eph else (s.m.slice (u / 2)).eph).filter
      (fun e => e.place == place && decide (e.time ≤ domainTime s.m (s.m.ctx e.ctx) e.domain))) = some e →
    exec (.ephemerisFire u place) s = .next (goes (fire ⟨u % 2 == 1, place, e.w128⟩ e) s)) ∧
  (∀ (n : Nat) (r : Record) (s : State), s.m.records[n]? = some r →
    (r.unit ≠ none → ∀ y ∈ s.m.records.take n, ¬ (y.slot = r.slot ∧ y.ctx = r.ctx ∧ y.unit = r.unit)) → ringWalked r s.m = false →
    exec (.eventRecordDeliver n) s = .next (goes (fun m =>
      let m := deliver r { m with records := m.records.eraseIdx n }
      match r.from_ with
      | some k => m.updSlot k (fun y => { y with ocSt := y.ocSt - 1 })
      | none => m) s)) ∧
  (∀ (k pa : Nat) (s : State),
    let y := s.m.slot k
    y.run ≠ .free → (s.m.ctx y.ctx).st = .running → y.rq ≠ 0 → y.evq.length < evRoom s.m y.ctx →
    walking s.m (coreOf k) (s.m.ctx y.ctx).asid (evAt y y.rqHead) = false →
    (quietXlate k (evAt y y.rqHead) .read s.m).1 = some pa → paKind s.m.dev pa ≠ .hole →
    let m := findL2 pa 64 (bringLine (pa / 128) (quietXlate k (evAt y y.rqHead) .read s.m).2)
    exec (.evqRingRefill k) s = .next (goes (fun _ => poisonEnd k pa 64 (m.updSlot k (fun z =>
      { z with evq := z.evq ++ [quadsOf (sliceBytes m false pa 64) 8], rq := z.rq - 1, rqHead := (z.rqHead + 1) % 2 ^ evLgn z }))) s))

/-- Event ports (R114, R163 to R166, R360): a frame with a good FCS is matched and acted on, or goes to the ring; an ingest operation, once its home slice has accepted it and comes to it, is
performed on its law word, or its frame goes to the ring; the servo disciplines the clock's rate. -/
def Sys2Proof.Claim.PortEvents : Prop :=
  (∀ (port : Nat) (frame : List Nat) (s : State), port < 2 → 6 ≤ s.m.dev.step →
    exec (.eventPortFrame port frame false) s = .next s ∧
    (datagramOf frame = none → exec (.eventPortFrame port frame true) s = .next (goes (toRing port s.m.sid 0 0 frame) s)) ∧
    (∀ d, datagramOf frame = some d →
      (d.dport = 319 ∨ d.dport = 320 → exec (.eventPortFrame port frame true) s = .next s) ∧
      (d.dport ≠ 319 → d.dport ≠ 320 → (∀ r ∈ (s.m.iodie port).rules, ruleMatches r.2 d = false) →
        exec (.eventPortFrame port frame true) s = .next (goes (toRing port s.m.sid 0 0 frame) s)) ∧
      (∀ r, d.dport ≠ 319 → d.dport ≠ 320 → (s.m.iodie port).rules.find? (fun r => ruleMatches r.2 d) = some r →
        exec (.eventPortFrame port frame true) s = .next (goes (ruleAct port r.1 r.2 d frame) s)))) ∧
  (∀ (n : Nat) (x : Ingest) (r : Req) (s : State), s.m.ingests[n]? = some x → s.m.reqs.find? (fun r => r.id == x.req && r.st == .queued) = some r →
    atHead s.m r = true →
    let m := useLine (x.pa / 128) 0 (bringLine (x.pa / 128) s.m)
    let m0 := dropReq r.id { m with ingests := m.ingests.eraseIdx n }
    let w := m.mem.num x.pa 8
    (lawDesc (m.ctx x.ctx) false w = none → exec (.ingestOperation n) s = .next { s with m := pumpSlice (homeOf x.pa) (toRing x.port x.tin 3 x.rule x.frame m0) }) ∧
    (∀ d, lawDesc (m.ctx x.ctx) false w = some d →
      let present := (ingestTick m (m.ctx x.ctx) x.tin d w).1
      exec (.ingestOperation n) s = .next (goes (fun _ => pumpSlice (homeOf x.pa) (lawDo ⟨x.ctx, x.target, x.op, ⟨false, x.pa, false⟩, x.va, x.v, 0, 2, none⟩
        (fun dom => ((m.ctx x.ctx).stepped.find dom).getD present) (ingestTick m (m.ctx x.ctx) x.tin) m0).2) s))) ∧
  (∀ (port offset ppm : Nat) (v6 lead faster : Bool) (s : State), port < 2 → ppm ≤ 200 → 6 ≤ s.m.dev.step →
    let d := s.m.iodie port
    (d.source v6 = 0 → exec (.ptpMessage port v6 lead offset ppm faster) s = .next s) ∧
    (d.source v6 ≠ 0 →
      let m := s.m.setIodie port { d with locked := true, v6 := v6 }
      let m1 := { m with dev := { m.dev with rate := if faster then (ppm : Int) else -(ppm : Int), ptpAlert := decide (1000000 < offset) } }
      exec (.ptpMessage port v6 lead offset ppm faster) s = .next (goes (fun _ => if decide (1000000 < offset) && !s.m.dev.ptpAlert then notify 0x07 0 0 0 0 0 0 m1 else m1) s)) ∧
    (d.locked = true → d.v6 = v6 → d.source v6 ≠ 0 →
      exec (.ptpDelayReq port v6) s = .next (goes (fun m => m.setIodie port { d with delayReqs := d.delayReqs + 1, frame := delayReq port d v6 }) s)))

/-- What cluster, law and event units and the event ports do (R114, R147, R157, R158, R163 to R166, R247, R270, R360).
Whether the receive ring is full is a free value once it has been written round (log entry 43). That the host is told of a PTP offset once per
excursion (44), where a held fire goes (53) and ADDR of a firing's record (61) are the model's readings and choices. -/
def Obligations.UnitAndPortEvents : Prop := Claim.UnitEvents ∧ Claim.PortEvents

/-! ## The host, power and flash -/

/-- Accesses of the host (R10, R261, R338, R344, R350 to R352, R356, R365), with the links up: BAR2 reads and writes HBM in service, once its home slices hold no earlier request, and is
answered by Unsupported Request outside it, as every BAR4 write is; poison that the host reads is told to it (the bytes are free values, log entry 46); a register write sets an argument and
nothing else; NCONS lets waiting notifications go; FBPOPH gives the oldest fault record; a doorbell sets a queue's tail, or is an error, or in reduced service is refused (STATUS 5 is the
model's choice, log entry 46). -/
def Sys2Proof.Claim.HostAccesses : Prop :=
  ∀ (a n v : Nat) (bytes : List Nat) (s : State), linksUp s.m.dev = true →
    (a + n ≤ 2 ^ 42 →
      (bar2Ok s.m.dev a n = false → exec (.hostBar2Read a n) s = .next (goes (hostAnswer [] true) s)) ∧
      (let pas := (List.range n).map (a + ·)
       let m := engFind pas s.m
       bar2Ok s.m.dev a n = true → bar2Waits s.m.dev a n = false → homesFree s.m a n = true →
        ((∀ p ∈ pas, poisonAt m p = false) → exec (.hostBar2Read a n) s = .next { s with m := hostAnswer (pas.map m.mem.rd) false m }) ∧
        (∀ p, pas.find? (poisonAt m) = some p →
          let out := pas.zipIdx.map (fun b => if poisonAt m b.1 then (freeBytes m.fresh n).getD b.2 0 else m.mem.rd b.1)
          exec (.hostBar2Read a n) s = .next (goes (fun _ => notify 0x0A 0 0 0 0 0 (p / 8 * 8) (hostAnswer out false { m with fresh := m.fresh + n })) s)))) ∧
    (a + bytes.length ≤ 2 ^ 42 →
      (bar2Ok s.m.dev a bytes.length = false → exec (.hostBar2Write a bytes) s = .next (goes (hostAnswer [] true) s)) ∧
      (bar2Ok s.m.dev a bytes.length = true → bar2Waits s.m.dev a bytes.length = false → homesFree s.m a bytes.length = true →
        exec (.hostBar2Write a bytes) s = .next (goes (fun m => hostAnswer [] false (hostStore (cellsAt a bytes) m)) s))) ∧
    (a < 2 ^ 32 → exec (.bar4Write a bytes) s = .next (goes (hostAnswer [] true) s)) ∧
    (∀ i < 4, exec (.registerWrite (0x20 + 8 * i) v) s = .next (goes (fun m =>
      { m with dev := { m.dev with cmdarg := m.dev.cmdarg.set i (v % 2 ^ 64) } }) s)) ∧
    ((∀ i < 4, a ≠ 0x20 + 8 * i) → exec (.registerWrite a v) s = .next s) ∧
    exec (.nconsWrite v) s = .next (goes (fun m => drainNotices 257 { m with dev := { m.dev with ncons := v % 2 ^ 64 } }) s) ∧
    (a < 64 →
      exec (.fbpophRead a 16) s = .next (goes (fun m =>
        { (popFault a m).2 with hostOut := toLE 8 (popFault a m).1.1 ++ toLE 8 (popFault a m).1.2 }) s) ∧
      (n ≠ 16 → exec (.fbpophRead a n) s = .next (goes (fun m => { m with hostOut := List.replicate n 0 }) s))) ∧
    (∀ q, a < 64 → q < 4 →
      let y := (s.m.ctx a).queues.get Queue.init (16 + q)
      let w := v % 2 ^ 64
      (n ≠ 8 ∨ s.m.ctxs.find a = none → exec (.dbellWrite a q v n) s = .next s) ∧
      ((s.m.ctxs.find a).isSome = true → s.m.dev.red = true → q ≠ 0 →
        exec (.dbellWrite a q v 8) s = .next (goes (fun m => { m with dev := { m.dev with status := 5 } }) s)) ∧
      ((s.m.ctxs.find a).isSome = true → (s.m.dev.red = true → q = 0) →
        (w < y.tail ∨ y.oldest + 256 < w → exec (.dbellWrite a q v 8) s = .next (goes (queueError a (16 + q) 0 0) s)) ∧
        (y.tail ≤ w → w ≤ y.oldest + 256 → exec (.dbellWrite a q v 8) s = .next (goes (fun m =>
          let m := m.updCtx a (fun x => { x with queues := x.queues.put (16 + q) { y with tail := w } })
          { m with dev := { m.dev with dbell := m.dev.dbell.put (4 * a + q) w } }) s))))

/-- What the host reads of BAR0 and BAR4 (R5, R338, R343, R350, R352, R355, R356, R364): the module's registers, CMD as 0; a context's doorbells, error bits, fault buffer
state and CTXST; the mirrors and the capability tables, 0 where neither fills BAR4. A register that the layout does not list reads 0 (the model's choice, log entry 46). -/
def Sys2Proof.Claim.HostReads : Prop :=
  ∀ (m : Mach) (k i : Nat), k < 64 →
    let d := m.dev
    let page := 0x100000 + 0x1000 * k
    (bar0Read m 0x00 = d.step % 16 + (if d.red then 2 ^ 4 else 0) + (if d.part then 2 ^ 5 else 0) + (if d.recov then 2 ^ 6 else 0) + d.dies % 2 ^ 16 * 2 ^ 7
      + d.sdev % 64 * 2 ^ 23 + (if d.span then 2 ^ 29 else 0) + d.cxlp % 16 * 2 ^ 30) ∧
    bar0Read m 0x08 = 0 ∧ bar0Read m 0x10 = (if d.busy then 1 else 0) + d.status % 2 ^ 8 * 2 ^ 8 ∧ bar0Read m 0x18 = d.cmdres ∧
    (i < 4 → bar0Read m (0x20 + 8 * i) = d.cmdarg.getD i 0) ∧ bar0Read m 0x40 = d.nprod ∧ bar0Read m 0x48 = d.ncons ∧ bar0Read m 0x50 = d.nlost ∧
    (i < 4 → bar0Read m (page + 8 * i) = d.dbell.get 0 (4 * k + i)) ∧
    (∀ x, m.ctxs.find k = some x →
      (i < 20 → bitAt (bar0Read m (page + 0x20)) i = (x.queues.get Queue.init (if i < 4 then 16 + i else i - 4)).err) ∧
      bar0Read m (page + 0x50) = fbstatWord x ∧
      bar0Read m (page + 0x58) = (match x.st with
        | .running => 0
        | .stopped => 1
        | .saved => 2
        | .ended => 3) ∧
      (i < 2 ^ 22 → bar4Byte m (2 ^ 22 * k + i) = m.mem.rd (x.mirror + i)) ∧
      (i < 2 ^ 25 → bar4Byte m (2 ^ 31 + 2 ^ 25 * k + i) = if i < 2 * x.capn then m.mem.rd (x.captab + i) else 0)) ∧
    (m.ctxs.find k = none → bar0Read m (page + 0x58) = 4 ∧ (i < 2 ^ 22 → bar4Byte m (2 ^ 22 * k + i) = 0)) ∧
    (2 ^ 28 ≤ i → i < 2 ^ 31 → bar4Byte m i = 0)

/-- The host's commands with what each does to the module and to CMDRES; none is `some st` when it fails with status `st` (R353 to R360, R368). -/
def Sys2Proof.Claim.hostCommands (m : Mach) : List (Instr × Except Nat (Mach × Nat)) :=
  let pa := m.arg 0
  let q := (List.range 16).map (fun i => m.mem.num (pa + 8 * i) 8)
  let x := ctxOf q (coresAt m (q.getD 6 0))
  let free := (List.range 64).find? (fun k => (m.ctxs.find k).isNone)
  let n := m.mem.num pa 8
  let es := (List.range n).map (fun i => (List.range 4).map (fun j => m.mem.num (pa + 8 + 32 * i + 8 * j) 8))
  let badMap := es.any (fun e => e.getD 0 0 % 2 ^ 18 != 0 || e.getD 1 0 % 2 ^ 18 != 0 || decide (2 ^ 46 < e.getD 0 0 + e.getD 1 0) || decide (4 ≤ e.getD 3 0))
    || anyPair mapOverlap es
  [(.create,
    if pa % 64 ≠ 0 ∨ tableOk m.dev pa 128 = false then .error 2 else if waitsService m.dev pa = true then .error 5
    else if createBad m q x = true then .error 2
    else if m.dev.red = true ∧ (m.ctxs ≠ [] ∨ ∃ c ∈ x.cores, dieOf c ≠ 0) then .error 5
    else if createConflict m x = true then .error 4 else match free with
      | none => .error 4
      | some k =>
        let m1 := createCtx x (q.getD 6 0) k m
        .ok (if m1.dev.hot then requestStop k false m1 else m1, k)),
   (.poolmap,
    if pa % 8 ≠ 0 ∨ tableOk m.dev pa 8 = false then .error 2 else if waitsService m.dev pa = true then .error 5
    else if 16 < n ∨ tableOk m.dev pa (8 + 32 * n) = false ∨ badMap = true then .error 2 else .ok ({ m with dev := { m.dev with pool := es } }, 0)),
   (.erxring, if 2 ≤ m.arg 0 ∨ hostRing m.dev (m.arg 1) (m.arg 2) 2048 = false then .error 2
    else .ok (m.setIodie (m.arg 0) { m.iodie (m.arg 0) with ring := some (m.arg 1, m.arg 2), prod := 0 }, 0)),
   (.nring, if hostRing m.dev (m.arg 0) (m.arg 1) 32 = false then .error 2
    else
      let m1 := drainNotices 257 { m with dev := { m.dev with nring := some (m.arg 0, m.arg 1) } }
      .ok (if m.dev.nring.isNone && m1.dev.part then notify 0x09 0 0 0 0 0 0 m1 else m1, 0)),
   (.setcap, if 2000 ≤ m.arg 0 ∧ m.arg 0 ≤ 7200 then .ok ({ m with dev := { m.dev with cap := m.arg 0 } }, 0) else .error 2),
   (.epcfg, if 2 ≤ m.arg 0 ∨ 2 ^ 32 ≤ m.arg 1 then .error 2
    else .ok (m.setIodie (m.arg 0) { m.iodie (m.arg 0) with ipv4 := m.arg 1, ipv6 := m.arg 2 * 2 ^ 64 + m.arg 3 }, 0))]

/-- The commands on one context, in the states that accept them (R343, R346, R349, R354). -/
def Sys2Proof.Claim.contextCommands (k : Nat) (x : Ctx) (m : Mach) : List (Instr × List CtxSt × Except Nat (Mach × Nat)) :=
  let n := m.arg 1
  let q := if n < 4 then 16 + n else n - 4
  let y := x.queues.get Queue.init q
  let key := keyOf (bits n 0 14) (bits n 14 2)
  let live : List CtxSt := [.running, .stopped, .saved]
  let replied : Slot → Slot := fun z => { z with hcReply := some (m.arg 2) }
  let waits : Slot → Bool := fun z => z.hcSent && z.hcReply.isNone
  [(.destroy, [.stopped, .saved, .ended], .ok (destroyCtx k m, 0)),
   (.stop, live, .ok (if x.st = .running then requestStop k false m else m, 0)),
   (.stopsave, live, if m.dev.red then .error 5 else .ok (if x.st = .saved then m else requestStop k true m, 0)),
   (.resume, [.stopped, .saved], if m.dev.hot = true ∨ x.pre.isSome = true then .error 5 else match loadAll k m with
     | .error st => .error st
     | .ok m => .ok (if (m.ctx k).st == .ended then m else resumeCtx k m, 0)),
   (.kill, live, .ok (endContext k 0x84 0 0 m, 0)),
   (.hostReplay, live, .ok (replayAll k m, 0)),
   (.gangres, live, match gangNamed m k n with
     | some g => .ok (resumeGang g.1 g.2 m, 0)
     | none => .error 5),
   (.gangkill, live, match gangNamed m k n with
     | some g => .ok (killGang g.1 g.2 m, 0)
     | none => .error 5),
   (.qreset, live, if 20 ≤ n then .error 2 else if m.dev.red = true ∧ n ≠ 0 then .error 5
     else .ok (m.updCtx k (fun x => { x with queues := x.queues.put q { y with parsed := y.tail, err := false, active := y.active.filter (fun a => match a.2 with
       | .running _ => true
       | _ => false) } }), 0)),
   (.reply, live, if 2 ^ 16 ≤ n then .error 2
     else if (m.slot key).run ≠ .free ∧ (m.slot key).ctx = k then
       (if waits (m.slot key) then .ok (m.setSlot key (replied (m.slot key)), 0) else .error 5)
     else match x.kept.find key with
       | some z => if waits z then .ok (m.updCtx k (fun x => { x with kept := x.kept.put key (replied z) }), 0) else .error 5
       | none => .error 5)]

/-- CMDSTAT and CMDRES after a command. -/
def Sys2Proof.Claim.outcome (r : Except Nat (Mach × Nat)) (s : State) : State := match r with
  | .ok (m, v) => goes (fun _ => { m with dev := { m.dev with status := 0, cmdres := v } }) s
  | .error st => goes (fun m => { m with dev := { m.dev with status := st } }) s

/-- The host's commands (R352 to R360, R366, R368): with the links up and no command under way a command does what its row says, or fails with the row's status and no effect; a context command
needs its context to exist in a state that the row lists, and DESTROY the context's accesses to have been performed; in recovery mode a command fails, and an unknown code always;
while one is under way it is ignored. STATUS 5 of commands in reduced service, how a gang is named, RESUME's statuses and a context created while the module is hot are the model's
reading (log entry 46). -/
def Obligations.HostCommands : Prop :=
  ∀ (s : State), linksUp s.m.dev = true →
    let ofContext := contextCommands (s.m.arg 0) (s.m.ctx (s.m.arg 0)) s.m
    (s.m.dev.busy = false → s.m.dev.recov = false →
      (∀ p ∈ hostCommands s.m, exec p.1 s = .next (outcome p.2 s)) ∧
      (∀ p ∈ ofContext, (p.1 = .destroy → allPerformed s.m (s.m.arg 0) = true) →
        (64 ≤ s.m.arg 0 → exec p.1 s = .next (outcome (.error 2) s)) ∧
        (∀ x, s.m.arg 0 < 64 → s.m.ctxs.find (s.m.arg 0) = some x → x.st ∈ p.2.1 → exec p.1 s = .next (outcome p.2.2 s)) ∧
        (s.m.arg 0 < 64 → (∀ x, s.m.ctxs.find (s.m.arg 0) = some x → x.st ∉ p.2.1) → exec p.1 s = .next (outcome (.error 5) s)))) ∧
    (s.m.dev.busy = false → ∀ code, code = 0 ∨ 0x13 < code → exec (.unknownCommand code) s = .next (outcome (.error 2) s)) ∧
    (s.m.dev.busy = false → s.m.dev.recov = true → ∀ i ∈ (hostCommands s.m).map (·.1) ++ ofContext.map (·.1) ++ [.attest],
      exec i s = .next (outcome (.error 5) s)) ∧
    (s.m.dev.busy = true → ∀ i ∈ (hostCommands s.m).map (·.1) ++ ofContext.map (·.1) ++ [.attest, .fwstage, .fwcommit],
      exec i s = .next s)

/-- Links, power and heat (R351, R359, R368, R369): the links and Span devices come and go, the effecter sets a cap in range, a window that has kept the effective cap ends with the cap in force, a temperature is
taken, one above the trip stops every context, and one above 120 °C takes the power away. -/
def Sys2Proof.Claim.ModuleEvents : Prop :=
  ∀ (s : State) (n t inlet bubbles : Nat) (power : List Nat),
    (s.m.dev.link0 = true → exec .pcieLinkDown s = .next (goes (fun m => { m with dev := { m.dev with link0 := false } }) s)) ∧
    (s.m.dev.link0 = false → exec .pcieLinkUp s = .next (goes (fun m => { m with dev := { m.dev with link0 := true } }) s)) ∧
    (s.m.dev.span = true → n < 64 → n ≠ s.m.dev.sdev → n ∉ s.m.dev.peers →
      exec (.spanDeviceJoin n) s = .next (goes (fun m => { m with dev := { m.dev with peers := n :: m.dev.peers } }) s)) ∧
    (s.m.dev.span = true → n ∈ s.m.dev.peers → exec (.spanDeviceLeave n) s = .next (goes (fun m =>
      (accessesTo m n).foldl (fun m h => if (m.ctx h.1).st == .ended then m else endContext h.1 0x83 h.2.1 h.2.2 m)
        { m with dev := { m.dev with peers := m.dev.peers.erase n } }) s)) ∧
    (linksUp s.m.dev = true → exec (.powerCapEffecterWrite n) s = .next (goes (fun m =>
      if 2000 ≤ n ∧ n ≤ 7200 then { m with dev := { m.dev with cap := n } } else m) s)) ∧
    (n ≤ s.m.dev.effCap → exec (.powerCapWindow ⟨n, bubbles, power⟩) s = .next (goes (fun m =>
      let powers := (List.range 16).map (fun i => (i, power.getD i 0))
      bubble bubbles { m with dev := { m.dev with effCap := if throttled m.dev then min m.dev.effCap m.dev.cap else m.dev.cap, power := powers } }) s)) ∧
    (n < 16 → 2 ≤ s.m.dev.step →
      (t ≤ 8 * 95 → inlet ≤ 8 * 45 → ∃ m, exec (.thermalEvent n t inlet) s = .next (goes (fun _ => m) s) ∧
        m.dev.temps = s.m.dev.temps.put n t ∧ m.dev.inlet = inlet ∧ m.ctxs = s.m.ctxs ∧ m.slots = s.m.slots) ∧
      (8 * 120 < t → exec (.thermalEvent n t inlet) s = .next (powerOff s)) ∧
      (8 * 110 < t ∨ 8 * 45 < inlet → t ≤ 8 * 120 → s.m.dev.hot = false → ∃ m, exec (.thermalEvent n t inlet) s = .next (goes (fun _ => m) s) ∧
        m.dev.hot = true ∧ ∀ k x, s.m.ctxs.find k = some x → x.st = .running → (m.ctx k).pre.isSome = true))

/-- The host's accesses, and links, power and heat (R10, R261, R338, R350 to R359, R368, R369). -/
def Obligations.HostAccessesAndModuleEvents : Prop := Claim.HostAccesses ∧ Claim.HostReads ∧ Claim.ModuleEvents

/-- Firmware and start-up (R363 to R367): FWSTAGE stages an image that the check accepts, and leaves none staged otherwise, FWCOMMIT begins the write, or clears the boot record; ATTEST signs a report with the next index, once
it is in flash; each start-up step is marked as attempted and then as passed or failed, full service ends reduced service, loss of power keeps flash alone.
Whether an image verifies, measurements and signatures are open (the model's choice, log entry 7). -/
def Obligations.FirmwareAndPower : Prop :=
  ∀ (s : State),
    let pa := s.m.arg 0
    let n := s.m.arg 1
    let st : Nat → Boot → State := fun v b => { m := { s.m with dev := { s.m.dev with status := v } }, boot := b }
    (linksUp s.m.dev = true → s.m.dev.busy = false →
      (n ≠ 0 → tableOk s.m.dev pa n = true → (∀ a ∈ framesOf pa n, tableOk s.m.dev a 1 = true ∧ waitsService s.m.dev a = false) →
        (Config.imageOk (s.m.mem.rdN pa n) = true → exec .fwstage s = .next (st 0 { s.boot with staged := some (s.m.mem.rdN pa n) })) ∧
        (Config.imageOk (s.m.mem.rdN pa n) = false → exec .fwstage s = .next (st 2 { s.boot with staged := none }))) ∧
      (n = 0 → exec .fwcommit s = .next (st 0 { s.boot with record := List.replicate 10 0, alts := [] })) ∧
      (n ≠ 0 → s.boot.staged = none → exec .fwcommit s = .next (st 5 s.boot)) ∧
      (n ≠ 0 → s.boot.staged ≠ none → exec .fwcommit s = .next
        { m := { s.m with dev := { s.m.dev with busy := true } }, boot := { s.boot with torn := true } }) ∧
      (s.m.dev.recov = false → 2 ^ 40 ≤ s.boot.sigIndex → exec .attest s = .next (st 3 s.boot)) ∧
      (s.m.dev.recov = false → tableOk s.m.dev pa 108 = true → waitsService s.m.dev pa = false →
        let rest := s.boot.flash.tail
        (s.boot.sigIndex < 2 ^ 40 → flashWrites s.boot = false → exec .attest s = .next (st 3 { s.boot with flash := rest })) ∧
        (s.boot.sigIndex < 2 ^ 40 → flashWrites s.boot = true → ∃ t, exec .attest s = .next t ∧
          t.boot = { s.boot with sigIndex := s.boot.sigIndex + 1, flash := rest } ∧ t.m.dev.status = 0))) ∧
    (∀ rep, s.m.dev.start = none → s.m.dev.step = 0 → s.m.dev.recov = false → ∃ t, exec (.powerOn rep) s = .next t ∧
      t.m.dev.start.map (·.1) = some 0 ∧ (0 < s.boot.record.length → bootOut s.boot.record 0 ≠ 5 → bootOut t.boot.record 0 = 1)) ∧
    (∀ rep i, s.m.dev.start = some (i, false) → i ≤ 8 → s.m.dev.recov = false → s.boot.record.length = 10 → bootOut s.boot.record i ≠ 5 →
      let good := if i = 1 then Config.imageOk s.boot.image = true ∧ s.boot.torn = false else rep.normal.getD i false = true
      (good → (3 ≤ i → bitAt s.m.dev.dies 0 = true) → ∃ t, exec (.powerOn rep) s = .next t ∧ t.m.dev.step = i ∧ bootOut t.boot.record i = 2 ∧
        t.m.dev.start.map (·.1) = some (i + 1) ∧ (bootOut s.boot.record (i + 1) ≠ 5 → i + 1 ∉ s.boot.alts → bootOut t.boot.record (i + 1) = 1) ∧
        (s.m.dev.dies = 2 ^ 16 - 1 → t.m.dev.part = s.m.dev.part) ∧
        t.m.ctxs = s.m.ctxs ∧ t.m.slots = s.m.slots ∧ (i = 2 → t.m.dev.dies = 2 ^ 16 - 1) ∧ (i = 7 → t.m.dev.span = true) ∧ (i = 8 → t.m.dev.cxlp = 15) ∧
        (i = 6 → t.m.sid = if rep.ptpLocked then rep.ptpTime % 2 ^ 64 else 0) ∧ (i = 1 → t.m.dev.meas = measurement s.boot.image)) ∧
      (¬good → ∃ t, exec (.powerOn rep) s = .next t ∧ bootOut t.boot.record i = 3 ∧ (i = 1 → t.m.dev.recov = true) ∧
        (i = 0 ∨ i = 2 ∨ i = 6 → t.m.dev = { s.m.dev with start := none }))) ∧
    (s.m.dev.red = true → s.m.dev.step = 8 → s.m.dev.recov = false → ∃ t, exec .fullService s = .next t ∧ t.m.dev.red = false ∧ t.m.dev.step = 9 ∧
      t.m.slots = s.m.slots ∧ t.m.ctxs = s.m.ctxs ∧ t.boot = { s.boot with record := t.boot.record }) ∧
    (∀ cause, cause = .lost ∨ (∃ x, cause = .overheat x ∧ 8 * 120 < x) ∨ (∃ x, cause = .lowFlow x ∧ x < 40) ∨ (∃ x, cause = .lowInput x ∧ x < 44000) →
      exec (.powerLoss cause) s = .next { m := { Mach.reset with agenda := s.m.agenda, fresh := s.m.fresh }, boot := { s.boot with staged := none } })

/-- Reset (R363, R364, R368): no context and no slot is in use, STEP is 0, RED is 1 and no bit of DIES is set, the power cap is 7,200 W, and the sidereal clock shows 0. That memory and the
scratchpads list nothing, so that every byte of them reads 0, is the model's choice (log entries 2, 3). -/
def Obligations.ResetValues : Prop :=
  State.reset.m.ctxs = [] ∧ State.reset.m.slots = [] ∧ State.reset.m.mem = [] ∧ State.reset.m.spad = [] ∧ State.reset.m.dev.step = 0 ∧
    State.reset.m.dev.red = true ∧ State.reset.m.dev.dies = 0 ∧ State.reset.m.dev.cap = 7200 ∧ State.reset.m.sid = 0

/-- Flash keeps its form (R363, R367): ten entries in the boot record, each with an outcome that R363 names, and a signature index that has not passed 2^40. -/
def Sys2Proof.Claim.FlashInv (s : State) : Prop :=
  s.boot.record.length = 10 ∧ (∀ e ∈ s.boot.record, e % 8 ≤ 5) ∧ s.boot.sigIndex ≤ 2 ^ 40

/-- At reset flash has its form; its contents then are the model's choice (log entry 8). -/
def Obligations.FlashAtReset : Prop := FlashInv State.reset

/-- Every step of the machine keeps flash's form, and lets the signature index fall in none (R363, R367). -/
def Obligations.FlashKeepsItsForm : Prop :=
  ∀ (s t : State), FlashInv s → step s = .next t → FlashInv t ∧ s.boot.sigIndex ≤ t.boot.sigIndex ∧ t.boot.sigIndex ≤ s.boot.sigIndex + 1

end
end

