-- ==== Sys2Proof/Laws/State.lean ====
section
/-! SUPPORT. What each named update leaves: one lemma per field, true by `rfl` or by the update's own cases, so that no later
proof unfolds a record update. -/
namespace Sys2Proof.Machine
set_option Elab.async false

/-! ## Mach.setSlot -/
@[simp] theorem Mach.setSlot_mem (m : Mach) (k : Nat) (x : Slot) : (m.setSlot k x).mem = m.mem := rfl
@[simp] theorem Mach.setSlot_spad (m : Mach) (k : Nat) (x : Slot) : (m.setSlot k x).spad = m.spad := rfl
@[simp] theorem Mach.setSlot_poison (m : Mach) (k : Nat) (x : Slot) : (m.setSlot k x).poison = m.poison := rfl
@[simp] theorem Mach.setSlot_spoison (m : Mach) (k : Nat) (x : Slot) : (m.setSlot k x).spoison = m.spoison := rfl
@[simp] theorem Mach.setSlot_plantL2 (m : Mach) (k : Nat) (x : Slot) : (m.setSlot k x).plantL2 = m.plantL2 := rfl
@[simp] theorem Mach.setSlot_plantHbm (m : Mach) (k : Nat) (x : Slot) : (m.setSlot k x).plantHbm = m.plantHbm := rfl
@[simp] theorem Mach.setSlot_plantSp (m : Mach) (k : Nat) (x : Slot) : (m.setSlot k x).plantSp = m.plantSp := rfl
@[simp] theorem Mach.setSlot_cores (m : Mach) (k : Nat) (x : Slot) : (m.setSlot k x).cores = m.cores := rfl
@[simp] theorem Mach.setSlot_pairs (m : Mach) (k : Nat) (x : Slot) : (m.setSlot k x).pairs = m.pairs := rfl
@[simp] theorem Mach.setSlot_octets (m : Mach) (k : Nat) (x : Slot) : (m.setSlot k x).octets = m.octets := rfl
@[simp] theorem Mach.setSlot_clusters (m : Mach) (k : Nat) (x : Slot) : (m.setSlot k x).clusters = m.clusters := rfl
@[simp] theorem Mach.setSlot_dies (m : Mach) (k : Nat) (x : Slot) : (m.setSlot k x).dies = m.dies := rfl
@[simp] theorem Mach.setSlot_slices (m : Mach) (k : Nat) (x : Slot) : (m.setSlot k x).slices = m.slices := rfl
@[simp] theorem Mach.setSlot_iodies (m : Mach) (k : Nat) (x : Slot) : (m.setSlot k x).iodies = m.iodies := rfl
@[simp] theorem Mach.setSlot_ctxs (m : Mach) (k : Nat) (x : Slot) : (m.setSlot k x).ctxs = m.ctxs := rfl
@[simp] theorem Mach.setSlot_gangs (m : Mach) (k : Nat) (x : Slot) : (m.setSlot k x).gangs = m.gangs := rfl
@[simp] theorem Mach.setSlot_reqs (m : Mach) (k : Nat) (x : Slot) : (m.setSlot k x).reqs = m.reqs := rfl
@[simp] theorem Mach.setSlot_cmds (m : Mach) (k : Nat) (x : Slot) : (m.setSlot k x).cmds = m.cmds := rfl
@[simp] theorem Mach.setSlot_notices (m : Mach) (k : Nat) (x : Slot) : (m.setSlot k x).notices = m.notices := rfl
@[simp] theorem Mach.setSlot_decs (m : Mach) (k : Nat) (x : Slot) : (m.setSlot k x).decs = m.decs := rfl
@[simp] theorem Mach.setSlot_records (m : Mach) (k : Nat) (x : Slot) : (m.setSlot k x).records = m.records := rfl
@[simp] theorem Mach.setSlot_ingests (m : Mach) (k : Nat) (x : Slot) : (m.setSlot k x).ingests = m.ingests := rfl
@[simp] theorem Mach.setSlot_dev (m : Mach) (k : Nat) (x : Slot) : (m.setSlot k x).dev = m.dev := rfl
@[simp] theorem Mach.setSlot_sid (m : Mach) (k : Nat) (x : Slot) : (m.setSlot k x).sid = m.sid := rfl
@[simp] theorem Mach.setSlot_cyc (m : Mach) (k : Nat) (x : Slot) : (m.setSlot k x).cyc = m.cyc := rfl
@[simp] theorem Mach.setSlot_cur (m : Mach) (k : Nat) (x : Slot) : (m.setSlot k x).cur = m.cur := rfl
@[simp] theorem Mach.setSlot_nextId (m : Mach) (k : Nat) (x : Slot) : (m.setSlot k x).nextId = m.nextId := rfl
@[simp] theorem Mach.setSlot_fresh (m : Mach) (k : Nat) (x : Slot) : (m.setSlot k x).fresh = m.fresh := rfl
@[simp] theorem Mach.setSlot_hostOut (m : Mach) (k : Nat) (x : Slot) : (m.setSlot k x).hostOut = m.hostOut := rfl
@[simp] theorem Mach.setSlot_agenda (m : Mach) (k : Nat) (x : Slot) : (m.setSlot k x).agenda = m.agenda := rfl
@[simp] theorem Mach.core_setSlot (m : Mach) (k : Nat) (x : Slot) (j : Nat) : (m.setSlot k x).core j = m.core j := rfl
@[simp] theorem Mach.pair_setSlot (m : Mach) (k : Nat) (x : Slot) (i j : Nat) : (m.setSlot k x).pair i j = m.pair i j := rfl
@[simp] theorem Mach.octet_setSlot (m : Mach) (k : Nat) (x : Slot) (j : Nat) : (m.setSlot k x).octet j = m.octet j := rfl
@[simp] theorem Mach.cluster_setSlot (m : Mach) (k : Nat) (x : Slot) (j : Nat) : (m.setSlot k x).cluster j = m.cluster j := rfl
@[simp] theorem Mach.die_setSlot (m : Mach) (k : Nat) (x : Slot) (j : Nat) : (m.setSlot k x).die j = m.die j := rfl
@[simp] theorem Mach.slice_setSlot (m : Mach) (k : Nat) (x : Slot) (j : Nat) : (m.setSlot k x).slice j = m.slice j := rfl
@[simp] theorem Mach.iodie_setSlot (m : Mach) (k : Nat) (x : Slot) (j : Nat) : (m.setSlot k x).iodie j = m.iodie j := rfl
@[simp] theorem Mach.ctx_setSlot (m : Mach) (k : Nat) (x : Slot) (j : Nat) : (m.setSlot k x).ctx j = m.ctx j := rfl
@[simp] theorem Mach.curCore_setSlot (m : Mach) (k : Nat) (x : Slot)  : (m.setSlot k x).curCore  = m.curCore  := rfl

/-! ## Mach.updSlot -/
@[simp] theorem Mach.updSlot_mem (m : Mach) (k : Nat) (f : Slot → Slot) : (m.updSlot k f).mem = m.mem := rfl
@[simp] theorem Mach.updSlot_spad (m : Mach) (k : Nat) (f : Slot → Slot) : (m.updSlot k f).spad = m.spad := rfl
@[simp] theorem Mach.updSlot_poison (m : Mach) (k : Nat) (f : Slot → Slot) : (m.updSlot k f).poison = m.poison := rfl
@[simp] theorem Mach.updSlot_spoison (m : Mach) (k : Nat) (f : Slot → Slot) : (m.updSlot k f).spoison = m.spoison := rfl
@[simp] theorem Mach.updSlot_plantL2 (m : Mach) (k : Nat) (f : Slot → Slot) : (m.updSlot k f).plantL2 = m.plantL2 := rfl
@[simp] theorem Mach.updSlot_plantHbm (m : Mach) (k : Nat) (f : Slot → Slot) : (m.updSlot k f).plantHbm = m.plantHbm := rfl
@[simp] theorem Mach.updSlot_plantSp (m : Mach) (k : Nat) (f : Slot → Slot) : (m.updSlot k f).plantSp = m.plantSp := rfl
@[simp] theorem Mach.updSlot_cores (m : Mach) (k : Nat) (f : Slot → Slot) : (m.updSlot k f).cores = m.cores := rfl
@[simp] theorem Mach.updSlot_pairs (m : Mach) (k : Nat) (f : Slot → Slot) : (m.updSlot k f).pairs = m.pairs := rfl
@[simp] theorem Mach.updSlot_octets (m : Mach) (k : Nat) (f : Slot → Slot) : (m.updSlot k f).octets = m.octets := rfl
@[simp] theorem Mach.updSlot_clusters (m : Mach) (k : Nat) (f : Slot → Slot) : (m.updSlot k f).clusters = m.clusters := rfl
@[simp] theorem Mach.updSlot_dies (m : Mach) (k : Nat) (f : Slot → Slot) : (m.updSlot k f).dies = m.dies := rfl
@[simp] theorem Mach.updSlot_slices (m : Mach) (k : Nat) (f : Slot → Slot) : (m.updSlot k f).slices = m.slices := rfl
@[simp] theorem Mach.updSlot_iodies (m : Mach) (k : Nat) (f : Slot → Slot) : (m.updSlot k f).iodies = m.iodies := rfl
@[simp] theorem Mach.updSlot_ctxs (m : Mach) (k : Nat) (f : Slot → Slot) : (m.updSlot k f).ctxs = m.ctxs := rfl
@[simp] theorem Mach.updSlot_gangs (m : Mach) (k : Nat) (f : Slot → Slot) : (m.updSlot k f).gangs = m.gangs := rfl
@[simp] theorem Mach.updSlot_reqs (m : Mach) (k : Nat) (f : Slot → Slot) : (m.updSlot k f).reqs = m.reqs := rfl
@[simp] theorem Mach.updSlot_cmds (m : Mach) (k : Nat) (f : Slot → Slot) : (m.updSlot k f).cmds = m.cmds := rfl
@[simp] theorem Mach.updSlot_notices (m : Mach) (k : Nat) (f : Slot → Slot) : (m.updSlot k f).notices = m.notices := rfl
@[simp] theorem Mach.updSlot_decs (m : Mach) (k : Nat) (f : Slot → Slot) : (m.updSlot k f).decs = m.decs := rfl
@[simp] theorem Mach.updSlot_records (m : Mach) (k : Nat) (f : Slot → Slot) : (m.updSlot k f).records = m.records := rfl
@[simp] theorem Mach.updSlot_ingests (m : Mach) (k : Nat) (f : Slot → Slot) : (m.updSlot k f).ingests = m.ingests := rfl
@[simp] theorem Mach.updSlot_dev (m : Mach) (k : Nat) (f : Slot → Slot) : (m.updSlot k f).dev = m.dev := rfl
@[simp] theorem Mach.updSlot_sid (m : Mach) (k : Nat) (f : Slot → Slot) : (m.updSlot k f).sid = m.sid := rfl
@[simp] theorem Mach.updSlot_cyc (m : Mach) (k : Nat) (f : Slot → Slot) : (m.updSlot k f).cyc = m.cyc := rfl
@[simp] theorem Mach.updSlot_cur (m : Mach) (k : Nat) (f : Slot → Slot) : (m.updSlot k f).cur = m.cur := rfl
@[simp] theorem Mach.updSlot_nextId (m : Mach) (k : Nat) (f : Slot → Slot) : (m.updSlot k f).nextId = m.nextId := rfl
@[simp] theorem Mach.updSlot_fresh (m : Mach) (k : Nat) (f : Slot → Slot) : (m.updSlot k f).fresh = m.fresh := rfl
@[simp] theorem Mach.updSlot_hostOut (m : Mach) (k : Nat) (f : Slot → Slot) : (m.updSlot k f).hostOut = m.hostOut := rfl
@[simp] theorem Mach.updSlot_agenda (m : Mach) (k : Nat) (f : Slot → Slot) : (m.updSlot k f).agenda = m.agenda := rfl
@[simp] theorem Mach.core_updSlot (m : Mach) (k : Nat) (f : Slot → Slot) (j : Nat) : (m.updSlot k f).core j = m.core j := rfl
@[simp] theorem Mach.pair_updSlot (m : Mach) (k : Nat) (f : Slot → Slot) (i j : Nat) : (m.updSlot k f).pair i j = m.pair i j := rfl
@[simp] theorem Mach.octet_updSlot (m : Mach) (k : Nat) (f : Slot → Slot) (j : Nat) : (m.updSlot k f).octet j = m.octet j := rfl
@[simp] theorem Mach.cluster_updSlot (m : Mach) (k : Nat) (f : Slot → Slot) (j : Nat) : (m.updSlot k f).cluster j = m.cluster j := rfl
@[simp] theorem Mach.die_updSlot (m : Mach) (k : Nat) (f : Slot → Slot) (j : Nat) : (m.updSlot k f).die j = m.die j := rfl
@[simp] theorem Mach.slice_updSlot (m : Mach) (k : Nat) (f : Slot → Slot) (j : Nat) : (m.updSlot k f).slice j = m.slice j := rfl
@[simp] theorem Mach.iodie_updSlot (m : Mach) (k : Nat) (f : Slot → Slot) (j : Nat) : (m.updSlot k f).iodie j = m.iodie j := rfl
@[simp] theorem Mach.ctx_updSlot (m : Mach) (k : Nat) (f : Slot → Slot) (j : Nat) : (m.updSlot k f).ctx j = m.ctx j := rfl
@[simp] theorem Mach.curCore_updSlot (m : Mach) (k : Nat) (f : Slot → Slot)  : (m.updSlot k f).curCore  = m.curCore  := rfl

/-! ## Mach.setCore -/
@[simp] theorem Mach.setCore_mem (m : Mach) (k : Nat) (x : Core) : (m.setCore k x).mem = m.mem := rfl
@[simp] theorem Mach.setCore_spad (m : Mach) (k : Nat) (x : Core) : (m.setCore k x).spad = m.spad := rfl
@[simp] theorem Mach.setCore_poison (m : Mach) (k : Nat) (x : Core) : (m.setCore k x).poison = m.poison := rfl
@[simp] theorem Mach.setCore_spoison (m : Mach) (k : Nat) (x : Core) : (m.setCore k x).spoison = m.spoison := rfl
@[simp] theorem Mach.setCore_plantL2 (m : Mach) (k : Nat) (x : Core) : (m.setCore k x).plantL2 = m.plantL2 := rfl
@[simp] theorem Mach.setCore_plantHbm (m : Mach) (k : Nat) (x : Core) : (m.setCore k x).plantHbm = m.plantHbm := rfl
@[simp] theorem Mach.setCore_plantSp (m : Mach) (k : Nat) (x : Core) : (m.setCore k x).plantSp = m.plantSp := rfl
@[simp] theorem Mach.setCore_slots (m : Mach) (k : Nat) (x : Core) : (m.setCore k x).slots = m.slots := rfl
@[simp] theorem Mach.setCore_pairs (m : Mach) (k : Nat) (x : Core) : (m.setCore k x).pairs = m.pairs := rfl
@[simp] theorem Mach.setCore_octets (m : Mach) (k : Nat) (x : Core) : (m.setCore k x).octets = m.octets := rfl
@[simp] theorem Mach.setCore_clusters (m : Mach) (k : Nat) (x : Core) : (m.setCore k x).clusters = m.clusters := rfl
@[simp] theorem Mach.setCore_dies (m : Mach) (k : Nat) (x : Core) : (m.setCore k x).dies = m.dies := rfl
@[simp] theorem Mach.setCore_slices (m : Mach) (k : Nat) (x : Core) : (m.setCore k x).slices = m.slices := rfl
@[simp] theorem Mach.setCore_iodies (m : Mach) (k : Nat) (x : Core) : (m.setCore k x).iodies = m.iodies := rfl
@[simp] theorem Mach.setCore_ctxs (m : Mach) (k : Nat) (x : Core) : (m.setCore k x).ctxs = m.ctxs := rfl
@[simp] theorem Mach.setCore_gangs (m : Mach) (k : Nat) (x : Core) : (m.setCore k x).gangs = m.gangs := rfl
@[simp] theorem Mach.setCore_reqs (m : Mach) (k : Nat) (x : Core) : (m.setCore k x).reqs = m.reqs := rfl
@[simp] theorem Mach.setCore_cmds (m : Mach) (k : Nat) (x : Core) : (m.setCore k x).cmds = m.cmds := rfl
@[simp] theorem Mach.setCore_notices (m : Mach) (k : Nat) (x : Core) : (m.setCore k x).notices = m.notices := rfl
@[simp] theorem Mach.setCore_decs (m : Mach) (k : Nat) (x : Core) : (m.setCore k x).decs = m.decs := rfl
@[simp] theorem Mach.setCore_records (m : Mach) (k : Nat) (x : Core) : (m.setCore k x).records = m.records := rfl
@[simp] theorem Mach.setCore_ingests (m : Mach) (k : Nat) (x : Core) : (m.setCore k x).ingests = m.ingests := rfl
@[simp] theorem Mach.setCore_dev (m : Mach) (k : Nat) (x : Core) : (m.setCore k x).dev = m.dev := rfl
@[simp] theorem Mach.setCore_sid (m : Mach) (k : Nat) (x : Core) : (m.setCore k x).sid = m.sid := rfl
@[simp] theorem Mach.setCore_cyc (m : Mach) (k : Nat) (x : Core) : (m.setCore k x).cyc = m.cyc := rfl
@[simp] theorem Mach.setCore_cur (m : Mach) (k : Nat) (x : Core) : (m.setCore k x).cur = m.cur := rfl
@[simp] theorem Mach.setCore_nextId (m : Mach) (k : Nat) (x : Core) : (m.setCore k x).nextId = m.nextId := rfl
@[simp] theorem Mach.setCore_fresh (m : Mach) (k : Nat) (x : Core) : (m.setCore k x).fresh = m.fresh := rfl
@[simp] theorem Mach.setCore_hostOut (m : Mach) (k : Nat) (x : Core) : (m.setCore k x).hostOut = m.hostOut := rfl
@[simp] theorem Mach.setCore_agenda (m : Mach) (k : Nat) (x : Core) : (m.setCore k x).agenda = m.agenda := rfl
@[simp] theorem Mach.slot_setCore (m : Mach) (k : Nat) (x : Core) (j : Nat) : (m.setCore k x).slot j = m.slot j := rfl
@[simp] theorem Mach.pair_setCore (m : Mach) (k : Nat) (x : Core) (i j : Nat) : (m.setCore k x).pair i j = m.pair i j := rfl
@[simp] theorem Mach.octet_setCore (m : Mach) (k : Nat) (x : Core) (j : Nat) : (m.setCore k x).octet j = m.octet j := rfl
@[simp] theorem Mach.cluster_setCore (m : Mach) (k : Nat) (x : Core) (j : Nat) : (m.setCore k x).cluster j = m.cluster j := rfl
@[simp] theorem Mach.die_setCore (m : Mach) (k : Nat) (x : Core) (j : Nat) : (m.setCore k x).die j = m.die j := rfl
@[simp] theorem Mach.slice_setCore (m : Mach) (k : Nat) (x : Core) (j : Nat) : (m.setCore k x).slice j = m.slice j := rfl
@[simp] theorem Mach.iodie_setCore (m : Mach) (k : Nat) (x : Core) (j : Nat) : (m.setCore k x).iodie j = m.iodie j := rfl
@[simp] theorem Mach.ctx_setCore (m : Mach) (k : Nat) (x : Core) (j : Nat) : (m.setCore k x).ctx j = m.ctx j := rfl
@[simp] theorem Mach.curCore_setCore (m : Mach) (k : Nat) (x : Core)  : (m.setCore k x).curCore  = m.curCore  := rfl

/-! ## Mach.updCore -/
@[simp] theorem Mach.updCore_mem (m : Mach) (k : Nat) (f : Core → Core) : (m.updCore k f).mem = m.mem := rfl
@[simp] theorem Mach.updCore_spad (m : Mach) (k : Nat) (f : Core → Core) : (m.updCore k f).spad = m.spad := rfl
@[simp] theorem Mach.updCore_poison (m : Mach) (k : Nat) (f : Core → Core) : (m.updCore k f).poison = m.poison := rfl
@[simp] theorem Mach.updCore_spoison (m : Mach) (k : Nat) (f : Core → Core) : (m.updCore k f).spoison = m.spoison := rfl
@[simp] theorem Mach.updCore_plantL2 (m : Mach) (k : Nat) (f : Core → Core) : (m.updCore k f).plantL2 = m.plantL2 := rfl
@[simp] theorem Mach.updCore_plantHbm (m : Mach) (k : Nat) (f : Core → Core) : (m.updCore k f).plantHbm = m.plantHbm := rfl
@[simp] theorem Mach.updCore_plantSp (m : Mach) (k : Nat) (f : Core → Core) : (m.updCore k f).plantSp = m.plantSp := rfl
@[simp] theorem Mach.updCore_slots (m : Mach) (k : Nat) (f : Core → Core) : (m.updCore k f).slots = m.slots := rfl
@[simp] theorem Mach.updCore_pairs (m : Mach) (k : Nat) (f : Core → Core) : (m.updCore k f).pairs = m.pairs := rfl
@[simp] theorem Mach.updCore_octets (m : Mach) (k : Nat) (f : Core → Core) : (m.updCore k f).octets = m.octets := rfl
@[simp] theorem Mach.updCore_clusters (m : Mach) (k : Nat) (f : Core → Core) : (m.updCore k f).clusters = m.clusters := rfl
@[simp] theorem Mach.updCore_dies (m : Mach) (k : Nat) (f : Core → Core) : (m.updCore k f).dies = m.dies := rfl
@[simp] theorem Mach.updCore_slices (m : Mach) (k : Nat) (f : Core → Core) : (m.updCore k f).slices = m.slices := rfl
@[simp] theorem Mach.updCore_iodies (m : Mach) (k : Nat) (f : Core → Core) : (m.updCore k f).iodies = m.iodies := rfl
@[simp] theorem Mach.updCore_ctxs (m : Mach) (k : Nat) (f : Core → Core) : (m.updCore k f).ctxs = m.ctxs := rfl
@[simp] theorem Mach.updCore_gangs (m : Mach) (k : Nat) (f : Core → Core) : (m.updCore k f).gangs = m.gangs := rfl
@[simp] theorem Mach.updCore_reqs (m : Mach) (k : Nat) (f : Core → Core) : (m.updCore k f).reqs = m.reqs := rfl
@[simp] theorem Mach.updCore_cmds (m : Mach) (k : Nat) (f : Core → Core) : (m.updCore k f).cmds = m.cmds := rfl
@[simp] theorem Mach.updCore_notices (m : Mach) (k : Nat) (f : Core → Core) : (m.updCore k f).notices = m.notices := rfl
@[simp] theorem Mach.updCore_decs (m : Mach) (k : Nat) (f : Core → Core) : (m.updCore k f).decs = m.decs := rfl
@[simp] theorem Mach.updCore_records (m : Mach) (k : Nat) (f : Core → Core) : (m.updCore k f).records = m.records := rfl
@[simp] theorem Mach.updCore_ingests (m : Mach) (k : Nat) (f : Core → Core) : (m.updCore k f).ingests = m.ingests := rfl
@[simp] theorem Mach.updCore_dev (m : Mach) (k : Nat) (f : Core → Core) : (m.updCore k f).dev = m.dev := rfl
@[simp] theorem Mach.updCore_sid (m : Mach) (k : Nat) (f : Core → Core) : (m.updCore k f).sid = m.sid := rfl
@[simp] theorem Mach.updCore_cyc (m : Mach) (k : Nat) (f : Core → Core) : (m.updCore k f).cyc = m.cyc := rfl
@[simp] theorem Mach.updCore_cur (m : Mach) (k : Nat) (f : Core → Core) : (m.updCore k f).cur = m.cur := rfl
@[simp] theorem Mach.updCore_nextId (m : Mach) (k : Nat) (f : Core → Core) : (m.updCore k f).nextId = m.nextId := rfl
@[simp] theorem Mach.updCore_fresh (m : Mach) (k : Nat) (f : Core → Core) : (m.updCore k f).fresh = m.fresh := rfl
@[simp] theorem Mach.updCore_hostOut (m : Mach) (k : Nat) (f : Core → Core) : (m.updCore k f).hostOut = m.hostOut := rfl
@[simp] theorem Mach.updCore_agenda (m : Mach) (k : Nat) (f : Core → Core) : (m.updCore k f).agenda = m.agenda := rfl
@[simp] theorem Mach.slot_updCore (m : Mach) (k : Nat) (f : Core → Core) (j : Nat) : (m.updCore k f).slot j = m.slot j := rfl
@[simp] theorem Mach.pair_updCore (m : Mach) (k : Nat) (f : Core → Core) (i j : Nat) : (m.updCore k f).pair i j = m.pair i j := rfl
@[simp] theorem Mach.octet_updCore (m : Mach) (k : Nat) (f : Core → Core) (j : Nat) : (m.updCore k f).octet j = m.octet j := rfl
@[simp] theorem Mach.cluster_updCore (m : Mach) (k : Nat) (f : Core → Core) (j : Nat) : (m.updCore k f).cluster j = m.cluster j := rfl
@[simp] theorem Mach.die_updCore (m : Mach) (k : Nat) (f : Core → Core) (j : Nat) : (m.updCore k f).die j = m.die j := rfl
@[simp] theorem Mach.slice_updCore (m : Mach) (k : Nat) (f : Core → Core) (j : Nat) : (m.updCore k f).slice j = m.slice j := rfl
@[simp] theorem Mach.iodie_updCore (m : Mach) (k : Nat) (f : Core → Core) (j : Nat) : (m.updCore k f).iodie j = m.iodie j := rfl
@[simp] theorem Mach.ctx_updCore (m : Mach) (k : Nat) (f : Core → Core) (j : Nat) : (m.updCore k f).ctx j = m.ctx j := rfl
@[simp] theorem Mach.curCore_updCore (m : Mach) (k : Nat) (f : Core → Core)  : (m.updCore k f).curCore  = m.curCore  := rfl

/-! ## Mach.setPair -/
@[simp] theorem Mach.setPair_mem (m : Mach) (c k : Nat) (x : Pair) : (m.setPair c k x).mem = m.mem := rfl
@[simp] theorem Mach.setPair_spad (m : Mach) (c k : Nat) (x : Pair) : (m.setPair c k x).spad = m.spad := rfl
@[simp] theorem Mach.setPair_poison (m : Mach) (c k : Nat) (x : Pair) : (m.setPair c k x).poison = m.poison := rfl
@[simp] theorem Mach.setPair_spoison (m : Mach) (c k : Nat) (x : Pair) : (m.setPair c k x).spoison = m.spoison := rfl
@[simp] theorem Mach.setPair_plantL2 (m : Mach) (c k : Nat) (x : Pair) : (m.setPair c k x).plantL2 = m.plantL2 := rfl
@[simp] theorem Mach.setPair_plantHbm (m : Mach) (c k : Nat) (x : Pair) : (m.setPair c k x).plantHbm = m.plantHbm := rfl
@[simp] theorem Mach.setPair_plantSp (m : Mach) (c k : Nat) (x : Pair) : (m.setPair c k x).plantSp = m.plantSp := rfl
@[simp] theorem Mach.setPair_slots (m : Mach) (c k : Nat) (x : Pair) : (m.setPair c k x).slots = m.slots := rfl
@[simp] theorem Mach.setPair_cores (m : Mach) (c k : Nat) (x : Pair) : (m.setPair c k x).cores = m.cores := rfl
@[simp] theorem Mach.setPair_octets (m : Mach) (c k : Nat) (x : Pair) : (m.setPair c k x).octets = m.octets := rfl
@[simp] theorem Mach.setPair_clusters (m : Mach) (c k : Nat) (x : Pair) : (m.setPair c k x).clusters = m.clusters := rfl
@[simp] theorem Mach.setPair_dies (m : Mach) (c k : Nat) (x : Pair) : (m.setPair c k x).dies = m.dies := rfl
@[simp] theorem Mach.setPair_slices (m : Mach) (c k : Nat) (x : Pair) : (m.setPair c k x).slices = m.slices := rfl
@[simp] theorem Mach.setPair_iodies (m : Mach) (c k : Nat) (x : Pair) : (m.setPair c k x).iodies = m.iodies := rfl
@[simp] theorem Mach.setPair_ctxs (m : Mach) (c k : Nat) (x : Pair) : (m.setPair c k x).ctxs = m.ctxs := rfl
@[simp] theorem Mach.setPair_gangs (m : Mach) (c k : Nat) (x : Pair) : (m.setPair c k x).gangs = m.gangs := rfl
@[simp] theorem Mach.setPair_reqs (m : Mach) (c k : Nat) (x : Pair) : (m.setPair c k x).reqs = m.reqs := rfl
@[simp] theorem Mach.setPair_cmds (m : Mach) (c k : Nat) (x : Pair) : (m.setPair c k x).cmds = m.cmds := rfl
@[simp] theorem Mach.setPair_notices (m : Mach) (c k : Nat) (x : Pair) : (m.setPair c k x).notices = m.notices := rfl
@[simp] theorem Mach.setPair_decs (m : Mach) (c k : Nat) (x : Pair) : (m.setPair c k x).decs = m.decs := rfl
@[simp] theorem Mach.setPair_records (m : Mach) (c k : Nat) (x : Pair) : (m.setPair c k x).records = m.records := rfl
@[simp] theorem Mach.setPair_ingests (m : Mach) (c k : Nat) (x : Pair) : (m.setPair c k x).ingests = m.ingests := rfl
@[simp] theorem Mach.setPair_dev (m : Mach) (c k : Nat) (x : Pair) : (m.setPair c k x).dev = m.dev := rfl
@[simp] theorem Mach.setPair_sid (m : Mach) (c k : Nat) (x : Pair) : (m.setPair c k x).sid = m.sid := rfl
@[simp] theorem Mach.setPair_cyc (m : Mach) (c k : Nat) (x : Pair) : (m.setPair c k x).cyc = m.cyc := rfl
@[simp] theorem Mach.setPair_cur (m : Mach) (c k : Nat) (x : Pair) : (m.setPair c k x).cur = m.cur := rfl
@[simp] theorem Mach.setPair_nextId (m : Mach) (c k : Nat) (x : Pair) : (m.setPair c k x).nextId = m.nextId := rfl
@[simp] theorem Mach.setPair_fresh (m : Mach) (c k : Nat) (x : Pair) : (m.setPair c k x).fresh = m.fresh := rfl
@[simp] theorem Mach.setPair_hostOut (m : Mach) (c k : Nat) (x : Pair) : (m.setPair c k x).hostOut = m.hostOut := rfl
@[simp] theorem Mach.setPair_agenda (m : Mach) (c k : Nat) (x : Pair) : (m.setPair c k x).agenda = m.agenda := rfl
@[simp] theorem Mach.slot_setPair (m : Mach) (c k : Nat) (x : Pair) (j : Nat) : (m.setPair c k x).slot j = m.slot j := rfl
@[simp] theorem Mach.core_setPair (m : Mach) (c k : Nat) (x : Pair) (j : Nat) : (m.setPair c k x).core j = m.core j := rfl
@[simp] theorem Mach.octet_setPair (m : Mach) (c k : Nat) (x : Pair) (j : Nat) : (m.setPair c k x).octet j = m.octet j := rfl
@[simp] theorem Mach.cluster_setPair (m : Mach) (c k : Nat) (x : Pair) (j : Nat) : (m.setPair c k x).cluster j = m.cluster j := rfl
@[simp] theorem Mach.die_setPair (m : Mach) (c k : Nat) (x : Pair) (j : Nat) : (m.setPair c k x).die j = m.die j := rfl
@[simp] theorem Mach.slice_setPair (m : Mach) (c k : Nat) (x : Pair) (j : Nat) : (m.setPair c k x).slice j = m.slice j := rfl
@[simp] theorem Mach.iodie_setPair (m : Mach) (c k : Nat) (x : Pair) (j : Nat) : (m.setPair c k x).iodie j = m.iodie j := rfl
@[simp] theorem Mach.ctx_setPair (m : Mach) (c k : Nat) (x : Pair) (j : Nat) : (m.setPair c k x).ctx j = m.ctx j := rfl
@[simp] theorem Mach.curCore_setPair (m : Mach) (c k : Nat) (x : Pair)  : (m.setPair c k x).curCore  = m.curCore  := rfl

/-! ## Mach.setOctet -/
@[simp] theorem Mach.setOctet_mem (m : Mach) (k : Nat) (x : Octet) : (m.setOctet k x).mem = m.mem := rfl
@[simp] theorem Mach.setOctet_spad (m : Mach) (k : Nat) (x : Octet) : (m.setOctet k x).spad = m.spad := rfl
@[simp] theorem Mach.setOctet_poison (m : Mach) (k : Nat) (x : Octet) : (m.setOctet k x).poison = m.poison := rfl
@[simp] theorem Mach.setOctet_spoison (m : Mach) (k : Nat) (x : Octet) : (m.setOctet k x).spoison = m.spoison := rfl
@[simp] theorem Mach.setOctet_plantL2 (m : Mach) (k : Nat) (x : Octet) : (m.setOctet k x).plantL2 = m.plantL2 := rfl
@[simp] theorem Mach.setOctet_plantHbm (m : Mach) (k : Nat) (x : Octet) : (m.setOctet k x).plantHbm = m.plantHbm := rfl
@[simp] theorem Mach.setOctet_plantSp (m : Mach) (k : Nat) (x : Octet) : (m.setOctet k x).plantSp = m.plantSp := rfl
@[simp] theorem Mach.setOctet_slots (m : Mach) (k : Nat) (x : Octet) : (m.setOctet k x).slots = m.slots := rfl
@[simp] theorem Mach.setOctet_cores (m : Mach) (k : Nat) (x : Octet) : (m.setOctet k x).cores = m.cores := rfl
@[simp] theorem Mach.setOctet_pairs (m : Mach) (k : Nat) (x : Octet) : (m.setOctet k x).pairs = m.pairs := rfl
@[simp] theorem Mach.setOctet_clusters (m : Mach) (k : Nat) (x : Octet) : (m.setOctet k x).clusters = m.clusters := rfl
@[simp] theorem Mach.setOctet_dies (m : Mach) (k : Nat) (x : Octet) : (m.setOctet k x).dies = m.dies := rfl
@[simp] theorem Mach.setOctet_slices (m : Mach) (k : Nat) (x : Octet) : (m.setOctet k x).slices = m.slices := rfl
@[simp] theorem Mach.setOctet_iodies (m : Mach) (k : Nat) (x : Octet) : (m.setOctet k x).iodies = m.iodies := rfl
@[simp] theorem Mach.setOctet_ctxs (m : Mach) (k : Nat) (x : Octet) : (m.setOctet k x).ctxs = m.ctxs := rfl
@[simp] theorem Mach.setOctet_gangs (m : Mach) (k : Nat) (x : Octet) : (m.setOctet k x).gangs = m.gangs := rfl
@[simp] theorem Mach.setOctet_reqs (m : Mach) (k : Nat) (x : Octet) : (m.setOctet k x).reqs = m.reqs := rfl
@[simp] theorem Mach.setOctet_cmds (m : Mach) (k : Nat) (x : Octet) : (m.setOctet k x).cmds = m.cmds := rfl
@[simp] theorem Mach.setOctet_notices (m : Mach) (k : Nat) (x : Octet) : (m.setOctet k x).notices = m.notices := rfl
@[simp] theorem Mach.setOctet_decs (m : Mach) (k : Nat) (x : Octet) : (m.setOctet k x).decs = m.decs := rfl
@[simp] theorem Mach.setOctet_records (m : Mach) (k : Nat) (x : Octet) : (m.setOctet k x).records = m.records := rfl
@[simp] theorem Mach.setOctet_ingests (m : Mach) (k : Nat) (x : Octet) : (m.setOctet k x).ingests = m.ingests := rfl
@[simp] theorem Mach.setOctet_dev (m : Mach) (k : Nat) (x : Octet) : (m.setOctet k x).dev = m.dev := rfl
@[simp] theorem Mach.setOctet_sid (m : Mach) (k : Nat) (x : Octet) : (m.setOctet k x).sid = m.sid := rfl
@[simp] theorem Mach.setOctet_cyc (m : Mach) (k : Nat) (x : Octet) : (m.setOctet k x).cyc = m.cyc := rfl
@[simp] theorem Mach.setOctet_cur (m : Mach) (k : Nat) (x : Octet) : (m.setOctet k x).cur = m.cur := rfl
@[simp] theorem Mach.setOctet_nextId (m : Mach) (k : Nat) (x : Octet) : (m.setOctet k x).nextId = m.nextId := rfl
@[simp] theorem Mach.setOctet_fresh (m : Mach) (k : Nat) (x : Octet) : (m.setOctet k x).fresh = m.fresh := rfl
@[simp] theorem Mach.setOctet_hostOut (m : Mach) (k : Nat) (x : Octet) : (m.setOctet k x).hostOut = m.hostOut := rfl
@[simp] theorem Mach.setOctet_agenda (m : Mach) (k : Nat) (x : Octet) : (m.setOctet k x).agenda = m.agenda := rfl
@[simp] theorem Mach.slot_setOctet (m : Mach) (k : Nat) (x : Octet) (j : Nat) : (m.setOctet k x).slot j = m.slot j := rfl
@[simp] theorem Mach.core_setOctet (m : Mach) (k : Nat) (x : Octet) (j : Nat) : (m.setOctet k x).core j = m.core j := rfl
@[simp] theorem Mach.pair_setOctet (m : Mach) (k : Nat) (x : Octet) (i j : Nat) : (m.setOctet k x).pair i j = m.pair i j := rfl
@[simp] theorem Mach.cluster_setOctet (m : Mach) (k : Nat) (x : Octet) (j : Nat) : (m.setOctet k x).cluster j = m.cluster j := rfl
@[simp] theorem Mach.die_setOctet (m : Mach) (k : Nat) (x : Octet) (j : Nat) : (m.setOctet k x).die j = m.die j := rfl
@[simp] theorem Mach.slice_setOctet (m : Mach) (k : Nat) (x : Octet) (j : Nat) : (m.setOctet k x).slice j = m.slice j := rfl
@[simp] theorem Mach.iodie_setOctet (m : Mach) (k : Nat) (x : Octet) (j : Nat) : (m.setOctet k x).iodie j = m.iodie j := rfl
@[simp] theorem Mach.ctx_setOctet (m : Mach) (k : Nat) (x : Octet) (j : Nat) : (m.setOctet k x).ctx j = m.ctx j := rfl
@[simp] theorem Mach.curCore_setOctet (m : Mach) (k : Nat) (x : Octet)  : (m.setOctet k x).curCore  = m.curCore  := rfl

/-! ## Mach.setCluster -/
@[simp] theorem Mach.setCluster_mem (m : Mach) (k : Nat) (x : Cluster) : (m.setCluster k x).mem = m.mem := rfl
@[simp] theorem Mach.setCluster_spad (m : Mach) (k : Nat) (x : Cluster) : (m.setCluster k x).spad = m.spad := rfl
@[simp] theorem Mach.setCluster_poison (m : Mach) (k : Nat) (x : Cluster) : (m.setCluster k x).poison = m.poison := rfl
@[simp] theorem Mach.setCluster_spoison (m : Mach) (k : Nat) (x : Cluster) : (m.setCluster k x).spoison = m.spoison := rfl
@[simp] theorem Mach.setCluster_plantL2 (m : Mach) (k : Nat) (x : Cluster) : (m.setCluster k x).plantL2 = m.plantL2 := rfl
@[simp] theorem Mach.setCluster_plantHbm (m : Mach) (k : Nat) (x : Cluster) : (m.setCluster k x).plantHbm = m.plantHbm := rfl
@[simp] theorem Mach.setCluster_plantSp (m : Mach) (k : Nat) (x : Cluster) : (m.setCluster k x).plantSp = m.plantSp := rfl
@[simp] theorem Mach.setCluster_slots (m : Mach) (k : Nat) (x : Cluster) : (m.setCluster k x).slots = m.slots := rfl
@[simp] theorem Mach.setCluster_cores (m : Mach) (k : Nat) (x : Cluster) : (m.setCluster k x).cores = m.cores := rfl
@[simp] theorem Mach.setCluster_pairs (m : Mach) (k : Nat) (x : Cluster) : (m.setCluster k x).pairs = m.pairs := rfl
@[simp] theorem Mach.setCluster_octets (m : Mach) (k : Nat) (x : Cluster) : (m.setCluster k x).octets = m.octets := rfl
@[simp] theorem Mach.setCluster_dies (m : Mach) (k : Nat) (x : Cluster) : (m.setCluster k x).dies = m.dies := rfl
@[simp] theorem Mach.setCluster_slices (m : Mach) (k : Nat) (x : Cluster) : (m.setCluster k x).slices = m.slices := rfl
@[simp] theorem Mach.setCluster_iodies (m : Mach) (k : Nat) (x : Cluster) : (m.setCluster k x).iodies = m.iodies := rfl
@[simp] theorem Mach.setCluster_ctxs (m : Mach) (k : Nat) (x : Cluster) : (m.setCluster k x).ctxs = m.ctxs := rfl
@[simp] theorem Mach.setCluster_gangs (m : Mach) (k : Nat) (x : Cluster) : (m.setCluster k x).gangs = m.gangs := rfl
@[simp] theorem Mach.setCluster_reqs (m : Mach) (k : Nat) (x : Cluster) : (m.setCluster k x).reqs = m.reqs := rfl
@[simp] theorem Mach.setCluster_cmds (m : Mach) (k : Nat) (x : Cluster) : (m.setCluster k x).cmds = m.cmds := rfl
@[simp] theorem Mach.setCluster_notices (m : Mach) (k : Nat) (x : Cluster) : (m.setCluster k x).notices = m.notices := rfl
@[simp] theorem Mach.setCluster_decs (m : Mach) (k : Nat) (x : Cluster) : (m.setCluster k x).decs = m.decs := rfl
@[simp] theorem Mach.setCluster_records (m : Mach) (k : Nat) (x : Cluster) : (m.setCluster k x).records = m.records := rfl
@[simp] theorem Mach.setCluster_ingests (m : Mach) (k : Nat) (x : Cluster) : (m.setCluster k x).ingests = m.ingests := rfl
@[simp] theorem Mach.setCluster_dev (m : Mach) (k : Nat) (x : Cluster) : (m.setCluster k x).dev = m.dev := rfl
@[simp] theorem Mach.setCluster_sid (m : Mach) (k : Nat) (x : Cluster) : (m.setCluster k x).sid = m.sid := rfl
@[simp] theorem Mach.setCluster_cyc (m : Mach) (k : Nat) (x : Cluster) : (m.setCluster k x).cyc = m.cyc := rfl
@[simp] theorem Mach.setCluster_cur (m : Mach) (k : Nat) (x : Cluster) : (m.setCluster k x).cur = m.cur := rfl
@[simp] theorem Mach.setCluster_nextId (m : Mach) (k : Nat) (x : Cluster) : (m.setCluster k x).nextId = m.nextId := rfl
@[simp] theorem Mach.setCluster_fresh (m : Mach) (k : Nat) (x : Cluster) : (m.setCluster k x).fresh = m.fresh := rfl
@[simp] theorem Mach.setCluster_hostOut (m : Mach) (k : Nat) (x : Cluster) : (m.setCluster k x).hostOut = m.hostOut := rfl
@[simp] theorem Mach.setCluster_agenda (m : Mach) (k : Nat) (x : Cluster) : (m.setCluster k x).agenda = m.agenda := rfl
@[simp] theorem Mach.slot_setCluster (m : Mach) (k : Nat) (x : Cluster) (j : Nat) : (m.setCluster k x).slot j = m.slot j := rfl
@[simp] theorem Mach.core_setCluster (m : Mach) (k : Nat) (x : Cluster) (j : Nat) : (m.setCluster k x).core j = m.core j := rfl
@[simp] theorem Mach.pair_setCluster (m : Mach) (k : Nat) (x : Cluster) (i j : Nat) : (m.setCluster k x).pair i j = m.pair i j := rfl
@[simp] theorem Mach.octet_setCluster (m : Mach) (k : Nat) (x : Cluster) (j : Nat) : (m.setCluster k x).octet j = m.octet j := rfl
@[simp] theorem Mach.die_setCluster (m : Mach) (k : Nat) (x : Cluster) (j : Nat) : (m.setCluster k x).die j = m.die j := rfl
@[simp] theorem Mach.slice_setCluster (m : Mach) (k : Nat) (x : Cluster) (j : Nat) : (m.setCluster k x).slice j = m.slice j := rfl
@[simp] theorem Mach.iodie_setCluster (m : Mach) (k : Nat) (x : Cluster) (j : Nat) : (m.setCluster k x).iodie j = m.iodie j := rfl
@[simp] theorem Mach.ctx_setCluster (m : Mach) (k : Nat) (x : Cluster) (j : Nat) : (m.setCluster k x).ctx j = m.ctx j := rfl
@[simp] theorem Mach.curCore_setCluster (m : Mach) (k : Nat) (x : Cluster)  : (m.setCluster k x).curCore  = m.curCore  := rfl

/-! ## Mach.setDie -/
@[simp] theorem Mach.setDie_mem (m : Mach) (k : Nat) (x : Die) : (m.setDie k x).mem = m.mem := rfl
@[simp] theorem Mach.setDie_spad (m : Mach) (k : Nat) (x : Die) : (m.setDie k x).spad = m.spad := rfl
@[simp] theorem Mach.setDie_poison (m : Mach) (k : Nat) (x : Die) : (m.setDie k x).poison = m.poison := rfl
@[simp] theorem Mach.setDie_spoison (m : Mach) (k : Nat) (x : Die) : (m.setDie k x).spoison = m.spoison := rfl
@[simp] theorem Mach.setDie_plantL2 (m : Mach) (k : Nat) (x : Die) : (m.setDie k x).plantL2 = m.plantL2 := rfl
@[simp] theorem Mach.setDie_plantHbm (m : Mach) (k : Nat) (x : Die) : (m.setDie k x).plantHbm = m.plantHbm := rfl
@[simp] theorem Mach.setDie_plantSp (m : Mach) (k : Nat) (x : Die) : (m.setDie k x).plantSp = m.plantSp := rfl
@[simp] theorem Mach.setDie_slots (m : Mach) (k : Nat) (x : Die) : (m.setDie k x).slots = m.slots := rfl
@[simp] theorem Mach.setDie_cores (m : Mach) (k : Nat) (x : Die) : (m.setDie k x).cores = m.cores := rfl
@[simp] theorem Mach.setDie_pairs (m : Mach) (k : Nat) (x : Die) : (m.setDie k x).pairs = m.pairs := rfl
@[simp] theorem Mach.setDie_octets (m : Mach) (k : Nat) (x : Die) : (m.setDie k x).octets = m.octets := rfl
@[simp] theorem Mach.setDie_clusters (m : Mach) (k : Nat) (x : Die) : (m.setDie k x).clusters = m.clusters := rfl
@[simp] theorem Mach.setDie_slices (m : Mach) (k : Nat) (x : Die) : (m.setDie k x).slices = m.slices := rfl
@[simp] theorem Mach.setDie_iodies (m : Mach) (k : Nat) (x : Die) : (m.setDie k x).iodies = m.iodies := rfl
@[simp] theorem Mach.setDie_ctxs (m : Mach) (k : Nat) (x : Die) : (m.setDie k x).ctxs = m.ctxs := rfl
@[simp] theorem Mach.setDie_gangs (m : Mach) (k : Nat) (x : Die) : (m.setDie k x).gangs = m.gangs := rfl
@[simp] theorem Mach.setDie_reqs (m : Mach) (k : Nat) (x : Die) : (m.setDie k x).reqs = m.reqs := rfl
@[simp] theorem Mach.setDie_cmds (m : Mach) (k : Nat) (x : Die) : (m.setDie k x).cmds = m.cmds := rfl
@[simp] theorem Mach.setDie_notices (m : Mach) (k : Nat) (x : Die) : (m.setDie k x).notices = m.notices := rfl
@[simp] theorem Mach.setDie_decs (m : Mach) (k : Nat) (x : Die) : (m.setDie k x).decs = m.decs := rfl
@[simp] theorem Mach.setDie_records (m : Mach) (k : Nat) (x : Die) : (m.setDie k x).records = m.records := rfl
@[simp] theorem Mach.setDie_ingests (m : Mach) (k : Nat) (x : Die) : (m.setDie k x).ingests = m.ingests := rfl
@[simp] theorem Mach.setDie_dev (m : Mach) (k : Nat) (x : Die) : (m.setDie k x).dev = m.dev := rfl
@[simp] theorem Mach.setDie_sid (m : Mach) (k : Nat) (x : Die) : (m.setDie k x).sid = m.sid := rfl
@[simp] theorem Mach.setDie_cyc (m : Mach) (k : Nat) (x : Die) : (m.setDie k x).cyc = m.cyc := rfl
@[simp] theorem Mach.setDie_cur (m : Mach) (k : Nat) (x : Die) : (m.setDie k x).cur = m.cur := rfl
@[simp] theorem Mach.setDie_nextId (m : Mach) (k : Nat) (x : Die) : (m.setDie k x).nextId = m.nextId := rfl
@[simp] theorem Mach.setDie_fresh (m : Mach) (k : Nat) (x : Die) : (m.setDie k x).fresh = m.fresh := rfl
@[simp] theorem Mach.setDie_hostOut (m : Mach) (k : Nat) (x : Die) : (m.setDie k x).hostOut = m.hostOut := rfl
@[simp] theorem Mach.setDie_agenda (m : Mach) (k : Nat) (x : Die) : (m.setDie k x).agenda = m.agenda := rfl
@[simp] theorem Mach.slot_setDie (m : Mach) (k : Nat) (x : Die) (j : Nat) : (m.setDie k x).slot j = m.slot j := rfl
@[simp] theorem Mach.core_setDie (m : Mach) (k : Nat) (x : Die) (j : Nat) : (m.setDie k x).core j = m.core j := rfl
@[simp] theorem Mach.pair_setDie (m : Mach) (k : Nat) (x : Die) (i j : Nat) : (m.setDie k x).pair i j = m.pair i j := rfl
@[simp] theorem Mach.octet_setDie (m : Mach) (k : Nat) (x : Die) (j : Nat) : (m.setDie k x).octet j = m.octet j := rfl
@[simp] theorem Mach.cluster_setDie (m : Mach) (k : Nat) (x : Die) (j : Nat) : (m.setDie k x).cluster j = m.cluster j := rfl
@[simp] theorem Mach.slice_setDie (m : Mach) (k : Nat) (x : Die) (j : Nat) : (m.setDie k x).slice j = m.slice j := rfl
@[simp] theorem Mach.iodie_setDie (m : Mach) (k : Nat) (x : Die) (j : Nat) : (m.setDie k x).iodie j = m.iodie j := rfl
@[simp] theorem Mach.ctx_setDie (m : Mach) (k : Nat) (x : Die) (j : Nat) : (m.setDie k x).ctx j = m.ctx j := rfl
@[simp] theorem Mach.curCore_setDie (m : Mach) (k : Nat) (x : Die)  : (m.setDie k x).curCore  = m.curCore  := rfl

/-! ## Mach.setSlice -/
@[simp] theorem Mach.setSlice_mem (m : Mach) (k : Nat) (x : Slice) : (m.setSlice k x).mem = m.mem := rfl
@[simp] theorem Mach.setSlice_spad (m : Mach) (k : Nat) (x : Slice) : (m.setSlice k x).spad = m.spad := rfl
@[simp] theorem Mach.setSlice_poison (m : Mach) (k : Nat) (x : Slice) : (m.setSlice k x).poison = m.poison := rfl
@[simp] theorem Mach.setSlice_spoison (m : Mach) (k : Nat) (x : Slice) : (m.setSlice k x).spoison = m.spoison := rfl
@[simp] theorem Mach.setSlice_plantL2 (m : Mach) (k : Nat) (x : Slice) : (m.setSlice k x).plantL2 = m.plantL2 := rfl
@[simp] theorem Mach.setSlice_plantHbm (m : Mach) (k : Nat) (x : Slice) : (m.setSlice k x).plantHbm = m.plantHbm := rfl
@[simp] theorem Mach.setSlice_plantSp (m : Mach) (k : Nat) (x : Slice) : (m.setSlice k x).plantSp = m.plantSp := rfl
@[simp] theorem Mach.setSlice_slots (m : Mach) (k : Nat) (x : Slice) : (m.setSlice k x).slots = m.slots := rfl
@[simp] theorem Mach.setSlice_cores (m : Mach) (k : Nat) (x : Slice) : (m.setSlice k x).cores = m.cores := rfl
@[simp] theorem Mach.setSlice_pairs (m : Mach) (k : Nat) (x : Slice) : (m.setSlice k x).pairs = m.pairs := rfl
@[simp] theorem Mach.setSlice_octets (m : Mach) (k : Nat) (x : Slice) : (m.setSlice k x).octets = m.octets := rfl
@[simp] theorem Mach.setSlice_clusters (m : Mach) (k : Nat) (x : Slice) : (m.setSlice k x).clusters = m.clusters := rfl
@[simp] theorem Mach.setSlice_dies (m : Mach) (k : Nat) (x : Slice) : (m.setSlice k x).dies = m.dies := rfl
@[simp] theorem Mach.setSlice_iodies (m : Mach) (k : Nat) (x : Slice) : (m.setSlice k x).iodies = m.iodies := rfl
@[simp] theorem Mach.setSlice_ctxs (m : Mach) (k : Nat) (x : Slice) : (m.setSlice k x).ctxs = m.ctxs := rfl
@[simp] theorem Mach.setSlice_gangs (m : Mach) (k : Nat) (x : Slice) : (m.setSlice k x).gangs = m.gangs := rfl
@[simp] theorem Mach.setSlice_reqs (m : Mach) (k : Nat) (x : Slice) : (m.setSlice k x).reqs = m.reqs := rfl
@[simp] theorem Mach.setSlice_cmds (m : Mach) (k : Nat) (x : Slice) : (m.setSlice k x).cmds = m.cmds := rfl
@[simp] theorem Mach.setSlice_notices (m : Mach) (k : Nat) (x : Slice) : (m.setSlice k x).notices = m.notices := rfl
@[simp] theorem Mach.setSlice_decs (m : Mach) (k : Nat) (x : Slice) : (m.setSlice k x).decs = m.decs := rfl
@[simp] theorem Mach.setSlice_records (m : Mach) (k : Nat) (x : Slice) : (m.setSlice k x).records = m.records := rfl
@[simp] theorem Mach.setSlice_ingests (m : Mach) (k : Nat) (x : Slice) : (m.setSlice k x).ingests = m.ingests := rfl
@[simp] theorem Mach.setSlice_dev (m : Mach) (k : Nat) (x : Slice) : (m.setSlice k x).dev = m.dev := rfl
@[simp] theorem Mach.setSlice_sid (m : Mach) (k : Nat) (x : Slice) : (m.setSlice k x).sid = m.sid := rfl
@[simp] theorem Mach.setSlice_cyc (m : Mach) (k : Nat) (x : Slice) : (m.setSlice k x).cyc = m.cyc := rfl
@[simp] theorem Mach.setSlice_cur (m : Mach) (k : Nat) (x : Slice) : (m.setSlice k x).cur = m.cur := rfl
@[simp] theorem Mach.setSlice_nextId (m : Mach) (k : Nat) (x : Slice) : (m.setSlice k x).nextId = m.nextId := rfl
@[simp] theorem Mach.setSlice_fresh (m : Mach) (k : Nat) (x : Slice) : (m.setSlice k x).fresh = m.fresh := rfl
@[simp] theorem Mach.setSlice_hostOut (m : Mach) (k : Nat) (x : Slice) : (m.setSlice k x).hostOut = m.hostOut := rfl
@[simp] theorem Mach.setSlice_agenda (m : Mach) (k : Nat) (x : Slice) : (m.setSlice k x).agenda = m.agenda := rfl
@[simp] theorem Mach.slot_setSlice (m : Mach) (k : Nat) (x : Slice) (j : Nat) : (m.setSlice k x).slot j = m.slot j := rfl
@[simp] theorem Mach.core_setSlice (m : Mach) (k : Nat) (x : Slice) (j : Nat) : (m.setSlice k x).core j = m.core j := rfl
@[simp] theorem Mach.pair_setSlice (m : Mach) (k : Nat) (x : Slice) (i j : Nat) : (m.setSlice k x).pair i j = m.pair i j := rfl
@[simp] theorem Mach.octet_setSlice (m : Mach) (k : Nat) (x : Slice) (j : Nat) : (m.setSlice k x).octet j = m.octet j := rfl
@[simp] theorem Mach.cluster_setSlice (m : Mach) (k : Nat) (x : Slice) (j : Nat) : (m.setSlice k x).cluster j = m.cluster j := rfl
@[simp] theorem Mach.die_setSlice (m : Mach) (k : Nat) (x : Slice) (j : Nat) : (m.setSlice k x).die j = m.die j := rfl
@[simp] theorem Mach.iodie_setSlice (m : Mach) (k : Nat) (x : Slice) (j : Nat) : (m.setSlice k x).iodie j = m.iodie j := rfl
@[simp] theorem Mach.ctx_setSlice (m : Mach) (k : Nat) (x : Slice) (j : Nat) : (m.setSlice k x).ctx j = m.ctx j := rfl
@[simp] theorem Mach.curCore_setSlice (m : Mach) (k : Nat) (x : Slice)  : (m.setSlice k x).curCore  = m.curCore  := rfl

/-! ## Mach.setIodie -/
@[simp] theorem Mach.setIodie_mem (m : Mach) (k : Nat) (x : IoDie) : (m.setIodie k x).mem = m.mem := rfl
@[simp] theorem Mach.setIodie_spad (m : Mach) (k : Nat) (x : IoDie) : (m.setIodie k x).spad = m.spad := rfl
@[simp] theorem Mach.setIodie_poison (m : Mach) (k : Nat) (x : IoDie) : (m.setIodie k x).poison = m.poison := rfl
@[simp] theorem Mach.setIodie_spoison (m : Mach) (k : Nat) (x : IoDie) : (m.setIodie k x).spoison = m.spoison := rfl
@[simp] theorem Mach.setIodie_plantL2 (m : Mach) (k : Nat) (x : IoDie) : (m.setIodie k x).plantL2 = m.plantL2 := rfl
@[simp] theorem Mach.setIodie_plantHbm (m : Mach) (k : Nat) (x : IoDie) : (m.setIodie k x).plantHbm = m.plantHbm := rfl
@[simp] theorem Mach.setIodie_plantSp (m : Mach) (k : Nat) (x : IoDie) : (m.setIodie k x).plantSp = m.plantSp := rfl
@[simp] theorem Mach.setIodie_slots (m : Mach) (k : Nat) (x : IoDie) : (m.setIodie k x).slots = m.slots := rfl
@[simp] theorem Mach.setIodie_cores (m : Mach) (k : Nat) (x : IoDie) : (m.setIodie k x).cores = m.cores := rfl
@[simp] theorem Mach.setIodie_pairs (m : Mach) (k : Nat) (x : IoDie) : (m.setIodie k x).pairs = m.pairs := rfl
@[simp] theorem Mach.setIodie_octets (m : Mach) (k : Nat) (x : IoDie) : (m.setIodie k x).octets = m.octets := rfl
@[simp] theorem Mach.setIodie_clusters (m : Mach) (k : Nat) (x : IoDie) : (m.setIodie k x).clusters = m.clusters := rfl
@[simp] theorem Mach.setIodie_dies (m : Mach) (k : Nat) (x : IoDie) : (m.setIodie k x).dies = m.dies := rfl
@[simp] theorem Mach.setIodie_slices (m : Mach) (k : Nat) (x : IoDie) : (m.setIodie k x).slices = m.slices := rfl
@[simp] theorem Mach.setIodie_ctxs (m : Mach) (k : Nat) (x : IoDie) : (m.setIodie k x).ctxs = m.ctxs := rfl
@[simp] theorem Mach.setIodie_gangs (m : Mach) (k : Nat) (x : IoDie) : (m.setIodie k x).gangs = m.gangs := rfl
@[simp] theorem Mach.setIodie_reqs (m : Mach) (k : Nat) (x : IoDie) : (m.setIodie k x).reqs = m.reqs := rfl
@[simp] theorem Mach.setIodie_cmds (m : Mach) (k : Nat) (x : IoDie) : (m.setIodie k x).cmds = m.cmds := rfl
@[simp] theorem Mach.setIodie_notices (m : Mach) (k : Nat) (x : IoDie) : (m.setIodie k x).notices = m.notices := rfl
@[simp] theorem Mach.setIodie_decs (m : Mach) (k : Nat) (x : IoDie) : (m.setIodie k x).decs = m.decs := rfl
@[simp] theorem Mach.setIodie_records (m : Mach) (k : Nat) (x : IoDie) : (m.setIodie k x).records = m.records := rfl
@[simp] theorem Mach.setIodie_ingests (m : Mach) (k : Nat) (x : IoDie) : (m.setIodie k x).ingests = m.ingests := rfl
@[simp] theorem Mach.setIodie_dev (m : Mach) (k : Nat) (x : IoDie) : (m.setIodie k x).dev = m.dev := rfl
@[simp] theorem Mach.setIodie_sid (m : Mach) (k : Nat) (x : IoDie) : (m.setIodie k x).sid = m.sid := rfl
@[simp] theorem Mach.setIodie_cyc (m : Mach) (k : Nat) (x : IoDie) : (m.setIodie k x).cyc = m.cyc := rfl
@[simp] theorem Mach.setIodie_cur (m : Mach) (k : Nat) (x : IoDie) : (m.setIodie k x).cur = m.cur := rfl
@[simp] theorem Mach.setIodie_nextId (m : Mach) (k : Nat) (x : IoDie) : (m.setIodie k x).nextId = m.nextId := rfl
@[simp] theorem Mach.setIodie_fresh (m : Mach) (k : Nat) (x : IoDie) : (m.setIodie k x).fresh = m.fresh := rfl
@[simp] theorem Mach.setIodie_hostOut (m : Mach) (k : Nat) (x : IoDie) : (m.setIodie k x).hostOut = m.hostOut := rfl
@[simp] theorem Mach.setIodie_agenda (m : Mach) (k : Nat) (x : IoDie) : (m.setIodie k x).agenda = m.agenda := rfl
@[simp] theorem Mach.slot_setIodie (m : Mach) (k : Nat) (x : IoDie) (j : Nat) : (m.setIodie k x).slot j = m.slot j := rfl
@[simp] theorem Mach.core_setIodie (m : Mach) (k : Nat) (x : IoDie) (j : Nat) : (m.setIodie k x).core j = m.core j := rfl
@[simp] theorem Mach.pair_setIodie (m : Mach) (k : Nat) (x : IoDie) (i j : Nat) : (m.setIodie k x).pair i j = m.pair i j := rfl
@[simp] theorem Mach.octet_setIodie (m : Mach) (k : Nat) (x : IoDie) (j : Nat) : (m.setIodie k x).octet j = m.octet j := rfl
@[simp] theorem Mach.cluster_setIodie (m : Mach) (k : Nat) (x : IoDie) (j : Nat) : (m.setIodie k x).cluster j = m.cluster j := rfl
@[simp] theorem Mach.die_setIodie (m : Mach) (k : Nat) (x : IoDie) (j : Nat) : (m.setIodie k x).die j = m.die j := rfl
@[simp] theorem Mach.slice_setIodie (m : Mach) (k : Nat) (x : IoDie) (j : Nat) : (m.setIodie k x).slice j = m.slice j := rfl
@[simp] theorem Mach.ctx_setIodie (m : Mach) (k : Nat) (x : IoDie) (j : Nat) : (m.setIodie k x).ctx j = m.ctx j := rfl
@[simp] theorem Mach.curCore_setIodie (m : Mach) (k : Nat) (x : IoDie)  : (m.setIodie k x).curCore  = m.curCore  := rfl

/-! ## Mach.setCtx -/
@[simp] theorem Mach.setCtx_mem (m : Mach) (k : Nat) (x : Ctx) : (m.setCtx k x).mem = m.mem := rfl
@[simp] theorem Mach.setCtx_spad (m : Mach) (k : Nat) (x : Ctx) : (m.setCtx k x).spad = m.spad := rfl
@[simp] theorem Mach.setCtx_poison (m : Mach) (k : Nat) (x : Ctx) : (m.setCtx k x).poison = m.poison := rfl
@[simp] theorem Mach.setCtx_spoison (m : Mach) (k : Nat) (x : Ctx) : (m.setCtx k x).spoison = m.spoison := rfl
@[simp] theorem Mach.setCtx_plantL2 (m : Mach) (k : Nat) (x : Ctx) : (m.setCtx k x).plantL2 = m.plantL2 := rfl
@[simp] theorem Mach.setCtx_plantHbm (m : Mach) (k : Nat) (x : Ctx) : (m.setCtx k x).plantHbm = m.plantHbm := rfl
@[simp] theorem Mach.setCtx_plantSp (m : Mach) (k : Nat) (x : Ctx) : (m.setCtx k x).plantSp = m.plantSp := rfl
@[simp] theorem Mach.setCtx_slots (m : Mach) (k : Nat) (x : Ctx) : (m.setCtx k x).slots = m.slots := rfl
@[simp] theorem Mach.setCtx_cores (m : Mach) (k : Nat) (x : Ctx) : (m.setCtx k x).cores = m.cores := rfl
@[simp] theorem Mach.setCtx_pairs (m : Mach) (k : Nat) (x : Ctx) : (m.setCtx k x).pairs = m.pairs := rfl
@[simp] theorem Mach.setCtx_octets (m : Mach) (k : Nat) (x : Ctx) : (m.setCtx k x).octets = m.octets := rfl
@[simp] theorem Mach.setCtx_clusters (m : Mach) (k : Nat) (x : Ctx) : (m.setCtx k x).clusters = m.clusters := rfl
@[simp] theorem Mach.setCtx_dies (m : Mach) (k : Nat) (x : Ctx) : (m.setCtx k x).dies = m.dies := rfl
@[simp] theorem Mach.setCtx_slices (m : Mach) (k : Nat) (x : Ctx) : (m.setCtx k x).slices = m.slices := rfl
@[simp] theorem Mach.setCtx_iodies (m : Mach) (k : Nat) (x : Ctx) : (m.setCtx k x).iodies = m.iodies := rfl
@[simp] theorem Mach.setCtx_gangs (m : Mach) (k : Nat) (x : Ctx) : (m.setCtx k x).gangs = m.gangs := rfl
@[simp] theorem Mach.setCtx_reqs (m : Mach) (k : Nat) (x : Ctx) : (m.setCtx k x).reqs = m.reqs := rfl
@[simp] theorem Mach.setCtx_cmds (m : Mach) (k : Nat) (x : Ctx) : (m.setCtx k x).cmds = m.cmds := rfl
@[simp] theorem Mach.setCtx_notices (m : Mach) (k : Nat) (x : Ctx) : (m.setCtx k x).notices = m.notices := rfl
@[simp] theorem Mach.setCtx_decs (m : Mach) (k : Nat) (x : Ctx) : (m.setCtx k x).decs = m.decs := rfl
@[simp] theorem Mach.setCtx_records (m : Mach) (k : Nat) (x : Ctx) : (m.setCtx k x).records = m.records := rfl
@[simp] theorem Mach.setCtx_ingests (m : Mach) (k : Nat) (x : Ctx) : (m.setCtx k x).ingests = m.ingests := rfl
@[simp] theorem Mach.setCtx_dev (m : Mach) (k : Nat) (x : Ctx) : (m.setCtx k x).dev = m.dev := rfl
@[simp] theorem Mach.setCtx_sid (m : Mach) (k : Nat) (x : Ctx) : (m.setCtx k x).sid = m.sid := rfl
@[simp] theorem Mach.setCtx_cyc (m : Mach) (k : Nat) (x : Ctx) : (m.setCtx k x).cyc = m.cyc := rfl
@[simp] theorem Mach.setCtx_cur (m : Mach) (k : Nat) (x : Ctx) : (m.setCtx k x).cur = m.cur := rfl
@[simp] theorem Mach.setCtx_nextId (m : Mach) (k : Nat) (x : Ctx) : (m.setCtx k x).nextId = m.nextId := rfl
@[simp] theorem Mach.setCtx_fresh (m : Mach) (k : Nat) (x : Ctx) : (m.setCtx k x).fresh = m.fresh := rfl
@[simp] theorem Mach.setCtx_hostOut (m : Mach) (k : Nat) (x : Ctx) : (m.setCtx k x).hostOut = m.hostOut := rfl
@[simp] theorem Mach.setCtx_agenda (m : Mach) (k : Nat) (x : Ctx) : (m.setCtx k x).agenda = m.agenda := rfl
@[simp] theorem Mach.slot_setCtx (m : Mach) (k : Nat) (x : Ctx) (j : Nat) : (m.setCtx k x).slot j = m.slot j := rfl
@[simp] theorem Mach.core_setCtx (m : Mach) (k : Nat) (x : Ctx) (j : Nat) : (m.setCtx k x).core j = m.core j := rfl
@[simp] theorem Mach.pair_setCtx (m : Mach) (k : Nat) (x : Ctx) (i j : Nat) : (m.setCtx k x).pair i j = m.pair i j := rfl
@[simp] theorem Mach.octet_setCtx (m : Mach) (k : Nat) (x : Ctx) (j : Nat) : (m.setCtx k x).octet j = m.octet j := rfl
@[simp] theorem Mach.cluster_setCtx (m : Mach) (k : Nat) (x : Ctx) (j : Nat) : (m.setCtx k x).cluster j = m.cluster j := rfl
@[simp] theorem Mach.die_setCtx (m : Mach) (k : Nat) (x : Ctx) (j : Nat) : (m.setCtx k x).die j = m.die j := rfl
@[simp] theorem Mach.slice_setCtx (m : Mach) (k : Nat) (x : Ctx) (j : Nat) : (m.setCtx k x).slice j = m.slice j := rfl
@[simp] theorem Mach.iodie_setCtx (m : Mach) (k : Nat) (x : Ctx) (j : Nat) : (m.setCtx k x).iodie j = m.iodie j := rfl
@[simp] theorem Mach.curCore_setCtx (m : Mach) (k : Nat) (x : Ctx)  : (m.setCtx k x).curCore  = m.curCore  := rfl

/-! ## Mach.updCtx -/
@[simp] theorem Mach.updCtx_mem (m : Mach) (k : Nat) (f : Ctx → Ctx) : (m.updCtx k f).mem = m.mem := rfl
@[simp] theorem Mach.updCtx_spad (m : Mach) (k : Nat) (f : Ctx → Ctx) : (m.updCtx k f).spad = m.spad := rfl
@[simp] theorem Mach.updCtx_poison (m : Mach) (k : Nat) (f : Ctx → Ctx) : (m.updCtx k f).poison = m.poison := rfl
@[simp] theorem Mach.updCtx_spoison (m : Mach) (k : Nat) (f : Ctx → Ctx) : (m.updCtx k f).spoison = m.spoison := rfl
@[simp] theorem Mach.updCtx_plantL2 (m : Mach) (k : Nat) (f : Ctx → Ctx) : (m.updCtx k f).plantL2 = m.plantL2 := rfl
@[simp] theorem Mach.updCtx_plantHbm (m : Mach) (k : Nat) (f : Ctx → Ctx) : (m.updCtx k f).plantHbm = m.plantHbm := rfl
@[simp] theorem Mach.updCtx_plantSp (m : Mach) (k : Nat) (f : Ctx → Ctx) : (m.updCtx k f).plantSp = m.plantSp := rfl
@[simp] theorem Mach.updCtx_slots (m : Mach) (k : Nat) (f : Ctx → Ctx) : (m.updCtx k f).slots = m.slots := rfl
@[simp] theorem Mach.updCtx_cores (m : Mach) (k : Nat) (f : Ctx → Ctx) : (m.updCtx k f).cores = m.cores := rfl
@[simp] theorem Mach.updCtx_pairs (m : Mach) (k : Nat) (f : Ctx → Ctx) : (m.updCtx k f).pairs = m.pairs := rfl
@[simp] theorem Mach.updCtx_octets (m : Mach) (k : Nat) (f : Ctx → Ctx) : (m.updCtx k f).octets = m.octets := rfl
@[simp] theorem Mach.updCtx_clusters (m : Mach) (k : Nat) (f : Ctx → Ctx) : (m.updCtx k f).clusters = m.clusters := rfl
@[simp] theorem Mach.updCtx_dies (m : Mach) (k : Nat) (f : Ctx → Ctx) : (m.updCtx k f).dies = m.dies := rfl
@[simp] theorem Mach.updCtx_slices (m : Mach) (k : Nat) (f : Ctx → Ctx) : (m.updCtx k f).slices = m.slices := rfl
@[simp] theorem Mach.updCtx_iodies (m : Mach) (k : Nat) (f : Ctx → Ctx) : (m.updCtx k f).iodies = m.iodies := rfl
@[simp] theorem Mach.updCtx_gangs (m : Mach) (k : Nat) (f : Ctx → Ctx) : (m.updCtx k f).gangs = m.gangs := rfl
@[simp] theorem Mach.updCtx_reqs (m : Mach) (k : Nat) (f : Ctx → Ctx) : (m.updCtx k f).reqs = m.reqs := rfl
@[simp] theorem Mach.updCtx_cmds (m : Mach) (k : Nat) (f : Ctx → Ctx) : (m.updCtx k f).cmds = m.cmds := rfl
@[simp] theorem Mach.updCtx_notices (m : Mach) (k : Nat) (f : Ctx → Ctx) : (m.updCtx k f).notices = m.notices := rfl
@[simp] theorem Mach.updCtx_decs (m : Mach) (k : Nat) (f : Ctx → Ctx) : (m.updCtx k f).decs = m.decs := rfl
@[simp] theorem Mach.updCtx_records (m : Mach) (k : Nat) (f : Ctx → Ctx) : (m.updCtx k f).records = m.records := rfl
@[simp] theorem Mach.updCtx_ingests (m : Mach) (k : Nat) (f : Ctx → Ctx) : (m.updCtx k f).ingests = m.ingests := rfl
@[simp] theorem Mach.updCtx_dev (m : Mach) (k : Nat) (f : Ctx → Ctx) : (m.updCtx k f).dev = m.dev := rfl
@[simp] theorem Mach.updCtx_sid (m : Mach) (k : Nat) (f : Ctx → Ctx) : (m.updCtx k f).sid = m.sid := rfl
@[simp] theorem Mach.updCtx_cyc (m : Mach) (k : Nat) (f : Ctx → Ctx) : (m.updCtx k f).cyc = m.cyc := rfl
@[simp] theorem Mach.updCtx_cur (m : Mach) (k : Nat) (f : Ctx → Ctx) : (m.updCtx k f).cur = m.cur := rfl
@[simp] theorem Mach.updCtx_nextId (m : Mach) (k : Nat) (f : Ctx → Ctx) : (m.updCtx k f).nextId = m.nextId := rfl
@[simp] theorem Mach.updCtx_fresh (m : Mach) (k : Nat) (f : Ctx → Ctx) : (m.updCtx k f).fresh = m.fresh := rfl
@[simp] theorem Mach.updCtx_hostOut (m : Mach) (k : Nat) (f : Ctx → Ctx) : (m.updCtx k f).hostOut = m.hostOut := rfl
@[simp] theorem Mach.updCtx_agenda (m : Mach) (k : Nat) (f : Ctx → Ctx) : (m.updCtx k f).agenda = m.agenda := rfl
@[simp] theorem Mach.slot_updCtx (m : Mach) (k : Nat) (f : Ctx → Ctx) (j : Nat) : (m.updCtx k f).slot j = m.slot j := rfl
@[simp] theorem Mach.core_updCtx (m : Mach) (k : Nat) (f : Ctx → Ctx) (j : Nat) : (m.updCtx k f).core j = m.core j := rfl
@[simp] theorem Mach.pair_updCtx (m : Mach) (k : Nat) (f : Ctx → Ctx) (i j : Nat) : (m.updCtx k f).pair i j = m.pair i j := rfl
@[simp] theorem Mach.octet_updCtx (m : Mach) (k : Nat) (f : Ctx → Ctx) (j : Nat) : (m.updCtx k f).octet j = m.octet j := rfl
@[simp] theorem Mach.cluster_updCtx (m : Mach) (k : Nat) (f : Ctx → Ctx) (j : Nat) : (m.updCtx k f).cluster j = m.cluster j := rfl
@[simp] theorem Mach.die_updCtx (m : Mach) (k : Nat) (f : Ctx → Ctx) (j : Nat) : (m.updCtx k f).die j = m.die j := rfl
@[simp] theorem Mach.slice_updCtx (m : Mach) (k : Nat) (f : Ctx → Ctx) (j : Nat) : (m.updCtx k f).slice j = m.slice j := rfl
@[simp] theorem Mach.iodie_updCtx (m : Mach) (k : Nat) (f : Ctx → Ctx) (j : Nat) : (m.updCtx k f).iodie j = m.iodie j := rfl
@[simp] theorem Mach.curCore_updCtx (m : Mach) (k : Nat) (f : Ctx → Ctx)  : (m.updCtx k f).curCore  = m.curCore  := rfl

/-! ## Slot.settle -/
@[simp] theorem Slot.settle_run (s : Slot)  : (s.settle ).run = s.run := rfl
@[simp] theorem Slot.settle_ctx (s : Slot)  : (s.settle ).ctx = s.ctx := rfl
@[simp] theorem Slot.settle_il (s : Slot)  : (s.settle ).il = s.il := rfl
@[simp] theorem Slot.settle_pc (s : Slot)  : (s.settle ).pc = s.pc := rfl
@[simp] theorem Slot.settle_n (s : Slot)  : (s.settle ).n = s.n := rfl
@[simp] theorem Slot.settle_view (s : Slot)  : (s.settle ).view = s.view := rfl
@[simp] theorem Slot.settle_grantP (s : Slot)  : (s.settle ).grantP = s.grantP := rfl
@[simp] theorem Slot.settle_grantN (s : Slot)  : (s.settle ).grantN = s.grantN := rfl
@[simp] theorem Slot.settle_grantReq (s : Slot)  : (s.settle ).grantReq = s.grantReq := rfl
@[simp] theorem Slot.settle_streams (s : Slot)  : (s.settle ).streams = s.streams := rfl
@[simp] theorem Slot.settle_schk (s : Slot)  : (s.settle ).schk = s.schk := rfl
@[simp] theorem Slot.settle_tvec (s : Slot)  : (s.settle ).tvec = s.tvec := rfl
@[simp] theorem Slot.settle_tcause (s : Slot)  : (s.settle ).tcause = s.tcause := rfl
@[simp] theorem Slot.settle_tret (s : Slot)  : (s.settle ).tret = s.tret := rfl
@[simp] theorem Slot.settle_tval (s : Slot)  : (s.settle ).tval = s.tval := rfl
@[simp] theorem Slot.settle_inh (s : Slot)  : (s.settle ).inh = s.inh := rfl
@[simp] theorem Slot.settle_ts0 (s : Slot)  : (s.settle ).ts0 = s.ts0 := rfl
@[simp] theorem Slot.settle_ts1 (s : Slot)  : (s.settle ).ts1 = s.ts1 := rfl
@[simp] theorem Slot.settle_saved (s : Slot)  : (s.settle ).saved = s.saved := rfl
@[simp] theorem Slot.settle_written (s : Slot)  : (s.settle ).written = s.written := rfl
@[simp] theorem Slot.settle_ocLd (s : Slot)  : (s.settle ).ocLd = s.ocLd := rfl
@[simp] theorem Slot.settle_ocSt (s : Slot)  : (s.settle ).ocSt = s.ocSt := rfl
@[simp] theorem Slot.settle_ocAt (s : Slot)  : (s.settle ).ocAt = s.ocAt := rfl
@[simp] theorem Slot.settle_ocLw (s : Slot)  : (s.settle ).ocLw = s.ocLw := rfl
@[simp] theorem Slot.settle_tl (s : Slot)  : (s.settle ).tl = s.tl := rfl
@[simp] theorem Slot.settle_look (s : Slot)  : (s.settle ).look = s.look := rfl
@[simp] theorem Slot.settle_parked (s : Slot)  : (s.settle ).parked = s.parked := rfl
@[simp] theorem Slot.settle_wait (s : Slot)  : (s.settle ).wait = s.wait := rfl
@[simp] theorem Slot.settle_rep (s : Slot)  : (s.settle ).rep = s.rep := rfl
@[simp] theorem Slot.settle_mid (s : Slot)  : (s.settle ).mid = s.mid := rfl
@[simp] theorem Slot.settle_got (s : Slot)  : (s.settle ).got = s.got := rfl
@[simp] theorem Slot.settle_latch (s : Slot)  : (s.settle ).latch = s.latch := rfl
@[simp] theorem Slot.settle_comet (s : Slot)  : (s.settle ).comet = s.comet := rfl
@[simp] theorem Slot.settle_task (s : Slot)  : (s.settle ).task = s.task := rfl
@[simp] theorem Slot.settle_next (s : Slot)  : (s.settle ).next = s.next := rfl
@[simp] theorem Slot.settle_nextStolen (s : Slot)  : (s.settle ).nextStolen = s.nextStolen := rfl
@[simp] theorem Slot.settle_taskh (s : Slot)  : (s.settle ).taskh = s.taskh := rfl
@[simp] theorem Slot.settle_level (s : Slot)  : (s.settle ).level = s.level := rfl
@[simp] theorem Slot.settle_ceil (s : Slot)  : (s.settle ).ceil = s.ceil := rfl
@[simp] theorem Slot.settle_cfgCeil (s : Slot)  : (s.settle ).cfgCeil = s.cfgCeil := rfl
@[simp] theorem Slot.settle_enabled (s : Slot)  : (s.settle ).enabled = s.enabled := rfl
@[simp] theorem Slot.settle_cfgNext (s : Slot)  : (s.settle ).cfgNext = s.cfgNext := rfl
@[simp] theorem Slot.settle_age (s : Slot)  : (s.settle ).age = s.age := rfl
@[simp] theorem Slot.settle_boost (s : Slot)  : (s.settle ).boost = s.boost := rfl
@[simp] theorem Slot.settle_stamp (s : Slot)  : (s.settle ).stamp = s.stamp := rfl
@[simp] theorem Slot.settle_deque (s : Slot)  : (s.settle ).deque = s.deque := rfl
@[simp] theorem Slot.settle_spillHead (s : Slot)  : (s.settle ).spillHead = s.spillHead := rfl
@[simp] theorem Slot.settle_spillCnt (s : Slot)  : (s.settle ).spillCnt = s.spillCnt := rfl
@[simp] theorem Slot.settle_spilled (s : Slot)  : (s.settle ).spilled = s.spilled := rfl
@[simp] theorem Slot.settle_dqring (s : Slot)  : (s.settle ).dqring = s.dqring := rfl
@[simp] theorem Slot.settle_steald (s : Slot)  : (s.settle ).steald = s.steald := rfl
@[simp] theorem Slot.settle_round (s : Slot)  : (s.settle ).round = s.round := rfl
@[simp] theorem Slot.settle_stealOk (s : Slot)  : (s.settle ).stealOk = s.stealOk := rfl
@[simp] theorem Slot.settle_stealEmpty (s : Slot)  : (s.settle ).stealEmpty = s.stealEmpty := rfl
@[simp] theorem Slot.settle_victims (s : Slot)  : (s.settle ).victims = s.victims := rfl
@[simp] theorem Slot.settle_backoff (s : Slot)  : (s.settle ).backoff = s.backoff := rfl
@[simp] theorem Slot.settle_aside (s : Slot)  : (s.settle ).aside = s.aside := rfl
@[simp] theorem Slot.settle_evq (s : Slot)  : (s.settle ).evq = s.evq := rfl
@[simp] theorem Slot.settle_evring (s : Slot)  : (s.settle ).evring = s.evring := rfl
@[simp] theorem Slot.settle_rq (s : Slot)  : (s.settle ).rq = s.rq := rfl
@[simp] theorem Slot.settle_rqHead (s : Slot)  : (s.settle ).rqHead = s.rqHead := rfl
@[simp] theorem Slot.settle_drop (s : Slot)  : (s.settle ).drop = s.drop := rfl
@[simp] theorem Slot.settle_ovf (s : Slot)  : (s.settle ).ovf = s.ovf := rfl
@[simp] theorem Slot.settle_pmsel (s : Slot)  : (s.settle ).pmsel = s.pmsel := rfl
@[simp] theorem Slot.settle_pmc (s : Slot)  : (s.settle ).pmc = s.pmc := rfl
@[simp] theorem Slot.settle_smv (s : Slot)  : (s.settle ).smv = s.smv := rfl
@[simp] theorem Slot.settle_hcSent (s : Slot)  : (s.settle ).hcSent = s.hcSent := rfl
@[simp] theorem Slot.settle_hcReply (s : Slot)  : (s.settle ).hcReply = s.hcReply := rfl
@[simp] theorem Slot.settle_cycles (s : Slot)  : (s.settle ).cycles = s.cycles := rfl
@[simp] theorem Slot.settle_owned (s : Slot)  : (s.settle ).owned = s.owned := rfl
@[simp] theorem Slot.settle_ir (s : Slot)  : (s.settle ).ir = s.ir := rfl

/-! ## Slot.atIssue -/
@[simp] theorem Slot.atIssue_run (s : Slot)  : (s.atIssue ).run = s.run := rfl
@[simp] theorem Slot.atIssue_ctx (s : Slot)  : (s.atIssue ).ctx = s.ctx := rfl
@[simp] theorem Slot.atIssue_il (s : Slot)  : (s.atIssue ).il = s.il := rfl
@[simp] theorem Slot.atIssue_pc (s : Slot)  : (s.atIssue ).pc = s.pc := rfl
@[simp] theorem Slot.atIssue_n (s : Slot)  : (s.atIssue ).n = s.n := rfl
@[simp] theorem Slot.atIssue_view (s : Slot)  : (s.atIssue ).view = s.view := rfl
@[simp] theorem Slot.atIssue_grantP (s : Slot)  : (s.atIssue ).grantP = s.grantP := rfl
@[simp] theorem Slot.atIssue_grantN (s : Slot)  : (s.atIssue ).grantN = s.grantN := rfl
@[simp] theorem Slot.atIssue_grantReq (s : Slot)  : (s.atIssue ).grantReq = s.grantReq := rfl
@[simp] theorem Slot.atIssue_streams (s : Slot)  : (s.atIssue ).streams = s.streams := rfl
@[simp] theorem Slot.atIssue_schk (s : Slot)  : (s.atIssue ).schk = s.schk := rfl
@[simp] theorem Slot.atIssue_tvec (s : Slot)  : (s.atIssue ).tvec = s.tvec := rfl
@[simp] theorem Slot.atIssue_tcause (s : Slot)  : (s.atIssue ).tcause = s.tcause := rfl
@[simp] theorem Slot.atIssue_tret (s : Slot)  : (s.atIssue ).tret = s.tret := rfl
@[simp] theorem Slot.atIssue_tval (s : Slot)  : (s.atIssue ).tval = s.tval := rfl
@[simp] theorem Slot.atIssue_inh (s : Slot)  : (s.atIssue ).inh = s.inh := rfl
@[simp] theorem Slot.atIssue_ts0 (s : Slot)  : (s.atIssue ).ts0 = s.ts0 := rfl
@[simp] theorem Slot.atIssue_ts1 (s : Slot)  : (s.atIssue ).ts1 = s.ts1 := rfl
@[simp] theorem Slot.atIssue_saved (s : Slot)  : (s.atIssue ).saved = s.saved := rfl
@[simp] theorem Slot.atIssue_written (s : Slot)  : (s.atIssue ).written = s.written := rfl
@[simp] theorem Slot.atIssue_ocLd (s : Slot)  : (s.atIssue ).ocLd = s.ocLd := rfl
@[simp] theorem Slot.atIssue_ocSt (s : Slot)  : (s.atIssue ).ocSt = s.ocSt := rfl
@[simp] theorem Slot.atIssue_ocAt (s : Slot)  : (s.atIssue ).ocAt = s.ocAt := rfl
@[simp] theorem Slot.atIssue_ocLw (s : Slot)  : (s.atIssue ).ocLw = s.ocLw := rfl
@[simp] theorem Slot.atIssue_tl (s : Slot)  : (s.atIssue ).tl = s.tl := rfl
@[simp] theorem Slot.atIssue_rep (s : Slot)  : (s.atIssue ).rep = s.rep := rfl
@[simp] theorem Slot.atIssue_mid (s : Slot)  : (s.atIssue ).mid = s.mid := rfl
@[simp] theorem Slot.atIssue_got (s : Slot)  : (s.atIssue ).got = s.got := rfl
@[simp] theorem Slot.atIssue_latch (s : Slot)  : (s.atIssue ).latch = s.latch := rfl
@[simp] theorem Slot.atIssue_comet (s : Slot)  : (s.atIssue ).comet = s.comet := rfl
@[simp] theorem Slot.atIssue_task (s : Slot)  : (s.atIssue ).task = s.task := rfl
@[simp] theorem Slot.atIssue_next (s : Slot)  : (s.atIssue ).next = s.next := rfl
@[simp] theorem Slot.atIssue_nextStolen (s : Slot)  : (s.atIssue ).nextStolen = s.nextStolen := rfl
@[simp] theorem Slot.atIssue_taskh (s : Slot)  : (s.atIssue ).taskh = s.taskh := rfl
@[simp] theorem Slot.atIssue_level (s : Slot)  : (s.atIssue ).level = s.level := rfl
@[simp] theorem Slot.atIssue_ceil (s : Slot)  : (s.atIssue ).ceil = s.ceil := rfl
@[simp] theorem Slot.atIssue_cfgCeil (s : Slot)  : (s.atIssue ).cfgCeil = s.cfgCeil := rfl
@[simp] theorem Slot.atIssue_enabled (s : Slot)  : (s.atIssue ).enabled = s.enabled := rfl
@[simp] theorem Slot.atIssue_cfgNext (s : Slot)  : (s.atIssue ).cfgNext = s.cfgNext := rfl
@[simp] theorem Slot.atIssue_age (s : Slot)  : (s.atIssue ).age = s.age := rfl
@[simp] theorem Slot.atIssue_boost (s : Slot)  : (s.atIssue ).boost = s.boost := rfl
@[simp] theorem Slot.atIssue_stamp (s : Slot)  : (s.atIssue ).stamp = s.stamp := rfl
@[simp] theorem Slot.atIssue_deque (s : Slot)  : (s.atIssue ).deque = s.deque := rfl
@[simp] theorem Slot.atIssue_spillHead (s : Slot)  : (s.atIssue ).spillHead = s.spillHead := rfl
@[simp] theorem Slot.atIssue_spillCnt (s : Slot)  : (s.atIssue ).spillCnt = s.spillCnt := rfl
@[simp] theorem Slot.atIssue_spilled (s : Slot)  : (s.atIssue ).spilled = s.spilled := rfl
@[simp] theorem Slot.atIssue_dqring (s : Slot)  : (s.atIssue ).dqring = s.dqring := rfl
@[simp] theorem Slot.atIssue_steald (s : Slot)  : (s.atIssue ).steald = s.steald := rfl
@[simp] theorem Slot.atIssue_round (s : Slot)  : (s.atIssue ).round = s.round := rfl
@[simp] theorem Slot.atIssue_stealOk (s : Slot)  : (s.atIssue ).stealOk = s.stealOk := rfl
@[simp] theorem Slot.atIssue_stealEmpty (s : Slot)  : (s.atIssue ).stealEmpty = s.stealEmpty := rfl
@[simp] theorem Slot.atIssue_victims (s : Slot)  : (s.atIssue ).victims = s.victims := rfl
@[simp] theorem Slot.atIssue_backoff (s : Slot)  : (s.atIssue ).backoff = s.backoff := rfl
@[simp] theorem Slot.atIssue_aside (s : Slot)  : (s.atIssue ).aside = s.aside := rfl
@[simp] theorem Slot.atIssue_evq (s : Slot)  : (s.atIssue ).evq = s.evq := rfl
@[simp] theorem Slot.atIssue_evring (s : Slot)  : (s.atIssue ).evring = s.evring := rfl
@[simp] theorem Slot.atIssue_rq (s : Slot)  : (s.atIssue ).rq = s.rq := rfl
@[simp] theorem Slot.atIssue_rqHead (s : Slot)  : (s.atIssue ).rqHead = s.rqHead := rfl
@[simp] theorem Slot.atIssue_drop (s : Slot)  : (s.atIssue ).drop = s.drop := rfl
@[simp] theorem Slot.atIssue_ovf (s : Slot)  : (s.atIssue ).ovf = s.ovf := rfl
@[simp] theorem Slot.atIssue_pmsel (s : Slot)  : (s.atIssue ).pmsel = s.pmsel := rfl
@[simp] theorem Slot.atIssue_pmc (s : Slot)  : (s.atIssue ).pmc = s.pmc := rfl
@[simp] theorem Slot.atIssue_smv (s : Slot)  : (s.atIssue ).smv = s.smv := rfl
@[simp] theorem Slot.atIssue_hcSent (s : Slot)  : (s.atIssue ).hcSent = s.hcSent := rfl
@[simp] theorem Slot.atIssue_hcReply (s : Slot)  : (s.atIssue ).hcReply = s.hcReply := rfl
@[simp] theorem Slot.atIssue_cycles (s : Slot)  : (s.atIssue ).cycles = s.cycles := rfl
@[simp] theorem Slot.atIssue_owned (s : Slot)  : (s.atIssue ).owned = s.owned := rfl
@[simp] theorem Slot.atIssue_ir (s : Slot)  : (s.atIssue ).ir = s.ir := rfl

/-! ## Slot.note -/
@[simp] theorem Slot.note_run (s : Slot) (l : List Nat) : (s.note l).run = s.run := by unfold Slot.note; split <;> rfl
@[simp] theorem Slot.note_ctx (s : Slot) (l : List Nat) : (s.note l).ctx = s.ctx := by unfold Slot.note; split <;> rfl
@[simp] theorem Slot.note_rf (s : Slot) (l : List Nat) : (s.note l).rf = s.rf := by unfold Slot.note; split <;> rfl
@[simp] theorem Slot.note_pw (s : Slot) (l : List Nat) : (s.note l).pw = s.pw := by unfold Slot.note; split <;> rfl
@[simp] theorem Slot.note_il (s : Slot) (l : List Nat) : (s.note l).il = s.il := by unfold Slot.note; split <;> rfl
@[simp] theorem Slot.note_pc (s : Slot) (l : List Nat) : (s.note l).pc = s.pc := by unfold Slot.note; split <;> rfl
@[simp] theorem Slot.note_n (s : Slot) (l : List Nat) : (s.note l).n = s.n := by unfold Slot.note; split <;> rfl
@[simp] theorem Slot.note_view (s : Slot) (l : List Nat) : (s.note l).view = s.view := by unfold Slot.note; split <;> rfl
@[simp] theorem Slot.note_grantP (s : Slot) (l : List Nat) : (s.note l).grantP = s.grantP := by unfold Slot.note; split <;> rfl
@[simp] theorem Slot.note_grantN (s : Slot) (l : List Nat) : (s.note l).grantN = s.grantN := by unfold Slot.note; split <;> rfl
@[simp] theorem Slot.note_grantReq (s : Slot) (l : List Nat) : (s.note l).grantReq = s.grantReq := by unfold Slot.note; split <;> rfl
@[simp] theorem Slot.note_streams (s : Slot) (l : List Nat) : (s.note l).streams = s.streams := by unfold Slot.note; split <;> rfl
@[simp] theorem Slot.note_schk (s : Slot) (l : List Nat) : (s.note l).schk = s.schk := by unfold Slot.note; split <;> rfl
@[simp] theorem Slot.note_tvec (s : Slot) (l : List Nat) : (s.note l).tvec = s.tvec := by unfold Slot.note; split <;> rfl
@[simp] theorem Slot.note_tcause (s : Slot) (l : List Nat) : (s.note l).tcause = s.tcause := by unfold Slot.note; split <;> rfl
@[simp] theorem Slot.note_tret (s : Slot) (l : List Nat) : (s.note l).tret = s.tret := by unfold Slot.note; split <;> rfl
@[simp] theorem Slot.note_tval (s : Slot) (l : List Nat) : (s.note l).tval = s.tval := by unfold Slot.note; split <;> rfl
@[simp] theorem Slot.note_inh (s : Slot) (l : List Nat) : (s.note l).inh = s.inh := by unfold Slot.note; split <;> rfl
@[simp] theorem Slot.note_ts0 (s : Slot) (l : List Nat) : (s.note l).ts0 = s.ts0 := by unfold Slot.note; split <;> rfl
@[simp] theorem Slot.note_ts1 (s : Slot) (l : List Nat) : (s.note l).ts1 = s.ts1 := by unfold Slot.note; split <;> rfl
@[simp] theorem Slot.note_saved (s : Slot) (l : List Nat) : (s.note l).saved = s.saved := by unfold Slot.note; split <;> rfl
@[simp] theorem Slot.note_ocLd (s : Slot) (l : List Nat) : (s.note l).ocLd = s.ocLd := by unfold Slot.note; split <;> rfl
@[simp] theorem Slot.note_ocSt (s : Slot) (l : List Nat) : (s.note l).ocSt = s.ocSt := by unfold Slot.note; split <;> rfl
@[simp] theorem Slot.note_ocAt (s : Slot) (l : List Nat) : (s.note l).ocAt = s.ocAt := by unfold Slot.note; split <;> rfl
@[simp] theorem Slot.note_ocLw (s : Slot) (l : List Nat) : (s.note l).ocLw = s.ocLw := by unfold Slot.note; split <;> rfl
@[simp] theorem Slot.note_tl (s : Slot) (l : List Nat) : (s.note l).tl = s.tl := by unfold Slot.note; split <;> rfl
@[simp] theorem Slot.note_look (s : Slot) (l : List Nat) : (s.note l).look = s.look := by unfold Slot.note; split <;> rfl
@[simp] theorem Slot.note_parked (s : Slot) (l : List Nat) : (s.note l).parked = s.parked := by unfold Slot.note; split <;> rfl
@[simp] theorem Slot.note_wait (s : Slot) (l : List Nat) : (s.note l).wait = s.wait := by unfold Slot.note; split <;> rfl
@[simp] theorem Slot.note_rep (s : Slot) (l : List Nat) : (s.note l).rep = s.rep := by unfold Slot.note; split <;> rfl
@[simp] theorem Slot.note_mid (s : Slot) (l : List Nat) : (s.note l).mid = s.mid := by unfold Slot.note; split <;> rfl
@[simp] theorem Slot.note_got (s : Slot) (l : List Nat) : (s.note l).got = s.got := by unfold Slot.note; split <;> rfl
@[simp] theorem Slot.note_latch (s : Slot) (l : List Nat) : (s.note l).latch = s.latch := by unfold Slot.note; split <;> rfl
@[simp] theorem Slot.note_comet (s : Slot) (l : List Nat) : (s.note l).comet = s.comet := by unfold Slot.note; split <;> rfl
@[simp] theorem Slot.note_task (s : Slot) (l : List Nat) : (s.note l).task = s.task := by unfold Slot.note; split <;> rfl
@[simp] theorem Slot.note_next (s : Slot) (l : List Nat) : (s.note l).next = s.next := by unfold Slot.note; split <;> rfl
@[simp] theorem Slot.note_nextStolen (s : Slot) (l : List Nat) : (s.note l).nextStolen = s.nextStolen := by unfold Slot.note; split <;> rfl
@[simp] theorem Slot.note_taskh (s : Slot) (l : List Nat) : (s.note l).taskh = s.taskh := by unfold Slot.note; split <;> rfl
@[simp] theorem Slot.note_level (s : Slot) (l : List Nat) : (s.note l).level = s.level := by unfold Slot.note; split <;> rfl
@[simp] theorem Slot.note_ceil (s : Slot) (l : List Nat) : (s.note l).ceil = s.ceil := by unfold Slot.note; split <;> rfl
@[simp] theorem Slot.note_cfgCeil (s : Slot) (l : List Nat) : (s.note l).cfgCeil = s.cfgCeil := by unfold Slot.note; split <;> rfl
@[simp] theorem Slot.note_enabled (s : Slot) (l : List Nat) : (s.note l).enabled = s.enabled := by unfold Slot.note; split <;> rfl
@[simp] theorem Slot.note_cfgNext (s : Slot) (l : List Nat) : (s.note l).cfgNext = s.cfgNext := by unfold Slot.note; split <;> rfl
@[simp] theorem Slot.note_age (s : Slot) (l : List Nat) : (s.note l).age = s.age := by unfold Slot.note; split <;> rfl
@[simp] theorem Slot.note_boost (s : Slot) (l : List Nat) : (s.note l).boost = s.boost := by unfold Slot.note; split <;> rfl
@[simp] theorem Slot.note_stamp (s : Slot) (l : List Nat) : (s.note l).stamp = s.stamp := by unfold Slot.note; split <;> rfl
@[simp] theorem Slot.note_deque (s : Slot) (l : List Nat) : (s.note l).deque = s.deque := by unfold Slot.note; split <;> rfl
@[simp] theorem Slot.note_spillHead (s : Slot) (l : List Nat) : (s.note l).spillHead = s.spillHead := by unfold Slot.note; split <;> rfl
@[simp] theorem Slot.note_spillCnt (s : Slot) (l : List Nat) : (s.note l).spillCnt = s.spillCnt := by unfold Slot.note; split <;> rfl
@[simp] theorem Slot.note_spilled (s : Slot) (l : List Nat) : (s.note l).spilled = s.spilled := by unfold Slot.note; split <;> rfl
@[simp] theorem Slot.note_dqring (s : Slot) (l : List Nat) : (s.note l).dqring = s.dqring := by unfold Slot.note; split <;> rfl
@[simp] theorem Slot.note_steald (s : Slot) (l : List Nat) : (s.note l).steald = s.steald := by unfold Slot.note; split <;> rfl
@[simp] theorem Slot.note_round (s : Slot) (l : List Nat) : (s.note l).round = s.round := by unfold Slot.note; split <;> rfl
@[simp] theorem Slot.note_stealOk (s : Slot) (l : List Nat) : (s.note l).stealOk = s.stealOk := by unfold Slot.note; split <;> rfl
@[simp] theorem Slot.note_stealEmpty (s : Slot) (l : List Nat) : (s.note l).stealEmpty = s.stealEmpty := by unfold Slot.note; split <;> rfl
@[simp] theorem Slot.note_victims (s : Slot) (l : List Nat) : (s.note l).victims = s.victims := by unfold Slot.note; split <;> rfl
@[simp] theorem Slot.note_backoff (s : Slot) (l : List Nat) : (s.note l).backoff = s.backoff := by unfold Slot.note; split <;> rfl
@[simp] theorem Slot.note_aside (s : Slot) (l : List Nat) : (s.note l).aside = s.aside := by unfold Slot.note; split <;> rfl
@[simp] theorem Slot.note_evq (s : Slot) (l : List Nat) : (s.note l).evq = s.evq := by unfold Slot.note; split <;> rfl
@[simp] theorem Slot.note_evring (s : Slot) (l : List Nat) : (s.note l).evring = s.evring := by unfold Slot.note; split <;> rfl
@[simp] theorem Slot.note_rq (s : Slot) (l : List Nat) : (s.note l).rq = s.rq := by unfold Slot.note; split <;> rfl
@[simp] theorem Slot.note_rqHead (s : Slot) (l : List Nat) : (s.note l).rqHead = s.rqHead := by unfold Slot.note; split <;> rfl
@[simp] theorem Slot.note_drop (s : Slot) (l : List Nat) : (s.note l).drop = s.drop := by unfold Slot.note; split <;> rfl
@[simp] theorem Slot.note_ovf (s : Slot) (l : List Nat) : (s.note l).ovf = s.ovf := by unfold Slot.note; split <;> rfl
@[simp] theorem Slot.note_pmsel (s : Slot) (l : List Nat) : (s.note l).pmsel = s.pmsel := by unfold Slot.note; split <;> rfl
@[simp] theorem Slot.note_pmc (s : Slot) (l : List Nat) : (s.note l).pmc = s.pmc := by unfold Slot.note; split <;> rfl
@[simp] theorem Slot.note_smv (s : Slot) (l : List Nat) : (s.note l).smv = s.smv := by unfold Slot.note; split <;> rfl
@[simp] theorem Slot.note_hcSent (s : Slot) (l : List Nat) : (s.note l).hcSent = s.hcSent := by unfold Slot.note; split <;> rfl
@[simp] theorem Slot.note_hcReply (s : Slot) (l : List Nat) : (s.note l).hcReply = s.hcReply := by unfold Slot.note; split <;> rfl
@[simp] theorem Slot.note_cycles (s : Slot) (l : List Nat) : (s.note l).cycles = s.cycles := by unfold Slot.note; split <;> rfl
@[simp] theorem Slot.note_owned (s : Slot) (l : List Nat) : (s.note l).owned = s.owned := by unfold Slot.note; split <;> rfl
@[simp] theorem Slot.note_ir (s : Slot) (l : List Nat) : (s.note l).ir = s.ir := by unfold Slot.note; split <;> rfl

/-! ## Slot.pend -/
@[simp] theorem Slot.pend_run (s : Slot) (lat : Nat) (l : List (Nat × Nat)) : (s.pend lat l).run = s.run := by unfold Slot.pend; dsimp only; split <;> simp
@[simp] theorem Slot.pend_ctx (s : Slot) (lat : Nat) (l : List (Nat × Nat)) : (s.pend lat l).ctx = s.ctx := by unfold Slot.pend; dsimp only; split <;> simp
@[simp] theorem Slot.pend_rf (s : Slot) (lat : Nat) (l : List (Nat × Nat)) : (s.pend lat l).rf = s.rf := by unfold Slot.pend; dsimp only; split <;> simp
@[simp] theorem Slot.pend_il (s : Slot) (lat : Nat) (l : List (Nat × Nat)) : (s.pend lat l).il = s.il := by unfold Slot.pend; dsimp only; split <;> simp
@[simp] theorem Slot.pend_pc (s : Slot) (lat : Nat) (l : List (Nat × Nat)) : (s.pend lat l).pc = s.pc := by unfold Slot.pend; dsimp only; split <;> simp
@[simp] theorem Slot.pend_n (s : Slot) (lat : Nat) (l : List (Nat × Nat)) : (s.pend lat l).n = s.n := by unfold Slot.pend; dsimp only; split <;> simp
@[simp] theorem Slot.pend_view (s : Slot) (lat : Nat) (l : List (Nat × Nat)) : (s.pend lat l).view = s.view := by unfold Slot.pend; dsimp only; split <;> simp
@[simp] theorem Slot.pend_grantP (s : Slot) (lat : Nat) (l : List (Nat × Nat)) : (s.pend lat l).grantP = s.grantP := by unfold Slot.pend; dsimp only; split <;> simp
@[simp] theorem Slot.pend_grantN (s : Slot) (lat : Nat) (l : List (Nat × Nat)) : (s.pend lat l).grantN = s.grantN := by unfold Slot.pend; dsimp only; split <;> simp
@[simp] theorem Slot.pend_grantReq (s : Slot) (lat : Nat) (l : List (Nat × Nat)) : (s.pend lat l).grantReq = s.grantReq := by unfold Slot.pend; dsimp only; split <;> simp
@[simp] theorem Slot.pend_streams (s : Slot) (lat : Nat) (l : List (Nat × Nat)) : (s.pend lat l).streams = s.streams := by unfold Slot.pend; dsimp only; split <;> simp
@[simp] theorem Slot.pend_schk (s : Slot) (lat : Nat) (l : List (Nat × Nat)) : (s.pend lat l).schk = s.schk := by unfold Slot.pend; dsimp only; split <;> simp
@[simp] theorem Slot.pend_tvec (s : Slot) (lat : Nat) (l : List (Nat × Nat)) : (s.pend lat l).tvec = s.tvec := by unfold Slot.pend; dsimp only; split <;> simp
@[simp] theorem Slot.pend_tcause (s : Slot) (lat : Nat) (l : List (Nat × Nat)) : (s.pend lat l).tcause = s.tcause := by unfold Slot.pend; dsimp only; split <;> simp
@[simp] theorem Slot.pend_tret (s : Slot) (lat : Nat) (l : List (Nat × Nat)) : (s.pend lat l).tret = s.tret := by unfold Slot.pend; dsimp only; split <;> simp
@[simp] theorem Slot.pend_tval (s : Slot) (lat : Nat) (l : List (Nat × Nat)) : (s.pend lat l).tval = s.tval := by unfold Slot.pend; dsimp only; split <;> simp
@[simp] theorem Slot.pend_inh (s : Slot) (lat : Nat) (l : List (Nat × Nat)) : (s.pend lat l).inh = s.inh := by unfold Slot.pend; dsimp only; split <;> simp
@[simp] theorem Slot.pend_ts0 (s : Slot) (lat : Nat) (l : List (Nat × Nat)) : (s.pend lat l).ts0 = s.ts0 := by unfold Slot.pend; dsimp only; split <;> simp
@[simp] theorem Slot.pend_ts1 (s : Slot) (lat : Nat) (l : List (Nat × Nat)) : (s.pend lat l).ts1 = s.ts1 := by unfold Slot.pend; dsimp only; split <;> simp
@[simp] theorem Slot.pend_saved (s : Slot) (lat : Nat) (l : List (Nat × Nat)) : (s.pend lat l).saved = s.saved := by unfold Slot.pend; dsimp only; split <;> simp
@[simp] theorem Slot.pend_ocLd (s : Slot) (lat : Nat) (l : List (Nat × Nat)) : (s.pend lat l).ocLd = s.ocLd := by unfold Slot.pend; dsimp only; split <;> simp
@[simp] theorem Slot.pend_ocSt (s : Slot) (lat : Nat) (l : List (Nat × Nat)) : (s.pend lat l).ocSt = s.ocSt := by unfold Slot.pend; dsimp only; split <;> simp
@[simp] theorem Slot.pend_ocAt (s : Slot) (lat : Nat) (l : List (Nat × Nat)) : (s.pend lat l).ocAt = s.ocAt := by unfold Slot.pend; dsimp only; split <;> simp
@[simp] theorem Slot.pend_ocLw (s : Slot) (lat : Nat) (l : List (Nat × Nat)) : (s.pend lat l).ocLw = s.ocLw := by unfold Slot.pend; dsimp only; split <;> simp
@[simp] theorem Slot.pend_tl (s : Slot) (lat : Nat) (l : List (Nat × Nat)) : (s.pend lat l).tl = s.tl := by unfold Slot.pend; dsimp only; split <;> simp
@[simp] theorem Slot.pend_look (s : Slot) (lat : Nat) (l : List (Nat × Nat)) : (s.pend lat l).look = s.look := by unfold Slot.pend; dsimp only; split <;> simp
@[simp] theorem Slot.pend_parked (s : Slot) (lat : Nat) (l : List (Nat × Nat)) : (s.pend lat l).parked = s.parked := by unfold Slot.pend; dsimp only; split <;> simp
@[simp] theorem Slot.pend_wait (s : Slot) (lat : Nat) (l : List (Nat × Nat)) : (s.pend lat l).wait = s.wait := by unfold Slot.pend; dsimp only; split <;> simp
@[simp] theorem Slot.pend_rep (s : Slot) (lat : Nat) (l : List (Nat × Nat)) : (s.pend lat l).rep = s.rep := by unfold Slot.pend; dsimp only; split <;> simp
@[simp] theorem Slot.pend_mid (s : Slot) (lat : Nat) (l : List (Nat × Nat)) : (s.pend lat l).mid = s.mid := by unfold Slot.pend; dsimp only; split <;> simp
@[simp] theorem Slot.pend_got (s : Slot) (lat : Nat) (l : List (Nat × Nat)) : (s.pend lat l).got = s.got := by unfold Slot.pend; dsimp only; split <;> simp
@[simp] theorem Slot.pend_latch (s : Slot) (lat : Nat) (l : List (Nat × Nat)) : (s.pend lat l).latch = s.latch := by unfold Slot.pend; dsimp only; split <;> simp
@[simp] theorem Slot.pend_comet (s : Slot) (lat : Nat) (l : List (Nat × Nat)) : (s.pend lat l).comet = s.comet := by unfold Slot.pend; dsimp only; split <;> simp
@[simp] theorem Slot.pend_task (s : Slot) (lat : Nat) (l : List (Nat × Nat)) : (s.pend lat l).task = s.task := by unfold Slot.pend; dsimp only; split <;> simp
@[simp] theorem Slot.pend_next (s : Slot) (lat : Nat) (l : List (Nat × Nat)) : (s.pend lat l).next = s.next := by unfold Slot.pend; dsimp only; split <;> simp
@[simp] theorem Slot.pend_nextStolen (s : Slot) (lat : Nat) (l : List (Nat × Nat)) : (s.pend lat l).nextStolen = s.nextStolen := by unfold Slot.pend; dsimp only; split <;> simp
@[simp] theorem Slot.pend_taskh (s : Slot) (lat : Nat) (l : List (Nat × Nat)) : (s.pend lat l).taskh = s.taskh := by unfold Slot.pend; dsimp only; split <;> simp
@[simp] theorem Slot.pend_level (s : Slot) (lat : Nat) (l : List (Nat × Nat)) : (s.pend lat l).level = s.level := by unfold Slot.pend; dsimp only; split <;> simp
@[simp] theorem Slot.pend_ceil (s : Slot) (lat : Nat) (l : List (Nat × Nat)) : (s.pend lat l).ceil = s.ceil := by unfold Slot.pend; dsimp only; split <;> simp
@[simp] theorem Slot.pend_cfgCeil (s : Slot) (lat : Nat) (l : List (Nat × Nat)) : (s.pend lat l).cfgCeil = s.cfgCeil := by unfold Slot.pend; dsimp only; split <;> simp
@[simp] theorem Slot.pend_enabled (s : Slot) (lat : Nat) (l : List (Nat × Nat)) : (s.pend lat l).enabled = s.enabled := by unfold Slot.pend; dsimp only; split <;> simp
@[simp] theorem Slot.pend_cfgNext (s : Slot) (lat : Nat) (l : List (Nat × Nat)) : (s.pend lat l).cfgNext = s.cfgNext := by unfold Slot.pend; dsimp only; split <;> simp
@[simp] theorem Slot.pend_age (s : Slot) (lat : Nat) (l : List (Nat × Nat)) : (s.pend lat l).age = s.age := by unfold Slot.pend; dsimp only; split <;> simp
@[simp] theorem Slot.pend_boost (s : Slot) (lat : Nat) (l : List (Nat × Nat)) : (s.pend lat l).boost = s.boost := by unfold Slot.pend; dsimp only; split <;> simp
@[simp] theorem Slot.pend_stamp (s : Slot) (lat : Nat) (l : List (Nat × Nat)) : (s.pend lat l).stamp = s.stamp := by unfold Slot.pend; dsimp only; split <;> simp
@[simp] theorem Slot.pend_deque (s : Slot) (lat : Nat) (l : List (Nat × Nat)) : (s.pend lat l).deque = s.deque := by unfold Slot.pend; dsimp only; split <;> simp
@[simp] theorem Slot.pend_spillHead (s : Slot) (lat : Nat) (l : List (Nat × Nat)) : (s.pend lat l).spillHead = s.spillHead := by unfold Slot.pend; dsimp only; split <;> simp
@[simp] theorem Slot.pend_spillCnt (s : Slot) (lat : Nat) (l : List (Nat × Nat)) : (s.pend lat l).spillCnt = s.spillCnt := by unfold Slot.pend; dsimp only; split <;> simp
@[simp] theorem Slot.pend_spilled (s : Slot) (lat : Nat) (l : List (Nat × Nat)) : (s.pend lat l).spilled = s.spilled := by unfold Slot.pend; dsimp only; split <;> simp
@[simp] theorem Slot.pend_dqring (s : Slot) (lat : Nat) (l : List (Nat × Nat)) : (s.pend lat l).dqring = s.dqring := by unfold Slot.pend; dsimp only; split <;> simp
@[simp] theorem Slot.pend_steald (s : Slot) (lat : Nat) (l : List (Nat × Nat)) : (s.pend lat l).steald = s.steald := by unfold Slot.pend; dsimp only; split <;> simp
@[simp] theorem Slot.pend_round (s : Slot) (lat : Nat) (l : List (Nat × Nat)) : (s.pend lat l).round = s.round := by unfold Slot.pend; dsimp only; split <;> simp
@[simp] theorem Slot.pend_stealOk (s : Slot) (lat : Nat) (l : List (Nat × Nat)) : (s.pend lat l).stealOk = s.stealOk := by unfold Slot.pend; dsimp only; split <;> simp
@[simp] theorem Slot.pend_stealEmpty (s : Slot) (lat : Nat) (l : List (Nat × Nat)) : (s.pend lat l).stealEmpty = s.stealEmpty := by unfold Slot.pend; dsimp only; split <;> simp
@[simp] theorem Slot.pend_victims (s : Slot) (lat : Nat) (l : List (Nat × Nat)) : (s.pend lat l).victims = s.victims := by unfold Slot.pend; dsimp only; split <;> simp
@[simp] theorem Slot.pend_backoff (s : Slot) (lat : Nat) (l : List (Nat × Nat)) : (s.pend lat l).backoff = s.backoff := by unfold Slot.pend; dsimp only; split <;> simp
@[simp] theorem Slot.pend_aside (s : Slot) (lat : Nat) (l : List (Nat × Nat)) : (s.pend lat l).aside = s.aside := by unfold Slot.pend; dsimp only; split <;> simp
@[simp] theorem Slot.pend_evq (s : Slot) (lat : Nat) (l : List (Nat × Nat)) : (s.pend lat l).evq = s.evq := by unfold Slot.pend; dsimp only; split <;> simp
@[simp] theorem Slot.pend_evring (s : Slot) (lat : Nat) (l : List (Nat × Nat)) : (s.pend lat l).evring = s.evring := by unfold Slot.pend; dsimp only; split <;> simp
@[simp] theorem Slot.pend_rq (s : Slot) (lat : Nat) (l : List (Nat × Nat)) : (s.pend lat l).rq = s.rq := by unfold Slot.pend; dsimp only; split <;> simp
@[simp] theorem Slot.pend_rqHead (s : Slot) (lat : Nat) (l : List (Nat × Nat)) : (s.pend lat l).rqHead = s.rqHead := by unfold Slot.pend; dsimp only; split <;> simp
@[simp] theorem Slot.pend_drop (s : Slot) (lat : Nat) (l : List (Nat × Nat)) : (s.pend lat l).drop = s.drop := by unfold Slot.pend; dsimp only; split <;> simp
@[simp] theorem Slot.pend_ovf (s : Slot) (lat : Nat) (l : List (Nat × Nat)) : (s.pend lat l).ovf = s.ovf := by unfold Slot.pend; dsimp only; split <;> simp
@[simp] theorem Slot.pend_pmsel (s : Slot) (lat : Nat) (l : List (Nat × Nat)) : (s.pend lat l).pmsel = s.pmsel := by unfold Slot.pend; dsimp only; split <;> simp
@[simp] theorem Slot.pend_pmc (s : Slot) (lat : Nat) (l : List (Nat × Nat)) : (s.pend lat l).pmc = s.pmc := by unfold Slot.pend; dsimp only; split <;> simp
@[simp] theorem Slot.pend_smv (s : Slot) (lat : Nat) (l : List (Nat × Nat)) : (s.pend lat l).smv = s.smv := by unfold Slot.pend; dsimp only; split <;> simp
@[simp] theorem Slot.pend_hcSent (s : Slot) (lat : Nat) (l : List (Nat × Nat)) : (s.pend lat l).hcSent = s.hcSent := by unfold Slot.pend; dsimp only; split <;> simp
@[simp] theorem Slot.pend_hcReply (s : Slot) (lat : Nat) (l : List (Nat × Nat)) : (s.pend lat l).hcReply = s.hcReply := by unfold Slot.pend; dsimp only; split <;> simp
@[simp] theorem Slot.pend_cycles (s : Slot) (lat : Nat) (l : List (Nat × Nat)) : (s.pend lat l).cycles = s.cycles := by unfold Slot.pend; dsimp only; split <;> simp
@[simp] theorem Slot.pend_owned (s : Slot) (lat : Nat) (l : List (Nat × Nat)) : (s.pend lat l).owned = s.owned := by unfold Slot.pend; dsimp only; split <;> simp
@[simp] theorem Slot.pend_ir (s : Slot) (lat : Nat) (l : List (Nat × Nat)) : (s.pend lat l).ir = s.ir := by unfold Slot.pend; dsimp only; split <;> simp

/-! ## Slot.pendNow -/
@[simp] theorem Slot.pendNow_run (s : Slot) (l : List (Nat × Nat)) : (s.pendNow l).run = s.run := by unfold Slot.pendNow; dsimp only; split <;> simp
@[simp] theorem Slot.pendNow_ctx (s : Slot) (l : List (Nat × Nat)) : (s.pendNow l).ctx = s.ctx := by unfold Slot.pendNow; dsimp only; split <;> simp
@[simp] theorem Slot.pendNow_rf (s : Slot) (l : List (Nat × Nat)) : (s.pendNow l).rf = s.rf := by unfold Slot.pendNow; dsimp only; split <;> simp
@[simp] theorem Slot.pendNow_il (s : Slot) (l : List (Nat × Nat)) : (s.pendNow l).il = s.il := by unfold Slot.pendNow; dsimp only; split <;> simp
@[simp] theorem Slot.pendNow_pc (s : Slot) (l : List (Nat × Nat)) : (s.pendNow l).pc = s.pc := by unfold Slot.pendNow; dsimp only; split <;> simp
@[simp] theorem Slot.pendNow_n (s : Slot) (l : List (Nat × Nat)) : (s.pendNow l).n = s.n := by unfold Slot.pendNow; dsimp only; split <;> simp
@[simp] theorem Slot.pendNow_view (s : Slot) (l : List (Nat × Nat)) : (s.pendNow l).view = s.view := by unfold Slot.pendNow; dsimp only; split <;> simp
@[simp] theorem Slot.pendNow_grantP (s : Slot) (l : List (Nat × Nat)) : (s.pendNow l).grantP = s.grantP := by unfold Slot.pendNow; dsimp only; split <;> simp
@[simp] theorem Slot.pendNow_grantN (s : Slot) (l : List (Nat × Nat)) : (s.pendNow l).grantN = s.grantN := by unfold Slot.pendNow; dsimp only; split <;> simp
@[simp] theorem Slot.pendNow_grantReq (s : Slot) (l : List (Nat × Nat)) : (s.pendNow l).grantReq = s.grantReq := by unfold Slot.pendNow; dsimp only; split <;> simp
@[simp] theorem Slot.pendNow_streams (s : Slot) (l : List (Nat × Nat)) : (s.pendNow l).streams = s.streams := by unfold Slot.pendNow; dsimp only; split <;> simp
@[simp] theorem Slot.pendNow_schk (s : Slot) (l : List (Nat × Nat)) : (s.pendNow l).schk = s.schk := by unfold Slot.pendNow; dsimp only; split <;> simp
@[simp] theorem Slot.pendNow_tvec (s : Slot) (l : List (Nat × Nat)) : (s.pendNow l).tvec = s.tvec := by unfold Slot.pendNow; dsimp only; split <;> simp
@[simp] theorem Slot.pendNow_tcause (s : Slot) (l : List (Nat × Nat)) : (s.pendNow l).tcause = s.tcause := by unfold Slot.pendNow; dsimp only; split <;> simp
@[simp] theorem Slot.pendNow_tret (s : Slot) (l : List (Nat × Nat)) : (s.pendNow l).tret = s.tret := by unfold Slot.pendNow; dsimp only; split <;> simp
@[simp] theorem Slot.pendNow_tval (s : Slot) (l : List (Nat × Nat)) : (s.pendNow l).tval = s.tval := by unfold Slot.pendNow; dsimp only; split <;> simp
@[simp] theorem Slot.pendNow_inh (s : Slot) (l : List (Nat × Nat)) : (s.pendNow l).inh = s.inh := by unfold Slot.pendNow; dsimp only; split <;> simp
@[simp] theorem Slot.pendNow_ts0 (s : Slot) (l : List (Nat × Nat)) : (s.pendNow l).ts0 = s.ts0 := by unfold Slot.pendNow; dsimp only; split <;> simp
@[simp] theorem Slot.pendNow_ts1 (s : Slot) (l : List (Nat × Nat)) : (s.pendNow l).ts1 = s.ts1 := by unfold Slot.pendNow; dsimp only; split <;> simp
@[simp] theorem Slot.pendNow_saved (s : Slot) (l : List (Nat × Nat)) : (s.pendNow l).saved = s.saved := by unfold Slot.pendNow; dsimp only; split <;> simp
@[simp] theorem Slot.pendNow_ocLd (s : Slot) (l : List (Nat × Nat)) : (s.pendNow l).ocLd = s.ocLd := by unfold Slot.pendNow; dsimp only; split <;> simp
@[simp] theorem Slot.pendNow_ocSt (s : Slot) (l : List (Nat × Nat)) : (s.pendNow l).ocSt = s.ocSt := by unfold Slot.pendNow; dsimp only; split <;> simp
@[simp] theorem Slot.pendNow_ocAt (s : Slot) (l : List (Nat × Nat)) : (s.pendNow l).ocAt = s.ocAt := by unfold Slot.pendNow; dsimp only; split <;> simp
@[simp] theorem Slot.pendNow_ocLw (s : Slot) (l : List (Nat × Nat)) : (s.pendNow l).ocLw = s.ocLw := by unfold Slot.pendNow; dsimp only; split <;> simp
@[simp] theorem Slot.pendNow_tl (s : Slot) (l : List (Nat × Nat)) : (s.pendNow l).tl = s.tl := by unfold Slot.pendNow; dsimp only; split <;> simp
@[simp] theorem Slot.pendNow_look (s : Slot) (l : List (Nat × Nat)) : (s.pendNow l).look = s.look := by unfold Slot.pendNow; dsimp only; split <;> simp
@[simp] theorem Slot.pendNow_parked (s : Slot) (l : List (Nat × Nat)) : (s.pendNow l).parked = s.parked := by unfold Slot.pendNow; dsimp only; split <;> simp
@[simp] theorem Slot.pendNow_wait (s : Slot) (l : List (Nat × Nat)) : (s.pendNow l).wait = s.wait := by unfold Slot.pendNow; dsimp only; split <;> simp
@[simp] theorem Slot.pendNow_rep (s : Slot) (l : List (Nat × Nat)) : (s.pendNow l).rep = s.rep := by unfold Slot.pendNow; dsimp only; split <;> simp
@[simp] theorem Slot.pendNow_mid (s : Slot) (l : List (Nat × Nat)) : (s.pendNow l).mid = s.mid := by unfold Slot.pendNow; dsimp only; split <;> simp
@[simp] theorem Slot.pendNow_got (s : Slot) (l : List (Nat × Nat)) : (s.pendNow l).got = s.got := by unfold Slot.pendNow; dsimp only; split <;> simp
@[simp] theorem Slot.pendNow_latch (s : Slot) (l : List (Nat × Nat)) : (s.pendNow l).latch = s.latch := by unfold Slot.pendNow; dsimp only; split <;> simp
@[simp] theorem Slot.pendNow_comet (s : Slot) (l : List (Nat × Nat)) : (s.pendNow l).comet = s.comet := by unfold Slot.pendNow; dsimp only; split <;> simp
@[simp] theorem Slot.pendNow_task (s : Slot) (l : List (Nat × Nat)) : (s.pendNow l).task = s.task := by unfold Slot.pendNow; dsimp only; split <;> simp
@[simp] theorem Slot.pendNow_next (s : Slot) (l : List (Nat × Nat)) : (s.pendNow l).next = s.next := by unfold Slot.pendNow; dsimp only; split <;> simp
@[simp] theorem Slot.pendNow_nextStolen (s : Slot) (l : List (Nat × Nat)) : (s.pendNow l).nextStolen = s.nextStolen := by unfold Slot.pendNow; dsimp only; split <;> simp
@[simp] theorem Slot.pendNow_taskh (s : Slot) (l : List (Nat × Nat)) : (s.pendNow l).taskh = s.taskh := by unfold Slot.pendNow; dsimp only; split <;> simp
@[simp] theorem Slot.pendNow_level (s : Slot) (l : List (Nat × Nat)) : (s.pendNow l).level = s.level := by unfold Slot.pendNow; dsimp only; split <;> simp
@[simp] theorem Slot.pendNow_ceil (s : Slot) (l : List (Nat × Nat)) : (s.pendNow l).ceil = s.ceil := by unfold Slot.pendNow; dsimp only; split <;> simp
@[simp] theorem Slot.pendNow_cfgCeil (s : Slot) (l : List (Nat × Nat)) : (s.pendNow l).cfgCeil = s.cfgCeil := by unfold Slot.pendNow; dsimp only; split <;> simp
@[simp] theorem Slot.pendNow_enabled (s : Slot) (l : List (Nat × Nat)) : (s.pendNow l).enabled = s.enabled := by unfold Slot.pendNow; dsimp only; split <;> simp
@[simp] theorem Slot.pendNow_cfgNext (s : Slot) (l : List (Nat × Nat)) : (s.pendNow l).cfgNext = s.cfgNext := by unfold Slot.pendNow; dsimp only; split <;> simp
@[simp] theorem Slot.pendNow_age (s : Slot) (l : List (Nat × Nat)) : (s.pendNow l).age = s.age := by unfold Slot.pendNow; dsimp only; split <;> simp
@[simp] theorem Slot.pendNow_boost (s : Slot) (l : List (Nat × Nat)) : (s.pendNow l).boost = s.boost := by unfold Slot.pendNow; dsimp only; split <;> simp
@[simp] theorem Slot.pendNow_stamp (s : Slot) (l : List (Nat × Nat)) : (s.pendNow l).stamp = s.stamp := by unfold Slot.pendNow; dsimp only; split <;> simp
@[simp] theorem Slot.pendNow_deque (s : Slot) (l : List (Nat × Nat)) : (s.pendNow l).deque = s.deque := by unfold Slot.pendNow; dsimp only; split <;> simp
@[simp] theorem Slot.pendNow_spillHead (s : Slot) (l : List (Nat × Nat)) : (s.pendNow l).spillHead = s.spillHead := by unfold Slot.pendNow; dsimp only; split <;> simp
@[simp] theorem Slot.pendNow_spillCnt (s : Slot) (l : List (Nat × Nat)) : (s.pendNow l).spillCnt = s.spillCnt := by unfold Slot.pendNow; dsimp only; split <;> simp
@[simp] theorem Slot.pendNow_spilled (s : Slot) (l : List (Nat × Nat)) : (s.pendNow l).spilled = s.spilled := by unfold Slot.pendNow; dsimp only; split <;> simp
@[simp] theorem Slot.pendNow_dqring (s : Slot) (l : List (Nat × Nat)) : (s.pendNow l).dqring = s.dqring := by unfold Slot.pendNow; dsimp only; split <;> simp
@[simp] theorem Slot.pendNow_steald (s : Slot) (l : List (Nat × Nat)) : (s.pendNow l).steald = s.steald := by unfold Slot.pendNow; dsimp only; split <;> simp
@[simp] theorem Slot.pendNow_round (s : Slot) (l : List (Nat × Nat)) : (s.pendNow l).round = s.round := by unfold Slot.pendNow; dsimp only; split <;> simp
@[simp] theorem Slot.pendNow_stealOk (s : Slot) (l : List (Nat × Nat)) : (s.pendNow l).stealOk = s.stealOk := by unfold Slot.pendNow; dsimp only; split <;> simp
@[simp] theorem Slot.pendNow_stealEmpty (s : Slot) (l : List (Nat × Nat)) : (s.pendNow l).stealEmpty = s.stealEmpty := by unfold Slot.pendNow; dsimp only; split <;> simp
@[simp] theorem Slot.pendNow_victims (s : Slot) (l : List (Nat × Nat)) : (s.pendNow l).victims = s.victims := by unfold Slot.pendNow; dsimp only; split <;> simp
@[simp] theorem Slot.pendNow_backoff (s : Slot) (l : List (Nat × Nat)) : (s.pendNow l).backoff = s.backoff := by unfold Slot.pendNow; dsimp only; split <;> simp
@[simp] theorem Slot.pendNow_aside (s : Slot) (l : List (Nat × Nat)) : (s.pendNow l).aside = s.aside := by unfold Slot.pendNow; dsimp only; split <;> simp
@[simp] theorem Slot.pendNow_evq (s : Slot) (l : List (Nat × Nat)) : (s.pendNow l).evq = s.evq := by unfold Slot.pendNow; dsimp only; split <;> simp
@[simp] theorem Slot.pendNow_evring (s : Slot) (l : List (Nat × Nat)) : (s.pendNow l).evring = s.evring := by unfold Slot.pendNow; dsimp only; split <;> simp
@[simp] theorem Slot.pendNow_rq (s : Slot) (l : List (Nat × Nat)) : (s.pendNow l).rq = s.rq := by unfold Slot.pendNow; dsimp only; split <;> simp
@[simp] theorem Slot.pendNow_rqHead (s : Slot) (l : List (Nat × Nat)) : (s.pendNow l).rqHead = s.rqHead := by unfold Slot.pendNow; dsimp only; split <;> simp
@[simp] theorem Slot.pendNow_drop (s : Slot) (l : List (Nat × Nat)) : (s.pendNow l).drop = s.drop := by unfold Slot.pendNow; dsimp only; split <;> simp
@[simp] theorem Slot.pendNow_ovf (s : Slot) (l : List (Nat × Nat)) : (s.pendNow l).ovf = s.ovf := by unfold Slot.pendNow; dsimp only; split <;> simp
@[simp] theorem Slot.pendNow_pmsel (s : Slot) (l : List (Nat × Nat)) : (s.pendNow l).pmsel = s.pmsel := by unfold Slot.pendNow; dsimp only; split <;> simp
@[simp] theorem Slot.pendNow_pmc (s : Slot) (l : List (Nat × Nat)) : (s.pendNow l).pmc = s.pmc := by unfold Slot.pendNow; dsimp only; split <;> simp
@[simp] theorem Slot.pendNow_smv (s : Slot) (l : List (Nat × Nat)) : (s.pendNow l).smv = s.smv := by unfold Slot.pendNow; dsimp only; split <;> simp
@[simp] theorem Slot.pendNow_hcSent (s : Slot) (l : List (Nat × Nat)) : (s.pendNow l).hcSent = s.hcSent := by unfold Slot.pendNow; dsimp only; split <;> simp
@[simp] theorem Slot.pendNow_hcReply (s : Slot) (l : List (Nat × Nat)) : (s.pendNow l).hcReply = s.hcReply := by unfold Slot.pendNow; dsimp only; split <;> simp
@[simp] theorem Slot.pendNow_cycles (s : Slot) (l : List (Nat × Nat)) : (s.pendNow l).cycles = s.cycles := by unfold Slot.pendNow; dsimp only; split <;> simp
@[simp] theorem Slot.pendNow_owned (s : Slot) (l : List (Nat × Nat)) : (s.pendNow l).owned = s.owned := by unfold Slot.pendNow; dsimp only; split <;> simp
@[simp] theorem Slot.pendNow_ir (s : Slot) (l : List (Nat × Nat)) : (s.pendNow l).ir = s.ir := by unfold Slot.pendNow; dsimp only; split <;> simp

/-! ## Slot.poke -/
@[simp] theorem Slot.poke_run (s : Slot) (l : List (Nat × Nat)) : (s.poke l).run = s.run := by unfold Slot.poke; simp
@[simp] theorem Slot.poke_ctx (s : Slot) (l : List (Nat × Nat)) : (s.poke l).ctx = s.ctx := by unfold Slot.poke; simp
@[simp] theorem Slot.poke_il (s : Slot) (l : List (Nat × Nat)) : (s.poke l).il = s.il := by unfold Slot.poke; simp
@[simp] theorem Slot.poke_pc (s : Slot) (l : List (Nat × Nat)) : (s.poke l).pc = s.pc := by unfold Slot.poke; simp
@[simp] theorem Slot.poke_n (s : Slot) (l : List (Nat × Nat)) : (s.poke l).n = s.n := by unfold Slot.poke; simp
@[simp] theorem Slot.poke_view (s : Slot) (l : List (Nat × Nat)) : (s.poke l).view = s.view := by unfold Slot.poke; simp
@[simp] theorem Slot.poke_grantP (s : Slot) (l : List (Nat × Nat)) : (s.poke l).grantP = s.grantP := by unfold Slot.poke; simp
@[simp] theorem Slot.poke_grantN (s : Slot) (l : List (Nat × Nat)) : (s.poke l).grantN = s.grantN := by unfold Slot.poke; simp
@[simp] theorem Slot.poke_grantReq (s : Slot) (l : List (Nat × Nat)) : (s.poke l).grantReq = s.grantReq := by unfold Slot.poke; simp
@[simp] theorem Slot.poke_streams (s : Slot) (l : List (Nat × Nat)) : (s.poke l).streams = s.streams := by unfold Slot.poke; simp
@[simp] theorem Slot.poke_schk (s : Slot) (l : List (Nat × Nat)) : (s.poke l).schk = s.schk := by unfold Slot.poke; simp
@[simp] theorem Slot.poke_tvec (s : Slot) (l : List (Nat × Nat)) : (s.poke l).tvec = s.tvec := by unfold Slot.poke; simp
@[simp] theorem Slot.poke_tcause (s : Slot) (l : List (Nat × Nat)) : (s.poke l).tcause = s.tcause := by unfold Slot.poke; simp
@[simp] theorem Slot.poke_tret (s : Slot) (l : List (Nat × Nat)) : (s.poke l).tret = s.tret := by unfold Slot.poke; simp
@[simp] theorem Slot.poke_tval (s : Slot) (l : List (Nat × Nat)) : (s.poke l).tval = s.tval := by unfold Slot.poke; simp
@[simp] theorem Slot.poke_inh (s : Slot) (l : List (Nat × Nat)) : (s.poke l).inh = s.inh := by unfold Slot.poke; simp
@[simp] theorem Slot.poke_ts0 (s : Slot) (l : List (Nat × Nat)) : (s.poke l).ts0 = s.ts0 := by unfold Slot.poke; simp
@[simp] theorem Slot.poke_ts1 (s : Slot) (l : List (Nat × Nat)) : (s.poke l).ts1 = s.ts1 := by unfold Slot.poke; simp
@[simp] theorem Slot.poke_saved (s : Slot) (l : List (Nat × Nat)) : (s.poke l).saved = s.saved := by unfold Slot.poke; simp
@[simp] theorem Slot.poke_ocLd (s : Slot) (l : List (Nat × Nat)) : (s.poke l).ocLd = s.ocLd := by unfold Slot.poke; simp
@[simp] theorem Slot.poke_ocSt (s : Slot) (l : List (Nat × Nat)) : (s.poke l).ocSt = s.ocSt := by unfold Slot.poke; simp
@[simp] theorem Slot.poke_ocAt (s : Slot) (l : List (Nat × Nat)) : (s.poke l).ocAt = s.ocAt := by unfold Slot.poke; simp
@[simp] theorem Slot.poke_ocLw (s : Slot) (l : List (Nat × Nat)) : (s.poke l).ocLw = s.ocLw := by unfold Slot.poke; simp
@[simp] theorem Slot.poke_tl (s : Slot) (l : List (Nat × Nat)) : (s.poke l).tl = s.tl := by unfold Slot.poke; simp
@[simp] theorem Slot.poke_look (s : Slot) (l : List (Nat × Nat)) : (s.poke l).look = s.look := by unfold Slot.poke; simp
@[simp] theorem Slot.poke_parked (s : Slot) (l : List (Nat × Nat)) : (s.poke l).parked = s.parked := by unfold Slot.poke; simp
@[simp] theorem Slot.poke_wait (s : Slot) (l : List (Nat × Nat)) : (s.poke l).wait = s.wait := by unfold Slot.poke; simp
@[simp] theorem Slot.poke_rep (s : Slot) (l : List (Nat × Nat)) : (s.poke l).rep = s.rep := by unfold Slot.poke; simp
@[simp] theorem Slot.poke_mid (s : Slot) (l : List (Nat × Nat)) : (s.poke l).mid = s.mid := by unfold Slot.poke; simp
@[simp] theorem Slot.poke_got (s : Slot) (l : List (Nat × Nat)) : (s.poke l).got = s.got := by unfold Slot.poke; simp
@[simp] theorem Slot.poke_latch (s : Slot) (l : List (Nat × Nat)) : (s.poke l).latch = s.latch := by unfold Slot.poke; simp
@[simp] theorem Slot.poke_comet (s : Slot) (l : List (Nat × Nat)) : (s.poke l).comet = s.comet := by unfold Slot.poke; simp
@[simp] theorem Slot.poke_task (s : Slot) (l : List (Nat × Nat)) : (s.poke l).task = s.task := by unfold Slot.poke; simp
@[simp] theorem Slot.poke_next (s : Slot) (l : List (Nat × Nat)) : (s.poke l).next = s.next := by unfold Slot.poke; simp
@[simp] theorem Slot.poke_nextStolen (s : Slot) (l : List (Nat × Nat)) : (s.poke l).nextStolen = s.nextStolen := by unfold Slot.poke; simp
@[simp] theorem Slot.poke_taskh (s : Slot) (l : List (Nat × Nat)) : (s.poke l).taskh = s.taskh := by unfold Slot.poke; simp
@[simp] theorem Slot.poke_level (s : Slot) (l : List (Nat × Nat)) : (s.poke l).level = s.level := by unfold Slot.poke; simp
@[simp] theorem Slot.poke_ceil (s : Slot) (l : List (Nat × Nat)) : (s.poke l).ceil = s.ceil := by unfold Slot.poke; simp
@[simp] theorem Slot.poke_cfgCeil (s : Slot) (l : List (Nat × Nat)) : (s.poke l).cfgCeil = s.cfgCeil := by unfold Slot.poke; simp
@[simp] theorem Slot.poke_enabled (s : Slot) (l : List (Nat × Nat)) : (s.poke l).enabled = s.enabled := by unfold Slot.poke; simp
@[simp] theorem Slot.poke_cfgNext (s : Slot) (l : List (Nat × Nat)) : (s.poke l).cfgNext = s.cfgNext := by unfold Slot.poke; simp
@[simp] theorem Slot.poke_age (s : Slot) (l : List (Nat × Nat)) : (s.poke l).age = s.age := by unfold Slot.poke; simp
@[simp] theorem Slot.poke_boost (s : Slot) (l : List (Nat × Nat)) : (s.poke l).boost = s.boost := by unfold Slot.poke; simp
@[simp] theorem Slot.poke_stamp (s : Slot) (l : List (Nat × Nat)) : (s.poke l).stamp = s.stamp := by unfold Slot.poke; simp
@[simp] theorem Slot.poke_deque (s : Slot) (l : List (Nat × Nat)) : (s.poke l).deque = s.deque := by unfold Slot.poke; simp
@[simp] theorem Slot.poke_spillHead (s : Slot) (l : List (Nat × Nat)) : (s.poke l).spillHead = s.spillHead := by unfold Slot.poke; simp
@[simp] theorem Slot.poke_spillCnt (s : Slot) (l : List (Nat × Nat)) : (s.poke l).spillCnt = s.spillCnt := by unfold Slot.poke; simp
@[simp] theorem Slot.poke_spilled (s : Slot) (l : List (Nat × Nat)) : (s.poke l).spilled = s.spilled := by unfold Slot.poke; simp
@[simp] theorem Slot.poke_dqring (s : Slot) (l : List (Nat × Nat)) : (s.poke l).dqring = s.dqring := by unfold Slot.poke; simp
@[simp] theorem Slot.poke_steald (s : Slot) (l : List (Nat × Nat)) : (s.poke l).steald = s.steald := by unfold Slot.poke; simp
@[simp] theorem Slot.poke_round (s : Slot) (l : List (Nat × Nat)) : (s.poke l).round = s.round := by unfold Slot.poke; simp
@[simp] theorem Slot.poke_stealOk (s : Slot) (l : List (Nat × Nat)) : (s.poke l).stealOk = s.stealOk := by unfold Slot.poke; simp
@[simp] theorem Slot.poke_stealEmpty (s : Slot) (l : List (Nat × Nat)) : (s.poke l).stealEmpty = s.stealEmpty := by unfold Slot.poke; simp
@[simp] theorem Slot.poke_victims (s : Slot) (l : List (Nat × Nat)) : (s.poke l).victims = s.victims := by unfold Slot.poke; simp
@[simp] theorem Slot.poke_backoff (s : Slot) (l : List (Nat × Nat)) : (s.poke l).backoff = s.backoff := by unfold Slot.poke; simp
@[simp] theorem Slot.poke_aside (s : Slot) (l : List (Nat × Nat)) : (s.poke l).aside = s.aside := by unfold Slot.poke; simp
@[simp] theorem Slot.poke_evq (s : Slot) (l : List (Nat × Nat)) : (s.poke l).evq = s.evq := by unfold Slot.poke; simp
@[simp] theorem Slot.poke_evring (s : Slot) (l : List (Nat × Nat)) : (s.poke l).evring = s.evring := by unfold Slot.poke; simp
@[simp] theorem Slot.poke_rq (s : Slot) (l : List (Nat × Nat)) : (s.poke l).rq = s.rq := by unfold Slot.poke; simp
@[simp] theorem Slot.poke_rqHead (s : Slot) (l : List (Nat × Nat)) : (s.poke l).rqHead = s.rqHead := by unfold Slot.poke; simp
@[simp] theorem Slot.poke_drop (s : Slot) (l : List (Nat × Nat)) : (s.poke l).drop = s.drop := by unfold Slot.poke; simp
@[simp] theorem Slot.poke_ovf (s : Slot) (l : List (Nat × Nat)) : (s.poke l).ovf = s.ovf := by unfold Slot.poke; simp
@[simp] theorem Slot.poke_pmsel (s : Slot) (l : List (Nat × Nat)) : (s.poke l).pmsel = s.pmsel := by unfold Slot.poke; simp
@[simp] theorem Slot.poke_pmc (s : Slot) (l : List (Nat × Nat)) : (s.poke l).pmc = s.pmc := by unfold Slot.poke; simp
@[simp] theorem Slot.poke_smv (s : Slot) (l : List (Nat × Nat)) : (s.poke l).smv = s.smv := by unfold Slot.poke; simp
@[simp] theorem Slot.poke_hcSent (s : Slot) (l : List (Nat × Nat)) : (s.poke l).hcSent = s.hcSent := by unfold Slot.poke; simp
@[simp] theorem Slot.poke_hcReply (s : Slot) (l : List (Nat × Nat)) : (s.poke l).hcReply = s.hcReply := by unfold Slot.poke; simp
@[simp] theorem Slot.poke_cycles (s : Slot) (l : List (Nat × Nat)) : (s.poke l).cycles = s.cycles := by unfold Slot.poke; simp
@[simp] theorem Slot.poke_owned (s : Slot) (l : List (Nat × Nat)) : (s.poke l).owned = s.owned := by unfold Slot.poke; simp
@[simp] theorem Slot.poke_ir (s : Slot) (l : List (Nat × Nat)) : (s.poke l).ir = s.ir := by unfold Slot.poke; simp

/-! ## Slot.boundary -/
@[simp] theorem Slot.boundary_run (s : Slot)  : (s.boundary ).run = s.run := by unfold Slot.boundary; dsimp only; split <;> rfl
@[simp] theorem Slot.boundary_ctx (s : Slot)  : (s.boundary ).ctx = s.ctx := by unfold Slot.boundary; dsimp only; split <;> rfl
@[simp] theorem Slot.boundary_rf (s : Slot)  : (s.boundary ).rf = s.rf := by unfold Slot.boundary; dsimp only; split <;> rfl
@[simp] theorem Slot.boundary_pw (s : Slot)  : (s.boundary ).pw = s.pw := by unfold Slot.boundary; dsimp only; split <;> rfl
@[simp] theorem Slot.boundary_il (s : Slot)  : (s.boundary ).il = s.il := by unfold Slot.boundary; dsimp only; split <;> rfl
@[simp] theorem Slot.boundary_pc (s : Slot)  : (s.boundary ).pc = s.pc := by unfold Slot.boundary; dsimp only; split <;> rfl
@[simp] theorem Slot.boundary_n (s : Slot)  : (s.boundary ).n = s.n := by unfold Slot.boundary; dsimp only; split <;> rfl
@[simp] theorem Slot.boundary_view (s : Slot)  : (s.boundary ).view = s.view := by unfold Slot.boundary; dsimp only; split <;> rfl
@[simp] theorem Slot.boundary_grantP (s : Slot)  : (s.boundary ).grantP = s.grantP := by unfold Slot.boundary; dsimp only; split <;> rfl
@[simp] theorem Slot.boundary_grantN (s : Slot)  : (s.boundary ).grantN = s.grantN := by unfold Slot.boundary; dsimp only; split <;> rfl
@[simp] theorem Slot.boundary_grantReq (s : Slot)  : (s.boundary ).grantReq = s.grantReq := by unfold Slot.boundary; dsimp only; split <;> rfl
@[simp] theorem Slot.boundary_streams (s : Slot)  : (s.boundary ).streams = s.streams := by unfold Slot.boundary; dsimp only; split <;> rfl
@[simp] theorem Slot.boundary_schk (s : Slot)  : (s.boundary ).schk = s.schk := by unfold Slot.boundary; dsimp only; split <;> rfl
@[simp] theorem Slot.boundary_tvec (s : Slot)  : (s.boundary ).tvec = s.tvec := by unfold Slot.boundary; dsimp only; split <;> rfl
@[simp] theorem Slot.boundary_tcause (s : Slot)  : (s.boundary ).tcause = s.tcause := by unfold Slot.boundary; dsimp only; split <;> rfl
@[simp] theorem Slot.boundary_tret (s : Slot)  : (s.boundary ).tret = s.tret := by unfold Slot.boundary; dsimp only; split <;> rfl
@[simp] theorem Slot.boundary_tval (s : Slot)  : (s.boundary ).tval = s.tval := by unfold Slot.boundary; dsimp only; split <;> rfl
@[simp] theorem Slot.boundary_inh (s : Slot)  : (s.boundary ).inh = s.inh := by unfold Slot.boundary; dsimp only; split <;> rfl
@[simp] theorem Slot.boundary_ts0 (s : Slot)  : (s.boundary ).ts0 = s.ts0 := by unfold Slot.boundary; dsimp only; split <;> rfl
@[simp] theorem Slot.boundary_ts1 (s : Slot)  : (s.boundary ).ts1 = s.ts1 := by unfold Slot.boundary; dsimp only; split <;> rfl
@[simp] theorem Slot.boundary_saved (s : Slot)  : (s.boundary ).saved = s.saved := by unfold Slot.boundary; dsimp only; split <;> rfl
@[simp] theorem Slot.boundary_written (s : Slot)  : (s.boundary ).written = s.written := by unfold Slot.boundary; dsimp only; split <;> rfl
@[simp] theorem Slot.boundary_ocLd (s : Slot)  : (s.boundary ).ocLd = s.ocLd := by unfold Slot.boundary; dsimp only; split <;> rfl
@[simp] theorem Slot.boundary_ocSt (s : Slot)  : (s.boundary ).ocSt = s.ocSt := by unfold Slot.boundary; dsimp only; split <;> rfl
@[simp] theorem Slot.boundary_ocAt (s : Slot)  : (s.boundary ).ocAt = s.ocAt := by unfold Slot.boundary; dsimp only; split <;> rfl
@[simp] theorem Slot.boundary_ocLw (s : Slot)  : (s.boundary ).ocLw = s.ocLw := by unfold Slot.boundary; dsimp only; split <;> rfl
@[simp] theorem Slot.boundary_tl (s : Slot)  : (s.boundary ).tl = s.tl := by unfold Slot.boundary; dsimp only; split <;> rfl
@[simp] theorem Slot.boundary_look (s : Slot)  : (s.boundary ).look = s.look := by unfold Slot.boundary; dsimp only; split <;> rfl
@[simp] theorem Slot.boundary_parked (s : Slot)  : (s.boundary ).parked = s.parked := by unfold Slot.boundary; dsimp only; split <;> rfl
@[simp] theorem Slot.boundary_wait (s : Slot)  : (s.boundary ).wait = s.wait := by unfold Slot.boundary; dsimp only; split <;> rfl
@[simp] theorem Slot.boundary_rep (s : Slot)  : (s.boundary ).rep = s.rep := by unfold Slot.boundary; dsimp only; split <;> rfl
@[simp] theorem Slot.boundary_latch (s : Slot)  : (s.boundary ).latch = s.latch := by unfold Slot.boundary; dsimp only; split <;> rfl
@[simp] theorem Slot.boundary_comet (s : Slot)  : (s.boundary ).comet = s.comet := by unfold Slot.boundary; dsimp only; split <;> rfl
@[simp] theorem Slot.boundary_task (s : Slot)  : (s.boundary ).task = s.task := by unfold Slot.boundary; dsimp only; split <;> rfl
@[simp] theorem Slot.boundary_next (s : Slot)  : (s.boundary ).next = s.next := by unfold Slot.boundary; dsimp only; split <;> rfl
@[simp] theorem Slot.boundary_nextStolen (s : Slot)  : (s.boundary ).nextStolen = s.nextStolen := by unfold Slot.boundary; dsimp only; split <;> rfl
@[simp] theorem Slot.boundary_taskh (s : Slot)  : (s.boundary ).taskh = s.taskh := by unfold Slot.boundary; dsimp only; split <;> rfl
@[simp] theorem Slot.boundary_ceil (s : Slot)  : (s.boundary ).ceil = s.ceil := by unfold Slot.boundary; dsimp only; split <;> rfl
@[simp] theorem Slot.boundary_age (s : Slot)  : (s.boundary ).age = s.age := by unfold Slot.boundary; dsimp only; split <;> rfl
@[simp] theorem Slot.boundary_boost (s : Slot)  : (s.boundary ).boost = s.boost := by unfold Slot.boundary; dsimp only; split <;> rfl
@[simp] theorem Slot.boundary_stamp (s : Slot)  : (s.boundary ).stamp = s.stamp := by unfold Slot.boundary; dsimp only; split <;> rfl
@[simp] theorem Slot.boundary_deque (s : Slot)  : (s.boundary ).deque = s.deque := by unfold Slot.boundary; dsimp only; split <;> rfl
@[simp] theorem Slot.boundary_spillHead (s : Slot)  : (s.boundary ).spillHead = s.spillHead := by unfold Slot.boundary; dsimp only; split <;> rfl
@[simp] theorem Slot.boundary_spillCnt (s : Slot)  : (s.boundary ).spillCnt = s.spillCnt := by unfold Slot.boundary; dsimp only; split <;> rfl
@[simp] theorem Slot.boundary_spilled (s : Slot)  : (s.boundary ).spilled = s.spilled := by unfold Slot.boundary; dsimp only; split <;> rfl
@[simp] theorem Slot.boundary_dqring (s : Slot)  : (s.boundary ).dqring = s.dqring := by unfold Slot.boundary; dsimp only; split <;> rfl
@[simp] theorem Slot.boundary_steald (s : Slot)  : (s.boundary ).steald = s.steald := by unfold Slot.boundary; dsimp only; split <;> rfl
@[simp] theorem Slot.boundary_round (s : Slot)  : (s.boundary ).round = s.round := by unfold Slot.boundary; dsimp only; split <;> rfl
@[simp] theorem Slot.boundary_stealOk (s : Slot)  : (s.boundary ).stealOk = s.stealOk := by unfold Slot.boundary; dsimp only; split <;> rfl
@[simp] theorem Slot.boundary_stealEmpty (s : Slot)  : (s.boundary ).stealEmpty = s.stealEmpty := by unfold Slot.boundary; dsimp only; split <;> rfl
@[simp] theorem Slot.boundary_victims (s : Slot)  : (s.boundary ).victims = s.victims := by unfold Slot.boundary; dsimp only; split <;> rfl
@[simp] theorem Slot.boundary_backoff (s : Slot)  : (s.boundary ).backoff = s.backoff := by unfold Slot.boundary; dsimp only; split <;> rfl
@[simp] theorem Slot.boundary_aside (s : Slot)  : (s.boundary ).aside = s.aside := by unfold Slot.boundary; dsimp only; split <;> rfl
@[simp] theorem Slot.boundary_evq (s : Slot)  : (s.boundary ).evq = s.evq := by unfold Slot.boundary; dsimp only; split <;> rfl
@[simp] theorem Slot.boundary_evring (s : Slot)  : (s.boundary ).evring = s.evring := by unfold Slot.boundary; dsimp only; split <;> rfl
@[simp] theorem Slot.boundary_rq (s : Slot)  : (s.boundary ).rq = s.rq := by unfold Slot.boundary; dsimp only; split <;> rfl
@[simp] theorem Slot.boundary_rqHead (s : Slot)  : (s.boundary ).rqHead = s.rqHead := by unfold Slot.boundary; dsimp only; split <;> rfl
@[simp] theorem Slot.boundary_drop (s : Slot)  : (s.boundary ).drop = s.drop := by unfold Slot.boundary; dsimp only; split <;> rfl
@[simp] theorem Slot.boundary_ovf (s : Slot)  : (s.boundary ).ovf = s.ovf := by unfold Slot.boundary; dsimp only; split <;> rfl
@[simp] theorem Slot.boundary_pmsel (s : Slot)  : (s.boundary ).pmsel = s.pmsel := by unfold Slot.boundary; dsimp only; split <;> rfl
@[simp] theorem Slot.boundary_pmc (s : Slot)  : (s.boundary ).pmc = s.pmc := by unfold Slot.boundary; dsimp only; split <;> rfl
@[simp] theorem Slot.boundary_smv (s : Slot)  : (s.boundary ).smv = s.smv := by unfold Slot.boundary; dsimp only; split <;> rfl
@[simp] theorem Slot.boundary_hcSent (s : Slot)  : (s.boundary ).hcSent = s.hcSent := by unfold Slot.boundary; dsimp only; split <;> rfl
@[simp] theorem Slot.boundary_hcReply (s : Slot)  : (s.boundary ).hcReply = s.hcReply := by unfold Slot.boundary; dsimp only; split <;> rfl
@[simp] theorem Slot.boundary_cycles (s : Slot)  : (s.boundary ).cycles = s.cycles := by unfold Slot.boundary; dsimp only; split <;> rfl
@[simp] theorem Slot.boundary_owned (s : Slot)  : (s.boundary ).owned = s.owned := by unfold Slot.boundary; dsimp only; split <;> rfl
@[simp] theorem Slot.boundary_ir (s : Slot)  : (s.boundary ).ir = s.ir := by unfold Slot.boundary; dsimp only; split <;> rfl

/-! ## Slot.enterHandler -/
@[simp] theorem Slot.enterHandler_run (s : Slot) (c v r : Nat) : (s.enterHandler c v r).run = s.run := by unfold Slot.enterHandler; simp
@[simp] theorem Slot.enterHandler_ctx (s : Slot) (c v r : Nat) : (s.enterHandler c v r).ctx = s.ctx := by unfold Slot.enterHandler; simp
@[simp] theorem Slot.enterHandler_view (s : Slot) (c v r : Nat) : (s.enterHandler c v r).view = s.view := by unfold Slot.enterHandler; simp
@[simp] theorem Slot.enterHandler_grantP (s : Slot) (c v r : Nat) : (s.enterHandler c v r).grantP = s.grantP := by unfold Slot.enterHandler; simp
@[simp] theorem Slot.enterHandler_grantN (s : Slot) (c v r : Nat) : (s.enterHandler c v r).grantN = s.grantN := by unfold Slot.enterHandler; simp
@[simp] theorem Slot.enterHandler_grantReq (s : Slot) (c v r : Nat) : (s.enterHandler c v r).grantReq = s.grantReq := by unfold Slot.enterHandler; simp
@[simp] theorem Slot.enterHandler_streams (s : Slot) (c v r : Nat) : (s.enterHandler c v r).streams = s.streams := by unfold Slot.enterHandler; simp
@[simp] theorem Slot.enterHandler_schk (s : Slot) (c v r : Nat) : (s.enterHandler c v r).schk = s.schk := by unfold Slot.enterHandler; simp
@[simp] theorem Slot.enterHandler_tvec (s : Slot) (c v r : Nat) : (s.enterHandler c v r).tvec = s.tvec := by unfold Slot.enterHandler; simp
@[simp] theorem Slot.enterHandler_ts0 (s : Slot) (c v r : Nat) : (s.enterHandler c v r).ts0 = s.ts0 := by unfold Slot.enterHandler; simp
@[simp] theorem Slot.enterHandler_ts1 (s : Slot) (c v r : Nat) : (s.enterHandler c v r).ts1 = s.ts1 := by unfold Slot.enterHandler; simp
@[simp] theorem Slot.enterHandler_ocLd (s : Slot) (c v r : Nat) : (s.enterHandler c v r).ocLd = s.ocLd := by unfold Slot.enterHandler; simp
@[simp] theorem Slot.enterHandler_ocSt (s : Slot) (c v r : Nat) : (s.enterHandler c v r).ocSt = s.ocSt := by unfold Slot.enterHandler; simp
@[simp] theorem Slot.enterHandler_ocAt (s : Slot) (c v r : Nat) : (s.enterHandler c v r).ocAt = s.ocAt := by unfold Slot.enterHandler; simp
@[simp] theorem Slot.enterHandler_ocLw (s : Slot) (c v r : Nat) : (s.enterHandler c v r).ocLw = s.ocLw := by unfold Slot.enterHandler; simp
@[simp] theorem Slot.enterHandler_tl (s : Slot) (c v r : Nat) : (s.enterHandler c v r).tl = s.tl := by unfold Slot.enterHandler; simp
@[simp] theorem Slot.enterHandler_latch (s : Slot) (c v r : Nat) : (s.enterHandler c v r).latch = s.latch := by unfold Slot.enterHandler; simp
@[simp] theorem Slot.enterHandler_comet (s : Slot) (c v r : Nat) : (s.enterHandler c v r).comet = s.comet := by unfold Slot.enterHandler; simp
@[simp] theorem Slot.enterHandler_task (s : Slot) (c v r : Nat) : (s.enterHandler c v r).task = s.task := by unfold Slot.enterHandler; simp
@[simp] theorem Slot.enterHandler_next (s : Slot) (c v r : Nat) : (s.enterHandler c v r).next = s.next := by unfold Slot.enterHandler; simp
@[simp] theorem Slot.enterHandler_nextStolen (s : Slot) (c v r : Nat) : (s.enterHandler c v r).nextStolen = s.nextStolen := by unfold Slot.enterHandler; simp
@[simp] theorem Slot.enterHandler_taskh (s : Slot) (c v r : Nat) : (s.enterHandler c v r).taskh = s.taskh := by unfold Slot.enterHandler; simp
@[simp] theorem Slot.enterHandler_ceil (s : Slot) (c v r : Nat) : (s.enterHandler c v r).ceil = s.ceil := by unfold Slot.enterHandler; simp
@[simp] theorem Slot.enterHandler_age (s : Slot) (c v r : Nat) : (s.enterHandler c v r).age = s.age := by unfold Slot.enterHandler; simp
@[simp] theorem Slot.enterHandler_boost (s : Slot) (c v r : Nat) : (s.enterHandler c v r).boost = s.boost := by unfold Slot.enterHandler; simp
@[simp] theorem Slot.enterHandler_stamp (s : Slot) (c v r : Nat) : (s.enterHandler c v r).stamp = s.stamp := by unfold Slot.enterHandler; simp
@[simp] theorem Slot.enterHandler_deque (s : Slot) (c v r : Nat) : (s.enterHandler c v r).deque = s.deque := by unfold Slot.enterHandler; simp
@[simp] theorem Slot.enterHandler_spillHead (s : Slot) (c v r : Nat) : (s.enterHandler c v r).spillHead = s.spillHead := by unfold Slot.enterHandler; simp
@[simp] theorem Slot.enterHandler_spillCnt (s : Slot) (c v r : Nat) : (s.enterHandler c v r).spillCnt = s.spillCnt := by unfold Slot.enterHandler; simp
@[simp] theorem Slot.enterHandler_spilled (s : Slot) (c v r : Nat) : (s.enterHandler c v r).spilled = s.spilled := by unfold Slot.enterHandler; simp
@[simp] theorem Slot.enterHandler_dqring (s : Slot) (c v r : Nat) : (s.enterHandler c v r).dqring = s.dqring := by unfold Slot.enterHandler; simp
@[simp] theorem Slot.enterHandler_steald (s : Slot) (c v r : Nat) : (s.enterHandler c v r).steald = s.steald := by unfold Slot.enterHandler; simp
@[simp] theorem Slot.enterHandler_round (s : Slot) (c v r : Nat) : (s.enterHandler c v r).round = s.round := by unfold Slot.enterHandler; simp
@[simp] theorem Slot.enterHandler_stealOk (s : Slot) (c v r : Nat) : (s.enterHandler c v r).stealOk = s.stealOk := by unfold Slot.enterHandler; simp
@[simp] theorem Slot.enterHandler_stealEmpty (s : Slot) (c v r : Nat) : (s.enterHandler c v r).stealEmpty = s.stealEmpty := by unfold Slot.enterHandler; simp
@[simp] theorem Slot.enterHandler_victims (s : Slot) (c v r : Nat) : (s.enterHandler c v r).victims = s.victims := by unfold Slot.enterHandler; simp
@[simp] theorem Slot.enterHandler_backoff (s : Slot) (c v r : Nat) : (s.enterHandler c v r).backoff = s.backoff := by unfold Slot.enterHandler; simp
@[simp] theorem Slot.enterHandler_aside (s : Slot) (c v r : Nat) : (s.enterHandler c v r).aside = s.aside := by unfold Slot.enterHandler; simp
@[simp] theorem Slot.enterHandler_evq (s : Slot) (c v r : Nat) : (s.enterHandler c v r).evq = s.evq := by unfold Slot.enterHandler; simp
@[simp] theorem Slot.enterHandler_evring (s : Slot) (c v r : Nat) : (s.enterHandler c v r).evring = s.evring := by unfold Slot.enterHandler; simp
@[simp] theorem Slot.enterHandler_rq (s : Slot) (c v r : Nat) : (s.enterHandler c v r).rq = s.rq := by unfold Slot.enterHandler; simp
@[simp] theorem Slot.enterHandler_rqHead (s : Slot) (c v r : Nat) : (s.enterHandler c v r).rqHead = s.rqHead := by unfold Slot.enterHandler; simp
@[simp] theorem Slot.enterHandler_drop (s : Slot) (c v r : Nat) : (s.enterHandler c v r).drop = s.drop := by unfold Slot.enterHandler; simp
@[simp] theorem Slot.enterHandler_ovf (s : Slot) (c v r : Nat) : (s.enterHandler c v r).ovf = s.ovf := by unfold Slot.enterHandler; simp
@[simp] theorem Slot.enterHandler_pmsel (s : Slot) (c v r : Nat) : (s.enterHandler c v r).pmsel = s.pmsel := by unfold Slot.enterHandler; simp
@[simp] theorem Slot.enterHandler_pmc (s : Slot) (c v r : Nat) : (s.enterHandler c v r).pmc = s.pmc := by unfold Slot.enterHandler; simp
@[simp] theorem Slot.enterHandler_smv (s : Slot) (c v r : Nat) : (s.enterHandler c v r).smv = s.smv := by unfold Slot.enterHandler; simp
@[simp] theorem Slot.enterHandler_hcSent (s : Slot) (c v r : Nat) : (s.enterHandler c v r).hcSent = s.hcSent := by unfold Slot.enterHandler; simp
@[simp] theorem Slot.enterHandler_hcReply (s : Slot) (c v r : Nat) : (s.enterHandler c v r).hcReply = s.hcReply := by unfold Slot.enterHandler; simp
@[simp] theorem Slot.enterHandler_cycles (s : Slot) (c v r : Nat) : (s.enterHandler c v r).cycles = s.cycles := by unfold Slot.enterHandler; simp
@[simp] theorem Slot.enterHandler_owned (s : Slot) (c v r : Nat) : (s.enterHandler c v r).owned = s.owned := by unfold Slot.enterHandler; simp
@[simp] theorem Slot.enterHandler_ir (s : Slot) (c v r : Nat) : (s.enterHandler c v r).ir = s.ir := by unfold Slot.enterHandler; simp

/-! ## Slot.leaveHandler -/
@[simp] theorem Slot.leaveHandler_run (s : Slot)  : (s.leaveHandler ).run = s.run := by unfold Slot.leaveHandler; dsimp only; split <;> rfl
@[simp] theorem Slot.leaveHandler_ctx (s : Slot)  : (s.leaveHandler ).ctx = s.ctx := by unfold Slot.leaveHandler; dsimp only; split <;> rfl
@[simp] theorem Slot.leaveHandler_view (s : Slot)  : (s.leaveHandler ).view = s.view := by unfold Slot.leaveHandler; dsimp only; split <;> rfl
@[simp] theorem Slot.leaveHandler_grantP (s : Slot)  : (s.leaveHandler ).grantP = s.grantP := by unfold Slot.leaveHandler; dsimp only; split <;> rfl
@[simp] theorem Slot.leaveHandler_grantN (s : Slot)  : (s.leaveHandler ).grantN = s.grantN := by unfold Slot.leaveHandler; dsimp only; split <;> rfl
@[simp] theorem Slot.leaveHandler_grantReq (s : Slot)  : (s.leaveHandler ).grantReq = s.grantReq := by unfold Slot.leaveHandler; dsimp only; split <;> rfl
@[simp] theorem Slot.leaveHandler_streams (s : Slot)  : (s.leaveHandler ).streams = s.streams := by unfold Slot.leaveHandler; dsimp only; split <;> rfl
@[simp] theorem Slot.leaveHandler_schk (s : Slot)  : (s.leaveHandler ).schk = s.schk := by unfold Slot.leaveHandler; dsimp only; split <;> rfl
@[simp] theorem Slot.leaveHandler_tvec (s : Slot)  : (s.leaveHandler ).tvec = s.tvec := by unfold Slot.leaveHandler; dsimp only; split <;> rfl
@[simp] theorem Slot.leaveHandler_tcause (s : Slot)  : (s.leaveHandler ).tcause = s.tcause := by unfold Slot.leaveHandler; dsimp only; split <;> rfl
@[simp] theorem Slot.leaveHandler_tret (s : Slot)  : (s.leaveHandler ).tret = s.tret := by unfold Slot.leaveHandler; dsimp only; split <;> rfl
@[simp] theorem Slot.leaveHandler_tval (s : Slot)  : (s.leaveHandler ).tval = s.tval := by unfold Slot.leaveHandler; dsimp only; split <;> rfl
@[simp] theorem Slot.leaveHandler_ts0 (s : Slot)  : (s.leaveHandler ).ts0 = s.ts0 := by unfold Slot.leaveHandler; dsimp only; split <;> rfl
@[simp] theorem Slot.leaveHandler_ts1 (s : Slot)  : (s.leaveHandler ).ts1 = s.ts1 := by unfold Slot.leaveHandler; dsimp only; split <;> rfl
@[simp] theorem Slot.leaveHandler_ocLd (s : Slot)  : (s.leaveHandler ).ocLd = s.ocLd := by unfold Slot.leaveHandler; dsimp only; split <;> rfl
@[simp] theorem Slot.leaveHandler_ocSt (s : Slot)  : (s.leaveHandler ).ocSt = s.ocSt := by unfold Slot.leaveHandler; dsimp only; split <;> rfl
@[simp] theorem Slot.leaveHandler_ocAt (s : Slot)  : (s.leaveHandler ).ocAt = s.ocAt := by unfold Slot.leaveHandler; dsimp only; split <;> rfl
@[simp] theorem Slot.leaveHandler_ocLw (s : Slot)  : (s.leaveHandler ).ocLw = s.ocLw := by unfold Slot.leaveHandler; dsimp only; split <;> rfl
@[simp] theorem Slot.leaveHandler_tl (s : Slot)  : (s.leaveHandler ).tl = s.tl := by unfold Slot.leaveHandler; dsimp only; split <;> rfl
@[simp] theorem Slot.leaveHandler_look (s : Slot)  : (s.leaveHandler ).look = s.look := by unfold Slot.leaveHandler; dsimp only; split <;> rfl
@[simp] theorem Slot.leaveHandler_parked (s : Slot)  : (s.leaveHandler ).parked = s.parked := by unfold Slot.leaveHandler; dsimp only; split <;> rfl
@[simp] theorem Slot.leaveHandler_wait (s : Slot)  : (s.leaveHandler ).wait = s.wait := by unfold Slot.leaveHandler; dsimp only; split <;> rfl
@[simp] theorem Slot.leaveHandler_rep (s : Slot)  : (s.leaveHandler ).rep = s.rep := by unfold Slot.leaveHandler; dsimp only; split <;> rfl
@[simp] theorem Slot.leaveHandler_mid (s : Slot)  : (s.leaveHandler ).mid = s.mid := by unfold Slot.leaveHandler; dsimp only; split <;> rfl
@[simp] theorem Slot.leaveHandler_got (s : Slot)  : (s.leaveHandler ).got = s.got := by unfold Slot.leaveHandler; dsimp only; split <;> rfl
@[simp] theorem Slot.leaveHandler_latch (s : Slot)  : (s.leaveHandler ).latch = s.latch := by unfold Slot.leaveHandler; dsimp only; split <;> rfl
@[simp] theorem Slot.leaveHandler_comet (s : Slot)  : (s.leaveHandler ).comet = s.comet := by unfold Slot.leaveHandler; dsimp only; split <;> rfl
@[simp] theorem Slot.leaveHandler_task (s : Slot)  : (s.leaveHandler ).task = s.task := by unfold Slot.leaveHandler; dsimp only; split <;> rfl
@[simp] theorem Slot.leaveHandler_next (s : Slot)  : (s.leaveHandler ).next = s.next := by unfold Slot.leaveHandler; dsimp only; split <;> rfl
@[simp] theorem Slot.leaveHandler_nextStolen (s : Slot)  : (s.leaveHandler ).nextStolen = s.nextStolen := by unfold Slot.leaveHandler; dsimp only; split <;> rfl
@[simp] theorem Slot.leaveHandler_taskh (s : Slot)  : (s.leaveHandler ).taskh = s.taskh := by unfold Slot.leaveHandler; dsimp only; split <;> rfl
@[simp] theorem Slot.leaveHandler_level (s : Slot)  : (s.leaveHandler ).level = s.level := by unfold Slot.leaveHandler; dsimp only; split <;> rfl
@[simp] theorem Slot.leaveHandler_ceil (s : Slot)  : (s.leaveHandler ).ceil = s.ceil := by unfold Slot.leaveHandler; dsimp only; split <;> rfl
@[simp] theorem Slot.leaveHandler_cfgCeil (s : Slot)  : (s.leaveHandler ).cfgCeil = s.cfgCeil := by unfold Slot.leaveHandler; dsimp only; split <;> rfl
@[simp] theorem Slot.leaveHandler_enabled (s : Slot)  : (s.leaveHandler ).enabled = s.enabled := by unfold Slot.leaveHandler; dsimp only; split <;> rfl
@[simp] theorem Slot.leaveHandler_cfgNext (s : Slot)  : (s.leaveHandler ).cfgNext = s.cfgNext := by unfold Slot.leaveHandler; dsimp only; split <;> rfl
@[simp] theorem Slot.leaveHandler_age (s : Slot)  : (s.leaveHandler ).age = s.age := by unfold Slot.leaveHandler; dsimp only; split <;> rfl
@[simp] theorem Slot.leaveHandler_boost (s : Slot)  : (s.leaveHandler ).boost = s.boost := by unfold Slot.leaveHandler; dsimp only; split <;> rfl
@[simp] theorem Slot.leaveHandler_stamp (s : Slot)  : (s.leaveHandler ).stamp = s.stamp := by unfold Slot.leaveHandler; dsimp only; split <;> rfl
@[simp] theorem Slot.leaveHandler_deque (s : Slot)  : (s.leaveHandler ).deque = s.deque := by unfold Slot.leaveHandler; dsimp only; split <;> rfl
@[simp] theorem Slot.leaveHandler_spillHead (s : Slot)  : (s.leaveHandler ).spillHead = s.spillHead := by unfold Slot.leaveHandler; dsimp only; split <;> rfl
@[simp] theorem Slot.leaveHandler_spillCnt (s : Slot)  : (s.leaveHandler ).spillCnt = s.spillCnt := by unfold Slot.leaveHandler; dsimp only; split <;> rfl
@[simp] theorem Slot.leaveHandler_spilled (s : Slot)  : (s.leaveHandler ).spilled = s.spilled := by unfold Slot.leaveHandler; dsimp only; split <;> rfl
@[simp] theorem Slot.leaveHandler_dqring (s : Slot)  : (s.leaveHandler ).dqring = s.dqring := by unfold Slot.leaveHandler; dsimp only; split <;> rfl
@[simp] theorem Slot.leaveHandler_steald (s : Slot)  : (s.leaveHandler ).steald = s.steald := by unfold Slot.leaveHandler; dsimp only; split <;> rfl
@[simp] theorem Slot.leaveHandler_round (s : Slot)  : (s.leaveHandler ).round = s.round := by unfold Slot.leaveHandler; dsimp only; split <;> rfl
@[simp] theorem Slot.leaveHandler_stealOk (s : Slot)  : (s.leaveHandler ).stealOk = s.stealOk := by unfold Slot.leaveHandler; dsimp only; split <;> rfl
@[simp] theorem Slot.leaveHandler_stealEmpty (s : Slot)  : (s.leaveHandler ).stealEmpty = s.stealEmpty := by unfold Slot.leaveHandler; dsimp only; split <;> rfl
@[simp] theorem Slot.leaveHandler_victims (s : Slot)  : (s.leaveHandler ).victims = s.victims := by unfold Slot.leaveHandler; dsimp only; split <;> rfl
@[simp] theorem Slot.leaveHandler_backoff (s : Slot)  : (s.leaveHandler ).backoff = s.backoff := by unfold Slot.leaveHandler; dsimp only; split <;> rfl
@[simp] theorem Slot.leaveHandler_aside (s : Slot)  : (s.leaveHandler ).aside = s.aside := by unfold Slot.leaveHandler; dsimp only; split <;> rfl
@[simp] theorem Slot.leaveHandler_evq (s : Slot)  : (s.leaveHandler ).evq = s.evq := by unfold Slot.leaveHandler; dsimp only; split <;> rfl
@[simp] theorem Slot.leaveHandler_evring (s : Slot)  : (s.leaveHandler ).evring = s.evring := by unfold Slot.leaveHandler; dsimp only; split <;> rfl
@[simp] theorem Slot.leaveHandler_rq (s : Slot)  : (s.leaveHandler ).rq = s.rq := by unfold Slot.leaveHandler; dsimp only; split <;> rfl
@[simp] theorem Slot.leaveHandler_rqHead (s : Slot)  : (s.leaveHandler ).rqHead = s.rqHead := by unfold Slot.leaveHandler; dsimp only; split <;> rfl
@[simp] theorem Slot.leaveHandler_drop (s : Slot)  : (s.leaveHandler ).drop = s.drop := by unfold Slot.leaveHandler; dsimp only; split <;> rfl
@[simp] theorem Slot.leaveHandler_ovf (s : Slot)  : (s.leaveHandler ).ovf = s.ovf := by unfold Slot.leaveHandler; dsimp only; split <;> rfl
@[simp] theorem Slot.leaveHandler_pmsel (s : Slot)  : (s.leaveHandler ).pmsel = s.pmsel := by unfold Slot.leaveHandler; dsimp only; split <;> rfl
@[simp] theorem Slot.leaveHandler_pmc (s : Slot)  : (s.leaveHandler ).pmc = s.pmc := by unfold Slot.leaveHandler; dsimp only; split <;> rfl
@[simp] theorem Slot.leaveHandler_smv (s : Slot)  : (s.leaveHandler ).smv = s.smv := by unfold Slot.leaveHandler; dsimp only; split <;> rfl
@[simp] theorem Slot.leaveHandler_hcSent (s : Slot)  : (s.leaveHandler ).hcSent = s.hcSent := by unfold Slot.leaveHandler; dsimp only; split <;> rfl
@[simp] theorem Slot.leaveHandler_hcReply (s : Slot)  : (s.leaveHandler ).hcReply = s.hcReply := by unfold Slot.leaveHandler; dsimp only; split <;> rfl
@[simp] theorem Slot.leaveHandler_cycles (s : Slot)  : (s.leaveHandler ).cycles = s.cycles := by unfold Slot.leaveHandler; dsimp only; split <;> rfl
@[simp] theorem Slot.leaveHandler_owned (s : Slot)  : (s.leaveHandler ).owned = s.owned := by unfold Slot.leaveHandler; dsimp only; split <;> rfl
@[simp] theorem Slot.leaveHandler_ir (s : Slot)  : (s.leaveHandler ).ir = s.ir := by unfold Slot.leaveHandler; dsimp only; split <;> rfl

/-! ## Slot.countEvents -/
@[simp] theorem Slot.countEvents_run (s : Slot) (e n : Nat) : (s.countEvents e n).run = s.run := rfl
@[simp] theorem Slot.countEvents_ctx (s : Slot) (e n : Nat) : (s.countEvents e n).ctx = s.ctx := rfl
@[simp] theorem Slot.countEvents_rf (s : Slot) (e n : Nat) : (s.countEvents e n).rf = s.rf := rfl
@[simp] theorem Slot.countEvents_pw (s : Slot) (e n : Nat) : (s.countEvents e n).pw = s.pw := rfl
@[simp] theorem Slot.countEvents_il (s : Slot) (e n : Nat) : (s.countEvents e n).il = s.il := rfl
@[simp] theorem Slot.countEvents_pc (s : Slot) (e n : Nat) : (s.countEvents e n).pc = s.pc := rfl
@[simp] theorem Slot.countEvents_n (s : Slot) (e n : Nat) : (s.countEvents e n).n = s.n := rfl
@[simp] theorem Slot.countEvents_view (s : Slot) (e n : Nat) : (s.countEvents e n).view = s.view := rfl
@[simp] theorem Slot.countEvents_grantP (s : Slot) (e n : Nat) : (s.countEvents e n).grantP = s.grantP := rfl
@[simp] theorem Slot.countEvents_grantN (s : Slot) (e n : Nat) : (s.countEvents e n).grantN = s.grantN := rfl
@[simp] theorem Slot.countEvents_grantReq (s : Slot) (e n : Nat) : (s.countEvents e n).grantReq = s.grantReq := rfl
@[simp] theorem Slot.countEvents_streams (s : Slot) (e n : Nat) : (s.countEvents e n).streams = s.streams := rfl
@[simp] theorem Slot.countEvents_schk (s : Slot) (e n : Nat) : (s.countEvents e n).schk = s.schk := rfl
@[simp] theorem Slot.countEvents_tvec (s : Slot) (e n : Nat) : (s.countEvents e n).tvec = s.tvec := rfl
@[simp] theorem Slot.countEvents_tcause (s : Slot) (e n : Nat) : (s.countEvents e n).tcause = s.tcause := rfl
@[simp] theorem Slot.countEvents_tret (s : Slot) (e n : Nat) : (s.countEvents e n).tret = s.tret := rfl
@[simp] theorem Slot.countEvents_tval (s : Slot) (e n : Nat) : (s.countEvents e n).tval = s.tval := rfl
@[simp] theorem Slot.countEvents_inh (s : Slot) (e n : Nat) : (s.countEvents e n).inh = s.inh := rfl
@[simp] theorem Slot.countEvents_ts0 (s : Slot) (e n : Nat) : (s.countEvents e n).ts0 = s.ts0 := rfl
@[simp] theorem Slot.countEvents_ts1 (s : Slot) (e n : Nat) : (s.countEvents e n).ts1 = s.ts1 := rfl
@[simp] theorem Slot.countEvents_saved (s : Slot) (e n : Nat) : (s.countEvents e n).saved = s.saved := rfl
@[simp] theorem Slot.countEvents_written (s : Slot) (e n : Nat) : (s.countEvents e n).written = s.written := rfl
@[simp] theorem Slot.countEvents_ocLd (s : Slot) (e n : Nat) : (s.countEvents e n).ocLd = s.ocLd := rfl
@[simp] theorem Slot.countEvents_ocSt (s : Slot) (e n : Nat) : (s.countEvents e n).ocSt = s.ocSt := rfl
@[simp] theorem Slot.countEvents_ocAt (s : Slot) (e n : Nat) : (s.countEvents e n).ocAt = s.ocAt := rfl
@[simp] theorem Slot.countEvents_ocLw (s : Slot) (e n : Nat) : (s.countEvents e n).ocLw = s.ocLw := rfl
@[simp] theorem Slot.countEvents_tl (s : Slot) (e n : Nat) : (s.countEvents e n).tl = s.tl := rfl
@[simp] theorem Slot.countEvents_look (s : Slot) (e n : Nat) : (s.countEvents e n).look = s.look := rfl
@[simp] theorem Slot.countEvents_parked (s : Slot) (e n : Nat) : (s.countEvents e n).parked = s.parked := rfl
@[simp] theorem Slot.countEvents_wait (s : Slot) (e n : Nat) : (s.countEvents e n).wait = s.wait := rfl
@[simp] theorem Slot.countEvents_rep (s : Slot) (e n : Nat) : (s.countEvents e n).rep = s.rep := rfl
@[simp] theorem Slot.countEvents_mid (s : Slot) (e n : Nat) : (s.countEvents e n).mid = s.mid := rfl
@[simp] theorem Slot.countEvents_got (s : Slot) (e n : Nat) : (s.countEvents e n).got = s.got := rfl
@[simp] theorem Slot.countEvents_latch (s : Slot) (e n : Nat) : (s.countEvents e n).latch = s.latch := rfl
@[simp] theorem Slot.countEvents_comet (s : Slot) (e n : Nat) : (s.countEvents e n).comet = s.comet := rfl
@[simp] theorem Slot.countEvents_task (s : Slot) (e n : Nat) : (s.countEvents e n).task = s.task := rfl
@[simp] theorem Slot.countEvents_next (s : Slot) (e n : Nat) : (s.countEvents e n).next = s.next := rfl
@[simp] theorem Slot.countEvents_nextStolen (s : Slot) (e n : Nat) : (s.countEvents e n).nextStolen = s.nextStolen := rfl
@[simp] theorem Slot.countEvents_taskh (s : Slot) (e n : Nat) : (s.countEvents e n).taskh = s.taskh := rfl
@[simp] theorem Slot.countEvents_level (s : Slot) (e n : Nat) : (s.countEvents e n).level = s.level := rfl
@[simp] theorem Slot.countEvents_ceil (s : Slot) (e n : Nat) : (s.countEvents e n).ceil = s.ceil := rfl
@[simp] theorem Slot.countEvents_cfgCeil (s : Slot) (e n : Nat) : (s.countEvents e n).cfgCeil = s.cfgCeil := rfl
@[simp] theorem Slot.countEvents_enabled (s : Slot) (e n : Nat) : (s.countEvents e n).enabled = s.enabled := rfl
@[simp] theorem Slot.countEvents_cfgNext (s : Slot) (e n : Nat) : (s.countEvents e n).cfgNext = s.cfgNext := rfl
@[simp] theorem Slot.countEvents_age (s : Slot) (e n : Nat) : (s.countEvents e n).age = s.age := rfl
@[simp] theorem Slot.countEvents_boost (s : Slot) (e n : Nat) : (s.countEvents e n).boost = s.boost := rfl
@[simp] theorem Slot.countEvents_stamp (s : Slot) (e n : Nat) : (s.countEvents e n).stamp = s.stamp := rfl
@[simp] theorem Slot.countEvents_deque (s : Slot) (e n : Nat) : (s.countEvents e n).deque = s.deque := rfl
@[simp] theorem Slot.countEvents_spillHead (s : Slot) (e n : Nat) : (s.countEvents e n).spillHead = s.spillHead := rfl
@[simp] theorem Slot.countEvents_spillCnt (s : Slot) (e n : Nat) : (s.countEvents e n).spillCnt = s.spillCnt := rfl
@[simp] theorem Slot.countEvents_spilled (s : Slot) (e n : Nat) : (s.countEvents e n).spilled = s.spilled := rfl
@[simp] theorem Slot.countEvents_dqring (s : Slot) (e n : Nat) : (s.countEvents e n).dqring = s.dqring := rfl
@[simp] theorem Slot.countEvents_steald (s : Slot) (e n : Nat) : (s.countEvents e n).steald = s.steald := rfl
@[simp] theorem Slot.countEvents_round (s : Slot) (e n : Nat) : (s.countEvents e n).round = s.round := rfl
@[simp] theorem Slot.countEvents_stealOk (s : Slot) (e n : Nat) : (s.countEvents e n).stealOk = s.stealOk := rfl
@[simp] theorem Slot.countEvents_stealEmpty (s : Slot) (e n : Nat) : (s.countEvents e n).stealEmpty = s.stealEmpty := rfl
@[simp] theorem Slot.countEvents_victims (s : Slot) (e n : Nat) : (s.countEvents e n).victims = s.victims := rfl
@[simp] theorem Slot.countEvents_backoff (s : Slot) (e n : Nat) : (s.countEvents e n).backoff = s.backoff := rfl
@[simp] theorem Slot.countEvents_aside (s : Slot) (e n : Nat) : (s.countEvents e n).aside = s.aside := rfl
@[simp] theorem Slot.countEvents_evq (s : Slot) (e n : Nat) : (s.countEvents e n).evq = s.evq := rfl
@[simp] theorem Slot.countEvents_evring (s : Slot) (e n : Nat) : (s.countEvents e n).evring = s.evring := rfl
@[simp] theorem Slot.countEvents_rq (s : Slot) (e n : Nat) : (s.countEvents e n).rq = s.rq := rfl
@[simp] theorem Slot.countEvents_rqHead (s : Slot) (e n : Nat) : (s.countEvents e n).rqHead = s.rqHead := rfl
@[simp] theorem Slot.countEvents_drop (s : Slot) (e n : Nat) : (s.countEvents e n).drop = s.drop := rfl
@[simp] theorem Slot.countEvents_ovf (s : Slot) (e n : Nat) : (s.countEvents e n).ovf = s.ovf := rfl
@[simp] theorem Slot.countEvents_pmsel (s : Slot) (e n : Nat) : (s.countEvents e n).pmsel = s.pmsel := rfl
@[simp] theorem Slot.countEvents_smv (s : Slot) (e n : Nat) : (s.countEvents e n).smv = s.smv := rfl
@[simp] theorem Slot.countEvents_hcSent (s : Slot) (e n : Nat) : (s.countEvents e n).hcSent = s.hcSent := rfl
@[simp] theorem Slot.countEvents_hcReply (s : Slot) (e n : Nat) : (s.countEvents e n).hcReply = s.hcReply := rfl
@[simp] theorem Slot.countEvents_cycles (s : Slot) (e n : Nat) : (s.countEvents e n).cycles = s.cycles := rfl
@[simp] theorem Slot.countEvents_owned (s : Slot) (e n : Nat) : (s.countEvents e n).owned = s.owned := rfl
@[simp] theorem Slot.countEvents_ir (s : Slot) (e n : Nat) : (s.countEvents e n).ir = s.ir := rfl

/-! ## Slot.countEvent -/
@[simp] theorem Slot.countEvent_run (s : Slot) (e : Nat) : (s.countEvent e).run = s.run := rfl
@[simp] theorem Slot.countEvent_ctx (s : Slot) (e : Nat) : (s.countEvent e).ctx = s.ctx := rfl
@[simp] theorem Slot.countEvent_rf (s : Slot) (e : Nat) : (s.countEvent e).rf = s.rf := rfl
@[simp] theorem Slot.countEvent_pw (s : Slot) (e : Nat) : (s.countEvent e).pw = s.pw := rfl
@[simp] theorem Slot.countEvent_il (s : Slot) (e : Nat) : (s.countEvent e).il = s.il := rfl
@[simp] theorem Slot.countEvent_pc (s : Slot) (e : Nat) : (s.countEvent e).pc = s.pc := rfl
@[simp] theorem Slot.countEvent_n (s : Slot) (e : Nat) : (s.countEvent e).n = s.n := rfl
@[simp] theorem Slot.countEvent_view (s : Slot) (e : Nat) : (s.countEvent e).view = s.view := rfl
@[simp] theorem Slot.countEvent_grantP (s : Slot) (e : Nat) : (s.countEvent e).grantP = s.grantP := rfl
@[simp] theorem Slot.countEvent_grantN (s : Slot) (e : Nat) : (s.countEvent e).grantN = s.grantN := rfl
@[simp] theorem Slot.countEvent_grantReq (s : Slot) (e : Nat) : (s.countEvent e).grantReq = s.grantReq := rfl
@[simp] theorem Slot.countEvent_streams (s : Slot) (e : Nat) : (s.countEvent e).streams = s.streams := rfl
@[simp] theorem Slot.countEvent_schk (s : Slot) (e : Nat) : (s.countEvent e).schk = s.schk := rfl
@[simp] theorem Slot.countEvent_tvec (s : Slot) (e : Nat) : (s.countEvent e).tvec = s.tvec := rfl
@[simp] theorem Slot.countEvent_tcause (s : Slot) (e : Nat) : (s.countEvent e).tcause = s.tcause := rfl
@[simp] theorem Slot.countEvent_tret (s : Slot) (e : Nat) : (s.countEvent e).tret = s.tret := rfl
@[simp] theorem Slot.countEvent_tval (s : Slot) (e : Nat) : (s.countEvent e).tval = s.tval := rfl
@[simp] theorem Slot.countEvent_inh (s : Slot) (e : Nat) : (s.countEvent e).inh = s.inh := rfl
@[simp] theorem Slot.countEvent_ts0 (s : Slot) (e : Nat) : (s.countEvent e).ts0 = s.ts0 := rfl
@[simp] theorem Slot.countEvent_ts1 (s : Slot) (e : Nat) : (s.countEvent e).ts1 = s.ts1 := rfl
@[simp] theorem Slot.countEvent_saved (s : Slot) (e : Nat) : (s.countEvent e).saved = s.saved := rfl
@[simp] theorem Slot.countEvent_written (s : Slot) (e : Nat) : (s.countEvent e).written = s.written := rfl
@[simp] theorem Slot.countEvent_ocLd (s : Slot) (e : Nat) : (s.countEvent e).ocLd = s.ocLd := rfl
@[simp] theorem Slot.countEvent_ocSt (s : Slot) (e : Nat) : (s.countEvent e).ocSt = s.ocSt := rfl
@[simp] theorem Slot.countEvent_ocAt (s : Slot) (e : Nat) : (s.countEvent e).ocAt = s.ocAt := rfl
@[simp] theorem Slot.countEvent_ocLw (s : Slot) (e : Nat) : (s.countEvent e).ocLw = s.ocLw := rfl
@[simp] theorem Slot.countEvent_tl (s : Slot) (e : Nat) : (s.countEvent e).tl = s.tl := rfl
@[simp] theorem Slot.countEvent_look (s : Slot) (e : Nat) : (s.countEvent e).look = s.look := rfl
@[simp] theorem Slot.countEvent_parked (s : Slot) (e : Nat) : (s.countEvent e).parked = s.parked := rfl
@[simp] theorem Slot.countEvent_wait (s : Slot) (e : Nat) : (s.countEvent e).wait = s.wait := rfl
@[simp] theorem Slot.countEvent_rep (s : Slot) (e : Nat) : (s.countEvent e).rep = s.rep := rfl
@[simp] theorem Slot.countEvent_mid (s : Slot) (e : Nat) : (s.countEvent e).mid = s.mid := rfl
@[simp] theorem Slot.countEvent_got (s : Slot) (e : Nat) : (s.countEvent e).got = s.got := rfl
@[simp] theorem Slot.countEvent_latch (s : Slot) (e : Nat) : (s.countEvent e).latch = s.latch := rfl
@[simp] theorem Slot.countEvent_comet (s : Slot) (e : Nat) : (s.countEvent e).comet = s.comet := rfl
@[simp] theorem Slot.countEvent_task (s : Slot) (e : Nat) : (s.countEvent e).task = s.task := rfl
@[simp] theorem Slot.countEvent_next (s : Slot) (e : Nat) : (s.countEvent e).next = s.next := rfl
@[simp] theorem Slot.countEvent_nextStolen (s : Slot) (e : Nat) : (s.countEvent e).nextStolen = s.nextStolen := rfl
@[simp] theorem Slot.countEvent_taskh (s : Slot) (e : Nat) : (s.countEvent e).taskh = s.taskh := rfl
@[simp] theorem Slot.countEvent_level (s : Slot) (e : Nat) : (s.countEvent e).level = s.level := rfl
@[simp] theorem Slot.countEvent_ceil (s : Slot) (e : Nat) : (s.countEvent e).ceil = s.ceil := rfl
@[simp] theorem Slot.countEvent_cfgCeil (s : Slot) (e : Nat) : (s.countEvent e).cfgCeil = s.cfgCeil := rfl
@[simp] theorem Slot.countEvent_enabled (s : Slot) (e : Nat) : (s.countEvent e).enabled = s.enabled := rfl
@[simp] theorem Slot.countEvent_cfgNext (s : Slot) (e : Nat) : (s.countEvent e).cfgNext = s.cfgNext := rfl
@[simp] theorem Slot.countEvent_age (s : Slot) (e : Nat) : (s.countEvent e).age = s.age := rfl
@[simp] theorem Slot.countEvent_boost (s : Slot) (e : Nat) : (s.countEvent e).boost = s.boost := rfl
@[simp] theorem Slot.countEvent_stamp (s : Slot) (e : Nat) : (s.countEvent e).stamp = s.stamp := rfl
@[simp] theorem Slot.countEvent_deque (s : Slot) (e : Nat) : (s.countEvent e).deque = s.deque := rfl
@[simp] theorem Slot.countEvent_spillHead (s : Slot) (e : Nat) : (s.countEvent e).spillHead = s.spillHead := rfl
@[simp] theorem Slot.countEvent_spillCnt (s : Slot) (e : Nat) : (s.countEvent e).spillCnt = s.spillCnt := rfl
@[simp] theorem Slot.countEvent_spilled (s : Slot) (e : Nat) : (s.countEvent e).spilled = s.spilled := rfl
@[simp] theorem Slot.countEvent_dqring (s : Slot) (e : Nat) : (s.countEvent e).dqring = s.dqring := rfl
@[simp] theorem Slot.countEvent_steald (s : Slot) (e : Nat) : (s.countEvent e).steald = s.steald := rfl
@[simp] theorem Slot.countEvent_round (s : Slot) (e : Nat) : (s.countEvent e).round = s.round := rfl
@[simp] theorem Slot.countEvent_stealOk (s : Slot) (e : Nat) : (s.countEvent e).stealOk = s.stealOk := rfl
@[simp] theorem Slot.countEvent_stealEmpty (s : Slot) (e : Nat) : (s.countEvent e).stealEmpty = s.stealEmpty := rfl
@[simp] theorem Slot.countEvent_victims (s : Slot) (e : Nat) : (s.countEvent e).victims = s.victims := rfl
@[simp] theorem Slot.countEvent_backoff (s : Slot) (e : Nat) : (s.countEvent e).backoff = s.backoff := rfl
@[simp] theorem Slot.countEvent_aside (s : Slot) (e : Nat) : (s.countEvent e).aside = s.aside := rfl
@[simp] theorem Slot.countEvent_evq (s : Slot) (e : Nat) : (s.countEvent e).evq = s.evq := rfl
@[simp] theorem Slot.countEvent_evring (s : Slot) (e : Nat) : (s.countEvent e).evring = s.evring := rfl
@[simp] theorem Slot.countEvent_rq (s : Slot) (e : Nat) : (s.countEvent e).rq = s.rq := rfl
@[simp] theorem Slot.countEvent_rqHead (s : Slot) (e : Nat) : (s.countEvent e).rqHead = s.rqHead := rfl
@[simp] theorem Slot.countEvent_drop (s : Slot) (e : Nat) : (s.countEvent e).drop = s.drop := rfl
@[simp] theorem Slot.countEvent_ovf (s : Slot) (e : Nat) : (s.countEvent e).ovf = s.ovf := rfl
@[simp] theorem Slot.countEvent_pmsel (s : Slot) (e : Nat) : (s.countEvent e).pmsel = s.pmsel := rfl
@[simp] theorem Slot.countEvent_smv (s : Slot) (e : Nat) : (s.countEvent e).smv = s.smv := rfl
@[simp] theorem Slot.countEvent_hcSent (s : Slot) (e : Nat) : (s.countEvent e).hcSent = s.hcSent := rfl
@[simp] theorem Slot.countEvent_hcReply (s : Slot) (e : Nat) : (s.countEvent e).hcReply = s.hcReply := rfl
@[simp] theorem Slot.countEvent_cycles (s : Slot) (e : Nat) : (s.countEvent e).cycles = s.cycles := rfl
@[simp] theorem Slot.countEvent_owned (s : Slot) (e : Nat) : (s.countEvent e).owned = s.owned := rfl
@[simp] theorem Slot.countEvent_ir (s : Slot) (e : Nat) : (s.countEvent e).ir = s.ir := rfl

/-! ## Slot.detach -/
@[simp] theorem Slot.detach_run (s : Slot) (led : Nat → Bool) : (s.detach led).run = s.run := by unfold Slot.detach; split <;> rfl
@[simp] theorem Slot.detach_ctx (s : Slot) (led : Nat → Bool) : (s.detach led).ctx = s.ctx := by unfold Slot.detach; split <;> rfl
@[simp] theorem Slot.detach_rf (s : Slot) (led : Nat → Bool) : (s.detach led).rf = s.rf := by unfold Slot.detach; split <;> rfl
@[simp] theorem Slot.detach_pw (s : Slot) (led : Nat → Bool) : (s.detach led).pw = s.pw := by unfold Slot.detach; split <;> rfl
@[simp] theorem Slot.detach_il (s : Slot) (led : Nat → Bool) : (s.detach led).il = s.il := by unfold Slot.detach; split <;> rfl
@[simp] theorem Slot.detach_pc (s : Slot) (led : Nat → Bool) : (s.detach led).pc = s.pc := by unfold Slot.detach; split <;> rfl
@[simp] theorem Slot.detach_n (s : Slot) (led : Nat → Bool) : (s.detach led).n = s.n := by unfold Slot.detach; split <;> rfl
@[simp] theorem Slot.detach_view (s : Slot) (led : Nat → Bool) : (s.detach led).view = s.view := by unfold Slot.detach; split <;> rfl
@[simp] theorem Slot.detach_grantP (s : Slot) (led : Nat → Bool) : (s.detach led).grantP = s.grantP := by unfold Slot.detach; split <;> rfl
@[simp] theorem Slot.detach_grantN (s : Slot) (led : Nat → Bool) : (s.detach led).grantN = s.grantN := by unfold Slot.detach; split <;> rfl
@[simp] theorem Slot.detach_grantReq (s : Slot) (led : Nat → Bool) : (s.detach led).grantReq = s.grantReq := by unfold Slot.detach; split <;> rfl
@[simp] theorem Slot.detach_streams (s : Slot) (led : Nat → Bool) : (s.detach led).streams = s.streams := by unfold Slot.detach; split <;> rfl
@[simp] theorem Slot.detach_schk (s : Slot) (led : Nat → Bool) : (s.detach led).schk = s.schk := by unfold Slot.detach; split <;> rfl
@[simp] theorem Slot.detach_tvec (s : Slot) (led : Nat → Bool) : (s.detach led).tvec = s.tvec := by unfold Slot.detach; split <;> rfl
@[simp] theorem Slot.detach_tcause (s : Slot) (led : Nat → Bool) : (s.detach led).tcause = s.tcause := by unfold Slot.detach; split <;> rfl
@[simp] theorem Slot.detach_tret (s : Slot) (led : Nat → Bool) : (s.detach led).tret = s.tret := by unfold Slot.detach; split <;> rfl
@[simp] theorem Slot.detach_tval (s : Slot) (led : Nat → Bool) : (s.detach led).tval = s.tval := by unfold Slot.detach; split <;> rfl
@[simp] theorem Slot.detach_inh (s : Slot) (led : Nat → Bool) : (s.detach led).inh = s.inh := by unfold Slot.detach; split <;> rfl
@[simp] theorem Slot.detach_ts0 (s : Slot) (led : Nat → Bool) : (s.detach led).ts0 = s.ts0 := by unfold Slot.detach; split <;> rfl
@[simp] theorem Slot.detach_ts1 (s : Slot) (led : Nat → Bool) : (s.detach led).ts1 = s.ts1 := by unfold Slot.detach; split <;> rfl
@[simp] theorem Slot.detach_saved (s : Slot) (led : Nat → Bool) : (s.detach led).saved = s.saved := by unfold Slot.detach; split <;> rfl
@[simp] theorem Slot.detach_written (s : Slot) (led : Nat → Bool) : (s.detach led).written = s.written := by unfold Slot.detach; split <;> rfl
@[simp] theorem Slot.detach_ocLd (s : Slot) (led : Nat → Bool) : (s.detach led).ocLd = s.ocLd := by unfold Slot.detach; split <;> rfl
@[simp] theorem Slot.detach_ocSt (s : Slot) (led : Nat → Bool) : (s.detach led).ocSt = s.ocSt := by unfold Slot.detach; split <;> rfl
@[simp] theorem Slot.detach_ocAt (s : Slot) (led : Nat → Bool) : (s.detach led).ocAt = s.ocAt := by unfold Slot.detach; split <;> rfl
@[simp] theorem Slot.detach_ocLw (s : Slot) (led : Nat → Bool) : (s.detach led).ocLw = s.ocLw := by unfold Slot.detach; split <;> rfl
@[simp] theorem Slot.detach_tl (s : Slot) (led : Nat → Bool) : (s.detach led).tl = s.tl := by unfold Slot.detach; split <;> rfl
@[simp] theorem Slot.detach_look (s : Slot) (led : Nat → Bool) : (s.detach led).look = s.look := by unfold Slot.detach; split <;> rfl
@[simp] theorem Slot.detach_parked (s : Slot) (led : Nat → Bool) : (s.detach led).parked = s.parked := by unfold Slot.detach; split <;> rfl
@[simp] theorem Slot.detach_wait (s : Slot) (led : Nat → Bool) : (s.detach led).wait = s.wait := by unfold Slot.detach; split <;> rfl
@[simp] theorem Slot.detach_mid (s : Slot) (led : Nat → Bool) : (s.detach led).mid = s.mid := by unfold Slot.detach; split <;> rfl
@[simp] theorem Slot.detach_got (s : Slot) (led : Nat → Bool) : (s.detach led).got = s.got := by unfold Slot.detach; split <;> rfl
@[simp] theorem Slot.detach_latch (s : Slot) (led : Nat → Bool) : (s.detach led).latch = s.latch := by unfold Slot.detach; split <;> rfl
@[simp] theorem Slot.detach_task (s : Slot) (led : Nat → Bool) : (s.detach led).task = s.task := by unfold Slot.detach; split <;> rfl
@[simp] theorem Slot.detach_next (s : Slot) (led : Nat → Bool) : (s.detach led).next = s.next := by unfold Slot.detach; split <;> rfl
@[simp] theorem Slot.detach_nextStolen (s : Slot) (led : Nat → Bool) : (s.detach led).nextStolen = s.nextStolen := by unfold Slot.detach; split <;> rfl
@[simp] theorem Slot.detach_taskh (s : Slot) (led : Nat → Bool) : (s.detach led).taskh = s.taskh := by unfold Slot.detach; split <;> rfl
@[simp] theorem Slot.detach_level (s : Slot) (led : Nat → Bool) : (s.detach led).level = s.level := by unfold Slot.detach; split <;> rfl
@[simp] theorem Slot.detach_ceil (s : Slot) (led : Nat → Bool) : (s.detach led).ceil = s.ceil := by unfold Slot.detach; split <;> rfl
@[simp] theorem Slot.detach_cfgCeil (s : Slot) (led : Nat → Bool) : (s.detach led).cfgCeil = s.cfgCeil := by unfold Slot.detach; split <;> rfl
@[simp] theorem Slot.detach_enabled (s : Slot) (led : Nat → Bool) : (s.detach led).enabled = s.enabled := by unfold Slot.detach; split <;> rfl
@[simp] theorem Slot.detach_cfgNext (s : Slot) (led : Nat → Bool) : (s.detach led).cfgNext = s.cfgNext := by unfold Slot.detach; split <;> rfl
@[simp] theorem Slot.detach_age (s : Slot) (led : Nat → Bool) : (s.detach led).age = s.age := by unfold Slot.detach; split <;> rfl
@[simp] theorem Slot.detach_boost (s : Slot) (led : Nat → Bool) : (s.detach led).boost = s.boost := by unfold Slot.detach; split <;> rfl
@[simp] theorem Slot.detach_stamp (s : Slot) (led : Nat → Bool) : (s.detach led).stamp = s.stamp := by unfold Slot.detach; split <;> rfl
@[simp] theorem Slot.detach_deque (s : Slot) (led : Nat → Bool) : (s.detach led).deque = s.deque := by unfold Slot.detach; split <;> rfl
@[simp] theorem Slot.detach_spillHead (s : Slot) (led : Nat → Bool) : (s.detach led).spillHead = s.spillHead := by unfold Slot.detach; split <;> rfl
@[simp] theorem Slot.detach_spillCnt (s : Slot) (led : Nat → Bool) : (s.detach led).spillCnt = s.spillCnt := by unfold Slot.detach; split <;> rfl
@[simp] theorem Slot.detach_spilled (s : Slot) (led : Nat → Bool) : (s.detach led).spilled = s.spilled := by unfold Slot.detach; split <;> rfl
@[simp] theorem Slot.detach_dqring (s : Slot) (led : Nat → Bool) : (s.detach led).dqring = s.dqring := by unfold Slot.detach; split <;> rfl
@[simp] theorem Slot.detach_steald (s : Slot) (led : Nat → Bool) : (s.detach led).steald = s.steald := by unfold Slot.detach; split <;> rfl
@[simp] theorem Slot.detach_round (s : Slot) (led : Nat → Bool) : (s.detach led).round = s.round := by unfold Slot.detach; split <;> rfl
@[simp] theorem Slot.detach_stealOk (s : Slot) (led : Nat → Bool) : (s.detach led).stealOk = s.stealOk := by unfold Slot.detach; split <;> rfl
@[simp] theorem Slot.detach_stealEmpty (s : Slot) (led : Nat → Bool) : (s.detach led).stealEmpty = s.stealEmpty := by unfold Slot.detach; split <;> rfl
@[simp] theorem Slot.detach_victims (s : Slot) (led : Nat → Bool) : (s.detach led).victims = s.victims := by unfold Slot.detach; split <;> rfl
@[simp] theorem Slot.detach_backoff (s : Slot) (led : Nat → Bool) : (s.detach led).backoff = s.backoff := by unfold Slot.detach; split <;> rfl
@[simp] theorem Slot.detach_aside (s : Slot) (led : Nat → Bool) : (s.detach led).aside = s.aside := by unfold Slot.detach; split <;> rfl
@[simp] theorem Slot.detach_evq (s : Slot) (led : Nat → Bool) : (s.detach led).evq = s.evq := by unfold Slot.detach; split <;> rfl
@[simp] theorem Slot.detach_evring (s : Slot) (led : Nat → Bool) : (s.detach led).evring = s.evring := by unfold Slot.detach; split <;> rfl
@[simp] theorem Slot.detach_rq (s : Slot) (led : Nat → Bool) : (s.detach led).rq = s.rq := by unfold Slot.detach; split <;> rfl
@[simp] theorem Slot.detach_rqHead (s : Slot) (led : Nat → Bool) : (s.detach led).rqHead = s.rqHead := by unfold Slot.detach; split <;> rfl
@[simp] theorem Slot.detach_drop (s : Slot) (led : Nat → Bool) : (s.detach led).drop = s.drop := by unfold Slot.detach; split <;> rfl
@[simp] theorem Slot.detach_ovf (s : Slot) (led : Nat → Bool) : (s.detach led).ovf = s.ovf := by unfold Slot.detach; split <;> rfl
@[simp] theorem Slot.detach_pmsel (s : Slot) (led : Nat → Bool) : (s.detach led).pmsel = s.pmsel := by unfold Slot.detach; split <;> rfl
@[simp] theorem Slot.detach_pmc (s : Slot) (led : Nat → Bool) : (s.detach led).pmc = s.pmc := by unfold Slot.detach; split <;> rfl
@[simp] theorem Slot.detach_smv (s : Slot) (led : Nat → Bool) : (s.detach led).smv = s.smv := by unfold Slot.detach; split <;> rfl
@[simp] theorem Slot.detach_hcSent (s : Slot) (led : Nat → Bool) : (s.detach led).hcSent = s.hcSent := by unfold Slot.detach; split <;> rfl
@[simp] theorem Slot.detach_hcReply (s : Slot) (led : Nat → Bool) : (s.detach led).hcReply = s.hcReply := by unfold Slot.detach; split <;> rfl
@[simp] theorem Slot.detach_cycles (s : Slot) (led : Nat → Bool) : (s.detach led).cycles = s.cycles := by unfold Slot.detach; split <;> rfl
@[simp] theorem Slot.detach_owned (s : Slot) (led : Nat → Bool) : (s.detach led).owned = s.owned := by unfold Slot.detach; split <;> rfl
@[simp] theorem Slot.detach_ir (s : Slot) (led : Nat → Bool) : (s.detach led).ir = s.ir := by unfold Slot.detach; split <;> rfl

end Sys2Proof.Machine
end

