-- ==== Sys2Proof/Laws/Table.lean ====
section
/-! SUPPORT. Laws of tables and of memory: read after write, and the canonical form. -/
namespace Sys2Proof.Machine
set_option Elab.async false

/-! ## Tables -/

@[simp] theorem Tab.find_nil {α : Type} (k : Nat) : Tab.find ([] : Tab α) k = none := rfl

@[simp] theorem Tab.find_put_self {α : Type} (t : Tab α) (k : Nat) (v : α) : Tab.find (Tab.put t k v) k = some v := by
  induction t with
  | nil => simp [Tab.put, Tab.find]
  | cons e t ih =>
    obtain ⟨j, w⟩ := e
    by_cases h : j = k
    · simp [Tab.put, Tab.find, h]
    · by_cases h2 : k < j
      · simp [Tab.put, Tab.find, h, h2]
      · simp [Tab.put, Tab.find, h, h2, ih]

theorem Tab.find_put_of_ne {α : Type} (t : Tab α) {k j : Nat} (v : α) (h : j ≠ k) : Tab.find (Tab.put t k v) j = Tab.find t j := by
  induction t with
  | nil => simp [Tab.put, Tab.find, Ne.symm h]
  | cons e t ih =>
    obtain ⟨i, w⟩ := e
    by_cases h1 : i = k
    · subst h1; simp [Tab.put, Tab.find, Ne.symm h]
    · by_cases h2 : k < i
      · simp [Tab.put, Tab.find, h1, h2, Ne.symm h]
      · simp [Tab.put, Tab.find, h1, h2, ih]

theorem Tab.find_put {α : Type} (t : Tab α) (k j : Nat) (v : α) : Tab.find (Tab.put t k v) j = if j = k then some v else Tab.find t j := by
  by_cases h : j = k
  · subst h; simp
  · simp [Tab.find_put_of_ne t v h, h]

@[simp] theorem Tab.get_put_self {α : Type} (t : Tab α) (d : α) (k : Nat) (v : α) : Tab.get (Tab.put t k v) d k = v := by simp [Tab.get]

theorem Tab.get_put_of_ne {α : Type} (t : Tab α) (d : α) {k j : Nat} (v : α) (h : j ≠ k) : Tab.get (Tab.put t k v) d j = Tab.get t d j := by
  simp [Tab.get, Tab.find_put_of_ne t v h]

/-! ## Slots -/

@[simp] theorem Mach.slot_setSlot_self (m : Mach) (k : Nat) (x : Slot) : (m.setSlot k x).slot k = x := by simp [Mach.slot, Mach.setSlot]
theorem Mach.slot_setSlot_of_ne (m : Mach) {k j : Nat} (x : Slot) (h : j ≠ k) : (m.setSlot k x).slot j = m.slot j := by
  simp [Mach.slot, Mach.setSlot, Tab.get_put_of_ne _ _ _ h]
@[simp] theorem Mach.slot_updSlot_self (m : Mach) (k : Nat) (f : Slot → Slot) : (m.updSlot k f).slot k = f (m.slot k) := by simp [Mach.updSlot]
theorem Mach.slot_updSlot_of_ne (m : Mach) {k j : Nat} (f : Slot → Slot) (h : j ≠ k) : (m.updSlot k f).slot j = m.slot j := by
  simp [Mach.updSlot, Mach.slot_setSlot_of_ne _ _ h]
@[simp] theorem Mach.core_setCore_self (m : Mach) (k : Nat) (x : Core) : (m.setCore k x).core k = x := by simp [Mach.core, Mach.setCore]
theorem Mach.core_setCore_of_ne (m : Mach) {k j : Nat} (x : Core) (h : j ≠ k) : (m.setCore k x).core j = m.core j := by
  simp [Mach.core, Mach.setCore, Tab.get_put_of_ne _ _ _ h]
@[simp] theorem Mach.ctx_setCtx_self (m : Mach) (k : Nat) (x : Ctx) : (m.setCtx k x).ctx k = x := by simp [Mach.ctx, Mach.setCtx]
theorem Mach.ctx_setCtx_of_ne (m : Mach) {k j : Nat} (x : Ctx) (h : j ≠ k) : (m.setCtx k x).ctx j = m.ctx j := by
  simp [Mach.ctx, Mach.setCtx, Tab.get_put_of_ne _ _ _ h]
@[simp] theorem Mach.octet_setOctet_self (m : Mach) (k : Nat) (x : Octet) : (m.setOctet k x).octet k = x := by simp [Mach.octet, Mach.setOctet]
@[simp] theorem Mach.cluster_setCluster_self (m : Mach) (k : Nat) (x : Cluster) : (m.setCluster k x).cluster k = x := by
  simp [Mach.cluster, Mach.setCluster]
@[simp] theorem Mach.slice_setSlice_self (m : Mach) (k : Nat) (x : Slice) : (m.setSlice k x).slice k = x := by simp [Mach.slice, Mach.setSlice]
@[simp] theorem Mach.die_setDie_self (m : Mach) (k : Nat) (x : Die) : (m.setDie k x).die k = x := by simp [Mach.die, Mach.setDie]
@[simp] theorem Mach.iodie_setIodie_self (m : Mach) (k : Nat) (x : IoDie) : (m.setIodie k x).iodie k = x := by simp [Mach.iodie, Mach.setIodie]
@[simp] theorem Mach.pair_setPair_self (m : Mach) (c k : Nat) (x : Pair) : (m.setPair c k x).pair c k = x := by simp [Mach.pair, Mach.setPair]

/-! ## Memory -/

/-- The canonical form, as a chain: every byte nonzero, addresses rising from `lo`. -/
def Mem.From : Nat → Mem → Prop
  | _, [] => True
  | lo, (a, v) :: m => lo ≤ a ∧ v ≠ 0 ∧ Mem.From (a + 1) m

theorem Mem.From.mono {m : Mem} {lo hi : Nat} (h : Mem.From hi m) (hl : lo ≤ hi) : Mem.From lo m := by
  cases m with
  | nil => trivial
  | cons c m => exact ⟨Nat.le_trans hl h.1, h.2⟩

theorem Mem.wf_iff (m : Mem) : m.wf = true ↔ Mem.From 0 m := by
  have key : ∀ (m : Mem) (lo : Nat), (∀ c ∈ m.head?, lo ≤ c.1) → (m.wf = true ↔ Mem.From lo m) := by
    intro m
    induction m with
    | nil => intro lo _; simp [Mem.wf, Mem.From]
    | cons c m ih =>
      intro lo hlo
      obtain ⟨a, v⟩ := c
      cases m with
      | nil =>
        have := hlo (a, v) (by simp)
        simp only [Mem.wf, Mem.From, and_true, bne_iff_ne, ne_eq]
        exact ⟨fun h => ⟨this, h⟩, fun h => h.2⟩
      | cons d m =>
        obtain ⟨b, w⟩ := d
        have h1 := hlo (a, v) (by simp)
        have h2 := fun (h : a < b) => ih (a + 1) (by intro c hc; simp at hc; subst hc; exact h)
        simp only [Mem.wf, Bool.and_eq_true, bne_iff_ne, ne_eq, decide_eq_true_eq]
        constructor
        · intro h
          exact ⟨h1, h.1.1, (h2 h.1.2).1 h.2⟩
        · intro h
          have hab : a < b := h.2.2.1
          exact ⟨⟨h.2.1, hab⟩, (h2 hab).2 h.2.2⟩
  exact key m 0 (by intro c _; exact Nat.zero_le _)

theorem byte_ne_zero {v : Nat} (h : v % 256 ≠ 0) : BitVec.ofNat 8 v ≠ 0 := by
  intro e
  have := congrArg BitVec.toNat e
  simp at this
  exact h this

theorem Mem.From_filter {m : Mem} (p : Host.Cell → Bool) : ∀ {lo : Nat}, Mem.From lo m → Mem.From lo (m.filter p) := by
  induction m with
  | nil => intro lo h; exact h
  | cons c m ih =>
    intro lo h
    obtain ⟨h1, h2, h3⟩ := h
    by_cases hp : p c = true
    · simp only [List.filter_cons, hp, if_true]
      exact ⟨h1, h2, ih h3⟩
    · simp only [List.filter_cons, hp]
      exact (ih h3).mono (by omega)

theorem Mem.From_wr {m : Mem} : ∀ {lo a : Nat} (v : Nat), Mem.From lo m → lo ≤ a → Mem.From lo (m.wr a v) := by
  induction m with
  | nil =>
    intro lo a v _ ha
    by_cases hv : v % 256 = 0
    · simp [Mem.wr, hv, Mem.From]
    · simp only [Mem.wr, hv, if_false]
      exact ⟨ha, byte_ne_zero hv, trivial⟩
  | cons c m ih =>
    intro lo a v h ha
    obtain ⟨b, w⟩ := c
    obtain ⟨h1, h2, h3⟩ := h
    by_cases hab : a < b
    · by_cases hv : v % 256 = 0
      · simp only [Mem.wr, hab, hv, if_true]
        exact ⟨h1, h2, Mem.From_filter _ h3⟩
      · simp only [Mem.wr, hab, hv, if_true, if_false]
        exact ⟨ha, byte_ne_zero hv, hab, h2, h3⟩
    · by_cases he : a = b
      · subst he
        by_cases hv : v % 256 = 0
        · simp only [Mem.wr, hv, lt_irrefl, if_true, if_false]
          exact (Mem.From_filter _ h3).mono (by omega)
        · simp only [Mem.wr, hv, lt_irrefl, if_true, if_false]
          exact ⟨ha, byte_ne_zero hv, h3⟩
      · simp only [Mem.wr, hab, he, if_false]
        exact ⟨h1, h2, ih v h3 (by omega)⟩

/-- A write keeps the canonical form. -/
theorem Mem.wf_wr {m : Mem} (a v : Nat) (h : m.wf = true) : (m.wr a v).wf = true :=
  (Mem.wf_iff _).2 (Mem.From_wr v ((Mem.wf_iff _).1 h) (Nat.zero_le _))

/-- Writes keep the canonical form. -/
theorem Mem.wf_wrAll {m : Mem} (l : List (Nat × Nat)) (h : m.wf = true) : (m.wrAll l).wf = true := by
  unfold Mem.wrAll
  induction l generalizing m with
  | nil => exact h
  | cons c l ih => exact ih (Mem.wf_wr c.1 c.2 h)

/-- Clearing a region keeps the canonical form. -/
theorem Mem.wf_filter {m : Mem} (p : Host.Cell → Bool) (h : m.wf = true) : Mem.wf (m.filter p) = true :=
  (Mem.wf_iff _).2 (Mem.From_filter p ((Mem.wf_iff _).1 h))

theorem Mem.rd_filter_self (m : Mem) (a : Nat) : Mem.rd (m.filter (fun c => c.1 != a)) a = 0 := by
  induction m with
  | nil => rfl
  | cons c m ih =>
    by_cases h : c.1 = a
    · simpa [List.filter_cons, h] using ih
    · simp only [List.filter_cons, bne_iff_ne, ne_eq, h, not_false_eq_true, if_true, Mem.rd, beq_iff_eq, if_false]
      exact ih

theorem Mem.rd_filter_of_ne {m : Mem} {a b : Nat} (h : b ≠ a) : Mem.rd (m.filter (fun c => c.1 != a)) b = m.rd b := by
  induction m with
  | nil => rfl
  | cons c m ih =>
    by_cases hc : c.1 = a
    · simp only [List.filter_cons, hc, bne_self_eq_false, Bool.false_eq_true, if_false, ih, Mem.rd, beq_iff_eq, Ne.symm h]
    · simp only [List.filter_cons, bne_iff_ne, ne_eq, hc, not_false_eq_true, if_true, Mem.rd, ih]

/-- A read after a write to the same place gives the value written, whatever the form of the memory. -/
theorem Mem.rd_wr_self (m : Mem) (a v : Nat) : (m.wr a v).rd a = v % 256 := by
  induction m with
  | nil =>
    by_cases hv : v % 256 = 0
    · simp [Mem.wr, hv, Mem.rd]
    · simp [Mem.wr, hv, Mem.rd]
  | cons c m ih =>
    obtain ⟨b, w⟩ := c
    by_cases hab : a < b
    · by_cases hv : v % 256 = 0
      · simp only [Mem.wr, hab, hv, if_true, Mem.rd, beq_iff_eq]
        rw [if_neg (by omega)]
        exact Mem.rd_filter_self m a
      · simp [Mem.wr, hab, hv, Mem.rd]
    · by_cases he : a = b
      · subst he
        by_cases hv : v % 256 = 0
        · simp only [Mem.wr, hv, lt_irrefl, if_true, if_false]
          exact Mem.rd_filter_self m a
        · simp [Mem.wr, hv, Mem.rd]
      · simp only [Mem.wr, hab, he, if_false, Mem.rd, beq_iff_eq]
        rw [if_neg (Ne.symm he)]
        exact ih

/-- A write leaves every other place alone, whatever the form of the memory. -/
theorem Mem.rd_wr_of_ne {m : Mem} {a b : Nat} (v : Nat) (h : b ≠ a) : (m.wr a v).rd b = m.rd b := by
  induction m with
  | nil =>
    by_cases hv : v % 256 = 0
    · simp [Mem.wr, hv]
    · simp [Mem.wr, hv, Mem.rd, Ne.symm h]
  | cons c m ih =>
    obtain ⟨d, w⟩ := c
    by_cases had : a < d
    · by_cases hv : v % 256 = 0
      · simp only [Mem.wr, had, hv, if_true, Mem.rd, Mem.rd_filter_of_ne h]
      · simp [Mem.wr, had, hv, Mem.rd, Ne.symm h]
    · by_cases he : a = d
      · subst he
        by_cases hv : v % 256 = 0
        · simp only [Mem.wr, hv, lt_irrefl, if_true, if_false, Mem.rd_filter_of_ne h, Mem.rd, beq_iff_eq, Ne.symm h]
        · simp [Mem.wr, hv, Mem.rd, Ne.symm h]
      · simp only [Mem.wr, had, he, if_false, Mem.rd, ih]

/-- Writes leave the places alone that they do not name. -/
theorem Mem.rd_wrAll_of_not_mem {m : Mem} {l : List (Nat × Nat)} {b : Nat} (h : ∀ c ∈ l, c.1 ≠ b) : (m.wrAll l).rd b = m.rd b := by
  unfold Mem.wrAll
  induction l generalizing m with
  | nil => rfl
  | cons c l ih =>
    rw [List.foldl_cons, ih (fun d hd => h d (List.mem_cons_of_mem _ hd)), Mem.rd_wr_of_ne _ (Ne.symm (h c (List.mem_cons_self ..)))]

theorem Mem.rd_lt (m : Mem) (a : Nat) : m.rd a < 256 := by
  induction m with
  | nil => simp [Mem.rd]
  | cons c m ih =>
    obtain ⟨b, v⟩ := c
    simp only [Mem.rd]
    split
    · exact v.isLt
    · exact ih

/-! ## Little-endian numbers -/

@[simp] theorem toLE_length (n v : Nat) : (toLE n v).length = n := by
  induction n generalizing v with
  | zero => rfl
  | succ n ih => simp [toLE, ih]

/-- A number comes back from its bytes, reduced to their width. -/
theorem ofLE_toLE (n v : Nat) : ofLE (toLE n v) = v % 256 ^ n := by
  induction n generalizing v with
  | zero => simp [toLE, ofLE, Nat.mod_one]
  | succ n ih =>
    simp only [toLE, ofLE, ih]
    rw [pow_succ', Nat.mod_mul]

theorem mem_cellsAt {a : Nat} {l : List Nat} {c : Nat × Nat} (h : c ∈ cellsAt a l) : a ≤ c.1 ∧ c.1 < a + l.length := by
  unfold cellsAt at h
  simp only [List.mem_map, Prod.exists] at h
  obtain ⟨x, i, hx, rfl⟩ := h
  have := (List.mem_zipIdx hx)
  simp at this
  constructor
  · simp
  · simp; omega

/-- A store of bytes leaves every address outside them alone. -/
theorem Mem.rd_wrAll_cellsAt {m : Mem} {a b : Nat} {l : List Nat} (h : b < a ∨ a + l.length ≤ b) : (m.wrAll (cellsAt a l)).rd b = m.rd b :=
  Mem.rd_wrAll_of_not_mem (fun c hc => by have := mem_cellsAt hc; omega)

end Sys2Proof.Machine
end

