-- ==== Sys2Proof/Laws/Issue.lean ====
section
/-! SUPPORT. Laws of executions: what each primitive answers, and the issue of a word. -/
namespace Sys2Proof.Machine
set_option Elab.async false

/-! ## The monad -/

theorem bind_apply {α β : Type} (x : M α) (f : α → M β) (m : Mach) :
    (x >>= f) m = match x m with
      | .ok (a, m1) => f a m1
      | .error e => .error e := by
  change (x m >>= fun p => f p.1 p.2) = _
  cases x m <;> rfl

theorem map_apply {α β : Type} (f : α → β) (x : M α) (m : Mach) :
    (f <$> x) m = match x m with
      | .ok (a, m1) => .ok (f a, m1)
      | .error e => .error e := by
  change (x m >>= fun p => Except.ok (f p.1, p.2)) = _
  cases x m <;> rfl

@[simp] theorem pure_apply {α : Type} (a : α) (m : Mach) : (pure a : M α) m = .ok (a, m) := rfl
@[simp] theorem get_apply (m : Mach) : (get : M Mach) m = .ok (m, m) := rfl
@[simp] theorem change_apply (f : Mach → Mach) (m : Mach) : change f m = .ok ((), f m) := rfl
@[simp] theorem changeMine_apply (f : Slot → Slot) (m : Mach) : changeMine f m = .ok ((), m.updSlot m.cur f) := rfl
@[simp] theorem look_apply {α : Type} (f : Mach → α) (m : Mach) : look f m = .ok (f m, m) := rfl
@[simp] theorem mine_apply {α : Type} (f : Slot → α) (m : Mach) : mine f m = .ok (f m.sl, m) := rfl
@[simp] theorem trap_apply {α : Type} (c v : Nat) (m : Mach) : (trap c v : M α) m = .error (.trap c v) := rfl
@[simp] theorem halt_apply {α : Type} (f : Mach → Stop) (m : Mach) : (halt f : M α) m = .error (f m) := rfl
@[simp] theorem block_apply {α : Type} (w : Wait) (m : Mach) : (block w : M α) m = .error (.block w) := rfl
@[simp] theorem trapIf_false (c v : Nat) (m : Mach) : trapIf false c v m = .ok ((), m) := rfl
@[simp] theorem trapIf_true (c v : Nat) (m : Mach) : trapIf true c v m = .error (.trap c v) := rfl
@[simp] theorem blockIf_false (w : Wait) (m : Mach) : blockIf false w m = .ok ((), m) := rfl
@[simp] theorem blockIf_true (w : Wait) (m : Mach) : blockIf true w m = .error (.block w) := rfl
@[simp] theorem blockWith_false (f : Mach → Mach) (w : Wait) (m : Mach) : blockWith false f w m = .ok ((), m) := rfl
@[simp] theorem blockWith_true (f : Mach → Mach) (w : Wait) (m : Mach) : blockWith true f w m = .error (.blockWith f w) := rfl
@[simp] theorem freshId_apply (m : Mach) : freshId m = .ok (m.nextId, { m with nextId := m.nextId + 1 }) := rfl
@[simp] theorem freshNo_apply (m : Mach) : freshNo m = .ok (m.fresh, { m with fresh := m.fresh + 1 }) := rfl
@[simp] theorem setFixed_apply (lat : Nat) (l : List (Nat × Nat)) (m : Mach) : setFixed lat l m = .ok ((), m.updSlot m.cur (·.pend lat l)) := rfl
@[simp] theorem stopIf_none (m : Mach) : stopIf none m = .ok ((), m) := rfl
@[simp] theorem stopIf_some (e : Stop) (m : Mach) : stopIf (some e) m = .error e := rfl
@[simp] theorem enabledIf_true (m : Mach) : enabledIf true m = .ok ((), m) := rfl
@[simp] theorem enabledIf_false (m : Mach) : enabledIf false m = .error (.refused .notEnabled) := rfl
@[simp] theorem need_some {α : Type} (a : α) (m : Mach) : need (some a) m = .ok (a, m) := rfl
@[simp] theorem need_none {α : Type} (m : Mach) : (need none : M α) m = .error (.refused .notEnabled) := rfl
@[simp] theorem notEnabled_apply {α : Type} (m : Mach) : (notEnabled : M α) m = .error (.refused .notEnabled) := rfl

theorem ite_apply_M {α : Type} (c : Prop) [Decidable c] (x y : M α) (m : Mach) : (if c then x else y) m = if c then x m else y m := by
  split <;> rfl
theorem trapIf_of {b : Bool} (h : b = false) (c v : Nat) (m : Mach) : trapIf b c v m = .ok ((), m) := by rw [h]; rfl
theorem blockIf_of {b : Bool} (h : b = false) (w : Wait) (m : Mach) : blockIf b w m = .ok ((), m) := by rw [h]; rfl
theorem blockWith_of {b : Bool} (h : b = false) (f : Mach → Mach) (w : Wait) (m : Mach) : blockWith b f w m = .ok ((), m) := by rw [h]; rfl

/-! ## Running -/

theorem run_ok {x : M Unit} {s : State} {m : Mach} (h : x s.m = .ok ((), m)) : run x s = .next { s with m := m } := by
  simp [run, h, finish]

theorem run_trap {x : M Unit} {s : State} {c v : Nat} (h : x s.m = .error (.trap c v)) :
    run x s = .next { s with m := takeTrap s.m.cur c v s.m.sl.retAddr s.m } := by simp [run, h, finish]

theorem run_stay {x : M Unit} {s : State} {m : Mach} (h : x s.m = .error (.stay m)) : run x s = .next { s with m := m } := by
  simp [run, h, finish]

theorem run_trapAt {x : M Unit} {s : State} {m : Mach} {c v r : Nat} (h : x s.m = .error (.trapAt m c v r)) :
    run x s = .next { s with m := takeTrap m.cur c v r m } := by simp [run, h, finish]

/-- An execution leaves flash alone, whatever it answers. -/
theorem run_boot {x : M Unit} {s t : State} (h : run x s = .next t) : t.boot = s.boot := by
  unfold run finish at h
  split at h <;> first | (injection h with h; subst h; rfl) | cases h

/-- A device step leaves flash alone too. -/
theorem device_boot {x : M Unit} {s t : State} (h : device x s = .next t) : t.boot = s.boot := run_boot h

theorem device_ok {x : M Unit} {s : State} {m : Mach} (h : x s.m = .ok ((), m)) : device x s = .next { s with m := m } := run_ok h

/-! ## Hazards -/

@[simp] theorem Slot.stream_atIssue (s : Slot) (b : BitVec 8) : s.atIssue.stream b = s.stream b := rfl

theorem Slot.interlocked_nil {s : Slot} (h : s.il = []) (r : List Rng) : s.interlocked r = false := by simp [Slot.interlocked, h]
theorem Slot.pendingTo_nil {s : Slot} (h : s.il = []) (r : List Rng) : s.pendingTo r = false := by simp [Slot.pendingTo, h]
theorem Slot.underrun_due {s : Slot} (hi : s.il = []) (h : ∀ p ∈ s.pw, p.due ≤ s.n) (r : List Rng) : s.underrun r = false := by
  have hs : ∀ a, s.stale a = false := by
    intro a
    unfold Slot.stale
    rw [hi, List.any_nil, Bool.not_false, Bool.true_and]
    generalize s.pw = l at h
    induction l with
    | nil => rfl
    | cons p l ih =>
      simp only [List.foldl_cons, decide_eq_false (Nat.not_lt.2 (h p (List.mem_cons_self ..))), ite_self]
      exact ih (fun q hq => h q (List.mem_cons_of_mem _ hq))
  simp [Slot.underrun, hi, hs]

theorem streamVas_regs {s : Slot} : ∀ (l : List (BitVec 8 × Acc)), (∀ p ∈ l, s.stream p.1 = none) → streamVas s l = []
  | [], _ => rfl
  | (b, acc) :: l, h => by
    have hb := h (b, acc) (List.mem_cons_self ..)
    simp only [streamVas, hb]
    exact streamVas_regs l (fun p hp => h p (List.mem_cons_of_mem _ hp))

@[simp] theorem missing_nil (m : Mach) (c a : Nat) : missing m c a [] = [] := rfl

/-- No hazard stands against a word whose registers are settled. -/
theorem Slot.guardStop_none {s : Slot} {h : Hdr} (hi : s.il = []) (hp : s.schk = true → ∀ p ∈ s.pw, p.due ≤ s.n) : s.guardStop h = none := by
  unfold Slot.guardStop
  dsimp only
  rw [Slot.interlocked_nil hi]
  by_cases hs : s.schk = true
  · rw [Slot.underrun_due hi (hp hs)]; simp
  · simp [hs]

/-- Nor against one that may run in its mode, when its stream operands are registers. -/
theorem useStop_none {m : Mach} {u : Use} (hi : m.sl.il = []) (hp : m.sl.schk = true → ∀ p ∈ m.sl.pw, p.due ≤ m.sl.n)
    (hpr : u.priv = true → m.cx.prv = true) (hnd : (u.nondet || u.barred m.cx) = true → m.cx.det = false) (hs : ∀ p ∈ u.pops, m.sl.stream p.1 = none) :
    useStop m u = none := by
  unfold useStop
  dsimp only
  have h1 : (m.sl.schk && m.sl.underrun u.rd) = false := by
    by_cases h : m.sl.schk = true
    · rw [Slot.underrun_due hi (hp h)]; simp
    · simp [h]
  have h2 : u.rd.find? (fun r => m.sl.interlocked [r]) = none := by
    simp [List.find?_eq_none, Slot.interlocked_nil hi]
  have h3 : u.wr.find? (fun r => m.sl.pendingTo [r]) = none := by
    simp [List.find?_eq_none, Slot.pendingTo_nil hi]
  rw [h1, h2, h3, streamVas_regs u.pops hs]
  have h4 : (u.priv && !m.cx.prv) = false := by cases hp : u.priv <;> simp_all
  have h5 : ((u.nondet || u.barred m.cx) && m.cx.det) = false := by cases hp : (u.nondet || u.barred m.cx) <;> simp_all
  simp [h4, h5]

@[simp] theorem actMark_reg (on : Bool) (b : BitVec 8) (hv : Nat) (m : Mach) : actMark on false b false hv m = .ok ((), m) := by
  unfold actMark; cases on <;> rfl

end Sys2Proof.Machine
end

