-- ==== Sys2Proof/Laws/Completion.lean ====
section
/-! SUPPORT. The law of issue in the words of the statements: a word that nothing holds has its body's effect and retires. -/
namespace Sys2Proof.Claim
set_option Elab.async false
open Machine

@[simp] theorem issued_cur (s : State) : (issued s).cur = s.m.cur := rfl
@[simp] theorem issued_sl (s : State) : (issued s).sl = sl s := by simp [issued, Mach.sl, sl]
@[simp] theorem issued_cx (s : State) : (issued s).cx = s.m.cx := by
  show (issued s).ctx (issued s).sl.ctx = _
  rw [issued_sl]; rfl
@[simp] theorem issued_curCore (s : State) : (issued s).curCore = s.m.curCore := rfl

theorem IsReg.issued {b : BitVec 8} {s : State} (h : IsReg b s) : (issued s).sl.stream b = none := by rw [issued_sl]; exact h

theorem Ready.passes {h : Hdr} {s : State} (r : Ready h s) : (sl s).guardStop h = none :=
  Slot.guardStop_none (s := sl s) r.landed r.due

/-- What the body of a word that nothing holds is run on, and what follows it. -/
theorem issue_ready {h : Hdr} {a b : BitVec 8} {use : Slot → Use} {body : M (Option Nat)} {s : State} (r : Ready h s)
    (ha : IsReg a s) (hb : IsReg b s) (hm : (use (sl s)).handleA = false)
    (hpr : (use (sl s)).priv = true → s.m.cx.prv = true) (hnd : ((use (sl s)).nondet || (use (sl s)).barred s.m.cx) = true → s.m.cx.det = false)
    (hs : ∀ p ∈ (use (sl s)).pops, IsReg p.1 s) :
    issue h a b use body s.m = match body (issued s) with
      | .ok p => .ok ((), retire h p.1 p.2)
      | .error e => .error e := by
  have hu : useStop (issued s) (use (sl s)) = none := by
    apply useStop_none
    · rw [issued_sl]; exact r.landed
    · rw [issued_sl]; exact r.due
    · rw [issued_cx]; exact hpr
    · rw [issued_cx]; exact hnd
    · intro p hp; rw [issued_sl]; exact hs p hp
  have hsa : (sl s).stream a = none := ha
  have hsb : (sl s).stream b = none := hb
  have e1 : s.m.updSlot s.m.cur Slot.atIssue = issued s := rfl
  simp only [issue, bind_apply, changeMine_apply, e1, mine_apply, issued_sl, id, r.passes, stopIf_none, r.guard, Bool.false_eq_true,
    if_false, get_apply, hu, hm, hsa, hsb]
  cases body (issued s) with
  | error e => rfl
  | ok p => simp

/-- A word that nothing holds and whose body completes. -/
theorem run_issue {h : Hdr} {a b : BitVec 8} {use : Slot → Use} {body : M (Option Nat)} {s : State} {tgt : Option Nat} {m : Mach}
    (r : Ready h s) (ha : IsReg a s) (hb : IsReg b s) (hm : (use (sl s)).handleA = false)
    (hpr : (use (sl s)).priv = true → s.m.cx.prv = true) (hnd : ((use (sl s)).nondet || (use (sl s)).barred s.m.cx) = true → s.m.cx.det = false)
    (hs : ∀ p ∈ (use (sl s)).pops, IsReg p.1 s) (h1 : body (issued s) = .ok (tgt, m)) :
    run (issue h a b use body) s = .next { s with m := retire h tgt m } := by
  apply run_ok
  rw [issue_ready r ha hb hm hpr hnd hs, h1]

/-- A word that nothing holds and whose body traps. -/
theorem run_issue_trap {h : Hdr} {a b : BitVec 8} {use : Slot → Use} {body : M (Option Nat)} {s : State} {c v : Nat}
    (r : Ready h s) (ha : IsReg a s) (hb : IsReg b s) (hm : (use (sl s)).handleA = false)
    (hpr : (use (sl s)).priv = true → s.m.cx.prv = true) (hnd : ((use (sl s)).nondet || (use (sl s)).barred s.m.cx) = true → s.m.cx.det = false)
    (hs : ∀ p ∈ (use (sl s)).pops, IsReg p.1 s) (h1 : body (issued s) = .error (.trap c v)) :
    run (issue h a b use body) s = .next { s with m := takeTrap s.m.cur c v s.m.sl.retAddr s.m } := by
  apply run_trap
  rw [issue_ready r ha hb hm hpr hnd hs, h1]

/-- A word that nothing holds and whose body stops. -/
theorem run_issue_stop {h : Hdr} {a b : BitVec 8} {use : Slot → Use} {body : M (Option Nat)} {s : State} {e : Stop}
    (r : Ready h s) (ha : IsReg a s) (hb : IsReg b s) (hm : (use (sl s)).handleA = false)
    (hpr : (use (sl s)).priv = true → s.m.cx.prv = true) (hnd : ((use (sl s)).nondet || (use (sl s)).barred s.m.cx) = true → s.m.cx.det = false)
    (hs : ∀ p ∈ (use (sl s)).pops, IsReg p.1 s) (h1 : body (issued s) = .error e) :
    run (issue h a b use body) s = finish s (.error e) := by
  unfold run
  rw [issue_ready r ha hb hm hpr hnd hs, h1]

/-- A guard that does not pass: the word only retires (R13). -/
theorem run_issue_off {h : Hdr} {a b : BitVec 8} {use : Slot → Use} {body : M (Option Nat)} {s : State}
    (hl : s.m.sl.il = []) (hd : s.m.sl.schk = true → ∀ p ∈ (sl s).pw, p.due ≤ s.m.sl.n) (hg : ((sl s).q h.g.toNat == h.gn) = true) :
    run (issue h a b use body) s = .next (after h none id s) := by
  apply run_ok
  have hp : (sl s).guardStop h = none := Slot.guardStop_none (s := sl s) hl hd
  have e1 : s.m.updSlot s.m.cur Slot.atIssue = issued s := rfl
  simp only [issue, bind_apply, changeMine_apply, e1, mine_apply, issued_sl, id, hp, stopIf_none, hg, if_true, change_apply]


theorem isReg_zero (s : State) : IsReg 0 s := by simp [IsReg, Slot.stream]

/-- A word without operands. -/
theorem run_plain {h : Hdr} {body : M (Option Nat)} {s : State} {tgt : Option Nat} {m : Mach} (r : Ready h s) (h1 : body (issued s) = .ok (tgt, m)) :
    run (plain h body) s = .next { s with m := retire h tgt m } :=
  run_issue r (isReg_zero s) (isReg_zero s) rfl (by simp) (by simp) (by simp) h1
theorem run_plain_stop {h : Hdr} {body : M (Option Nat)} {s : State} {e : Stop} (r : Ready h s) (h1 : body (issued s) = .error e) :
    run (plain h body) s = finish s (.error e) :=
  run_issue_stop r (isReg_zero s) (isReg_zero s) rfl (by simp) (by simp) (by simp) h1

@[simp] theorem sl_pc (s : State) : (sl s).pc = s.m.sl.pc := rfl
@[simp] theorem sl_n (s : State) : (sl s).n = s.m.sl.n := rfl
@[simp] theorem sl_isFollower (s : State) : (sl s).isFollower = s.m.sl.isFollower := rfl
@[simp] theorem sl_comet (s : State) : (sl s).comet = s.m.sl.comet := rfl
@[simp] theorem sl_rep (s : State) : (sl s).rep = s.m.sl.rep := rfl
@[simp] theorem sl_inh (s : State) : (sl s).inh = s.m.sl.inh := rfl
@[simp] theorem sl_il (s : State) : (sl s).il = s.m.sl.il := rfl
@[simp] theorem sl_streams (s : State) : (sl s).streams = s.m.sl.streams := rfl
@[simp] theorem sl_ctx (s : State) : (sl s).ctx = s.m.sl.ctx := rfl
@[simp] theorem sl_updSlot_cur (m : Mach) (f : Slot → Slot) : (m.updSlot m.cur f).sl = f m.sl := Mach.slot_updSlot_self m m.cur f
@[simp] theorem updSlot_cur (m : Mach) (k : Nat) (f : Slot → Slot) : (m.updSlot k f).cur = m.cur := rfl

/-! ## Operands -/

theorem rdG_reg {b : BitVec 8} {m : Mach} (h : m.sl.stream b = none) : rdG b m = .ok (m.sl.g (gNo b), m) := by
  simp [rdG, bind_apply, h]
theorem wrG_reg {lat : Nat} {b : BitVec 8} {v : Nat} {m : Mach} (h : m.sl.stream b = none) : wrG lat b v m = .ok ((), fixed lat (gCells (gNo b) v) m) := by
  simp [wrG, bind_apply, h, fixed]
@[simp] theorem rdGp_apply (b : BitVec 8) (m : Mach) : rdGp b m = .ok (m.sl.g (gNo b), m) := rfl
@[simp] theorem rdGn_apply (k : Nat) (m : Mach) : rdGn k m = .ok (m.sl.g k, m) := rfl
@[simp] theorem rdQ_apply (b : BitVec 8) (m : Mach) : rdQ b m = .ok (m.sl.q (qNo b), m) := rfl
@[simp] theorem wrQ_apply (lat : Nat) (b : BitVec 8) (v : Bool) (m : Mach) : wrQ lat b v m = .ok ((), fixed lat (qCells (qNo b) v) m) := rfl

theorem setLand_apply (src : LandSrc) (cells : List (Nat × Option Nat)) (m : Mach) : setLand src cells 0 m = .ok ((), lands src cells m) := by
  simp only [setLand, bind_apply, freshId_apply, ite_apply_M, pure_apply, changeMine_apply, lands]
  split <;> rfl

theorem wrLand_reg {src : LandSrc} {b : BitVec 8} {v : Nat} {m : Mach} (h : m.sl.stream b = none) :
    wrLand src b v m = .ok ((), lands src (known (gCells (gNo b) v)) m) := by
  simp only [wrLand, bind_apply, mine_apply, id, h]
  exact setLand_apply _ _ _

theorem newLand_apply (src : LandSrc) (cells : List Nat) (m : Mach) : newLand src cells m = .ok (m.nextId, awaits src cells m) := rfl

/-! ## Accesses -/

@[simp] theorem issued_dev (s : State) : (issued s).dev = s.m.dev := rfl
@[simp] theorem issued_mem (s : State) : (issued s).mem = s.m.mem := rfl
@[simp] theorem issued_nextId (s : State) : (issued s).nextId = s.m.nextId := rfl
@[simp] theorem atomHeld_issued (s : State) (k : Nat) : atomHeld (issued s) k = atomHeld s.m k := rfl
@[simp] theorem capFails_issued (s : State) (c : Ctx) (core va n : Nat) : capFails (issued s) c core va n = capFails s.m c core va n := rfl
@[simp] theorem sl_ocLd (s : State) : (sl s).ocLd = s.m.sl.ocLd := rfl
@[simp] theorem sl_ocSt (s : State) : (sl s).ocSt = s.m.sl.ocSt := rfl
@[simp] theorem sl_ocAt (s : State) : (sl s).ocAt = s.m.sl.ocAt := rfl
@[simp] theorem sl_ocLw (s : State) : (sl s).ocLw = s.m.sl.ocLw := rfl

theorem accessGate_apply {s : State} (h : Clear s) : accessGate (issued s) = .ok ((), issued s) := by
  simp only [accessGate, bind_apply, get_apply, issued_cur, atomHeld_issued]
  rw [h]; rfl

theorem capCheck_apply {va n : Nat} {s : State} (h : Held va n s) : capCheck va n (issued s) = .ok ((), issued s) := by
  simp only [capCheck, bind_apply, get_apply, issued_cx, issued_curCore, capFails_issued]
  rw [h]; rfl

/-- Accesses whose own checks pass, of memory of a type that the instruction may use, and that translate. -/
theorem xlateScoped_maps {s : State} (scope : PaKind → Option Nat) (l : List (Nat × Acc × Nat)) (h : ∀ p ∈ l, Maps p.1 p.2.1 p.2.2 s)
    (hk : ∀ p ∈ l, scope (paKind s.m.dev p.2.2) = none) :
    xlateScoped scope (l.map (fun p => (p.1, p.2.1, none))) (issued s) = .ok (l.map (·.2.2), issued s) := by
  have h1 : (l.map (fun p => ((p.1, p.2.1, none) : Nat × Acc × Option (Nat × Nat)))).map (meetAt scope (issued s)) = l.map (fun p => Met.pa p.2.2) := by
    rw [List.map_map]
    apply List.map_congr_left
    intro p hp
    obtain ⟨e, he, hpa⟩ := (h p hp).entry
    simp only [Function.comp_apply, meetAt, issued_curCore, issued_cx, he, issued_dev, hpa, hk p hp,
      if_neg (Nat.not_le.2 (h p hp).range)]
  have h2 : (l.map (fun p => Met.pa p.2.2)).find? (fun x => (metPa x).isNone) = none := by
    rw [List.find?_eq_none]
    intro x hx
    obtain ⟨p, -, rfl⟩ := List.mem_map.1 hx
    simp [metPa]
  have h3 : (l.map (fun p => Met.pa p.2.2)).map (fun x => (metPa x).getD 0) = l.map (·.2.2) := by
    rw [List.map_map]; rfl
  have h5 : (l.map (·.2.2)).any (waitsService s.m.dev) = false := by
    rw [List.any_eq_false]
    intro p hp
    obtain ⟨q, hq, rfl⟩ := List.mem_map.1 hp
    simp [(h q hq).service]
  simp only [xlateScoped, bind_apply, get_apply, h1, h2, h3, issued_dev, h5, pure_apply, blockIf_false]

theorem xlateAll_maps {s : State} (l : List (Nat × Acc × Nat)) (h : ∀ p ∈ l, Maps p.1 p.2.1 p.2.2 s) :
    xlateAll (l.map (fun p => (p.1, p.2.1))) (issued s) = .ok (l.map (·.2.2), issued s) := by
  have := xlateScoped_maps anyMemory l h (fun p hp => by
    have := (h p hp).there
    unfold anyMemory; split <;> simp_all)
  rw [← this, xlateAll, xlateChecked, List.map_map]
  rfl

theorem xlate_maps {s : State} {va pa : Nat} {acc : Acc} (h : Maps va acc pa s) : xlate va acc (issued s) = .ok (pa, issued s) := by
  have := xlateAll_maps (s := s) [(va, acc, pa)] (by simpa using h)
  simp only [List.map_cons, List.map_nil] at this
  simp [xlate, bind_apply, this]

theorem roomSt_apply {s : State} (h : RoomSt s) : roomSt (issued s) = .ok ((), issued s) := by
  simp only [roomSt, bind_apply, mine_apply, id]
  rw [blockIf_of (by rw [issued_sl]; exact decide_eq_false (Nat.not_le.2 h))]

theorem countLd_apply {s : State} (h : RoomLd s) : countLd true (issued s) = .ok ((), countsLd (issued s)) := by
  obtain ⟨h1, h2⟩ := h
  simp only [countLd, bind_apply, get_apply]
  rw [blockIf_of (b := true && decide (64 ≤ loadEntries (issued s) (issued s).curCore)) (decide_eq_false (Nat.not_le.2 h2))]
  dsimp only
  rw [blockIf_of (by rw [issued_sl]; exact decide_eq_false (Nat.not_le.2 h1))]; rfl

theorem countAt_apply {s : State} (h : RoomAt s) : countAt (issued s) = .ok ((), countsAt (issued s)) := by
  simp only [countAt, bind_apply, mine_apply, id]
  rw [blockIf_of (by rw [issued_sl]; exact decide_eq_false (Nat.not_le.2 h))]; rfl

theorem countLw_apply {s : State} (h : RoomLw s) : countLw (issued s) = .ok ((), countsLw (issued s)) := by
  simp only [countLw, bind_apply, mine_apply, id]
  rw [blockIf_of (by rw [issued_sl]; exact decide_eq_false (Nat.not_le.2 h))]; rfl

theorem drain_idle {s : State} (h : Idle s) (a b c d : Bool) : drain a b c d (issued s) = .ok ((), issued s) := by
  obtain ⟨h1, h2, h3, h4⟩ := h
  simp [drain, bind_apply, h1, h2, h3, h4]

theorem findSp_sound {o n : Nat} {s : State} {c : Nat} (hc : c = s.m.curCore) (h : Sound o n s) : findSp (spPlace c o) n (issued s) = issued s := by
  subst hc
  unfold findSp
  have : ∀ l : List Nat, (∀ w ∈ l, ∀ p ∈ s.m.plantSp, p.1 ≠ w) → l.foldl (fun m w => match m.plantSp.find? (·.1 == w) with
    | none => m
    | some (_, uc) =>
      let m := { m with plantSp := m.plantSp.filter (·.1 != w) }
      if uc then { (m.bumpMon (w / 2 ^ 28) 0 4) with spoison := w :: m.spoison }
      else m.bumpMon (w / 2 ^ 28) 0 3) (issued s) = issued s := by
    intro l
    induction l with
    | nil => intro _; rfl
    | cons w l ih =>
      intro hl
      have hn : (issued s).plantSp.find? (·.1 == w) = none := by
        rw [List.find?_eq_none]
        intro p hp
        simpa using hl w (List.mem_cons_self ..) p hp
      simp only [List.foldl_cons, hn]
      exact ih (fun v hv => hl v (List.mem_cons_of_mem _ hv))
  exact this _ (fun w hw => (h w hw).2)

theorem spRead_sound {o n : Nat} {s : State} (h : Sound o n s) :
    spRead o n (issued s) = .ok ((s.m.spad.rdN (spPlace s.m.curCore o) n), issued s) := by
  have hp : spPoisoned (issued s) (spPlace s.m.curCore o) n = false := by
    unfold spPoisoned
    rw [List.any_eq_false]
    intro w hw
    have := (h w hw).1
    simpa using (show w ∉ (issued s).spoison from this)
  simp only [spRead, bind_apply, get_apply, change_apply]
  rw [findSp_sound (o := o) (c := (issued s).curCore) rfl h, if_neg (show ¬ (spPoisoned (issued s) (spPlace (issued s).curCore o) n = true) by
    rw [issued_curCore, hp]; simp)]
  rfl

end Sys2Proof.Claim
end

