-- ==== Sys2Proof/Laws/Retirement.lean ====
section
/-! SUPPORT. Laws of register bytes and of retirement: what a pending write, a landing and a retirement leave as it was. -/
namespace Sys2Proof.Machine
set_option Elab.async false

/-! ## Pending writes -/

theorem latest_append (l : List (Nat × Nat)) (c : Nat × Nat) (a : Nat) : latest (l ++ [c]) a = if c.1 == a then some c.2 else latest l a := by
  simp [latest, List.foldl_append]

theorem latest_of_not_mem {l : List (Nat × Nat)} {a : Nat} (h : ∀ c ∈ l, c.1 ≠ a) : latest l a = none := by
  induction l using List.reverseRecOn with
  | nil => rfl
  | append_singleton l d ih =>
    rw [latest_append, if_neg (by simpa using h d (by simp))]
    exact ih (fun c hc => h c (by simp [hc]))

theorem Mem.rd_wrAll_latest (m : Mem) (l : List (Nat × Nat)) (a : Nat) : (m.wrAll l).rd a = ((latest l a).map (· % 256)).getD (m.rd a) := by
  induction l using List.reverseRecOn with
  | nil => rfl
  | append_singleton l d ih =>
    rw [latest_append]
    have : m.wrAll (l ++ [d]) = (m.wrAll l).wr d.1 d.2 := by simp [Mem.wrAll]
    rw [this]
    by_cases hd : d.1 == a
    · have e : d.1 = a := by simpa using hd
      subst e
      simp [Mem.rd_wr_self]
    · rw [if_neg hd, Mem.rd_wr_of_ne _ (by intro e; exact hd (by simp [e])), ih]

/-- The last of the writes readable at `n`, over what came before them. -/
theorem pending_foldl (n a : Nat) : ∀ (pw : List Pend) (r : Option Nat),
    pw.foldl (fun r p => if p.due ≤ n then (latest p.cells a).orElse (fun _ => r) else r) r
     = (pw.foldl (fun r p => if p.due ≤ n then (latest p.cells a).orElse (fun _ => r) else r) none).orElse (fun _ => r)
  | [], r => by cases r <;> rfl
  | p :: l, r => by
    rw [List.foldl_cons, List.foldl_cons, pending_foldl n a l, pending_foldl n a l (if p.due ≤ n then _ else _)]
    generalize List.foldl _ none l = x
    cases x with
    | some v => rfl
    | none => split <;> cases latest p.cells a <;> cases r <;> rfl

@[simp] theorem Slot.note_byteAt (s : Slot) (l : List Nat) (n a : Nat) : (s.note l).byteAt n a = s.byteAt n a := by
  unfold Slot.note; split <;> rfl

/-- A pending write leaves every field but the pending writes and the handler's record. -/
theorem Slot.pend_eq (s : Slot) (l : Nat) (c : List (Nat × Nat)) : s.pend l c = { s with pw := (s.pend l c).pw, written := (s.pend l c).written } := by
  unfold Slot.pend Slot.note; dsimp only; split
  · rfl
  · split <;> rfl

/-! ## Retirement -/

@[simp] theorem Slot.counted_comet (s : Slot) (h : Hdr) (r : Nat) : (s.counted h r).comet = s.comet := by simp [Slot.counted]
@[simp] theorem Slot.counted_rep (s : Slot) (h : Hdr) (r : Nat) : (s.counted h r).rep = s.rep := by simp [Slot.counted]
@[simp] theorem Slot.counted_pc (s : Slot) (h : Hdr) (r : Nat) : (s.counted h r).pc = s.pc := by simp [Slot.counted]
@[simp] theorem Slot.counted_inh (s : Slot) (h : Hdr) (r : Nat) : (s.counted h r).inh = s.inh := by simp [Slot.counted]
@[simp] theorem Slot.repUpdate_comet (s : Slot) (d a i : Nat) : (s.repUpdate d a i).comet = s.comet := by
  unfold Slot.repUpdate; simp
@[simp] theorem Slot.repUpdate_pc (s : Slot) (d a i : Nat) : (s.repUpdate d a i).pc = s.pc := by
  unfold Slot.repUpdate; simp

theorem Slot.comet_ite (c : Prop) [Decidable c] (a b : Slot) : (if c then a else b).comet = if c then a.comet else b.comet := by split <;> rfl

@[simp] theorem Slot.advance_comet (s : Slot) (t : Option Nat) : (s.advance t).comet = s.comet := by
  unfold Slot.advance
  cases s.repeats with
  | some r =>
    dsimp only
    rw [Slot.comet_ite, Slot.repUpdate_comet, ite_self]
  | none => rfl

theorem Slot.repeats_none {s : Slot} (h : s.rep = none) : s.repeats = none := by unfold Slot.repeats; rw [h]
theorem Slot.advance_none {s : Slot} (h : s.rep = none) (t : Option Nat) : s.advance t = { s with pc := pcBits (t.getD (nextPc s.pc)) } := by
  unfold Slot.advance; rw [Slot.repeats_none h]

@[simp] theorem Mach.slot_dev (m : Mach) (d : Dev) (k : Nat) : Mach.slot ({ m with dev := d } : Mach) k = m.slot k := rfl

theorem forward_none {k : Nat} {f : Fwd} {m : Mach} (h : (m.slot k).comet = none) : forward k f m = m := by
  unfold forward; rw [h]

/-- The retirement of a slot outside comets. -/
theorem retire_alone {h : Hdr} {tgt : Option Nat} {m : Mach} (hc : m.sl.comet = none) :
    retire h tgt m = { m.setSlot m.cur ((m.sl.counted h m.dev.rr).advance tgt) with dev := { m.dev with rr := m.dev.rr + 1 } } := by
  have hc' : (m.slot m.cur).comet = none := hc
  have hs : m.sl = m.slot m.cur := rfl
  rw [hs]
  unfold retire
  simp only [Slot.counted_comet, hc']
  split
  · rfl
  · apply forward_none
    rw [Mach.slot_dev, Mach.slot_setSlot_self, Slot.advance_comet, Slot.counted_comet, hc']

end Sys2Proof.Machine
end

