-- ==== Sys2Proof/Laws/Operands.lean ====
section
/-! SUPPORT. Laws of operands at an issued word: registers, places of results, vector checks, the tensor engine, and flash. -/
namespace Sys2Proof
set_option Elab.async false
open Machine Claim

/-! ## Registers and counters after the issue -/

theorem rdG_issued {b : BitVec 8} {s : State} (h : IsReg b s) : rdG b (issued s) = .ok ((sl s).g (gNo b), issued s) := by
  rw [rdG_reg h.issued, issued_sl]

theorem wrG_issued {lat : Nat} {b : BitVec 8} {v : Nat} {s : State} (h : IsReg b s) :
    wrG lat b v (issued s) = .ok ((), fixed lat (gCells (gNo b) v) (issued s)) := wrG_reg h.issued

theorem wrLand_issued {src : LandSrc} {b : BitVec 8} {v : Nat} {s : State} (h : IsReg b s) :
    wrLand src b v (issued s) = .ok ((), lands src (known (gCells (gNo b) v)) (issued s)) := wrLand_reg h.issued

theorem rdGs_regs {s : State} : ∀ {l : List (BitVec 8)}, (∀ b ∈ l, IsReg b s) →
    rdGs l (issued s) = .ok (l.map (fun b => (sl s).g (gNo b)), issued s)
  | [], _ => rfl
  | b :: l, h => by
    simp only [rdGs, bind_apply, rdG_issued (h b (List.mem_cons_self ..)), rdGs_regs (fun c hc => h c (List.mem_cons_of_mem _ hc)),
      pure_apply, List.map_cons]

theorem countsLd_sl (s : State) : (countsLd (issued s)).sl = { sl s with ocLd := (sl s).ocLd + 1 } := by
  rw [← issued_sl]; exact Mach.slot_updSlot_self _ _ _

theorem countsAt_sl (s : State) : (countsAt (issued s)).sl = { sl s with ocAt := (sl s).ocAt + 1 } := by
  rw [← issued_sl]; exact Mach.slot_updSlot_self _ _ _

/-- Where a result in a register lands. -/
theorem resPlaces_issued {b : BitVec 8} {s : State} (h : IsReg b s) :
    resPlaces b (issued s) = .ok ((List.range 8).map (fun i => 8 * gNo b + i), issued s) := by
  have h' : (sl s).stream b = none := h
  simp only [resPlaces, bind_apply, mine_apply, id, issued_sl, h', pure_apply]

theorem resPlaces_countsAt {b : BitVec 8} {s : State} (h : IsReg b s) :
    resPlaces b (countsAt (issued s)) = .ok ((List.range 8).map (fun i => 8 * gNo b + i), countsAt (issued s)) := by
  have h' : (sl s).stream b = none := h
  simp only [resPlaces, bind_apply, mine_apply, id, countsAt_sl]
  rw [show Slot.stream { sl s with ocAt := (sl s).ocAt + 1 } b = none from h']; rfl

theorem spWrite_apply (o : Nat) (l : List Nat) (m : Mach) : spWrite o l m = .ok ((), storeSp (cellsAt (spPlace m.curCore o) l) m) := rfl

/-! ## What the issue leaves -/

@[simp] theorem issued_cmds (s : State) : (issued s).cmds = s.m.cmds := rfl
@[simp] theorem issued_sid (s : State) : (issued s).sid = s.m.sid := rfl
@[simp] theorem issued_cyc (s : State) : (issued s).cyc = s.m.cyc := rfl
@[simp] theorem issued_spad (s : State) : (issued s).spad = s.m.spad := rfl
@[simp] theorem issued_fresh (s : State) : (issued s).fresh = s.m.fresh := rfl
@[simp] theorem issued_core (s : State) (c : Nat) : (issued s).core c = s.m.core c := rfl
@[simp] theorem issued_pair (s : State) (c d : Nat) : (issued s).pair c d = s.m.pair c d := rfl
@[simp] theorem issued_ctx (s : State) (c : Nat) : (issued s).ctx c = s.m.ctx c := rfl
@[simp] theorem issued_cluster (s : State) (c : Nat) : (issued s).cluster c = s.m.cluster c := rfl

/-! ## Vector checks -/

theorem forM_ok {α : Type} (l : List α) (f : α → M Unit) (m : Mach) (h : ∀ a ∈ l, f a m = .ok ((), m)) : (l.forM f) m = .ok ((), m) := by
  induction l with
  | nil => rfl
  | cons a l ih =>
    show (f a >>= fun _ => l.forM f) m = _
    rw [bind_apply, h a (List.mem_cons_self ..)]
    exact ih (fun b hb => h b (List.mem_cons_of_mem _ hb))

/-- A vector register that lies in the bank passes. -/
theorem vCheck_issued {b : BitVec 8} {s : State} (h0 : (sl s).VS ≠ 0)
    (h1 : (sl s).vcap = 0 ∨ (sl s).vbyte (vNo b) (sl s).vcap ≤ shareOf s.m.cx.slots) :
    vCheck b (sl s).vcap (issued s) = .ok ((), issued s) := by
  simp only [vCheck, bind_apply, get_apply, issued_sl, issued_cx]
  rw [trapIf_of (by simpa using h0)]
  dsimp only
  rw [trapIf_of]
  rcases h1 with h | h
  · simp [h]
  · simp; intro _; omega

/-- Vector registers that lie in the bank and elements that fit the lanes pass. -/
theorem vChecks_issued {vs : List (BitVec 8)} {elts : List Elt} {s : State} (h0 : (sl s).VS ≠ 0)
    (h1 : ∀ b ∈ vs, (sl s).vcap = 0 ∨ (sl s).vbyte (vNo b) (sl s).vcap ≤ shareOf s.m.cx.slots)
    (h2 : ∀ e ∈ elts, e.width ≤ 8 * (sl s).vew) : vChecks vs elts (issued s) = .ok ((), issued s) := by
  simp only [vChecks, bind_apply, mine_apply, id, issued_sl]
  rw [forM_ok vs _ _ (fun b hb => vCheck_issued h0 (h1 b hb))]
  dsimp only
  rw [forM_ok elts (fun e => laneFits (sl s).vew e.width) _ (fun e he => trapIf_of (decide_eq_false (Nat.not_lt.2 (h2 e he))) _ _ _)]

/-! ## The tensor engine -/

@[simp] theorem issued_cj (s : State) : (issued s).cj = s.m.cj := by
  show (issued s).pair (issued s).sl.ctx _ = _
  rw [issued_sl]; rfl

theorem setCj_issued (s : State) (p : Pair) : (issued s).setCj p = (issued s).setPair s.m.sl.ctx (pairOf s.m.curCore) p := by
  show (issued s).setPair (issued s).sl.ctx _ p = _
  rw [issued_sl]; rfl

theorem issuerOnly_ok {s : State} (h : isIssuer s.m.curCore = true) : issuerOnly (issued s) = .ok ((), issued s) := by
  simp only [issuerOnly, bind_apply, get_apply, issued_curCore, h]; rfl

theorem issuerOnly_trap {s : State} (h : isIssuer s.m.curCore = false) : issuerOnly (issued s) = .error (.trap 0x24 0) := by
  simp only [issuerOnly, bind_apply, get_apply, issued_curCore, h]; rfl

/-- The engine serves the slot: no other slot holds it and no earlier command of its timeline is under way. -/
theorem cjWait_issued {s : State} (h : engineHeld s.m s.m.cur = false) (h3 : Clear s) : cjWait (issued s) = .ok ((), issued s) := by
  have h' : engineHeld (issued s) s.m.cur = false := by
    have e : (issued s).slot s.m.cur = sl s := issued_sl s
    simpa [engineHeld, e, Mach.sl] using h
  simp only [cjWait, bind_apply, accessGate_apply h3, get_apply, issued_cur]
  rw [blockWith_of h']

/-! ## Lines that have had their turn -/

/-- Lines that have been brought, at slices with nothing to perform, hold nothing up (R9, R137). -/
theorem bringLaw_of {ps : List (Nat × Nat)} {ch : Nat} {m : Mach}
    (h : ∀ p ∈ ps, m.sl.got.any (fun c => c.1 == broughtAt (p.1 / 128)) = true ∧ (present m p.1 = true ∨ paKind m.dev p.1 = .peer))
    (f : ∀ p ∈ ps, sliceFree m p.1 = true) : bringLaw ps ch m = .ok ((), m) := by
  have all : ((ps.filter (fun p => paKind m.dev p.1 != .host)).all (fun (p : Nat × Nat) =>
      m.sl.got.any (fun c => c.1 == broughtAt (p.1 / 128)) && (present m p.1 || paKind m.dev p.1 == .peer))) = true := by
    refine List.all_eq_true.2 (fun p hp => ?_)
    have := h p (List.mem_of_mem_filter hp)
    simpa using this
  have none : (ps.filter (fun p => paKind m.dev p.1 != .host)).find? (fun p => !sliceFree m p.1) = none :=
    List.find?_eq_none.2 (fun p hp => by simp [f p (List.mem_of_mem_filter hp)])
  simp only [bringLaw, bind_apply, get_apply, all, Bool.not_true, blockWith_false, none]
  rfl

/-- An engine's lines that have been served, and those of host memory, hold nothing up (R9, R111). -/
theorem engLines_of {c : Cmd} {reads writes : List Nat} {m : Mach} (h : ∀ l ∈ writes ++ reads, lineOpen m c l = false) :
    engLines c reads writes m = .ok ((), m) := by
  have none : ((writes ++ reads).dedup).filter (lineOpen m c) = [] :=
    List.filter_eq_nil_iff.2 (fun l hl => by simp [h l (List.mem_dedup.1 hl)])
  simp only [engLines, bind_apply, get_apply, none]
  rfl

/-! ## Flash -/

/-- A command that has no part of flash leaves it alone. -/
theorem command_boot {f : Mach → Except Nat (Mach × Nat)} {s t : State} (h : command f s = .next t) : t.boot = s.boot := device_boot h

end Sys2Proof
end

