-- ==== Sys2Proof/Tests/Slice0.lean ====
section
/-! SUPPORT. Tests: legality, decoding of words written out from the spec's tables, the witnesses of the statements' hypotheses, and a
few words executed. -/
section
set_option maxRecDepth 100000

namespace Sys2Proof.Test
open Machine Claim

/-! ## Legality: one ill-formed term for each check -/

/-- A header without stalls, guard, marks or hint. -/
def hd : Hdr := ⟨15, false, 0, false, false, 0⟩

theorem test_wf_legal : (Instr.add ⟨hd, 3, 1, 2, 0, .i64, .eq, 0⟩).wf = true := by decide
theorem test_wf_mark_needs_register : (Instr.movi ⟨{ hd with la := true }, 3, 0, 0, 7, .i64, .eq, 0⟩).wf = false := by decide
theorem test_wf_hint_needs_access : (Instr.add ⟨{ hd with ch := 1 }, 3, 1, 2, 0, .i64, .eq, 0⟩).wf = false := by decide
theorem test_wf_register_class : (Instr.add ⟨hd, 0x40, 1, 2, 0, .i64, .eq, 0⟩).wf = false := by decide
theorem test_wf_unused_byte : (Instr.add ⟨hd, 3, 1, 2, 1, .i64, .eq, 0⟩).wf = false := by decide
theorem test_wf_type : (Instr.atomAdd ⟨hd, 3, 1, 2, 0, .i8, .dev, .weak, 0⟩).wf = false := by decide
theorem test_wf_condition : (Instr.cmp ⟨hd, 0x81, 1, 2, 0, .i64, .un, 0⟩).wf = false := by decide
theorem test_wf_modifier : (Instr.add ⟨hd, 3, 1, 2, 0, .i64, .eq, 2⟩).wf = false := by decide
theorem test_wf_no_stream_at_control : (Instr.loop ⟨hd, 56, 0, 0, 0, 0⟩).wf = false := by decide
theorem test_wf_scope_and_kind : (Instr.ld ⟨hd, 3, 1, 0, 0, .i64, .dev, .weak, 0⟩).wf = false := by decide
theorem test_wf_scope_list : (Instr.publish ⟨hd, 0, 1, 0, 0, .i64, .oct, .weak, 0⟩).wf = false := by decide
theorem test_wf_hint_at_scratchpad : (Instr.atomAdd ⟨{ hd with ch := 1 }, 3, 1, 2, 0, .i64, .oct, .weak, 0⟩).wf = false := by decide
theorem test_wf_field : (Instr.bfx ⟨hd, 3, 1, 0, 0x4001, .i64, .eq, 0⟩).wf = false := by decide
theorem test_wf_claim : (Instr.vclaim ⟨hd, 30, 0, 0, 8, .i64, .eq, 0⟩).wf = false := by decide
theorem test_wf_block_registers_differ : (Instr.movblk ⟨hd, 3, 3, 4, 0, .i64, .oct, .weak, 0⟩).wf = false := by decide
theorem test_wf_law_register_pair : (Instr.lwpeek ⟨hd, 63, 1, 0, 0, .i64, .dev, .weak, 1⟩).wf = false := by decide
theorem test_wf_branch : (Instr.br ⟨hd, 1, 0, 0, 4, 0⟩).wf = false := by decide
theorem test_wf_mask : (Instr.vmask ⟨hd, 0x70, 0x41, 0, .t8e0, .t8e0, .rne, 1, true, 0, 0⟩).wf = false := by decide
theorem test_wf_format : (Instr.vadd ⟨hd, 0x40, 0x41, 0x42, .t6e0, .t6e0, .rne, 0, false, 0, 0⟩).wf = false := by decide
theorem test_wf_same_formats : (Instr.vadd ⟨hd, 0x40, 0x41, 0x42, .i8, .i16, .rne, 0, false, 0, 0⟩).wf = false := by decide
theorem test_wf_rounding : (Instr.vadd ⟨hd, 0x40, 0x41, 0x42, .i8, .i8, .rz, 0, false, 0, 0⟩).wf = false := by decide
theorem test_wf_saturation : (Instr.vadd ⟨hd, 0x40, 0x41, 0x42, .fp32, .fp32, .rne, 0, false, 0, 0x10⟩).wf = false := by decide
theorem test_wf_integer_type_bits : (Instr.vadd ⟨hd, 0x40, 0x41, 0x42, .i8, .i8, .rne, 0, false, 0, 0x60⟩).wf = false := by decide
theorem test_wf_geometry : (Instr.cjcfg ⟨hd, 0, 32, 0, 0, 0, .t8e0, .rne, 0⟩).wf = false := by decide
theorem test_wf_remote_operation : (Instr.rred ⟨hd, 0, 1, 2, 3, 0, .t8e0, .rne, 6⟩).wf = false := by decide
theorem test_wf_system_register : (Instr.sysrd ⟨hd, 3, 0, 0, 0, 0x0FF, 0⟩).wf = false := by decide
theorem test_wf_system_register_writable : (Instr.syswr ⟨hd, 0, 3, 0, 0, 0x001, 0⟩).wf = false := by decide
theorem test_wf_comet_role : (Instr.cometLead ⟨hd, 0, 0, 0, 0, 0, 0⟩).wf = false := by decide
theorem test_wf_other_agents_are_no_words : (Instr.storeAck 0).wf = false := by decide

/-! ## Words written out from the encoding tables (11 and the instruction chapters) -/

theorem test_decode_movi : decode 0x00000000_0880000F_00001618 = some (.movi ⟨hd, 22, 0, 0, 0x880, .i64, .eq, 0⟩) := by decide
theorem test_decode_add_guarded : decode 0x00000000_00000053_02010301 = some (.add ⟨⟨3, true, 2, false, false, 0⟩, 3, 1, 2, 0, .i64, .eq, 0⟩) := by decide
theorem test_decode_cmpi : decode 0x00200000_0008002F_00098114 = some (.cmpi ⟨⟨15, false, 1, false, false, 0⟩, 0x81, 9, 0, 8, .i64, .lt, 0⟩) := by decide
theorem test_decode_lwadv : decode 0x00000000_0000000F_00170EE0 = some (.lwadv ⟨hd, 14, 23, 0, 0, .i64, .oct, .weak, 0⟩) := by decide
theorem test_decode_lwadd : decode 0x02200000_0010000F_040300E1 = some (.lwadd ⟨hd, 0, 3, 4, 0x10, .i64, .dev, .weak, 2⟩) := by decide
theorem test_decode_vclaim : decode 0x00000000_0010000F_00001E80 = some (.vclaim ⟨hd, 30, 0, 0, 16, .i64, .eq, 0⟩) := by decide
theorem test_decode_vfmas : decode 0x0000002C_02D600AF_15414096 =
    some (.vfmas ⟨⟨15, false, 5, false, false, 0⟩, 0x40, 0x41, 0x15, .fp32, .fp32, .rne, 0, false, 0x16, 0⟩) := by decide
theorem test_decode_tlbinv : decode 0x00000000_0000000F_050400F3 = some (.tlbinv ⟨hd, 0, 4, 5, 0, .i64, .oct, .weak, 0⟩) := by decide
theorem test_decode_xlate : decode 0x00000000_0000000F_000706FD = some (.xlate ⟨hd, 6, 7, 0, 0, .i64, .oct, .weak, 0⟩) := by decide
theorem test_decode_hcall : decode 0x00123000_0000000F_000504FF = some (.hcall ⟨hd, 4, 5, 0, 0, 0, 0x123⟩) := by decide
theorem test_decode_kqpush : decode 0x00000000_0000000F_001800C8 = some (.kqpush ⟨hd, 0, 24, 0, 0, 0, .t8e0, .rne, 0⟩) := by decide
theorem test_decode_drain : decode 0x00000000_0000000F_34331CC2 = some (.drain ⟨hd, 28, 51, 52, 0, 0, .t8e0, .rne, 0⟩) := by decide
theorem test_decode_cjcfg : decode 0x00104200_0000000F_002000C0 = some (.cjcfg ⟨hd, 0, 32, 0, 0, 0, .t8e0, .rne, 0x1042⟩) := by decide
theorem test_decode_rput : decode 0x00000000_0000000F_050403D3 = some (.rput ⟨hd, 3, 4, 5, 0, 0, .t8e0, .rne, 0⟩) := by decide
theorem test_decode_ratom : decode 0x00001000_0000000F_020106D5 = some (.ratom ⟨hd, 6, 1, 2, 0, 0, .t8e0, .rne, 0x10⟩) := by decide
theorem test_decode_coll : decode 0x00000000_0000000F_000900D2 = some (.coll ⟨hd, 0, 9, 0, 0, 0, .t8e0, .rne, 0⟩) := by decide
theorem test_decode_atom_cas : decode 0x03230000_0008000F_02010553 = some (.atomCas ⟨hd, 5, 1, 2, 8, .n32, .dev, .weak, 3⟩) := by decide
theorem test_decode_evrule : decode 0x00020500_0000000F_000200DF = some (.evrule ⟨hd, 0, 2, 0, 0, 0, .t8e0, .rne, 0x205⟩) := by decide
theorem test_decode_ctxsave : decode 0x00000000_0000000F_030200F1 = some (.ctxsave ⟨hd, 0, 2, 3, 0, .i64, .oct, .weak, 0⟩) := by decide
theorem test_decode_dpath : decode 0x00000000_0000000F_0000037C = some (.dpath ⟨hd, 3, 0, 0, 0, .i64, .eq, 0⟩) := by decide
theorem test_decode_join : decode 0x00000000_0000000F_000A0061 = some (.join ⟨hd, 0, 10, 0, 0, .i64, .oct, .weak, 0⟩) := by decide
theorem test_decode_pmread : decode 0x00202000_0000000F_000009F7 = some (.pmread ⟨hd, 9, 0, 0, 0, 0, 0x202⟩) := by decide
theorem test_decode_eccinj : decode 0x00000000_0000000F_040300F8 = some (.eccinj ⟨hd, 0, 3, 4, 0, .i64, .oct, .weak, 0⟩) := by decide
theorem test_decode_sbind : decode 0x00020000_0000000F_02003839 = some (.sbind ⟨hd, 0x38, 0, 2, 0, .i32, .oct, .weak, 0⟩) := by decide

end Sys2Proof.Test

/-! ## States for the witnesses -/

namespace Sys2Proof.Test
open Machine Claim

/-- A context of one slot per core on cores 0 and 1 that may run privileged words. -/
def ctx0 : Ctx := { Ctx.none with st := .running, prv := true, cores := [0, 1] }
/-- The machine in full service: slot 0 of core 0 and of core 1 runs a task, one page of HBM is mapped. -/
def mach0 : Mach := { Mach.reset with
  dev := { Dev.init with step := 9, red := false, dies := 2 ^ 16 - 1 }
  ctxs := [(0, ctx0)]
  cores := [(0, { Core.init with slots := 1, tlb := [⟨0, 16, 1, 2 ^ 22, true, true⟩] }), (1, { Core.init with slots := 1, tlb := [⟨0, 16, 1, 2 ^ 22, true, true⟩] })]
  slots := [(0, { Slot.init with run := .running, pc := fetchPage, task := some (fetchTask 0) }),
    (4, { Slot.init with run := .running, pc := fetchPage, task := some (fetchTask 4) })] }
def demo : State := ⟨mach0, State.reset.boot⟩
def withSlot (f : Slot → Slot) (s : State) : State := { s with m := s.m.updSlot s.m.cur f }
def withCtx (f : Ctx → Ctx) (s : State) : State := { s with m := s.m.setCtx 0 (f (s.m.ctx 0)) }
def withMach (f : Mach → Mach) (s : State) : State := { s with m := f s.m }
/-- The executing slot's g registers hold the values. -/
def regs (l : List (Nat × Nat)) (s : State) : State := withSlot (fun y => { y with rf := l.foldl (fun rf p => rf.wrAll (gCells p.1 p.2)) y.rf }) s
/-- The slot of core 1, an issuer, executes. -/
def issuer : State := withMach (fun m => { m with cur := 4 }) demo

/-- What `Ready` asks of a slot without SCHK, as a check. -/
def readyB (h : Hdr) (s : State) : Bool := s.m.sl.il.isEmpty && !s.m.sl.schk && !((sl s).q h.g.toNat == h.gn)
theorem ready {h : Hdr} {s : State} (c : readyB h s = true) : Ready h s := by
  simp only [readyB, Bool.and_eq_true, List.isEmpty_iff, Bool.not_eq_true'] at c
  exact ⟨c.1.1, fun e => absurd e (by simp [c.1.2]), c.2⟩
theorem plainRegs {s : State} (h : s.m.sl.streams = []) (b : BitVec 8) : IsReg b s := by
  simp [IsReg, Slot.stream, h]
theorem ok_of {ε α : Type} {x : Except ε α} (h : x.isOk = true) : ∃ a, x = .ok a := by
  cases x with
  | ok a => exact ⟨a, rfl⟩
  | error e => cases h
/-- An execution answers, with what `p` says. -/
def okAnd {α : Type} (x : Except Stop (α × Mach)) (p : α → Mach → Bool) : Bool := match x with
  | .ok (a, m) => p a m
  | .error _ => false
/-- A translation of the core serves an access. -/
def mapsB (va : Nat) (acc : Acc) (pa : Nat) (s : State) : Bool :=
  decide (va < 2 ^ 56) && (match tlbHit (issued s) s.m.curCore s.m.cx.asid va acc with
    | some e => e.at_ va == pa
    | none => false) && paKind s.m.dev pa != .hole && !waitsService s.m.dev pa
theorem maps {va pa : Nat} {acc : Acc} {s : State} (c : mapsB va acc pa s = true) : Maps va acc pa s := by
  simp only [mapsB, Bool.and_eq_true, decide_eq_true_eq, bne_iff_ne, ne_eq, Bool.not_eq_true'] at c
  obtain ⟨⟨⟨h1, h2⟩, h3⟩, h4⟩ := c
  refine ⟨h1, ?_, h3, h4⟩
  split at h2
  · exact ⟨_, by assumption, by simpa using h2⟩
  · cases h2

def sw : SW := ⟨hd, 3, 1, 2, 0, .i64, .eq, 0⟩
def iw : IW := ⟨hd, 3, 1, 0, 0, .i64, .eq, 0⟩
def mw : MW := ⟨hd, 3, 1, 2, 0, .i64, .oct, .weak, 0⟩
def bw : BW := ⟨hd, 3, 0, 0, 4, 0⟩
def yw : YW := ⟨hd, 3, 1, 0, 0, 0, 0⟩
def zw : ZW := ⟨hd⟩
def vw : VW := ⟨hd, 0x40, 0x41, 0x42, .i8, .i8, .rne, 0, false, 0, 0⟩
def jw : JW := ⟨hd, 3, 1, 2, 0, 1, .i8, .rne, 0⟩

theorem demo_ready : Ready hd demo := ready (by decide)
theorem demo_regs (b : BitVec 8) : IsReg b demo := plainRegs rfl b

/-! ## Witnesses: states and operands that meet each statement's hypotheses -/

theorem witness_DecodeEncodeAgree : (Instr.vclaim ⟨hd, 30, 0, 0, 16, .i64, .eq, 0⟩).wf = true := by decide
theorem witness_EncodeDecodeAgree : 0x00000000_00000053_02010301 < 2 ^ 96 ∧ (decode 0x00000000_00000053_02010301).isSome = true := by decide

/-- The state with a word to fetch: the legal and the illegal one. -/
def fetching (w : Nat) : State := State.reset.withFetchWord 96 w
theorem witness_StepRunsDecodedWord : ∀ w ∈ [0x02010301 + 2 ^ 32 * 0x53, 0x22],
    (fetching w).m.agenda = [.slot 0] ∧ ((fetching w).m.slot 0).task.isSome = true ∧ mayIssue { (fetching w).m with agenda := [] } 0 = true ∧
    ((fetchNext { (fetching w).m with agenda := [], cur := 0 }).map (·.1)).toOption = some w ∧ (fetching w).m.dev.red = false := by decide
theorem witness_StepRunsDecodedWord_red : let s := withMach (fun m => { m with dev := { m.dev with red := true } }) (fetching 0x02010301)
    s.m.dev.red = true ∧ (fetchNext { s.m with agenda := [], cur := 0 }).isOk = true ∧ reducedOpcode (0x02010301 % 256) = true := by decide
/-- The line is in the octet's cache, or it is not and no request for it is under way. -/
theorem witness_FetchReadsTwelveBytes : ∀ held ∈ [true, false],
    let m := if held then mach0.setOctet 0 { Octet.init with icache := [⟨fetchPage / 128, [(0, 1)], []⟩] } else mach0
    fetchPage + 11 < 2 ^ 56 ∧ granuleOf (fetchPage + 11) = granuleOf fetchPage ∧
    (tlbHit m m.curCore m.cx.asid fetchPage .fetch).any (fun e =>
      let p := e.at_ fetchPage
      decide (p % 128 ≤ 116) && paKind m.dev p != .hole && !waitsService m.dev p && (icFind m m.curCore (p / 128)).isSome == held &&
        (if held then (icFind m m.curCore (p / 128)).any (fun x => (List.range 12).all (fun i => !x.bad.contains ((p % 128 + i) / 8 * 8)))
         else !lineBusy m m.curCore (p / 128) && (List.range 12).all (fun i => !icPoisoned (icFill [p / 128] m.curCore (p / 128) m) m.curCore (p + i)))) = true := by decide

def guarded : Hdr := ⟨3, false, 0, false, false, 0⟩
theorem witness_GuardedOffOnlyRetires : hdr (.add { sw with h := guarded }) = some guarded ∧ demo.m.sl.il = [] ∧ demo.m.sl.schk = false ∧
    ((sl demo).q guarded.g.toNat == guarded.gn) = true ∧ Alone demo ∧ demo.m.sl.wait = none :=
  ⟨rfl, rfl, rfl, by decide, ⟨rfl, rfl⟩, rfl⟩

theorem witness_RetirementAndFixedResults : mach0.sl.comet = none ∧ mach0.sl.rep = none ∧
    (let m := mach0.updSlot 0 (fun y => { y with rep := some ⟨fetchPage - 12, 3, 1, 8, 0⟩ })
     m.sl.comet = none ∧ m.sl.rep = some ⟨fetchPage - 12, 3, 1, 8, 0⟩ ∧ m.sl.pc = nextPc (fetchPage - 12)) ∧
    (let m := mach0.updSlot 0 (fun y => { y with rep := some ⟨fetchPage, 3, 1, 8, 0⟩ })
     m.sl.rep = some ⟨fetchPage, 3, 1, 8, 0⟩ ∧ m.sl.pc ≠ nextPc fetchPage) ∧ mach0.sl.n ≤ 5 := by decide

theorem witness_ScalarBinaryResults : scalarBinary.length = 14 ∧ Ready sw.h demo ∧ ∀ b, IsReg b demo := ⟨rfl, demo_ready, demo_regs⟩
theorem witness_ScalarOtherResults : Ready sw.h demo ∧ Ready iw.h demo ∧ Ready mw.h demo ∧ ∀ b, IsReg b demo :=
  ⟨demo_ready, demo_ready, demo_ready, demo_regs⟩
theorem witness_ScalarFrame : Ready sw.h demo ∧ (∀ b, IsReg b demo) ∧ Alone demo ∧ (∃ t, exec (.mul sw) demo = .next t) ∧
    (∃ t, exec (.cmp { sw with d := 0x81 }) demo = .next t) ∧ (∃ t, exec (.div sw) demo = .next t) ∧ ∃ t, exec (.rem sw) demo = .next t :=
  ⟨demo_ready, demo_regs, ⟨rfl, rfl⟩, ⟨_, rfl⟩, ⟨_, rfl⟩, ⟨_, rfl⟩, ⟨_, rfl⟩⟩

/-- The core holds the mapped page's first line in L1, as memory has it. -/
def cached (s : State) : State := withMach (fun m => m.updCore m.curCore (fun c => { c with l1 := [⟨2 ^ 15, Mem.wrAll [] (cellsAt 0 (m.mem.rdN (2 ^ 22) 128)), []⟩] })) s
/-- A slot with an input and an output stream over the mapped page. -/
def streaming : State := withSlot (fun y => { y with streams := [(0, ⟨2 ^ 22, 4, 1, 8, 0, .i64, false, 1, 0⟩), (1, ⟨2 ^ 22, 4, 1, 8, 0, .i64, true, 0, 0⟩)] }) demo
theorem witness_StreamsAndViews : (∀ here ∈ [true, false], let s := if here then cached streaming else streaming
      ((sl s).stream 0x38).any (fun x => !x.out && decide (x.pos < x.len) && decide (x.addr x.pos % Ty.size x.ty = 0) && mapsB (x.addr x.pos) .read (2 ^ 22 + 8) s) = true ∧
      atomHeld s.m s.m.cur = false ∧ s.m.sl.ocLd < 255 ∧ loadEntries (issued s) s.m.curCore < 64 ∧ paKind s.m.dev (2 ^ 22 + 8) = .hbm ∧
      atHand (issued s) (2 ^ 22 + 8) 8 0 = here ∧ l1Poisoned s.m s.m.curCore (2 ^ 22 + 8) 8 = false) ∧ Ready hd demo ∧ (∀ b, IsReg b demo) ∧
    (∀ w ∈ [0, 2 ^ 22, 2 ^ 62, 3 * 2 ^ 20, 3 * 2 ^ 48], Ready yw.h (regs [(1, w)] demo) ∧ val 1 (regs [(1, w)] demo) = w) :=
  ⟨by decide, demo_ready, demo_regs, by
    intro w h; simp only [List.mem_cons, List.not_mem_nil, or_false] at h
    rcases h with rfl | rfl | rfl | rfl | rfl <;> exact ⟨ready (by decide), by decide⟩⟩

theorem witness_BranchesAndRepeats : Ready hd demo ∧ (∀ b, IsReg b demo) ∧ demo.m.sl.isFollower = false ∧
    (∀ w ∈ [2 ^ 56 - 4, 2 ^ 56, 2], Ready hd (regs [(1, w), (55, w)] demo) ∧ val 1 (regs [(1, w), (55, w)] demo) = w ∧ (sl (regs [(1, w), (55, w)] demo)).g 55 = w) :=
  ⟨demo_ready, demo_regs, rfl, by
    intro w h; simp only [List.mem_cons, List.not_mem_nil, or_false] at h
    rcases h with rfl | rfl | rfl <;> exact ⟨ready (by decide), by decide, by decide⟩⟩
/-- A body that REP repeats, one outside its groups, and one that names its count register; in a slot of no comet and in a follower. -/
theorem witness_RepChecksItsBody : ∀ p ∈ [(0x02010301, 1, 0), (0x02010301, 1, 5), (0x20, 1, 0), (0x02010301, 3, 0)],
    ∀ c ∈ [none, some (CometRole.follower 4 [])], let s := withSlot (fun y => { y with comet := c }) (withMach (fun m => { m with mem := Mem.wrAll [] (cellsAt (fetchPage + 12) (toLE 12 p.1)) })
        (regs [(p.2.1, p.2.2)] demo))
      (fetchWord (s.m.sl.pc + 12) (issued s)).isOk = true ∧ readyB hd s = true ∧ val (BitVec.ofNat 8 p.2.1) s = p.2.2 := by decide

theorem witness_WaitsClocksAndFetchControl :
    (let s := withSlot (fun y => { y with latch := 4 }) demo
     Ready iw.h s ∧ (∀ b, IsReg b s) ∧ Free s ∧ (sl s).sources &&& 4 ≠ 0) ∧
    (Ready iw.h demo ∧ (∀ b, IsReg b demo) ∧ Free demo ∧ (sl demo).sources &&& 4 = 0 ∧ val 1 demo ≤ demo.m.sid ∧ val 1 demo + 0 ≤ demo.m.sid) ∧
    (let s := regs [(1, 9)] demo
     Ready iw.h s ∧ demo.m.sid < val 1 s ∧ (sl s).sources &&& 4 = 0) ∧
    Ready zw.h demo ∧ demo.m.sl.isFollower = false ∧ demo.m.sl.ocSt = 0 ∧ (withSlot (fun y => { y with ocSt := 1 }) demo).m.sl.ocSt ≠ 0 ∧
    Privileged demo ∧ walking demo.m 0 0 fetchPage = false ∧ val 1 demo < 2 ^ 12 ∧ (fetchBytes (ofInt 64 ((demo.m.sl.pc : Int) + 4 * sx 32 bw.off.toNat)) 8 (issued demo)).isOk = true :=
  ⟨⟨ready (by decide), plainRegs rfl, rfl, by decide⟩, ⟨demo_ready, demo_regs, rfl, by decide, by decide, by decide⟩,
    ⟨ready (by decide), by decide, by decide⟩, demo_ready, rfl, rfl, by decide, rfl, by decide, by decide, by decide⟩

/-- SLOTCFG meets a slot at a boundary and one amid its instruction. -/
theorem witness_SlotCfg : ∀ b ∈ [true, false], let s := regs [(1, 0x31)] (withSlot (fun y => { y with mid := b }) demo)
    readyB hd s = true ∧ s.m.cx.prv = true ∧ val 1 s < 2 ^ 12 ∧ s.m.sl.mid = b ∧ (∀ k < 4, (s.m.core 0).slots ≤ k → bitAt (val 1 s) k = false ∧ bits (val 1 s) (4 + 2 * k) 2 = 0) := by decide

theorem witness_Traps : Ready iw.h demo ∧ (∀ b, IsReg b demo) ∧ (sl demo).q (qNo 0x8F) = true ∧ (sl demo).q (qNo 0x81) = false ∧ demo.m.sl.inh = false ∧
    (let s := withSlot (fun y => { y with inh := true }) demo
     Ready zw.h s ∧ s.m.sl.inh = true) ∧
    (mach0.slot 0).tvec % 2 ^ 56 / 4 = 0 ∧
    (let m := mach0.updSlot 0 (fun y => { y with tvec := 2 ^ 22 })
     (m.slot 0).tvec % 2 ^ 56 / 4 ≠ 0 ∧ (m.slot 0).inh = false) ∧
    (let m := mach0.updSlot 0 (fun y => { y with tvec := 4, inh := true })
     (m.slot 0).tvec % 2 ^ 56 / 4 ≠ 0 ∧ (m.slot 0).inh = true) :=
  ⟨demo_ready, demo_regs, by decide, by decide, rfl, ⟨ready (by decide), by decide⟩, by decide, by decide, by decide⟩
theorem witness_TrapThenReturnRestores : let x := mach0.slot 0
    x.inh = false ∧ (x.enterHandler 5 0 fetchPage).saved = (x.enterHandler 5 0 fetchPage).saved ∧ (x.enterHandler 5 0 fetchPage).pw = [] ∧ (0 : Nat) ∉ x.written := by decide

/-- A leader that waits at core 0 for core 1, and a follower that waits at core 1 for core 0. -/
def leading : State := withMach (fun m => m.updSlot 0 (fun y => { y with wait := some (.lead 2 2 0) })) demo
def joining : State := withMach (fun m => m.updSlot 4 (fun y => { y with wait := some (.follow 0 0) })) demo
theorem witness_CometsFormAndDissolve : Ready yw.h demo ∧ demo.m.sl.comet = none ∧ bitAt 2 (indexOf 0) = false ∧ joiners demo.m 0 2 none = none ∧
    joiners joining.m 0 2 none = some [4] ∧ joining.m.sl.comet = none ∧ (1 : Nat) ≠ indexOf 0 ∧ waitingLead demo.m 0 1 = none ∧
    (waitingLead leading.m 4 0).isSome = true ∧
    (let s := withMach (fun m => m.updSlot 0 (fun y => { y with wait := some (.lead 2 2 0) })) joining
     (s.m.slot 0).wait = some (.lead 2 2 0) ∧ (s.m.slot 0).run = .running ∧ (s.m.slot 0).enabled = true ∧ joiners s.m 0 2 none = some [4]) ∧
    (∀ r ∈ [CometRole.leader [4] 2 false, .follower 4 [], .detached 4], readyB hd (withSlot (fun y => { y with comet := some r }) demo) = true) ∧
    bitAt 1 (indexOf 0) = true ∧ (0 : Nat) = indexOf 0 ∧
    (∀ w ∈ [none, some (Wait.rejoin 0)],
      let s := withMach (fun m => m.updSlot 4 (fun y => { y with comet := some (.detached 0), wait := w })) (withSlot (fun y => { y with comet := some (.leader [4] 2 false) }) demo)
      readyB hd s = true ∧ s.m.sl.comet = some (.leader [4] 2 false) ∧ allRejoin s.m s.m.cur = w.isSome ∧ (s.m.slot 4).comet = some (.detached 0) ∧ (s.m.slot 4).wait = w) :=
  ⟨demo_ready, rfl, by decide, by decide, by decide, by decide, by decide, by decide, by decide, by decide, by decide, by decide, by decide, by decide⟩

theorem mapped (acc : Acc) : Maps (2 ^ 22) acc (2 ^ 22) (regs [(1, 2 ^ 22)] demo) := by cases acc <;> exact maps (by decide)
theorem witness_LoadsAndStores : let s := regs [(1, 2 ^ 22)] demo
    Ready mw.h s ∧ (∀ b, IsReg b s) ∧ Clear s ∧ addDisp (val 1 s) 0 = 2 ^ 22 ∧ 2 ^ 22 % Ty.size mw.ty = 0 ∧ (∀ acc, Maps (2 ^ 22) acc (2 ^ 22) s) ∧
    RoomLd s ∧ RoomSt s ∧ Held (2 ^ 22) 8 s ∧ addDisp (val 1 (regs [(1, 2 ^ 22 + 4)] demo)) 0 % Ty.size mw.ty ≠ 0 ∧ Ready hd (regs [(1, 2 ^ 22 + 4)] demo) :=
  ⟨ready (by decide), plainRegs rfl, by unfold Clear; decide, by decide, by decide, mapped, by unfold RoomLd; decide, by unfold RoomSt; decide, by unfold Held; decide, by decide,
    ready (by decide)⟩
/-- The last and the first byte behind the share, at offset 192 KiB. -/
theorem witness_ScratchpadAccesses : (∀ o ∈ [0, 196600], let s := regs [(1, o)] demo
      readyB hd s = true ∧ addDisp (val 1 s) 0 = o ∧ o % Ty.size mw.ty = 0 ∧ spFails (issued s) o 8 = false ∧ atomHeld s.m s.m.cur = false ∧
      (∀ w ∈ wordsOf (spPlace s.m.curCore o) 8, w ∉ s.m.spoison ∧ ∀ p ∈ s.m.plantSp, p.1 ≠ w) ∧ s.m.sl.ocLd < 255 ∧ s.m.sl.ocSt < 255) ∧
    (let s := regs [(1, 196608)] demo
     spFails (issued s) 196608 8 = true ∧ readyB hd s = true) := by decide
theorem witness_AccessFrames : Ready mw.h demo ∧ (∀ b, IsReg b demo) ∧ Clear demo ∧ Alone demo ∧ InWindow 0 8 demo ∧ RoomSt demo ∧
    (∃ t, exec (.sts mw) demo = .next t) ∧
    (let s := regs [(1, 2 ^ 22)] demo
     Ready mw.h s ∧ paKind s.m.dev (2 ^ 22) ≠ .host ∧ (∀ acc, Maps (2 ^ 22) acc (2 ^ 22) s) ∧ Held (2 ^ 22) 8 s ∧ RoomLd s ∧ RoomSt s ∧ l1Poisoned s.m s.m.curCore (2 ^ 22) 8 = false ∧ (∃ t, exec (.ld mw) s = .next t) ∧ ∃ t, exec (.st mw) s = .next t) :=
  ⟨demo_ready, demo_regs, by unfold Clear; decide, ⟨rfl, rfl⟩, by unfold InWindow; decide, by unfold RoomSt; decide, ⟨_, rfl⟩,
    ready (by decide), by decide, mapped, by unfold Held; decide, by unfold RoomLd; decide, by unfold RoomSt; decide, by decide, ⟨_, rfl⟩, ⟨_, rfl⟩⟩

end Sys2Proof.Test

namespace Sys2Proof.Test
open Machine Claim

theorem witness_CacheControl : Ready mw.h demo ∧ (∀ b, IsReg b demo) ∧ Clear demo ∧ addDisp (val 1 (regs [(1, 2 ^ 56 - 1)] demo)) 0 < 2 ^ 56 ∧
    2 ^ 56 ≤ addDisp (val 1 (regs [(1, 2 ^ 56)] demo)) 0 ∧ Ready mw.h (regs [(1, 2 ^ 56)] demo) ∧ demo.m.sl.ocLd = 0 ∧ walking demo.m 0 0 0 = false ∧ 0 < val 1 (regs [(1, 8)] demo) ∧
    (demo.m.sl.ocLd ≤ iw.imm.toNat) ∧ (let s := withSlot (fun y => { y with ocLd := 1 }) demo
     Ready iw.h s ∧ iw.imm.toNat < s.m.sl.ocLd) :=
  ⟨demo_ready, demo_regs, by unfold Clear; decide, by decide, by decide, ready (by decide), rfl, by decide, by decide, by decide, ready (by decide), by decide⟩
/-- Block moves between memory, within a unit and beyond it, and between scratchpad and itself. -/
theorem witness_BlockMoves : (∀ n ∈ [8, 200], let s := cached (regs [(1, 2 ^ 22), (2, n), (3, 2 ^ 22 + 64)] demo)
      let u := min n 64
      readyB hd s = true ∧ val 2 s = n ∧ atomHeld s.m s.m.cur = false ∧ s.m.sl.ocLd < 255 ∧ loadEntries (issued s) s.m.curCore < 64 ∧ s.m.sl.ocSt < 255 ∧
      capFails s.m s.m.cx s.m.curCore (val 3 s) u = none ∧ pagesOf (val 3 s) u = [2 ^ 22 + 64] ∧ pagesOf (val 1 s) u = [2 ^ 22] ∧
      mapsB (2 ^ 22) .read (2 ^ 22) s = true ∧ mapsB (2 ^ 22 + 64) .write (2 ^ 22 + 64) s = true ∧
      ((blockRead false (2 ^ 22) u [2 ^ 22] 0 (issued s)).map (fun p => p.2.curCore)).toOption = some s.m.curCore) ∧
    (let s := regs [(1, 0), (2, 8), (3, 64)] demo
     readyB hd s = true ∧ spFails (issued s) 0 8 = false ∧ spFails (issued s) 64 8 = false ∧
       ((blockRead true 0 8 [] 0 (issued s)).map (fun p => p.2.curCore)).toOption = some s.m.curCore) ∧ val 2 demo = 0 := by decide

theorem witness_AtomicsAndReductions : let x : MW := { mw with sco := .dev }
    let s := regs [(1, 2 ^ 22)] demo
    Ready x.h s ∧ (∀ b, IsReg b s) ∧ Clear s ∧ RoomAt s ∧ 2 ^ 22 % Ty.size x.ty = 0 ∧ Held (2 ^ 22) 8 s ∧ Maps (2 ^ 22) .write (2 ^ 22) s ∧
    scopeOk x.sco (paKind s.m.dev (2 ^ 22)) = true ∧ Free s ∧ Idle s ∧ mw.sco = .oct ∧ InWindow 0 8 demo ∧ Sound 0 8 demo ∧ Free demo ∧ Idle demo :=
  ⟨ready (by decide), plainRegs rfl, by unfold Clear; decide, by unfold RoomAt; decide, by decide, by unfold Held; decide, mapped .write, by decide, rfl,
    by unfold Idle; decide, rfl, by unfold InWindow; decide, by unfold Sound; decide, rfl, by unfold Idle; decide⟩

/-- A deterministic context with a capability table of one granule; the table gives the granule the number. -/
def capable (e : Nat) : State := withMach (fun m => { m with mem := Mem.wrAll [] (cellsAt (2 ^ 23) (toLE 2 e)) })
  (withCtx (fun c => { c with det := true, capwin := 2 ^ 22, capn := 1, captab := 2 ^ 23 }) (regs [(1, 2 ^ 22), (2, 1)] demo))
theorem witness_Capabilities : (∀ e ∈ [2 ^ 14, 2 ^ 15], let s := capable e
      readyB hd s = true ∧ atomHeld s.m s.m.cur = false ∧ s.m.sl.ocAt < 255 ∧ capEntryAt s.m.cx (addDisp (val 1 s) 0) = some (2 ^ 23) ∧
      mapsB (2 ^ 22) .read (2 ^ 22) s = true ∧ val 2 s < 2 ^ 14 ∧ ((issued s).slot (keyOf 1 0)).ctx = s.m.sl.ctx ∧ ((issued s).slot (keyOf 1 0)).run ≠ .free ∧
      granuleBusy s.m s.m.sl.ctx s.m.curCore (2 ^ 22) (2 ^ 22) = false ∧ s.m.mem.num (2 ^ 23) 2 = e + s.m.curCore) ∧
    capEntryAt demo.m.cx (addDisp (val 1 demo) 0) = none := by decide

def buffer : Buf := ⟨0x30000, 1, 0, some 0, false⟩
/-- A command of the slot on a timeline. -/
def cmdOf (k t op : Nat) (args : List Nat) : Cmd := { id := 0, slot := k, ctx := 0, tl := t, num := 1, op := op, args := args, prog := 0, st := 0, issued := 0, node := none, spans := [], wvas := [] }
/-- A buffer of the slot that no command uses, and one that a command uses. -/
theorem witness_HandleInstructions : (∀ used ∈ [true, false], let s := withSlot (fun y => { y with owned := [0x30000] }) (withMach (fun m => { m.updCore 0 (fun c => { c with bufs := [buffer] }) with
        cmds := if used then [{ cmdOf 0 0 0xCA [0] with spans := [(0x30010, 8)] }] else [] }) (regs [(1, 0x30000)] demo))
      readyB hd s = true ∧ bufOf s.m s.m.curCore (val 1 s) = some buffer ∧ buffer.off ∈ s.m.sl.owned ∧
      ((∀ c ∈ s.m.cmds, c.slot = s.m.cur → ∀ r ∈ c.spans, ¬ (r.1 < buffer.off + 1024 * buffer.size ∧ buffer.off < r.1 + r.2)) ↔ used = false)) ∧
    bufOf demo.m demo.m.curCore (val 1 demo) = none := by decide
/-- FORK without a join counter and with the first and the last of the share, a refused entry, and a full deque. -/
theorem witness_ForkEnqueuesTask : (let s := demo
      readyB hd s = true ∧ val 3 s < 2 ^ 56 ∧ recRefused s.m.cx.slots (forkRecord { mw with c := 8 } (issued s) (val 3 s) 0) = false ∧
      canPush (issued s) (forkTarget (issued s) (sl s).nextPath) = true) ∧
    (∀ b ∈ [0, 196600], let s := regs [(2, b)] demo
      recRefused s.m.cx.slots (forkRecord mw (issued s) (val 3 s) b) = false ∧ spFails (issued s) b 8 = false ∧
      ∀ w ∈ wordsOf (spPlace s.m.curCore b) 8, w ∉ s.m.spoison ∧ ∀ p ∈ s.m.plantSp, p.1 ≠ w) ∧
    (let s := regs [(3, 2)] demo
     readyB hd s = true ∧ val 3 s < 2 ^ 56 ∧ recRefused s.m.cx.slots (forkRecord mw (issued s) (val 3 s) 0) = true) ∧
    pushSpills (issued demo) (forkTarget (issued demo) (sl demo).nextPath) = none ∧
    (let s := withSlot (fun y => { y with deque := List.replicate 128 (fetchTask 0).e, dqring := 2 ^ 22 + 7 }) demo
     canPush (issued s) (forkTarget (issued s) (sl s).nextPath) = true ∧ pushSpills (issued s) (forkTarget (issued s) (sl s).nextPath) = some (2 ^ 22) ∧
       mapsB (2 ^ 22) .write (2 ^ 22) s = true) ∧
    (let s := withSlot (fun y => { y with deque := List.replicate 128 (fetchTask 0).e }) demo
     readyB hd s = true ∧ recRefused s.m.cx.slots (forkRecord mw (issued s) (val 3 s) 0) = false ∧ canPush (issued s) (forkTarget (issued s) (sl s).nextPath) = false) := by decide

theorem witness_TasksEndAndJoin : Ready zw.h demo ∧ Idle demo ∧ demo.m.cmds = [] ∧ (∀ b, IsReg b demo) ∧ InWindow 0 8 demo ∧ Sound 0 8 demo ∧
    ofLE (demo.m.spad.rdN (spPlace demo.m.curCore 0) 8) = 0 ∧ val 2 (regs [(2, 2 ^ 32)] demo) = 2 ^ 32 ∧ Ready mw.h (regs [(2, 2 ^ 32)] demo) ∧
    (let s := withMach (fun m => { m with spad := [(0, 1)] }) demo
     Ready mw.h s ∧ ofLE (s.m.spad.rdN (spPlace s.m.curCore 0) 8) ≠ 0 ∧ (sl s).dqEmpty = true) ∧
    (let s := withSlot (fun y => { y with deque := [(fetchTask 0).e] }) (withMach (fun m => { m with spad := [(0, 1)] }) demo)
     Ready mw.h s ∧ (sl s).dqEmpty = false ∧ (sl s).popRefills = false ∧ s.m.sl.aside.length < 16 ∧ (popBottom s.m.cur (refillFrom s.m.cur none) (issued s)).isSome = true) :=
  ⟨demo_ready, by unfold Idle; decide, rfl, demo_regs, by unfold InWindow; decide, by unfold Sound; decide, by decide, by decide, ready (by decide),
    ⟨ready (by decide), by decide, by decide⟩, ready (by decide), by decide, by decide, by decide, by decide⟩
/-- A spilled task comes back to the hardware entries when JOIN takes the last of them. -/
theorem witness_TasksEndAndJoin_spilled : let s := withSlot (fun y => { y with deque := [(fetchTask 0).e], spilled := [(fetchTask 0).e], dqring := 2 ^ 22 + 7 }) (withMach (fun m => { m with spad := [(0, 1)] }) demo)
    readyB hd s = true ∧ (sl s).dqEmpty = false ∧ s.m.sl.aside.length < 16 ∧ (sl s).popRefills = true ∧
    mapsB (spillVa (sl s) (s.m.sl.spilled.length - 1)) .read (2 ^ 22) s = true ∧ (popBottom s.m.cur (refillFrom s.m.cur (some (2 ^ 22))) (issued s)).isSome = true := by decide

/-- Packets of the three types: NOP, LAUNCH of one group, FENCE. -/
def packet (h g : Nat) : State := withMach (fun m => { m with spad := Mem.wrAll [] (cellsAt 0 (toLE 8 h ++ toLE 8 g)) }) demo
theorem witness_LaunchAppendsPacket : (∀ p ∈ [(0, 0), (1, 1), (2 + 2 ^ 16, 0)], let s := packet p.1 p.2
      readyB hd s = true ∧ s.m.sl.ocLd + s.m.sl.ocSt + s.m.sl.ocAt + s.m.sl.ocLw = 0 ∧ spFails (issued s) 0 256 = false ∧ s.m.spoison = [] ∧ s.m.plantSp = [] ∧
      bits ((quadsOf (s.m.spad.rdN (spPlace s.m.curCore 0) 256) 32).getD 0 0) 0 8 = p.1 % 256 ∧
      packetReserved (quadsOf (s.m.spad.rdN (spPlace s.m.curCore 0) 256) 32) = false ∧
      (p.1 = 1 → recRefused s.m.cx.slots (((quadsOf (s.m.spad.rdN (spPlace s.m.curCore 0) 256) 32).drop 8).take 8) = false) ∧ (s.m.cx.queues.get Queue.init 0).pendingCount < 256) ∧
    packetReserved (quadsOf ((packet 3 0).m.spad.rdN 0 256) 32) = true ∧
    (let s := withCtx (fun c => { c with queues := [(0, { Queue.init with tail := 256 })] }) demo
     readyB hd s = true ∧ 256 ≤ (s.m.cx.queues.get Queue.init 0).pendingCount) := by decide
/-- No pair with a free slot at both cores, and one. -/
theorem witness_SpawnPlacesRoots : ∀ busy ∈ [true, false], let s0 := cached (regs [(1, 2 ^ 22), (2, 1)] demo)
    let s := if busy then s0 else withCtx (fun c => { c with cores := [0, 1, 2, 3] }) (withMach (fun m =>
      (m.setSlot 8 { Slot.init with run := .running }).setSlot 12 { Slot.init with run := .running }) s0)
    readyB hd s = true ∧ val 2 s = 1 ∧ addDisp (val 1 s) 0 = 2 ^ 22 ∧ pagesOf (2 ^ 22) 64 = [2 ^ 22] ∧ mapsB (2 ^ 22) .read (2 ^ 22) s = true ∧
    okAnd (readQuads (2 ^ 22) [2 ^ 22] 8 0 (issued s)) (fun l m => decide (m.sl = sl s) && m.cur == s.m.cur && !recRefused m.cx.slots l &&
      decide (1 ≤ (unitsOf m m.sl.ctx 0).length) && (spawnUnits m m.sl.ctx m.curCore 0 1).isNone == busy &&
      (spawnUnits m m.sl.ctx m.curCore 0 1).all (fun u => (spawnRoots l 0 1 u m).cur == s.m.cur && ((spawnRoots l 0 1 u m).sl.stream 3).isNone)) = true := by decide

def gang : Gang := ⟨0, 0, 0, 1, 0, 0, false, 0, [], 0, false, false, false⟩
theorem witness_TaskIdentity : Ready sw.h demo ∧ (∀ b, IsReg b demo) ∧ Free demo ∧ Privileged demo ∧ demo.m.sl.spilled = [] ∧ val 2 (regs [(2, 7)] demo) = 7 ∧
    val 2 (regs [(2, 20)] demo) = 20 ∧ Ready iw.h (withSlot (fun y => { y with task := none }) demo) ∧
    (let t : Task := { fetchTask 0 with e := { (fetchTask 0).e with gang := some 0 } }
     let s := withMach (fun m => { m with gangs := [(0, gang)] }) (withSlot (fun y => { y with task := some t }) demo)
     Ready iw.h s ∧ s.m.sl.task = some t ∧ t.e.gang = some 0 ∧ s.m.gangs.find 0 = some gang) :=
  ⟨demo_ready, demo_regs, rfl, rfl, rfl, by decide, by decide, ready (by decide), ready (by decide), by decide, rfl, by decide⟩

def barrier : Barrier := ⟨true, 0, 1, 1, 0, []⟩
theorem witness_Barriers : (let s := regs [(1, 1)] demo
      readyB hd s = true ∧ val 1 s ≠ 0 ∧ (∀ k < 64, bitAt (val 1 s) k = true → holdsSlot (issued s) s.m.sl.ctx (64 * 0 + k) = true) ∧
      (List.range 64).find? (fun k => !((s.m.cluster 0).bars.get Barrier.init k).live) = some 0) ∧
    (let s := withMach (fun m => barPut 0 0 barrier m) (regs [(1, 2 ^ 32)] demo)
     readyB hd s = true ∧ barOf s.m s.m.sl.ctx s.m.curCore (val 1 s) = some barrier ∧ (∀ k ∈ barrier.members, barrier.lead k = 0) ∧
     barWaited (issued s) 0 (barObj (val 1 s)) = false ∧ bitAt barrier.mask 0 = true ∧ barrier.lead 0 ≠ 3 ∧ barrier.arrived.get 0 0 ≤ barrier.phase + (barrier.arrived.get 0 0 + 4 - val 2 s % 4) % 4 ∧
     (phaseDone 0 barrier (barPut 0 0 { barrier with arrived := [(0, 1)], phase := 1 } (issued s))).cur = s.m.cur ∧
     ((phaseDone 0 barrier (barPut 0 0 { barrier with arrived := [(0, 1)], phase := 1 } (issued s))).sl.stream 3).isNone = true) := by decide
theorem witness_Semaphores : (let p := demo.m.pair 0 0
      semFirst p.semP 0 demo.m.cur = true ∧ p.ps.get 0 0 + 255 ≤ 255 ∧ semFirst p.semW 0 demo.m.cur = true ∧ 0 ≤ p.ps.get 0 0) ∧ readyB hd demo = true ∧ demo.m.cx.prv = true ∧
    (let s := withMach (fun m => m.setPair 0 0 { Pair.init with ps := [(0, 1)], semW := [8 * 0 + 0] }) (withSlot (fun y => { y with wait := some (.semW 0 0 0 1 0) }) demo)
     (s.m.slot 0).wait = some (.semW 0 0 0 1 0) ∧ (semQueue (s.m.pair 0 0).semW 0).head? = some 0 ∧ 1 ≤ (s.m.pair 0 0).ps.get 0 0) := by decide
theorem witness_Timelines : readyB hd demo = true ∧ 0 ≤ ((issued demo).tlOf (tlSlot 0 0) 0).count ∧ ((issued demo).tlOf (tlSlot 0 0) 0).count < 1 ∧
    demo.m.sl.wait ≠ some .released ∧ demo.m.cx.det = false ∧ demo.m.cx.prv = true ∧ demo.m.cmds = [] ∧
    ((issued demo).slot (tlSlot (keyOf 1 0) 0)).run ≠ .free ∧ ((issued demo).slot (tlSlot (keyOf 1 0) 0)).ctx = demo.m.sl.ctx := by decide

/-- Lines that the instruction at issue has asked for have had their turn at their home slices. -/
def brought (lines : List Nat) (s : State) : State :=
  withMach (fun m => { m with slices := (List.range 256).map (fun u => (u, { Slice.init with lines := lines.filter (fun l => homeOf (128 * l) == u) })) })
    (withSlot (fun y => { y with got := lines.map (fun l => (broughtAt l, 1)) }) s)
/-- What `Turned` asks of a place in memory, as a check. -/
def turnedB (pa : Nat) (s : State) : Bool := s.m.sl.got.any (fun c => c.1 == broughtAt (pa / 128)) && present s.m pa && sliceFree s.m pa
def sub0 : Sub := ⟨0, 2 ^ 22, 2 ^ 22, [], 0, 0, 0, 0, .none, none, false, 0, []⟩
theorem witness_VersionedTiles : let s := brought [2 ^ 15] (cached (regs [(1, 2 ^ 22), (2, 2 ^ 22 + 64)] demo))
    readyB hd s = true ∧ s.m.sl.ocLd + s.m.sl.ocSt + s.m.sl.ocAt + s.m.sl.ocLw = 0 ∧ s.m.cx.det = false ∧ addDisp (val 1 s) 0 = 2 ^ 22 ∧
    (∀ p ∈ [(Acc.write, true), (.write, false), (.read, false)], okAnd (tileAt (2 ^ 22) p.1 p.2 (issued s)) (fun r m =>
      m.cur == s.m.cur && decide (m.sl = sl s) && !hFin r.2 && hVer r.2 != 2 ^ 32 - 1) = true) ∧
    okAnd (subscrPlaces (val 2 s) (2 ^ 22) (issued s)) (fun p m => okAnd (readQuads (val 2 s) [p.1] 8 0 m) (fun l m1 => okAnd (tileWord p.2 m1) (fun h m2 =>
      decide (m2.sl.ocAt < 255) && !recJv l && !recRefused m2.cx.slots l && hCnt h != 7 &&
        (List.range 256).find? (fun j => ((m2.cluster (clusterOf m2.curCore)).subs.find j).isNone) == some 0))) = true ∧
    settled demo.m 0 0 0 = true ∧ settled (withMach (fun m => m.setCluster 0 { Cluster.init with subs := [(0, sub0)] }) demo).m 0 0 0 = false := by decide

def node0 : Node := ⟨0, 0, [], 0, 0, false, false, false, false, false, 0⟩
theorem witness_Constellations : let s := withMach (fun m => m.setCluster 0 { Cluster.init with nodes := [(0, node0)] }) (withCtx (fun c => { c with ncnt := 4 }) (regs [(2, 1)] demo))
    readyB hd s = true ∧ spFails (issued s) 0 32 = false ∧ s.m.spoison = [] ∧ s.m.plantSp = [] ∧ inNodes s.m.cx (val 2 s) = true ∧
    (∀ i ∈ nodeSucc (quadsOf (s.m.spad.rdN 0 32) 4), inNodes s.m.cx i = true) ∧ ((s.m.cluster 0).nodes.find (val 2 s)).any (·.live) = false ∧
    nodeBad (quadsOf (s.m.spad.rdN 0 32) 4) = false ∧ inNodes s.m.cx 0 = true ∧ (s.m.cluster 0).nodes.find 0 = some node0 ∧ ([0] : List Nat).Nodup ∧
    (List.range 1).map (fun j => ofLE (((s.m.spad.rdN 0 2).drop (2 * j)).take 2)) = [0] ∧
    (List.range 64).find? (fun j => !((s.m.cluster 0).cons.find j).any (·.live)) = some 0 := by decide
theorem witness_EventQueueInstructions : readyB hd demo = true ∧ demo.m.cx.det = false ∧ demo.m.sl.evq = [] ∧ demo.m.sl.rq = 0 ∧ demo.m.sl.ocSt < 255 ∧
    readyB hd (withSlot (fun y => { y with evq := [[1, 2, 3, 4, 5, 6, 7, 8]] }) demo) = true ∧
    (let s := regs [(1, 1)] demo
     val 1 s < 2 ^ 16 ∧ ((issued s).slot (keyOf 1 0)).run ≠ .free ∧ ((issued s).slot (keyOf 1 0)).ctx = s.m.sl.ctx) ∧
    (let s := regs [(1, 2)] demo
     val 1 s < 2 ^ 16 ∧ ((issued s).slot (keyOf 2 0)).run = .free) ∧
    (∀ n ∈ [0, 6, 20], bits (val 1 (regs [(1, 2 ^ 22 + n)] demo)) 0 6 = n ∧ val 1 (regs [(1, 2 ^ 22 + n)] demo) < 2 ^ 56) := by decide

theorem witness_LaneClaims : (let o := freeLanes ((issued demo).updSlot demo.m.cur (fun y => { y with grantP := 0 })) 0
      demo.m.sl.wait ≠ some .released ∧ (headClaim (issued demo) 0).elim true (fun c => c.slot == demo.m.cur) = true ∧ 256 ≤ o) ∧ readyB hd demo = true ∧
    readyB hd (withSlot (fun y => { y with wait := some .released }) demo) = true ∧
    (let s := withMach (fun m => (m.setOctet 0 { Octet.init with claims := [⟨4, 16, 16, false⟩] }).updSlot 4 (fun y => { y with wait := some .lanes })) demo
     readyB hd s = true ∧ s.m.sl.wait ≠ some .released ∧ (headClaim (issued s) 0).elim true (fun c => c.slot == s.m.cur) = false) := by decide

end Sys2Proof.Test

namespace Sys2Proof.Test
open Machine Claim

/-- A HOLD descriptor for words of 64 or of 128 bits. -/
def hold (w128 : Bool) : List Nat := [if w128 then 8 else 0, 0, 0, 0]
/-- Descriptors 0 and 1 are loaded for the two widths; a word of law `n` stands at the mapped page and at the window's start. -/
def lawful (n : Nat) (w128 : Bool) : State :=
  let l := toLE 16 (if w128 then n * 2 ^ 104 else n * 2 ^ 52)
  withMach (fun m => { m with mem := Mem.wrAll [] (cellsAt (2 ^ 22) l), spad := Mem.wrAll [] (cellsAt 0 l) })
    (withCtx (fun c => { c with laws := [(0, hold false), (1, hold true)] }) (regs [(1, 2 ^ 22)] demo))
theorem witness_hold : Desc.ok (hold false) = true ∧ Desc.ok (hold true) = true ∧ Desc.ok [2 ^ 31, 0, 0, 0] = false := by decide
/-- Words of both widths with a loaded descriptor and with none, in memory and at the window; and in deterministic mode, with the domain stepped and running. -/
theorem witness_LawWords : (∀ p ∈ [(0, false), (1, true), (2, false)], let s := brought [2 ^ 15] (lawful p.1 p.2)
      readyB hd s = true ∧ s.m.sl.streams = [] ∧ atomHeld s.m s.m.cur = false ∧ s.m.sl.ocLw < 255 ∧ addDisp (val 1 s) 0 = 2 ^ 22 ∧ 2 ^ 22 % lawSize p.2 = 0 ∧
      (∀ acc ∈ [Acc.read, .write], mapsB (2 ^ 22) acc (2 ^ 22) s = true) ∧ capFails s.m s.m.cx s.m.curCore (2 ^ 22) 16 = none ∧ paKind s.m.dev (2 ^ 22) = .hbm ∧
      turnedB (2 ^ 22) s = true ∧ (lawful p.1 p.2).m.sl.got = [] ∧ spFails (issued s) 0 16 = false ∧
      (lawDesc s.m.cx p.2 (lawRead s.m ⟨false, 2 ^ 22, p.2⟩)).isSome = (p.1 != 2) ∧ (lawDesc s.m.cx p.2 (lawRead s.m ⟨true, spPlace s.m.curCore 0, p.2⟩)).isSome = (p.1 != 2)) ∧
    (setDesc (lawful 0 false).m.cx false 0 0).isSome = true ∧ (setDesc (lawful 0 false).m.cx true 0 (2 ^ 40)).isSome = true ∧ setDesc (lawful 0 false).m.cx false (2 ^ 53) 0 = none ∧
    (∀ l ∈ [[(0, 0)], []], let s := withCtx (fun c => { c with det := true, stepped := l }) (lawful 0 false)
      readyB hd s = true ∧ s.m.cx.det = true ∧ domBarred s.m.cx (setDesc s.m.cx false 0 0) = l.isEmpty ∧ (lawDesc s.m.cx false (lawRead s.m ⟨true, 0, false⟩)).any (fun d => (s.m.cx.stepped.find d.dom).isSome) = !l.isEmpty) := by decide

/-- A view of two 32-bit lanes and a 2 × 2 tile of 32-bit elements, and a grant of 16 lanes. -/
def viewed (s : State) : State := withSlot (fun y => { y with view := 128 + 2 ^ 12 + 2 * 2 ^ 20 + 160 * 2 ^ 24 + 2 ^ 36 + 2 ^ 42 + 2 * 2 ^ 48 + 2 * 2 ^ 50, grantP := 16, grantN := 16 }) s
theorem witness_LawLanes : ∀ n ∈ [0, 2], let s := viewed (brought [2 ^ 15] (lawful n false))
    let y := sl s
    readyB hd s = true ∧ y.VS ≠ 0 ∧ y.vew = 4 ∧ y.vlanes = 2 ∧ (∀ b ∈ [0, 1, 2], y.vbyte b y.vcap ≤ shareOf s.m.cx.slots) ∧
    (List.range 2).map (fun l => (addDisp (val 1 s) 0 + 8 * y.elem (y.vbyte 1 l) 32) % 2 ^ 64) = [2 ^ 22, 2 ^ 22] ∧
    mapsB (2 ^ 22) .write (2 ^ 22) s = true ∧ turnedB (2 ^ 22) s = true ∧ atomHeld s.m s.m.cur = false ∧ s.m.sl.ocLw < 255 ∧ s.m.cx.det = false ∧
    (performLanes .adv (List.zip (List.range 2) (List.zip [⟨false, 2 ^ 22, false⟩, ⟨false, 2 ^ 22, false⟩] (List.zip [2 ^ 22, 2 ^ 22] [0, 0]))) [] []
      (countsLw (issued s))).2.1 = if n = 0 then [] else [0, 1] := by decide

theorem witness_DescriptorsAndSweeps : (∀ q0 ∈ [0, 2 ^ 31], let s := cached (withMach (fun m => { m with mem := Mem.wrAll [] (cellsAt (2 ^ 22) (toLE 8 q0)) }) (regs [(1, 2 ^ 22)] demo))
      readyB hd s = true ∧ pagesOf (2 ^ 22) 32 = [2 ^ 22] ∧ mapsB (2 ^ 22) .read (2 ^ 22) s = true ∧
      okAnd (readQuads (2 ^ 22) [2 ^ 22] 4 0 (issued s)) (fun q _ => Desc.ok q == decide (q0 = 0)) = true) ∧ demo.m.cx.prv = true ∧ val 2 demo = 0 ∧
    (∀ p ∈ [(0, 1), (0, 2), (2, 1), (2, 2)], let s := brought [2 ^ 15] (regs [(2, p.2)] (lawful p.1 false))
      readyB hd s = true ∧ s.m.cx.prv = true ∧ val 1 s = 2 ^ 22 ∧ val 2 s = p.2 ∧ (∀ acc ∈ [Acc.read, .write], mapsB (2 ^ 22) acc (2 ^ 22) s = true) ∧ turnedB (2 ^ 22) s = true ∧ s.m.cx.det = false ∧
      (lawDesc s.m.cx false (lawRead s.m ⟨false, 2 ^ 22, false⟩)).isSome = (p.1 == 0)) := by decide

theorem witness_TimeDomains : readyB hd demo = true ∧ demo.m.cx.stepped.find 15 = none ∧ demo.m.cx.det = false ∧ bitAt 0x10 4 = true ∧ bitAt 0xF 4 = false ∧
    (∀ l ∈ [[(15, 0)], []], let s := withCtx (fun c => { c with stepped := [(15, 0)], desig := l }) demo
      readyB hd s = true ∧ s.m.cx.stepped.find 15 = some 0 ∧ 0 ≤ s.m.sid ∧ (s.m.cx.desig.find 15 == some s.m.curCore) = !l.isEmpty) := by decide
theorem witness_LawOperationFrame : LawOp.add ≠ .disarm ∧ LawOp.peek ≠ .disarm ∧ (⟨false, 2 ^ 22, true⟩ : LawAt).oct = false ∧ (⟨true, 0, false⟩ : LawAt).oct = true := by decide
/-- Values at the two ends of the 32 bits; INTEG with a slope that does not saturate. -/
theorem witness_LawValues : 2 ^ 32 - 1 < 2 ^ 32 ∧ (Desc.of [0, 0, 0, 0]).kind = 0 ∧ (let d := Desc.of [2, 0, 0, 0]
    d.kind = 2 ∧ d.yuse ≠ 2 ∧ -2147483648 ≤ sx 32 (2 ^ 31) + 5 * sx 32 d.slope ∧ sx 32 (2 ^ 31) + 5 * sx 32 d.slope ≤ 2147483647) := by decide

end Sys2Proof.Test

namespace Sys2Proof.Test
open Machine Claim

def plainCtx : State := withCtx (fun c => { c with prv := false }) demo
theorem witness_PrivilegeTraps : hdr (.semi yw) = some hd ∧ privileged (.semi yw) = true ∧ Ready hd plainCtx ∧ (∀ p ∈ (sl plainCtx).pw, p.due ≤ plainCtx.m.sl.n) ∧
    plainCtx.m.cx.prv = false := ⟨rfl, rfl, ready (by decide), by decide, rfl⟩
def detCtx : State := withCtx (fun c => { c with det := true }) demo
theorem witness_DeterministicTraps : hdr (.time sw) = some hd ∧ barred (.time sw) = true ∧ barred (.sysrd { yw with sr := 0x026 }) = true ∧ Ready hd detCtx ∧
    (∀ p ∈ (sl detCtx).pw, p.due ≤ detCtx.m.sl.n) ∧ detCtx.m.cx.det = true ∧ ∀ b, IsReg b detCtx :=
  ⟨rfl, rfl, rfl, ready (by decide), by decide, rfl, plainRegs rfl⟩
theorem witness_SystemRegisters : Ready yw.h demo ∧ (∀ b, IsReg b demo) ∧ Privileged demo ∧ Ready yw.h detCtx ∧ sysBarred detCtx.m.cx 0x010 = false ∧ Alone demo ∧
    (∃ t, exec (.syswr { yw with sr := 0x015 }) demo = .next t) ∧ (readable (issued demo)).map (·.1) ≠ [] :=
  ⟨demo_ready, demo_regs, rfl, ready (by decide), by decide, ⟨rfl, rfl⟩, ⟨_, rfl⟩, by simp [readable]⟩

/-- A load through the mapped page is under way. -/
def loading : State := withMach (fun m => { m with nextId := 1, reqs := [{ id := 0, slot := 0, ctx := 0, pa := 2 ^ 22, st := .sent, kind := .load [⟨2 ^ 22, 8, 0, 8, 0⟩] false true false 0 }] }) (regs [(1, 2 ^ 22)] demo)
theorem witness_TranslationWords : (∀ s ∈ [regs [(1, 2 ^ 22)] demo, loading], readyB hd s = true ∧ s.m.cx.prv = true ∧ s.m.sl.ocSt = 0 ∧ val 2 s < 2 ^ 16 ∧ s.m.sl.wait = none) ∧
    (let s := regs [(1, 2 ^ 22)] demo
     let p := throughRemoved (some 0) (some 16) (issued s)
     flushBusy (tlbRemove (some 0) (some 16) (issued s)) p.1 p.2.1 p.2.2 = false) ∧
    (let p := throughRemoved (some 0) (some 16) (issued loading)
     flushBusy (tlbRemove (some 0) (some 16) (issued loading)) p.1 p.2.1 p.2.2 = true) ∧
    (∀ rs ∈ [[], [0]], let s := withSlot (fun y => { y with wait := some (.flush rs [] []) }) loading
      readyB hd s = true ∧ s.m.sl.wait = some (.flush rs [] []) ∧ flushBusy (issued s) rs [] [] = !rs.isEmpty) ∧
    (bitAt 0 0 = false ∧ bitAt 1 0 = true ∧ val 1 demo < 2 ^ 16 ∧ demo.m.ctxOfAsid (val 1 demo) = some 0 ∧ (regs [(1, 7)] demo).m.ctxOfAsid (7 % 2 ^ 16) = none) ∧
    okAnd (probe (2 ^ 22) (countsLd (issued demo))) (fun _ _ => true) = true ∧ ((demo.m.core 0).tlb.find? (·.covers 0 16)).isSome = true ∧
    (let s := withMach (fun m => m.setDie 0 { Die.init with faults := [⟨0, 17, 1⟩] }) demo
     (s.m.core 0).tlb.find? (·.covers 0 17) = none ∧ (s.m.die 0).tlb.find? (·.covers 0 17) = none ∧ walking s.m 0 0 (17 * 2 ^ 18) = false ∧ pending s.m 0 0 17 = some ⟨0, 17, 1⟩) ∧ addDisp (val 1 (regs [(1, 2 ^ 56 - 1)] demo)) 0 < 2 ^ 56 ∧ 2 ^ 56 ≤ addDisp (val 1 (regs [(1, 2 ^ 56)] demo)) 0 ∧ demo.m.sl.ocLd < 255 := by decide

/-- A second context, stopped on core 2 or saved from it, and eight pages for its image. -/
def imaging (saved : Bool) : State := withMach (fun m =>
    let y : Slot := { Slot.init with run := .stopped, ctx := 1 }
    let m := m.setCtx 1 { ctx0 with asid := 1, cores := [2], st := if saved then .saved else .stopped, kept := if saved then [(8, y)] else [] }
    let m := if saved then m else m.setSlot 8 y
    m.updCore 0 (fun c => { c with tlb := [⟨0, 16, 8, 2 ^ 22, true, true⟩] })) (regs [(1, 2 ^ 22), (2, 1 + 2 * 2 ^ 16)] demo)
def imagePages : List (Nat × Nat) := (List.range 8).map (fun i => (2 ^ 22 + i * 2 ^ 18, 2 ^ 22 + i * 2 ^ 18))
theorem foldGroups_lt (n v : Nat) : foldGroups n v < 16 := by
  induction n generalizing v with
  | zero => exact Nat.zero_lt_succ 15
  | succ n ih => exact Nat.xor_lt_two_pow (n := 4) (Nat.mod_lt _ (by decide)) (ih _)
theorem homeOf_lt (pa : Nat) : homeOf pa < 256 := by
  have h1 : homeDie pa < 16 := Nat.mod_lt _ (by decide)
  have h2 : fold pa < 16 := foldGroups_lt _ _
  unfold homeOf; omega
theorem homeOf_line (pa : Nat) : homeOf (128 * (pa / 128)) = homeOf pa := by
  have h1 : 128 * (pa / 128) / 2 ^ 18 = pa / 2 ^ 18 := by omega
  have h2 : 128 * (pa / 128) / 2 ^ 22 = pa / 2 ^ 22 := by omega
  have h3 : 128 * (pa / 128) / 2 ^ 7 = pa / 2 ^ 7 := by omega
  unfold homeOf homeDie fold bits; rw [h1, h2, h3]
theorem find_table {α : Type} (f : Nat → α) : ∀ (l : List Nat) (k : Nat), k ∈ l → Tab.find (l.map (fun u => (u, f u))) k = some (f k)
  | u :: l, k, h => by
    simp only [List.map_cons, Tab.find]
    split
    · rename_i e; rw [eq_of_beq e]
    · rename_i e
      exact find_table f l k ((List.mem_cons.1 h).resolve_left (fun x => e (by simp [x])))
/-- A place in a line that has been brought is there. -/
theorem present_brought {m : Mach} {lines : List Nat} {a : Nat}
    (t : m.slices = (List.range 256).map (fun u => (u, { Slice.init with lines := lines.filter (fun l => homeOf (128 * l) == u) }))) (h : a / 128 ∈ lines) : present m a = true := by
  unfold present Mach.slice Tab.get
  rw [t, find_table _ _ _ (List.mem_range.2 (homeOf_lt a))]
  simp [h, homeOf_line]
/-- Lines that have been brought have had their turn. -/
theorem bringLaw_brought {m : Mach} {lines : List Nat} {ps : List (Nat × Nat)} {ch : Nat} (g : m.sl.got = lines.map (fun l => (broughtAt l, 1)))
    (t : m.slices = (List.range 256).map (fun u => (u, { Slice.init with lines := lines.filter (fun l => homeOf (128 * l) == u) }))) (r : m.reqs = [])
    (h : ∀ p ∈ ps, p.1 / 128 ∈ lines) : bringLaw ps ch m = .ok ((), m) := by
  refine bringLaw_of (fun p hp => ⟨?_, .inl (present_brought t (h p hp))⟩) (fun p _ => by simp [sliceFree, occupancy, r])
  rw [g, List.any_map, List.any_eq_true]
  exact ⟨_, h p hp, by simp⟩

/-- The image's lines have been brought. -/
def imaged (b : Bool) : State := brought ((linesAt (2 ^ 22) (imagePages.map (·.2)) imageSize).map (·.1 / 128)) (imaging b)
theorem witness_image (acc : Acc) (b : Bool) : Image mw acc 1 2 (imagePages.map (·.2)) (imaged b) where
  aligned := by cases b <;> rfl
  ctx := by cases b <;> rfl
  core := by cases b <;> exact ⟨rfl, rfl⟩
  high := by cases b <;> rfl
  other := by cases b <;> decide
  bytes := ⟨imagePages, by cases b <;> rfl, by
    intro p hp
    apply maps
    revert p
    cases acc <;> cases b <;> decide, rfl⟩
theorem witness_ContextImages : Ready mw.h (imaged false) ∧ Ready mw.h (imaged true) ∧ (∀ b c, IsReg b (imaged c)) ∧ (∀ b, Privileged (imaged b) ∧ Clear (imaged b)) ∧
    RoomSt (imaged false) ∧ (imaged false).m.sl.mid = false ∧ (withSlot (fun y => { y with mid := true }) demo).m.sl.mid = true ∧
    (let here := coreSlots (issued (imaged false)) 1 2
     here ≠ [] ∧ ∀ e ∈ here, e.2.run = .stopped) ∧
    (let kept := ((imaged true).m.ctx 1).kept.filter (fun e => coreOf e.1 == 2)
     coreSlots (issued (imaged true)) 1 2 = [] ∧ kept ≠ [] ∧ ∀ e ∈ kept, ((issued (imaged true)).slot e.1).run = .free) ∧
    bringLaw (linesAt (2 ^ 22) (imagePages.map (·.2)) imageSize) 0 (issued (imaged true)) = .ok ((), issued (imaged true)) :=
  ⟨ready rfl, ready rfl, fun b c => plainRegs (by cases c <;> rfl) b, fun b => by cases b <;> exact ⟨rfl, rfl⟩, by unfold RoomSt; decide, rfl, rfl, by decide, by decide,
    bringLaw_brought rfl rfl rfl (fun p hp => List.mem_map_of_mem hp)⟩
/-- No word of the image holds an error. -/
theorem witness_ContextImages_sound : let s := imaged true
    ((engBytes (2 ^ 22) (imagePages.map (·.2)) imageSize).drop 0x40000).find? (poisonAt (issued s)) = none :=
  List.find?_eq_none.2 (fun a _ => by
    have e : (issued (imaged true)).poison = [] := rfl
    simp [poisonAt, e])

theorem witness_CapabilitiesErrorsMonitorsHost : (∀ n ∈ [0, 1, 2], let s := regs [(2, n)] (capable 0)
      readyB hd s = true ∧ s.m.cx.prv = true ∧ atomHeld s.m s.m.cur = false ∧ (sl s).pw = [] ∧ val 2 s = n ∧ bits (val 0 s) 14 2 ≠ 3 ∧ val 0 s < 2 ^ 16 ∧ capEntryAt s.m.cx (addDisp (val 1 s) 0) = some (2 ^ 23)) ∧
    (let s := regs [(2, 1)] demo
     readyB hd s = true ∧ val 2 s ≠ 0 ∧ capEntryAt s.m.cx (addDisp (val 1 s) 0) = none) ∧
    (∀ b ∈ [0, 1, 2, 3, 4, 5], let s := withMach (fun m => m.setSlice (homeOf (2 ^ 22)) { Slice.init with lines := [2 ^ 22 / 128] }) (regs [(1, if b < 2 then 196607 else 2 ^ 22), (2, b)] demo)
      readyB hd s = true ∧ val 2 s < 8 ∧ bits (val 2 s) 1 2 = b / 2 ∧ s.m.sl.ocSt = 0 ∧ (b < 2 → spFails (issued s) (addDisp (val 1 s) 0) 1 = false) ∧
      (2 ≤ b → mapsB (addDisp (val 1 s) 0) .write (2 ^ 22) s = true ∧ present (issued s) (2 ^ 22) = true)) ∧
    demo.m.cx.det = false ∧ demo.m.reqs = [] ∧ demo.m.sl.ocLd < 255 ∧ demo.m.sl.ocAt = 0 ∧ demo.m.sl.ocLw = 0 ∧ demo.m.sl.hcSent = false ∧ ringPlace demo.m = false ∧
    (let s := withMach (fun m => { m with dev := { m.dev with nring := some (hostBase, 4) } }) demo
     readyB hd s = true ∧ s.m.sl.hcSent = false ∧ ringPlace s.m = true) ∧
    (∀ r ∈ [none, some 5], let s := withSlot (fun y => { y with hcSent := true, hcReply := r }) demo
      readyB hd s = true ∧ s.m.sl.hcSent = true ∧ s.m.sl.hcReply = r) := by decide

end Sys2Proof.Test

namespace Sys2Proof.Test
open Machine Claim

/-- The views of 32-bit lanes and elements over the first granules. -/
def vec : State := viewed demo
theorem fits (vs : List (BitVec 8)) (elts : List Elt) (h : vs.all (fun b => decide (vNo b ≤ 2)) = true) (w : elts.all (fun e => decide (e.width ≤ 32)) = true) :
    Fits vs elts vec where
  bank := by decide
  share b hb := by
    refine .inr ?_
    have h2 : vNo b ≤ 2 := by simpa using List.all_eq_true.1 h b hb
    have : (sl vec).vbyte (vNo b) (sl vec).vcap = 1024 + 8 * vNo b + 8 := rfl
    have : shareOf vec.m.cx.slots = 32768 := rfl
    omega
  width e he := by
    have : (sl vec).vew = 4 := rfl
    have := List.all_eq_true.1 w e he
    simp only [decide_eq_true_eq] at this
    omega
theorem witness_LanewiseResults : Ready vw.h vec ∧ (∀ b, IsReg b vec) ∧ (lanewise vw).length = 25 ∧ Fits [0x40, 0x41, 0x42] [eltOf vw.it vw.fd, .fmt .i8, .fmt .fp32] vec :=
  ⟨ready (by decide), plainRegs rfl, rfl, fits _ _ (by decide) (by decide)⟩
theorem witness_LanewiseFrame : Ready vw.h vec ∧ Alone vec ∧ (∀ b, IsReg b vec) ∧ Fits [0x40, 0x41, 0x42] [eltOf vw.it vw.fd] vec ∧ ∃ t, exec (.vadd vw) vec = .next t :=
  ⟨ready (by decide), ⟨rfl, rfl⟩, plainRegs rfl, fits _ _ (by decide) (by decide), ⟨_, rfl⟩⟩
theorem witness_SpecialFunctions : Ready vw.h vec ∧ (∀ b, IsReg b vec) ∧ Fits [0x40, 0x41, 0x42] [.fmt .fp32] vec := ⟨ready (by decide), plainRegs rfl, fits _ _ (by decide) (by decide)⟩
theorem witness_LaneMovesReductionsAndMasks : let x : VW := { vw with c := 4 }
    let s := regs [(4, 16)] vec
    Ready x.h s ∧ (∀ b, IsReg b s) ∧ Fits [0x40, 0x41, 0x42] [eltOf x.it x.fd] vec ∧ Clear s ∧ val x.c s = 16 ∧ val 2 s % 1 = 0 ∧ InWindow 0 16 s ∧ Sound 0 16 s ∧
    Fmt.width x.fa < 8 * (sl vec).vew ∧ (sl vec).vew = 4 ∧ (sl s).lane x.a 0 < val x.c s :=
  ⟨ready (by decide), plainRegs rfl, fits _ _ (by decide) (by decide), by unfold Clear; decide, by decide, by decide, by unfold InWindow; decide,
    by unfold Sound; decide, by decide, by decide, by decide⟩
/-- Two lanes at the last bytes of the share, by stride; and in the mapped page. -/
theorem witness_VectorAccesses : Fits [0x40, 0x42] [memElt vw] vec ∧ (let s := regs [(65, 196606)] vec
    readyB hd s = true ∧ atomHeld s.m s.m.cur = false ∧ laneList vw false s = [(0, 196606), (1, 196607)] ∧ memSize vw = 1 ∧
      (∀ p ∈ laneList vw false s, p.2 % memSize vw = 0 ∧ spFails (issued s) p.2 (memSize vw) = false) ∧ s.m.sl.ocLd < 255 ∧ loadEntries (issued s) s.m.curCore < 64 ∧ s.m.sl.ocSt < 255) ∧
    (let s := vec
     laneList vw true s = [(0, 0), (1, 0)] ∧ (∀ p ∈ laneList vw true s, p.2 % memSize vw = 0 ∧ spFails (issued s) p.2 (memSize vw) = false)) ∧
    (let s := regs [(65, 2 ^ 22)] vec
     readyB hd s = true ∧ laneList vw false s = [(0, 2 ^ 22), (1, 2 ^ 22 + 1)] ∧
       ∀ a ∈ [2 ^ 22, 2 ^ 22 + 1], (∀ acc ∈ [Acc.read, .write], mapsB a acc a s = true) ∧ capFails s.m s.m.cx s.m.curCore a 1 = none) :=
  ⟨fits _ _ (by decide) (by decide), by decide, by decide, by decide⟩
theorem witness_Tiles : let x : VW := { vw with d := 0x60, a := 0x61 }
    let s := regs [(97, 0), (2, 8)] vec
    readyB hd vec = true ∧ TileFits x.d vec ∧ TileFits x.a vec ∧ (sl vec).TR = (sl vec).TC ∧ (sl vec).vew = (sl vec).tew ∧ val 0 vec ≤ (sl vec).TR ∧ Fits [0x41] [] vec ∧
    (let t := regs [(2, 8)] vec
     readyB hd t = true ∧ atomHeld t.m t.m.cur = false ∧ 0 % (sl t).tew = 0 ∧ val 2 t % (sl t).tew = 0 ∧ (sl t).activeElems 0 = [(0, 0), (0, 1), (1, 0), (1, 1)] ∧
     ∀ e ∈ (sl t).activeElems 0, (e.1 * 8 + e.2 * 4) % (sl t).tew = 0 ∧ spFails (issued t) (e.1 * 8 + e.2 * 4) 4 = false) ∧ s.m.sl.streams = [] :=
  ⟨by decide, by unfold TileFits; decide, by unfold TileFits; decide, by decide, by decide, by decide, fits _ _ (by decide) (by decide), by decide, rfl⟩

end Sys2Proof.Test

namespace Sys2Proof.Test
open Machine Claim

theorem engine {s : State} (h : isIssuer s.m.curCore = true) (b : s.m.cj.busy = none) (c : s.m.cmds = []) (a : Clear s) : Engine s where
  issuer := h
  free := by rw [b]; intro k hk; cases hk
  done := by rw [c]; intro k hk; cases hk
  clear := a
/-- The engine's state on the issuer. -/
def withPair (p : Pair) (s : State) : State := withMach (fun m => m.setCj p) s
/-- A place of the issuer's share: keys to 2^18, cells behind them. -/
def tabled : State := withPair { Pair.init with wc := 2, cls := .exactInt, ring := 2 ^ 18 + 2 ^ 32, table := [⟨0, 5, List.replicate 16 7⟩], held := 1, high := 1 }
  (regs [(1, 2 ^ 18 + 1024), (2, 2 ^ 18 + 2048)] issuer)
theorem witness_ConjunctionTable : (let s := tabled
      Ready jw.h s ∧ (∀ b, IsReg b s) ∧ Engine s ∧ ringBad (issued s) s.m.cur (2 ^ 18) (s.m.cj.configured 0 (2 ^ 18)).recSize = none ∧ val jw.a s % 8 = 0 ∧ val jw.b s % 16 = 0 ∧
      InWindow (val jw.a s) 16 s ∧ InWindow (val jw.b s) (16 * 2 * 4 * 4) s ∧
      ∀ i < s.m.cj.held, Sound (s.m.cj.roff + (s.m.cj.ringHead + i) % (max s.m.cj.rcap 1) * s.m.cj.recSize) s.m.cj.recSize s) ∧
    Ready jw.h issuer ∧ ringBad (issued issuer) issuer.m.cur (val jw.a issuer) (issuer.m.cj.configured 0 0).recSize = none :=
  ⟨⟨ready (by decide), plainRegs rfl, engine (by decide) (by decide) rfl (by unfold Clear; decide), by decide, by decide, by decide, by unfold InWindow; decide,
    by unfold InWindow; decide, by unfold Sound; decide⟩, ready (by decide), by decide⟩

theorem witness_IssuerTraps : Ready jw.h demo ∧ (∀ p ∈ (sl demo).pw, p.due ≤ demo.m.sl.n) ∧ isIssuer demo.m.curCore = false ∧ (demo.m.sl.stream jw.d).isNone = true :=
  ⟨demo_ready, by decide, by decide, rfl⟩

def strips (ty : Ty) : Stream := ⟨2 ^ 22, 4, 1, 4, 0, ty, false, 0, 0⟩
/-- CONTRACT over strips of four bytes: its words, its cursor, its two queues and its group, before it has begun or at work. -/
def cw : JW := { jw with d := 4, a := 56, b := 57, c := 0, e := 1 }
def contracting (mid : Bool) (ty : Ty) (r kc ke : List Nat) (g : Option Group) : State :=
  cached (withPair { Pair.init with wc := 2, cls := if mid then .exactInt else .none, kq := [(0, kc), (1, ke)], group := g, busy := if mid then some 4 else none }
    (withSlot (fun y => { y with streams := [(0, strips ty), (1, strips ty)], mid := mid }) (regs ((List.range 4).map (fun i => (4 + i, r.getD i 0))) issuer)))
/-- What `Contracting` asks, as a check. -/
def contractingB (mid : Bool) (ty : Ty) (s : State) : Bool := isIssuer s.m.curCore && (s.m.cj.busy == none || s.m.cj.busy == some s.m.cur) && s.m.cmds.isEmpty &&
  !atomHeld s.m s.m.cur && (sl s).pw.isEmpty && readyB hd s && s.m.sl.stream cw.a == some (strips ty) && s.m.sl.stream cw.b == some (strips ty) && s.m.sl.mid == mid
theorem contracts {mid : Bool} {ty : Ty} {s : State} (c : contractingB mid ty s = true) : Contracting cw (strips ty) (strips ty) mid s := by
  simp only [contractingB, Bool.and_eq_true, Bool.or_eq_true, beq_iff_eq, List.isEmpty_iff, Bool.not_eq_true'] at c
  obtain ⟨⟨⟨⟨⟨⟨⟨⟨h1, h2⟩, h3⟩, h4⟩, h5⟩, h6⟩, h7⟩, h8⟩, h9⟩ := c
  refine ⟨⟨h1, ?_, ?_, h4⟩, ?_, ready h6, ⟨h7, rfl⟩, ⟨h8, rfl⟩, h9⟩
  · intro k hk
    rcases h2 with h2 | h2 <;> rw [h2] at hk
    · cases hk
    · exact (Option.some.inj hk).symm
  · rw [h3]; intro p hp; cases hp
  · rw [h5]; intro p hp; cases hp
/-- It begins with strips that fit and an engine of its class or none; with strips of another size; with an engine of another class. -/
theorem witness_ContractBegins : (let s := contracting false .i32 [0, 0, 0, 0] [] [] none
      contractingB false .i32 s = true ∧ stripBytes .i8 s.m.cj.w = 4 ∧ s.m.cj.table = [] ∧ s.m.cj.held = 0) ∧
    (let s := contracting false .i64 [0, 0, 0, 0] [] [] none
     contractingB false .i64 s = true ∧ stripBytes .i8 s.m.cj.w < Ty.size .i64) ∧
    (let s := withMach (fun m => m.setCj { m.cj with table := [⟨0, 5, List.replicate 16 7⟩], cls := .fp32 }) (contracting false .i32 [0, 0, 0, 0] [] [] none)
     contractingB false .i32 s = true ∧ s.m.cj.table ≠ [] ∧ s.m.cj.cls ≠ accClass .i8) := by decide
/-- The cursor reads as its words. -/
def cursor (s : State) : List Nat := (List.range 4).map (fun i => (sl s).g (gNo cw.d + i))
/-- Outside a group: a key that is waited for, of either queue, and a bad one; nothing to take; a chunk that holds the least coordinate; a
coordinate before the cursor's. -/
theorem witness_Contract_enters : (∀ r ∈ [[1, 0, 0, 0], [0, 1, 0, 0]], let s := contracting true .i32 r [] [] none
      contractingB true .i32 s = true ∧ cursor s = r ∧ s.m.cj.group = none ∧ (s.m.cj.kq.get [] 0).head? = none ∧ (s.m.cj.kq.get [] 1).head? = none) ∧
    (let s := contracting true .i32 [1, 1, 0, 0] [2 ^ 48] [2 ^ 48] none
     contractingB true .i32 s = true ∧ cursor s = [1, 1, 0, 0] ∧ badKey (2 ^ 48) = true) ∧
    (let s := contracting true .i32 [0, 1, 0, 0] [] [2 ^ 48] none
     contractingB true .i32 s = true ∧ cursor s = [0, 1, 0, 0]) ∧
    (let s := contracting true .i32 [0, 0, 0, 0] [] [] none
     contractingB true .i32 s = true ∧ cursor s = [0, 0, 0, 0] ∧ s.m.cj.group = none) ∧
    (∀ n ∈ [0, 127], let s := contracting true .i32 [1, 0, 0, 0] [n] [] none
      contractingB true .i32 s = true ∧ cursor s = [1, 0, 0, 0] ∧ (s.m.cj.kq.get [] 0).head? = some n ∧ badKey n = false ∧ 0 ≤ kOf n ∧ kOf n < 128) ∧
    (let s := contracting true .i32 [1, 1, 0, 0] [128] [2 ^ 24 - 1] none
     contractingB true .i32 s = true ∧ cursor s = [1, 1, 0, 0] ∧ badKey (2 ^ 24 - 1) = false ∧ 128 ≤ min (kOf 128) (kOf (2 ^ 24 - 1))) ∧
    (let s := contracting true .i32 [1, 0, 6, 0] [5] [] none
     contractingB true .i32 s = true ∧ cursor s = [1, 0, 6, 0] ∧ kOf 5 < 6) := by decide
/-- In a group: a pair, the end of a tuple's pairs, a B tuple with room and without, the last B tuple, an A tuple, the end of the group. -/
theorem witness_Contract_group : let t : Tuple := ⟨0, [1, 1, 1, 1]⟩
    let g : Bool → Nat → List Tuple → Option Tuple → List Nat → Group := fun o n l h r => ⟨0, o, l, h, n, r, .i8⟩
    let ra := [1, 0, 0, 0]
    let rb := [0, 1, 0, 0]
    (∀ n ∈ [0, 1], let s := contracting true .i32 ra [0] [] (some (g false n [t] (some t) ra))
      contractingB true .i32 s = true ∧ s.m.cj.group = some (g false n [t] (some t) ra) ∧ cursor s = ra ∧
        (n = 0 → (applyMatch 0 (stripElems .i8 4 t.strip) (stripElems .i8 4 t.strip) (issued s)).isSome = true)) ∧
    (∀ l ∈ [[], List.replicate 256 t], let s := contracting true .i32 rb [] [0] (some (g true 0 l none rb))
      contractingB true .i32 s = true ∧ cursor s = rb ∧ s.m.cj.group = some (g true 0 l none rb) ∧ kOf 0 = 0 ∧ badKey 0 = false ∧
        okAnd (popStrip cw.b (strips .i32) 1 0 (issued s)) (fun _ _ => true) = true) ∧
    (∀ k ∈ [[], [5]], let s := contracting true .i32 rb [] k (some (g true 0 [t] none rb))
      contractingB true .i32 s = true ∧ cursor s = rb ∧ s.m.cj.group = some (g true 0 [t] none rb) ∧ (s.m.cj.kq.get [] 1).head? = k.head? ∧ kOf 5 ≠ 0 ∧ badKey 5 = false) ∧
    (∀ k ∈ [[], [0], [5]], let s := contracting true .i32 ra k [] (some (g false 0 [t] none ra))
      contractingB true .i32 s = true ∧ cursor s = ra ∧ s.m.cj.group = some (g false 0 [t] none ra) ∧ (s.m.cj.kq.get [] 0).head? = k.head? ∧
        okAnd (popStrip cw.a (strips .i32) 1 0 (issued s)) (fun _ _ => true) = true) := by decide

theorem witness_EngineCommandsStart : (let s := regs [(0, 2 ^ 32 + 1), (1, 2 ^ 18), (2, 2 ^ 18 + 16), (3, 2 ^ 18 + 32)] issuer
      let x : JW := { jw with e := 4 }
      let t := regs [(4, 2 ^ 18 + 64)] s
      Ready x.h t ∧ isIssuer t.m.curCore = true ∧ Room 3 t ∧ Clear t ∧ val x.c t = 2 ^ 32 + 1 ∧ val x.e t = 2 ^ 18 + 64 ∧ InWindow (val x.a t) 16 t ∧ InWindow (val x.b t) 16 t ∧
        InWindow (val x.d t) 32 t ∧ InWindow (val x.e t) 8 t) ∧
    (let s := withMach (fun m => { m with spad := Mem.wrAll [] (cellsAt 0 ([0, 2 ^ 22, 8].flatMap (toLE 8))) }) demo
     let q := quadsOf (s.m.spad.rdN (spPlace s.m.curCore 0) 64) 8
     Ready jw.h s ∧ Sound 0 64 s ∧ Room 0 s ∧ ownShare (issued s) s.m.cur 0 64 = true ∧
       ∀ op ∈ [0xCA, 0xCB, 0xCC], copyBad op q = false ∧ copyFails (issued s) s.m.cur op (copyRec op q) = none ∧ capRanges (issued s) ((copyRec op q).wvas op) = none) ∧
    (let s := regs [(0, 2 ^ 32 + 1), (1, 2 ^ 22), (4, 16)] demo
     Room 1 s ∧ bits (val 4 s) 0 32 ≤ 16384 ∧ bits (val 0 s) 0 32 = 1 ∧ bits (val 0 s) 32 32 = 1 ∧ InWindow 0 12 s ∧ InWindow 0 16 s ∧ s.m.cx.det = false) ∧
    (let s := regs [(0, 1), (4, 16)] (capable (2 ^ 14))
     s.m.cx.det = true ∧ Sound 0 4 s ∧ Held (2 ^ 22) 16 s) ∧
    (let q := [2 ^ 22, 4 + 4 * 2 ^ 32, 2 ^ 8, 0, 0, 0, 0, 0]
     let s := withSlot (fun y => { y with smv := some q }) (regs [(2, 1)] demo)
     s.m.sl.smv = some q ∧ 0 < val 2 s ∧ val 2 s ≤ 8 ∧ InWindow 0 16 s ∧ Room 2 s ∧ smvBad q = false ∧ smvBad [0, 0, 0, 0, 0, 0, 0, 0] = true) :=
  ⟨⟨ready (by decide), by decide, by unfold Room; decide, by unfold Clear; decide, by decide, by decide, by unfold InWindow; decide, by unfold InWindow; decide, by unfold InWindow; decide, by unfold InWindow; decide⟩,
    ⟨ready (by decide), by unfold Sound; decide, by unfold Room; decide, by decide, by decide⟩,
    ⟨by unfold Room; decide, by decide, by decide, by decide, by unfold InWindow; decide, by unfold InWindow; decide, rfl⟩, ⟨rfl, by unfold Sound; decide, by unfold Held; decide⟩,
    ⟨by decide, by decide, by decide, by unfold InWindow; decide, by unfold Room; decide, by decide, by decide⟩⟩

theorem witness_RemoteCommandsStart : (let s := regs [(2, 8), (3, 2 ^ 22)] demo
      Ready jw.h s ∧ Clear s ∧ Room 4 s ∧ 0 < val 2 s ∧ val 2 s ≤ 262144 ∧ scopeOk .sys (paKind s.m.dev (2 ^ 22)) = true ∧ granuleOf (val 3 s) = granuleOf (val 3 s + 8 - 1) ∧
      InWindow 0 8 s ∧ Held (2 ^ 22) 8 s ∧ Maps (2 ^ 22) .write (2 ^ 22) s) ∧
    (let s := regs [(1, 2 ^ 22), (2, 8)] demo
     Ready jw.h s ∧ InWindow (val 3 s) 8 s ∧ Maps (val 1 s) .read (2 ^ 22) s ∧ Maps (val 1 s) .write (2 ^ 22) s ∧ Held (val 1 s) 8 s ∧ Free s) ∧
    (let q := [4096 + 2 ^ 49, 0, 2 ^ 22, 2 ^ 22 + 64, 4, 64, 0, 0]
     let s := withMach (fun m => { m with spad := Mem.wrAll [] (cellsAt 0 (q.flatMap (toLE 8) ++ [0, 1])) }) demo
     quadsOf (s.m.spad.rdN 0 64) 8 = q ∧ ownShare (issued s) s.m.cur 0 64 = true ∧ Sound 0 64 s ∧ collBad 64 q [] = false ∧ InWindow 64 2 s ∧ Sound 64 2 s ∧
     collBad s.m.dev.sdev q (s.m.spad.rdN 64 2) = false ∧ beyond (2 ^ 22) 8 = none ∧ Held (2 ^ 22 + 64) 8 s ∧ pagesOf (2 ^ 22) 8 = [2 ^ 22] ∧ pagesOf (2 ^ 22 + 64) 8 = [2 ^ 22 + 64] ∧
     Maps (2 ^ 22) .read (2 ^ 22) s ∧ Maps (2 ^ 22 + 64) .write (2 ^ 22 + 64) s ∧ paKind s.m.dev (2 ^ 22) = .hbm) :=
  ⟨⟨ready (by decide), by unfold Clear; decide, by unfold Room; decide, by decide, by decide, by decide, by decide, by unfold InWindow; decide, by unfold Held; decide, maps (by decide)⟩,
    ⟨ready (by decide), by unfold InWindow; decide, maps (by decide), maps (by decide), by unfold Held; decide, rfl⟩,
    ⟨by decide, by decide, by unfold Sound; decide, by decide, by unfold InWindow; decide, by unfold Sound; decide, by decide, by decide, by unfold Held; decide, by decide, by decide,
      maps (by decide), maps (by decide), by decide⟩⟩

theorem witness_EngineWords : (let s := demo
      Ready jw.h s ∧ (∀ b, IsReg b s) ∧ (s.m.cj.kq.get [] 3).length < 64 ∧ copykTo s.m s.m.cur 3 = false ∧ Free s ∧ Clear s ∧ beyond (val 1 s) (val 2 s) = none ∧
      (∀ v ∈ vaLines (2 ^ 22) 256, walking (issued s) s.m.curCore s.m.cx.asid v = false) ∧ Privileged s ∧
      InWindow (val 1 s) 64 s ∧ Sound (val 1 s) 64 s) ∧
    demo.m.ctxOfAsid 0 = some 0 ∧ ruleBad [0, 0, 0, 0, 0, 0, 0, 0] = false ∧ (demo.m.ctx 0).det = false ∧ demo.m.ctxOfAsid 1 = none ∧ ruleBad [3 * 2 ^ 16, 0, 0, 0, 0, 0, 0, 0] = true :=
  ⟨⟨demo_ready, demo_regs, by decide, by decide, rfl, by unfold Clear; decide, by decide, by decide, rfl, by unfold InWindow; decide, by unfold Sound; decide⟩, by decide, by decide, by decide, by decide, by decide⟩

end Sys2Proof.Test

namespace Sys2Proof.Test
open Machine Claim

/-! ## The area of CJSAVE and CJLOAD -/

theorem foldl_same {α β : Type} (f : α → β → α) (x : α) (l : List β) (h : ∀ b ∈ l, f x b = x) : l.foldl f x = x :=
  List.foldlRecOn l f (motive := fun y => y = x) rfl (fun y e b hb => by rw [e]; exact h b hb)
/-- Reads of lines that are there, where no error is planted, change nothing. -/
theorem engFind_calm {pas : List Nat} {m : Mach} (p : m.plantL2 = []) (h : ∀ a ∈ pas, present m a = true ∧ paKind m.dev (128 * (a / 128)) ≠ .host) : engFind pas m = m := by
  have lines : ((pas.map (· / 128)).dedup).foldl (fun m l => if paKind m.dev (128 * l) == .host then hostBus (128 * l) m else bringLine l m) m = m := by
    refine foldl_same _ _ _ (fun l hl => ?_)
    obtain ⟨a, ha, rfl⟩ := List.mem_map.1 (List.mem_dedup.1 hl)
    have e := h a ha
    have here : present m (128 * (a / 128)) = true := by
      have d : 128 * (a / 128) / 128 = a / 128 := by omega
      have := e.1
      unfold present at this ⊢
      rw [homeOf_line, d]; exact this
    simp [bringLine, here, e.2]
  unfold engFind
  rw [lines]
  refine foldl_same _ _ _ (fun w _ => ?_)
  unfold findL2
  exact foldl_same _ _ _ (fun w _ => by rw [p]; rfl)
/-- An engine reads such bytes of HBM as memory holds them. -/
theorem engRead_calm {pas : List Nat} (k : Nat) {m : Mach} (p : m.plantL2 = []) (q : m.poison = [])
    (h : ∀ a ∈ pas, present m a = true ∧ paKind m.dev (128 * (a / 128)) ≠ .host) (hb : ∀ a ∈ pas, paKind m.dev a = .hbm) :
    engRead k pas m = .ok (pas.map m.mem.rd, m) := by
  have n : pas.find? (poisonAt m) = none := by
    rw [List.find?_eq_none]; intro a _; simp [poisonAt, q]
  have e : pas.map (fun a => (sliceBytes m false a 1).headD 0) = pas.map m.mem.rd := by
    refine List.map_congr_left (fun a ha => ?_)
    simp [sliceBytes, hb a ha, Mem.rdN]
  simp only [engRead, bind_apply, change_apply, get_apply, engFind_calm p h, n, e]
  rfl

/-- The engine of the issuer before its geometry is set, as memory holds it: one byte of the area is not zero. -/
def areaBase : State := withMach (fun m => { m with mem := [(2 ^ 22 + 0x62A00, 60)] })
  (withMach (fun m => m.updCore 1 (fun c => { c with tlb := [⟨0, 16, 8, 2 ^ 22, true, true⟩] })) (regs [(1, 2 ^ 22)] issuer))
def areaTr : List (Nat × Nat) := [(2 ^ 22, 2 ^ 22), (2 ^ 22 + 2 ^ 18, 2 ^ 22 + 2 ^ 18)]
def areaPas : List Nat := areaTr.map (·.2)
def areaAt : List Nat := engBytes (2 ^ 22) areaPas areaSize
/-- Its lines have had their turn. -/
def areaState : State := brought ((linesAt (2 ^ 22) areaPas areaSize).map (·.1 / 128)) areaBase
theorem paAt_area {i : Nat} (h : i < 2 ^ 19) : paAt (2 ^ 22) areaPas i = 2 ^ 22 + i := by
  show paAt (2 ^ 22) [2 ^ 22, 2 ^ 22 + 2 ^ 18] i = _
  unfold paAt granuleOf
  have z : i < 2 ^ 18 ∨ 2 ^ 18 ≤ i := by omega
  rcases z with z | z
  · have g : (2 ^ 22 + i) / 2 ^ 18 - 2 ^ 22 / 2 ^ 18 = 0 := by omega
    rw [g, if_pos rfl]; rfl
  · have g : (2 ^ 22 + i) / 2 ^ 18 - 2 ^ 22 / 2 ^ 18 = 1 := by omega
    simp only [g]
    show 2 ^ 22 + 2 ^ 18 + (2 ^ 22 + i) % 2 ^ 18 = _
    omega
theorem areaAt_eq : areaAt = (List.range areaSize).map (2 ^ 22 + ·) := by
  refine List.map_congr_left (fun i hi => ?_)
  exact paAt_area (List.mem_range.1 hi)
theorem area (acc : Acc) : Area (2 ^ 22) areaSize acc areaPas areaState := by
  refine ⟨⟨areaTr, by decide, ?_, rfl⟩, ?_⟩
  · intro p hp
    apply maps
    revert p
    cases acc <;> decide
  · intro _; unfold Held; decide
/-- A byte of the area lies in a line that has been brought. -/
theorem area_present {a : Nat} (h : a ∈ areaAt) : present (issued areaState) a = true := by
  rw [areaAt_eq] at h
  obtain ⟨i, hi, rfl⟩ := List.mem_map.1 h
  have hi : i < 2 ^ 19 := List.mem_range.1 hi
  have d : (2 ^ 22 + i) / 128 = (2 ^ 22 + 128 * (i / 128)) / 128 := by omega
  have mem : (2 ^ 22 + i) / 128 ∈ (linesAt (2 ^ 22) areaPas areaSize).map (·.1 / 128) := by
    refine List.mem_map.2 ⟨(2 ^ 22 + 128 * (i / 128), 128), List.mem_map.2 ⟨i / 128, List.mem_range.2 (by unfold areaSize; omega), ?_⟩, d.symm⟩
    rw [paAt_area (by omega)]
  exact present_brought (lines := (linesAt (2 ^ 22) areaPas areaSize).map (·.1 / 128)) rfl mem
/-- Zeros written to memory that lists nothing, or one byte elsewhere, change nothing. -/
theorem wrAll_zero {m : Mem} (hm : m = [] ∨ ∃ b v, m = [(b, v)]) : ∀ l : List (Nat × Nat), (∀ c ∈ l, c.2 = 0 ∧ ∀ e ∈ m, e.1 ≠ c.1) → m.wrAll l = m
  | [], _ => rfl
  | (a, v) :: l, h => by
    have h1 := h (a, v) (List.mem_cons_self ..)
    have e : m.wr a v = m := by
      obtain ⟨rfl, h2⟩ := (show v = 0 ∧ _ from h1)
      rcases hm with rfl | ⟨b, w, rfl⟩
      · rfl
      · have hb := h2 (b, w) (List.mem_cons_self ..)
        simp only at hb
        simp [Mem.wr, Ne.symm hb]
    show (m.wr a v).wrAll l = m
    rw [e]
    exact wrAll_zero hm l (fun c hc => h c (List.mem_cons_of_mem _ hc))
theorem area_image : Mem.wrAll [] (cellsAt 0 (areaAt.map areaState.m.mem.rd)) = [(0x62A00, 60)] := by
  have hrd : ∀ i, i ≠ 0x62A00 → areaState.m.mem.rd (2 ^ 22 + i) = 0 := by
    intro i hi
    show (if 2 ^ 22 + 0x62A00 == 2 ^ 22 + i then _ else 0) = 0
    rw [if_neg]; simp; omega
  have cells : cellsAt 0 (areaAt.map areaState.m.mem.rd) = (List.range areaSize).map (fun i => (i, areaState.m.mem.rd (2 ^ 22 + i))) := by
    rw [areaAt_eq, List.map_map]
    apply List.ext_getElem
    · simp [cellsAt]
    · intro i h1 h2; simp [cellsAt]
  have split : List.range areaSize = List.range 0x62A00 ++ (0x62A00 :: List.range' (0x62A00 + 1) (areaSize - 0x62A01)) := by
    rw [List.range_eq_range', List.range_eq_range', ← List.range'_succ, List.range'_append_1]; rfl
  rw [cells, split, List.map_append, List.map_cons]
  show List.foldl _ [] _ = _
  rw [List.foldl_append, List.foldl_cons]
  have a := wrAll_zero (.inl rfl) ((List.range 0x62A00).map (fun i => (i, areaState.m.mem.rd (2 ^ 22 + i)))) (by
    intro c hc
    obtain ⟨i, hi, rfl⟩ := List.mem_map.1 hc
    exact ⟨hrd i (by have := List.mem_range.1 hi; omega), fun e he => nomatch he⟩)
  have b := wrAll_zero (m := [(0x62A00, 60)]) (.inr ⟨_, _, rfl⟩) ((List.range' (0x62A00 + 1) (areaSize - 0x62A01)).map (fun i => (i, areaState.m.mem.rd (2 ^ 22 + i)))) (by
    intro c hc
    obtain ⟨i, hi, rfl⟩ := List.mem_map.1 hc
    have := (List.mem_range'_1.1 hi).1
    refine ⟨hrd i (by omega), fun e he => ?_⟩
    cases List.mem_singleton.1 he
    show 0x62A00 ≠ i
    omega)
  unfold Mem.wrAll at a b
  rw [a]
  have w : Mem.wr [] 0x62A00 (areaState.m.mem.rd (2 ^ 22 + 0x62A00)) = [(0x62A00, 60)] := by decide
  rw [w]
  exact b
theorem area_hbm {a : Nat} (h : a < 2 ^ 23) : paKind areaState.m.dev a = .hbm := by
  have top : a < hbmTop := Nat.lt_of_lt_of_le h (by decide)
  have dies : ∀ n < 16, bitAt areaState.m.dev.dies n = true := by decide
  have home : homeDie a < 16 := by unfold homeDie; exact Nat.mod_lt _ (by decide)
  unfold paKind
  rw [if_pos top, if_pos (dies _ home)]
/-- The state that the area describes. -/
def areaPair : Pair := { Pair.init with kq := [(0, []), (1, []), (2, []), (3, [])] }
theorem area_parse : cjParse areaState.m.cj [(0x62A00, 60)] = areaPair := by decide
theorem area_save : cjImage areaPair = [(0x62A00, 60)] := by decide
theorem area_limits (m : Mach) (k : Nat) : cjLimits m k areaPair = true := by
  have h : ringBad m k 0 areaPair.recSize = none := by
    unfold ringBad
    rw [if_neg (by decide), show (bits 0 32 16 != 0) = false from rfl, Bool.false_and, if_neg (by decide)]
  unfold cjLimits
  rw [show areaPair.ring = 0 from rfl, h]
  decide
/-- CJSAVE's stores are sent, and are still to be acknowledged or have been. -/
def savingCj (ocSt : Nat) : State := withSlot (fun y => { y with mid := true, ocSt := ocSt }) issuer
theorem witness_ConjunctionTable_save : ∀ n ∈ [0, 4], Ready jw.h (savingCj n) ∧ Engine (savingCj n) ∧ (savingCj n).m.sl.mid = true ∧ (savingCj n).m.sl.ocSt = n := by
  intro n hn
  refine ⟨ready ?_, engine ?_ ?_ rfl ?_, rfl, rfl⟩
  · revert n; decide
  · revert n; decide
  · revert n; decide
  · unfold Clear; revert n; decide
theorem witness_ConjunctionTable_area : Ready jw.h areaState ∧ Engine areaState ∧ val jw.a areaState = 2 ^ 22 ∧ 2 ^ 22 % 4096 = 0 ∧ areaState.m.sl.mid = false ∧ RoomSt areaState ∧
    (∀ acc, Area (2 ^ 22) areaSize acc areaPas areaState) ∧ bringLaw (linesAt (2 ^ 22) areaPas areaSize) jw.h.ch.toNat (issued areaState) = .ok ((), issued areaState) ∧
    (∃ bytes m, engRead areaState.m.cur areaAt (issued areaState) = .ok (bytes, m) ∧
      let img := Mem.wrAll [] (cellsAt 0 bytes)
      let q := cjParse m.cj img
      cjLimits m m.cur q = true ∧ cjImage q = img) := by
  refine ⟨ready (by decide), engine (by decide) (by decide) rfl (by unfold Clear; decide), by decide, by decide, rfl, by unfold RoomSt; decide, area, bringLaw_brought rfl rfl rfl (fun p hp => List.mem_map_of_mem hp), ?_⟩
  have low : ∀ a ∈ areaAt, a < 2 ^ 23 := by
    intro a ha
    rw [areaAt_eq] at ha
    obtain ⟨i, hi, rfl⟩ := List.mem_map.1 ha
    have := List.mem_range.1 hi
    unfold areaSize at this; omega
  have hbm : ∀ a < 2 ^ 23, paKind (issued areaState).dev a = .hbm := fun a h => area_hbm h
  refine ⟨_, _, engRead_calm _ rfl rfl (fun a ha => ⟨area_present ha, ?_⟩) (fun a ha => hbm a (low a ha)), ?_⟩
  · rw [hbm _ (by have := low a ha; omega)]; decide
  · dsimp only
    have im : Mem.wrAll [] (cellsAt 0 (areaAt.map (issued areaState).mem.rd)) = [(0x62A00, 60)] := area_image
    have ps : cjParse (issued areaState).cj [(0x62A00, 60)] = areaPair := area_parse
    rw [im, ps]
    exact ⟨area_limits _ _, area_save⟩

end Sys2Proof.Test

namespace Sys2Proof.Test
open Machine Claim

/-! ## Witnesses of the statements about events -/

/-- A request of slot 0 to the mapped page. -/
def req (st : ReqSt) (k : ReqKind) : Req := { id := 0, slot := 0, ctx := 0, pa := 2 ^ 22, st := st, kind := k }
def asking (st : ReqSt) (k : ReqKind) : State := withMach (fun m => { m with reqs := [req st k], nextId := 1, cyc := 300 }) demo
/-- A pending write of g3 in slot 0. -/
def land (src : LandSrc) : Land := { id := 7, cells := gCells 3 5 |>.map (fun c => (c.1, some c.2)), src := src, from_ := 0 }
def landing (src : LandSrc) (s : State) : State := withSlot (fun y => { y with il := [land src] }) s
theorem witness_ResultsLand : (∀ src ∈ [LandSrc.ready, .gang], landable (fun c => c == .ready || c == .gang) [] ((landing src demo).m.slot 0).il = some (land src)) ∧
    (∀ src ∈ [LandSrc.load, .counted], landable loadSrc [] ((landing src demo).m.slot 0).il = some (land src)) ∧
    (let k : ReqKind := .load [⟨2 ^ 22, 8, 0, 8, 0⟩] false true false 7
     landable loadSrc [] ((asking .host k).m.slot 0).il = none ∧ firstHost (asking .host k).m (coreOf 0) false = some (req .host k)) ∧
    (∀ st ∈ [ReqSt.done, .host], let s := asking st (.store [] [0])
      s.m.reqs.find? (fun r => r.id == 0 && (r.st == .done || r.st == .host)) = some (req st (.store [] [0])) ∧ (firstHost (asking .host (.store [] [0])).m (coreOf 0) true).map (·.id) = some 0) ∧
    (let k : ReqKind := .atomic .add .i64 1 none false .dev
     (asking .done k).m.reqs.find? (fun r => r.id == 0 && r.st == .done) = some (req .done k) ∧ (asking .done k).m.notices = []) ∧
    (∀ p ∈ [(LandSrc.atomic, ReqKind.atomic .add .i64 1 (some 7) true .dev), (.law, .law .add false 0 0 (some 7) 0 true none), (.law, .law .add false 0 0 (some 7) 0 false none)],
      let s := landing p.1 (asking .done p.2)
      s.m.reqs.find? (fun r => r.id == 0 && r.st == .done) = some (req .done p.2) ∧ s.m.notices = [] ∧ canLand 7 (s.m.slot (req .done p.2).slot).il = some (land p.1)) ∧
    (∀ oct ∈ [true, false], let r := req .queued (.law .add false 0 0 none 0 oct none)
      let s := asking .queued (.law .add false 0 0 none 0 oct none)
      s.m.reqs.find? (fun r => r.id == 0 && r.st == .queued) = some r ∧
        s.m.reqs.find? (fun x => x.accepted && homeOf x.pa == homeOf r.pa && !(x.st == .cxl && x.pa / 128 != r.pa / 128)) = some r) := by decide

/-- The first megabyte of pooled memory is mapped. -/
def pooled (s : State) : State := withMach (fun m => { m with dev := { m.dev with pool := [[0, 2 ^ 20, 0, 0]], cxlp := 15 }, reqs := m.reqs.map (fun r => { r with pa := poolBase }), cyc := 120000 }) s
theorem witness_SlicesAndFills : (let k : ReqKind := .query 7 false
      (asking .sent k).m.reqs.find? (·.id == 0) = some (req .sent k) ∧ canAccept (asking .sent k).m (req .sent k) = true) ∧
    (∀ here ∈ [true, false], let k : ReqKind := .atomic .add .i64 1 (some 7) true .clu
     let s := withMach (fun m => m.setCluster 0 { Cluster.init with held := if here then [2 ^ 15] else [] }) (asking .sent k)
     s.m.reqs.find? (·.id == 0) = some (req .sent k) ∧ canAccept s.m (req .sent k) = true ∧ isQuery k = false ∧ unitHolds s.m (req .sent k) = here) ∧
    (let s := asking .filling (.line true)
     s.m.reqs.find? (fun r => r.id == 0 && r.st == .filling) = some (req .filling (.line true)) ∧ paKind s.m.dev (2 ^ 22) = .hbm ∧ 0 + 300 ≤ s.m.cyc) ∧
    (∀ k ∈ [ReqKind.store [] [0], .eng 3 true], let s := asking .cxl k
     s.m.reqs.find? (fun r => r.id == 0 && r.st == .cxl) = some (req .cxl k)) ∧
    (∀ st ∈ [ReqSt.cxl, .filling], let s := pooled (asking st (.line true))
     (s.m.reqs.find? (fun r => r.id == 0 && (r.st == .cxl || r.st == .filling))).any (fun r => paKind s.m.dev r.pa == .pooled && decide (r.since + 120000 ≤ s.m.cyc)) = true) ∧
    (∀ k ∈ [ReqKind.line true, .data 8 true true, .load [⟨2 ^ 22, 8, 0, 8, 0⟩] false true false 7], let s := asking .done k
     s.m.reqs.find? (fun r => r.id == 0 && r.st == .done) = some (req .done k)) ∧
    (let n := peerBase / 128
     let s := withMach (fun m => m.setSlice (homeOf (128 * n)) { Slice.init with copies := [⟨n, [], []⟩] }) demo
     ∃ c ∈ (s.m.slice (homeOf (128 * n))).copies, c.line = n) ∧
    (let s := withMach (fun m => { m.updCore 0 (fun c => { c with wcb := [⟨2 ^ 15, [], [], 0, [0], 0⟩] }) with cyc := 32 }) demo
     ∃ w ∈ (s.m.core 0).wcb, w.opened + 32 ≤ s.m.cyc) := by decide

/-- Slot 0 looks up granule 16, in the L2 TLB or in a walk; the die's entries, walks and faults. -/
def looking (st : LookSt) (tlb : List TlbE) (walks : List Walk) (faults : List PFault) : State :=
  withMach (fun m => m.setDie 0 { Die.init with tlb := tlb, walks := walks, faults := faults }) (withSlot (fun y => { y with look := [⟨16, .read, st⟩] }) demo)
theorem witness_TranslationEvents : (∀ s ∈ [looking .toL2 [⟨0, 16, 1, 2 ^ 22, true, true⟩] [] [], looking .toL2 [] [⟨0, 16, .read⟩] [], looking .toL2 [] [] [⟨0, 16, 1⟩], looking .toL2 [] [] []],
      (s.m.slot 0).look.find? (fun l => l.granule == 16 && l.st == .toL2) = some ⟨16, .read, .toL2⟩ ∧ (s.m.die (dieOf (coreOf 0))).walks.length < 32) ∧
    ((looking .toL2 [⟨0, 16, 1, 2 ^ 22, true, true⟩] [] []).m.die 0).tlb.find? (·.covers 0 16) = some ⟨0, 16, 1, 2 ^ 22, true, true⟩ ∧
    (∀ f ∈ [[⟨0, 16, 1⟩], []], let m := (looking .toL2 [] [] f).m
     (pending ((sameMiss m 0 16).foldl (fun m j => m.updSlot j.1 (fun y => y.countEvent 6)) m) 0 0 16).isSome = !f.isEmpty) ∧
    ((looking .toL2 [] [⟨0, 16, .read⟩] []).m.die 0).walks.any (fun w => w.asid == 0 && w.granule == 16) = true ∧ ((looking .toL2 [] [] []).m.die 0).walks = [] ∧
    ((looking .toL2 [] [⟨0, 16, .read⟩] []).m.die 0).tlb = [] := by decide
/-- A walk whose first entry is not valid, and one whose four entries lead to a leaf. -/
def tables (l : List (Nat × Nat)) : State := withMach (fun m => { m with mem := Mem.wrAll [] (l.flatMap (fun e => cellsAt e.1 (toLE 8 e.2))) })
  (withCtx (fun c => { c with ptroot := 2 ^ 23 + 1 }) (looking .walking [] [⟨0, 16, .read⟩] []))
/-- Four levels of tables that map granule 16. -/
def mapped4 : List (Nat × Nat) := [(2 ^ 23, 2 ^ 24 + 1), (2 ^ 24, 2 ^ 25 + 1), (2 ^ 25, 2 ^ 26 + 1), (2 ^ 26 + 128, 2 ^ 22 + 15)]
theorem witness_walks : ∀ l ∈ [[], mapped4], ∀ bad ∈ [true, false], let s := withMach (fun m => { m with poison := if bad then [2 ^ 23] else [] }) (tables l)
    (s.m.die 0).walks.find? (fun w => w.asid == 0 && w.granule == 16) = some ⟨0, 16, .read⟩ ∧ s.m.ctxOfAsid 0 = some 0 ∧
    (let reads := rootReads s.m.dev s.m.mem (s.m.ctx 0) (16 * 2 ^ 18)
     let m := walkFind (s.m.ctx 0) (16 * 2 ^ 18) (s.m.setDie 0 { s.m.die 0 with walks := (s.m.die 0).walks.erase ⟨0, 16, .read⟩ })
     (∀ a ∈ reads, waitsService s.m.dev a = false) ∧ missingTable s.m reads = none ∧ reads.find? (fun a => poisoned m a 8) = if bad then some (2 ^ 23) else none) ∧
    walk s.m.dev s.m.mem (s.m.ctx 0) (16 * 2 ^ 18) = if l.isEmpty then .fail 0 0 else .leaf ⟨0, 16, 1, 2 ^ 22, true, true⟩ 3 := by decide

/-- A walk whose root table lies in pooled memory that its home slice has not. -/
theorem witness_walks_pooled : let s := withCtx (fun c => { c with ptroot := poolBase + 1 }) (pooled (looking .walking [] [⟨0, 16, .read⟩] []))
    (s.m.die 0).walks.find? (fun w => w.asid == 0 && w.granule == 16) = some ⟨0, 16, .read⟩ ∧ s.m.ctxOfAsid 0 = some 0 ∧ s.m.reqs = [] ∧
    (let reads := rootReads s.m.dev s.m.mem (s.m.ctx 0) (16 * 2 ^ 18)
     (∀ a ∈ reads, waitsService s.m.dev a = false) ∧ missingTable s.m reads = some (poolBase / 128)) := by decide
/-- Code in pooled memory, whose line its home slice has or has not. -/
theorem witness_FetchReadsTwelveBytes_pooled : ∀ here ∈ [true, false],
    let m0 := (pooled (withMach (fun m => m.updCore 0 (fun c => { c with tlb := [⟨0, granuleOf fetchPage, 1, poolBase, true, true⟩] })) demo)).m
    let m := if here then m0.setSlice (homeOf poolBase) { Slice.init with lines := [poolBase / 128] } else m0
    (tlbHit m m.curCore m.cx.asid fetchPage .fetch).any (fun e =>
      let p := e.at_ fetchPage
      decide (p = poolBase) && paKind m.dev p == .pooled && !waitsService m.dev p && (icFind m m.curCore (p / 128)).isNone && !lineBusy m m.curCore (p / 128) &&
        present m p == here && (List.range 12).all (fun i => !icPoisoned (icFill [p / 128] m.curCore (p / 128) m) m.curCore (p + i))) = true := by decide

theorem witness_SoftErrors : (let s := withMach (fun m => { m with poison := [8] }) demo
      poisoned s.m 15 1 = true ∧ (s.m.slot 0).run ≠ .free) ∧
    (let s := withMach (fun m => m.updCore 1 (fun c => { c with l1 := [⟨2 ^ 15, [], []⟩] })) demo
     ∃ l ∈ (s.m.core ((2 ^ 52 + 2 ^ 22) / 2 ^ 52)).l1, l.line = (2 ^ 52 + 2 ^ 22) % 2 ^ 52 / 128) ∧
    (∀ d ∈ [[], [2 ^ 15]], let s := withMach (fun m => m.setSlice (homeOf (2 ^ 22)) { Slice.init with lines := [2 ^ 15], dirty := d }) demo
     present s.m (2 ^ 22) = true ∧ (s.m.slice (homeOf (2 ^ 22))).dirty.contains (2 ^ 22 / 128) = !d.isEmpty) ∧
    paKind demo.m.dev (2 ^ 22) = .hbm ∧ ((withPair Pair.init demo).m.pairs.find (pairKey 0 0)).isSome = true := by decide

end Sys2Proof.Test

namespace Sys2Proof.Test
open Machine Claim

/-- A command on a die that translates two granules, with the lines that have had their turn; and scratchpad bytes from 0 on. -/
def commanded (c : Cmd) (spad : List Nat) : State := withMach (fun m => { m.setDie 0 { Die.init with tlb := [⟨0, 16, 2, 2 ^ 22, true, true⟩] } with
  cmds := [c], nextId := 1, spad := Mem.wrAll [] (cellsAt 0 spad) }) demo
def served (c : Cmd) : Cmd := { c with served := [2 ^ 15] }
def isOk {α : Type} (x : Except Stop (α × Mach)) : Bool := x.isOk
/-- The command waits for no line. -/
def linesB (c : Cmd) (reads writes : List Nat) (m : Mach) : Bool := okAnd (engLines c reads writes m) (fun _ m1 => decide (m1 = m))
def gathered (c : Cmd) (s : State) (fails : Bool) : Bool :=
  okAnd (gpList c s.m) (fun l m => okAnd (gpRows c l (gpAcc c) (gpEntries c l - c.prog) c.prog m) (fun r m1 =>
    let lines := r.rows.flatten.map (· / 128)
    r.fault.isSome == fails && linesB c (if c.op = 0xCE then [] else lines) (if c.op = 0xCE then lines else []) m1 && isOk (gpDo c l c.prog r.rows m1)))
theorem witness_GatherEnds : ∀ p ∈ [(cmdOf 0 1 0xCD [64, 2 ^ 22, 0, 0, 0, 4, 0, 4, 4, 0, 0, 0, 0], true, false), (cmdOf 0 1 0xCD [64, 2 ^ 22, 0, 1, 0, 4, 0, 4, 4, 0, 0, 0, 0], false, false),
      (cmdOf 0 1 0xCE [64, 2 ^ 22, 0, 1, 0, 4, 0, 4, 4, 0, 0, 0, 0], false, false), (cmdOf 0 1 0xCF [64, 2 ^ 22, 0, 1, 1, 1, 0, 4, 8, 0, Fmt.code .fp32, 0, 0], false, false),
      (cmdOf 0 1 0xCD [64, 2 ^ 23, 0, 1, 0, 4, 0, 4, 4, 0, 0, 0, 0], false, true)],
    let c := served p.1
    let s := commanded c []
    s.m.cmds.find? (fun c => c.id == 0) = some c ∧ isGp c.op = true ∧ cmdMay s.m c = true ∧ gpIdle c = p.2.1 ∧ gathered c s p.2.2 = true := by decide
/-- A matrix of one row, one of two rows in two stacks, and one that is not mapped. -/
theorem witness_MatvecEnds : ∀ p ∈ [(1, 2 ^ 22, 0), (2, 2 ^ 22, 1), (1, 2 ^ 23, 2)], let c0 := served (cmdOf 0 2 0xD0 [64, 0, 1, p.2.1, p.1 + 2 ^ 32, 2 ^ 8, 0, 2 ^ 18, 0, 0, 0, 0])
    let s := commanded c0 []
    s.m.cmds.find? (fun c => c.id == 0) = some c0 ∧ cmdMay s.m c0 = true ∧ okAnd (smvFirst c0 s.m) (fun first m => okAnd (smvRowsFrom c0 first (smvRows c0 - c0.prog) c0.prog m) (fun g m1 =>
      let c := { c0 with args := c0.args.set 11 ((first.map (· + 1)).getD 0) }
      linesB c g.lines [] m1 && isOk (smvDo c c.prog g.hi m1) && (match g.stop with
        | .none => p.2.2 == 0
        | .span => p.2.2 == 1
        | .fault _ => p.2.2 == 2))) = true := by decide
/-- Copies: of a record that has become bad, of one that is good, and of one whose source is not mapped. -/
theorem witness_CopyEnds : ∀ p ∈ [(2 ^ 22, 16, false), (2 ^ 22, 0, false), (2 ^ 23, 0, true)], let c := served (cmdOf 0 0 0xCA [0, 0, 0, 0, 0, 0])
    let s := commanded c ([2 ^ 22 + 64, p.1, 8, 0, 0, p.2.1, 0, 0].flatMap (toLE 8))
    cmdMay s.m c = true ∧ s.m.cmds.find? (fun c => c.id == 0) = some c ∧ isCopy c.op = true ∧ okAnd (copyRead c s.m) (fun q m =>
      let r := copyRec c.op q
      copyBad c.op q == (p.2.1 != 0) && decide (c.where_ r = c) && (p.2.1 != 0 || ((copyFails m c.slot c.op r).isNone && okAnd (copyRows c r r.rows 0 0 m) (fun g m1 =>
        g.fault.isSome == p.2.2 && isOk (copyLines c r g.bytes m1) && isOk (copyBytes c r g.bytes m1))))) = true := by decide
/-- A COPYK of one key; and a copy that runs on to the next 128-byte boundary when a stop is requested. -/
theorem witness_CopyEnds_push : (let c := served (cmdOf 0 0 0xCC [0, 0, 0, 0, 0, 0])
      let s := commanded c ([0, 2 ^ 22, 1, 0, 0, 0, 0, 0].flatMap (toLE 8))
      cmdMay s.m c = true ∧ okAnd (copyRead c s.m) (fun q m =>
        let r := copyRec c.op q
        !copyBad c.op q && (copyFails m c.slot c.op r).isNone && decide (c.where_ r = c) && isOk (copyPush c r m)) = true) ∧
    (let c := served (cmdOf 0 0 0xCA [0, 0, 0, 0, 0, 0])
     let s := withCtx (fun x => { x with pre := some false }) (commanded c ([2 ^ 22 + 64, 2 ^ 22, 8, 0, 0, 0, 0, 0].flatMap (toLE 8)))
     okAnd (copyRead c s.m) (fun q m =>
       let r := copyRec c.op q
       copyRuns m c r && decide (c.where_ r = c) && isOk (copyOn c r m)) = true) := by decide
theorem witness_SetOpEnds : ∀ b ∈ [none, some 4], let c := cmdOf 4 3 0xC5 [2 ^ 18 + 64, 2 ^ 18, 2 ^ 18 + 8, 1, 1, 2 ^ 18 + 128, 0]
    let s := withMach (fun m => m.setPair 0 0 { Pair.init with busy := b, from_ := 1 }) (commanded c [])
    cmdMay s.m c = true ∧ s.m.cmds.find? (fun c => c.id == 0 && isSetOp c.op) = some c ∧
      s.m.cmds.find? (fun x => x.tl == 3 && coreOf x.slot == coreOf c.slot && x.ctx == c.ctx) = some c ∧
      (let p := s.m.pair c.ctx (pairOf (coreOf c.slot))
       p.busy = b ∧ c.id < p.from_) ∧
      okAnd (engSpRead c.slot (2 ^ 18) 8 s.m) (fun _ m => isOk (engSpRead c.slot (2 ^ 18 + 8) 8 m)) = true := by decide

theorem witness_RemoteCommandsEnd : ∀ op ∈ [0xD3, 0xD4, 0xD5, 0xD6], let c := served (cmdOf 0 4 op [2 ^ 22, 0, 8, 5, 0, 0])
    let s := commanded c []
    let pas := (List.range 8).map (2 ^ 22 + ·)
    let lines := pas.map (· / 128)
    let reads := op = 0xD4 ∧ paKind s.m.dev (2 ^ 22) ≠ .peer
    s.m.cmds.find? (fun c => c.id == 0 && c.tl == 4 && c.op != 0xD2) = some c ∧ (s.m.ctx c.ctx).st = .running ∧ remoteEarlier s.m c = false ∧
      linesB c (if reads then lines else []) (if reads then [] else lines) s.m = true ∧
      isOk (engSpRead c.slot (c.args.getD 1 0) (c.args.getD 2 0) s.m) = true ∧ ∀ a ∈ pas, poisonAt (homeFind pas s.m) a = false := by decide
/-- A broadcast of two ranks through the switch, and rank 0 or 1 of a ring. -/
def colling (ring : Bool) (rank prog : Nat) : Cmd :=
  served { cmdOf 0 4 0xD2 ([0, 4096 + (if ring then 2 ^ 16 else 0) + rank * 2 ^ 32 + 2 ^ 49, 0, 2 ^ 22, 2 ^ 22 + 64, 4, 64, 0, 0, 1, 2 ^ 22, 2 ^ 22 + 64]) with prog := prog }
theorem witness_CollectivesEnd : ∀ p ∈ [(false, 0, 0), (true, 0, 0), (true, 1, 1), (true, 1, 0)], let c := colling p.1 p.2.1 p.2.2
    let s := withMach (fun m => { m with sid := 10000000 }) (commanded c [])
    s.m.cmds.find? (fun c => c.id == 0 && c.op == 0xD2) = some c ∧ (s.m.ctx c.ctx).st = .running ∧ ([0] : List Nat).length + 1 = c.coll.nrank ∧ c.coll.ring = p.1 ∧ c.coll.rank = p.2.1 ∧
      linesB c ((collSrc c).map (· / 128)) ((collDst c).map (· / 128)) s.m = true ∧ linesB c ((collSrc c).map (· / 128)) [] s.m = true ∧
      isOk (collInput c s.m) = true ∧ c.issued + 10000000 ≤ s.m.sid ∧ (p = (true, 1, 0) → [[0]].length = c.coll.rank ∧ c.prog = 0) := by decide
/-- A stop of the context, at a pair boundary, while a B tuple's key is awaited or parked; and one by the gang's watchdog. -/
theorem witness_ContractStops : (∀ p ∈ [(false, false, none), (true, true, none), (true, false, some (Wait.keyHead 0 0 0 0 0 0))],
     let s := withMach (fun m => { m with sid := 8000 }) (withPair { Pair.init with group := some ⟨0, p.1, [], none, 0, [], .i8⟩, busy := some 4 }
      (withCtx (fun c => { c with pre := some false }) (withSlot (fun y => { y with parked := p.2.1, wait := p.2.2 }) issuer)))
    (s.m.slot 4).run = .running ∧ (s.m.ctx (s.m.slot 4).ctx).pre.isSome = true ∧ (s.m.ctx (s.m.slot 4).ctx).preAt + 8000 ≤ s.m.sid ∧
      (s.m.pair (s.m.slot 4).ctx (pairOf (coreOf 4))).busy = some 4 ∧ (s.m.pair (s.m.slot 4).ctx (pairOf (coreOf 4))).group.isSome = true ∧ (s.m.slot 4).wait ≠ some .stopped) ∧
    (let G : Gang := { gang with wd := true }
     let s := withMach (fun m => { m.updSlot 4 (fun y => { y with task := y.task.map (fun t => { t with e := { t.e with gang := some 0 } }) }) with sid := 8000, gangs := [(0, G)] })
        (withPair { Pair.init with group := some ⟨0, false, [], none, 0, [], .i8⟩, busy := some 4 } issuer)
     (s.m.slot 4).task.bind (·.e.gang) = some 0 ∧ s.m.gangs.find 0 = some G ∧ G.timer + 8000 ≤ s.m.sid ∧ (s.m.slot 4).run = .running ∧
       (s.m.pair (s.m.slot 4).ctx (pairOf (coreOf 4))).busy = some 4) := by decide

end Sys2Proof.Test

namespace Sys2Proof.Test
open Machine Claim

def entry0 : Entry := (fetchTask 0).e
def idle (f : Slot → Slot) : State := withSlot (fun y => f { y with task := none }) demo
theorem witness_TaskEvents : (∀ p ∈ [true, false], let s := if p then idle (fun y => { y with next := some entry0 }) else idle (fun y => { y with deque := [entry0] })
      let y := s.m.slot 0
      y.run = .running ∧ y.enabled = true ∧ y.task = none ∧
      if p then y.next = some entry0 ∧ (beginTask 0 entry0 y.nextStolen s.m).isSome = true
      else y.next = none ∧ y.idle = true ∧ (popBottom 0 (refillDeque 0) s.m).any (fun r => r.1 == entry0 && (r.2.ctx 0).st == .running) = true) ∧
    (let s := withMach (fun m => { m with poison := [2 ^ 22] }) (withSlot (fun y => { y with task := none, look := [], deque := [entry0], spilled := [entry0], dqring := 2 ^ 22 + 1 }) (tables mapped4))
     (s.m.slot 0).idle = true ∧ (popBottom 0 (refillDeque 0) s.m).any (fun r => r.1 == entry0 && (r.2.ctx 0).st == .ended) = true) ∧
    (let s := idle id
     mayStealNow s.m 0 = true ∧ (s.m.slot 0).victims = [] ∧ (s.m.slot 0).backoff = none ∧ victimsOf s.m 0 = [4]) ∧
    (let s := idle (fun y => { y with backoff := some 0 })
     (s.m.slot 0).backoff = some 0 ∧ 0 ≤ s.m.sid) ∧
    (∀ full ∈ [true, false], let s := withMach (fun m => m.updSlot 4 (fun y => { y with deque := if full then [entry0] else [] })) (idle (fun y => { y with victims := [4] }))
      mayStealNow s.m 0 = true ∧ (s.m.slot 0).victims = [4] ∧ (s.m.slot 4).run ≠ .saved ∧ (takeTop 4 s.m).isSome = full) ∧
    (let s := withSlot (fun y => { y with age := 4096 }) demo
     4096 * ((s.m.slot 0).boost + 1) ≤ (s.m.slot 0).age) := by decide
theorem witness_Waits : (∀ w ∈ [Wait.until_ 0, .timeline 0 0 0, .flush [] [] []], let s := withSlot (fun y => { y with wait := some w }) demo
      (s.m.slot 0).wait = some w ∧ w ≠ .released ∧ (s.m.slot 0).run = .running ∧ waitHolds s.m 0 w = true) ∧
    (withMach (fun m => { m with decs := [⟨0, 0⟩] }) demo).m.decs[0]? = some ⟨0, 0⟩ ∧
    (let s := withMach (fun m => m.updSlot 4 (fun y => { y with wait := some (.follow 0 0) })) (withSlot (fun y => { y with wait := some (.lead 2 2 0) }) demo)
     (s.m.slot 0).wait = some (.lead 2 2 0) ∧ (s.m.slot 0).run = .running ∧ (s.m.slot 0).enabled = true ∧ joiners s.m 0 2 none = some [4]) ∧
    (∀ keep ∈ [true, false], let c : Machine.Claim := ⟨0, 32, 16, keep⟩
      let s := withMach (fun m => m.setOctet 0 { Octet.init with claims := [c] }) (withSlot (fun y => { y with wait := some .lanes }) demo)
      headClaim s.m 0 = some c ∧ c.least ≤ freeLanes s.m 0) := by decide

/-- The launch queue of the context at 2^23, whose packets' first and second words are those given. -/
def queued (h g : Nat) (y : Queue) : State := withMach (fun m => { m with mem := Mem.wrAll [] (cellsAt (2 ^ 23) (toLE 8 h ++ toLE 8 g)), sid := 100000 })
  (withCtx (fun c => { c with qbase := 2 ^ 23, queues := [(0, y)] }) (idle id))
def q0 : Queue := { Queue.init with tail := 1 }
theorem witness_Packets : (let s := queued 0 0 { q0 with parsed := 1, active := [(0, .waitBar)] }
      let y := (s.m.ctx 0).queues.get Queue.init 0
      y.open_.find? (fun a => holdsQueue a.2) = some (0, .waitBar) ∧ (∀ a ∈ y.open_, a.1 = 0) ∧ y.err = false ∧ (s.m.ctx 0).st = .running ∧ s.m.dev.red = false) ∧
    (∀ p ∈ [(0, []), (256, [(7, PacketSt.running 0)])], let s := queued p.1 0 { q0 with active := p.2 }
     let x := s.m.ctx 0
     let y := x.queues.get Queue.init 0
     y.open_.find? (fun a => holdsQueue a.2) = none ∧ y.parsed < y.tail ∧ bitAt (s.m.mem.num (packetAt x 0 y.parsed) 8) 8 = !y.open_.isEmpty) := by decide
/-- A LAUNCH that waits for units, of one group of an octet: there are units, in its turn; and there are none, and 100 µs have passed. -/
def launching (free res : Bool) : State := withMach (fun m => m.updSlot 4 (fun y => if free then { y with task := none } else y)) (queued 1 1 { q0 with parsed := 1, active := [(0, .placing 0 res)] })
def isPlacing (a : Nat × PacketSt) : Bool := match a.2 with
  | .placing _ _ => true
  | _ => false
theorem witness_Gangs : (∀ free ∈ [true, false], let s := launching free false
      let x := s.m.ctx 0
      let y := x.queues.get Queue.init 0
      let w : Waiter := ⟨0, 0, 0, 1, 0, false⟩
      x.st = .running ∧ x.pre = none ∧ y.err = false ∧ y.active.find? isPlacing = some (0, .placing 0 false) ∧
      pickUnits s.m 0 0 0 1 (unitsOf s.m 0 0) = (if free then some [0] else none) ∧
      firstTurn s.m ((waiters s.m).filter (fun w => w.q < 64 && w.fits s.m && (s.m.ctx w.c).pre.isNone && (s.m.ctx w.c).st == .running)) = (if free then some w else none) ∧
      (let late := fun (w : Waiter) => !w.res && decide (w.since + 100000 ≤ s.m.sid) && (s.m.ctx w.c).st == .running
       (waiters s.m).find? (fun w => w.c == 0 && w.q == 0) = some w ∧ late w = true ∧ reservers s.m = [] ∧
       firstTurn s.m ((waiters s.m).filter (fun v => late v && v.shp == w.shp)) = some w)) := by decide
theorem witness_Spawns : let s := withMach (fun m => { m with sid := 100000 }) (withSlot (fun y => { y with wait := some (.units 1 0 0 false) }) demo)
     let w : Waiter := ⟨0, 64, 0, 1, 0, false⟩
     let late := fun (w : Waiter) => !w.res && decide (w.since + 100000 ≤ s.m.sid) && (s.m.ctx w.c).st == .running
     (waiters s.m).find? (fun w => w.c == 0 && w.q == 64) = some w ∧ late w = true ∧ reservers s.m = [] ∧ firstTurn s.m ((waiters s.m).filter (fun v => late v && v.shp == w.shp)) = some w := by decide
theorem witness_GangEvents : (let s := withMach (fun m => { m with gangs := [(0, { gang with live := 0 })] }) demo
     s.m.gangs.find 0 = some { gang with live := 0 }) ∧
    (∀ p ∈ [(false, false), (true, false)], let G : Gang := { gang with wdi := 1, wd := p.1 }
     let s := withMach (fun m => { m with gangs := [(0, G)], sid := 1000 }) demo
     s.m.gangs.find 0 = some G ∧ G.wdi ≠ 0 ∧ G.told = false ∧ (s.m.ctx 0).st = .running ∧ (s.m.ctx 0).pre = none ∧ G.timer + 1000 * G.wdi ≤ s.m.sid ∧
       (gangSlots s.m 0 G).all (fun k => (s.m.slot k).run != .running || stopDone s.m G.ctx k) = true) ∧
    (∀ save ∈ [true, false], let s := withCtx (fun c => { c with pre := some save }) demo
      (s.m.ctx 0).pre = some save ∧ (∀ k ∈ s.m.slotsOfCtx 0, stopDone s.m 0 k = true) ∧ s.m.decs = []) := by decide
/-- A FENCE whose condition, on a counter in the mapped page, holds. -/
def fenced : State := withMach (fun m => { m with mem := Mem.wrAll [] (cellsAt (2 ^ 27) ([2 + 2 ^ 16, 2 ^ 22, 0].flatMap (toLE 8)) ++ mapped4.flatMap (fun e => cellsAt e.1 (toLE 8 e.2))) })
  (withCtx (fun c => { c with ptroot := 2 ^ 23 + 1, qbase := 2 ^ 27, queues := [(0, { q0 with parsed := 1, active := [(0, .fencing [0])] })] }) demo)
theorem witness_fence : ∀ bad ∈ [true, false], let s := withMach (fun m => { m with poison := if bad then [2 ^ 23] else [] }) fenced
    let x := s.m.ctx 0
    let at_ := packetAt x 0 0
    let r := fenceWalk x [s.m.mem.num (at_ + 8) 8] s.m
    let m := r.2
    (x.queues.get Queue.init 0).err = false ∧ (x.queues.get Queue.init 0).active = [(0, .fencing [0])] ∧ r.1 = (if bad then some (2 ^ 23) else none) ∧
    (bad = false → fenceBad m x (m.mem.num (at_ + 8) 8) = none ∧ reach m x (m.mem.num (at_ + 8) 8) .read = some (2 ^ 22) ∧ m.mem.num (at_ + 16) 8 ≤ m.mem.num (2 ^ 22) 8) := by decide
/-- The launch of a context of class 1 has reserved cores where a context of class 0 runs a task. -/
def outranked : State :=
  let launch : Ctx := { ctx0 with cls := 1, qbase := 2 ^ 23, queues := [(0, { q0 with parsed := 1, active := [(0, .placing 0 true)] })] }
  let y : Slot := { Slot.init with run := .running }
  withMach (fun m => { m with ctxs := [(0, launch), (1, { ctx0 with asid := 1 })], slots := [(0, y), (1, { y with ctx := 1, task := some (fetchTask 1) }), (4, y)] }) demo
theorem witness_PreemptByClass : (reservers outranked.m).find? (fun r => r.c == 0 && r.q == 0) = some ⟨0, 0, 0, 0, 0, true⟩ ∧ (outranked.m.ctx 0).st = .running ∧
    (outranked.m.ctx 1).st = .running ∧ (outranked.m.ctx 1).pre = none ∧ (outranked.m.ctx 1).cls < (outranked.m.ctx 0).cls ∧
    ∃ u ∈ unitsOf outranked.m 0 0, unitFree outranked.m 0 (some 0) 0 u = true ∧ ∃ core ∈ unitCores 0 u, ∃ e ∈ coreSlots outranked.m 1 core, e.2.task.isSome = true := by decide

/-- Node 0 of constellation 0 in cluster 0, its counter or record at the mapped page. -/
def noded (n : Node) : State := withMach (fun m => m.setCluster 0 { Cluster.init with nodes := [(0, n)], cons := [(0, ⟨0, 0, 0, true, 1, false, false, 0, none, []⟩)] })
  (withMach (fun m => m.updSlot 4 (fun y => { y with task := none })) (tables mapped4))
theorem witness_Constellation : let node (kind arg : Nat) (launched ended : Bool) : Node := ⟨kind, 0, [], arg, 0, true, launched, ended, false, false, 0⟩
    ∀ n ∈ [node 0 (2 ^ 22) false false, node 0 (2 ^ 22) true true, node 2 (2 ^ 22) true false, node 3 (2 ^ 22) true false, node 3 1 true false], let s := noded n
      (s.m.cluster 0).nodes.find 0 = some n ∧ (s.m.cluster 0).cons.find n.con = some ⟨0, 0, 0, true, 1, false, false, 0, none, []⟩ ∧ (s.m.ctx 0).st = .running ∧ n.npred = 0 ∧
      (n.launched = false → (((launchNode 0 0 s.m).cluster 0).nodes.find 0).any (·.launched) = true) ∧
      (let m := nodeFind (s.m.ctx 0) 0 n s.m
       nodePoison m (s.m.ctx 0) 0 n = none ∧ (1 < n.kind → counterAt m (s.m.ctx 0) n = if n.arg = 1 then none else some (2 ^ 22)) ∧ n.val ≤ m.mem.num (2 ^ 22) 8) := by decide
theorem witness_Constellation_poison : let n : Node := ⟨2, 0, [], 2 ^ 22, 0, true, true, false, false, false, 0⟩
    let s := withMach (fun m => { m with poison := [2 ^ 22] }) (noded n)
    (s.m.cluster 0).nodes.find 0 = some n ∧ (nodePoison (nodeFind (s.m.ctx 0) 0 n s.m) (s.m.ctx 0) 0 n).isSome = true ∧
      (let s := withMach (fun m => { m with poison := [2 ^ 22] }) (noded { n with kind := 0, launched := false, ended := false })
       ((launchNode 0 0 s.m).ctx 0).st = .ended) := by decide
/-- A notice to a subscription entry without a task, with one pending or running, to another block's entry and to none; and a held fire that finds room. -/
theorem witness_Notices : let e (t : SubTask) (block : Nat) (freed : Bool) : Sub := { sub0 with block := block, task := t, freed := freed }
    (∀ l ∈ [[], [(0, e .none (2 ^ 22) false)], [(0, e (.pending 0 false) (2 ^ 22) false)], [(0, e (.running 0) (2 ^ 22) false)], [(0, e .none 0 false)]],
      let s := withMach (fun m => { m.setCluster 0 { Cluster.init with subs := l } with notices := [⟨0, 0, 2 ^ 22, 2 ^ 32, 0, 0⟩] }) demo
      s.m.notices[0]? = some ⟨0, 0, 2 ^ 22, 2 ^ 32, 0, 0⟩ ∧ (s.m.cluster 0).subs.find 0 = l.head?.map (·.2)) ∧
    (∀ freed ∈ [true, false], let s := withMach (fun m => m.setCluster 0 { Cluster.init with subs := [(0, e (.pending 0 true) (2 ^ 22) freed)] }) demo
      (s.m.cluster 0).subs.find 0 = some (e (.pending 0 true) (2 ^ 22) freed) ∧ (firePush 0 0 0 s.m).isSome = true) := by decide
/-- A record with and without a counted sender, of a law unit and not; a due entry of an octet's and of a slice's law unit; and a record in a slot's ring. -/
theorem witness_RecordsAndFires : (∀ r ∈ [(⟨0, 0, [], none, none⟩ : Record), ⟨0, 0, [], some 4, some 3⟩], let s := withMach (fun m => { m with records := [r] }) demo
      s.m.records[0]? = some r ∧ ringWalked r s.m = false) ∧
    (let e : EphEntry := ⟨64, 0, 0, 0, 0, false, 0⟩
     let s := withMach (fun m => m.setOctet 0 { Octet.init with eph := [e] }) demo
     earliest ((s.m.octet (1 / 2)).eph.filter (fun e => e.place == 64 && decide (e.time ≤ domainTime s.m (s.m.ctx e.ctx) e.domain))) = some e ∧
     (let s := withMach (fun m => { m.setSlice 0 { Slice.init with eph := [{ e with time := 9 }, e] } with sid := 9 }) demo
      earliest ((s.m.slice (0 / 2)).eph.filter (fun e => e.place == 64 && decide (e.time ≤ domainTime s.m (s.m.ctx e.ctx) e.domain))) = some e)) ∧
    (let s := withSlot (fun y => { y with evring := 2 ^ 22 + 6, rq := 1 }) (tables mapped4)
     let y := s.m.slot 0
     y.run ≠ .free ∧ (s.m.ctx y.ctx).st = .running ∧ y.rq ≠ 0 ∧ y.evq.length < evRoom s.m y.ctx ∧ walking s.m (coreOf 0) (s.m.ctx y.ctx).asid (evAt y y.rqHead) = false ∧ (quietXlate 0 (evAt y y.rqHead) .read s.m).1 = some (2 ^ 22) ∧
       paKind s.m.dev (2 ^ 22) ≠ .hole) := by decide

/-- A frame with an IPv4 datagram of one UDP payload of four bytes to the port. -/
def frameTo (port : Nat) : List Nat := List.replicate 12 0 ++ [8, 0, 0x45, 0, 0, 32, 0, 0, 0, 0, 1, 17, 0, 0] ++ List.replicate 8 1 ++ [0, 1, port / 256, port % 256, 0, 12, 0, 0, 1, 2, 3, 4]
def ruled : State := withMach (fun m => m.setIodie 0 { IoDie.init with rules := [(0, [9, 0, 0, 0, 0, 0, 0, 0])] }) demo
def ingest : Ingest := ⟨0, 2 ^ 22, 2 ^ 22, .add, 1, 0, 0, 0, 0, [], 0⟩
theorem witness_PortEvents : 6 ≤ demo.m.dev.step ∧ datagramOf [] = none ∧ datagramOf (frameTo 319) = some ⟨false, 319, [1, 2, 3, 4]⟩ ∧ datagramOf (frameTo 9) = some ⟨false, 9, [1, 2, 3, 4]⟩ ∧
    (ruled.m.iodie 0).rules.find? (fun r => ruleMatches r.2 ⟨false, 9, [1, 2, 3, 4]⟩) = some (0, [9, 0, 0, 0, 0, 0, 0, 0]) ∧
    (∀ r ∈ (ruled.m.iodie 0).rules, ruleMatches r.2 ⟨false, 8, [1, 2, 3, 4]⟩ = false) ∧
    (∀ n ∈ [0, 2], let s := withMach (fun m => { m with ingests := [ingest], reqs := [req .queued .ingest] }) (lawful n false)
      let m := useLine (2 ^ 22 / 128) 0 (bringLine (2 ^ 22 / 128) s.m)
      s.m.ingests[0]? = some ingest ∧ s.m.reqs.find? (fun r => r.id == ingest.req && r.st == .queued) = some (req .queued .ingest) ∧ atHead s.m (req .queued .ingest) = true ∧ (lawDesc (m.ctx 0) false (m.mem.num (2 ^ 22) 8)).isSome = (n == 0)) ∧
    (ruled.m.iodie 0).source false = 0 ∧ (let s := withMach (fun m => m.setIodie 0 { IoDie.init with ipv4 := 1, locked := true }) demo
     (s.m.iodie 0).source false ≠ 0 ∧ (s.m.iodie 0).locked = true ∧ (s.m.iodie 0).v6 = false) := by decide

end Sys2Proof.Test

namespace Sys2Proof.Test
open Machine Claim

/-! ## Witnesses of the statements about the host, power and flash -/

theorem witness_HostAccesses : linksUp demo.m.dev = true ∧ bar2Ok demo.m.dev 0 8 = true ∧ bar2Waits demo.m.dev 0 8 = false ∧ bar2Ok (withMach (fun m => { m with dev := { m.dev with dies := 0 } }) demo).m.dev 0 8 = false ∧ linksUp (withMach (fun m => { m with dev := { m.dev with dies := 0 } }) demo).m.dev = true ∧
    homesFree demo.m 0 8 = true ∧ (∀ p ∈ (List.range 8).map (0 + ·), poisonAt (engFind ((List.range 8).map (0 + ·)) demo.m) p = false) ∧
    (let s := withMach (fun m => { m with poison := [0] }) demo
     homesFree s.m 0 8 = true ∧ ((List.range 8).map (0 + ·)).find? (poisonAt (engFind ((List.range 8).map (0 + ·)) s.m)) = some 0) ∧
    demo.m.dev.red = false ∧ (withMach (fun m => { m with dev := { m.dev with red := true } }) demo).m.dev.red = true ∧ (demo.m.ctxs.find 0).isSome = true ∧ demo.m.ctxs.find 1 = none ∧
    (let y := (demo.m.ctx 0).queues.get Queue.init 16
     y.tail ≤ 256 ∧ 256 ≤ y.oldest + 256 ∧ y.oldest + 256 < 257) ∧
    (let s := withCtx (fun c => { c with queues := [(16, { Queue.init with tail := 1 })] }) demo
     0 < ((s.m.ctx 0).queues.get Queue.init 16).tail) := by decide
theorem witness_HostReads : demo.m.ctxs.find 0 = some ctx0 ∧ demo.m.ctxs.find 1 = none ∧ (0 < 64 ∧ 1 < 64) ∧ 2 ^ 28 ≤ 2 ^ 31 - 1 := by decide
/-- The module before, in and after a host command, and in recovery mode. -/
theorem witness_HostCommands : linksUp demo.m.dev = true ∧ demo.m.dev.busy = false ∧ demo.m.dev.recov = false ∧ demo.m.ctxs.find (demo.m.arg 0) = some ctx0 ∧ ctx0.st = .running ∧ demo.m.arg 0 < 64 ∧ allPerformed demo.m 0 = true ∧
    (∀ p ∈ contextCommands 0 ctx0 demo.m, .running ∈ p.2.1 ∨ .stopped ∈ p.2.1) ∧
    (∀ st ∈ [CtxSt.stopped, .saved, .ended], let s := withCtx (fun c => { c with st := st }) demo
      s.m.ctxs.find 0 = some { ctx0 with st := st }) ∧ .stopped ∈ [CtxSt.stopped, .saved, .ended] ∧
    (let s := withMach (fun m => { m with dev := { m.dev with recov := true } }) demo
     linksUp s.m.dev = true ∧ s.m.dev.busy = false ∧ s.m.dev.recov = true) ∧
    (let s := withMach (fun m => { m with dev := { m.dev with busy := true } }) demo
     linksUp s.m.dev = true ∧ s.m.dev.busy = true) ∧
    (∀ a ∈ [1, 64], let s := withMach (fun m => { m with dev := { m.dev with cmdarg := [a, 0, 0, 0] } }) demo
      s.m.arg 0 = a ∧ s.m.ctxs.find a = none) := by decide
theorem witness_ModuleEvents : demo.m.dev.link0 = true ∧ demo.m.dev.hot = false ∧ (8 * 120 < 961) ∧ (8 * 110 < 881 ∧ 881 ≤ 8 * 120) ∧ (360 < 361) ∧ (5000 ≤ demo.m.dev.effCap) ∧ 2 ≤ demo.m.dev.step ∧
    (∀ p ∈ [[], [5]], let s := withMach (fun m => { m with dev := { m.dev with span := true, link0 := false, peers := p } }) demo
      s.m.dev.span = true ∧ 5 ≠ s.m.dev.sdev ∧ s.m.dev.peers = p ∧ s.m.dev.link0 = false) := by decide

/-- Start-up step `i` is under way, by its normal method; and a report of every step's outcome. -/
def starting (i : Nat) : State :=
  { m := { demo.m with dev := { demo.m.dev with start := some (i, false) } }, boot := { State.reset.boot with torn := i == 1 } }
def reports (good : Bool) : StartReport := { normal := List.replicate 10 good, alternate := List.replicate 10 good, dies := 2 ^ 16 - 1, ports := 15, spanPorts := 15, spanDevice := 0, ptpLocked := false, ptpTime := 0, flash := [] }
/-- A table to stage or to attest, an image torn, each start-up step passed and failed, and each cause of a loss of power. -/
theorem witness_FirmwareAndPower : (let s := withMach (fun m => { m with dev := { m.dev with cmdarg := [0, 108, 0, 0] } }) demo
      linksUp s.m.dev = true ∧ s.m.dev.busy = false ∧ s.m.arg 1 ≠ 0 ∧ s.m.dev.recov = false ∧ tableOk s.m.dev (s.m.arg 0) 108 = true ∧ waitsService s.m.dev (s.m.arg 0) = false ∧
      (∀ a ∈ framesOf (s.m.arg 0) (s.m.arg 1), tableOk s.m.dev a 1 = true ∧ waitsService s.m.dev a = false) ∧
      s.boot.sigIndex < 2 ^ 40 ∧ s.boot.staged = none) ∧ demo.m.arg 1 = 0 ∧
    ({ demo with boot := { demo.boot with staged := some [] } } : State).boot.staged ≠ none ∧ ({ demo with boot := { demo.boot with sigIndex := 2 ^ 40 } } : State).boot.sigIndex = 2 ^ 40 ∧
    flashWrites demo.boot = true ∧ flashWrites { demo.boot with flash := [false] } = false := by decide
theorem witness_StartUp : State.reset.m.dev.start = none ∧ State.reset.m.dev.step = 0 ∧ State.reset.m.dev.recov = false ∧ State.reset.boot.torn = false ∧ State.reset.boot.record = List.replicate 10 0 ∧
    (∀ i ∈ [0, 2, 3, 6, 7, 8], ∀ good ∈ [true, false], let s := starting i
     s.m.dev.start = some (i, false) ∧ s.m.dev.recov = false ∧ s.boot.record.length = 10 ∧ s.boot.alts.contains (i + 1) = false ∧ bootOut s.boot.record i ≠ 5 ∧ bootOut s.boot.record (i + 1) ≠ 5 ∧
       (reports good).normal.getD i false = good ∧ bitAt s.m.dev.dies 0 = true ∧ s.m.dev.dies = 2 ^ 16 - 1) ∧
    ((starting 1).boot.torn = true ∧ (starting 1).m.dev.start = some (1, false)) ∧
    (let s := withMach (fun m => { m with dev := { m.dev with red := true, step := 8 } }) demo
     s.m.dev.red = true ∧ s.m.dev.step = 8 ∧ s.m.dev.recov = false) := by decide
theorem witness_PowerLoss : 8 * 120 < 961 ∧ 39 < 40 ∧ 43999 < 44000 ∧ ∃ t, exec (.powerLoss (.lowFlow 39)) demo = .next t := ⟨by decide, by decide, by decide, _, rfl⟩
theorem witness_FlashKeepsItsForm : FlashInv State.reset ∧ ∃ t, step State.reset = .next t := ⟨by unfold FlashInv; decide, _, rfl⟩

end Sys2Proof.Test

namespace Sys2Proof.Test
open Machine Claim

/-! ## A few words executed; the expected values stand in the rule named -/

/-- Register g of the slot after the step, once its results have landed. -/
def gAfter (n : Nat) : Host.Outcome State Fault Refusal → Option Nat
  | .next t => some ({ t.m.sl with n := t.m.sl.n + 100 }.settle.g n)
  | _ => none
/-- R58's worked example. -/
theorem test_mulh : gAfter 3 (exec (.mulh { sw with ty := .i32 }) (regs [(1, 0x80000000), (2, 2)] demo)) = some 0xFFFF_FFFF_FFFF_FFFF ∧
    gAfter 3 (exec (.mulh { sw with ty := .n32 }) (regs [(1, 0x80000000), (2, 2)] demo)) = some 1 := by decide
/-- R45, R58: the sum wraps to the type and is extended with its sign. -/
theorem test_add_wraps : gAfter 3 (exec (.add { sw with ty := .i8 }) (regs [(1, 127), (2, 1)] demo)) = some 0xFFFF_FFFF_FFFF_FF80 ∧
    gAfter 3 (exec (.add { sw with ty := .n8 }) (regs [(1, 255), (2, 1)] demo)) = some 0 := by decide
/-- R58: the amount is taken modulo the width; SAR fills with the sign. -/
theorem test_shifts : gAfter 3 (exec (.shl sw) (regs [(1, 1), (2, 65)] demo)) = some 2 ∧
    gAfter 3 (exec (.sar { sw with ty := .n8 }) (regs [(1, 0x80), (2, 1)] demo)) = some 0xC0 := by decide
/-- R59: the three cases of its table; the result is interlocked. -/
def pendAfter : Host.Outcome State Fault Refusal → Option Nat
  | .next t => t.m.sl.il.head?.map (fun l => ofLE (l.cells.map (fun c => c.2.getD 0)))
  | _ => none
theorem test_div : pendAfter (exec (.div sw) (regs [(1, 7), (2, 0)] demo)) = some (2 ^ 64 - 1) ∧ pendAfter (exec (.rem sw) (regs [(1, 7), (2, 0)] demo)) = some 7 ∧
    pendAfter (exec (.div sw) (regs [(1, 2 ^ 63), (2, 2 ^ 64 - 1)] demo)) = some (2 ^ 63) ∧ pendAfter (exec (.div sw) (regs [(1, 2 ^ 64 - 7), (2, 2)] demo)) = some (2 ^ 64 - 3) := by decide
/-- R4, R100: a store lays its bytes least significant first. -/
theorem test_sts : (match exec (.sts { mw with ty := .n32 }) (regs [(1, 64), (2, 0x0A0B0C0D)] demo) with
    | .next t => t.m.spad.rdN 64 4 == [0x0D, 0x0C, 0x0B, 0x0A]
    | _ => false) = true := by decide
/-- R340, R74: TRAP saves the address after it, its cause and its immediate, and goes to the handler. -/
theorem test_trap : (match exec (.trap { iw with imm := 9 }) (withSlot (fun y => { y with tvec := 0x4000 }) demo) with
    | .next t => t.m.sl.pc == 0x4000 && t.m.sl.tcause == 5 && t.m.sl.tval == 9 && t.m.sl.inh && t.m.sl.tret == fetchPage + 12
    | _ => false) = true := by decide
/-- R99's worked example: the words of ld.n64 g13, [g11] and of its strong form. -/
theorem test_ld_words : (decode (0x000B0D40 + 0xF * 2 ^ 32 + 0x00010000 * 2 ^ 64)).map encode = some (0x000B0D40 + 0xF * 2 ^ 32 + 0x00010000 * 2 ^ 64) ∧
    (match decode (0x000B0D40 + 0xF * 2 ^ 32 + 0x00610000 * 2 ^ 64) with
      | some (.ld x) => x.ty == .n64 && x.sco == .dev && x.kind == .strong && x.d == 13 && x.a == 11
      | _ => false) = true := by decide

end Sys2Proof.Test

end
end

section
/-! PROOFS. The results of the scalar instructions beside those with two sources, waits, clocks and the control of fetch (R58 to R66,
R71 to R73, R76 to R81). Each instruction has one lemma, its execution from a state in which nothing holds it; the obligations are their
conjunctions. -/
namespace Sys2Proof.Claim
open Machine

/-! ## Words that the context lets execute, with registers for operands -/

theorem rdG_val {b : BitVec 8} {s : State} (h : IsReg b s) : rdG b (issued s) = .ok (val b s, issued s) := rdG_issued h

/-- The context lets the word execute: a privileged one has PRV, a nondeterministic one is without DET (R39), and what the word takes or
appends are registers, no streams and no handle. -/
structure Allowed (u : Use) (s : State) : Prop where
  handle : u.handleA = false
  priv : u.priv = true → Privileged s
  det : (u.nondet || u.barred s.m.cx) = true → Free s
  regs : ∀ p ∈ u.pops, IsReg p.1 s

theorem allowed_of_regs {rd wr : List Rng} {pops : List (BitVec 8 × Acc)} {s : State} (h : ∀ p ∈ pops, IsReg p.1 s) :
    Allowed { rd := rd, wr := wr, pops := pops } s := ⟨rfl, nofun, nofun, h⟩

/-- A word that nothing holds ends as its body does, and retires if the body completes. -/
theorem run_issue_finish {h : Hdr} {a b : BitVec 8} {use : Slot → Use} {body : M (Option Nat)} {s : State} (r : Ready h s) (ha : IsReg a s)
    (hb : IsReg b s) (hu : Allowed (use (sl s)) s) :
    run (issue h a b use body) s = finish s ((body (issued s)).map (fun p => ((), retire h p.1 p.2))) := by
  rw [run, issue_ready r ha hb hu.handle hu.priv hu.det hu.regs]
  cases body (issued s) <;> rfl

/-- A word that nothing holds and whose body has the effect `f`. -/
theorem run_issue_after {h : Hdr} {a b : BitVec 8} {use : Slot → Use} {body : M (Option Nat)} {s : State} {tgt : Option Nat} {f : Mach → Mach}
    (r : Ready h s) (ha : IsReg a s) (hb : IsReg b s) (hu : Allowed (use (sl s)) s) (hf : body (issued s) = .ok (tgt, f (issued s))) :
    run (issue h a b use body) s = .next (after h tgt f s) := by
  rw [run_issue_finish r ha hb hu, hf]
  rfl

/-! ## Counts of bits -/

theorem bitLen_eq_size {p : Nat} : ∀ {n : Nat}, p < 2 ^ n → bitLen p n = Nat.size p
  | 0, h => by simp [bitLen, Nat.lt_one_iff.1 h]
  | n + 1, h => by
    have high : p / 2 ^ n < 2 := Nat.div_lt_of_lt_mul (by rwa [← Nat.pow_succ])
    by_cases hn : p < 2 ^ n
    · simp [bitLen, bitAt, Nat.div_eq_of_lt hn, bitLen_eq_size hn]
    · have one : p / 2 ^ n = 1 := by
        have : 0 < p / 2 ^ n := Nat.div_pos (Nat.not_lt.1 hn) (by positivity)
        omega
      have size : Nat.size p = n + 1 := le_antisymm (Nat.size_le.2 h) (Nat.lt_size.2 (Nat.not_lt.1 hn))
      simp [bitLen, bitAt, one, size]

theorem popCount_eq_countP (p : Nat) : ∀ n, popCount p n = (List.range n).countP (bitAt p)
  | 0 => rfl
  | n + 1 => by
    rw [popCount, popCount_eq_countP p n, List.range_succ, List.countP_append, List.countP_singleton, Nat.add_comm]
    rfl

theorem pat_lt (t : Ty) (v : Nat) : Ty.pat t v < 2 ^ (8 * Ty.size t) := Nat.mod_lt _ (by positivity)

theorem vClz_eq (t : Ty) (v : Nat) : vClz t v = 8 * Ty.size t - Nat.size (Ty.pat t v) := by rw [vClz, bitLen_eq_size (pat_lt t v)]

theorem foldGroups_lt : ∀ n v, foldGroups n v < 2 ^ 4
  | 0, _ => by simp [foldGroups]
  | n + 1, v => Nat.xor_lt_two_pow (Nat.mod_lt _ (by decide)) (foldGroups_lt n _)

theorem ofInt_of_lt {w v : Nat} (h : v < 2 ^ w) : ofInt w (v : Int) = v := by
  rw [ofInt, ← Int.natCast_mod, Int.toNat_natCast, Nat.mod_eq_of_lt h]

theorem wrap_n64_of_lt {v : Nat} (h : v < 2 ^ 64) : Ty.wrap .n64 (v : Int) = v := by
  have value : Ty.val .n64 v = v := congrArg Nat.cast (Nat.mod_eq_of_lt h)
  rw [Ty.wrap, ofInt_of_lt h, value, ofInt_of_lt h]

theorem wrap_n64_fold (v : Nat) : Ty.wrap .n64 (fold v : Int) = fold v :=
  wrap_n64_of_lt (lt_of_lt_of_le (foldGroups_lt 11 _) (by decide))

/-! ## One source (R58, R66) -/

theorem run_scalar1 {x : SW} {s : State} (lat : Nat) (f : Nat → Int) (r : Ready x.h s) (ha : IsReg x.a s) (hb : IsReg x.b s) (hd : IsReg x.d s) :
    run (scalar1 x lat f) s = .next (after x.h none (fixed lat (gCells (gNo x.d) (Ty.wrap x.ty (f (val x.a s))))) s) :=
  run_issue_after r ha hb (allowed_of_regs (by simp [ha, hd])) (by
    simp only [bind_apply, rdG_val ha, wrG_issued hd, pure_apply]; rfl)

theorem exec_clz {x : SW} {s : State} (r : Ready x.h s) (ha : IsReg x.a s) (hb : IsReg x.b s) (hd : IsReg x.d s) :
    exec (.clz x) s = .next (after x.h none (fixed 2 (gCells (gNo x.d)
      (Ty.wrap x.ty (8 * Ty.size x.ty - Nat.size (Ty.pat x.ty (val x.a s)) : Nat)))) s) := by
  rw [← vClz_eq]
  exact run_scalar1 2 (fun a => (vClz x.ty a : Int)) r ha hb hd

theorem exec_popc {x : SW} {s : State} (r : Ready x.h s) (ha : IsReg x.a s) (hb : IsReg x.b s) (hd : IsReg x.d s) :
    exec (.popc x) s = .next (after x.h none (fixed 2 (gCells (gNo x.d)
      (Ty.wrap x.ty ((List.range (8 * Ty.size x.ty)).countP (bitAt (Ty.pat x.ty (val x.a s))) : Nat)))) s) := by
  rw [← popCount_eq_countP]
  exact run_scalar1 2 (fun a => (vPopc x.ty a : Int)) r ha hb hd

theorem exec_fold {x : SW} {s : State} (r : Ready x.h s) (ha : IsReg x.a s) (hb : IsReg x.b s) (hd : IsReg x.d s) :
    exec (.fold x) s = .next (after x.h none (fixed 2 (gCells (gNo x.d) (fold (val x.a s)))) s) := by
  rw [← wrap_n64_fold]
  exact run_scalar1 (x := { x with ty := .n64 }) 2 (fun a => (fold a : Int)) r ha hb hd

/-! ## Three operands, immediates, fields, addresses and moves (R58, R62, R64, R65) -/

theorem exec_mac {x : SW} {s : State} (r : Ready x.h s) (ha : IsReg x.a s) (hb : IsReg x.b s) (hc : IsReg x.c s) (hd : IsReg x.d s) :
    exec (.mac x) s = .next (after x.h none (fixed 4 (gCells (gNo x.d) (Ty.result x.ty (bitAt x.mod.toNat 0)
      (Ty.val x.ty (val x.c s) + Ty.val x.ty (val x.a s) * Ty.val x.ty (val x.b s))))) s) :=
  run_issue_after r ha hb (allowed_of_regs (by simp [ha, hb, hc, hd])) (by
    simp only [bind_apply, rdG_val ha, rdG_val hb, rdG_val hc, wrG_issued hd, pure_apply, satBit])

theorem exec_sel {x : SW} {s : State} (r : Ready x.h s) (ha : IsReg x.a s) (hb : IsReg x.b s) (hd : IsReg x.d s) :
    exec (.sel x) s = .next (after x.h none (fixed 2 (gCells (gNo x.d) (if (sl s).q (qNo x.c) then val x.a s else val x.b s))) s) :=
  run_issue_after r ha hb (allowed_of_regs (by simp [ha, hb, hd])) (by
    simp only [bind_apply, rdG_val ha, rdG_val hb, rdQ_apply, issued_sl, wrG_issued hd, pure_apply])

theorem exec_addi {x : IW} {s : State} (r : Ready x.h s) (ha : IsReg x.a s) (hb : IsReg x.b s) (hd : IsReg x.d s) :
    exec (.addi x) s = .next (after x.h none (fixed 2 (gCells (gNo x.d) (Ty.result x.ty (bitAt x.mod.toNat 0)
      (Ty.val x.ty (val x.a s) + Ty.imm x.ty x.imm)))) s) :=
  run_issue_after r ha hb (allowed_of_regs (by simp [ha, hd])) (by simp only [bind_apply, rdG_val ha, wrG_issued hd, pure_apply])

theorem exec_movi {x : IW} {s : State} (r : Ready x.h s) (ha : IsReg x.a s) (hb : IsReg x.b s) (hd : IsReg x.d s) :
    exec (.movi x) s = .next (after x.h none (fixed 2 (gCells (gNo x.d) (Ty.wrap x.ty (Ty.imm x.ty x.imm)))) s) :=
  run_issue_after r ha hb (allowed_of_regs (by simp [hd])) (by simp only [bind_apply, wrG_issued hd, pure_apply])

theorem exec_bfx {x : IW} {s : State} (r : Ready x.h s) (ha : IsReg x.a s) (hb : IsReg x.b s) (hd : IsReg x.d s) :
    exec (.bfx x) s = .next (after x.h none (fixed 2 (gCells (gNo x.d)
      (if Ty.signed x.ty then ofInt 64 (sx (bits x.imm.toNat 8 7) (bits (val x.a s) (bits x.imm.toNat 0 6) (bits x.imm.toNat 8 7)))
       else bits (val x.a s) (bits x.imm.toNat 0 6) (bits x.imm.toNat 8 7)))) s) :=
  run_issue_after r ha hb (allowed_of_regs (by simp [ha, hd])) (by simp only [bind_apply, rdG_val ha, wrG_issued hd, pure_apply])

theorem exec_bfi {x : IW} {s : State} (r : Ready x.h s) (ha : IsReg x.a s) (hb : IsReg x.b s) (hd : IsReg x.d s) :
    exec (.bfi x) s = .next (after x.h none (fixed 2 (gCells (gNo x.d)
      (setBits (val x.d s) (bits x.imm.toNat 0 6) (bits x.imm.toNat 8 7) (val x.a s)))) s) :=
  run_issue_after r ha hb (allowed_of_regs (by simp [ha, hd])) (by simp only [bind_apply, rdG_val ha, rdG_val hd, wrG_issued hd, pure_apply])

/-- An index is read only where bit 3 of C asks for it (R65). -/
theorem exec_lea {x : MW} {s : State} (r : Ready x.h s) (ha : IsReg x.a s) (hb : IsReg x.b s) (hd : IsReg x.d s) :
    exec (.lea x) s = .next (after x.h none (fixed 2 (gCells (gNo x.d)
      ((addDisp (val x.a s) x.disp + (if bitAt x.c.toNat 3 then val x.b s * 2 ^ bits x.c.toNat 0 3 else 0)) % 2 ^ 64))) s) := by
  refine run_issue_after r ha hb (allowed_of_regs ?_) ?_
  · cases bitAt x.c.toNat 3 <;> simp [ha, hb, hd]
  · simp only [bind_apply, rdG_val ha]
    cases bitAt x.c.toNat 3 with
    | true => simp only [if_true, bind_apply, rdG_val hb, wrG_issued hd, pure_apply]
    | false => simp only [Bool.false_eq_true, if_false, bind_apply, pure_apply, Nat.zero_mul, wrG_issued hd]

/-- What MOV writes, by the files of its source and destination (R62). -/
def movEffect (x : SW) (s : State) : Mach → Mach :=
  if isQ x.a then
    if isQ x.d then fixed 2 (qCells (qNo x.d) ((sl s).q (qNo x.a))) else fixed 2 (gCells (gNo x.d) (ofBool ((sl s).q (qNo x.a))))
  else
    if isQ x.d then fixed 2 (qCells (qNo x.d) (val x.a s != 0)) else fixed 2 (gCells (gNo x.d) (Ty.wrap x.ty (Ty.val x.ty (val x.a s))))

theorem exec_mov {x : SW} {s : State} (r : Ready x.h s) (ha : IsReg x.a s) (hb : IsReg x.b s) (hd : IsReg x.d s) :
    exec (.mov x) s = .next (after x.h none (movEffect x s) s) := by
  refine run_issue_after r ha hb (allowed_of_regs ?_) ?_
  · cases isQ x.a <;> cases isQ x.d <;> simp [ha, hd]
  · unfold movEffect
    cases isQ x.a <;> cases isQ x.d <;>
      simp only [Bool.false_eq_true, if_true, if_false, bind_apply, rdG_val ha, rdQ_apply, issued_sl, wrQ_apply, wrG_issued hd, pure_apply]

theorem oneAndThreeOperandResults : Claim.ScalarOtherResults :=
  ⟨fun _ _ r ha hb hd => ⟨exec_clz r ha hb hd, exec_popc r ha hb hd, exec_fold r ha hb hd⟩,
   fun _ _ => exec_mac, fun _ _ => exec_sel,
   fun _ _ r ha hb hd => ⟨exec_addi r ha hb hd, exec_movi r ha hb hd, exec_bfx r ha hb hd, exec_bfi r ha hb hd⟩,
   fun _ _ => exec_lea, fun _ _ => exec_mov⟩

/-! ## Division (R59) -/

theorem run_divide {x : SW} {s : State} (f : Nat → Nat → Int) (r : Ready x.h s) (ha : IsReg x.a s) (hb : IsReg x.b s) (hd : IsReg x.d s) :
    run (divide x f) s = .next (after x.h none (lands .ready (known (gCells (gNo x.d) (Ty.wrap x.ty (f (val x.a s) (val x.b s)))))) s) :=
  run_issue_after r ha hb (allowed_of_regs (by simp [ha, hb, hd])) (by
    simp only [bind_apply, rdG_val ha, rdG_val hb, wrLand_issued hd, pure_apply])

theorem divideResults : Claim.DivideResults :=
  fun x _ r ha hb hd => ⟨run_divide (vDiv x.ty) r ha hb hd, run_divide (vRem x.ty) r ha hb hd⟩

/-! ## Predicates (R60, R61) -/

theorem exec_cmp {x : SW} {s : State} (r : Ready x.h s) (ha : IsReg x.a s) (hb : IsReg x.b s) :
    exec (.cmp x) s = .next (after x.h none (fixed 2 (qCells (qNo x.d)
      (if bitAt x.mod.toNat 0 then holdsFp x.cnd (f32 (val x.a s % 2 ^ 32)) (f32 (val x.b s % 2 ^ 32))
       else holdsInt x.cnd (Ty.val x.ty (val x.a s)) (Ty.val x.ty (val x.b s)) (Ty.pat x.ty (val x.a s)) (Ty.pat x.ty (val x.b s))))) s) :=
  run_issue_after r ha hb (allowed_of_regs (by simp [ha, hb])) (by simp only [bind_apply, rdG_val ha, rdG_val hb, wrQ_apply, pure_apply])

theorem exec_cmpi {x : IW} {s : State} (r : Ready x.h s) (ha : IsReg x.a s) (hb : IsReg x.b s) :
    exec (.cmpi x) s = .next (after x.h none (fixed 2 (qCells (qNo x.d)
      (holdsInt x.cnd (Ty.val x.ty (val x.a s)) (Ty.imm x.ty x.imm) (Ty.pat x.ty (val x.a s)) (Ty.pat x.ty (ofInt 64 (Ty.imm x.ty x.imm)))))) s) :=
  run_issue_after r ha hb (allowed_of_regs (by simp [ha])) (by simp only [bind_apply, rdG_val ha, wrQ_apply, pure_apply])

theorem exec_plog {x : SW} {s : State} (r : Ready x.h s) (ha : IsReg x.a s) (hb : IsReg x.b s) :
    exec (.plog x) s = .next (after x.h none (fixed 2 (qCells (qNo x.d)
      (bitAt (bits x.mod.toNat 0 4) (2 * ofBool ((sl s).q (qNo x.a)) + ofBool ((sl s).q (qNo x.b)))))) s) :=
  run_issue_after r ha hb (allowed_of_regs (by simp)) (by simp only [bind_apply, rdQ_apply, issued_sl, wrQ_apply, pure_apply, plogAt])

theorem predicateResults : Claim.PredicateResults := ⟨fun _ _ => exec_cmp, fun _ _ => exec_cmpi, fun _ _ => exec_plog⟩

/-- Settles O8: each result is that of its instruction's own execution; CLZ and POPC count bits as `Nat.size` and `List.countP` do, and a
FOLD fits 64 bits. -/
theorem scalarOtherResults : Obligations.ScalarOtherResults := ⟨oneAndThreeOperandResults, divideResults, predicateResults⟩

/-! ## Waits and levels (R71 to R73) -/

/-- The deadline of a WAITEV that has one (R72). -/
def waitDeadline (x : IW) (s : State) : Option Nat := if bitAt x.mod.toNat 0 then some (val x.a s) else none

/-- The WAITEV has a deadline and the sidereal clock has reached it. -/
def waitLate (x : IW) (s : State) : Bool := bitAt x.mod.toNat 0 && decide (val x.a s ≤ s.m.sid)

/-- The sources that a WAITEV selects and that are present. -/
def waitHere (x : IW) (s : State) : Nat := (sl s).sources &&& (x.imm.toNat % 32)

/-- What a WAITEV that ends does: it clears the latched sources that it reports, and its report lands. -/
def waitReports (x : IW) (s : State) (m : Mach) : Mach :=
  lands .ready (known (gCells (gNo x.d) (waitHere x s + (if waitLate x s then 2 ^ 63 else 0))))
    (m.updSlot m.cur (fun y => { y with latch := y.latch - (y.latch &&& waitHere x s &&& 0x1E) }))

theorem stream_latch {b : BitVec 8} {s : State} {f : Slot → Nat} (h : IsReg b s) :
    ((issued s).updSlot s.m.cur (fun y => { y with latch := f y })).sl.stream b = none := by
  rw [← issued_cur, sl_updSlot_cur, issued_sl]
  exact h

theorem readDeadline_bind {α : Type} {x : IW} {s : State} (ha : IsReg x.a s) (k : Option Nat → M α) :
    (if bitAt x.mod.toNat 0 = true then (rdG x.a >>= fun a => pure (some a)) >>= k else pure none >>= k) (issued s) = k (waitDeadline x s) (issued s) := by
  unfold waitDeadline
  cases bitAt x.mod.toNat 0 with
  | true => simp only [if_true, bind_apply, rdG_val ha, pure_apply]
  | false => rfl

theorem waitLate_eq (x : IW) (s : State) : waitLate x s = (waitDeadline x s).any (fun t => decide (t ≤ s.m.sid)) := by
  unfold waitLate waitDeadline
  cases bitAt x.mod.toNat 0 <;> simp

/-- A word that waits while `c` holds, and else clears latched sources and reports `v`. -/
theorem waitOrReport_apply {b : BitVec 8} {s : State} (hd : IsReg b s) (c : Bool) (w : Wait) (f : Slot → Nat) (v : Nat) :
    (blockIf c w >>= fun _ => changeMine (fun y => { y with latch := f y }) >>= fun _ => wrLand .ready b v >>= fun _ => pure (none : Option Nat)) (issued s) =
      if c then .error (.block w)
      else .ok (none, lands .ready (known (gCells (gNo b) v)) ((issued s).updSlot s.m.cur (fun y => { y with latch := f y }))) := by
  cases c with
  | true => rfl
  | false => simp only [bind_apply, blockIf_false, changeMine_apply, issued_cur, wrLand_reg (stream_latch hd), pure_apply, Bool.false_eq_true, if_false]

theorem exec_waitev {x : IW} {s : State} (r : Ready x.h s) (ha : IsReg x.a s) (hb : IsReg x.b s) (hd : IsReg x.d s)
    (hf : s.m.sl.isFollower = false) (hn : bitAt x.mod.toNat 0 = true ∨ popCount (x.imm.toNat % 32) 5 ≠ 1 → Free s) :
    exec (.waitev x) s = finish s (if waitHere x s == 0 && !waitLate x s then .error (.block (.events (x.imm.toNat % 32) (waitDeadline x s)))
      else .ok ((), (after x.h none (waitReports x s) s).m)) := by
  refine (run_issue_finish r ha hb ⟨rfl, by simp, by simpa using hn, ?_⟩).trans (congrArg (finish s) ?_)
  · simp only [sl_isFollower, hf]
    cases bitAt x.mod.toNat 0 <;> simp [ha, hd]
  · rw [bind_apply, mine_apply]
    dsimp only
    rw [issued_sl, sl_isFollower, hf, if_neg nofun, readDeadline_bind ha, bind_apply, get_apply]
    dsimp only
    rw [waitOrReport_apply hd, apply_ite (Except.map _), issued_sl, issued_sid, waitLate_eq, after, waitReports, waitLate_eq]
    cases waitDeadline x s with
    | none => simp only [Option.any_none, Except.map, waitHere, issued_cur]; rfl
    | some t => simp only [Option.any_some, Except.map, waitHere, issued_cur]; rfl

/-- A WAITEV that has nothing to report waits (R72). -/
theorem exec_waitev_waits {x : IW} {s : State} (r : Ready x.h s) (ha : IsReg x.a s) (hb : IsReg x.b s) (hd : IsReg x.d s)
    (hf : s.m.sl.isFollower = false) (hn : bitAt x.mod.toNat 0 = true ∨ popCount (x.imm.toNat % 32) 5 ≠ 1 → Free s)
    (h0 : waitHere x s = 0) (hl : waitLate x s = false) :
    exec (.waitev x) s = .next { s with m := s.m.updSlot s.m.cur (fun y =>
      { y with wait := some (.events (x.imm.toNat % 32) (waitDeadline x s)), look := [], parked := false }) } := by
  rw [exec_waitev r ha hb hd hf hn, h0, hl]
  rfl

/-- A WAITEV with a selected source present, or its deadline reached, reports and retires (R72). -/
theorem exec_waitev_ends {x : IW} {s : State} (r : Ready x.h s) (ha : IsReg x.a s) (hb : IsReg x.b s) (hd : IsReg x.d s)
    (hf : s.m.sl.isFollower = false) (hn : bitAt x.mod.toNat 0 = true ∨ popCount (x.imm.toNat % 32) 5 ≠ 1 → Free s)
    (he : waitHere x s ≠ 0 ∨ waitLate x s = true) : exec (.waitev x) s = .next (after x.h none (waitReports x s) s) := by
  have ends : (waitHere x s == 0 && !waitLate x s) = false := by
    rcases he with h | h <;> simp [h]
  rw [exec_waitev r ha hb hd hf hn, ends]
  rfl

theorem exec_sleep {x : IW} {s : State} (r : Ready x.h s) (ha : IsReg x.a s) (hb : IsReg x.b s) (hf : s.m.sl.isFollower = false) :
    exec (.sleep x) s = finish s (if s.m.sid < val x.a s + x.imm.toNat then .error (.block (.until_ (val x.a s + x.imm.toNat)))
      else .ok ((), (after x.h none id s).m)) := by
  refine (run_issue_finish r ha hb ?_).trans (congrArg (finish s) ?_)
  · rw [sl_isFollower, hf]
    exact allowed_of_regs (by simp [ha])
  · simp only [bind_apply, mine_apply, issued_sl, sl_isFollower, hf, Bool.false_eq_true, if_false, rdG_val ha, get_apply, issued_sid]
    by_cases h : s.m.sid < val x.a s + x.imm.toNat
    · simp only [h, decide_true, blockIf_true, if_true]; rfl
    · simp only [h, decide_false, blockIf_false, if_false]; rfl

theorem exec_prio {x : IW} {s : State} (r : Ready x.h s) :
    exec (.prio x) s = .next (after x.h none (fun m => m.updSlot m.cur (fun y => { y with level := min x.imm.toNat (min y.ceil y.cfgCeil), age := 0 })) s) :=
  run_issue_after r (isReg_zero s) (isReg_zero s) (allowed_of_regs (by simp)) rfl

theorem exec_beat {x : ZW} {s : State} (r : Ready x.h s) : exec (.beat x) s = .next (after x.h none (fun m => progress m.cur m) s) :=
  run_plain r rfl

theorem waitsEndWhenTheirEventsHold : Claim.WaitsEndWhenTheirEventsHold := by
  refine ⟨fun x s r ha hb hd hf hn => ⟨exec_waitev_ends r ha hb hd hf hn, exec_waitev_waits r ha hb hd hf hn⟩,
    fun x s r ha hb hf => ⟨fun h => ?_, fun h => ?_⟩, fun _ _ => exec_prio, fun _ _ => exec_beat⟩
  · rw [exec_sleep r ha hb hf, if_neg (Nat.not_lt.2 h)]; rfl
  · rw [exec_sleep r ha hb hf, if_pos h]; rfl

/-! ## Clocks (R76, R77) -/

theorem clockReads : Claim.ClockReads := fun x s r ha hb hd free =>
  have regs : ∀ p ∈ [(x.d, Acc.write)], IsReg p.1 s := by simp [hd]
  ⟨run_issue_after r ha hb ⟨rfl, nofun, fun _ => free, regs⟩ (by
      simp only [bind_apply, get_apply, issued_sid, wrG_issued hd, pure_apply]),
   run_issue_after r ha hb ⟨rfl, nofun, fun _ => free, regs⟩ (by
      simp only [bind_apply, get_apply, issued_sl, issued_cyc, wrG_issued hd, pure_apply]; rfl)⟩

/-! ## The control of fetch (R63, R79 to R81) -/

theorem exec_ldlit {x : BW} {s : State} {l : List Nat} {m : Mach} (r : Ready x.h s) (ha : IsReg x.a s) (hb : IsReg x.b s) (hd : IsReg x.d s)
    (hl : fetchBytes (ofInt 64 ((s.m.sl.pc : Int) + 4 * sx 32 x.off.toNat)) 8 (issued s) = .ok (l, m)) (hm : m.sl.stream x.d = none) :
    exec (.ldlit x) s = .next (after x.h none (fun _ => lands .ready (known (gCells (gNo x.d) (ofLE l))) m) s) :=
  run_issue_after r ha hb (allowed_of_regs (by simp [hd])) (by
    simp only [bind_apply, mine_apply, id, issued_sl, sl_pc, hl, wrLand_reg hm, pure_apply])

theorem drain_stores_none {s : State} (h : s.m.sl.ocSt = 0) : drain false true false false (issued s) = .ok ((), issued s) := by
  simp [drain, bind_apply, h]

theorem drain_stores_waits {s : State} (h : s.m.sl.ocSt ≠ 0) : drain false true false false (issued s) =
    .error (.blockWith (fun m => sendMine m.cur m) (.allZero false true false false)) := by
  have outstanding : (s.m.sl.ocSt != 0) = true := bne_iff_ne.2 h
  simp [drain, bind_apply, outstanding]

theorem exec_ifence {x : ZW} {s : State} (r : Ready x.h s) (h : s.m.sl.ocSt = 0) :
    exec (.ifence x) s = .next (after x.h none (fun m =>
      m.setOctet (octetOf m.curCore) { m.octet (octetOf m.curCore) with icache := [] }) s) :=
  run_plain r (by rw [bind_apply, drain_stores_none h]; rfl)

theorem exec_ifence_waits {x : ZW} {s : State} (r : Ready x.h s) (h : s.m.sl.ocSt ≠ 0) :
    exec (.ifence x) s = .next { s with m := (sendMine s.m.cur s.m).updSlot s.m.cur (fun y =>
      { y with wait := some (.allZero false true false false), look := [], parked := false }) } := by
  refine (run_plain_stop r (e := .blockWith (fun m => sendMine m.cur m) (.allZero false true false false)) ?_).trans rfl
  rw [bind_apply, drain_stores_waits h]

theorem joinWalk_issued {s : State} {va : Nat} (h : walking s.m s.m.curCore s.m.cx.asid va = false) :
    joinWalk va (issued s) = .ok ((), issued s) := by
  simp only [joinWalk, bind_apply, get_apply, issued_cx, issued_curCore]
  exact blockIf_of h _ _

/-- What PREFI does of its `n` lines from `va` on (R80). -/
def prefetches (va n : Nat) (m : Mach) : Mach := (List.range n).foldl (fun m i =>
  match quietXlate m.cur (va + 128 * i) .fetch (countTlb m.cur (va + 128 * i) m) with
  | (some pa, m) => if paKind m.dev pa == .hole || waitsService m.dev pa || lineBusy m m.curCore (pa / 128) then m else icFill [] m.curCore (pa / 128) m
  | (none, m) => m) m

theorem exec_prefi {x : BW} {s : State} {va : Nat} (r : Ready x.h s) (hva : va = ofInt 64 ((s.m.sl.pc : Int) + 4 * sx 32 x.off.toNat) / 128 * 128)
    (h0 : walking s.m s.m.curCore s.m.cx.asid va = false)
    (h1 : walking s.m s.m.curCore s.m.cx.asid (va + 128 * bits x.mod.toNat 0 4) = false) :
    exec (.prefi x) s = .next (after x.h none (prefetches va (bits x.mod.toNat 0 4 + 1)) s) := by
  subst hva
  refine run_plain r ?_
  simp only [bind_apply, mine_apply, id, issued_sl, sl_pc, joinWalk_issued h0, joinWalk_issued h1, change_apply, pure_apply]
  rfl

/-- The setting `w` gives to slot `k` of its core, at once or at its next boundary (R81; a slot that waits is at one, log entry 60). -/
def slotSetting (w k : Nat) (y : Slot) : Slot :=
  if y.mid then { y with cfgNext := some (bitAt w k, bits w (4 + 2 * k) 2) } else y.configured (bitAt w k) (bits w (4 + 2 * k) 2)

/-- A word of settings with no bit above its fields, and zeros for the slots that the core does not have, passes SLOTCFG's check (R81). -/
theorem slotSettings_legal {w n : Nat} (hw : w < 2 ^ 12) (hk : ∀ k < 4, n ≤ k → bitAt w k = false ∧ bits w (4 + 2 * k) 2 = 0) :
    (decide (2 ^ 12 ≤ w) || (List.range 4).any (fun k => decide (n ≤ k) && (bitAt w k || bits w (4 + 2 * k) 2 != 0))) = false := by
  rw [Bool.or_eq_false_iff, decide_eq_false_iff_not, List.any_eq_false]
  refine ⟨Nat.not_le.2 hw, fun k hk4 => ?_⟩
  by_cases hn : n ≤ k
  · simp [hk k (List.mem_range.1 hk4) hn]
  · simp [hn]

theorem exec_slotcfg {x : YW} {s : State} (r : Ready x.h s) (ha : IsReg x.a s) (hb : IsReg x.b s) (hp : Privileged s)
    (hw : val x.a s < 2 ^ 12)
    (hk : ∀ k < 4, (s.m.core x.imm.toNat).slots ≤ k → bitAt (val x.a s) k = false ∧ bits (val x.a s) (4 + 2 * k) 2 = 0) :
    exec (.slotcfg x) s = .next (after x.h none (fun m => (List.range (s.m.core x.imm.toNat).slots).foldl (fun m k =>
      m.updSlot (keyOf x.imm.toNat k) (slotSetting (val x.a s) k)) m) s) := by
  refine run_issue_after r ha hb ⟨rfl, fun _ => hp, nofun, by simp [ha]⟩ ?_
  have legal := slotSettings_legal (n := ((issued s).core x.imm.toNat).slots) hw hk
  simp only [-Nat.reducePow, bind_apply, rdG_val ha, get_apply, trapIf_of legal, change_apply, pure_apply]
  rfl

theorem fetchControl : Claim.FetchControl :=
  ⟨fun _ _ _ _ => exec_ldlit, fun _ _ r => ⟨exec_ifence r, exec_ifence_waits r⟩, fun _ _ r => exec_prefi r rfl,
   fun _ _ => exec_slotcfg⟩

/-- Settles O14: WAITEV and SLEEP end or wait by the one condition of their executions, and every other clause is its instruction's own
execution. That a waiting slot takes a SLOTCFG setting at once is the model's reading (log entry 60). -/
theorem waitsClocksAndFetchControl : Obligations.WaitsClocksAndFetchControl := ⟨waitsEndWhenTheirEventsHold, clockReads, fetchControl⟩

end Sys2Proof.Claim
end

section
/-! PROOFS. Task identity, deques, the watchdog interval and the spill region (R274, R281, R282, R319). Each instruction has one lemma, its
execution from a state in which nothing holds it; the obligation is their conjunction. -/
namespace Sys2Proof.Claim
open Machine

/-! ## What the issue leaves of tasks and deques -/

@[simp] theorem sl_task (s : State) : (sl s).task = s.m.sl.task := rfl
@[simp] theorem sl_deque (s : State) : (sl s).deque = s.m.sl.deque := rfl
@[simp] theorem sl_spilled (s : State) : (sl s).spilled = s.m.sl.spilled := rfl
@[simp] theorem taskidWord_sl (s : State) : taskidWord (sl s) = taskidWord s.m.sl := rfl
@[simp] theorem gangOf_issued (s : State) : gangOf (issued s) (sl s) = gangOf s.m s.m.sl := rfl

/-- The gang of a task that belongs to one. -/
theorem gangOf_some {m : Mach} {y : Slot} {t : Task} {g : Nat} (ht : y.task = some t) (hg : t.e.gang = some g) :
    gangOf m y = m.gangs.find g := by simp [gangOf, ht, hg]

/-! ## Reports of the task (R281, R319) -/

theorem exec_taskid {x : SW} {s : State} (r : Ready x.h s) (ha : IsReg x.a s) (hb : IsReg x.b s) (hd : IsReg x.d s) :
    exec (.taskid x) s = .next (after x.h none (fixed 2 (gCells (gNo x.d) (taskidWord s.m.sl))) s) :=
  run_issue_after r ha hb (allowed_of_regs (by simp [hd])) (by
    simp only [bind_apply, get_apply, issued_sl, taskidWord_sl, wrG_issued hd, pure_apply])

/-- A slot without a task reports 0. -/
theorem exec_dpath {x : SW} {s : State} (r : Ready x.h s) (ha : IsReg x.a s) (hb : IsReg x.b s) (hd : IsReg x.d s) :
    exec (.dpath x) s = .next (after x.h none (fixed 2 (gCells (gNo x.d)
      (s.m.sl.task.elim 0 (fun t => if bitAt x.mod.toNat 0 then t.ord % 2 ^ 64 else t.e.path)))) s) := by
  refine run_issue_after r ha hb (allowed_of_regs (by simp [hd])) ?_
  simp only [bind_apply, mine_apply, id, issued_sl, sl_task, wrG_issued hd, pure_apply]
  cases s.m.sl.task with
  | some t => rfl
  | none => rfl

/-! ## Reports of the deque and of the gang, which deterministic mode bars (R281, R317) -/

theorem allowed_nondet {b : BitVec 8} {s : State} (free : Free s) (hd : IsReg b s) :
    Allowed { pops := [(b, .write)], nondet := true } s := ⟨rfl, nofun, fun _ => free, by simp [hd]⟩

theorem exec_dqstat {x : SW} {s : State} (r : Ready x.h s) (ha : IsReg x.a s) (hb : IsReg x.b s) (hd : IsReg x.d s) (free : Free s) :
    exec (.dqstat x) s = .next (after x.h none (lands .ready (known (gCells (gNo x.d)
      (s.m.sl.deque.length + s.m.sl.spilled.length * 2 ^ 8)))) s) :=
  run_issue_after r ha hb (allowed_nondet free hd) (by
    simp only [bind_apply, mine_apply, id, issued_sl, sl_deque, sl_spilled, wrLand_issued hd, pure_apply])

/-- A task without a gang reports no live tasks. -/
theorem exec_pchk {x : SW} {s : State} (r : Ready x.h s) (ha : IsReg x.a s) (hb : IsReg x.b s) (hd : IsReg x.d s) (free : Free s) :
    exec (.pchk x) s = .next (after x.h none (lands .gang (known (gCells (gNo x.d)
      (min ((gangOf s.m s.m.sl).elim 0 (·.live)) (2 ^ 32 - 1) + ofBool s.m.cx.pre.isSome * 2 ^ 32)))) s) := by
  refine run_issue_after r ha hb (allowed_nondet free hd) ?_
  simp only [bind_apply, get_apply, issued_sl, issued_cx, gangOf_issued, wrLand_issued hd, pure_apply]
  cases gangOf s.m s.m.sl with
  | some G => rfl
  | none => rfl

/-! ## The stealing domain and the watchdog interval (R281) -/

theorem exec_stealdom {x : IW} {s : State} (r : Ready x.h s) :
    exec (.stealdom x) s = .next (after x.h none (fun m => m.updSlot m.cur (fun y => { y with steald := x.imm.toNat, victims := [] })) s) :=
  run_issue_after r (isReg_zero s) (isReg_zero s) (allowed_of_regs (by simp)) rfl

theorem exec_wdcfg {x : IW} {s : State} {t : Task} {g : Nat} {G : Gang} (r : Ready x.h s) (ht : s.m.sl.task = some t)
    (hg : t.e.gang = some g) (hG : s.m.gangs.find g = some G) :
    exec (.wdcfg x) s = .next (after x.h none (fun m =>
      { m with gangs := m.gangs.put g { G with wdi := x.imm.toNat, per := true, timer := s.m.sid } }) s) := by
  refine run_issue_after r (isReg_zero s) (isReg_zero s) (allowed_of_regs (by simp)) ?_
  have gang : gangOf s.m s.m.sl = some G := (gangOf_some ht hg).trans hG
  simp only [bind_apply, change_apply, issued_sl, sl_task, ht, Option.bind_some, hg, gangOf_issued, gang, issued_sid, pure_apply]

/-- Without a task WDCFG only retires. -/
theorem exec_wdcfg_no_task {x : IW} {s : State} (r : Ready x.h s) (ht : s.m.sl.task = none) :
    exec (.wdcfg x) s = .next (after x.h none id s) := by
  refine run_issue_after r (isReg_zero s) (isReg_zero s) (allowed_of_regs (by simp)) ?_
  simp only [bind_apply, change_apply, issued_sl, sl_task, ht, Option.bind_none, pure_apply, id]

/-! ## The spill region (R282) -/

/-- A region at a multiple of 128 bytes, of no entries (0) or of 2^7 to 2^20, passes DQSPILL's check. -/
theorem spillRegion_legal {ea b : Nat} (hea : ea % 128 = 0) (hb : b = 0 ∨ (7 ≤ b ∧ b ≤ 20)) :
    (ea % 128 != 0 || decide (64 ≤ b) || !(b == 0 || (decide (7 ≤ b) && decide (b ≤ 20)))) = false := by
  have fits : ¬ 64 ≤ b := by omega
  have size : (b == 0 || (decide (7 ≤ b) && decide (b ≤ 20))) = true := by simpa using hb
  simp only [hea, fits, size, bne_self_eq_false, decide_false, Bool.not_true, Bool.or_self]

theorem exec_dqspill {x : MW} {s : State} (r : Ready x.h s) (ha : IsReg x.a s) (hb : IsReg x.b s) (hp : Privileged s)
    (hea : addDisp (val x.a s) x.disp % 128 = 0) (hsize : val x.b s = 0 ∨ (7 ≤ val x.b s ∧ val x.b s ≤ 20))
    (empty : s.m.sl.spilled = []) :
    exec (.dqspill x) s = .next (after x.h none (fun m => m.updSlot m.cur (fun y =>
      { y with dqring := val x.b s + bits (addDisp (val x.a s) x.disp) 7 49 * 128, spillHead := 0, spillCnt := 0 })) s) := by
  refine run_issue_after r ha hb ⟨rfl, fun _ => hp, nofun, by simp⟩ ?_
  have legal := spillRegion_legal hea hsize
  have none_spilled : (!(sl s).spilled.isEmpty) = false := by simp [empty]
  unfold val at legal ⊢
  simp only [bind_apply, rdGp_apply, mine_apply, id, issued_sl, trapIf_of legal, trapIf_of none_spilled, changeMine_apply, pure_apply]

/-- Settles O24: each clause is its instruction's own execution; the conditions on DQSPILL's operands are those of its two traps. -/
theorem taskIdentity : Obligations.TaskIdentity :=
  ⟨fun _ _ r ha hb hd => ⟨exec_taskid r ha hb hd, exec_dpath r ha hb hd,
      fun free => ⟨exec_dqstat r ha hb hd free, exec_pchk r ha hb hd free⟩⟩,
   fun _ _ r => ⟨exec_stealdom r, fun _ _ _ => exec_wdcfg r, exec_wdcfg_no_task r⟩,
   fun _ _ => exec_dqspill⟩

end Sys2Proof.Claim
end

section
/-! PROOFS. Decoding and encoding agree (R11, R17, R38). A word of each class is determined by its fields (`ofWord_iff`), and each opcode
names one class. -/
namespace Sys2Proof

/-! ## Codes of the enumerated fields -/

theorem Ty.code_lt (t : Ty) : t.code < 2 ^ 4 := by cases t <;> decide
theorem Cnd.code_lt (t : Cnd) : t.code < 2 ^ 4 := by cases t <;> decide
theorem Sco.code_lt (t : Sco) : t.code < 2 ^ 2 := by cases t <;> decide
theorem Kind.code_lt (t : Kind) : t.code < 2 ^ 2 := by cases t <;> decide
theorem Fmt.code_lt (t : Fmt) : t.code < 2 ^ 5 := by cases t <;> decide
theorem Rm.code_lt (t : Rm) : t.code < 2 ^ 3 := by cases t <;> decide

theorem Ty.ofCode_iff {n : Nat} {t : Ty} : Ty.ofCode n = some t ↔ n = t.code := by
  refine ⟨fun h => ?_, by rintro rfl; cases t <;> rfl⟩
  unfold Ty.ofCode at h
  split at h <;> cases h <;> rfl

theorem Cnd.ofCode_iff {n : Nat} {t : Cnd} : Cnd.ofCode n = some t ↔ n = t.code := by
  refine ⟨fun h => ?_, by rintro rfl; cases t <;> rfl⟩
  unfold Cnd.ofCode at h
  split at h <;> cases h <;> rfl

theorem Sco.ofCode_iff {n : Nat} {t : Sco} : Sco.ofCode n = some t ↔ n = t.code := by
  refine ⟨fun h => ?_, by rintro rfl; cases t <;> rfl⟩
  unfold Sco.ofCode at h
  split at h <;> cases h <;> rfl

theorem Kind.ofCode_iff {n : Nat} {t : Kind} : Kind.ofCode n = some t ↔ n = t.code := by
  refine ⟨fun h => ?_, by rintro rfl; cases t <;> rfl⟩
  unfold Kind.ofCode at h
  split at h <;> cases h <;> rfl

theorem Fmt.ofCode_iff {n : Nat} {t : Fmt} : Fmt.ofCode n = some t ↔ n = t.code := by
  refine ⟨fun h => ?_, by rintro rfl; cases t <;> rfl⟩
  unfold Fmt.ofCode at h
  split at h <;> cases h <;> rfl

theorem Rm.ofCode_iff {n : Nat} {t : Rm} : Rm.ofCode n = some t ↔ n = t.code := by
  refine ⟨fun h => ?_, by rintro rfl; cases t <;> rfl⟩
  unfold Rm.ofCode at h
  split at h <;> cases h <;> rfl

/-! ## Fields of a word -/

theorem fld_iff {w lo n : Nat} {v : BitVec n} : fld w lo n = v ↔ bits w lo n = v.toNat := by
  rw [← BitVec.toNat_inj, fld, BitVec.toNat_ofNat, bits, Nat.mod_mod]

theorem bitAt_iff {w i : Nat} {b : Bool} : bitAt w i = b ↔ bits w i 1 = ofBool b := by
  have : w / 2 ^ i % 2 < 2 := Nat.mod_lt _ (by decide)
  unfold bitAt bits ofBool
  cases b <;> simp

theorem ofBool_lt (b : Bool) : ofBool b < 2 := by cases b <;> decide

theorem Hdr.code_lt (h : Hdr) : h.code < 2 ^ 14 := by
  have := h.g.isLt; have := h.sc.isLt; have := h.ch.isLt
  have := ofBool_lt h.gn; have := ofBool_lt h.la; have := ofBool_lt h.lb
  unfold Hdr.code
  omega

theorem Hdr.eq_iff_fields {x y : Hdr} : x = y ↔ x.g = y.g ∧ x.gn = y.gn ∧ x.sc = y.sc ∧ x.la = y.la ∧ x.lb = y.lb ∧ x.ch = y.ch := by
  cases x; cases y; simp

theorem Hdr.ofWord_iff {w : Nat} {h : Hdr} : Hdr.ofWord w = h ↔ bits w 32 14 = h.code := by
  have := h.g.isLt; have := h.sc.isLt; have := h.ch.isLt
  have := ofBool_lt h.gn; have := ofBool_lt h.la; have := ofBool_lt h.lb
  rw [Hdr.eq_iff_fields]
  simp only [Hdr.ofWord, fld_iff, bitAt_iff, bits, Hdr.code]
  omega

/-! ## One class after the other

Each class reads its fields one by one; the fields' codes are the word's bits above the opcode. -/

theorem ZW.ofWord_fields {w : Nat} {x : ZW} : ZW.ofWord w = some x ↔
    bits w 8 24 = 0 ∧ bits w 48 48 = 0 ∧ Hdr.ofWord w = x.h := by
  unfold ZW.ofWord
  cases x
  by_cases h : bits w 8 24 = 0 ∧ bits w 48 48 = 0 <;> simp [h, ← and_assoc]

theorem ZW.ofWord_iff {w : Nat} {x : ZW} (hw : w < 2 ^ 96) (hz : bits w 46 2 = 0) : ZW.ofWord w = some x ↔ w / 2 ^ 8 = x.code := by
  have := x.h.code_lt
  rw [ZW.ofWord_fields, Hdr.ofWord_iff]
  simp only [ZW.code, bits] at hz ⊢
  omega

theorem SW.ofWord_fields {w : Nat} {x : SW} : SW.ofWord w = some x ↔
    bits w 80 16 = 0 ∧ Hdr.ofWord w = x.h ∧ fld w 8 8 = x.d ∧ fld w 16 8 = x.a ∧ fld w 24 8 = x.b ∧ fld w 48 8 = x.c ∧
      Ty.ofCode (bits w 56 4) = some x.ty ∧ Cnd.ofCode (bits w 60 4) = some x.cnd ∧ fld w 64 16 = x.mod := by
  unfold SW.ofWord
  cases x
  cases Ty.ofCode (bits w 56 4) <;> cases Cnd.ofCode (bits w 60 4) <;> cases bits w 80 16 <;> simp

theorem SW.ofWord_iff {w : Nat} {x : SW} (hw : w < 2 ^ 96) (hz : bits w 46 2 = 0) : SW.ofWord w = some x ↔ w / 2 ^ 8 = x.code := by
  have := x.d.isLt; have := x.a.isLt; have := x.b.isLt; have := x.c.isLt; have := x.mod.isLt
  have := x.h.code_lt; have := x.ty.code_lt; have := x.cnd.code_lt
  rw [SW.ofWord_fields, Hdr.ofWord_iff, Ty.ofCode_iff, Cnd.ofCode_iff]
  simp only [fld_iff, SW.code, bits] at hz ⊢
  omega

theorem IW.ofWord_fields {w : Nat} {x : IW} : IW.ofWord w = some x ↔
    Hdr.ofWord w = x.h ∧ fld w 8 8 = x.d ∧ fld w 16 8 = x.a ∧ fld w 24 8 = x.b ∧ fld w 48 32 = x.imm ∧
      Ty.ofCode (bits w 80 4) = some x.ty ∧ Cnd.ofCode (bits w 84 4) = some x.cnd ∧ fld w 88 8 = x.mod := by
  unfold IW.ofWord
  cases x
  cases Ty.ofCode (bits w 80 4) <;> cases Cnd.ofCode (bits w 84 4) <;> simp

theorem IW.ofWord_iff {w : Nat} {x : IW} (hw : w < 2 ^ 96) (hz : bits w 46 2 = 0) : IW.ofWord w = some x ↔ w / 2 ^ 8 = x.code := by
  have := x.d.isLt; have := x.a.isLt; have := x.b.isLt; have := x.imm.isLt; have := x.mod.isLt
  have := x.h.code_lt; have := x.ty.code_lt; have := x.cnd.code_lt
  rw [IW.ofWord_fields, Hdr.ofWord_iff, Ty.ofCode_iff, Cnd.ofCode_iff]
  simp only [fld_iff, IW.code, bits] at hz ⊢
  omega

theorem MW.ofWord_fields {w : Nat} {x : MW} : MW.ofWord w = some x ↔
    Hdr.ofWord w = x.h ∧ fld w 8 8 = x.d ∧ fld w 16 8 = x.a ∧ fld w 24 8 = x.b ∧ fld w 48 32 = x.disp ∧
      Ty.ofCode (bits w 80 4) = some x.ty ∧ Sco.ofCode (bits w 84 2) = some x.sco ∧ Kind.ofCode (bits w 86 2) = some x.kind ∧ fld w 88 8 = x.c := by
  unfold MW.ofWord
  cases x
  cases Ty.ofCode (bits w 80 4) <;> cases Sco.ofCode (bits w 84 2) <;> cases Kind.ofCode (bits w 86 2) <;> simp

theorem MW.ofWord_iff {w : Nat} {x : MW} (hw : w < 2 ^ 96) (hz : bits w 46 2 = 0) : MW.ofWord w = some x ↔ w / 2 ^ 8 = x.code := by
  have := x.d.isLt; have := x.a.isLt; have := x.b.isLt; have := x.disp.isLt; have := x.c.isLt
  have := x.h.code_lt; have := x.ty.code_lt; have := x.sco.code_lt; have := x.kind.code_lt
  rw [MW.ofWord_fields, Hdr.ofWord_iff, Ty.ofCode_iff, Sco.ofCode_iff, Kind.ofCode_iff]
  simp only [fld_iff, MW.code, bits] at hz ⊢
  omega

theorem BW.ofWord_fields {w : Nat} {x : BW} : BW.ofWord w = some x ↔
    Hdr.ofWord w = x.h ∧ fld w 8 8 = x.d ∧ fld w 16 8 = x.a ∧ fld w 24 8 = x.b ∧ fld w 48 32 = x.off ∧ fld w 80 16 = x.mod := by
  unfold BW.ofWord
  cases x
  simp

theorem BW.ofWord_iff {w : Nat} {x : BW} (hw : w < 2 ^ 96) (hz : bits w 46 2 = 0) : BW.ofWord w = some x ↔ w / 2 ^ 8 = x.code := by
  have := x.d.isLt; have := x.a.isLt; have := x.b.isLt; have := x.off.isLt; have := x.mod.isLt
  have := x.h.code_lt
  rw [BW.ofWord_fields, Hdr.ofWord_iff]
  simp only [fld_iff, BW.code, bits] at hz ⊢
  omega

theorem VW.ofWord_fields {w : Nat} {x : VW} : VW.ofWord w = some x ↔
    Hdr.ofWord w = x.h ∧ fld w 8 8 = x.d ∧ fld w 16 8 = x.a ∧ fld w 24 8 = x.b ∧
      Fmt.ofCode (bits w 48 5) = some x.fa ∧ Fmt.ofCode (bits w 53 5) = some x.fd ∧ Rm.ofCode (bits w 58 3) = some x.rm ∧ fld w 61 3 = x.mp ∧
      bitAt w 64 = x.zm ∧ fld w 65 8 = x.c ∧ fld w 73 23 = x.mod := by
  unfold VW.ofWord
  cases x
  cases Fmt.ofCode (bits w 48 5) <;> cases Fmt.ofCode (bits w 53 5) <;> cases Rm.ofCode (bits w 58 3) <;> simp

theorem VW.ofWord_iff {w : Nat} {x : VW} (hw : w < 2 ^ 96) (hz : bits w 46 2 = 0) : VW.ofWord w = some x ↔ w / 2 ^ 8 = x.code := by
  have := x.d.isLt; have := x.a.isLt; have := x.b.isLt; have := x.mp.isLt; have := x.c.isLt; have := x.mod.isLt
  have := x.h.code_lt; have := x.fa.code_lt; have := x.fd.code_lt; have := x.rm.code_lt; have := ofBool_lt x.zm
  rw [VW.ofWord_fields, Hdr.ofWord_iff, Fmt.ofCode_iff, Fmt.ofCode_iff, Rm.ofCode_iff]
  simp only [fld_iff, bitAt_iff, VW.code, bits] at hz ⊢
  omega

theorem JW.ofWord_fields {w : Nat} {x : JW} : JW.ofWord w = some x ↔
    Hdr.ofWord w = x.h ∧ fld w 8 8 = x.d ∧ fld w 16 8 = x.a ∧ fld w 24 8 = x.b ∧ fld w 48 8 = x.c ∧ fld w 56 8 = x.e ∧
      Fmt.ofCode (bits w 64 5) = some x.fmt ∧ Rm.ofCode (bits w 69 3) = some x.rm ∧ fld w 72 24 = x.mod := by
  unfold JW.ofWord
  cases x
  cases Fmt.ofCode (bits w 64 5) <;> cases Rm.ofCode (bits w 69 3) <;> simp

theorem JW.ofWord_iff {w : Nat} {x : JW} (hw : w < 2 ^ 96) (hz : bits w 46 2 = 0) : JW.ofWord w = some x ↔ w / 2 ^ 8 = x.code := by
  have := x.d.isLt; have := x.a.isLt; have := x.b.isLt; have := x.c.isLt; have := x.e.isLt; have := x.mod.isLt
  have := x.h.code_lt; have := x.fmt.code_lt; have := x.rm.code_lt
  rw [JW.ofWord_fields, Hdr.ofWord_iff, Fmt.ofCode_iff, Rm.ofCode_iff]
  simp only [fld_iff, JW.code, bits] at hz ⊢
  omega

theorem YW.ofWord_fields {w : Nat} {x : YW} : YW.ofWord w = some x ↔
    Hdr.ofWord w = x.h ∧ fld w 8 8 = x.d ∧ fld w 16 8 = x.a ∧ fld w 24 8 = x.b ∧ fld w 48 16 = x.mod ∧ fld w 64 12 = x.sr ∧ fld w 76 20 = x.imm := by
  unfold YW.ofWord
  cases x
  simp

theorem YW.ofWord_iff {w : Nat} {x : YW} (hw : w < 2 ^ 96) (hz : bits w 46 2 = 0) : YW.ofWord w = some x ↔ w / 2 ^ 8 = x.code := by
  have := x.d.isLt; have := x.a.isLt; have := x.b.isLt; have := x.mod.isLt; have := x.sr.isLt; have := x.imm.isLt
  have := x.h.code_lt
  rw [YW.ofWord_fields, Hdr.ofWord_iff]
  simp only [fld_iff, YW.code, bits] at hz ⊢
  omega

/-! ## The word of a class's fields -/

/-- A word whose fields end below bit 96 and hold 0 at bits [47:46]. -/
def FieldsFit (f : Nat) : Prop := f < 2 ^ 88 ∧ bits f 38 2 = 0

theorem ZW.code_fits (x : ZW) : FieldsFit x.code := by
  have := x.h.code_lt
  unfold FieldsFit bits ZW.code
  omega

theorem SW.code_fits (x : SW) : FieldsFit x.code := by
  have := x.d.isLt; have := x.a.isLt; have := x.b.isLt; have := x.c.isLt; have := x.mod.isLt
  have := x.h.code_lt; have := x.ty.code_lt; have := x.cnd.code_lt
  unfold FieldsFit bits SW.code
  omega

theorem IW.code_fits (x : IW) : FieldsFit x.code := by
  have := x.d.isLt; have := x.a.isLt; have := x.b.isLt; have := x.imm.isLt; have := x.mod.isLt
  have := x.h.code_lt; have := x.ty.code_lt; have := x.cnd.code_lt
  unfold FieldsFit bits IW.code
  omega

theorem MW.code_fits (x : MW) : FieldsFit x.code := by
  have := x.d.isLt; have := x.a.isLt; have := x.b.isLt; have := x.disp.isLt; have := x.c.isLt
  have := x.h.code_lt; have := x.ty.code_lt; have := x.sco.code_lt; have := x.kind.code_lt
  unfold FieldsFit bits MW.code
  omega

theorem BW.code_fits (x : BW) : FieldsFit x.code := by
  have := x.d.isLt; have := x.a.isLt; have := x.b.isLt; have := x.off.isLt; have := x.mod.isLt
  have := x.h.code_lt
  unfold FieldsFit bits BW.code
  omega

theorem VW.code_fits (x : VW) : FieldsFit x.code := by
  have := x.d.isLt; have := x.a.isLt; have := x.b.isLt; have := x.mp.isLt; have := x.c.isLt; have := x.mod.isLt
  have := x.h.code_lt; have := x.fa.code_lt; have := x.fd.code_lt; have := x.rm.code_lt; have := ofBool_lt x.zm
  unfold FieldsFit bits VW.code
  omega

theorem JW.code_fits (x : JW) : FieldsFit x.code := by
  have := x.d.isLt; have := x.a.isLt; have := x.b.isLt; have := x.c.isLt; have := x.e.isLt; have := x.mod.isLt
  have := x.h.code_lt; have := x.fmt.code_lt; have := x.rm.code_lt
  unfold FieldsFit bits JW.code
  omega

theorem YW.code_fits (x : YW) : FieldsFit x.code := by
  have := x.d.isLt; have := x.a.isLt; have := x.b.isLt; have := x.mod.isLt; have := x.sr.isLt; have := x.imm.isLt
  have := x.h.code_lt
  unfold FieldsFit bits YW.code
  omega

section
variable {op f : Nat} (hop : op < 2 ^ 8) (hf : FieldsFit f)
include hop

theorem word_fields : (op + 2 ^ 8 * f) / 2 ^ 8 = f := by omega
theorem word_opcode : bits (op + 2 ^ 8 * f) 0 8 = op := by unfold bits; omega

include hf

theorem word_lt : op + 2 ^ 8 * f < 2 ^ 96 := by
  obtain ⟨h, -⟩ := hf
  omega

theorem word_clear : bits (op + 2 ^ 8 * f) 46 2 = 0 := by
  obtain ⟨-, h⟩ := hf
  unfold bits at *
  omega

end

/-! ## From the opcode to the class -/

/-- What an opcode makes of a word, before legality. -/
noncomputable def decodeOpcode (w op : Nat) : Option Instr :=
  match op / 32 with
  | 0 => decodeScalar w (op % 32)
  | 1 => decodeControl w (op % 32)
  | 2 => decodeMemory w (op % 32)
  | 3 => decodeTask w (op % 32)
  | 4 => decodeVector w (op % 32)
  | 5 => decodeConversion w (op % 32)
  | 6 => decodeEngine w (op % 32)
  | 7 => decodeSystem w (op % 32)
  | _ => none

theorem decodeFields_eq {w : Nat} (h0 : bits w 0 8 ≠ 0) (hz : bits w 46 2 = 0) : decodeFields w = decodeOpcode w (bits w 0 8) := by
  have group : bits w 0 8 / 32 = bits w 5 3 := by unfold bits; omega
  have low : bits w 0 8 % 32 = bits w 0 5 := by unfold bits; omega
  unfold decodeFields decodeOpcode
  rw [if_neg h0, if_neg (not_not.2 hz), group, low] <;> rfl

/-! ## Encoding and decoding again -/

theorem Instr.opcode_lt (i : Instr) : i.opcode < 2 ^ 8 := by cases i <;> exact of_decide_eq_true rfl

/-- A legal word whose opcode reads its fields as `i` decodes to `i`. -/
theorem decode_encode_of {i : Instr} (h0 : i.opcode ≠ 0) (hf : FieldsFit i.fields) (hwf : i.wf = true)
    (hd : decodeOpcode (encode i) i.opcode = some i) : decode (encode i) = some i := by
  have op : bits (encode i) 0 8 = i.opcode := word_opcode (f := i.fields) i.opcode_lt
  have clear : bits (encode i) 46 2 = 0 := word_clear i.opcode_lt hf
  have fields : decodeFields (encode i) = some i := by
    rw [decodeFields_eq (by rwa [op]) clear, op, hd]
  unfold decode
  simp only [fields, hwf, if_true]

theorem ZW.ofWord_encode {i : Instr} {x : ZW} (hi : i.fields = x.code) : ZW.ofWord (encode i) = some x := by
  have hf : FieldsFit i.fields := hi ▸ x.code_fits
  exact (ZW.ofWord_iff (word_lt i.opcode_lt hf) (word_clear i.opcode_lt hf)).2 ((word_fields i.opcode_lt).trans hi)

theorem SW.ofWord_encode {i : Instr} {x : SW} (hi : i.fields = x.code) : SW.ofWord (encode i) = some x := by
  have hf : FieldsFit i.fields := hi ▸ x.code_fits
  exact (SW.ofWord_iff (word_lt i.opcode_lt hf) (word_clear i.opcode_lt hf)).2 ((word_fields i.opcode_lt).trans hi)

theorem IW.ofWord_encode {i : Instr} {x : IW} (hi : i.fields = x.code) : IW.ofWord (encode i) = some x := by
  have hf : FieldsFit i.fields := hi ▸ x.code_fits
  exact (IW.ofWord_iff (word_lt i.opcode_lt hf) (word_clear i.opcode_lt hf)).2 ((word_fields i.opcode_lt).trans hi)

theorem MW.ofWord_encode {i : Instr} {x : MW} (hi : i.fields = x.code) : MW.ofWord (encode i) = some x := by
  have hf : FieldsFit i.fields := hi ▸ x.code_fits
  exact (MW.ofWord_iff (word_lt i.opcode_lt hf) (word_clear i.opcode_lt hf)).2 ((word_fields i.opcode_lt).trans hi)

theorem BW.ofWord_encode {i : Instr} {x : BW} (hi : i.fields = x.code) : BW.ofWord (encode i) = some x := by
  have hf : FieldsFit i.fields := hi ▸ x.code_fits
  exact (BW.ofWord_iff (word_lt i.opcode_lt hf) (word_clear i.opcode_lt hf)).2 ((word_fields i.opcode_lt).trans hi)

theorem VW.ofWord_encode {i : Instr} {x : VW} (hi : i.fields = x.code) : VW.ofWord (encode i) = some x := by
  have hf : FieldsFit i.fields := hi ▸ x.code_fits
  exact (VW.ofWord_iff (word_lt i.opcode_lt hf) (word_clear i.opcode_lt hf)).2 ((word_fields i.opcode_lt).trans hi)

theorem JW.ofWord_encode {i : Instr} {x : JW} (hi : i.fields = x.code) : JW.ofWord (encode i) = some x := by
  have hf : FieldsFit i.fields := hi ▸ x.code_fits
  exact (JW.ofWord_iff (word_lt i.opcode_lt hf) (word_clear i.opcode_lt hf)).2 ((word_fields i.opcode_lt).trans hi)

theorem YW.ofWord_encode {i : Instr} {x : YW} (hi : i.fields = x.code) : YW.ofWord (encode i) = some x := by
  have hf : FieldsFit i.fields := hi ▸ x.code_fits
  exact (YW.ofWord_iff (word_lt i.opcode_lt hf) (word_clear i.opcode_lt hf)).2 ((word_fields i.opcode_lt).trans hi)

section
variable {i : Instr} (h0 : i.opcode ≠ 0) (hwf : i.wf = true)
include h0 hwf

theorem decode_encode_ZW {x : ZW} {f : ZW → Instr} (hi : i = f x) (hf : i.fields = x.code)
    (hd : decodeOpcode (encode i) i.opcode = (ZW.ofWord (encode i)).map f) : decode (encode i) = some i :=
  decode_encode_of h0 (hf ▸ x.code_fits) hwf (by rw [hd, ZW.ofWord_encode hf, hi]; rfl)

theorem decode_encode_SW {x : SW} {f : SW → Instr} (hi : i = f x) (hf : i.fields = x.code)
    (hd : decodeOpcode (encode i) i.opcode = (SW.ofWord (encode i)).map f) : decode (encode i) = some i :=
  decode_encode_of h0 (hf ▸ x.code_fits) hwf (by rw [hd, SW.ofWord_encode hf, hi]; rfl)

theorem decode_encode_IW {x : IW} {f : IW → Instr} (hi : i = f x) (hf : i.fields = x.code)
    (hd : decodeOpcode (encode i) i.opcode = (IW.ofWord (encode i)).map f) : decode (encode i) = some i :=
  decode_encode_of h0 (hf ▸ x.code_fits) hwf (by rw [hd, IW.ofWord_encode hf, hi]; rfl)

theorem decode_encode_MW {x : MW} {f : MW → Instr} (hi : i = f x) (hf : i.fields = x.code)
    (hd : decodeOpcode (encode i) i.opcode = (MW.ofWord (encode i)).map f) : decode (encode i) = some i :=
  decode_encode_of h0 (hf ▸ x.code_fits) hwf (by rw [hd, MW.ofWord_encode hf, hi]; rfl)

theorem decode_encode_BW {x : BW} {f : BW → Instr} (hi : i = f x) (hf : i.fields = x.code)
    (hd : decodeOpcode (encode i) i.opcode = (BW.ofWord (encode i)).map f) : decode (encode i) = some i :=
  decode_encode_of h0 (hf ▸ x.code_fits) hwf (by rw [hd, BW.ofWord_encode hf, hi]; rfl)

theorem decode_encode_VW {x : VW} {f : VW → Instr} (hi : i = f x) (hf : i.fields = x.code)
    (hd : decodeOpcode (encode i) i.opcode = (VW.ofWord (encode i)).map f) : decode (encode i) = some i :=
  decode_encode_of h0 (hf ▸ x.code_fits) hwf (by rw [hd, VW.ofWord_encode hf, hi]; rfl)

theorem decode_encode_JW {x : JW} {f : JW → Instr} (hi : i = f x) (hf : i.fields = x.code)
    (hd : decodeOpcode (encode i) i.opcode = (JW.ofWord (encode i)).map f) : decode (encode i) = some i :=
  decode_encode_of h0 (hf ▸ x.code_fits) hwf (by rw [hd, JW.ofWord_encode hf, hi]; rfl)

theorem decode_encode_YW {x : YW} {f : YW → Instr} (hi : i = f x) (hf : i.fields = x.code)
    (hd : decodeOpcode (encode i) i.opcode = (YW.ofWord (encode i)).map f) : decode (encode i) = some i :=
  decode_encode_of h0 (hf ▸ x.code_fits) hwf (by rw [hd, YW.ofWord_encode hf, hi]; rfl)

end

/-! ## Opcodes that two or three instructions share -/

theorem bits_encode_role {i : Instr} {x : YW} (hi : i.fields = x.code) : bits (encode i) 48 2 = bits x.mod.toNat 0 2 := by
  have : fld (encode i) 48 16 = x.mod := by
    obtain ⟨-, -, -, -, h, -⟩ := YW.ofWord_fields.1 (YW.ofWord_encode hi)
    exact h
  have := fld_iff.1 this
  unfold bits at *
  omega

theorem bits_encode_sub {i : Instr} {x : VW} (hi : i.fields = x.code) : bits (encode i) 73 4 = x.sub := by
  have : fld (encode i) 73 23 = x.mod := by
    obtain ⟨-, -, -, -, -, -, -, -, -, -, h⟩ := VW.ofWord_fields.1 (VW.ofWord_encode hi)
    exact h
  have := fld_iff.1 this
  unfold VW.sub bits at *
  omega

theorem bitAt_encode_c {i : Instr} {x : MW} (hi : i.fields = x.code) : bitAt (encode i) 88 = bitAt x.c.toNat 0 := by
  have : fld (encode i) 88 8 = x.c := by
    obtain ⟨-, -, -, -, -, -, -, -, h⟩ := MW.ofWord_fields.1 (MW.ofWord_encode hi)
    exact h
  have := fld_iff.1 this
  rw [bitAt_iff]
  unfold bits at *
  unfold bitAt ofBool
  split <;> simp_all <;> omega

theorem bitAt_encode_on {i : Instr} {x : JW} (hi : i.fields = x.code) : bitAt (encode i) 81 = bitAt x.mod.toNat 9 := by
  have : fld (encode i) 72 24 = x.mod := by
    obtain ⟨-, -, -, -, -, -, -, -, h⟩ := JW.ofWord_fields.1 (JW.ofWord_encode hi)
    exact h
  have := fld_iff.1 this
  unfold bits at this
  unfold bitAt
  congr 1
  omega

/-- Settles O2: a legal word's opcode names its class, and the class reads its fields back; where an opcode has several instructions, the
legal word's own modifier bits name the one. -/
theorem decodeEncodeAgree : Obligations.DecodeEncodeAgree := by
  intro i h
  cases i
  case ill => rfl
  case add | sub | mul | mulh | div | rem | mac | and | or | xor | andn | shl | shr | sar | rotl | min | max | cmp | plog | sel | mov |
    clz | popc | fold | bri | calli | time | cycles | sunbind | sstat | hgive | hfree | taskid | dqstat | bara | barw | tread | evpop |
    evpush | dpath | pchk | vreneg | lwtime x =>
    exact decode_encode_SW (Nat.succ_ne_zero _) h rfl rfl (by rw [Instr.opcode]; rfl)
  case addi | cmpi | movi | bfx | bfi | rep | waitev | sleep | trap | brk | assert | prio | cwait | stealdom | semp | semw | twait |
    settlw | evwait | wdcfg | vclaim | lwstep | lwdom x =>
    exact decode_encode_IW (Nat.succ_ne_zero _) h rfl rfl (by rw [Instr.opcode]; rfl)
  case lea | sbind | ld | st | lds | sts | ldx | stx | pf | l1invr | movblk | fillblk | atomAdd | atomMin | atomMax | atomAnd | atomOr |
    atomXor | atomXchg | atomCas | atomInc | atomFadd | redAdd | redMin | redMax | redLog | redFadd | capgive | captake | capq | fork |
    join | joinm | spawn | launch | gnode | gsub | gqry | publish | subscr | stopref | refchk | qfence | lwadv | lwadd | lwset | lwmax |
    lwarm | lwdisarm | lwpeek | lwcas | lwxch | lwclr | lwdsc | vlwadv | vlwadd | ctxsave | ctxload | tlbinv | eccinj | capset | dqspill |
    xlate | lwscan x =>
    exact decode_encode_MW (Nat.succ_ne_zero _) h rfl rfl (by rw [Instr.opcode]; rfl)
  case ldlit | br | call | loop | detach | prefi x =>
    exact decode_encode_BW (Nat.succ_ne_zero _) h rfl rfl (by rw [Instr.opcode]; rfl)
  case nop | ret | exit | yield | rejoin | rte | beat | ifence | l1inv | vrel x =>
    exact decode_encode_ZW (Nat.succ_ne_zero _) h rfl rfl (by rw [Instr.opcode]; rfl)
  case sysrd | syswr | view | slotcfg | tset | evcfg | ephstat | tlbinva | fbpop | replay | pmread | semi | sliceq | hcall x =>
    exact decode_encode_YW (Nat.succ_ne_zero _) h rfl rfl (by rw [Instr.opcode]; rfl)
  case vadd | vsub | vmul | vfma | vmin | vmax | vabs | vneg | vand | vor | vxor | vshl | vshr | vcmp | vsel | vmov | vbcast | vreduce |
    vscan | vfmas | vmulh | vsat | vcx | vperm | vcompr | vexpnd | viota | vrng | vmask | vcvt | vcvts | vrnd | vclass | vexp2 | vlog2 |
    vrcp | vrsq | vsqrt | vdiv | vsinpi | vcospi | vtanh | vsigm | vld | vst | vldg | vstg | vldw | vstw | tld | tst | ttr | tzero | mset
    | mget | vpopc | vfirst | vpack | vunpk | vlut x =>
    exact decode_encode_VW (Nat.succ_ne_zero _) h rfl rfl (by rw [Instr.opcode]; rfl)
  case cjcfg | contract | drain | acclr | accst | isect | union | merge | kqpush | kqstat | copy | copy2d | copyk | gather | scatter |
    pool | smv | smvcfg | coll | rput | rget | ratom | rred | pfpool | ecancel | estat | isectc | mergek | cjsave | cjload | spillst x =>
    exact decode_encode_JW (Nat.succ_ne_zero _) h rfl rfl (by rw [Instr.opcode]; rfl)
  case cometLead x =>
    have role : bits x.mod.toNat 0 2 = 0 := by
      simp only [Instr.wf, YW.comet, YW.ok, YW.cometOk, Bool.and_eq_true, beq_iff_eq] at h
      tauto
    refine decode_encode_YW (f := .cometLead) (Nat.succ_ne_zero _) h rfl rfl ?_
    rw [Instr.opcode]
    show (match bits (encode (.cometLead x)) 48 2 with | 0 => _ | 1 => _ | 2 => _ | _ => _) = _
    rw [bits_encode_role rfl, role]
    rfl
  case cometJoin x =>
    have role : bits x.mod.toNat 0 2 = 1 := by
      simp only [Instr.wf, YW.comet, YW.ok, YW.cometOk, Bool.and_eq_true, beq_iff_eq] at h
      tauto
    refine decode_encode_YW (f := .cometJoin) (Nat.succ_ne_zero _) h rfl rfl ?_
    rw [Instr.opcode]
    show (match bits (encode (.cometJoin x)) 48 2 with | 0 => _ | 1 => _ | 2 => _ | _ => _) = _
    rw [bits_encode_role rfl, role]
    rfl
  case cometEnd x =>
    have role : bits x.mod.toNat 0 2 = 2 := by
      simp only [Instr.wf, YW.comet, YW.ok, YW.cometOk, Bool.and_eq_true, beq_iff_eq] at h
      tauto
    refine decode_encode_YW (f := .cometEnd) (Nat.succ_ne_zero _) h rfl rfl ?_
    rw [Instr.opcode]
    show (match bits (encode (.cometEnd x)) 48 2 with | 0 => _ | 1 => _ | 2 => _ | _ => _) = _
    rw [bits_encode_role rfl, role]
    rfl
  case tmov x =>
    have sub : x.sub = 0 := by
      simp only [Instr.wf, VW.plain, VW.subMod, decide_eq_true_eq, VW.ok, Bool.and_eq_true, beq_iff_eq] at h
      omega
    refine decode_encode_VW (f := .tmov) (Nat.succ_ne_zero _) h rfl rfl ?_
    rw [Instr.opcode]
    show (match bits (encode (.tmov x)) 73 4 with | 0 => _ | 1 => _ | 2 => _ | _ => _) = _
    rw [bits_encode_sub rfl, sub]
    rfl
  case tmovTv x =>
    have sub : x.sub = 1 := by
      simp only [Instr.wf, VW.ok, Bool.and_eq_true, beq_iff_eq] at h
      omega
    refine decode_encode_VW (f := .tmovTv) (Nat.succ_ne_zero _) h rfl rfl ?_
    rw [Instr.opcode]
    show (match bits (encode (.tmovTv x)) 73 4 with | 0 => _ | 1 => _ | 2 => _ | _ => _) = _
    rw [bits_encode_sub rfl, sub]
    rfl
  case tmovVt x =>
    have sub : x.sub = 2 := by
      simp only [Instr.wf, VW.ok, Bool.and_eq_true, beq_iff_eq] at h
      omega
    refine decode_encode_VW (f := .tmovVt) (Nat.succ_ne_zero _) h rfl rfl ?_
    rw [Instr.opcode]
    show (match bits (encode (.tmovVt x)) 73 4 with | 0 => _ | 1 => _ | 2 => _ | _ => _) = _
    rw [bits_encode_sub rfl, sub]
    rfl
  case bari x =>
    have free : bitAt x.c.toNat 0 = false := by
      simp only [Instr.wf, MW.bare, MW.ok, Bool.and_eq_true, beq_iff_eq] at h
      obtain ⟨-, -, h⟩ := h
      rw [h]; rfl
    refine decode_encode_MW (f := .bari) (Nat.succ_ne_zero _) h rfl rfl ?_
    rw [Instr.opcode]
    show (if bitAt (encode (.bari x)) 88 then _ else _) = _
    rw [bitAt_encode_c rfl, free]
    rfl
  case bariFree x =>
    have free : bitAt x.c.toNat 0 = true := by
      simp only [Instr.wf, MW.bare, MW.ok, Bool.and_eq_true, beq_iff_eq] at h
      obtain ⟨-, -, h⟩ := h
      rw [h]; rfl
    refine decode_encode_MW (f := .bariFree) (Nat.succ_ne_zero _) h rfl rfl ?_
    rw [Instr.opcode]
    show (if bitAt (encode (.bariFree x)) 88 then _ else _) = _
    rw [bitAt_encode_c rfl, free]
    rfl
  case evrule x =>
    have on : bitAt x.mod.toNat 9 = true := by
      simp only [Instr.wf, JW.bare, JW.ok, Bool.and_eq_true, beq_iff_eq] at h
      obtain ⟨-, -, h⟩ := h
      rw [bitAt_iff]
      show bits _ 9 1 = 1
      unfold bits at *
      omega
    refine decode_encode_JW (f := .evrule) (Nat.succ_ne_zero _) h rfl rfl ?_
    rw [Instr.opcode]
    show (if bitAt (encode (.evrule x)) 81 then _ else _) = _
    rw [bitAt_encode_on rfl, on]
    rfl
  case evruleOff x =>
    have on : bitAt x.mod.toNat 9 = false := by
      simp only [Instr.wf, JW.bare, JW.ok, Bool.and_eq_true, beq_iff_eq] at h
      obtain ⟨-, -, h⟩ := h
      rw [bitAt_iff]
      show bits _ 9 1 = 0
      unfold bits at *
      omega
    refine decode_encode_JW (f := .evruleOff) (Nat.succ_ne_zero _) h rfl rfl ?_
    rw [Instr.opcode]
    show (if bitAt (encode (.evruleOff x)) 81 then _ else _) = _
    rw [bitAt_encode_on rfl, on]
    rfl
  all_goals exact absurd h Bool.false_ne_true

/-! ## Decoding and encoding again -/

/-- The word of `i` has the opcode `op` and the fields of `w`. -/
def Reads (w op : Nat) (i : Instr) : Prop := i.opcode = op ∧ i.fields = w / 2 ^ 8

section
variable {w op : Nat} {i : Instr} (hw : w < 2 ^ 96) (hz : bits w 46 2 = 0)
include hw hz

theorem ZW.reads {f : ZW → Instr} (h : (ZW.ofWord w).map f = some i) (ho : ∀ x, (f x).opcode = op) (hf : ∀ x, (f x).fields = x.code) :
    Reads w op i := by
  obtain ⟨x, hx, rfl⟩ := Option.map_eq_some_iff.1 h
  exact ⟨ho x, (hf x).trans ((ZW.ofWord_iff hw hz).1 hx).symm⟩

theorem SW.reads {f : SW → Instr} (h : (SW.ofWord w).map f = some i) (ho : ∀ x, (f x).opcode = op) (hf : ∀ x, (f x).fields = x.code) :
    Reads w op i := by
  obtain ⟨x, hx, rfl⟩ := Option.map_eq_some_iff.1 h
  exact ⟨ho x, (hf x).trans ((SW.ofWord_iff hw hz).1 hx).symm⟩

theorem IW.reads {f : IW → Instr} (h : (IW.ofWord w).map f = some i) (ho : ∀ x, (f x).opcode = op) (hf : ∀ x, (f x).fields = x.code) :
    Reads w op i := by
  obtain ⟨x, hx, rfl⟩ := Option.map_eq_some_iff.1 h
  exact ⟨ho x, (hf x).trans ((IW.ofWord_iff hw hz).1 hx).symm⟩

theorem MW.reads {f : MW → Instr} (h : (MW.ofWord w).map f = some i) (ho : ∀ x, (f x).opcode = op) (hf : ∀ x, (f x).fields = x.code) :
    Reads w op i := by
  obtain ⟨x, hx, rfl⟩ := Option.map_eq_some_iff.1 h
  exact ⟨ho x, (hf x).trans ((MW.ofWord_iff hw hz).1 hx).symm⟩

theorem BW.reads {f : BW → Instr} (h : (BW.ofWord w).map f = some i) (ho : ∀ x, (f x).opcode = op) (hf : ∀ x, (f x).fields = x.code) :
    Reads w op i := by
  obtain ⟨x, hx, rfl⟩ := Option.map_eq_some_iff.1 h
  exact ⟨ho x, (hf x).trans ((BW.ofWord_iff hw hz).1 hx).symm⟩

theorem VW.reads {f : VW → Instr} (h : (VW.ofWord w).map f = some i) (ho : ∀ x, (f x).opcode = op) (hf : ∀ x, (f x).fields = x.code) :
    Reads w op i := by
  obtain ⟨x, hx, rfl⟩ := Option.map_eq_some_iff.1 h
  exact ⟨ho x, (hf x).trans ((VW.ofWord_iff hw hz).1 hx).symm⟩

theorem JW.reads {f : JW → Instr} (h : (JW.ofWord w).map f = some i) (ho : ∀ x, (f x).opcode = op) (hf : ∀ x, (f x).fields = x.code) :
    Reads w op i := by
  obtain ⟨x, hx, rfl⟩ := Option.map_eq_some_iff.1 h
  exact ⟨ho x, (hf x).trans ((JW.ofWord_iff hw hz).1 hx).symm⟩

theorem YW.reads {f : YW → Instr} (h : (YW.ofWord w).map f = some i) (ho : ∀ x, (f x).opcode = op) (hf : ∀ x, (f x).fields = x.code) :
    Reads w op i := by
  obtain ⟨x, hx, rfl⟩ := Option.map_eq_some_iff.1 h
  exact ⟨ho x, (hf x).trans ((YW.ofWord_iff hw hz).1 hx).symm⟩

theorem decodeScalar_reads {o : Nat} (h0 : o ≠ 0) (h : decodeScalar w o = some i) : Reads w o i := by
  match o, h, h0 with
  | 0, _, h0 => exact absurd rfl h0
  | 1, h, _ | 3, h, _ | 4, h, _ | 5, h, _ | 6, h, _ | 7, h, _ | 8, h, _ | 9, h, _ | 10, h, _ | 11, h, _ | 12, h, _ | 13, h, _ | 14, h, _ |
    15, h, _ | 16, h, _ | 17, h, _ | 18, h, _ | 19, h, _ | 21, h, _ | 22, h, _ | 23, h, _ | 26, h, _ | 27, h, _ | 31, h, _ =>
    exact SW.reads hw hz h (fun _ => rfl) fun _ => rfl
  | 2, h, _ | 20, h, _ | 24, h, _ | 28, h, _ | 29, h, _ =>
    exact IW.reads hw hz h (fun _ => rfl) fun _ => rfl
  | 30, h, _ =>
    exact MW.reads hw hz h (fun _ => rfl) fun _ => rfl
  | 25, h, _ =>
    exact BW.reads hw hz h (fun _ => rfl) fun _ => rfl
  | n + 32, h, _ => cases h

theorem decodeControl_reads {o : Nat} (h : decodeControl w o = some i) : Reads w (32 + o) i := by
  match o, h with
  | 2, h | 4, h | 21, h | 22, h | 26, h | 27, h =>
    exact SW.reads hw hz h (fun _ => rfl) fun _ => rfl
  | 7, h | 10, h | 11, h | 15, h | 17, h | 18, h | 30, h =>
    exact IW.reads hw hz h (fun _ => rfl) fun _ => rfl
  | 25, h =>
    exact MW.reads hw hz h (fun _ => rfl) fun _ => rfl
  | 1, h | 3, h | 6, h | 13, h | 29, h =>
    exact BW.reads hw hz h (fun _ => rfl) fun _ => rfl
  | 0, h | 5, h | 8, h | 9, h | 14, h | 16, h | 23, h | 28, h =>
    exact ZW.reads hw hz h (fun _ => rfl) fun _ => rfl
  | 19, h | 20, h | 24, h | 31, h =>
    exact YW.reads hw hz h (fun _ => rfl) fun _ => rfl
  | 12, h =>
    change (match bits w 48 2 with | 0 => _ | 1 => _ | 2 => _ | _ => _) = _ at h
    split at h
    · exact YW.reads hw hz h (fun _ => rfl) fun _ => rfl
    · exact YW.reads hw hz h (fun _ => rfl) fun _ => rfl
    · exact YW.reads hw hz h (fun _ => rfl) fun _ => rfl
    · cases h
  | n + 32, h => cases h

theorem decodeMemory_reads {o : Nat} (h : decodeMemory w o = some i) : Reads w (64 + o) i := by
  match o, h with
  | 30, h | 31, h =>
    exact SW.reads hw hz h (fun _ => rfl) fun _ => rfl
  | 9, h =>
    exact IW.reads hw hz h (fun _ => rfl) fun _ => rfl
  | 0, h | 1, h | 2, h | 3, h | 4, h | 5, h | 6, h | 8, h | 10, h | 11, h | 12, h | 13, h | 14, h | 15, h | 16, h | 17, h | 18, h | 19, h
    | 20, h | 21, h | 22, h | 23, h | 24, h | 25, h | 26, h | 27, h | 28, h | 29, h =>
    exact MW.reads hw hz h (fun _ => rfl) fun _ => rfl
  | 7, h =>
    exact ZW.reads hw hz h (fun _ => rfl) fun _ => rfl
  | n + 32, h => cases h

theorem decodeTask_reads {o : Nat} (h : decodeTask w o = some i) : Reads w (96 + o) i := by
  match o, h with
  | 5, h | 7, h | 9, h | 10, h | 14, h | 24, h | 26, h | 28, h | 29, h =>
    exact SW.reads hw hz h (fun _ => rfl) fun _ => rfl
  | 6, h | 11, h | 12, h | 13, h | 23, h | 25, h | 30, h =>
    exact IW.reads hw hz h (fun _ => rfl) fun _ => rfl
  | 0, h | 1, h | 2, h | 3, h | 4, h | 16, h | 17, h | 18, h | 19, h | 20, h | 21, h | 22, h | 27, h =>
    exact MW.reads hw hz h (fun _ => rfl) fun _ => rfl
  | 15, h | 31, h =>
    exact YW.reads hw hz h (fun _ => rfl) fun _ => rfl
  | 8, h =>
    change (if bitAt w 88 then _ else _) = _ at h
    split at h
    · exact MW.reads hw hz h (fun _ => rfl) fun _ => rfl
    · exact MW.reads hw hz h (fun _ => rfl) fun _ => rfl
  | n + 32, h => cases h

theorem decodeVector_reads {o : Nat} (h : decodeVector w o = some i) : Reads w (128 + o) i := by
  match o, h with
  | 2, h =>
    exact SW.reads hw hz h (fun _ => rfl) fun _ => rfl
  | 0, h =>
    exact IW.reads hw hz h (fun _ => rfl) fun _ => rfl
  | 1, h =>
    exact ZW.reads hw hz h (fun _ => rfl) fun _ => rfl
  | 3, h | 4, h | 5, h | 6, h | 7, h | 8, h | 9, h | 10, h | 11, h | 12, h | 13, h | 14, h | 15, h | 16, h | 17, h | 18, h | 19, h | 20, h
    | 21, h | 22, h | 23, h | 24, h | 25, h | 26, h | 27, h | 28, h | 29, h | 30, h | 31, h =>
    exact VW.reads hw hz h (fun _ => rfl) fun _ => rfl
  | n + 32, h => cases h

theorem decodeConversion_reads {o : Nat} (h : decodeConversion w o = some i) : Reads w (160 + o) i := by
  match o, h with
  | 0, h | 1, h | 2, h | 3, h | 4, h | 5, h | 6, h | 7, h | 8, h | 9, h | 10, h | 11, h | 12, h | 13, h | 14, h | 15, h | 16, h | 17, h |
    18, h | 19, h | 20, h | 21, h | 22, h | 24, h | 25, h | 26, h | 27, h | 28, h | 29, h | 30, h | 31, h =>
    exact VW.reads hw hz h (fun _ => rfl) fun _ => rfl
  | 23, h =>
    change (match bits w 73 4 with | 0 => _ | 1 => _ | 2 => _ | _ => _) = _ at h
    split at h
    · exact VW.reads hw hz h (fun _ => rfl) fun _ => rfl
    · exact VW.reads hw hz h (fun _ => rfl) fun _ => rfl
    · exact VW.reads hw hz h (fun _ => rfl) fun _ => rfl
    · cases h
  | n + 32, h => cases h

theorem decodeEngine_reads {o : Nat} (h : decodeEngine w o = some i) : Reads w (192 + o) i := by
  match o, h with
  | 0, h | 1, h | 2, h | 3, h | 4, h | 5, h | 6, h | 7, h | 8, h | 9, h | 10, h | 11, h | 12, h | 13, h | 14, h | 15, h | 16, h | 17, h |
    18, h | 19, h | 20, h | 21, h | 22, h | 23, h | 24, h | 25, h | 26, h | 27, h | 28, h | 29, h | 30, h =>
    exact JW.reads hw hz h (fun _ => rfl) fun _ => rfl
  | 31, h =>
    change (if bitAt w 81 then _ else _) = _ at h
    split at h
    · exact JW.reads hw hz h (fun _ => rfl) fun _ => rfl
    · exact JW.reads hw hz h (fun _ => rfl) fun _ => rfl
  | n + 32, h => cases h

theorem decodeSystem_reads {o : Nat} (h : decodeSystem w o = some i) : Reads w (224 + o) i := by
  match o, h with
  | 12, h =>
    exact SW.reads hw hz h (fun _ => rfl) fun _ => rfl
  | 10, h | 15, h =>
    exact IW.reads hw hz h (fun _ => rfl) fun _ => rfl
  | 0, h | 1, h | 2, h | 3, h | 4, h | 5, h | 6, h | 7, h | 8, h | 9, h | 11, h | 13, h | 14, h | 17, h | 18, h | 19, h | 24, h | 25, h |
    27, h | 29, h | 30, h =>
    exact MW.reads hw hz h (fun _ => rfl) fun _ => rfl
  | 16, h | 20, h | 21, h | 22, h | 23, h | 26, h | 28, h | 31, h =>
    exact YW.reads hw hz h (fun _ => rfl) fun _ => rfl
  | n + 32, h => cases h

theorem decodeOpcode_reads (h0 : op ≠ 0) (h : decodeOpcode w op = some i) : Reads w op i := by
  have split : op = 32 * (op / 32) + op % 32 := (Nat.div_add_mod op 32).symm
  rw [split]
  rw [split] at h0
  unfold decodeOpcode at h
  generalize op / 32 = g at *
  match g, h with
  | 0, h => exact (Nat.zero_add _).symm ▸ decodeScalar_reads hw hz (by omega) h
  | 1, h => exact decodeControl_reads hw hz h
  | 2, h => exact decodeMemory_reads hw hz h
  | 3, h => exact decodeTask_reads hw hz h
  | 4, h => exact decodeVector_reads hw hz h
  | 5, h => exact decodeConversion_reads hw hz h
  | 6, h => exact decodeEngine_reads hw hz h
  | 7, h => exact decodeSystem_reads hw hz h
  | _ + 8, h => cases h

end

theorem decode_wf {w : Nat} {i : Instr} (h : decode w = some i) : decodeFields w = some i ∧ i.wf = true := by
  unfold decode at h
  split at h
  · split at h
    · cases h
      exact ⟨‹_›, ‹_›⟩
    · cases h
  · cases h

theorem decodeFields_ill {w : Nat} {i : Instr} (h0 : bits w 0 8 = 0) (h : decodeFields w = some i) : i = .ill := by
  unfold decodeFields at h
  rw [if_pos h0] at h
  cases h
  rfl

theorem decodeFields_clear {w : Nat} {i : Instr} (h0 : bits w 0 8 ≠ 0) (h : decodeFields w = some i) : bits w 46 2 = 0 := by
  unfold decodeFields at h
  rw [if_neg h0] at h
  by_contra hz
  rw [if_pos hz] at h
  cases h

/-- Settles O3: what decodes has passed the legality check, and its opcode and fields are those of the word. -/
theorem encodeDecodeAgree : Obligations.EncodeDecodeAgree := by
  intro w i hw h
  obtain ⟨h, wf⟩ := decode_wf h
  refine ⟨wf, fun ill => ?_⟩
  have h0 : bits w 0 8 ≠ 0 := fun h0 => ill (decodeFields_ill h0 h)
  have hz := decodeFields_clear h0 h
  obtain ⟨op, fields⟩ := decodeOpcode_reads hw hz h0 (decodeFields_eq h0 hz ▸ h)
  unfold encode
  rw [op, fields]
  unfold bits
  omega

/-- Settles O1: the decoder runs on each of the words. -/
theorem specWordsDecode : Obligations.SpecWordsDecode := by
  unfold Obligations.SpecWordsDecode
  decide

end Sys2Proof
end

section
/-! PROOFS. Flash keeps its form over every step (R363, R367). Words and most events leave flash alone (`run_boot`); what start-up, the
firmware commands, attestation and a loss of power leave in it is stated once each. -/
namespace Sys2Proof.Claim
open Machine

/-! ## The form of flash, and what keeps it -/

/-- Entries of a boot record, each with an outcome that R363 names. -/
def RecordOk (r : List Nat) : Prop := r.length = 10 ∧ ∀ e ∈ r, e % 8 ≤ 5

theorem flashInv_iff (s : State) : FlashInv s ↔ RecordOk s.boot.record ∧ s.boot.sigIndex ≤ 2 ^ 40 := and_assoc.symm

/-- The boot record keeps its form, and the signature index stays. -/
structure KeepsIndex (b c : Boot) : Prop where
  record : RecordOk b.record → RecordOk c.record
  index : c.sigIndex = b.sigIndex

/-- The boot record keeps its form, and the signature index stays or moves on by one below its limit. -/
structure KeepsForm (b c : Boot) : Prop where
  record : RecordOk b.record → RecordOk c.record
  index : c.sigIndex = b.sigIndex ∨ b.sigIndex < 2 ^ 40 ∧ c.sigIndex = b.sigIndex + 1

theorem KeepsIndex.of_eq {b c : Boot} (h : c = b) : KeepsIndex b c := ⟨h ▸ id, h ▸ rfl⟩
theorem KeepsIndex.of_fields {b c : Boot} (hr : c.record = b.record) (hi : c.sigIndex = b.sigIndex) : KeepsIndex b c := ⟨hr ▸ id, hi⟩
theorem KeepsIndex.trans {a b c : Boot} (h : KeepsIndex a b) (g : KeepsIndex b c) : KeepsIndex a c :=
  ⟨g.record ∘ h.record, g.index.trans h.index⟩
theorem KeepsIndex.ite {b : Boot} {c : Prop} [Decidable c] {s t : State} (hs : KeepsIndex b s.boot) (ht : KeepsIndex b t.boot) :
    KeepsIndex b (if c then s else t).boot := by
  split <;> assumption
theorem KeepsIndex.form {b c : Boot} (h : KeepsIndex b c) : KeepsForm b c := ⟨h.record, .inl h.index⟩
theorem KeepsForm.after_index {a b c : Boot} (h : KeepsIndex a b) (g : KeepsForm b c) : KeepsForm a c :=
  ⟨g.record ∘ h.record, h.index ▸ g.index⟩

theorem KeepsForm.flashInv {s t : State} (h : KeepsForm s.boot t.boot) (hs : FlashInv s) :
    FlashInv t ∧ s.boot.sigIndex ≤ t.boot.sigIndex ∧ t.boot.sigIndex ≤ s.boot.sigIndex + 1 := by
  obtain ⟨record, index⟩ := (flashInv_iff s).1 hs
  rw [flashInv_iff]
  refine ⟨⟨h.record record, ?_⟩, ?_⟩ <;> rcases h.index with h | h <;> omega

/-! ## Boot records -/

theorem RecordOk.set {r : List Nat} (h : RecordOk r) (i : Nat) {e : Nat} (he : e % 8 ≤ 5) : RecordOk (r.set i e) := by
  obtain ⟨len, outs⟩ := h
  refine ⟨by rw [List.length_set, len], fun x hx => ?_⟩
  rcases List.mem_or_eq_of_mem_set hx with hx | rfl
  · exact outs x hx
  · exact he

theorem recordOk_clear : RecordOk (List.replicate 10 0) := by unfold RecordOk; decide

theorem bootTry_mod (old : Nat) : bootTry old % 8 = 1 := by unfold bootTry; omega

theorem bootEnd_mod (old out det : Nat) : bootEnd old out det % 8 = out % 8 := by unfold bootEnd; omega

theorem attemptOut_le (s : State) (rep : StartReport) (i : Nat) (alt : Bool) : attemptOut s rep i alt ≤ 5 := by
  unfold attemptOut
  split_ifs <;> omega

theorem RecordOk.clearAttempts {r : List Nat} (h : RecordOk r) : RecordOk (r.map (fun e => e - bits e 8 8 * 2 ^ 8)) := by
  obtain ⟨len, outs⟩ := h
  refine ⟨by rw [List.length_map, len], fun x hx => ?_⟩
  obtain ⟨e, he, rfl⟩ := List.mem_map.1 hx
  have := outs e he
  unfold bits
  omega

/-! ## Start-up -/

theorem beginBoot_keeps {b : Boot} (i : Nat) {s : State} (h : KeepsIndex b s.boot) : KeepsIndex b (beginBoot i s).boot := by
  refine h.trans ⟨fun h => h.set i ?_, rfl⟩
  split
  · rw [bootEnd_mod]
  · rw [bootTry_mod]; decide

/-- Every way that an attempt ends leaves the record with the outcome of the attempt, and then that of the next step's beginning. -/
theorem endBoot_keeps (i : Nat) (alt : Bool) (rep : StartReport) (s : State) : KeepsIndex s.boot (endBoot i alt rep s).boot := by
  have written : ∀ mask, RecordOk s.boot.record → RecordOk (if bootOut s.boot.record i = 5 then s.boot.record
      else s.boot.record.set i (bootEnd (s.boot.record.getD i 0) (attemptOut s rep i alt) mask)) := by
    intro mask h
    split
    · exact h
    · refine h.set i ?_
      rw [bootEnd_mod]
      exact (Nat.mod_le _ _).trans (attemptOut_le s rep i alt)
  unfold endBoot
  dsimp only
  exact .ite ⟨written _, rfl⟩ (.ite ⟨written _, rfl⟩ (.ite ⟨written _, rfl⟩ (beginBoot_keeps (i + 1) ⟨written _, rfl⟩)))

theorem powerOn_keeps {rep : StartReport} {s t : State} (h : exec (.powerOn rep) s = .next t) : KeepsIndex s.boot t.boot := by
  change execPowerOn rep s = _ at h
  unfold execPowerOn at h
  split at h
  · cases h
  · split at h
    · split at h <;> cases h
      exact endBoot_keeps ..
    · split at h <;> cases h
      exact beginBoot_keeps 0 (s := { s with boot := { s.boot with flash := rep.flash } }) (.of_fields rfl rfl)

theorem fullService_keeps {s t : State} (h : exec .fullService s = .next t) : KeepsIndex s.boot t.boot := by
  change execFullService s = _ at h
  unfold execFullService at h
  dsimp only at h
  split at h <;> cases h
  have passed : RecordOk s.boot.record → RecordOk (s.boot.record.set 9 (bootEnd (s.boot.record.getD 9 0) 2 0)) :=
    fun h => h.set 9 (by rw [bootEnd_mod]; decide)
  refine ⟨fun h => ?_, rfl⟩
  dsimp only
  split
  · exact (passed h).clearAttempts
  · exact passed h

/-! ## Firmware and attestation -/

/-- What a flash command whose body keeps flash's form keeps. -/
theorem flashCommand_keeps {r : Bool} {body : State → State} {s t : State} (hb : KeepsForm s.boot (body s).boot)
    (h : flashCommand r body s = .next t) : KeepsForm s.boot t.boot := by
  unfold flashCommand at h
  split at h
  · cases h
  · split at h
    · cases h
      exact (KeepsIndex.of_eq rfl).form
    · split at h <;> cases h
      · exact (KeepsIndex.of_eq rfl).form
      · exact hb

theorem fwstage_keeps {s t : State} (h : exec .fwstage s = .next t) : KeepsForm s.boot t.boot := by
  change execFwstage s = _ at h
  unfold execFwstage at h
  refine flashCommand_keeps (KeepsIndex.form ?_) h
  exact .ite (.of_eq rfl) (.ite (.of_eq rfl) (.ite (.of_fields rfl rfl) (.of_fields rfl rfl)))

theorem fwcommit_keeps {s t : State} (h : exec .fwcommit s = .next t) : KeepsForm s.boot t.boot := by
  change execFwcommit s = _ at h
  unfold execFwcommit at h
  refine flashCommand_keeps (KeepsIndex.form ?_) h
  split
  · exact ⟨fun _ => recordOk_clear, rfl⟩
  · split
    · exact .of_eq rfl
    · exact .of_fields rfl rfl

theorem attest_keeps {s t : State} (h : exec .attest s = .next t) : KeepsForm s.boot t.boot := by
  change execAttest s = _ at h
  unfold execAttest at h
  refine flashCommand_keeps ?_ h
  dsimp only
  split
  · exact (KeepsIndex.of_eq rfl).form
  · split
    · exact (KeepsIndex.of_eq rfl).form
    · split
      · exact (KeepsIndex.of_eq rfl).form
      · split
        · exact ⟨id, .inl rfl⟩
        · exact ⟨id, .inr ⟨Nat.lt_of_not_le ‹_›, rfl⟩⟩

/-! ## Loss of power, and the time that a commit takes -/

theorem powerLoss_keeps {cause : PowerCause} {s t : State} (h : exec (.powerLoss cause) s = .next t) : KeepsIndex s.boot t.boot := by
  change execPowerLoss cause s = _ at h
  unfold execPowerLoss at h
  split at h <;> cases h
  exact .of_fields rfl rfl

theorem thermalEvent_keeps {die temp inlet : Nat} {s t : State} (h : exec (.thermalEvent die temp inlet) s = .next t) :
    KeepsIndex s.boot t.boot := by
  change execThermalEvent die temp inlet s = _ at h
  unfold execThermalEvent at h
  split at h
  · cases h
  · split at h <;> cases h <;> exact .of_fields rfl rfl

theorem unknownCommand_keeps {code : Nat} {s t : State} (h : exec (.unknownCommand code) s = .next t) : KeepsIndex s.boot t.boot := by
  change execUnknownCommand code s = _ at h
  unfold execUnknownCommand at h
  split at h
  · cases h
  · split at h <;> cases h <;> exact .of_eq rfl

theorem destroy_keeps {s t : State} (h : exec .destroy s = .next t) : KeepsIndex s.boot t.boot := by
  change execDestroy s = _ at h
  unfold execDestroy at h
  split at h
  · cases h
  · exact .of_eq (command_boot h)

theorem passCycles_keeps (n : Nat) (s : State) : KeepsIndex s.boot (passCycles n s).boot := by
  change KeepsIndex s.boot (finishCommit s).boot
  unfold finishCommit
  split
  · exact .of_fields rfl rfl
  · exact .of_eq rfl

theorem advanceClock_keeps (ns : Nat) (s : State) : KeepsIndex s.boot (advanceClock ns s).boot := passCycles_keeps _ s

/-! ## Every step -/

/-- An instruction that is a run of the machine leaves flash alone. -/
theorem exec_keeps_of_run {i : Instr} {x : M Unit} {s t : State} (hi : exec i s = run x s) (h : exec i s = .next t) : KeepsForm s.boot t.boot :=
  (KeepsIndex.of_eq (run_boot (hi ▸ h))).form

theorem exec_keeps {i : Instr} {s t : State} (h : exec i s = .next t) : KeepsForm s.boot t.boot := by
  cases i
  case ill =>
    change execIll s = _ at h
    exact (KeepsIndex.of_eq (run_boot h)).form
  case powerOn => exact (powerOn_keeps h).form
  case fullService => exact (fullService_keeps h).form
  case fwstage => exact fwstage_keeps h
  case fwcommit => exact fwcommit_keeps h
  case attest => exact attest_keeps h
  case powerLoss => exact (powerLoss_keeps h).form
  case thermalEvent => exact (thermalEvent_keeps h).form
  case unknownCommand => exact (unknownCommand_keeps h).form
  case destroy => exact (destroy_keeps h).form
  all_goals exact exec_keeps_of_run rfl h

theorem execNext_keeps {k : Nat} {s t : State} (h : execNext k s = .next t) : KeepsForm s.boot t.boot := by
  unfold execNext at h
  dsimp only at h
  split at h
  · unfold execWord at h
    dsimp only at h
    split at h
    · exact (KeepsIndex.of_eq (run_boot h)).form
    · split at h
      · have kept := exec_keeps h
        exact kept
      · exact (KeepsIndex.of_eq (run_boot h)).form
  · rename_i e _
    exact (KeepsIndex.of_eq (run_boot (x := fun _ => .error e) (s := { s with m := { s.m with cur := k } }) h)).form

theorem ageOthers_boot (k : Nat) (s t : State) : (ageOthers k s t).boot = t.boot := by
  unfold ageOthers
  split <;> rfl

theorem slotStep_keeps {k : Nat} {s t : State} (h : slotStep k s = .next t) : KeepsForm s.boot t.boot := by
  unfold slotStep at h
  split at h
  · cases h
  · split at h
    · cases h
      exact (KeepsIndex.of_eq rfl).form
    · unfold aged at h
      split at h <;> cases h
      rw [ageOthers_boot]
      exact execNext_keeps ‹_›

theorem firstEnabled_keeps {s t : State} : ∀ {l : List Instr}, firstEnabled s l = some t → KeepsForm s.boot t.boot
  | i :: l, h => by
    unfold firstEnabled at h
    split at h
    · cases h
      exact exec_keeps ‹_›
    · exact firstEnabled_keeps h

theorem defaultStep_keeps {s t : State} (h : defaultStep s = .next t) : KeepsForm s.boot t.boot := by
  unfold defaultStep at h
  dsimp only at h
  split at h
  · exact exec_keeps h
  · split at h
    · exact exec_keeps h
    · split at h
      · cases h
        exact firstEnabled_keeps ‹_›
      · split at h
        · exact .after_index (passCycles_keeps 1 s) (slotStep_keeps h)
        · cases h
          exact (advanceClock_keeps _ s).form

theorem step_keeps {s t : State} (h : step s = .next t) : KeepsForm s.boot t.boot := by
  unfold step nextStep at h
  split at h
  · have kept := slotStep_keeps h
    exact kept
  · have kept := exec_keeps h
    exact kept
  · cases h
    rename_i ns l _
    exact (advanceClock_keeps ns { s with m := { s.m with agenda := l } }).form
  · exact defaultStep_keeps h

/-- Settles O59: of all steps only start-up, the firmware commands and attestation write flash, and each keeps its form. -/
theorem flashKeepsItsForm : Obligations.FlashKeepsItsForm := fun _ _ hs h => (step_keeps h).flashInv hs

/-! ## Reset -/

/-- Settles O58: the boot record at reset lists ten steps that no start has reached, and no report has been signed. -/
theorem flashAtReset : Obligations.FlashAtReset := (flashInv_iff _).2 ⟨recordOk_clear, Nat.zero_le _⟩

/-- Settles O57. -/
theorem resetValues : Obligations.ResetValues := ⟨rfl, rfl, rfl, rfl, rfl, rfl, rfl, rfl, rfl⟩

end Sys2Proof.Claim
end

section
/-! PROOFS. Words whose guard does not hold (R13), retirement and fixed-latency results (R19), scalar results and their frame (R57, R58). -/
namespace Sys2Proof.Claim
open Machine

/-! ## A guard that does not hold (R13) -/

/-- Nothing holds the word, and its guard does not pass. -/
structure Off (h : Hdr) (s : State) : Prop where
  landed : s.m.sl.il = []
  due : s.m.sl.schk = true → ∀ p ∈ (sl s).pw, p.due ≤ s.m.sl.n
  guard : ((sl s).q h.g.toNat == h.gn) = true

theorem issue_off {h : Hdr} {a b : BitVec 8} {use : Slot → Use} {body : M (Option Nat)} {s : State} (o : Off h s) :
    issue h a b use body s.m = .ok ((), (after h none id s).m) := by
  have passes : (sl s).guardStop h = none := Slot.guardStop_none (s := sl s) o.landed o.due
  have at0 : s.m.updSlot s.m.cur Slot.atIssue = issued s := rfl
  simp only [issue, bind_apply, changeMine_apply, at0, mine_apply, issued_sl, id, passes, stopIf_none, o.guard, if_true, change_apply, after]

theorem exec_off {i : Instr} {h : Hdr} {a b : BitVec 8} {use : Slot → Use} {body : M (Option Nat)} {s : State} (o : Off h s)
    (hi : exec i s = run (issue h a b use body) s) : exec i s = .next (after h none id s) := hi.trans (run_ok (issue_off o))

theorem Alone.retired {h : Hdr} {s : State} (alone : Alone s) : ((after h none id s).m.slot s.m.cur).comet = none := by
  have comet : (issued s).sl.comet = none := by rw [issued_sl]; exact alone.comet
  show ((retire h none (issued s)).slot (issued s).cur).comet = none
  rw [retire_alone comet, Mach.slot_dev, Mach.slot_setSlot_self, Slot.advance_comet, Slot.counted_comet, comet]

theorem exec_cometLead_off {x : YW} {s : State} (o : Off x.h s) (alone : Alone s) : exec (.cometLead x) s = .next (after x.h none id s) := by
  change execCometLead x s = _
  unfold execCometLead
  apply run_ok
  simp only [bind_apply, look_apply, issue_off o, change_apply, alone.retired]
  rfl

theorem exec_cometJoin_off {x : YW} {s : State} (o : Off x.h s) (alone : Alone s) : exec (.cometJoin x) s = .next (after x.h none id s) := by
  change execCometJoin x s = _
  unfold execCometJoin
  apply run_ok
  simp only [bind_apply, look_apply, issue_off o, change_apply, alone.retired, ite_self]
  rfl

theorem exec_cometEnd_off {x : YW} {s : State} (o : Off x.h s) (alone : Alone s) : exec (.cometEnd x) s = .next (after x.h none id s) := by
  change execCometEnd x s = _
  unfold execCometEnd
  apply run_ok
  simp only [bind_apply, look_apply, issue_off o, change_apply, alone.retired]
  rfl

theorem exec_rejoin_off {x : ZW} {s : State} (o : Off x.h s) (alone : Alone s) : exec (.rejoin x) s = .next (after x.h none id s) := by
  change execRejoin x s = _
  unfold execRejoin
  apply run_ok
  simp only [bind_apply, look_apply, issue_off o, change_apply, alone.retired]
  rfl

theorem exec_spawn_off {x : MW} {s : State} (o : Off x.h s) : exec (.spawn x) s = .next (after x.h none id s) := by
  change execSpawn x s = _
  unfold execSpawn
  apply run_ok
  simp only [bind_apply, mine_apply, issue_off o]
  rfl

/-- Settles O5: every word is issued by `issue`, which retires it when its guard does not pass; a slot outside comets has nothing to do
behind that. -/
theorem guardedOffOnlyRetires : Obligations.GuardedOffOnlyRetires := by
  intro i h s hh landed due guard alone _
  have o : Off h s := ⟨landed, due, guard⟩
  cases i <;> cases hh
  case cometLead => exact exec_cometLead_off o alone
  case cometJoin => exact exec_cometJoin_off o alone
  case cometEnd => exact exec_cometEnd_off o alone
  case rejoin => exact exec_rejoin_off o alone
  case spawn => exact exec_spawn_off o
  all_goals exact exec_off o rfl

/-! ## Fixed-latency results (R19) -/

/-- The last pending write readable at `n` to a register byte. -/
def pendingAt (n a : Nat) (pw : List Pend) : Option Nat :=
  pw.foldl (fun r p => if p.due ≤ n then (latest p.cells a).orElse (fun _ => r) else r) none

theorem byteAt_eq (x : Slot) (n a : Nat) : x.byteAt n a = ((pendingAt n a x.pw).map (· % 256)).getD (x.rf.rd a) := by
  unfold Slot.byteAt pendingAt
  split <;> simp_all

theorem byteAt_congr {x y : Slot} (hp : x.pw = y.pw) (hr : x.rf = y.rf) (n a : Nat) : x.byteAt n a = y.byteAt n a := by
  rw [byteAt_eq, byteAt_eq, hp, hr]

theorem pendingAt_cons (n a : Nat) (p : Pend) (pw : List Pend) :
    pendingAt n a (p :: pw) = (pendingAt n a pw).orElse (fun _ => if p.due ≤ n then latest p.cells a else none) := by
  unfold pendingAt
  rw [List.foldl_cons, pending_foldl]
  split <;> simp

theorem pendingAt_append (n a : Nat) (pw : List Pend) (p : Pend) :
    pendingAt n a (pw ++ [p]) = if p.due ≤ n then (latest p.cells a).orElse (fun _ => pendingAt n a pw) else pendingAt n a pw := by
  unfold pendingAt
  rw [List.foldl_append]
  rfl

theorem fixedResultReadableWhenDue : Claim.FixedResultReadableWhenDue := by
  intro x lat n a cells
  unfold Slot.pend
  dsimp only
  split
  next none =>
    rw [List.isEmpty_iff.1 none]
    simp [latest]
  next =>
    rw [Slot.note_byteAt, byteAt_eq, byteAt_eq]
    dsimp only
    rw [pendingAt_append]
    split
    · cases latest (keepCells cells) a <;> simp
    · rfl

/-- Writes that land leave what a word at their count or a later one reads. -/
theorem landOldest_reads {k n : Nat} (h : k ≤ n) (a : Nat) : ∀ (pw : List Pend) (rf : Mem),
    ((pendingAt n a (landOldest k pw rf).1).map (· % 256)).getD ((landOldest k pw rf).2.rd a)
      = ((pendingAt n a pw).map (· % 256)).getD (rf.rd a)
  | [], rf => rfl
  | p :: pw, rf => by
    unfold landOldest
    split
    next due =>
      rw [landOldest_reads h a pw, Mem.rd_wrAll_latest, pendingAt_cons, if_pos (due.trans h)]
      cases pendingAt n a pw <;> simp
    next => rfl

theorem dueResultsLand : Claim.DueResultsLand := by
  intro x n a h
  rw [byteAt_eq, byteAt_eq]
  exact landOldest_reads h a x.pw x.rf

/-! ## Retirement (R19, R67, R69) -/

theorem counted_eq (x : Slot) (h : Hdr) (rr : Nat) : x.counted h rr =
    { x.boundary with n := x.n + h.sc.toNat + 1, cycles := x.cycles + 1, look := [], age := 0, boost := 0, stamp := rr,
                      pmc := (x.counted h rr).pmc } := rfl

theorem Slot.repeats_of_ne {x : Slot} {r : Rep} (hr : x.rep = some r) (hp : x.pc ≠ nextPc r.pc) : x.repeats = none := by
  unfold Slot.repeats
  rw [hr]
  exact if_neg (by simpa using hp)

theorem Slot.repeats_of_eq {x : Slot} {r : Rep} (hr : x.rep = some r) (hp : x.pc = nextPc r.pc) : x.repeats = some r := by
  unfold Slot.repeats
  rw [hr]
  exact if_pos (by simpa using hp)

theorem Slot.advance_of_repeats_none {x : Slot} (h : x.repeats = none) (tgt : Option Nat) :
    x.advance tgt = { x with pc := pcBits (tgt.getD (nextPc x.pc)) } := by
  unfold Slot.advance
  rw [h]

theorem retirementAdvances : Claim.RetirementAdvances := by
  intro h tgt m comet
  have rep : (m.sl.counted h m.dev.rr).rep = m.sl.rep := Slot.counted_rep ..
  have pc : (m.sl.counted h m.dev.rr).pc = m.sl.pc := Slot.counted_pc ..
  have moves : (m.sl.counted h m.dev.rr).repeats = none →
      retire h tgt m = { m.setSlot m.cur { m.sl.counted h m.dev.rr with pc := pcBits (tgt.getD (nextPc m.sl.pc)) } with
        dev := { m.dev with rr := m.dev.rr + 1 } } := fun none => by
    rw [retire_alone comet, Slot.advance_of_repeats_none none, pc]
  refine ⟨counted_eq .., fun none => moves (Slot.repeats_none (rep.trans none)),
    fun r hr hp => moves (Slot.repeats_of_ne (rep.trans hr) (by rwa [pc])), fun r hr hp => ?_⟩
  rw [retire_alone comet]
  unfold Slot.advance
  rw [Slot.repeats_of_eq (rep.trans hr) (pc.trans hp)]
  dsimp only [Slot.repUpdate]
  simp only [Slot.pendNow_pc, pc]

/-- Settles O6. -/
theorem retirementAndFixedResults : Obligations.RetirementAndFixedResults :=
  ⟨retirementAdvances, fixedResultReadableWhenDue, dueResultsLand⟩

/-! ## Scalar instructions with two sources (R57, R58) -/

theorem run_scalar2 {x : SW} {s : State} {lat : Nat} {sat : Bool} {f : Nat → Nat → Int} (r : Ready x.h s) (ha : IsReg x.a s) (hb : IsReg x.b s)
    (hd : IsReg x.d s) :
    run (scalar2 x lat sat f) s = .next (after x.h none (fixed lat (gCells (gNo x.d) (Ty.result x.ty sat (f (val x.a s) (val x.b s))))) s) :=
  run_issue_after r ha hb (allowed_of_regs (by simp [ha, hb, hd])) (by
    simp only [bind_apply, rdG_val ha, rdG_val hb, wrG_issued hd, pure_apply])

/-- Settles O7: each is `scalar2` of its operation; AND, OR and the others that cannot saturate wrap their value. -/
theorem scalarBinaryResults : Obligations.ScalarBinaryResults := by
  unfold Obligations.ScalarBinaryResults scalarBinary
  simp only [List.forall_mem_cons]
  refine ⟨?_, ?_, ?_, ?_, ?_, ?_, ?_, ?_, ?_, ?_, ?_, ?_, ?_, ?_, nofun⟩ <;> exact fun x s r ha hb hd => run_scalar2 r ha hb hd

end Sys2Proof.Claim
end

section
/-! PROOFS. The frame of scalar words (R13, R19): a retirement outside comets changes its slot and the round-robin count alone, and a result
in registers no byte but its own. -/
namespace Sys2Proof.Claim
open Machine

/-! ## What a retirement outside comets leaves -/

section
variable {h : Hdr} {tgt : Option Nat} {m : Mach} (comet : m.sl.comet = none)
include comet

theorem retire_machine : retire h tgt m = { m with slots := (retire h tgt m).slots, dev := { m.dev with rr := m.dev.rr + 1 } } := by
  rw [retire_alone comet]
  rfl

theorem retire_others {k : Nat} (hk : k ≠ m.cur) : (retire h tgt m).slot k = m.slot k := by
  rw [retire_alone comet, Mach.slot_dev, Mach.slot_setSlot_of_ne _ _ hk]

theorem retire_slot (rep : m.sl.rep = none) :
    (retire h tgt m).sl = { m.sl.counted h m.dev.rr with pc := pcBits (tgt.getD (nextPc m.sl.pc)) } := by
  have counted : (m.sl.counted h m.dev.rr).rep = none := (Slot.counted_rep ..).trans rep
  rw [retire_alone comet, Slot.advance_none counted, Slot.counted_pc]
  exact Mach.slot_setSlot_self ..

end

/-! ## The slot of a word that writes registers -/

/-- `y` differs from `x` in no more than registers, pending writes, the handler's record and waits. -/
def SameButRegisters (x y : Slot) : Prop :=
  y = { x with rf := y.rf, pw := y.pw, il := y.il, written := y.written, wait := y.wait, look := y.look, parked := y.parked }

theorem SameButRegisters.boundary {x y : Slot} (h : SameButRegisters x y) : y.boundary =
    { x.boundary with rf := y.rf, pw := y.pw, il := y.il, written := y.written, wait := y.wait, look := y.look, parked := y.parked } := by
  rw [h]
  unfold Slot.boundary
  dsimp only
  split <;> rfl

theorem sameButRegisters_sl (s : State) : SameButRegisters s.m.sl (sl s) := rfl

theorem SameButRegisters.note {x y : Slot} (h : SameButRegisters x y) (l : List Nat) : SameButRegisters x (y.note l) := by
  unfold SameButRegisters Slot.note
  split <;> rw [h]

theorem SameButRegisters.pend {x y : Slot} (h : SameButRegisters x y) (lat : Nat) (cells : List (Nat × Nat)) :
    SameButRegisters x (y.pend lat cells) := by
  unfold SameButRegisters
  rw [Slot.pend_eq, h]

@[simp] theorem fixed_sl (lat : Nat) (cells : List (Nat × Nat)) (m : Mach) : (fixed lat cells m).sl = m.sl.pend lat cells :=
  Mach.slot_updSlot_self ..

/-- The slot after a word outside comets whose effect leaves it as it was but for registers. -/
theorem after_slot {h : Hdr} {f : Mach → Mach} {s : State} (alone : Alone s) (same : SameButRegisters s.m.sl (f (issued s)).sl) :
    (after h none f s).m.sl = { s.m.sl.boundary with
      rf := (after h none f s).m.sl.rf, pw := (after h none f s).m.sl.pw, il := (f (issued s)).sl.il, pc := (after h none f s).m.sl.pc
      n := (after h none f s).m.sl.n, cycles := (after h none f s).m.sl.cycles, pmc := (after h none f s).m.sl.pmc
      written := (after h none f s).m.sl.written, wait := (f (issued s)).sl.wait, look := [], parked := (f (issued s)).sl.parked
      age := 0, boost := 0, stamp := (f (issued s)).dev.rr } := by
  have retired : (after h none f s).m.sl = _ :=
    retire_slot (by rw [same]; exact alone.comet) (by rw [same]; exact alone.rep)
  have counted := counted_eq (f (issued s)).sl h (f (issued s)).dev.rr
  rw [same.boundary] at counted
  rw [retired, counted]

theorem onlyRegisters_fixed {h : Hdr} {lat : Nat} {cells : List (Nat × Nat)} {s : State} (alone : Alone s) :
    OnlyRegisters s (after h none (fixed lat cells) s) := by
  have same : SameButRegisters s.m.sl (fixed lat cells (issued s)).sl := by
    rw [fixed_sl, issued_sl]
    exact (sameButRegisters_sl s).pend lat cells
  have comet : (fixed lat cells (issued s)).sl.comet = none := by rw [same]; exact alone.comet
  refine ⟨rfl, retire_machine comet, fun k hk => ?_, (after_slot alone same).trans ?_⟩
  · exact (retire_others comet hk).trans ((Mach.slot_updSlot_of_ne _ _ hk).trans (Mach.slot_updSlot_of_ne _ _ hk))
  · have il : (fixed lat cells (issued s)).sl.il = (after h none (fixed lat cells) s).m.sl.il := by
      rw [congrArg Slot.il (after_slot alone same)]
    have still : (fixed lat cells (issued s)).sl.il = s.m.sl.boundary.il := by
      rw [fixed_sl, issued_sl, Slot.pend_eq, Slot.boundary_il]; rfl
    have waits : (fixed lat cells (issued s)).sl.wait = none ∧ (fixed lat cells (issued s)).sl.parked = false := by
      rw [fixed_sl, issued_sl, Slot.pend_eq]; exact ⟨rfl, rfl⟩
    rw [still, waits.1, waits.2]
    rfl

/-! ## Interlocked results (R12, R21) -/

theorem note_eq (y : Slot) (il : List Land) (l : List Nat) :
    Slot.note { y with il := il } l = { y with il := il, written := (y.note l).written } := by
  unfold Slot.note
  dsimp only
  split <;> rfl

/-- What a result that lands later leaves of the slot: a pending write of the bytes that are kept, if there are any. -/
theorem lands_ready (cells : List (Nat × Nat)) (m : Mach) : lands .ready (known cells) m = ({ m with nextId := m.nextId + 1 } : Mach) ∨
    ∃ kept ⊆ known cells, lands .ready (known cells) m = ({ m with nextId := m.nextId + 1 } : Mach).updSlot m.cur (fun y =>
      Slot.note { y with il := y.il ++ [⟨m.nextId, kept, .ready, 0, none⟩] } (kept.map (·.1))) := by
  exact (ite_eq_or_eq ..).imp_right fun h => ⟨_, fun _ => List.mem_of_mem_filter, h⟩

theorem lands_ready_machine (cells : List (Nat × Nat)) (m : Mach) : lands .ready (known cells) m =
    { m with slots := (lands .ready (known cells) m).slots, nextId := m.nextId + 1 } := by
  obtain h | ⟨_, _, h⟩ := lands_ready cells m
  · rw [h]
  · rw [h]; rfl

theorem lands_ready_others (cells : List (Nat × Nat)) (m : Mach) {k : Nat} (hk : k ≠ m.cur) :
    (lands .ready (known cells) m).slot k = m.slot k := by
  obtain h | ⟨_, _, h⟩ := lands_ready cells m <;> rw [h]
  · rfl
  · exact Mach.slot_updSlot_of_ne _ _ hk

/-- The slot has the result's bytes pending, or none, and everything but its handler's record as before. -/
theorem lands_ready_sl (cells : List (Nat × Nat)) (m : Mach) : ∃ il written, (lands .ready (known cells) m).sl = { m.sl with il := il, written := written } ∧
    ∀ l ∈ il, l ∈ m.sl.il ∨ l.cells ⊆ known cells := by
  obtain h | ⟨kept, sub, h⟩ := lands_ready cells m <;> rw [h]
  · exact ⟨m.sl.il, m.sl.written, rfl, fun l hl => .inl hl⟩
  · refine ⟨m.sl.il ++ [⟨m.nextId, kept, .ready, 0, none⟩], (m.sl.note (kept.map (·.1))).written, (Mach.slot_updSlot_self ..).trans ?_, ?_⟩
    · exact note_eq ..
    · intro l hl
      obtain old | rfl : l ∈ m.sl.il ∨ l = _ := by simpa using hl
      · exact .inl old
      · exact .inr sub

theorem slots_nextId_dev_eq {m n : Mach} {k : Nat} (h : m = { n with slots := m.slots, nextId := k }) {l : Tab Slot} {d : Dev} :
    { m with slots := l, dev := d } = { n with slots := l, nextId := k, dev := d } := by rw [h]

theorem onlyLands_lands {h : Hdr} {cells : List (Nat × Nat)} {places : List Rng} {s : State} (alone : Alone s) (landed : s.m.sl.il = [])
    (hc : ∀ c ∈ cells, inRng places c.1 = true) : OnlyLands places s (after h none (lands .ready (known cells)) s) := by
  obtain ⟨il, written, slot, pending⟩ := lands_ready_sl cells (issued s)
  rw [issued_sl] at slot pending
  have same : SameButRegisters s.m.sl (lands .ready (known cells) (issued s)).sl := by
    rw [SameButRegisters, slot]; rfl
  have comet : (lands .ready (known cells) (issued s)).sl.comet = none := by rw [same]; exact alone.comet
  have kept := lands_ready_machine cells (issued s)
  have cur : (lands .ready (known cells) (issued s)).cur = s.m.cur := by rw [kept]; rfl
  have dev : (lands .ready (known cells) (issued s)).dev = s.m.dev := by rw [kept]; rfl
  have left := after_slot (h := h) alone same
  rw [dev] at left
  have il_eq : (after h none (lands .ready (known cells)) s).m.sl.il = il := by rw [congrArg Slot.il left, slot]
  refine ⟨rfl, ?_, fun k hk => ?_, ?_, fun l hl c hcl => ?_⟩
  · have := retire_machine (h := h) (tgt := none) comet
    rw [dev] at this
    exact this.trans (slots_nextId_dev_eq kept)
  · refine (retire_others comet (cur.symm ▸ hk)).trans ((lands_ready_others cells (issued s) hk).trans (Mach.slot_updSlot_of_ne _ _ hk))
  · rw [left, slot]
    rfl
  · obtain old | new := pending l (il_eq ▸ hl)
    · simp [landed] at old
    · obtain ⟨c', hc', rfl⟩ := List.mem_map.1 (new hcl)
      exact hc c' hc'

/-! ## Register bytes -/

/-- What a word outside comets with the effect `f` leaves of its registers is what `f` leaves of them. -/
theorem after_byteAt {h : Hdr} {tgt : Option Nat} {f : Mach → Mach} {s : State} (comet : (f (issued s)).sl.comet = none)
    (rep : (f (issued s)).sl.rep = none) (n a : Nat) : (after h tgt f s).m.sl.byteAt n a = (f (issued s)).sl.byteAt n a := by
  have retired : (after h tgt f s).m.sl = _ := retire_slot comet rep
  rw [retired]
  exact byteAt_congr (by simp [Slot.counted]) (by simp [Slot.counted]) n a

theorem sl_byteAt {s : State} {n : Nat} (h : s.m.sl.n ≤ n) (a : Nat) : (sl s).byteAt n a = s.m.sl.byteAt n a :=
  (byteAt_congr rfl rfl n a).trans (dueResultsLand s.m.sl n a h)

theorem latest_keepCells_of_not_mem {cells : List (Nat × Nat)} {a : Nat} (h : ∀ c ∈ cells, c.1 ≠ a) : latest (keepCells cells) a = none :=
  latest_of_not_mem fun c hc => h c (List.mem_of_mem_filter hc)

theorem registersBut_fixed {h : Hdr} {lat : Nat} {cells : List (Nat × Nat)} {places : List Rng} {s : State} (alone : Alone s)
    (hc : ∀ c ∈ cells, inRng places c.1 = true) : RegistersBut places s (after h none (fixed lat cells) s) := by
  intro n a hn ha
  have slot : (fixed lat cells (issued s)).sl = (sl s).pend lat cells := by rw [fixed_sl, issued_sl]
  rw [after_byteAt (by rw [slot, Slot.pend_eq]; exact alone.comet) (by rw [slot, Slot.pend_eq]; exact alone.rep), slot,
    fixedResultReadableWhenDue, latest_keepCells_of_not_mem fun c hc' e => by simp [← e, hc c hc'] at ha]
  simp [sl_byteAt hn]

theorem cells_inRng {a n : Nat} {l : List Nat} (h : l.length = n) : ∀ c ∈ cellsAt a l, inRng [(a, n)] c.1 = true := by
  intro c hc
  have := mem_cellsAt hc
  simp only [inRng, List.any_cons, List.any_nil, Bool.or_false, Bool.and_eq_true, decide_eq_true_eq]
  omega

theorem gCells_inRng (k v : Nat) : ∀ c ∈ gCells k v, inRng [(8 * k, 8)] c.1 = true := cells_inRng (toLE_length 8 v)

theorem qCells_inRng (k : Nat) (b : Bool) : ∀ c ∈ qCells k b, inRng [(predPlace k, 1)] c.1 = true := by
  simp [qCells, inRng]

theorem registersBut_lands {h : Hdr} {cells : List (Nat × Nat)} {places : List Rng} {s : State} (alone : Alone s) :
    RegistersBut places s (after h none (lands .ready (known cells)) s) := by
  intro n a hn _
  obtain ⟨il, written, slot, -⟩ := lands_ready_sl cells (issued s)
  rw [issued_sl] at slot
  rw [after_byteAt (by rw [slot]; exact alone.comet) (by rw [slot]; exact alone.rep), slot, ← sl_byteAt hn]
  exact byteAt_congr rfl rfl n a

/-! ## The frame of scalar words (R57 to R61) -/

theorem scalar2_frame {x : SW} {s t : State} {lat : Nat} {sat : Bool} {f : Nat → Nat → Int} (r : Ready x.h s) (ha : IsReg x.a s)
    (hb : IsReg x.b s) (hd : IsReg x.d s) (alone : Alone s) (h : run (scalar2 x lat sat f) s = .next t) :
    OnlyRegisters s t ∧ RegistersBut [(8 * gNo x.d, 8)] s t := by
  rw [run_scalar2 r ha hb hd] at h
  cases h
  exact ⟨onlyRegisters_fixed alone, registersBut_fixed alone (gCells_inRng _ _)⟩

theorem cmp_frame {x : SW} {s t : State} (r : Ready x.h s) (ha : IsReg x.a s) (hb : IsReg x.b s) (alone : Alone s)
    (h : exec (.cmp x) s = .next t) : OnlyRegisters s t ∧ RegistersBut [(predPlace (qNo x.d), 1)] s t := by
  rw [exec_cmp r ha hb] at h
  cases h
  exact ⟨onlyRegisters_fixed alone, registersBut_fixed alone (qCells_inRng _ _)⟩

theorem divide_frame {x : SW} {s t : State} {f : Nat → Nat → Int} (r : Ready x.h s) (ha : IsReg x.a s) (hb : IsReg x.b s)
    (hd : IsReg x.d s) (alone : Alone s) (h : run (divide x f) s = .next t) :
    OnlyLands [(8 * gNo x.d, 8)] s t ∧ RegistersBut [(8 * gNo x.d, 8)] s t := by
  rw [run_divide f r ha hb hd] at h
  cases h
  exact ⟨onlyLands_lands alone r.landed (gCells_inRng _ _), registersBut_lands alone⟩

/-- Settles O9: a word of two g sources is `scalar2` of its operation, DIV and REM are `divide` of theirs. -/
theorem scalarFrame : Obligations.ScalarFrame := by
  refine ⟨?_, fun _ _ _ => cmp_frame, fun x s t r ha hb hd alone h => h.elim (divide_frame r ha hb hd alone) (divide_frame r ha hb hd alone)⟩
  unfold scalarBinary
  simp only [List.forall_mem_cons]
  refine ⟨?_, ?_, ?_, ?_, ?_, ?_, ?_, ?_, ?_, ?_, ?_, ?_, ?_, ?_, nofun⟩ <;>
    exact fun x s t r ha hb hd alone h => scalar2_frame r ha hb hd alone h

end Sys2Proof.Claim
end

section
/-! PROOFS. Branches, calls, LOOP and REP (R67 to R69). Each instruction has one lemma for each outcome of its execution. -/
namespace Sys2Proof.Claim
open Machine

/-! ## Words that end in a trap -/

/-- A word that nothing holds and whose body traps. -/
theorem run_issue_traps {h : Hdr} {a b : BitVec 8} {use : Slot → Use} {body : M (Option Nat)} {s : State} {c v : Nat} (r : Ready h s)
    (ha : IsReg a s) (hb : IsReg b s) (hu : Allowed (use (sl s)) s) (hf : body (issued s) = .error (.trap c v)) :
    run (issue h a b use body) s = .next { s with m := takeTrap s.m.cur c v s.m.sl.retAddr s.m } :=
  run_issue_trap r ha hb hu.handle hu.priv hu.det hu.regs hf

theorem trapIf_of_true {b : Bool} (h : b = true) (c v : Nat) (m : Mach) : trapIf b c v m = .error (.trap c v) := by rw [h]; rfl

/-! ## Branches and calls (R67) -/

theorem tgt_legal {a : Nat} (h4 : a % 4 = 0) (h56 : a < 2 ^ 56) (m : Mach) : tgt a m = .ok (a, m) := by
  have legal : (a % 4 != 0 || decide (2 ^ 56 ≤ a)) = false := by
    rw [h4, decide_eq_false (Nat.not_le.2 h56)]; rfl
  rw [tgt, bind_apply, trapIf_of legal]
  rfl

theorem tgt_bad {a : Nat} (h : a % 4 ≠ 0 ∨ 2 ^ 56 ≤ a) (m : Mach) : tgt a m = .error (.trap 0x09 0) := by
  have bad : (a % 4 != 0 || decide (2 ^ 56 ≤ a)) = true := by simpa using h
  rw [tgt, bind_apply, trapIf_of_true bad]

theorem link_issued (s : State) : link (issued s) = .ok ((), fixed 2 (gCells 55 (nextPc s.m.sl.pc)) (issued s)) := by
  simp only [link, bind_apply, mine_apply, id, issued_sl, sl_pc]
  rfl

theorem relTarget_sl (s : State) (off : BitVec 32) : relTarget (sl s) off = ofInt 56 ((s.m.sl.pc : Int) + 4 * sx 32 off.toNat) := rfl

theorem exec_nop {x : ZW} {s : State} (r : Ready x.h s) : exec (.nop x) s = .next (after x.h none id s) := run_plain r rfl

theorem exec_yield {x : ZW} {s : State} (r : Ready x.h s) : exec (.yield x) s = .next (after x.h none id s) := run_plain r rfl

theorem exec_br {x : BW} {s : State} (r : Ready x.h s) :
    exec (.br x) s = .next (after x.h (some (ofInt 56 ((s.m.sl.pc : Int) + 4 * sx 32 x.off.toNat))) id s) :=
  run_plain r (by simp only [bind_apply, mine_apply, issued_sl, relTarget_sl, pure_apply, id])

theorem exec_call {x : BW} {s : State} (r : Ready x.h s) (ha : IsReg x.a s) (hb : IsReg x.b s) :
    exec (.call x) s = .next (after x.h (some (ofInt 56 ((s.m.sl.pc : Int) + 4 * sx 32 x.off.toNat)))
      (fixed 2 (gCells 55 (nextPc s.m.sl.pc))) s) :=
  run_issue_after r ha hb (allowed_of_regs (by simp)) (by
    simp only [bind_apply, mine_apply, issued_sl, relTarget_sl, link_issued, pure_apply])

theorem exec_loop {x : BW} {s : State} (r : Ready x.h s) (ha : IsReg x.a s) (hb : IsReg x.b s) :
    exec (.loop x) s = .next (after x.h (if dec64 (val x.d s) = 0 then none else some (ofInt 56 ((s.m.sl.pc : Int) + 4 * sx 32 x.off.toNat)))
      (fixed 2 (gCells (gNo x.d) (dec64 (val x.d s)))) s) := by
  refine run_issue_after r ha hb (allowed_of_regs (by simp)) ?_
  have pc : relTarget (fixed 2 (gCells (gNo x.d) (dec64 (val x.d s))) (issued s)).sl x.off =
      ofInt 56 ((s.m.sl.pc : Int) + 4 * sx 32 x.off.toNat) := by
    rw [fixed_sl, issued_sl, relTarget, Slot.pend_pc, sl_pc]
  rw [bind_apply, rdGp_apply, issued_sl]
  exact congrArg (fun t => Except.ok (if dec64 (val x.d s) = 0 then none else some t,
    fixed 2 (gCells (gNo x.d) (dec64 (val x.d s))) (issued s))) pc

section
variable {x : SW} {s : State} (r : Ready x.h s) (ha : IsReg x.a s) (hb : IsReg x.b s) (leads : s.m.sl.isFollower = false)
include r ha hb leads

theorem exec_bri (h4 : val x.a s % 4 = 0) (h56 : val x.a s < 2 ^ 56) :
    exec (.bri x) s = .next (after x.h (some (val x.a s)) id s) :=
  run_issue_after r ha hb (by rw [sl_isFollower, leads]; exact allowed_of_regs (by simp [ha])) (by
    simp only [bind_apply, mine_apply, issued_sl, sl_isFollower, leads, rdG_val ha, tgt_legal h4 h56, pure_apply, Bool.false_eq_true,
      if_false, id])

theorem exec_calli (h4 : val x.a s % 4 = 0) (h56 : val x.a s < 2 ^ 56) :
    exec (.calli x) s = .next (after x.h (some (val x.a s)) (fixed 2 (gCells 55 (nextPc s.m.sl.pc))) s) :=
  run_issue_after r ha hb (by rw [sl_isFollower, leads]; exact allowed_of_regs (by simp [ha])) (by
    simp only [bind_apply, mine_apply, issued_sl, sl_isFollower, leads, rdG_val ha, tgt_legal h4 h56, link_issued, pure_apply,
      Bool.false_eq_true, if_false])

theorem exec_bri_bad (h : val x.a s % 4 ≠ 0 ∨ 2 ^ 56 ≤ val x.a s) :
    exec (.bri x) s = .next { s with m := takeTrap s.m.cur 0x09 0 s.m.sl.retAddr s.m } :=
  run_issue_traps r ha hb (by rw [sl_isFollower, leads]; exact allowed_of_regs (by simp [ha])) (by
    simp only [bind_apply, mine_apply, issued_sl, sl_isFollower, leads, rdG_val ha, tgt_bad h, Bool.false_eq_true, if_false])

theorem exec_calli_bad (h : val x.a s % 4 ≠ 0 ∨ 2 ^ 56 ≤ val x.a s) :
    exec (.calli x) s = .next { s with m := takeTrap s.m.cur 0x09 0 s.m.sl.retAddr s.m } :=
  run_issue_traps r ha hb (by rw [sl_isFollower, leads]; exact allowed_of_regs (by simp [ha])) (by
    simp only [bind_apply, mine_apply, issued_sl, sl_isFollower, leads, rdG_val ha, tgt_bad h, Bool.false_eq_true, if_false])

end

theorem exec_ret {x : ZW} {s : State} (r : Ready x.h s) (leads : s.m.sl.isFollower = false) (h4 : (sl s).g 55 % 4 = 0)
    (h56 : (sl s).g 55 < 2 ^ 56) : exec (.ret x) s = .next (after x.h (some ((sl s).g 55)) id s) :=
  run_issue_after r (isReg_zero s) (isReg_zero s) (by rw [sl_isFollower, leads]; exact allowed_of_regs (by simp)) (by
    simp only [bind_apply, mine_apply, issued_sl, sl_isFollower, leads, rdGn_apply, tgt_legal h4 h56, pure_apply, Bool.false_eq_true,
      if_false, id])

theorem exec_ret_bad {x : ZW} {s : State} (r : Ready x.h s) (leads : s.m.sl.isFollower = false)
    (h : (sl s).g 55 % 4 ≠ 0 ∨ 2 ^ 56 ≤ (sl s).g 55) :
    exec (.ret x) s = .next { s with m := takeTrap s.m.cur 0x09 0 s.m.sl.retAddr s.m } :=
  run_issue_traps r (isReg_zero s) (isReg_zero s) (by rw [sl_isFollower, leads]; exact allowed_of_regs (by simp)) (by
    simp only [bind_apply, mine_apply, issued_sl, sl_isFollower, leads, rdGn_apply, tgt_bad h, Bool.false_eq_true, if_false])

theorem branchesGoToTheirTargets : Claim.BranchesGoToTheirTargets :=
  ⟨fun _ _ r => ⟨exec_nop r, exec_yield r⟩, fun _ _ r ha hb => ⟨exec_br r, exec_call r ha hb, exec_loop r ha hb⟩,
   fun _ _ r ha hb leads => ⟨fun h4 h56 => ⟨exec_bri r ha hb leads h4 h56, exec_calli r ha hb leads h4 h56⟩,
     fun bad => ⟨exec_bri_bad r ha hb leads bad, exec_calli_bad r ha hb leads bad⟩⟩,
   fun _ _ r leads => ⟨exec_ret r leads, exec_ret_bad r leads⟩⟩

/-! ## REP (R69) -/

/-- The word may be repeated with count register `d`: its group is one that REP repeats, and it does not name `d`. -/
def Repeatable (d w : Nat) : Prop :=
  (w % 256 < 0x20 ∨ (0x40 ≤ w % 256 ∧ w % 256 < 0x60) ∨ (0x80 ≤ w % 256 ∧ w % 256 < 0xC0)) ∧ d ∉ bodyRegs w

/-- REP's check of its body is `Repeatable`. -/
theorem repCheck_eq_false_iff (d w : Nat) :
    (!(decide (w % 256 < 0x20) || (decide (0x40 ≤ w % 256) && decide (w % 256 < 0x60)) || (decide (0x80 ≤ w % 256) && decide (w % 256 < 0xC0)))
      || (bodyRegs w).contains d) = false ↔ Repeatable d w := by
  simp only [Repeatable, Bool.or_eq_false_iff, Bool.not_eq_false', Bool.or_eq_true, Bool.and_eq_true, decide_eq_true_eq, or_assoc,
    List.contains_eq_mem, decide_eq_false_iff_not]

/-- What a REP that begins repetitions leaves: the slot repeats the next word. -/
def repBegins (x : IW) (s : State) (m : Mach) : Mach :=
  m.updSlot m.cur (fun y => { y with rep := some ⟨s.m.sl.pc, gNo x.d, gNo x.a, ofInt 64 (sx 32 x.imm.toNat), x.h.sc.toNat⟩ })

section
variable {x : IW} {s : State} {w : Nat} {m : Mach} (r : Ready x.h s) (ha : IsReg x.a s) (hb : IsReg x.b s)
  (hw : fetchWord (s.m.sl.pc + 12) (issued s) = .ok (w, m))
include r ha hb hw

theorem exec_rep_bad (bad : ¬ Repeatable (gNo x.d) w) :
    exec (.rep x) s = .next { s with m := takeTrap s.m.cur 0x0A 0 s.m.sl.retAddr s.m } := by
  refine run_issue_traps r ha hb (allowed_of_regs (by simp)) ?_
  have fails := Bool.eq_true_of_not_eq_false (mt (repCheck_eq_false_iff (gNo x.d) w).1 bad)
  simp only [bind_apply, mine_apply, id, issued_sl, sl_pc, hw, trapIf_of_true fails]

theorem exec_rep_skips (ok : Repeatable (gNo x.d) w) (leads : s.m.sl.isFollower = false) (zero : val x.d s = 0) :
    exec (.rep x) s = .next (after x.h (some ((s.m.sl.pc + 24) % 2 ^ 56)) (fun _ => m) s) := by
  refine run_issue_after r ha hb (allowed_of_regs (by simp)) ?_
  have passes := (repCheck_eq_false_iff (gNo x.d) w).2 ok
  have skips : (!s.m.sl.isFollower && (sl s).g (gNo x.d) == 0) = true := by simpa [leads, val] using zero
  simp only [bind_apply, mine_apply, id, issued_sl, sl_pc, hw, trapIf_of passes, sl_isFollower, skips, if_true, pure_apply]

theorem exec_rep_begins (ok : Repeatable (gNo x.d) w) (repeats : s.m.sl.isFollower = true ∨ val x.d s ≠ 0) :
    exec (.rep x) s = .next (after x.h none (fun _ => repBegins x s m) s) := by
  refine run_issue_after r ha hb (allowed_of_regs (by simp)) ?_
  have passes := (repCheck_eq_false_iff (gNo x.d) w).2 ok
  have begins : (!s.m.sl.isFollower && (sl s).g (gNo x.d) == 0) = false := by
    obtain follows | count := repeats
    · simp [follows]
    · simpa [val] using fun _ => count
  simp only [bind_apply, mine_apply, id, issued_sl, sl_pc, hw, trapIf_of passes, sl_isFollower, begins, Bool.false_eq_true, if_false,
    changeMine_apply, pure_apply]
  rfl

end

theorem repChecksItsBody : Claim.RepChecksItsBody := fun _ _ _ _ r ha hb hw =>
  ⟨exec_rep_bad r ha hb hw, exec_rep_skips r ha hb hw, exec_rep_begins r ha hb hw⟩

/-- Settles O10: each outcome is its instruction's own execution. -/
theorem branchesAndRepeats : Obligations.BranchesAndRepeats := ⟨branchesGoToTheirTargets, repChecksItsBody⟩

end Sys2Proof.Claim
end

section
/-! PROOFS. Traps (R74, R340, R343), and the return from a handler (R22): what the saved bytes and pending writes give back. -/
namespace Sys2Proof.Claim
open Machine

/-! ## Writes that all land -/

/-- The registers when every pending write has landed in program order. -/
def landAll (rf : Mem) (pw : List Pend) : Mem := pw.foldl (fun rf p => rf.wrAll p.cells) rf

theorem landAll_rd {n : Nat} (a : Nat) : ∀ {pw : List Pend} (rf : Mem), (∀ p ∈ pw, p.due ≤ n) →
    (landAll rf pw).rd a = ((pendingAt n a pw).map (· % 256)).getD (rf.rd a)
  | [], _, _ => rfl
  | p :: pw, rf, due => by
    obtain ⟨hp, hpw⟩ := List.forall_mem_cons.1 due
    rw [landAll, List.foldl_cons, ← landAll, landAll_rd a _ hpw, Mem.rd_wrAll_latest, pendingAt_cons, if_pos hp]
    cases pendingAt n a pw <;> simp

theorem landAll_landOldest (k : Nat) : ∀ (pw : List Pend) (rf : Mem), landAll (landOldest k pw rf).2 (landOldest k pw rf).1 = landAll rf pw
  | [], _ => rfl
  | p :: pw, rf => by
    unfold landOldest
    split
    next => exact landAll_landOldest k pw _
    next => rfl

theorem landAll_rd_of_not_mem {a : Nat} : ∀ {pw : List Pend} (rf : Mem), (∀ p ∈ pw, ∀ c ∈ p.cells, c.1 ≠ a) → (landAll rf pw).rd a = rf.rd a
  | [], _, _ => rfl
  | p :: pw, rf, h => by
    obtain ⟨hp, hpw⟩ := List.forall_mem_cons.1 h
    rw [landAll, List.foldl_cons, ← landAll, landAll_rd_of_not_mem _ hpw, Mem.rd_wrAll_of_not_mem hp]

theorem pendingAt_none_of_le {k n a : Nat} (hk : k ≤ n) : ∀ {pw : List Pend}, pendingAt n a pw = none → pendingAt k a pw = none
  | [], _ => rfl
  | p :: pw, h => by
    rw [pendingAt_cons] at h ⊢
    cases later : pendingAt n a pw with
    | some v => rw [later] at h; cases h
    | none =>
      rw [later] at h
      rw [pendingAt_none_of_le hk later]
      split
      next due => rwa [if_pos (due.trans hk)] at h
      next => rfl

theorem byteAt_lt (x : Slot) (n a : Nat) : x.byteAt n a < 256 := by
  rw [byteAt_eq]
  cases pendingAt n a x.pw with
  | some v => exact Nat.mod_lt _ (by decide)
  | none => exact Mem.rd_lt _ _

/-! ## Writes to bytes that the handler has not written -/

/-- Pending writes without the bytes that `kept` names. -/
def dropKept (kept : Nat → Bool) (pw : List Pend) : List Pend :=
  (pw.map (fun p => { p with cells := p.cells.filter (fun c => !kept c.1) })).filter (fun p => !p.cells.isEmpty)

theorem latest_filter_of_not_kept {kept : Nat → Bool} {a : Nat} (h : kept a = false) (l : List (Nat × Nat)) :
    latest (l.filter (fun c => !kept c.1)) a = latest l a := by
  induction l using List.reverseRecOn with
  | nil => rfl
  | append_singleton l c ih =>
    rw [List.filter_append, List.filter_singleton, latest_append]
    by_cases hc : c.1 = a
    · rw [hc, h]
      exact (latest_append _ _ _).trans (by rw [ih, hc])
    · rw [if_neg (by simpa using hc), ← ih]
      cases kept c.1 with
      | true => simp
      | false => exact (latest_append _ _ _).trans (if_neg (by simpa using hc))

theorem pendingAt_filter_nonempty (n a : Nat) (pw : List Pend) :
    pendingAt n a (pw.filter (fun p => !p.cells.isEmpty)) = pendingAt n a pw := by
  induction pw with
  | nil => rfl
  | cons p pw ih =>
    rw [List.filter_cons, pendingAt_cons, ← ih]
    split
    next => rw [pendingAt_cons]
    next empty =>
      have : p.cells = [] := by simpa using empty
      simp [this, latest]

theorem pendingAt_dropKept {kept : Nat → Bool} {a : Nat} (n : Nat) (h : kept a = false) (pw : List Pend) :
    pendingAt n a (dropKept kept pw) = pendingAt n a pw := by
  rw [dropKept, pendingAt_filter_nonempty]
  induction pw with
  | nil => rfl
  | cons p pw ih => rw [List.map_cons, pendingAt_cons, pendingAt_cons, ih, latest_filter_of_not_kept h]

theorem pendingAt_of_not_mem {n a : Nat} {pw : List Pend} (h : ∀ p ∈ pw, ∀ c ∈ p.cells, c.1 ≠ a) : pendingAt n a pw = none := by
  induction pw with
  | nil => rfl
  | cons p pw ih =>
    obtain ⟨hp, hpw⟩ := List.forall_mem_cons.1 h
    rw [pendingAt_cons, ih hpw, latest_of_not_mem hp]
    simp

theorem pendingAt_dropKept_of_kept {kept : Nat → Bool} {a : Nat} (n : Nat) (h : kept a = true) (pw : List Pend) :
    pendingAt n a (dropKept kept pw) = none := by
  refine pendingAt_of_not_mem fun p hp c hc e => ?_
  obtain ⟨q, -, rfl⟩ := List.mem_map.1 (List.mem_of_mem_filter hp)
  have := List.of_mem_filter hc
  rw [e, h] at this
  cases this

theorem rd_wrAll_values {f : Nat → Nat} {l : List (Nat × Nat)} (h : ∀ c ∈ l, c.2 = f c.1) (m : Mem) (a : Nat) :
    (m.wrAll l).rd a = if ∃ c ∈ l, c.1 = a then f a % 256 else m.rd a := by
  split
  next mem =>
    rw [Mem.rd_wrAll_latest]
    suffices latest l a = some (f a) by rw [this]; rfl
    induction l using List.reverseRecOn with
    | nil => simp at mem
    | append_singleton l c ih =>
      rw [latest_append]
      by_cases hc : c.1 = a
      · rw [if_pos (by simpa using hc), h c (by simp), hc]
      · rw [if_neg (by simpa using hc)]
        refine ih (fun d hd => h d (by simp [hd])) ?_
        obtain ⟨d, hd, rfl⟩ := mem
        obtain hd | rfl : d ∈ l ∨ d = c := by simpa using hd
        · exact ⟨d, hd, rfl⟩
        · exact absurd rfl hc
  next none => exact Mem.rd_wrAll_of_not_mem fun c hc e => none ⟨c, hc, e⟩

/-! ## What a handler's entry saves (R22) -/

theorem oldBytes_values (x : Slot) : ∀ c ∈ x.oldBytes, c.2 = x.settle.byteAt x.n c.1 := by
  intro c hc
  obtain ⟨a, -, rfl⟩ := List.mem_map.1 hc
  exact congrArg (x.settle.byteAt · a) (Slot.settle_n x)

theorem oldBytes_places {x : Slot} {p : Pend} {c : Nat × Nat} (hp : p ∈ x.settle.pw) (hc : c ∈ p.cells) : ∃ d ∈ x.oldBytes, d.1 = c.1 := by
  refine ⟨_, List.mem_map.2 ⟨c.1, List.mem_append_left _ (List.mem_flatten.2 ⟨_, List.mem_map.2 ⟨p, hp, rfl⟩, List.mem_map.2 ⟨c, hc, rfl⟩⟩), rfl⟩, rfl⟩

/-- The count with which an interruption saves a slot depends on its count, its repetition and its place in a comet. -/
theorem atReturn_n_congr {x y : Slot} (n : y.n = x.n) (rep : y.rep = x.rep) (comet : y.comet = x.comet) : y.atReturn.n = x.atReturn.n := by
  unfold Slot.atReturn Slot.inRep
  rw [rep, comet]
  split <;> simp only [Slot.toRep, n]

theorem boundary_settle_pw (x : Slot) : x.boundary.settle.pw = x.settle.pw := by simp [Slot.settle]

theorem oldBytes_boundary (x : Slot) : x.boundary.oldBytes = x.oldBytes := by
  have settled (a : Nat) : x.boundary.settle.byteAt x.n a = x.settle.byteAt x.n a :=
    byteAt_congr (boundary_settle_pw x) (by simp [Slot.settle]) x.n a
  have early : x.boundary.settle.early = x.settle.early := by
    unfold Slot.early
    rw [Slot.settle_n, Slot.settle_n, Slot.boundary_n, Slot.settle_il, Slot.settle_il, Slot.boundary_il]
  unfold Slot.oldBytes
  dsimp only
  rw [early, boundary_settle_pw, Slot.settle_n, Slot.settle_n, Slot.boundary_n]
  simp only [settled]

theorem enterHandler_saved (x : Slot) (cause v ret : Nat) :
    (x.enterHandler cause v ret).saved = some ⟨x.atReturn.n, x.oldBytes, x.settle.pw⟩ := by
  unfold Slot.enterHandler
  dsimp only
  rw [atReturn_n_congr (Slot.boundary_n x) (Slot.boundary_rep x) (Slot.boundary_comet x), oldBytes_boundary, boundary_settle_pw]

theorem enterHandler_rf (x : Slot) (cause v ret : Nat) : (x.enterHandler cause v ret).rf = landAll x.rf x.pw := by
  unfold Slot.enterHandler
  simp [landAll]

/-! ## The return (R22) -/

theorem leaveHandler_saved {y : Slot} {n : Nat} {old : List (Nat × Nat)} {pw : List Pend} (hs : y.saved = some ⟨n, old, pw⟩)
    (hp : y.pw = []) : y.leaveHandler = { y with
      rf := y.rf.wrAll (old.filter (fun c => !y.written.contains c.1)), pw := dropKept y.written.contains pw
      il := y.il.map Land.resumed, n := n, saved := none, written := [], inh := false, pc := y.tret } := by
  unfold Slot.leaveHandler
  rw [hs, hp]
  rfl

section
variable {x y : Slot} {cause v ret : Nat} (saved : y.saved = (x.enterHandler cause v ret).saved) (landed : y.pw = [])
include saved landed

theorem leaveHandler_entered : y.leaveHandler = { y with
      rf := y.rf.wrAll (x.oldBytes.filter (fun c => !y.written.contains c.1)), pw := dropKept y.written.contains x.settle.pw
      il := y.il.map Land.resumed, n := x.atReturn.n, saved := none, written := [], inh := false, pc := y.tret } :=
  leaveHandler_saved (saved.trans (enterHandler_saved ..)) landed

theorem leaveHandler_byteAt_written {a : Nat} (n : Nat) (ha : a ∈ y.written) : y.leaveHandler.byteAt n a = y.rf.rd a := by
  have kept : y.written.contains a = true := by simpa using ha
  rw [byteAt_eq, leaveHandler_entered saved landed]
  dsimp only
  rw [pendingAt_dropKept_of_kept n kept]
  refine Mem.rd_wrAll_of_not_mem fun c hc e => ?_
  have := List.of_mem_filter hc
  rw [e, kept] at this
  cases this

theorem leaveHandler_byteAt_unwritten (same : ∀ a, a ∉ y.written → y.rf.rd a = (x.enterHandler cause v ret).rf.rd a) {n a : Nat}
    (hn : x.n ≤ n) (ha : a ∉ y.written) : y.leaveHandler.byteAt n a = x.byteAt n a := by
  have kept : y.written.contains a = false := by simpa using ha
  rw [← dueResultsLand x n a hn, byteAt_eq, byteAt_eq, leaveHandler_entered saved landed]
  dsimp only
  rw [pendingAt_dropKept n kept]
  cases later : pendingAt n a x.settle.pw with
  | some w => rfl
  | none =>
    have values : ∀ c ∈ x.oldBytes.filter (fun c => !y.written.contains c.1), c.2 = x.settle.byteAt x.n c.1 := fun c hc =>
      oldBytes_values x c (List.mem_of_mem_filter hc)
    rw [Option.map_none, Option.getD_none, Option.getD_none, rd_wrAll_values values]
    split
    next =>
      rw [Nat.mod_eq_of_lt (byteAt_lt ..), byteAt_eq, pendingAt_none_of_le hn later]
      rfl
    next none =>
      have unsaved : ∀ p ∈ x.settle.pw, ∀ c ∈ p.cells, c.1 ≠ a := fun p hp c hc e => by
        obtain ⟨d, hd, hda⟩ := oldBytes_places hp hc
        exact none ⟨d, List.mem_filter.2 ⟨hd, by rw [hda, e, kept]; rfl⟩, hda.trans e⟩
      rw [same a ha, enterHandler_rf, ← landAll_landOldest x.n]
      exact landAll_rd_of_not_mem _ unsaved

end

/-- Settles O12: the saved bytes give back what was not yet readable, the saved writes what lands later, and the handler's own bytes are in
neither. -/
theorem trapThenReturnRestores : Obligations.TrapThenReturnRestores := by
  intro x y cause v ret _ h saved landed same
  have left := leaveHandler_entered saved landed
  exact ⟨fun n a hn ha => leaveHandler_byteAt_unwritten saved landed same hn ha, fun n a ha => leaveHandler_byteAt_written saved landed n ha,
    by rw [left], by rw [left], by rw [left]⟩

/-! ## Taking a trap (R340, R343) -/

section
variable {k cause v ret : Nat} {m : Mach}

theorem takeTrap_entered (handler : (m.slot k).tvec % 2 ^ 56 / 4 ≠ 0) (outside : (m.slot k).inh = false) :
    takeTrap k cause v ret m = m.setSlot k (((m.slot k).detach (fun l => leads m l k)).enterHandler cause v ret) := by
  unfold takeTrap
  rw [if_neg handler, outside]
  rfl

theorem takeTrap_without_handler (none : (m.slot k).tvec % 2 ^ 56 / 4 = 0) : takeTrap k cause v ret m =
    endContext (m.slot k).ctx cause k (if addressCause cause then v % 2 ^ 64 else 0) m := by
  unfold takeTrap
  exact if_pos none

theorem takeTrap_double (handler : (m.slot k).tvec % 2 ^ 56 / 4 ≠ 0) (inside : (m.slot k).inh = true) :
    takeTrap k cause v ret m = endContext (m.slot k).ctx 0x80 k 0 m := by
  unfold takeTrap
  rw [if_neg handler, inside]
  rfl

end

theorem addressCause_iff (cause : Nat) :
    addressCause cause = true ↔ cause = 0x14 ∨ cause = 0x15 ∨ cause = 0x16 ∨ cause = 0x17 ∨ cause = 0x40 := by
  simp [addressCause]

theorem trapWithoutHandlerEndsContext : Claim.TrapWithoutHandlerEndsContext := by
  refine fun k cause v ret m => ⟨fun none => ?_, takeTrap_double⟩
  rw [takeTrap_without_handler none]
  simp only [addressCause_iff]

/-- A following follower that leaves its comet is in the repetition in which its leader was. -/
theorem detach_atReturn_n (x : Slot) (led : Nat → Bool) : (x.detach led).atReturn.n = x.atReturn.n := by
  unfold Slot.detach
  split
  next l q follows =>
    have rep : Slot.inRep { x with comet := if led l then some (.detached l) else none, rep := x.inRep } = x.inRep := by
      unfold Slot.inRep
      dsimp only
      cases led l <;> rfl
    unfold Slot.atReturn
    rw [rep]
    split <;> rfl
  next => rfl

theorem detach_oldBytes (x : Slot) (led : Nat → Bool) : (x.detach led).oldBytes = x.oldBytes := by
  unfold Slot.detach
  split <;> rfl

theorem detach_settle_pw (x : Slot) (led : Nat → Bool) : (x.detach led).settle.pw = x.settle.pw := by simp [Slot.settle]

theorem enterHandler_fields (x : Slot) (cause v ret : Nat) :
    (x.enterHandler cause v ret).pc = x.tvec % 2 ^ 56 / 4 * 4 ∧ (x.enterHandler cause v ret).tret = ret % 2 ^ 56 / 4 * 4 ∧
    (x.enterHandler cause v ret).tcause = cause ∧ (x.enterHandler cause v ret).tval = v % 2 ^ 64 ∧
    (x.enterHandler cause v ret).inh = true ∧ (x.enterHandler cause v ret).n = 0 ∧ (x.enterHandler cause v ret).rep = none ∧
    (x.enterHandler cause v ret).pw = [] := by
  refine ⟨?_, rfl, rfl, rfl, rfl, rfl, rfl, rfl⟩
  unfold Slot.enterHandler
  simp

theorem trapEntry : Claim.TrapEntry := by
  intro k cause v ret m handler outside
  have entered := takeTrap_entered (cause := cause) (v := v) (ret := ret) handler outside
  have slot : (takeTrap k cause v ret m).slot k = ((m.slot k).detach (fun l => leads m l k)).enterHandler cause v ret := by
    rw [entered, Mach.slot_setSlot_self]
  obtain ⟨pc, tret, tcause, tval, inh, n, rep, pw⟩ := enterHandler_fields ((m.slot k).detach (fun l => leads m l k)) cause v ret
  dsimp only
  refine ⟨by rw [entered]; rfl, fun j hj => by rw [entered, Mach.slot_setSlot_of_ne _ _ hj], ?_⟩
  rw [slot]
  refine ⟨pc.trans (by rw [Slot.detach_tvec]), tret, tcause, tval, inh, n, rep, pw, ?_, fun n a due => ?_⟩
  · rw [enterHandler_saved, detach_atReturn_n, detach_oldBytes, detach_settle_pw]
  · rw [byteAt_eq, byteAt_eq, pw, enterHandler_rf, Slot.detach_rf, Slot.detach_pw, landAll_rd a _ due]
    rfl

/-! ## The words that raise traps (R16, R74) -/

theorem illTraps : Claim.IllTraps := fun s => run_trap (s := s) (x := trap 0x01 0) rfl

/-- Steps that each keep a part of the state keep it together. -/
theorem foldl_keeps {α β γ : Type} {f : β → α → β} {g : β → γ} (h : ∀ b a, g (f b a) = g b) (l : List α) (b : β) :
    g (l.foldl f b) = g b := by
  induction l generalizing b with
  | nil => rfl
  | cons a l ih => exact (ih (f b a)).trans (h b a)

theorem forward_cur (k : Nat) (f : Fwd) (m : Mach) : (forward k f m).cur = m.cur := by
  unfold forward
  split
  · refine foldl_keeps (g := Mach.cur) (fun m j => ?_) _ m
    split
    · split <;> rfl
    · rfl
  · rfl

@[simp] theorem passed_cur (h : Hdr) (m : Mach) : (passed h m).cur = m.cur := by
  unfold passed
  dsimp only
  split
  · rfl
  · exact forward_cur ..

/-- A word that nothing holds and whose body traps in a state that it has reached. -/
theorem run_issue_trapsAt {h : Hdr} {a b : BitVec 8} {use : Slot → Use} {body : M (Option Nat)} {s : State} {m : Mach} {c v ret : Nat}
    (r : Ready h s) (ha : IsReg a s) (hb : IsReg b s) (hu : Allowed (use (sl s)) s) (hf : body (issued s) = .error (.trapAt m c v ret)) (hc : m.cur = s.m.cur) :
    run (issue h a b use body) s = .next { s with m := takeTrap s.m.cur c v ret m } := by
  rw [run_issue_finish r ha hb hu, hf, ← hc]
  rfl

theorem exec_trap {x : IW} {s : State} (r : Ready x.h s) :
    exec (.trap x) s = .next { s with m := takeTrap s.m.cur 0x05 x.imm.toNat (nextPc s.m.sl.pc) (passed x.h (issued s)) } := by
  refine run_issue_trapsAt r (isReg_zero s) (isReg_zero s) (allowed_of_regs (by simp)) ?_ (passed_cur ..)
  rw [halt_apply, issued_sl, sl_pc]

theorem exec_brk {x : IW} {s : State} (r : Ready x.h s) :
    exec (.brk x) s = .next { s with m := takeTrap s.m.cur 0x06 x.imm.toNat s.m.sl.retAddr s.m } :=
  run_issue_traps r (isReg_zero s) (isReg_zero s) (allowed_of_regs (by simp)) rfl

theorem exec_assert_holds {x : IW} {s : State} (r : Ready x.h s) (ha : IsReg x.a s) (hq : (sl s).q (qNo x.a) = true) :
    exec (.assert x) s = .next (after x.h none id s) :=
  run_issue_after r ha (isReg_zero s) (allowed_of_regs (by simp)) (by
    simp only [bind_apply, rdQ_apply, issued_sl, hq, if_true, pure_apply, id])

theorem exec_assert_fails {x : IW} {s : State} (r : Ready x.h s) (ha : IsReg x.a s) (hq : (sl s).q (qNo x.a) = false) :
    exec (.assert x) s = .next { s with m := takeTrap s.m.cur 0x07 x.imm.toNat (nextPc s.m.sl.pc) (passed x.h (issued s)) } := by
  refine run_issue_trapsAt r ha (isReg_zero s) (allowed_of_regs (by simp)) ?_ (passed_cur ..)
  simp only [bind_apply, rdQ_apply, issued_sl, hq, Bool.false_eq_true, if_false, halt_apply, sl_pc]

theorem exec_rte_outside {x : ZW} {s : State} (r : Ready x.h s) (outside : s.m.sl.inh = false) :
    exec (.rte x) s = .next { s with m := takeTrap s.m.cur 0x08 0 s.m.sl.retAddr s.m } := by
  refine run_issue_traps r (isReg_zero s) (isReg_zero s) (allowed_of_regs (by simp)) ?_
  have outside' : (!(sl s).inh) = true := by rw [show (sl s).inh = s.m.sl.inh from rfl, outside]; rfl
  simp only [bind_apply, mine_apply, id, issued_sl, trapIf_of_true outside']

theorem exec_rte_inside {x : ZW} {s : State} (r : Ready x.h s) (inside : s.m.sl.inh = true) :
    exec (.rte x) s = .next { s with m := { (issued s).updSlot s.m.cur (fun y =>
      Slot.countEvent { y.leaveHandler with cycles := y.cycles + 1, age := 0, boost := 0, stamp := s.m.dev.rr } 1) with
        dev := { s.m.dev with rr := s.m.dev.rr + 1 } } } := by
  refine (run_issue_finish r (isReg_zero s) (isReg_zero s) (allowed_of_regs (by simp))).trans ?_
  have inside' : (!(sl s).inh) = false := by rw [show (sl s).inh = s.m.sl.inh from rfl, inside]; rfl
  have landed : (!(sl s).il.isEmpty) = false := by rw [show (sl s).il = s.m.sl.il from rfl, r.landed]; rfl
  simp only [bind_apply, mine_apply, id, issued_sl, trapIf_of inside', blockIf_of landed, halt_apply]
  rfl

theorem softwareTraps : Claim.SoftwareTraps :=
  ⟨fun _ _ r ha => ⟨exec_trap r, exec_brk r, exec_assert_holds r ha, exec_assert_fails r ha⟩,
   fun _ _ r => ⟨exec_rte_outside r, exec_rte_inside r⟩⟩

/-- Settles O11: entry and end are the two branches of `takeTrap`, and each word that raises a trap is its own execution. -/
theorem traps : Obligations.Traps := ⟨illTraps, softwareTraps, trapEntry, trapWithoutHandlerEndsContext⟩

end Sys2Proof.Claim
end

section
/-! PROOFS. A slot's turn runs the word at its pc, and a fetch reads twelve bytes (R11, R38, R79, R271). -/
namespace Sys2Proof.Claim
open Machine

/-! ## The turn of a slot (R271) -/

theorem execNext_of_fetched {s : State} {k w : Nat} {m : Mach} (h : fetchNext { s.m with cur := k } = .ok (w, m)) :
    execNext k s = execWord { s with m := { s.m with cur := k } } w m := by
  unfold execNext
  dsimp only
  rw [h]

theorem slotStep_of {s : State} {k : Nat} (task : (s.m.slot k).task.isSome = true) (best : mayIssue s.m k = true) :
    slotStep k s = aged k s (execNext k s) := by
  have some_task : ¬ (s.m.slot k).task.isNone = true := by simpa using Option.isSome_iff_ne_none.1 task
  unfold slotStep
  rw [if_neg some_task, best]
  rfl

theorem nextStep_slot {s : State} {k : Nat} {l : List Turn} (turn : s.m.agenda = .slot k :: l) :
    step s = slotStep k { s with m := { s.m with agenda := l } } := by
  unfold step nextStep
  rw [turn]

theorem stepRunsTheFetchedWord : Claim.StepRunsDecodedWord := by
  intro s k l w m turn task best fetched at0 at_ held
  have runs : step s = aged k at0 (execWord { at0 with m := { at0.m with cur := k } } w m) := by
    rw [nextStep_slot turn]
    exact (slotStep_of (s := at0) task best).trans (congrArg _ (execNext_of_fetched (s := at0) fetched))
  have word : execWord { at0 with m := { at0.m with cur := k } } w m = if held then run (block .service) at_
      else match decode w with
        | some i => exec i at_
        | none => run (trap 0x01 0) at_ := rfl
  rw [runs, word]
  refine ⟨fun i hi free => ?_, fun bad free => ?_, fun waits => ?_⟩
  · rw [free, hi]; rfl
  · rw [free, bad]; rfl
  · rw [waits]; rfl

/-! ## The twelve bytes of a word -/

theorem latest_cellsAt {a : Nat} {l : List Nat} {i : Nat} (h : i < l.length) : latest (cellsAt a l) (a + i) = some (l.getD i 0) := by
  induction l using List.reverseRecOn with
  | nil => simp at h
  | append_singleton l b ih =>
    have cells : cellsAt a (l ++ [b]) = cellsAt a l ++ [(a + l.length, b)] := by simp [cellsAt, List.zipIdx_append]
    rw [cells, latest_append]
    by_cases last : i = l.length
    · subst last
      simp
    · have inside : i < l.length := by simp at h; omega
      rw [if_neg (by simpa using Ne.symm last), ih inside]
      simp [List.getElem?_append_left inside]

theorem rd_cellsAt {a : Nat} {l : List Nat} {i : Nat} (h : i < l.length) (m : Mem) :
    (m.wrAll (cellsAt a l)).rd (a + i) = l.getD i 0 % 256 := by
  rw [Mem.rd_wrAll_latest, latest_cellsAt h]
  rfl

/-- Of a full cache no line is lost that the fetch reads; the one that came last is such a line. -/
theorem find_icTrim {x : L1Line} {l : List L1Line} {keep : List Nat} (h : x.line ∈ keep) :
    (icTrim keep (x :: l)).find? (·.line == x.line) = some x := by
  unfold icTrim
  split
  · simp
  · have stays : ¬ (!keep.contains x.line) = true := by simpa using h
    rw [List.reverse_cons, List.eraseP_append]
    split
    · simp
    · rw [List.eraseP_of_forall_not (l := [x]) (by simpa using stays)]
      simp

/-! ## A fetch of one page and one line (R11, R79) -/

theorem meetAt_hit {scope : PaKind → Option Nat} {m : Mach} {va : Nat} {acc : Machine.Acc} {e : TlbE} (range : va < 2 ^ 56)
    (hit : tlbHit m m.curCore m.cx.asid va acc = some e) (allowed : scope (paKind m.dev (e.at_ va)) = none) :
    meetAt scope m (va, acc, none) = .pa (e.at_ va) := by
  simp only [meetAt, if_neg (Nat.not_le.2 range), hit, allowed]

/-- The place is a variable here and below: Lean's kernel, given `e.at_ va`, would compute with its 2^18. -/
theorem xlateAll_one {m : Mach} {va p : Nat} {acc : Machine.Acc} {e : TlbE} (range : va < 2 ^ 56)
    (hit : tlbHit m m.curCore m.cx.asid va acc = some e) (hp : e.at_ va = p) (there : paKind m.dev p ≠ .hole)
    (service : waitsService m.dev p = false) : xlateAll [(va, acc)] m = .ok ([p], m) := by
  have allowed : anyMemory (paKind m.dev p) = none := by
    unfold anyMemory
    split
    next hole => exact absurd hole there
    next => rfl
  have met : meetAt anyMemory m (va, acc, none) = .pa p := hp ▸ meetAt_hit range hit (hp ▸ allowed)
  have free : [Met.pa p].find? (fun x => (metPa x).isNone) = none := by simp [metPa]
  have place : (metPa (.pa p)).getD 0 = p := rfl
  have served : [p].any (waitsService m.dev) = false := by simpa using service
  unfold xlateAll xlateChecked xlateScoped
  simp only [List.map_cons, List.map_nil, bind_apply, get_apply, met, free, place, blockIf_of served, pure_apply]

theorem sameLine {p i : Nat} (h : p % 128 ≤ 116) (hi : i < 12) : (p + i) / 128 = p / 128 ∧ (p + i) % 128 = p % 128 + i := by omega

/-- The line that twelve bytes within it name. -/
theorem lines_of_word {p : Nat} (h : p % 128 ≤ 116) : (((List.range 12).map (p + ·)).map (· / 128)).dedup = [p / 128] := by
  have same : ((List.range 12).map (p + ·)).map (· / 128) = List.replicate 12 (p / 128) := by
    rw [List.map_map]
    refine List.eq_replicate_iff.2 ⟨by simp, fun b hb => ?_⟩
    obtain ⟨i, hi, rfl⟩ := List.mem_map.1 hb
    exact (sameLine h (List.mem_range.1 hi)).1
  rw [same]
  exact List.replicate_dedup (by decide)

/-- What the part of a fetch behind the translation answers whose twelve bytes at `p` lie in one line. -/
def lineFetch (p : Nat) (m : Mach) : Except Stop (List Nat × Mach) :=
  let line := p / 128
  let places := (List.range 12).map (p + ·)
  let m1 := icFill [line] m.curCore line m
  if (icFind m m.curCore line).isNone && lineBusy m m.curCore line then .error (.block (.line line))
  else if (icFind m m.curCore line).isNone && paKind m.dev (128 * line) == .pooled && !present m (128 * line) then
    .error (.blockWith (askCode line) (.line line))
  else if places.any (icPoisoned m1 m.curCore) then .error (.stay (endContext m1.sl.ctx 0x81 m1.cur p m1))
  else .ok (places.map (icByte m1 m.curCore), m1)

section
variable {m : Mach} {va p : Nat} {e : TlbE} (range : va + 11 < 2 ^ 56) (page : granuleOf (va + 11) = granuleOf va)
  (hit : tlbHit m m.curCore m.cx.asid va .fetch = some e) (hp : e.at_ va = p) (inside : p % 128 ≤ 116) (there : paKind m.dev (p) ≠ .hole)
  (service : waitsService m.dev (p) = false)
include range page hit hp inside there service

theorem fetchBytes_line : fetchBytes va 12 m = lineFetch (p) m := by
  have places : (List.range 12).map (fun i => if granuleOf (va + i) = granuleOf va then [p].headD 0 + i
      else [p].getLastD 0 + (va + i - granuleOf (va + 12 - 1) * 2 ^ 18)) = (List.range 12).map (p + ·) := by
    refine List.map_congr_left fun i hi => if_pos ?_
    have := List.mem_range.1 hi
    unfold granuleOf at page ⊢
    omega
  have one : (if granuleOf va = granuleOf (va + 12 - 1) then [(va, Acc.fetch)] else [(va, .fetch), (granuleOf (va + 12 - 1) * 2 ^ 18, .fetch)])
      = [(va, .fetch)] := if_pos page.symm
  unfold fetchBytes lineFetch
  simp only [one, bind_apply, xlateAll_one (Nat.lt_of_le_of_lt (Nat.le_add_right va 11) range) hit hp there service, get_apply, places,
    lines_of_word inside, List.find?_singleton]
  cases (icFind m m.curCore (p / 128)).isNone && lineBusy m m.curCore (p / 128) with
  | true => rfl
  | false =>
    cases (icFind m m.curCore (p / 128)).isNone && paKind m.dev (128 * (p / 128)) == .pooled
        && !present m (128 * (p / 128)) with
    | true => rfl
    | false =>
      simp only [Bool.false_eq_true, if_false, bind_apply, change_apply, get_apply, List.foldl_cons, List.foldl_nil]
      split
      next poison => rfl
      next => rfl

theorem fetchWord_line : fetchWord va m = (lineFetch (p) m).map (fun r => (ofLE r.1, r.2)) := by
  rw [fetchWord, bind_apply, fetchBytes_line range page hit hp inside there service]
  cases lineFetch (p) m <;> rfl

end

theorem lineFetch_held {p : Nat} {m : Mach} {x : L1Line} (inside : p % 128 ≤ 116) (held : icFind m m.curCore (p / 128) = some x)
    (sound : ∀ i < 12, (p % 128 + i) / 8 * 8 ∉ x.bad) :
    lineFetch p m = .ok ((List.range 12).map (fun i => x.data.rd (p % 128 + i)), m) := by
  have fill : icFill [p / 128] m.curCore (p / 128) m = m := if_pos (by rw [held]; rfl)
  have whole : ((List.range 12).map (p + ·)).any (icPoisoned m m.curCore) = false := by
    simp only [List.any_eq_false, List.mem_map, List.mem_range]
    rintro _ ⟨i, hi, rfl⟩
    simp [icPoisoned, (sameLine inside hi).1, held, (sameLine inside hi).2, sound i hi]
  have bytes : ((List.range 12).map (p + ·)).map (icByte m m.curCore) = (List.range 12).map (fun i => x.data.rd (p % 128 + i)) := by
    rw [List.map_map]
    refine List.map_congr_left fun i hi => ?_
    have line := sameLine inside (List.mem_range.1 hi)
    simp [icByte, line.1, held, line.2]
  unfold lineFetch
  simp only [fill, whole, bytes, held, Option.isNone_some, Bool.false_and, Bool.false_eq_true, if_false]

theorem lineFetch_asks {p : Nat} {m : Mach} (absent : icFind m m.curCore (p / 128) = none) (idle : lineBusy m m.curCore (p / 128) = false)
    (pooled : paKind m.dev (128 * (p / 128)) = .pooled) (away : present m (128 * (p / 128)) = false) :
    lineFetch p m = .error (.blockWith (askCode (p / 128)) (.line (p / 128))) := by
  unfold lineFetch
  simp [absent, idle, pooled, away]

/-- The machine when the home slice has given a line to a fetch. -/
def lineGiven (line : Nat) (m : Mach) : Mach :=
  findL2 (128 * line) 128 (useLine line 0 (bringLine line (if paKind m.dev (128 * line) == .host then hostBus (128 * line) m else m)))

theorem icFill_absent {p core : Nat} {m : Mach} (absent : icFind m core (p / 128) = none)
    (near : paKind m.dev (128 * (p / 128)) = .pooled → present m (128 * (p / 128)) = true) :
    ∃ bad, icFind (icFill [p / 128] core (p / 128) m) core (p / 128) =
      some ⟨p / 128, Mem.wrAll [] (cellsAt 0 (homeBytes (lineGiven (p / 128) m) core (128 * (p / 128)) 128)), bad⟩ := by
  have asks : (if present m (128 * (p / 128)) then m else cxlAsk (128 * (p / 128)) m) = m := by
    split
    next => rfl
    next away => exact if_neg fun pooled => away (near (by simpa using pooled))
  refine ⟨badWords (lineGiven (p / 128) m) (p / 128) (wcbBytes (lineGiven (p / 128) m) core), ?_⟩
  unfold icFill
  rw [if_neg (by simp [absent])]
  dsimp only
  rw [asks, ← lineGiven]
  unfold icFind
  rw [Mach.octet_setOctet_self]
  exact find_icTrim (x := ⟨p / 128, _, _⟩) (List.mem_singleton_self _)

theorem homeBytes_length (m : Mach) (core pa len : Nat) : (homeBytes m core pa len).length = len := by simp [homeBytes]

theorem lineFetch_fills {p : Nat} {m : Mach} (inside : p % 128 ≤ 116) (absent : icFind m m.curCore (p / 128) = none)
    (idle : lineBusy m m.curCore (p / 128) = false) (near : paKind m.dev (128 * (p / 128)) = .pooled → present m (128 * (p / 128)) = true)
    (sound : ∀ i < 12, icPoisoned (icFill [p / 128] m.curCore (p / 128) m) m.curCore (p + i) = false) :
    lineFetch p m = .ok ((List.range 12).map (fun i => (homeBytes (lineGiven (p / 128) m) m.curCore (128 * (p / 128)) 128).getD (p % 128 + i) 0 % 256),
      icFill [p / 128] m.curCore (p / 128) m) := by
  obtain ⟨bad, filled⟩ := icFill_absent absent near
  have whole : ((List.range 12).map (p + ·)).any (icPoisoned (icFill [p / 128] m.curCore (p / 128) m) m.curCore) = false := by
    simpa using sound
  have bytes : ((List.range 12).map (p + ·)).map (icByte (icFill [p / 128] m.curCore (p / 128) m) m.curCore) = (List.range 12).map (fun i =>
      (homeBytes (lineGiven (p / 128) m) m.curCore (128 * (p / 128)) 128).getD (p % 128 + i) 0 % 256) := by
    rw [List.map_map]
    refine List.map_congr_left fun i hi => ?_
    have line := sameLine inside (List.mem_range.1 hi)
    have place : p % 128 + i < (homeBytes (lineGiven (p / 128) m) m.curCore (128 * (p / 128)) 128).length := by
      rw [homeBytes_length]
      have := List.mem_range.1 hi
      omega
    have read := rd_cellsAt (a := 0) place []
    rw [Nat.zero_add] at read
    simp only [icByte, Function.comp_apply, line.1, filled, line.2, Option.map_some, Option.getD_some, read]
  have first : ((icFind m m.curCore (p / 128)).isNone && lineBusy m m.curCore (p / 128)) = false := by rw [idle, Bool.and_false]
  have second : ((icFind m m.curCore (p / 128)).isNone && paKind m.dev (128 * (p / 128)) == .pooled && !present m (128 * (p / 128))) = false := by
    rw [Bool.and_eq_false_iff]
    by_cases pooled : paKind m.dev (128 * (p / 128)) = .pooled
    · exact .inr (by rw [near pooled]; rfl)
    · exact .inl (by simpa using fun _ => pooled)
  unfold lineFetch
  simp only [first, second, whole, bytes, Bool.false_eq_true, if_false]

theorem fetchReadsTwelveBytes : Claim.FetchReadsTwelveBytes := by
  intro m va e p line m0 range page hit inside there service
  refine ⟨fun x held sound => ?_, fun absent idle pooled away => ?_, fun absent idle near sound => ?_⟩
  · rw [fetchWord_line range page hit rfl inside there service, lineFetch_held inside held sound]
    rfl
  · rw [fetchWord_line range page hit rfl inside there service, lineFetch_asks absent idle pooled away]
    rfl
  · rw [fetchWord_line range page hit rfl inside there service, lineFetch_fills inside absent idle near sound]
    rfl

/-- Settles O4: a turn is `execWord` of the fetched word, and a fetch is `lineFetch` behind its translation. -/
theorem stepRunsDecodedWord : Obligations.StepRunsDecodedWord := ⟨stepRunsTheFetchedWord, fetchReadsTwelveBytes⟩

end Sys2Proof.Claim
end

section
/-! PROOFS. Words that trap before they have an effect: privileged ones without the privilege (R30, R39) and those that deterministic mode
bars (R317). -/
namespace Sys2Proof.Claim
open Machine

/-! ## What stops a word at its issue (R39) -/

/-- A word whose guard passes and that something stops at its issue. -/
theorem run_issue_stopped {h : Hdr} {a b : BitVec 8} {use : Slot → Use} {body : M (Option Nat)} {s : State} {e : Stop} (r : Ready h s)
    (stop : useStop (issued s) (use (sl s)) = some e) : run (issue h a b use body) s = finish s (.error e) := by
  have at0 : s.m.updSlot s.m.cur Slot.atIssue = issued s := rfl
  unfold run
  simp only [issue, bind_apply, changeMine_apply, at0, mine_apply, issued_sl, id, r.passes, stopIf_none, r.guard, Bool.false_eq_true,
    if_false, get_apply, stop]
  rfl

section
variable {h : Hdr} {s : State} (r : Ready h s) (due : ∀ p ∈ (sl s).pw, p.due ≤ s.m.sl.n)
include r due

/-- With no result pending, the context's mode decides first. -/
theorem useStop_mode (u : Use) (barred : (u.priv && !s.m.cx.prv) = true ∨ ((u.nondet || u.barred s.m.cx) && s.m.cx.det) = true) :
    useStop (issued s) u = if u.priv && !s.m.cx.prv then some (.trap 0x02 0) else some (.trap 0x04 0) := by
  have landed : (sl s).il = [] := r.landed
  have readable : ((sl s).schk && (sl s).underrun u.rd) = false := by rw [Slot.underrun_due landed due, Bool.and_false]
  have reads : u.rd.find? (fun q => (sl s).interlocked [q]) = none := by simp [List.find?_eq_none, Slot.interlocked_nil landed]
  have writes : u.wr.find? (fun q => (sl s).pendingTo [q]) = none := by simp [List.find?_eq_none, Slot.pendingTo_nil landed]
  unfold useStop
  simp only [issued_sl, issued_cx, readable, reads, writes, Bool.false_eq_true, if_false]
  split
  next => rfl
  next free => rw [if_pos (barred.resolve_left free)]

theorem run_issue_unprivileged {a b : BitVec 8} {use : Slot → Use} {body : M (Option Nat)} (prv : s.m.cx.prv = false)
    (hu : (use (sl s)).priv = true) :
    run (issue h a b use body) s = .next { s with m := takeTrap s.m.cur 0x02 0 s.m.sl.retAddr s.m } := by
  have mode : ((use (sl s)).priv && !s.m.cx.prv) = true := by rw [hu, prv]; rfl
  exact run_issue_stopped r ((useStop_mode r due _ (.inl mode)).trans (if_pos mode))

theorem run_issue_barred {a b : BitVec 8} {use : Slot → Use} {body : M (Option Nat)} (det : s.m.cx.det = true)
    (hp : (use (sl s)).priv = false) (hu : ((use (sl s)).nondet || (use (sl s)).barred s.m.cx) = true) :
    run (issue h a b use body) s = .next { s with m := takeTrap s.m.cur 0x04 0 s.m.sl.retAddr s.m } := by
  have mode : (((use (sl s)).nondet || (use (sl s)).barred s.m.cx) && s.m.cx.det) = true := by rw [hu, det]; rfl
  exact run_issue_stopped r ((useStop_mode r due _ (.inr mode)).trans (if_neg (by simp [hp])))

end

/-! ## Privileged words (R30, R75) -/

/-- Settles O34: the word's use says that it is privileged, of SYSWR by its register's number. -/
theorem privilegeTraps : Obligations.PrivilegeTraps := by
  intro i h s hh hi r due prv
  cases i
  case syswr x =>
    cases hh
    exact run_issue_unprivileged r due prv hi
  case tlbinva x =>
    cases hh
    exact run_issue_unprivileged r due prv (by cases bitAt x.mod.toNat 0 <;> rfl)
  all_goals cases hi
  all_goals
    cases hh
    exact run_issue_unprivileged r due prv rfl

/-! ## Words that deterministic mode bars (R317) -/

theorem sysBarred_listed {c : Ctx} {sr : BitVec 12} (h : (sr == 0x026 || sr == 0x027 || sr == 0x081) = true) :
    sysBarred c sr.toNat = true := by
  simp only [Bool.or_eq_true, beq_iff_eq] at h
  obtain (rfl | rfl) | rfl := h <;> rfl

/-- Settles O35: the word's use says that it depends on timing, of WAITEV, KQSTAT, RRED and SYSRD by a field of theirs. -/
theorem deterministicTraps : Obligations.DeterministicTraps := by
  intro i h s hh hi r due det
  cases i
  case waitev x => cases hh; exact run_issue_barred r due det rfl (Bool.or_eq_true_iff.2 (.inl hi))
  case kqstat x => cases hh; exact run_issue_barred r due det rfl (Bool.or_eq_true_iff.2 (.inl hi))
  case rred x => cases hh; exact run_issue_barred r due det rfl (Bool.or_eq_true_iff.2 (.inl hi))
  case sysrd x => cases hh; exact run_issue_barred r due det rfl (sysBarred_listed (sr := x.sr) hi)
  all_goals cases hi
  all_goals
    cases hh
    exact run_issue_barred r due det rfl rfl

end Sys2Proof.Claim
end

section
/-! PROOFS. System registers (R55, R75), and the values of HOLD and INTEG over time (R126). -/
namespace Sys2Proof.Claim
open Machine

/-- Effects that are the same on the word's machine. -/
theorem after_congr {h : Hdr} {tgt : Option Nat} {f g : Mach → Mach} {s : State} (e : f (issued s) = g (issued s)) :
    after h tgt f s = after h tgt g s := by
  unfold after
  rw [e]

/-! ## SYSRD -/

/-- What the statement lists of the registers is what they hold. -/
theorem sysValue_readable (m : Mach) : ∀ p ∈ readable m, sysValue m p.1 = p.2 := by
  unfold readable
  simp only [List.forall_mem_cons]
  exact ⟨rfl, rfl, rfl, rfl, rfl, rfl, rfl, rfl, rfl, rfl, rfl, rfl, rfl, rfl, rfl, rfl, rfl, rfl, rfl, rfl, rfl, nofun⟩

theorem exec_sysrd {x : YW} {s : State} (r : Ready x.h s) (hd : IsReg x.d s)
    (free : s.m.cx.det = true → sysBarred s.m.cx x.sr.toNat = false) : exec (.sysrd x) s =
      .next (after x.h none (fun m => lands .ready (known (gCells (gNo x.d) (sysValue m x.sr.toNat % 2 ^ 64))) m) s) := by
  refine run_issue_after r (isReg_zero s) (isReg_zero s) ⟨rfl, nofun, fun barred => ?_, by simp [hd]⟩ ?_
  · by_contra det
    have det' : s.m.cx.det = true := by simpa [Free] using det
    have : sysBarred s.m.cx x.sr.toNat = true := barred
    rw [free det'] at this
    cases this
  · simp only [bind_apply, get_apply, wrLand_issued hd, pure_apply]

/-! ## SYSWR -/

/-- What SYSWR of register `r` leaves of a slot. -/
def sysWritten (r v : Nat) (y : Slot) : Slot := { y with
  schk := if r = 0x000 then bitAt v 0 else y.schk
  tvec := if r = 0x010 then bits v 2 54 * 4 else y.tvec
  tret := if r = 0x012 then bits v 2 54 * 4 else y.tret
  ts0 := if r = 0x015 then v else y.ts0
  ts1 := if r = 0x016 then v else y.ts1
  drop := if r = 0x026 ∧ bitAt v 63 = true then 0 else y.drop
  ovf := if r = 0x026 ∧ bitAt v 63 = true then false else y.ovf
  pmsel := if r = 0x0A0 then pmselOf v else y.pmsel }

theorem sysWrite_eq (r v : Nat) (y : Slot) : sysWrite r v y = sysWritten r v y := by
  unfold sysWrite sysWritten
  split
  next h => subst h; rfl
  split
  next h => subst h; rfl
  split
  next h => subst h; rfl
  split
  next h => subst h; rfl
  split
  next h => subst h; rfl
  split
  next h => subst h; cases bitAt v 63 <;> rfl
  split
  next h => subst h; rfl
  next => simp only [*, if_false, false_and]

theorem exec_syswr {x : YW} {s : State} (r : Ready x.h s) (ha : IsReg x.a s) (hb : IsReg x.b s) (hp : x.sr = 0x010 → Privileged s) :
    exec (.syswr x) s = .next (after x.h none (fun m => m.updSlot m.cur
      (sysWritten x.sr.toNat (if bitAt x.mod.toNat 0 then x.imm.toNat else val x.a s))) s) := by
  rw [← funext (sysWrite_eq x.sr.toNat _)]
  refine run_issue_after r ha hb ⟨rfl, fun p => hp (beq_iff_eq.1 p), nofun, ?_⟩ ?_
  · cases bitAt x.mod.toNat 0 <;> simp [ha]
  · cases bitAt x.mod.toNat 0 with
    | true => rfl
    | false => simp only [Bool.false_eq_true, if_false, bind_apply, rdG_val ha]; rfl

theorem sysWritten_boundary (r v : Nat) (y : Slot) : (sysWritten r v y).boundary = sysWritten r v y.boundary := by
  unfold Slot.boundary
  dsimp only [sysWritten]
  split <;> rfl

/-- SYSWR's effect on its slot. -/
def sysWrites (r v : Nat) (m : Mach) : Mach := m.updSlot m.cur (sysWritten r v)

theorem sysWrites_sl (r v : Nat) (s : State) : (sysWrites r v (issued s)).sl = sysWritten r v (sl s) :=
  (Mach.slot_updSlot_self ..).trans (congrArg (sysWritten r v) (issued_sl s))

theorem sysWritten_sl_boundary (r v : Nat) (s : State) : (sysWritten r v (sl s)).boundary =
    { sysWritten r v s.m.sl.boundary with rf := (sl s).rf, pw := (sl s).pw, wait := none, look := (sl s).look, parked := false } := by
  rw [sysWritten_boundary, (sameButRegisters_sl s).boundary, show (sl s).il = s.m.sl.boundary.il from (Slot.boundary_il s.m.sl).symm,
    show (sl s).written = s.m.sl.boundary.written from (Slot.boundary_written s.m.sl).symm]
  rfl

section
variable {h : Hdr} {r v : Nat} {s : State} (alone : Alone s)
include alone

theorem sysWrites_frame : (after h none (sysWrites r v) s).m.sl = { sysWritten r v s.m.sl.boundary with
    rf := (after h none (sysWrites r v) s).m.sl.rf, pw := (after h none (sysWrites r v) s).m.sl.pw
    pc := (after h none (sysWrites r v) s).m.sl.pc, n := (after h none (sysWrites r v) s).m.sl.n
    cycles := (after h none (sysWrites r v) s).m.sl.cycles, pmc := (after h none (sysWrites r v) s).m.sl.pmc
    wait := none, look := [], parked := false, age := 0, boost := 0, stamp := s.m.dev.rr } := by
  have slot := sysWrites_sl r v s
  have left : (after h none (sysWrites r v) s).m.sl = _ := retire_slot (by rw [slot]; exact alone.comet) (by rw [slot]; exact alone.rep)
  have counted := counted_eq (sysWritten r v (sl s)) h s.m.dev.rr
  rw [sysWritten_sl_boundary] at counted
  rw [slot, show (sysWrites r v (issued s)).dev = s.m.dev from rfl, counted] at left
  rw [left]

theorem sysWrites_registers : RegistersBut [] s (after h none (sysWrites r v) s) := by
  intro n a hn _
  have slot := sysWrites_sl r v s
  rw [after_byteAt (by rw [slot]; exact alone.comet) (by rw [slot]; exact alone.rep), slot, ← sl_byteAt hn]
  exact byteAt_congr rfl rfl n a

theorem sysWrites_machine : (after h none (sysWrites r v) s).m =
    { s.m with slots := (after h none (sysWrites r v) s).m.slots, dev := { s.m.dev with rr := s.m.dev.rr + 1 } } :=
  retire_machine (m := sysWrites r v (issued s)) (by rw [sysWrites_sl]; exact alone.comet)

theorem sysWrites_others {k : Nat} (hk : k ≠ s.m.cur) : (after h none (sysWrites r v) s).m.slot k = s.m.slot k :=
  (retire_others (m := sysWrites r v (issued s)) (by rw [sysWrites_sl]; exact alone.comet) hk).trans
    ((Mach.slot_updSlot_of_ne _ _ hk).trans (Mach.slot_updSlot_of_ne _ _ hk))

end

/-- Settles O36: SYSRD lands `sysValue`, and SYSWR's slot is the written one, retired. -/
theorem systemRegisters : Obligations.SystemRegisters := by
  refine ⟨fun x s r hd free => ⟨exec_sysrd r hd free, fun p hp hx => ?_⟩, fun x s r ha hb hp => ⟨exec_syswr r ha hb hp, fun t alone ht => ?_⟩⟩
  · rw [exec_sysrd r hd free, hx]
    exact congrArg _ (after_congr (by rw [sysValue_readable _ p hp]))
  · have executed := exec_syswr r ha hb hp
    cases executed.symm.trans ht
    exact ⟨rfl, sysWrites_machine alone, fun k => sysWrites_others alone, sysWrites_registers alone, sysWrites_frame alone⟩

/-! ## Laws over time (R126) -/

theorem sx_range (x : Nat) : -2147483648 ≤ sx 32 x ∧ sx 32 x ≤ 2147483647 := by
  unfold sx
  split <;> omega

theorem sx_ofInt {v : Int} (low : -2147483648 ≤ v) (high : v ≤ 2147483647) : sx 32 (ofInt 32 v) = v := by
  unfold sx ofInt
  split <;> omega

theorem sx_sat32 (v : Int) : sx 32 (sat32 v) = min (max v (-2147483648)) 2147483647 := sx_ofInt (by omega) (by omega)

/-- A value that does not saturate. -/
theorem sx_sat32_of {v : Int} (low : -2147483648 ≤ v) (high : v ≤ 2147483647) : sx 32 (sat32 v) = v := by
  rw [sx_sat32]
  omega

theorem ev_zero (d : Desc) (st : Nat × Nat) : ev d st 0 = st := if_pos rfl

theorem ev_hold {d : Desc} (hold : d.kind = 0) (st : Nat × Nat) (n : Nat) : ev d st n = st := by
  unfold ev
  rw [hold]
  exact ite_self st

/-- What INTEG adds in a tick. -/
def slopeOf (d : Desc) (st : Nat × Nat) : Int := if d.yuse = 2 then sx 32 st.2 else sx 32 d.slope

theorem ev_integ {d : Desc} (integ : d.kind = 2) (st : Nat × Nat) {n : Nat} (hn : n ≠ 0) :
    ev d st n = (sat32 (sx 32 st.1 + n * slopeOf d st), st.2) := by
  unfold ev slopeOf
  rw [if_neg hn, integ]
  by_cases y : d.yuse = 2
  · simp only [y, if_true, Int.mul_comm]
  · simp only [y, if_false, Int.mul_comm]

theorem ev_integ_value {d : Desc} (integ : d.kind = 2) (st : Nat × Nat) (n : Nat) :
    (ev d st n).2 = st.2 ∧ sx 32 (ev d st n).1 = min (max (sx 32 st.1 + n * slopeOf d st) (-2147483648)) 2147483647 := by
  obtain rfl | hn := eq_or_ne n 0
  · have := sx_range st.1
    rw [ev_zero]
    refine ⟨rfl, ?_⟩
    rw [Nat.cast_zero, Int.zero_mul]
    omega
  · rw [ev_integ integ st hn]
    exact ⟨rfl, sx_sat32 _⟩

/-- Spans of which the first does not saturate add up. -/
theorem ev_integ_add {d : Desc} (integ : d.kind = 2) (st : Nat × Nat) (n k : Nat) (low : -2147483648 ≤ sx 32 st.1 + n * slopeOf d st)
    (high : sx 32 st.1 + n * slopeOf d st ≤ 2147483647) : ev d (ev d st n) k = ev d st (n + k) := by
  obtain rfl | hk := eq_or_ne k 0
  · exact ev_zero ..
  obtain rfl | hn := eq_or_ne n 0
  · rw [ev_zero, Nat.zero_add]
  have slope : slopeOf d (ev d st n) = slopeOf d st := by rw [slopeOf, (ev_integ_value integ st n).1, slopeOf]
  have value : sx 32 (ev d st n).1 = sx 32 st.1 + n * slopeOf d st := by
    rw [ev_integ integ st hn]
    exact sx_sat32_of low high
  rw [ev_integ integ _ hk, ev_integ integ st (n := n + k) (by omega), slope, value, (ev_integ_value integ st n).1, Int.add_assoc, ← Int.add_mul,
    Nat.cast_add]

/-- Settles O33. -/
theorem lawValues : Obligations.LawValues := fun d st n k _ => ⟨ev_zero d st, fun hold => ev_hold hold st n, fun integ =>
  ⟨(ev_integ_value integ st n).1, (ev_integ_value integ st n).2, ev_integ_add integ st n k⟩⟩

end Sys2Proof.Claim
end

section
/-! PROOFS. Scalar loads and stores (R97 to R100). -/
namespace Sys2Proof.Claim
open Machine

/-! ## Words that name their addresses -/

/-- The addresses that a word names besides its streams matter only to a word that takes stream elements (R326). -/
theorem allowed_of_regs_vas {rd wr : List Rng} {pops : List (BitVec 8 × Machine.Acc)} {vas : List (Nat × Machine.Acc)} {s : State}
    (h : ∀ p ∈ pops, IsReg p.1 s) : Allowed { rd := rd, wr := wr, pops := pops, vas := vas } s := ⟨rfl, nofun, nofun, h⟩

theorem misaligned_eq {a n : Nat} : (a % n != 0) = false ↔ a % n = 0 := by simp

/-! ## Loads and stores of memory (R98, R99) -/

/-- The effect of a load of `len` bytes at `pa` into the register that `d` names. -/
def loadEffect (h : Hdr) (d : BitVec 8) (ty : Ty) (kind : Kind) (sco : Sco) (pa id : Nat) (m : Mach) : Mach :=
  startLoad pa (Ty.size ty) (Ty.signed ty) (kind == .strong) (kind == .strong && sco == .sys) h.ch.toNat id 0 8
    (awaits .load ((List.range 8).map (fun i => 8 * gNo d + i)) (countsLd m))

/-- The effect of a store of the low bytes of `v` at `pa`. -/
def storeEffect (h : Hdr) (ty : Ty) (kind : Kind) (pa v : Nat) (m : Mach) : Mach :=
  if kind = .strong then strongStore h.ch.toNat (cellsAt pa (toLE (Ty.size ty) v)) m else weakStore h.ch.toNat (cellsAt pa (toLE (Ty.size ty) v)) m

theorem rdGp_issued (b : BitVec 8) (s : State) : rdGp b (issued s) = .ok (val b s, issued s) := by
  rw [rdGp_apply, issued_sl]
  rfl

section
variable {h : Hdr} {ty : Ty} {kind : Kind} {sco : Sco} {ea pa : Nat} {s : State} (clear : Clear s)
include clear

theorem loadAt_issued {d : BitVec 8} (aligned : ea % Ty.size ty = 0) (maps : Maps ea .read pa s) (room : RoomLd s) (hd : IsReg d s) :
    loadAt h d ty kind sco ea (issued s) = .ok ((), loadEffect h d ty kind sco pa s.m.nextId (issued s)) := by
  have counted : (countsLd (issued s)).nextId = s.m.nextId := rfl
  simp only [loadAt, bind_apply, accessGate_apply clear, trapIf_of (misaligned_eq.2 aligned), xlate_maps maps, resPlaces_issued hd,
    countLd_apply room, newLand_apply, change_apply, counted]
  rfl

theorem storeAt_issued {v : Nat} (aligned : ea % Ty.size ty = 0) (held : Held ea (Ty.size ty) s) (maps : Maps ea .write pa s) (room : RoomSt s) :
    storeAt h ty kind ea v (issued s) = .ok ((), storeEffect h ty kind pa v (issued s)) := by
  simp only [storeAt, bind_apply, accessGate_apply clear, trapIf_of (misaligned_eq.2 aligned), capCheck_apply held, xlate_maps maps,
    roomSt_apply room, change_apply, beq_iff_eq, ite_apply]
  rfl

theorem loadAt_misaligned {d : BitVec 8} (bad : ea % Ty.size ty ≠ 0) :
    loadAt h d ty kind sco ea (issued s) = .error (.trap 0x14 ea) := by
  simp only [loadAt, bind_apply, accessGate_apply clear, trapIf_of_true (bne_iff_ne.2 bad)]

theorem storeAt_misaligned {v : Nat} (bad : ea % Ty.size ty ≠ 0) : storeAt h ty kind ea v (issued s) = .error (.trap 0x14 ea) := by
  simp only [storeAt, bind_apply, accessGate_apply clear, trapIf_of_true (bne_iff_ne.2 bad)]

end

section
variable {x : MW} {s : State} {pa : Nat} (r : Ready x.h s) (ha : IsReg x.a s) (hb : IsReg x.b s) (clear : Clear s)
include r ha hb clear

theorem exec_ld (hd : IsReg x.d s) (aligned : addDisp (val x.a s) x.disp % Ty.size x.ty = 0)
    (maps : Maps (addDisp (val x.a s) x.disp) .read pa s) (room : RoomLd s) :
    exec (.ld x) s = .next (after x.h none (loadEffect x.h x.d x.ty x.kind x.sco pa s.m.nextId) s) :=
  run_issue_after r ha hb (allowed_of_regs_vas (by simp [hd])) (by
    simp only [bind_apply, rdGp_issued, loadAt_issued clear aligned maps room hd, pure_apply])

theorem exec_ldx (hd : IsReg x.d s) (aligned : indexed (val x.a s) x.disp (val x.b s) (bits x.c.toNat 0 3) % Ty.size x.ty = 0)
    (maps : Maps (indexed (val x.a s) x.disp (val x.b s) (bits x.c.toNat 0 3)) .read pa s) (room : RoomLd s) :
    exec (.ldx x) s = .next (after x.h none (loadEffect x.h x.d x.ty x.kind x.sco pa s.m.nextId) s) :=
  run_issue_after r ha hb (allowed_of_regs_vas (by simp [hb, hd])) (by
    simp only [bind_apply, rdGp_issued, rdG_val hb, loadAt_issued clear aligned maps room hd, pure_apply])

theorem exec_st (aligned : addDisp (val x.a s) x.disp % Ty.size x.ty = 0) (held : Held (addDisp (val x.a s) x.disp) (Ty.size x.ty) s)
    (maps : Maps (addDisp (val x.a s) x.disp) .write pa s) (room : RoomSt s) :
    exec (.st x) s = .next (after x.h none (storeEffect x.h x.ty x.kind pa (val x.b s)) s) :=
  run_issue_after r ha hb (allowed_of_regs_vas (by simp [hb])) (by
    simp only [bind_apply, rdGp_issued, rdG_val hb, storeAt_issued clear aligned held maps room, pure_apply])

theorem exec_stx (hd : IsReg x.d s) (aligned : indexed (val x.a s) x.disp (val x.b s) (bits x.c.toNat 0 3) % Ty.size x.ty = 0)
    (held : Held (indexed (val x.a s) x.disp (val x.b s) (bits x.c.toNat 0 3)) (Ty.size x.ty) s)
    (maps : Maps (indexed (val x.a s) x.disp (val x.b s) (bits x.c.toNat 0 3)) .write pa s) (room : RoomSt s) :
    exec (.stx x) s = .next (after x.h none (storeEffect x.h x.ty x.kind pa (val x.d s)) s) :=
  run_issue_after r ha hb (allowed_of_regs_vas (by simp [hb, hd])) (by
    simp only [bind_apply, rdGp_issued, rdG_val hb, rdG_val hd, storeAt_issued clear aligned held maps room, pure_apply])

theorem exec_ld_misaligned (hd : IsReg x.d s) (bad : addDisp (val x.a s) x.disp % Ty.size x.ty ≠ 0) :
    exec (.ld x) s = .next { s with m := takeTrap s.m.cur 0x14 (addDisp (val x.a s) x.disp) s.m.sl.retAddr s.m } :=
  run_issue_traps r ha hb (allowed_of_regs_vas (by simp [hd])) (by
    simp only [bind_apply, rdGp_issued, loadAt_misaligned clear bad])

theorem exec_st_misaligned (bad : addDisp (val x.a s) x.disp % Ty.size x.ty ≠ 0) :
    exec (.st x) s = .next { s with m := takeTrap s.m.cur 0x14 (addDisp (val x.a s) x.disp) s.m.sl.retAddr s.m } :=
  run_issue_traps r ha hb (allowed_of_regs_vas (by simp [hb])) (by
    simp only [bind_apply, rdGp_issued, rdG_val hb, storeAt_misaligned clear bad])

end

theorem loadsAndStores_memory : Claim.LoadsAndStores := fun _ _ _ r ha hb hd clear =>
  ⟨exec_ld r ha hb clear hd, exec_ldx r ha hb clear hd, exec_st r ha hb clear, exec_stx r ha hb clear hd,
   fun bad => ⟨exec_ld_misaligned r ha hb clear hd bad, exec_st_misaligned r ha hb clear bad⟩⟩

/-! ## The scratchpad (R87, R88, R100) -/

theorem findSp_of_unplanted {m : Mach} {a n : Nat} (h : ∀ w ∈ wordsOf a n, ∀ p ∈ m.plantSp, p.1 ≠ w) : findSp a n m = m := by
  unfold findSp
  generalize wordsOf a n = l at h
  induction l with
  | nil => rfl
  | cons w l ih =>
    obtain ⟨hw, hl⟩ := List.forall_mem_cons.1 h
    have unplanted : m.plantSp.find? (·.1 == w) = none := by
      rw [List.find?_eq_none]
      intro p hp
      simpa using hw p hp
    simp only [List.foldl_cons, unplanted]
    exact ih hl

/-- Scratchpad words without error are read as they stand. -/
theorem spRead_of_sound {m : Mach} {o n : Nat} (h : ∀ w ∈ wordsOf (spPlace m.curCore o) n, w ∉ m.spoison ∧ ∀ p ∈ m.plantSp, p.1 ≠ w) :
    spRead o n m = .ok (m.spad.rdN (spPlace m.curCore o) n, m) := by
  have whole : spPoisoned m (spPlace m.curCore o) n = false := by
    unfold spPoisoned
    rw [List.any_eq_false]
    intro w hw
    simpa using (h w hw).1
  simp only [spRead, bind_apply, get_apply, change_apply, findSp_of_unplanted fun w hw => (h w hw).2, whole, Bool.false_eq_true, if_false,
    pure_apply]

theorem range_zip_cells (a : Nat) {l : List Nat} {n : Nat} (h : l.length = n) :
    ((List.range n).map (a + ·)).zip l = cellsAt a l := by
  subst h
  refine List.ext_getElem (by simp [cellsAt]) fun i _ _ => ?_
  simp [cellsAt]

@[simp] theorem extend_length (out : Nat) (signed : Bool) (l : List Nat) : (extend out signed l).length = out := toLE_length ..

section
variable {x : MW} {s : State} (r : Ready x.h s) (ha : IsReg x.a s) (hb : IsReg x.b s) (clear : Clear s)
  (aligned : addDisp (val x.a s) x.disp % Ty.size x.ty = 0)
include r ha hb clear aligned

theorem exec_lds (hd : IsReg x.d s) (window : InWindow (addDisp (val x.a s) x.disp) (Ty.size x.ty) s)
    (sound : Sound (addDisp (val x.a s) x.disp) (Ty.size x.ty) s) (room : RoomLd s) :
    exec (.lds x) s = .next (after x.h none (fun m => lands .load (known (cellsAt (8 * gNo x.d) (extend 8 (Ty.signed x.ty)
      (s.m.spad.rdN (spPlace s.m.curCore (addDisp (val x.a s) x.disp)) (Ty.size x.ty))))) (countsLd m)) s) :=
  run_issue_after r ha hb (allowed_of_regs (by simp [hd])) (by
    have read := spRead_of_sound (m := countsLd (issued s)) sound
    simp only [bind_apply, rdGp_issued, accessGate_apply clear, trapIf_of (misaligned_eq.2 aligned), get_apply, trapIf_of window,
      resPlaces_issued hd, countLd_apply room, read, setLand_apply, pure_apply,
      range_zip_cells _ (extend_length 8 _ _)]
    rfl)

theorem exec_sts (window : InWindow (addDisp (val x.a s) x.disp) (Ty.size x.ty) s) (room : RoomSt s) :
    exec (.sts x) s = .next (after x.h none (fun m => ackLater (storeSp (cellsAt (spPlace s.m.curCore (addDisp (val x.a s) x.disp))
      (toLE (Ty.size x.ty) (val x.b s))) m)) s) :=
  run_issue_after r ha hb (allowed_of_regs (by simp [hb])) (by
    simp only [bind_apply, rdGp_issued, rdG_val hb, accessGate_apply clear, trapIf_of (misaligned_eq.2 aligned), get_apply, trapIf_of window,
      roomSt_apply room, spWrite_apply, change_apply, pure_apply]
    rfl)

theorem exec_lds_outside (hd : IsReg x.d s) (outside : ¬ InWindow (addDisp (val x.a s) x.disp) (Ty.size x.ty) s) :
    exec (.lds x) s = .next { s with m := takeTrap s.m.cur 0x15 (addDisp (val x.a s) x.disp) s.m.sl.retAddr s.m } :=
  run_issue_traps r ha hb (allowed_of_regs (by simp [hd])) (by
    simp only [bind_apply, rdGp_issued, accessGate_apply clear, trapIf_of (misaligned_eq.2 aligned), get_apply,
      trapIf_of_true (Bool.eq_true_of_not_eq_false outside)])

theorem exec_sts_outside (outside : ¬ InWindow (addDisp (val x.a s) x.disp) (Ty.size x.ty) s) :
    exec (.sts x) s = .next { s with m := takeTrap s.m.cur 0x15 (addDisp (val x.a s) x.disp) s.m.sl.retAddr s.m } :=
  run_issue_traps r ha hb (allowed_of_regs (by simp [hb])) (by
    simp only [bind_apply, rdGp_issued, rdG_val hb, accessGate_apply clear, trapIf_of (misaligned_eq.2 aligned), get_apply,
      trapIf_of_true (Bool.eq_true_of_not_eq_false outside)])

end

theorem scratchpadAccesses : Claim.ScratchpadAccesses := fun _ _ r ha hb hd clear aligned =>
  ⟨exec_lds r ha hb clear aligned hd, exec_sts r ha hb clear aligned,
   fun outside => ⟨exec_lds_outside r ha hb clear aligned hd outside, exec_sts_outside r ha hb clear aligned outside⟩⟩

/-- Settles O16: each outcome is its instruction's own execution. -/
theorem loadsAndStores : Obligations.LoadsAndStores := ⟨loadsAndStores_memory, scratchpadAccesses⟩

end Sys2Proof.Claim
end

section
/-! PROOFS. The frames of scalar accesses (R86, R90, R98, R100). -/
namespace Sys2Proof.Claim
open Machine

/-! ## Steps that leave memory and the scratchpads as they are -/

/-- The bytes of memory and of the scratchpads. -/
def bytesOf (m : Mach) : Mem × Mem := (m.mem, m.spad)

theorem bytesOf_forward (k : Nat) (f : Fwd) (m : Mach) : bytesOf (forward k f m) = bytesOf m := by
  unfold forward
  split
  · refine foldl_keeps (fun m j => ?_) _ m
    split
    · split <;> rfl
    · rfl
  · rfl

theorem bytesOf_retire (h : Hdr) (tgt : Option Nat) (m : Mach) : bytesOf (retire h tgt m) = bytesOf m := by
  unfold retire
  extract_lets s0 s1 s m1
  have kept : bytesOf m1 = bytesOf m := rfl
  split
  · exact kept
  · exact (bytesOf_forward ..).trans kept

/-- What a word's effect leaves of memory and the scratchpads, its retirement leaves too. -/
theorem bytesOf_after {h : Hdr} {tgt : Option Nat} {f : Mach → Mach} {s : State} (kept : bytesOf (f (issued s)) = bytesOf (issued s)) :
    bytesOf (after h tgt f s).m = bytesOf s.m := (bytesOf_retire h tgt _).trans kept

theorem bytesOf_sendWcb (core : Nat) (p : Wcb → Bool) (m : Mach) : bytesOf (sendWcb core p m) = bytesOf m := by
  unfold sendWcb
  extract_lets es homes lastIx go out m1
  exact foldl_keeps (f := fun m (e : Wcb × Nat) => sendOne core e.1 m) (g := bytesOf) (fun _ _ => rfl) out m1

theorem bytesOf_sendBytes (core pa len : Nat) (m : Mach) : bytesOf (sendBytes core pa len m) = bytesOf m := bytesOf_sendWcb ..

theorem bytesOf_missReq (alloc : Bool) (pa ch : Nat) (kind : ReqKind) (m : Mach) : bytesOf (missReq alloc pa ch kind m) = bytesOf m := by
  unfold missReq
  split <;> rfl

theorem bytesOf_weakStoreT (k t ch : Nat) (l : List (Nat × Nat)) (m : Mach) : bytesOf (weakStoreT k t ch l m) = bytesOf m := by
  unfold weakStoreT
  dsimp only
  split
  · rfl
  · rw [bytesOf_sendWcb]
    split
    · rfl
    · split
      · rfl
      · split
        · exact bytesOf_sendWcb ..
        · rfl

theorem bytesOf_weakStore (ch : Nat) (l : List (Nat × Nat)) (m : Mach) : bytesOf (weakStore ch l m) = bytesOf m :=
  (bytesOf_weakStoreT ..).trans rfl

theorem bytesOf_strongStore (ch : Nat) (l : List (Nat × Nat)) (m : Mach) : bytesOf (strongStore ch l m) = bytesOf m := by
  unfold strongStore strongStoreT
  dsimp only
  split
  · exact (bytesOf_weakStoreT ..).trans rfl
  · exact foldl_keeps (fun m c => bytesOf_sendBytes ..) l _

theorem bytesOf_storeEffect (h : Hdr) (ty : Ty) (kind : Kind) (pa v : Nat) (m : Mach) : bytesOf (storeEffect h ty kind pa v m) = bytesOf m := by
  unfold storeEffect
  split
  · exact bytesOf_strongStore ..
  · exact bytesOf_weakStore ..

theorem bytesOf_fillParts (k land : Nat) (signed : Bool) (parts : List Part) (read : Nat → Nat → List Nat) (m : Mach) :
    bytesOf (fillParts k land signed parts read m) = bytesOf m := by
  unfold fillParts
  refine foldl_keeps (g := bytesOf) (fun m p => ?_) parts m
  rfl

/-- A load whose words in L1 hold no error. -/
theorem bytesOf_startLine {parts : List Part} {signed strong sys : Bool} {ch land : Nat} {m : Mach}
    (sound : parts.any (fun p => l1Poisoned m m.curCore p.pa p.len) = false) :
    bytesOf (startLine parts signed strong sys ch land m) = bytesOf m := by
  unfold startLine
  extract_lets core k pa alloc bad m1 m2 m3
  split
  · rfl
  · split
    · rw [if_neg (show ¬ bad = true by rw [show bad = false from sound]; decide)]
      exact (show bytesOf m2 = bytesOf m1 from rfl).trans (bytesOf_fillParts ..)
    · rw [bytesOf_missReq]
      show bytesOf (if strong then _ else _) = _
      split
      · exact foldl_keeps (fun m p => bytesOf_sendBytes ..) parts m
      · rfl

theorem bytesOf_loadEffect {h : Hdr} {d : BitVec 8} {ty : Ty} {kind : Kind} {sco : Sco} {pa id : Nat} {m : Mach}
    (sound : l1Poisoned m m.curCore pa (Ty.size ty) = false) : bytesOf (loadEffect h d ty kind sco pa id m) = bytesOf m := by
  refine (bytesOf_startLine ?_).trans rfl
  exact (Bool.or_false _).trans sound

theorem accessesLeaveMemoryAtIssue : Claim.AccessesLeaveMemoryAtIssue := by
  intro x s t pa r ha hb hd clear n ea aligned
  refine ⟨fun maps room sound ht => ?_, fun held maps room ht => ?_⟩
  · rw [exec_ld r ha hb clear hd aligned maps room] at ht
    cases ht
    exact Prod.mk.inj (bytesOf_after (bytesOf_loadEffect sound))
  · rw [exec_st r ha hb clear aligned held maps room] at ht
    cases ht
    exact Prod.mk.inj (bytesOf_after (bytesOf_storeEffect ..))

/-! ## The frame of STS (R100) -/

theorem toLE_getD : ∀ {n i : Nat} (v : Nat), i < n → (toLE n v).getD i 0 = v / 256 ^ i % 256
  | n + 1, 0, v, _ => by simp [toLE]
  | n + 1, i + 1, v, h => by
    rw [toLE, List.getD_cons_succ, toLE_getD _ (Nat.lt_of_succ_lt_succ h), Nat.div_div_eq_div_mul, pow_succ']

/-- What STS leaves before its retirement. -/
def stsEffect (o : Nat) (l : List Nat) (core : Nat) (m : Mach) : Mach := ackLater (storeSp (cellsAt (spPlace core o) l) m)

theorem stsEffect_sl (o : Nat) (l : List Nat) (core : Nat) (s : State) :
    (stsEffect o l core (issued s)).sl = { sl s with ocSt := s.m.sl.ocSt + 1 } := by
  have counts : (stsEffect o l core (issued s)).sl = (bumpSt s.m.cur (storeSp (cellsAt (spPlace core o) l) (issued s))).slot s.m.cur := rfl
  have before : (storeSp (cellsAt (spPlace core o) l) (issued s)).slot s.m.cur = sl s := issued_sl s
  rw [counts, bumpSt, Mach.slot_updSlot_self, before, sl_ocSt]

section
variable {h : Hdr} {o core : Nat} {l : List Nat} {s : State} (alone : Alone s)
include alone

theorem stsEffect_machine : (after h none (stsEffect o l core) s).m = { stsEffect o l core (issued s) with
    slots := (after h none (stsEffect o l core) s).m.slots, dev := { (stsEffect o l core (issued s)).dev with rr := s.m.dev.rr + 1 } } :=
  retire_machine (m := stsEffect o l core (issued s)) (by rw [stsEffect_sl]; exact alone.comet)

theorem stsEffect_registers : RegistersBut [] s (after h none (stsEffect o l core) s) := by
  intro n a hn _
  have slot := stsEffect_sl o l core s
  rw [after_byteAt (by rw [slot]; exact alone.comet) (by rw [slot]; exact alone.rep), slot, ← sl_byteAt hn]
  exact byteAt_congr rfl rfl n a

theorem stsEffect_count : (after h none (stsEffect o l core) s).m.sl.ocSt = s.m.sl.ocSt + 1 := by
  have slot := stsEffect_sl o l core s
  have left : (after h none (stsEffect o l core) s).m.sl = _ := retire_slot (by rw [slot]; exact alone.comet) (by rw [slot]; exact alone.rep)
  rw [left, slot, counted_eq]
  exact Slot.boundary_ocSt _

end

theorem scratchpadStoreFrame : Claim.ScratchpadStoreFrame := by
  intro x s t r ha hb clear alone n ea aligned window room ht
  have executed := exec_sts r ha hb clear aligned window room
  cases executed.symm.trans ht
  have bytes : bytesOf (after x.h none (stsEffect ea (toLE n (val x.b s)) s.m.curCore) s).m =
      (s.m.mem, s.m.spad.wrAll (cellsAt (spPlace s.m.curCore ea) (toLE n (val x.b s)))) := bytesOf_retire ..
  obtain ⟨mem, spad⟩ := Prod.mk.inj bytes
  refine ⟨fun i hi => ?_, fun a ha => ?_, mem, stsEffect_count alone, stsEffect_registers alone⟩
  · refine (congrArg (Mem.rd · _) spad).trans ?_
    rw [rd_cellsAt (by rwa [toLE_length]), toLE_getD _ hi, Nat.mod_mod]
  · refine (congrArg (Mem.rd · _) spad).trans ?_
    exact Mem.rd_wrAll_cellsAt (by rwa [toLE_length])

/-- Settles O17: `bytesOf` is what each step of an access keeps, and STS's effect is one write of the scratchpad. -/
theorem accessFrames : Obligations.AccessFrames := ⟨scratchpadStoreFrame, accessesLeaveMemoryAtIssue⟩

end Sys2Proof.Claim
end

section
/-! PROOFS. Streams as operands, their binding and state, and views (R43 to R53). -/
namespace Sys2Proof.Claim
open Machine

/-! ## Reading a stream's next element (R49, R50) -/

/-- The bytes of one line that are at hand, as `weakRead` finds them. -/
def bytesAtHand (s : State) (pa n : Nat) : List Nat :=
  if (sl s).has pa n then (List.range n).map (fun i => (latest (sl s).got (pa + i)).getD 0)
  else if paKind s.m.dev pa == .host then s.m.mem.rdN pa n else (l1Bytes s.m s.m.curCore pa n).getD []

section
variable {s : State} {pa n ch : Nat} (room : RoomLd s) (order : (paKind s.m.dev pa == .host) = true → firstHost s.m s.m.curCore false = none)

/-- A weak read of sound bytes at hand changes no more of its slot than a monitor. -/
theorem weakRead_issued (sound : l1Poisoned s.m s.m.curCore pa n = false) : ∃ m, weakRead pa n ch (issued s) = .ok (bytesAtHand s pa n, m) ∧
    m.sl = { sl s with pmc := m.sl.pmc } ∧ m.mem = s.m.mem ∧ m.cur = s.m.cur := by
  have sound' : l1Poisoned (issued s) s.m.curCore pa n = false := sound
  unfold weakRead bytesAtHand
  simp only [bind_apply, get_apply, issued_sl, issued_curCore, issued_dev]
  by_cases held : (sl s).has pa n = true
  · simp only [held, if_true, pure_apply]
    exact ⟨issued s, rfl, by rw [issued_sl], rfl, rfl⟩
  by_cases host : (paKind s.m.dev pa == .host) = true
  · simp only [held, host, Bool.false_eq_true, if_true, if_false, bind_apply, change_apply, pure_apply]
    have slot : (hostBus pa (issued s)).sl = sl s := issued_sl s
    exact ⟨hostBus pa (issued s), rfl, by rw [slot], rfl, rfl⟩
  · simp only [held, host, Bool.false_eq_true, if_false, sound', bind_apply, change_apply, pure_apply]
    refine ⟨_, rfl, ?_, rfl, rfl⟩
    have slot : (((issued s).updSlot s.m.cur (·.countEvent 4)).updCore s.m.curCore (fun c => l1Touch c (pa / 128) ch)).sl = (sl s).countEvent 4 :=
      (Mach.slot_updSlot_self (issued s) s.m.cur (·.countEvent 4)).trans (congrArg (Slot.countEvent · 4) (issued_sl s))
    rw [issued_cur, slot]
    rfl

include room order

/-- Behind the gates of a counting load, `bringData` asks for what is not at hand. -/
theorem bringData_gates : bringData true ch [(pa, n)] (issued s) = blockWith (!([(pa, n)].filter (fun p => !atHand (issued s) p.1 p.2 ch)).isEmpty)
    (fun m =>
      let m := ([(pa, n)].filter (fun p => !atHand (issued s) p.1 p.2 ch)).foldl (fun m p => askData true ch p m) m
      m.updSlot m.cur (fun s => { s with ocLd := s.ocLd + 1 })) .data (issued s) := by
  obtain ⟨count, entries⟩ := room
  have first : (true && decide (64 ≤ loadEntries (issued s) (issued s).curCore)) = false := decide_eq_false (Nat.not_le.2 entries)
  have second : (true && decide (255 ≤ (issued s).sl.ocLd)) = false := decide_eq_false (by rw [issued_sl]; exact Nat.not_le.2 count)
  have third : ([(pa, n)].any (fun p => paKind (issued s).dev p.1 == .host) && (firstHost (issued s) (issued s).curCore false).isSome) = false := by
    by_cases host : (paKind s.m.dev pa == .host) = true
    · have none : firstHost (issued s) (issued s).curCore false = none := order host
      rw [none]
      exact Bool.and_false _
    · simp [host]
  unfold bringData
  simp only [bind_apply, get_apply, blockIf_of first, blockIf_of second, blockIf_of third, if_true]

theorem bringData_at_hand (at_hand : atHand (issued s) pa n ch = true) : bringData true ch [(pa, n)] (issued s) = .ok ((), issued s) := by
  rw [bringData_gates room order, blockWith_of (by simp [at_hand])]

theorem bringData_asks (away : atHand (issued s) pa n ch = false) : ∃ f, bringData true ch [(pa, n)] (issued s) = .error (.blockWith f .data) ∧
    f (issued s) = countsLd (askData true ch (pa, n) (issued s)) := by
  have asked : [(pa, n)].filter (fun p => !atHand (issued s) p.1 p.2 ch) = [(pa, n)] := by simp [away]
  rw [bringData_gates room order, asked]
  exact ⟨_, rfl, rfl⟩

end

/-- A pop whose element may be read is what `bringData` and `weakRead` make it. -/
theorem pop_ready {b : BitVec 8} {x : Stream} {s : State} {pa a : Nat} (input : x.out = false) (left : x.pos < x.len) (place : x.addr x.pos = a)
    (aligned : a % Ty.size x.ty = 0) (maps : Maps a .read pa s) (clear : Clear s) : pop b x (issued s) = (do
      bringData true x.ch [(pa, Ty.size x.ty)]
      let l ← weakRead pa (Ty.size x.ty) x.ch
      changeMine (fun s => { s with streams := s.streams.put (sNo b) { x with pos := x.pos + 1 } })
      pure (ofLE (extend 8 (Ty.signed x.ty) l)) : M Nat) (issued s) := by
  have more : decide (x.len ≤ x.pos) = false := decide_eq_false (Nat.not_le.2 left)
  unfold pop
  rw [place]
  simp only [bind_apply, trapIf_of input, trapIf_of more, trapIf_of (misaligned_eq.2 aligned), xlate_maps maps, accessGate_apply clear]

theorem rdG_bound {b : BitVec 8} {x : Stream} {s : State} (bound : (sl s).stream b = some x) : rdG b (issued s) = pop b x (issued s) := by
  simp only [rdG, bind_apply, mine_apply, id, issued_sl, bound]

section
variable {b : BitVec 8} {x : Stream} {s : State} {pa a : Nat} (input : x.out = false) (left : x.pos < x.len) (place : x.addr x.pos = a)
  (aligned : a % Ty.size x.ty = 0) (maps : Maps a .read pa s) (clear : Clear s) (room : RoomLd s)
  (order : (paKind s.m.dev pa == .host) = true → firstHost s.m s.m.curCore false = none)
include input left place aligned maps clear room order

theorem pop_takes (at_hand : atHand (issued s) pa (Ty.size x.ty) x.ch = true) (sound : l1Poisoned s.m s.m.curCore pa (Ty.size x.ty) = false) :
    ∃ m, pop b x (issued s) = .ok (ofLE (extend 8 (Ty.signed x.ty) (bytesAtHand s pa (Ty.size x.ty))), m) ∧
      m.sl = { sl s with streams := (sl s).streams.put (b.toNat - 56) { x with pos := x.pos + 1 }, pmc := m.sl.pmc } ∧ m.mem = s.m.mem := by
  obtain ⟨m, read, slot, mem, -⟩ := weakRead_issued (ch := x.ch) sound
  have put : (m.updSlot m.cur (fun s => { s with streams := s.streams.put (sNo b) { x with pos := x.pos + 1 } })).sl =
      { m.sl with streams := m.sl.streams.put (sNo b) { x with pos := x.pos + 1 } } := Mach.slot_updSlot_self m m.cur _
  refine ⟨m.updSlot m.cur (fun s => { s with streams := s.streams.put (sNo b) { x with pos := x.pos + 1 } }), (pop_ready input left place aligned maps clear).trans ?_, ?_, mem⟩
  · simp only [bind_apply, bringData_at_hand room order at_hand, read, changeMine_apply, pure_apply]
  · rw [put, slot]
    rfl

theorem pop_asks (away : atHand (issued s) pa (Ty.size x.ty) x.ch = false) : ∃ f, pop b x (issued s) = .error (.blockWith f .data) ∧
    f (issued s) = countsLd (askData true x.ch (pa, Ty.size x.ty) (issued s)) := by
  obtain ⟨f, asks, effect⟩ := bringData_asks room order away
  exact ⟨f, by rw [pop_ready input left place aligned maps clear, bind_apply, asks], effect⟩

end

theorem streamReadsNextElement : Claim.StreamReadsNextElement := fun b x s pa bound input left aligned maps clear room order => by
  rw [rdG_bound bound]
  exact ⟨pop_takes input left rfl aligned maps clear room order, pop_asks input left rfl aligned maps clear room order⟩

/-! ## Views, and the binding of streams (R46, R51 to R53) -/

/-- A view with neither a reserved bit nor a reserved width (R46). -/
def LegalView (w : Nat) : Prop := bits w 22 2 = 0 ∧ bits w 62 2 = 0 ∧ bits w 20 2 ≠ 3 ∧ bits w 48 2 ≠ 3

theorem viewCheck_eq_false_iff (w : Nat) : (bits w 22 2 != 0 || bits w 62 2 != 0 || bits w 20 2 == 3 || bits w 48 2 == 3) = false ↔ LegalView w := by
  simp only [LegalView, Bool.or_eq_false_iff, bne_eq_false_iff_eq, beq_eq_false_iff_ne, and_assoc]

theorem exec_view {x : YW} {s : State} (r : Ready x.h s) (ha : IsReg x.a s) (hb : IsReg x.b s) (legal : LegalView (val x.a s)) :
    exec (.view x) s = .next (after x.h none (fun m => m.updSlot m.cur (fun y => { y with view := val x.a s })) s) :=
  run_issue_after r ha hb (allowed_of_regs (by simp [ha])) (by
    simp only [bind_apply, rdG_val ha, trapIf_of ((viewCheck_eq_false_iff _).2 legal), changeMine_apply, pure_apply])

theorem exec_view_bad {x : YW} {s : State} (r : Ready x.h s) (ha : IsReg x.a s) (hb : IsReg x.b s) (bad : ¬ LegalView (val x.a s)) :
    exec (.view x) s = .next { s with m := takeTrap s.m.cur 0x0F 0 s.m.sl.retAddr s.m } :=
  run_issue_traps r ha hb (allowed_of_regs (by simp [ha])) (by
    have fails := Bool.eq_true_of_not_eq_false (mt (viewCheck_eq_false_iff _).1 bad)
    simp only [bind_apply, rdG_val ha, trapIf_of_true fails])

theorem exec_sbind {x : MW} {s : State} (r : Ready x.h s) (ha : IsReg x.a s) (hb : IsReg x.b s) :
    exec (.sbind x) s = .next (after x.h none (fun m => m.updSlot m.cur (fun y =>
      { y with streams := y.streams.put (x.d.toNat - 56) {
          base := addDisp (val x.a s) x.disp, cnt0 := val x.b s % 2 ^ 32, cnt1 := bits (val x.b s) 32 32,
          str0 := sx 32 ((sl s).g (gNo x.b + 1)), str1 := sx 32 ((sl s).g (gNo x.b + 1) / 2 ^ 32), ty := x.ty, out := bitAt x.c.toNat 0,
          pos := 0, ch := x.h.ch.toNat } })) s) :=
  run_issue_after r ha hb (allowed_of_regs (by simp)) (by
    simp only [bind_apply, rdGp_issued, rdGn_apply, issued_sl, changeMine_apply, pure_apply, sNo])

theorem exec_sunbind {x : SW} {s : State} (r : Ready x.h s) :
    exec (.sunbind x) s = .next (after x.h none (fun m => m.updSlot m.cur (fun y => { y with streams := y.streams.del (x.d.toNat - 56) })) s) :=
  run_issue_after r (isReg_zero s) (isReg_zero s) (allowed_of_regs (by simp)) rfl

/-- SSTAT's word is 0 of no stream, else its count, direction and type. -/
theorem sstatWord_eq (o : Option Stream) : sstatWord o =
    o.elim 0 (fun z => min (z.cnt0 * z.cnt1 - z.pos) (2 ^ 32 - 1) + 2 ^ 32 + ofBool z.out * 2 ^ 33 + Ty.code z.ty * 2 ^ 34) := by
  cases o with
  | none => rfl
  | some z =>
    unfold sstatWord
    dsimp only
    rw [Stream.len, Option.elim_some]

theorem exec_sstat {x : SW} {s : State} (r : Ready x.h s) (hd : IsReg x.d s) :
    exec (.sstat x) s = .next (after x.h none (lands .ready (known (gCells (gNo x.d)
      (((sl s).streams.find (x.a.toNat - 56)).elim 0 (fun z =>
        min (z.cnt0 * z.cnt1 - z.pos) (2 ^ 32 - 1) + 2 ^ 32 + ofBool z.out * 2 ^ 33 + Ty.code z.ty * 2 ^ 34))))) s) :=
  run_issue_after r (isReg_zero s) (isReg_zero s) (allowed_of_regs (by simp [hd])) (by
    simp only [bind_apply, mine_apply, id, issued_sl, wrLand_issued hd, pure_apply, sNo, ← sstatWord_eq])

theorem viewsAndStreams : Claim.ViewsAndStreams :=
  ⟨fun _ _ r ha hb => ⟨exec_view r ha hb, exec_view_bad r ha hb⟩, fun _ _ r ha hb => exec_sbind r ha hb, fun _ _ => exec_sunbind,
   fun _ _ => exec_sstat⟩

/-- Settles O13: a pop behind its checks is `bringData` and `weakRead`, and every other clause is its instruction's own execution. -/
theorem streamsAndViews : Obligations.StreamsAndViews := ⟨streamReadsNextElement, viewsAndStreams⟩

end Sys2Proof.Claim
end

section
/-! PROOFS. Atomics and reductions (R294 to R298), and writer capabilities (R321 to R323). -/
namespace Sys2Proof.Claim
open Machine

/-! ## Atomics at their point (R294, R297) -/

/-- The register that receives what an atomic returns. -/
def atomPlaces (x : MW) : List Nat := (List.range 8).map (fun i => 8 * gNo x.d + i)

/-- An atomic is sent to the home slice of `pa` in state `s`. -/
def sentAtomic (x : MW) (pa : Nat) (s : State) (op : AtomOp) (b : Nat) (m : Mach) : Mach :=
  sendAtomic x op pa b (some s.m.nextId) (x.sco == .dev || x.sco == .sys) (awaits .atomic (atomPlaces x) (countsAt m))

/-- A reduction is sent to the home slice of `pa`. -/
def sentReduction (x : MW) (pa : Nat) (op : AtomOp) (b : Nat) (m : Mach) : Mach := sendAtomic x op pa b none false (countsAt m)

/-- What the scratchpad holds at an offset of the window, of the access's type. -/
def spadOld (x : MW) (ea : Nat) (s : State) : Nat := ofLE (s.m.spad.rdN (spPlace s.m.curCore ea) (Ty.size x.ty))

/-- An atomic changes the scratchpad at `ea` in state `s`. -/
def bankedAtomic (x : MW) (ea : Nat) (s : State) (op : AtomOp) (b : Nat) (m : Mach) : Mach :=
  bankAtomic x op ea (spadOld x ea s) b (some s.m.nextId) (awaits .atomic (atomPlaces x) (countsAt m))

/-- A reduction changes the scratchpad at `ea` in state `s`. -/
def bankedReduction (x : MW) (ea : Nat) (s : State) (op : AtomOp) (b : Nat) (m : Mach) : Mach :=
  bankAtomic x op ea (spadOld x ea s) b none (countsAt m)

theorem atomicLand_none (m : Mach) : atomicLand false [] m = .ok (none, m) := rfl

theorem atomicLand_some (l : List Nat) (m : Mach) : atomicLand true l m = .ok (some m.nextId, awaits .atomic l m) := rfl

section
variable {x : MW} {op : AtomOp} {ea b : Nat} {s : State} (clear : Clear s) (room : RoomAt s) (aligned : ea % Ty.size x.ty = 0)
include clear room aligned

section
variable {pa : Nat} (away : x.sco ≠ .oct) (held : Held ea (Ty.size x.ty) s) (maps : Maps ea .write pa s)
  (scope : scopeOk x.sco (paKind s.m.dev pa) = true)
include away held maps scope

theorem atomicAt_home (idle : Idle s) (hd : IsReg x.d s) : atomicAt x op true ea b (issued s) = .ok ((), sentAtomic x pa s op b (issued s)) := by
  have near : (x.sco == .oct) = false := beq_eq_false_iff_ne.2 away
  have scope' : (!scopeOk x.sco (paKind (issued s).dev pa)) = false := by rw [issued_dev, scope]; rfl
  simp only [atomicAt, bind_apply, accessGate_apply clear, trapIf_of (misaligned_eq.2 aligned), near, Bool.false_eq_true, if_false,
    capCheck_apply held, xlate_maps maps, get_apply, trapIf_of scope', if_true, drain_idle idle, resPlaces_issued hd, countAt_apply room,
    atomicLand_some, change_apply, Bool.true_and]
  rfl

theorem atomicAt_home_reduction : atomicAt x op false ea b (issued s) = .ok ((), sentReduction x pa op b (issued s)) := by
  have near : (x.sco == .oct) = false := beq_eq_false_iff_ne.2 away
  have scope' : (!scopeOk x.sco (paKind (issued s).dev pa)) = false := by rw [issued_dev, scope]; rfl
  simp only [atomicAt, bind_apply, accessGate_apply clear, trapIf_of (misaligned_eq.2 aligned), near, Bool.false_eq_true, if_false,
    capCheck_apply held, xlate_maps maps, get_apply, trapIf_of scope', countAt_apply room, atomicLand_none, change_apply, Bool.false_and,
    pure_apply]
  rfl

end

section
variable (oct : x.sco = .oct) (window : InWindow ea (Ty.size x.ty) s) (sound : Sound ea (Ty.size x.ty) s)
include oct window sound

theorem atomicAt_bank (idle : Idle s) (hd : IsReg x.d s) : atomicAt x op true ea b (issued s) = .ok ((), bankedAtomic x ea s op b (issued s)) := by
  have near : (x.sco == .oct) = true := beq_iff_eq.2 oct
  have read := spRead_of_sound (m := countsAt (issued s)) sound
  simp only [atomicAt, bind_apply, accessGate_apply clear, trapIf_of (misaligned_eq.2 aligned), near, if_true, get_apply, trapIf_of window,
    drain_idle idle, resPlaces_issued hd, countAt_apply room, read, atomicLand_some, change_apply]
  rfl

theorem atomicAt_bank_reduction : atomicAt x op false ea b (issued s) = .ok ((), bankedReduction x ea s op b (issued s)) := by
  have near : (x.sco == .oct) = true := beq_iff_eq.2 oct
  have read := spRead_of_sound (m := countsAt (issued s)) sound
  simp only [atomicAt, bind_apply, accessGate_apply clear, trapIf_of (misaligned_eq.2 aligned), near, if_true, get_apply, trapIf_of window,
    Bool.false_eq_true, if_false, pure_apply, countAt_apply room, read, atomicLand_none, change_apply]
  rfl

end
end

/-! ## The words (R295) -/

theorem allowed_free {rd : List Rng} {pops : List (BitVec 8 × Machine.Acc)} {vas : List (Nat × Machine.Acc)} {nd : Bool} {s : State}
    (free : nd = true → Free s) (h : ∀ p ∈ pops, IsReg p.1 s) : Allowed { rd := rd, pops := pops, nondet := nd, vas := vas } s :=
  ⟨rfl, nofun, fun n => free (by simpa using n), h⟩

section
variable {x : MW} {s : State} {f : AtomOp → Nat → Mach → Mach} (r : Ready x.h s) (ha : IsReg x.a s) (hb : IsReg x.b s)
include r ha hb

section
variable (hd : IsReg x.d s) (free : Free s)
  (point : ∀ op b, atomicAt x op true (addDisp (val x.a s) x.disp) b (issued s) = .ok ((), f op b (issued s)))
include hd free point

theorem run_atomOp (op : AtomOp) : run (atomOp x op) s = .next (after x.h none (f op (val x.b s)) s) :=
  run_issue_after r ha hb (allowed_free (fun _ => free) (by simp [hb, hd])) (by
    simp only [bind_apply, rdGp_issued, rdG_val hb, point, pure_apply])

theorem exec_atomics : ∀ p ∈ atomics, exec (p.1 x) s = .next (after x.h none (f p.2 (val x.b s)) s) := by
  have each := run_atomOp r ha hb hd free point
  unfold atomics
  simp only [List.forall_mem_cons]
  exact ⟨each _, each _, each _, each _, each _, each _, each _, each _, nofun⟩

theorem exec_atomCas (hc : IsReg x.c s) : exec (.atomCas x) s = .next (after x.h none (f (.cas (val x.c s)) (val x.b s)) s) :=
  run_issue_after r ha hb (allowed_free (fun _ => free) (by simp [hb, hc, hd])) (by
    simp only [bind_apply, rdGp_issued, rdG_val hb, rdG_val hc, point, pure_apply])

theorem exec_atomInc : exec (.atomInc x) s = .next (after x.h none (f .inc 0) s) :=
  run_issue_after r ha hb (allowed_free (fun _ => free) (by simp [hd])) (by simp only [bind_apply, rdGp_issued, point, pure_apply])

end

section
variable (point : ∀ op b, atomicAt x op false (addDisp (val x.a s) x.disp) b (issued s) = .ok ((), f op b (issued s)))
include point

theorem run_redOp (op : AtomOp) {nd : Bool} (free : nd = true → Free s) :
    run (redOp x op nd) s = .next (after x.h none (f op (val x.b s)) s) :=
  run_issue_after r ha hb (allowed_free free (by simp [hb])) (by
    simp only [bind_apply, rdGp_issued, rdG_val hb, point, pure_apply])

theorem exec_redLog : exec (.redLog x) s = .next (after x.h none
    (f (if bits x.c.toNat 0 2 = 0 then .and else if bits x.c.toNat 0 2 = 1 then .or else .xor) (val x.b s)) s) := by
  refine Eq.trans ?_ (run_redOp r ha hb point _ (nd := false) nofun)
  change execRedLog x s = _
  unfold execRedLog
  split <;> simp_all

theorem exec_reductions : ∀ p ∈ reductions, (p.2.2 = true → Free s) → exec (p.1 x) s = .next (after x.h none (f (p.2.1 x) (val x.b s)) s) := by
  have each := run_redOp r ha hb point
  unfold reductions
  simp only [List.forall_mem_cons]
  exact ⟨fun free => each _ free, fun free => each _ free, fun free => each _ free, fun free => each _ (fun _ => free trivial),
    fun _ => exec_redLog r ha hb point, nofun⟩

end
end

/-- Settles O19: `atomicAt` has one lemma for each of its two points, with a result and without. -/
theorem atomicsAndReductions : Obligations.AtomicsAndReductions := by
  unfold Obligations.AtomicsAndReductions
  intro places inv x s pa r ha hb clear room ea aligned
  refine ⟨fun away held maps scope => ⟨fun hd free idle => ?_, ?_⟩, fun oct window sound => ⟨fun hd free idle => ?_, ?_⟩⟩
  · have point := fun op b => atomicAt_home (op := op) (b := b) clear room aligned away held maps scope idle hd
    exact ⟨exec_atomics (f := sentAtomic x pa s) r ha hb hd free point, exec_atomCas (f := sentAtomic x pa s) r ha hb hd free point,
      exec_atomInc (f := sentAtomic x pa s) r ha hb hd free point⟩
  · exact exec_reductions (f := sentReduction x pa) r ha hb fun op b => atomicAt_home_reduction clear room aligned away held maps scope
  · have point := fun op b => atomicAt_bank (op := op) (b := b) clear room aligned oct window sound idle hd
    exact ⟨exec_atomics (f := bankedAtomic x ea s) r ha hb hd free point, exec_atomCas (f := bankedAtomic x ea s) r ha hb hd free point,
      exec_atomInc (f := bankedAtomic x ea s) r ha hb hd free point⟩
  · exact exec_reductions (f := bankedReduction x ea s) r ha hb fun op b => atomicAt_bank_reduction clear room aligned oct window sound

/-! ## Writer capabilities (R321 to R323) -/

theorem any_of_find {α : Type} {p : Nat × α → Bool} {k : Nat} {w : α} :
    ∀ {t : Tab α}, t.find k = some w → p (k, w) = true → t.any p = true
  | [], found, _ => nomatch found
  | (j, u) :: t, found, holds => by
    rw [List.any_cons, Bool.or_eq_true]
    rw [Tab.find] at found
    by_cases h : (j == k) = true
    · rw [if_pos h] at found
      obtain rfl := Option.some.inj found
      rw [beq_iff_eq.1 h]
      exact .inl holds
    · rw [if_neg h] at found
      exact .inr (any_of_find found holds)

/-- A test that the value put for `k` meets just when the one before it did holds of the same tables. -/
theorem any_put {α : Type} {p : Nat × α → Bool} {d v : α} {k : Nat} :
    ∀ {t : Tab α}, p (k, v) = p (k, t.get d k) → p (k, d) = false → (t.put k v).any p = t.any p
  | [], same, absent => by
    change p (k, v) = p (k, d) at same
    simp only [Tab.put, List.any_cons, same, absent, List.any_nil, Bool.or_false]
  | (j, w) :: t, same, absent => by
    rw [Tab.put]
    rw [Tab.get, Tab.find] at same
    by_cases h : (j == k) = true
    · rw [if_pos h] at same ⊢
      rw [List.any_cons, List.any_cons, same, beq_iff_eq.1 h]
      rfl
    · rw [if_neg h] at same ⊢
      have later : p (k, v) = true → t.any p = true := fun holds => by
        rw [holds] at same
        cases found : Tab.find t k with
        | none => rw [found] at same; exact absurd (same.trans absent) (by decide)
        | some u => rw [found] at same; exact any_of_find found same.symm
      split
      · rw [List.any_cons, List.any_cons]
        cases holds : p (k, v)
        · rfl
        · rw [later holds, Bool.or_true, Bool.or_true]
      · rw [List.any_cons, List.any_cons, any_put same absent]

/-- The issue of a word changes none of what `granuleBusy` asks of a slot. -/
theorem granuleBusy_issued (s : State) (c core va pa : Nat) :
    granuleBusy (issued s) c core va pa = granuleBusy s.m c core va pa := by
  have slots := any_put (p := fun e : Nat × Slot => e.2.ctx == c && coreOf e.1 == core && e.2.il.any (fun l => l.cells.any (fun p =>
      decide (memBase ≤ p.1) && (p.1 - memBase) % 2 ^ 60 / 4096 == pa / 4096))) (d := Slot.init) (k := s.m.cur)
    (v := (s.m.slot s.m.cur).atIssue) rfl (by simp [Slot.init]) (t := s.m.slots)
  exact congrArg (fun b => _ || b || _) slots

section
variable {x : MW} {s : State} {e pa : Nat} (r : Ready x.h s) (ha : IsReg x.a s) (hb : IsReg x.b s) (clear : Clear s)
include r ha hb clear

section
variable (entry : capEntryAt s.m.cx (addDisp (val x.a s) x.disp) = some e) (maps : Maps (addDisp (val x.a s) x.disp) .read pa s)
include entry maps

theorem exec_capgive (room : RoomAt s) (core : val x.b s < 2 ^ 14)
    (used : ∃ i < 4, ((issued s).slot (keyOf (val x.b s) i)).ctx = s.m.sl.ctx ∧ ((issued s).slot (keyOf (val x.b s) i)).run ≠ .free)
    (quiet : granuleBusy s.m s.m.sl.ctx s.m.curCore (addDisp (val x.a s) x.disp) pa = false)
    (holds : s.m.mem.num e 2 = 2 ^ 14 + s.m.curCore) :
    exec (.capgive x) s = .next (after x.h none (fun m => atLater (engStore (cellsAt e (toLE 2 (2 ^ 15 + val x.b s))) (countsAt m))) s) := by
  obtain ⟨i, small, context, busy⟩ := used
  have named : (List.range 4).any (fun i => (((issued s).slot (keyOf (val x.b s) i)).ctx == (issued s).sl.ctx &&
      ((issued s).slot (keyOf (val x.b s) i)).run != .free)) = true :=
    List.any_eq_true.2 ⟨i, List.mem_range.2 small, by rw [issued_sl, Bool.and_eq_true, beq_iff_eq, bne_iff_ne]; exact ⟨context, busy⟩⟩
  have bad : (decide (2 ^ 14 ≤ val x.b s) || !(List.range 4).any (fun i => (((issued s).slot (keyOf (val x.b s) i)).ctx == (issued s).sl.ctx &&
      ((issued s).slot (keyOf (val x.b s) i)).run != .free))) = false := by rw [named, decide_eq_false (Nat.not_le.2 core)]; rfl
  have own : ((issued s).mem.num e 2 != 2 ^ 14 + (issued s).curCore) = false := by
    rw [issued_curCore]; exact bne_eq_false_iff_eq.2 holds
  have quiet' : granuleBusy (issued s) (issued s).sl.ctx (issued s).curCore (addDisp (val x.a s) x.disp) pa = false := by
    rw [granuleBusy_issued, issued_sl, issued_curCore]; exact quiet
  exact run_issue_after r ha hb (allowed_of_regs_vas (by simp [hb])) (by
    simp only [bind_apply, rdGp_issued, rdG_val hb, accessGate_apply clear, get_apply, issued_cx, entry, trapIf_of bad, xlate_maps maps,
      blockWith_of quiet', trapIf_of own, countAt_apply room, change_apply, pure_apply]
    rfl)

theorem exec_captake (room : RoomAt s) (given : s.m.mem.num e 2 = 2 ^ 15 + s.m.curCore ∨ s.m.mem.num e 2 = 2 ^ 14 + s.m.curCore) :
    exec (.captake x) s = .next (after x.h none (fun m => l1Inv s.m.curCore
      (atLater (engStore (cellsAt e (toLE 2 (2 ^ 14 + s.m.curCore))) (countsAt m)))) s) := by
  have may : ((issued s).mem.num e 2 != 2 ^ 15 + (issued s).curCore && (issued s).mem.num e 2 != 2 ^ 14 + (issued s).curCore) = false := by
    rw [issued_curCore, Bool.and_eq_false_iff, bne_eq_false_iff_eq, bne_eq_false_iff_eq]; exact given
  exact run_issue_after r ha hb (allowed_of_regs (by simp)) (by
    simp only [bind_apply, rdGp_issued, accessGate_apply clear, get_apply, issued_cx, entry, xlate_maps maps, blockIf_of may,
      countAt_apply room, change_apply, pure_apply]
    rfl)

theorem exec_capq (hd : IsReg x.d s) : exec (.capq x) s = .next (after x.h none (lands .ready (known (gCells (gNo x.d)
    (s.m.mem.num e 2 + (if s.m.mem.num e 2 = 2 ^ 14 + s.m.curCore then 2 ^ 16 else 0))))) s) :=
  run_issue_after r ha hb (allowed_of_regs (by simp [hd])) (by
    simp only [bind_apply, rdGp_issued, accessGate_apply clear, get_apply, issued_cx, entry, xlate_maps maps, wrLand_issued hd, pure_apply]
    rfl)

end

section
variable (entry : capEntryAt s.m.cx (addDisp (val x.a s) x.disp) = none)
include entry

theorem exec_capq_outside (hd : IsReg x.d s) :
    exec (.capq x) s = .next (after x.h none (lands .ready (known (gCells (gNo x.d) 0))) s) :=
  run_issue_after r ha hb (allowed_of_regs (by simp [hd])) (by
    simp only [bind_apply, rdGp_issued, accessGate_apply clear, get_apply, issued_cx, entry, wrLand_issued hd, pure_apply])

theorem exec_capgive_outside : exec (.capgive x) s = .next { s with m := takeTrap s.m.cur 0x18 0 s.m.sl.retAddr s.m } :=
  run_issue_traps r ha hb (allowed_of_regs_vas (by simp [hb])) (by
    simp only [bind_apply, rdGp_issued, rdG_val hb, accessGate_apply clear, get_apply, issued_cx, entry, trap_apply])

theorem exec_captake_outside : exec (.captake x) s = .next { s with m := takeTrap s.m.cur 0x18 0 s.m.sl.retAddr s.m } :=
  run_issue_traps r ha hb (allowed_of_regs (by simp)) (by
    simp only [bind_apply, rdGp_issued, accessGate_apply clear, get_apply, issued_cx, entry, trap_apply])

end
end

/-- Settles O20: each word by its own lemma, with a table entry and without one. -/
theorem capabilities : Obligations.Capabilities := by
  refine ⟨fun x s e pa r ha hb clear room => ?_, fun x s r ha hb hd clear entry => ?_⟩
  · intro va entry maps
    exact ⟨exec_capgive r ha hb clear entry maps room, exec_captake r ha hb clear entry maps room, exec_capq r ha hb clear entry maps⟩
  · exact ⟨exec_capq_outside r ha hb clear entry hd, exec_capgive_outside r ha hb clear entry, exec_captake_outside r ha hb clear entry⟩

end Sys2Proof.Claim
end

section
/-! PROOFS. Cache control (R96, R101 to R103) and block moves (R104 to R106). -/
namespace Sys2Proof.Claim
open Machine

theorem walking_issued (s : State) (core asid va : Nat) : walking (issued s) core asid va = walking s.m core asid va := rfl

/-! ## Cache control -/

/-- The request of a prefetch of the address (R101). -/
def prefetched (x : MW) (ea : Nat) (m : Mach) : Mach := match quietXlate m.cur ea .read (countTlb m.cur ea m) with
  | (none, m) => m
  | (some pa, m) => if paKind m.dev pa == .hole || paKind m.dev pa == .host || waitsService m.dev pa
      || !bitAt x.c.toNat 0 && (filler m m.curCore (pa / 128)).isSome then m else
    addReq m.cur m.sl.ctx (pa / 128 * 128) .sent (.line (!bitAt x.c.toNat 0)) m
      (fun r => { r with mine := wcbBytes m m.curCore, hint := x.h.ch.toNat })

/-- The copies of the lines at the addresses leave L1, of those that translate (R103). -/
def l1Invalidated (vas : List Nat) (m : Mach) : Mach := vas.foldl (fun m v => match quietXlate m.cur v .read (countTlb m.cur v m) with
  | (some pa, m) => l1InvLines m.curCore [pa / 128] m
  | (none, m) => m) m

/-- The first addresses of the lines of a range. -/
def linesFrom (ea n : Nat) : List Nat := (List.range ((ea + n - 1) / 128 - ea / 128 + 1)).map (fun i => (ea / 128 + i) * 128)

theorem drain_loads {s : State} (idle : s.m.sl.ocLd = 0) : drain true false false false (issued s) = .ok ((), issued s) := by
  simp [drain, bind_apply, idle]

section
variable {x : MW} {s : State} (r : Ready x.h s) (ha : IsReg x.a s) (hb : IsReg x.b s)
include r ha hb

theorem exec_pf (clear : Clear s) (low : addDisp (val x.a s) x.disp < 2 ^ 56)
    (still : walking s.m s.m.curCore s.m.cx.asid (addDisp (val x.a s) x.disp) = false) :
    exec (.pf x) s = .next (after x.h none (prefetched x (addDisp (val x.a s) x.disp)) s) :=
  run_issue_after r ha hb (allowed_of_regs (by simp)) (by
    simp only [bind_apply, rdGp_issued, accessGate_apply clear, trapIf_of (decide_eq_false (Nat.not_le.2 low)), joinWalk_issued still,
      change_apply, pure_apply]
    rfl)

theorem exec_pf_high (clear : Clear s) (high : 2 ^ 56 ≤ addDisp (val x.a s) x.disp) :
    exec (.pf x) s = .next { s with m := takeTrap s.m.cur 0x17 (addDisp (val x.a s) x.disp) s.m.sl.retAddr s.m } :=
  run_issue_traps r ha hb (allowed_of_regs (by simp)) (by
    simp only [bind_apply, rdGp_issued, accessGate_apply clear, trapIf_of_true (decide_eq_true high)])

section
variable (idle : s.m.sl.ocLd = 0)
include idle

theorem exec_l1invr_none (zero : val x.b s = 0) : exec (.l1invr x) s = .next (after x.h none id s) :=
  run_issue_after r ha hb (allowed_of_regs (by simp [hb])) (by
    simp only [bind_apply, rdGp_issued, rdG_val hb, zero, drain_loads idle, get_apply, true_or, if_true, List.find?_nil, pure_apply,
      change_apply, id])

theorem exec_l1invr_all (large : 32768 < val x.b s) : exec (.l1invr x) s = .next (after x.h none (fun m => l1Inv m.curCore m) s) := by
  have some : val x.b s ≠ 0 := by omega
  exact run_issue_after r ha hb (allowed_of_regs (by simp [hb])) (by
    simp only [bind_apply, rdGp_issued, rdG_val hb, some, large, drain_loads idle, get_apply, or_true, if_true, if_false, List.find?_nil,
      pure_apply, change_apply])

theorem exec_l1invr_lines (some : 0 < val x.b s) (small : val x.b s ≤ 32768)
    (still : ∀ v ∈ linesFrom (addDisp (val x.a s) x.disp) (val x.b s), walking s.m s.m.curCore s.m.cx.asid v = false) :
    exec (.l1invr x) s = .next (after x.h none (l1Invalidated (linesFrom (addDisp (val x.a s) x.disp) (val x.b s))) s) := by
  have nonzero : val x.b s ≠ 0 := by omega
  have within : ¬ 32768 < val x.b s := by omega
  have quiet : (linesFrom (addDisp (val x.a s) x.disp) (val x.b s)).find? (walking (issued s) (issued s).curCore (issued s).cx.asid) = none :=
    List.find?_eq_none.2 fun v hv => by rw [walking_issued, issued_curCore, issued_cx, still v hv]; exact Bool.false_ne_true
  unfold linesFrom at quiet
  exact run_issue_after r ha hb (allowed_of_regs (by simp [hb])) (by
    simp only [bind_apply, rdGp_issued, rdG_val hb, nonzero, within, or_self, drain_loads idle, get_apply, if_false, quiet, pure_apply,
      change_apply]
    rfl)

end
end

theorem exec_l1inv {x : ZW} {s : State} (r : Ready x.h s) (idle : s.m.sl.ocLd = 0) :
    exec (.l1inv x) s = .next (after x.h none (fun m => l1Inv m.curCore m) s) :=
  run_issue_after r (isReg_zero s) (isReg_zero s) (allowed_of_regs (by simp)) (by
    simp only [bind_apply, drain_loads idle, change_apply, pure_apply])

/-! ## CWAIT (R96) -/

/-- The counter that CWAIT names. -/
def counterOf (c : Nat) (y : Slot) : Nat := if c = 0 then y.ocLd else if c = 1 then y.ocSt else if c = 2 then y.ocAt else y.ocLw

section
variable {x : IW} {s : State} (r : Ready x.h s)
include r

theorem exec_cwait_passes (small : counterOf x.d.toNat s.m.sl ≤ x.imm.toNat) : exec (.cwait x) s = .next (after x.h none id s) := by
  have passes : decide (x.imm.toNat < counterOf x.d.toNat (issued s).sl) = false := by
    rw [issued_sl]; exact decide_eq_false (Nat.not_lt.2 small)
  unfold counterOf at passes
  exact run_issue_after r (isReg_zero s) (isReg_zero s) (allowed_of_regs (by simp)) (by
    simp only [bind_apply, mine_apply, id]
    rw [blockWith_of passes]
    rfl)

theorem exec_cwait_waits (large : x.imm.toNat < counterOf x.d.toNat s.m.sl) :
    exec (.cwait x) s = .next { s with m := (if x.d.toNat = 1 then sendMine s.m.cur s.m else s.m).updSlot s.m.cur (fun y =>
      { y with wait := some (.counter x.d.toNat x.imm.toNat), look := [], parked := false }) } := by
  have waits : decide (x.imm.toNat < counterOf x.d.toNat (issued s).sl) = true := by rw [issued_sl]; exact decide_eq_true large
  refine (run_issue_finish r (isReg_zero s) (isReg_zero s) (allowed_of_regs (by simp))).trans ?_
  simp only [bind_apply, mine_apply, id]
  unfold counterOf at waits
  simp only [waits, blockWith_true]
  rfl

end

theorem cacheControl : CacheControl := by
  refine ⟨fun x s r ha hb clear => ⟨exec_pf r ha hb clear, exec_pf_high r ha hb clear⟩, fun x s r idle => exec_l1inv r idle,
    fun x s r ha hb idle => ⟨exec_l1invr_none r ha hb idle, exec_l1invr_all r ha hb idle, exec_l1invr_lines r ha hb idle⟩,
    fun x s r => ⟨exec_cwait_passes r, exec_cwait_waits r⟩⟩

/-! ## Block moves (R104 to R106) -/

theorem bringData_nothing {s : State} (room : RoomLd s) (ch : Nat) : bringData true ch [] (issued s) = .ok ((), issued s) := by
  have entries : (true && decide (64 ≤ loadEntries (issued s) (issued s).curCore)) = false := decide_eq_false (Nat.not_le.2 room.2)
  have counter : (true && decide (255 ≤ (issued s).sl.ocLd)) = false := by rw [issued_sl]; exact decide_eq_false (Nat.not_le.2 room.1)
  simp only [bringData, bind_apply, get_apply, blockIf_of entries, blockIf_of counter, List.any_nil, Bool.false_and, blockIf_false,
    List.filter_nil, List.isEmpty_nil, Bool.not_true, blockWith_false]

/-- What a unit's bytes leave behind at their destination. -/
def unitStored (dsp : Bool) (core ch d : Nat) (tw : List (Nat × Nat)) (out : List Nat) (m : Mach) : Mach :=
  if dsp then ackLater (storeSp (cellsAt (spPlace core d) out) m)
  else weakStore ch (out.zipIdx.map (fun c => (paAt d (tw.map (·.2)) c.2, c.1))) m

theorem blockStore_unit (dsp : Bool) (d ch : Nat) (tw : List (Nat × Nat)) (out : List Nat) {m : Mach} {core : Nat} (same : m.curCore = core) :
    blockStore dsp d (tw.map (·.2)) ch out m = .ok ((), unitStored dsp core ch d tw out m) := by
  subst same
  cases dsp <;> rfl

/-- The restart point after a unit, or the end of the word. -/
theorem finish_blockNext (x : MW) (d a b u : Nat) (moveA : Bool) (m : Mach) (s : State) :
    finish s ((blockNext x d a b u moveA m).map (fun p => ((), retire x.h p.1 p.2))) =
      .next (if b = u then after x.h none (fun _ => blockRegs x d a b u moveA m) s
        else { s with m := atRestart (blockRegs x d a b u moveA m) }) := by
  simp only [blockNext, bind_apply, changeMine_apply, ite_apply_M]
  by_cases last : b = u
  · simp only [last, if_true]
    rfl
  · simp only [last, if_false]
    rfl

/-- The translated source of a unit in memory; none of one in the scratchpad. -/
theorem unit_xlates {s : State} {tr tw : List (Nat × Nat)} (reads : ∀ p ∈ tr, Maps p.1 .read p.2 s) (writes : ∀ p ∈ tw, Maps p.1 .write p.2 s) :
    xlateAll ((tr.map (·.1)).map (fun v => (v, Machine.Acc.read)) ++ (tw.map (·.1)).map (fun v => (v, Machine.Acc.write))) (issued s)
      = .ok (tr.map (·.2) ++ tw.map (·.2), issued s) := by
  have all := xlateAll_maps (s := s) (tr.map (fun p => (p.1, .read, p.2)) ++ tw.map (fun p => (p.1, .write, p.2))) (by
    intro p hp
    rcases List.mem_append.1 hp with h | h <;> obtain ⟨q, hq, rfl⟩ := List.mem_map.1 h
    · exact reads q hq
    · exact writes q hq)
  rw [List.map_append, List.map_append, List.map_map, List.map_map, List.map_map, List.map_map] at all
  rw [List.map_map, List.map_map]
  exact all

section
variable {dsp : Bool} {d u : Nat} {tw : List (Nat × Nat)} {s : State} (dwin : dsp = true → InWindow d u s ∧ tw = [])
  (dmem : dsp = false → Held d u s ∧ tw.map (·.1) = pagesOf d u)

include dwin in
theorem dest_window : (dsp && spFails (issued s) d u) = false := by
  cases dsp with
  | true => exact (dwin rfl).1
  | false => rfl

include dmem in
theorem dest_held {α : Type} (k : M α) :
    (if dsp = true then k else (capCheck d u >>= fun _ => k)) (issued s) = k (issued s) := by
  cases dsp with
  | true => rfl
  | false => simp only [Bool.false_eq_true, if_false, bind_apply, capCheck_apply (dmem rfl).1]

include dwin dmem in
theorem dest_pages : (if dsp = true then [] else pagesOf d u) = tw.map (·.1) := by
  cases dsp with
  | true => rw [(dwin rfl).2]; rfl
  | false => exact (dmem rfl).2.symm

end

section
variable {x : MW} {s : State} (r : Ready x.h s) (ha : IsReg x.a s) (hb : IsReg x.b s)
include r ha hb

theorem exec_movblk_none (zero : val x.b s = 0) : exec (.movblk x) s = .next (after x.h none id s) :=
  run_issue_after r ha hb (allowed_of_regs (by simp)) (by simp only [bind_apply, rdGp_issued, zero, if_true, pure_apply, id])

theorem exec_fillblk_none (zero : val x.b s = 0) : exec (.fillblk x) s = .next (after x.h none id s) :=
  run_issue_after r ha hb (allowed_of_regs (by simp)) (by simp only [bind_apply, rdGp_issued, zero, if_true, pure_apply, id])

section
variable {u : Nat} {tw : List (Nat × Nat)} (unit : min (val x.b s) (128 - val x.d s % 128) = u) (some : val x.b s ≠ 0) (clear : Clear s)
  (roomSt : RoomSt s) (dwin : bitAt x.c.toNat 1 = true → InWindow (val x.d s) u s ∧ tw = [])
  (dmem : bitAt x.c.toNat 1 = false → Held (val x.d s) u s ∧ tw.map (·.1) = pagesOf (val x.d s) u)
  (writes : ∀ p ∈ tw, Maps p.1 .write p.2 s)
include unit some clear roomSt dwin dmem writes

theorem exec_fillblk :
    let out := (List.range u).map (fun i => val x.a s / 2 ^ (8 * ((val x.d s + i) % 8)) % 256)
    let stored := unitStored (bitAt x.c.toNat 1) s.m.curCore x.h.ch.toNat (val x.d s) tw out (issued s)
    exec (.fillblk x) s = .next (if val x.b s = u then after x.h none (fun _ => blockRegs x (val x.d s) (val x.a s) (val x.b s) u false stored) s
      else { s with m := atRestart (blockRegs x (val x.d s) (val x.a s) (val x.b s) u false stored) }) := by
  have pages : (if bitAt x.c.toNat 1 = true then [] else (pagesOf (val x.d s) u).map (fun v => (v, Machine.Acc.write)))
      = (tw.map (·.1)).map (fun v => (v, Machine.Acc.write)) := by
    rw [← dest_pages dwin dmem, apply_ite (List.map _)]; rfl
  have xlates := unit_xlates (tr := []) (tw := tw) (by simp) writes
  simp only [List.map_nil, List.nil_append] at xlates
  refine (run_issue_finish r ha hb (allowed_of_regs (by simp))).trans ?_
  simp only [bind_apply, rdGp_issued, some, if_false, accessGate_apply clear, unit, get_apply, trapIf_of (dest_window dwin),
    dest_held dmem, pages, xlates, roomSt_apply roomSt, blockStore_unit _ _ _ _ _ (issued_curCore s), finish_blockNext]

theorem exec_movblk {tr : List (Nat × Nat)} {bytes : List Nat} {m : Mach} (roomLd : RoomLd s)
    (swin : bitAt x.c.toNat 0 = true → InWindow (val x.a s) u s ∧ tr = [])
    (smem : bitAt x.c.toNat 0 = false → tr.map (·.1) = pagesOf (val x.a s) u) (reads : ∀ p ∈ tr, Maps p.1 .read p.2 s)
    (read : blockRead (bitAt x.c.toNat 0) (val x.a s) u (tr.map (·.2)) x.h.ch.toNat (issued s) = .ok (bytes, m))
    (same : m.curCore = s.m.curCore) :
    let src := fun i => if bitAt x.c.toNat 0 then 2 * spPlace s.m.curCore (val x.a s + i) + 1 else 2 * paAt (val x.a s) (tr.map (·.2)) i
    let dst := fun i => if bitAt x.c.toNat 1 then 2 * spPlace s.m.curCore (val x.d s + i) + 1 else 2 * paAt (val x.d s) (tw.map (·.2)) i
    let out := (copyUp (fun i => bytes.getD i 0) src dst u 0 []).map (·.2)
    let stored := unitStored (bitAt x.c.toNat 1) s.m.curCore x.h.ch.toNat (val x.d s) tw out m
    exec (.movblk x) s = .next (if val x.b s = u then after x.h none (fun _ => blockRegs x (val x.d s) (val x.a s) (val x.b s) u true stored) s
      else { s with m := atRestart (blockRegs x (val x.d s) (val x.a s) (val x.b s) u true stored) }) := by
  have entry : ∀ k : M (Option Nat), (if bitAt x.c.toNat 0 = true then (bringData true 0 [] >>= fun _ => k) else k) (issued s)
      = k (issued s) := by
    intro k
    split
    · simp only [bind_apply, bringData_nothing roomLd 0]
    · rfl
  have pages : (if bitAt x.c.toNat 0 = true then [] else pagesOf (val x.a s) u) = tr.map (·.1) := by
    by_cases h : bitAt x.c.toNat 0 = true
    · rw [if_pos h, (swin h).2]; rfl
    · rw [if_neg h, smem (eq_false_of_ne_true h)]
  refine (run_issue_finish r ha hb (allowed_of_regs (by simp))).trans ?_
  simp only [bind_apply, rdGp_issued, some, if_false, accessGate_apply clear, unit, get_apply,
    trapIf_of (dest_window (dsp := bitAt x.c.toNat 0) swin), trapIf_of (dest_window dwin), dest_held dmem, pages, dest_pages dwin dmem,
    unit_xlates reads writes, roomSt_apply roomSt, entry, List.length_map, List.take_left', List.drop_left', read, issued_curCore,
    blockStore_unit _ _ _ _ _ same, finish_blockNext]

end
end

theorem blockMoves : BlockMoves := by
  intro x s r ha hb
  extract_lets d a b u ssp dsp
  refine ⟨fun zero => ⟨exec_movblk_none r ha hb zero, exec_fillblk_none r ha hb zero⟩, ?_, ?_⟩
  · intro tr tw bytes m some clear roomLd roomSt swin dwin dmem smem reads writes read
    extract_lets src dst out stored
    exact fun same => exec_movblk r ha hb rfl some clear roomSt dwin dmem writes roomLd swin smem reads read same
  · exact fun tw some clear roomSt dwin dmem writes => exec_fillblk r ha hb rfl some clear roomSt dwin dmem writes

/-- Settles O18: cache control word by word; a block move's unit by the checks of its two ends, its read and its store. -/
theorem cacheControlAndBlockMoves : Obligations.CacheControlAndBlockMoves := ⟨cacheControl, blockMoves⟩

end Sys2Proof.Claim
end

section
/-! PROOFS. Time domains (R131, R151 to R155), and the frame of a law operation (R116, R139). -/
namespace Sys2Proof.Claim
open Machine

theorem issued_ctx (s : State) : (issued s).sl.ctx = s.m.sl.ctx := by rw [issued_sl]; rfl

theorem slice_issued (s : State) (k : Nat) : (issued s).slice k = s.m.slice k := rfl
theorem octet_issued (s : State) (k : Nat) : (issued s).octet k = s.m.octet k := rfl

/-! ## LWDOM (R153) -/

section
variable {x : IW} {s : State} (r : Ready x.h s)
include r

theorem exec_lwdom_stepped (on : bitAt x.imm.toNat 4 = true) :
    exec (.lwdom x) s = .next (after x.h none (fun m => m.updCtx m.sl.ctx (fun c =>
      { c with desig := c.desig.put (bits x.imm.toNat 0 4) (bits x.imm.toNat 5 14),
                stepped := if (c.stepped.find (bits x.imm.toNat 0 4)).isSome then c.stepped
                  else c.stepped.put (bits x.imm.toNat 0 4) (s.m.sid / 2 ^ 20 * 2 ^ 20) })) s) :=
  run_issue_after r (isReg_zero s) (isReg_zero s) (allowed_of_regs (by simp)) (by
    simp only [bind_apply, get_apply, on, if_true, change_apply, pure_apply]
    rfl)

section
variable (off : bitAt x.imm.toNat 4 = false)
include off

theorem exec_lwdom_free (free : s.m.cx.stepped.find (bits x.imm.toNat 0 4) = none) : exec (.lwdom x) s = .next (after x.h none id s) :=
  run_issue_after r (isReg_zero s) (isReg_zero s) (allowed_of_regs (by simp)) (by
    simp only [bind_apply, get_apply, off, Bool.false_eq_true, if_false, issued_cx, free, pure_apply, id])

theorem exec_lwdom_freed {t : Nat} (stepped : s.m.cx.stepped.find (bits x.imm.toNat 0 4) = some t) (past : t ≤ s.m.sid) :
    exec (.lwdom x) s = .next (after x.h none (fun m => m.updCtx m.sl.ctx (fun c =>
      { c with desig := c.desig.del (bits x.imm.toNat 0 4), stepped := c.stepped.del (bits x.imm.toNat 0 4) })) s) := by
  have come : decide ((issued s).sid < t) = false := decide_eq_false (Nat.not_lt.2 past)
  exact run_issue_after r (isReg_zero s) (isReg_zero s) (allowed_of_regs (by simp)) (by
    simp only [bind_apply, get_apply, off, Bool.false_eq_true, if_false, issued_cx, stepped, blockIf_of come, change_apply, pure_apply])

end

/-! ## LWSTEP (R154) -/

/-- A step of the domain of a context that stands at `t`. -/
def domainStepped (c d t fuel : Nat) (m : Mach) : Mach :=
  (stepFirings c d t (t + 2 ^ 20) fuel m).updCtx c (fun y => { y with stepped := y.stepped.put d ((t + 2 ^ 20) % 2 ^ 64) })

theorem exec_lwstep {t : Nat} (stepped : s.m.cx.stepped.find x.imm.toNat = some t) (core : s.m.cx.desig.find x.imm.toNat = some s.m.curCore) :
    exec (.lwstep x) s = .next (after x.h none (domainStepped s.m.sl.ctx x.imm.toNat t (2 ^ 64)) s) := by
  have designated : (s.m.cx.desig.find x.imm.toNat != some s.m.curCore) = false :=
    bne_eq_false_iff_eq.2 core
  exact run_issue_after r (isReg_zero s) (isReg_zero s) (allowed_of_regs (by simp)) (by
    simp only [bind_apply, get_apply, issued_ctx, issued_cx, issued_curCore, stepped, trapIf_of designated, change_apply, pure_apply, domainStepped])

theorem exec_lwstep_free (free : s.m.cx.stepped.find x.imm.toNat = none) :
    exec (.lwstep x) s = .next { s with m := takeTrap s.m.cur 0x1E 0 s.m.sl.retAddr s.m } :=
  run_issue_traps r (isReg_zero s) (isReg_zero s) (allowed_of_regs (by simp)) (by
    simp only [bind_apply, get_apply, issued_cx, free, trap_apply])

theorem exec_lwstep_elsewhere {t : Nat} (stepped : s.m.cx.stepped.find x.imm.toNat = some t)
    (core : s.m.cx.desig.find x.imm.toNat ≠ some s.m.curCore) :
    exec (.lwstep x) s = .next { s with m := takeTrap s.m.cur 0x1F 0 s.m.sl.retAddr s.m } := by
  have designated : (s.m.cx.desig.find x.imm.toNat != some s.m.curCore) = true :=
    bne_iff_ne.2 core
  exact run_issue_traps r (isReg_zero s) (isReg_zero s) (allowed_of_regs (by simp)) (by
    simp only [bind_apply, get_apply, issued_cx, issued_curCore, stepped, trapIf_of_true designated])

end

/-! ## LWTIME and EPHSTAT (R155, R151) -/

theorem exec_lwtime {x : SW} {s : State} (r : Ready x.h s) (ha : IsReg x.a s) (hb : IsReg x.b s) (hd : IsReg x.d s)
    (det : s.m.cx.det = true → (s.m.cx.stepped.find (bits x.mod.toNat 0 4)).isSome = true) :
    exec (.lwtime x) s = .next (after x.h none (fixed 2 (gCells (gNo x.d)
      ((s.m.cx.stepped.find (bits x.mod.toNat 0 4)).getD s.m.sid / 2 ^ bits x.mod.toNat 4 6))) s) := by
  refine run_issue_after r ha hb ⟨rfl, nofun, fun barred => ?_, by simp [hd]⟩ ?_
  · refine Bool.eq_false_iff.2 fun mode => ?_
    have stepped := det mode
    cases found : s.m.cx.stepped.find (bits x.mod.toNat 0 4) <;> simp_all
  · simp only [bind_apply, get_apply, issued_cx, domainTime, issued_sid, wrG_issued hd, pure_apply]

theorem exec_ephstat {x : YW} {s : State} (r : Ready x.h s) (ha : IsReg x.a s) (hb : IsReg x.b s) (hd : IsReg x.d s) (free : Free s) :
    let c := s.m.sl.ctx
    let slice := s.m.slice (bits x.imm.toNat 1 8)
    let octet := s.m.octet (octetOf s.m.curCore)
    let u := if bitAt x.imm.toNat 0 then (slice.eph, slice.refused.get 0 c) else (octet.eph, octet.refused.get 0 c)
    exec (.ephstat x) s = .next (after x.h none (lands .ready (known (gCells (gNo x.d)
      (u.1.length + (u.1.filter (fun e => e.ctx == c)).length * 2 ^ 16 + u.2 * 2 ^ 32)))) s) := by
  intro c slice octet u
  refine run_issue_after r ha hb (allowed_free (fun _ => free) (by simp [hd])) ?_
  simp only [bind_apply, get_apply, issued_ctx, slice_issued, octet_issued, issued_curCore, wrLand_issued hd, pure_apply, u, c, slice, octet]
  by_cases h : bitAt x.imm.toNat 0 = true
  · simp only [h, if_true]
  · simp only [h, Bool.false_eq_true, if_false]

/-- Settles O31. -/
theorem timeDomains : Obligations.TimeDomains := by
  refine ⟨fun x s r => ⟨exec_lwdom_stepped r, exec_lwdom_free r, fun t off stepped past => exec_lwdom_freed r off stepped past⟩,
    fun x s t r => ⟨exec_lwstep r, exec_lwstep_free r, exec_lwstep_elsewhere r⟩, fun x s r ha hb hd => exec_lwtime r ha hb hd,
    fun x s r ha hb hd free => exec_ephstat r ha hb hd free⟩

/-! ## What a law operation writes (R116, R139) -/

theorem num_wrAll (m : Mem) (a n v : Nat) : (m.wrAll (cellsAt a (toLE n v))).num a n = v % 256 ^ n := by
  have bytes : (m.wrAll (cellsAt a (toLE n v))).rdN a n = toLE n v := by
    refine List.ext_getElem (by simp [Mem.rdN]) fun i h1 h2 => ?_
    have small : i < n := by simpa [Mem.rdN] using h1
    simp only [Mem.rdN, List.getElem_map, List.getElem_range]
    rw [rd_cellsAt (by simpa using small), List.getD_eq_getElem _ _ (by simpa using small)]
    have byte := toLE_getD v small
    rw [List.getD_eq_getElem _ _ (by simpa using small)] at byte
    rw [byte, Nat.mod_mod]
  rw [Mem.num, bytes, ofLE_toLE]

theorem bytesOf_setEph (m : Mach) (p : LawAt) (l : List EphEntry) : bytesOf (setEph m p l) = bytesOf m := by
  unfold setEph
  split <;> rfl

theorem bytesOf_ephDrop (p : LawAt) (c : Nat) (m : Mach) : bytesOf (ephDrop p c m) = bytesOf m := bytesOf_setEph ..

theorem bytesOf_ephPut (p : LawAt) (e : EphEntry) (m : Mach) : bytesOf (ephPut p e m) = bytesOf m :=
  (bytesOf_setEph ..).trans (bytesOf_ephDrop ..)

theorem bytesOf_ephRefuse (p : LawAt) (c : Nat) (m : Mach) : bytesOf (ephRefuse p c m) = bytesOf m := by
  unfold ephRefuse
  split <;> rfl

theorem bytesOf_emit (r : LawReq) (d : Desc) (lnow dt present : Nat) (f : Found) (v : Nat) (w : LawWord) (m : Mach) :
    bytesOf (emit r d lnow dt present f v w m) = bytesOf m := by
  unfold emit
  split <;> rfl

theorem bytesOf_useLine (line hint : Nat) (m : Mach) : bytesOf (useLine line hint m) = bytesOf m := by
  unfold useLine
  split <;> dsimp only <;> split <;> rfl

theorem bytesOf_homeStore (l : List (Nat × Nat)) (m : Mach) : bytesOf (homeStore l m) = (m.mem.wrAll l, m.spad) := by
  have used := bytesOf_useLine ((l.headD (0, 0)).1 / 128) 0 (storeMem l m)
  unfold homeStore
  dsimp only
  split <;> exact used

/-- Memory and scratchpads after the word has been written. -/
theorem bytesOf_lawWrite (p : LawAt) (v : Nat) (m : Mach) : bytesOf (lawWrite p v m) =
    if p.oct then (m.mem, m.spad.wrAll (cellsAt p.place (toLE (lawSize p.w128) v)))
    else (m.mem.wrAll (cellsAt p.place (toLE (lawSize p.w128) v)), m.spad) := by
  unfold lawWrite
  split
  · rfl
  · exact bytesOf_homeStore ..

/-- A word with the stamp and the law index given. -/
def Stamped (now law : Nat) (w : LawWord) : Prop := w.stamp = now ∧ w.law = law

theorem ofBool_le (b : Bool) : ofBool b ≤ 1 := by cases b <;> decide

theorem pack_fields (w128 : Bool) (w : LawWord) :
    (LawWord.of w128 (w.pack w128 % 256 ^ lawSize w128)).stamp = w.stamp % 2 ^ stampBits w128 ∧
    (LawWord.of w128 (w.pack w128 % 256 ^ lawSize w128)).law = w.law % 256 := by
  have hc := ofBool_le w.c
  have hl := ofBool_le w.l
  have ha := ofBool_le w.a
  have hx := Nat.mod_lt w.x (y := 2 ^ 32) (by decide)
  have hy := Nat.mod_lt w.y (y := 2 ^ 32) (by decide)
  have hcnt := Nat.mod_lt w.cnt (y := 256) (by decide)
  have hlaw := Nat.mod_lt w.law (y := 256) (by decide)
  cases w128 <;> simp only [LawWord.of, LawWord.pack, lawSize, stampBits, bits, Bool.false_eq_true, if_false, if_true]
  · have hs := Nat.mod_lt w.stamp (y := 2 ^ 20) (by decide)
    norm_num at *
    constructor <;> omega
  · have hs := Nat.mod_lt w.stamp (y := 2 ^ 40) (by decide)
    norm_num at *
    constructor <;> omega

theorem of_law_lt (w128 : Bool) (v : Nat) : (LawWord.of w128 v).law < 256 := by
  cases w128 <;> exact Nat.mod_lt _ (by decide)

section
variable {now law : Nat} {w : LawWord} (h : Stamped now law w)
include h

theorem Stamped.found (w128 : Bool) (n : Nat) (late : Bool) : Stamped now law (w.found w128 n late) := by
  unfold LawWord.found
  split <;> exact h

theorem Stamped.testMod (d : Desc) (w128 : Bool) (dt : Nat) (f : Found) (x : Nat) : Stamped now law (testMod d w128 w dt f x).1 := by
  have tested : Stamped now law ({ w with x := x } : LawWord) := h
  unfold Machine.testMod
  dsimp only
  split
  · have found := tested.found w128 1 (f.n != 0 && w.l)
    split <;> exact found
  · exact h

theorem Stamped.rearm (p : LawAt) (c : Nat) (d : Desc) (lnow : Nat) (m : Mach) :
    Stamped now law (rearm p c d lnow w m).1 ∧ bytesOf (rearm p c d lnow w m).2 = bytesOf m := by
  unfold Machine.rearm
  repeat' split
  · exact ⟨h, rfl⟩
  · exact ⟨h, bytesOf_ephPut ..⟩
  · exact ⟨h, bytesOf_ephDrop ..⟩
  · exact ⟨h, bytesOf_ephDrop ..⟩

theorem Stamped.armWord (r : LawReq) (d : Desc) (lnow : Nat) (m : Mach) :
    Stamped now law (armWord r d lnow w m).2.1 ∧ bytesOf (armWord r d lnow w m).2.2 = bytesOf m := by
  unfold Machine.armWord
  dsimp only
  repeat' split
  · exact ⟨h, bytesOf_ephDrop ..⟩
  · exact ⟨h, bytesOf_ephDrop ..⟩
  · exact ⟨h, rfl⟩
  · exact ⟨h, bytesOf_ephRefuse ..⟩
  · exact ⟨h, bytesOf_ephPut ..⟩

end

/-- An operation has left its word with the law index given, at the present law tick, and no other byte. -/
def Leaves (p : LawAt) (now law : Nat) (m m1 : Mach) : Prop :=
  ∃ w, Stamped now law w ∧ bytesOf m1 = bytesOf (lawWrite p (w.pack p.w128) m)

theorem bytesOf_lawWrite_congr {p : LawAt} {v : Nat} {m m1 : Mach} (h : bytesOf m1 = bytesOf m) :
    bytesOf (lawWrite p v m1) = bytesOf (lawWrite p v m) := by
  obtain ⟨hmem, hspad⟩ := Prod.mk.inj h
  rw [bytesOf_lawWrite, bytesOf_lawWrite, hmem, hspad]

theorem leaves_back {r : LawReq} {d : Desc} {lnow dt present now law : Nat} {f : Found} {v : Nat} {w : LawWord} {m m1 : Mach}
    (h : Stamped now law w ∧ bytesOf m1 = bytesOf m) :
    Leaves r.at_ now law m (emit r d lnow dt present f v w (lawWrite r.at_ (w.pack r.at_.w128) m1)) :=
  ⟨w, h.1, (bytesOf_emit ..).trans (bytesOf_lawWrite_congr h.2)⟩

/-- Every operation that writes its word back leaves it at the present tick, and but for LWSET with its law index. -/
theorem lawOn_leaves {r : LawReq} (d : Desc) (present now : Nat) (onTime : Bool) (m : Mach) (writes : r.op ≠ .peek) (undone : r.op ≠ .disarm) :
    ∃ law, (r.op ≠ .set → law = (LawWord.of r.at_.w128 (lawRead m r.at_)).law) ∧ Leaves r.at_ now law m (lawOn r d present now onTime m).2 := by
  unfold lawOn
  extract_lets at_ w128 w0 new sy sb dt a late w1 f old test back
  have stamped : Stamped now w0.law w1 := Stamped.found (w := { w0 with x := a.out.1, y := a.out.2, stamp := now }) ⟨rfl, rfl⟩ ..
  have written : ∀ {w : LawWord} (f : Found) (retOld : Bool), Stamped now w0.law w → Leaves at_ now w0.law m (back w f retOld m).2 :=
    fun f retOld h => leaves_back (h.rearm ..)
  have tested : ∀ x, Stamped now w0.law (test x).1 := fun x => stamped.testMod ..
  cases kind : r.op with
  | peek => exact absurd kind writes
  | disarm => exact absurd kind undone
  | set =>
    have fresh : Stamped now new.law new := ⟨by simp only [new]; split <;> rfl, rfl⟩
    have kept := fresh.rearm at_ r.c d now m
    exact ⟨new.law, fun h => absurd rfl h, _, kept.1, bytesOf_lawWrite_congr kept.2⟩
  | adv => exact ⟨_, fun _ => rfl, written _ _ stamped⟩
  | add => exact ⟨_, fun _ => rfl, written _ _ (tested _)⟩
  | max => exact ⟨_, fun _ => rfl, written _ _ (tested _)⟩
  | xch => exact ⟨_, fun _ => rfl, written _ _ (by split <;> exact stamped)⟩
  | clr => exact ⟨_, fun _ => rfl, written _ _ stamped⟩
  | cas =>
    dsimp only
    split
    · exact ⟨_, fun _ => rfl, written _ _ (tested _)⟩
    · exact ⟨_, fun _ => rfl, written _ _ stamped⟩
  | arm => exact ⟨_, fun _ => rfl, leaves_back (stamped.armWord ..)⟩

section
variable {p : LawAt} {now law : Nat} {m m1 : Mach} (h : Leaves p now law m m1)
include h

theorem Leaves.read : ∃ w, Stamped now law w ∧ lawRead m1 p = w.pack p.w128 % 256 ^ lawSize p.w128 := by
  obtain ⟨w, stamped, written⟩ := h
  refine ⟨w, stamped, ?_⟩
  rw [bytesOf_lawWrite] at written
  unfold lawRead
  split at written <;> rename_i place <;> obtain ⟨hmem, hspad⟩ := Prod.mk.inj written
  · rw [if_pos place, hspad, num_wrAll]
  · rw [if_neg place, hmem, num_wrAll]

theorem Leaves.stamp : (LawWord.of p.w128 (lawRead m1 p)).stamp = now % 2 ^ stampBits p.w128 := by
  obtain ⟨w, ⟨stamp, _⟩, read⟩ := h.read
  rw [read, (pack_fields p.w128 w).1, stamp]

theorem Leaves.index : (LawWord.of p.w128 (lawRead m1 p)).law = law % 256 := by
  obtain ⟨w, ⟨_, same⟩, read⟩ := h.read
  rw [read, (pack_fields p.w128 w).2, same]

theorem Leaves.spad (oct : p.oct = true) :
    m1.mem = m.mem ∧ ∀ a, (a < p.place ∨ p.place + lawSize p.w128 ≤ a) → m1.spad.rd a = m.spad.rd a := by
  obtain ⟨w, _, written⟩ := h
  rw [bytesOf_lawWrite, if_pos oct] at written
  obtain ⟨hmem, hspad⟩ := Prod.mk.inj written
  exact ⟨hmem, fun a outside => by rw [hspad]; exact Mem.rd_wrAll_cellsAt (by rwa [toLE_length])⟩

theorem Leaves.mem (away : p.oct = false) :
    m1.spad = m.spad ∧ ∀ a, (a < p.place ∨ p.place + lawSize p.w128 ≤ a) → m1.mem.rd a = m.mem.rd a := by
  obtain ⟨w, _, written⟩ := h
  rw [bytesOf_lawWrite, if_neg (by rw [away]; exact Bool.false_ne_true)] at written
  obtain ⟨hmem, hspad⟩ := Prod.mk.inj written
  exact ⟨hspad, fun a outside => by rw [hmem]; exact Mem.rd_wrAll_cellsAt (by rwa [toLE_length])⟩

end

theorem lawOn_peek {r : LawReq} (d : Desc) (present now : Nat) (onTime : Bool) (m : Mach) (peek : r.op = .peek) :
    (lawOn r d present now onTime m).2 = m := by
  unfold lawOn
  rw [peek]

/-- Settles O32. -/
theorem lawOperationFrame : Obligations.LawOperationFrame := by
  intro r d present now onTime m
  refine fun undone => ⟨fun peek => ?_, fun writes => ?_⟩
  · rw [lawOn_peek d present now onTime m peek]
    exact ⟨rfl, rfl⟩
  · obtain ⟨law, index, leaves⟩ := lawOn_leaves d present now onTime m writes undone
    refine ⟨leaves.stamp, fun keeps => ?_, leaves.spad, leaves.mem⟩
    rw [leaves.index, index keeps]
    exact Nat.mod_eq_of_lt (of_law_lt ..)

end Sys2Proof.Claim
end

section
/-! PROOFS. Lane grants (R220 to R222); barriers, semaphores and timelines (R283 to R290). -/
namespace Sys2Proof.Claim
open Machine

/-! ## Lane grants -/

/-- A claim is granted `p` of the `n` lanes asked for. -/
def granted (o p n : Nat) (m : Mach) : Mach := (setClaims o (fun l => l.filter (fun c => c.slot != m.cur)) m).updSlot m.cur (fun y =>
  { y with grantP := p, grantN := p, grantReq := n })

theorem granted_sl (o p n : Nat) (m : Mach) : (granted o p n m).sl = { m.sl with grantP := p, grantN := p, grantReq := n } :=
  Mach.slot_updSlot_self ..

/-- Nobody has claimed lanes before the slot. -/
def claimsFirst (o : Nat) (s : State) : Bool := (headClaim (issued s) o).elim true (fun c => c.slot == s.m.cur)

/-- Lanes free for a claim of the slot, which gives up its grant. -/
def lanesFor (o : Nat) (s : State) : Nat := freeLanes ((issued s).updSlot s.m.cur (fun y => { y with grantP := 0 })) o

/-- The least that a VCLAIM takes. -/
def leastLanes (x : IW) (s : State) : Nat :=
  if s.m.cx.det then bits x.imm.toNat 0 9 else if bits x.imm.toNat 16 9 = 0 then 16 else bits x.imm.toNat 16 9

/-- The claim of a VCLAIM that waits; the slot has given up its grant. -/
def claims (o n least : Nat) (before : Option Wait) (m : Mach) : Mach :=
  setClaims o (fun l => if before == some .lanes then l else l.filter (fun c => c.slot != m.cur) ++ [⟨m.cur, n, least, false⟩])
    (m.updSlot m.cur (fun s => { s with grantP := 0 }))

theorem claims_stopped (o n least : Nat) (before : Option Wait) (m : Mach) (f : Slot → Slot) :
    ((claims o n least before m).updSlot m.cur f).sl = f { m.sl with grantP := 0 } :=
  (sl_updSlot_cur (claims o n least before m) f).trans (congrArg f (Mach.slot_updSlot_self m m.cur fun y => { y with grantP := 0 }))

section
variable {x : IW} {s : State} (r : Ready x.h s) (ha : IsReg x.a s) (hb : IsReg x.b s) (hd : IsReg x.d s)
include r ha hb hd

theorem exec_vclaim_released (released : s.m.sl.wait = some .released) :
    exec (.vclaim x) s = .next (after x.h none (lands .ready (known (gCells (gNo x.d) s.m.sl.grantN))) s) := by
  have done : (s.m.sl.wait == some .released) = true := beq_iff_eq.2 released
  change execVclaim x s = _
  unfold execVclaim
  refine run_issue_after r ha hb (allowed_of_regs (by simp [hd])) ?_
  simp only [bind_apply, get_apply, done, if_true, mine_apply, id, wrLand_issued hd, pure_apply]
  rw [issued_sl]
  rfl

section
variable (asks : s.m.sl.wait ≠ some .released)
include asks

/-- How a VCLAIM ends that has not been granted its lanes yet. -/
theorem run_vclaim : exec (.vclaim x) s =
    let p := min (bits x.imm.toNat 0 9) (lanesFor (octetOf s.m.curCore) s) / 16 * 16
    if claimsFirst (octetOf s.m.curCore) s = true ∧ leastLanes x s ≤ lanesFor (octetOf s.m.curCore) s then
      .next (after x.h none (fun m => lands .ready (known (gCells (gNo x.d) p)) (granted (octetOf s.m.curCore) p (bits x.imm.toNat 0 9) m)) s)
    else .next { s with m := (claims (octetOf s.m.curCore) (bits x.imm.toNat 0 9) (leastLanes x s) s.m.sl.wait s.m).updSlot s.m.cur (fun y =>
      { y with wait := some .lanes, look := [], parked := false }) } := by
  extract_lets p
  have fresh : (s.m.sl.wait == some .released) = false := beq_eq_false_iff_ne.2 asks
  have reg : (granted (octetOf s.m.curCore) p (bits x.imm.toNat 0 9) (issued s)).sl.stream x.d = none := by
    rw [granted_sl, issued_sl]; exact hd
  have number : (granted (octetOf s.m.curCore) p (bits x.imm.toNat 0 9) (issued s)).sl.grantN = p := by rw [granted_sl]
  have granting : ∀ n p, change (fun m => (setClaims (octetOf s.m.curCore) (fun l => l.filter (fun c => c.slot != m.cur)) m).updSlot m.cur
      (fun y => { y with grantP := p, grantN := p, grantReq := n })) = change (granted (octetOf s.m.curCore) p n) := fun _ _ => rfl
  have same : min (bits x.imm.toNat 0 9) (lanesFor (octetOf s.m.curCore) s) / 16 * 16 = p := rfl
  change execVclaim x s = _
  unfold execVclaim
  refine (run_issue_finish r ha hb (allowed_of_regs (by simp [hd]))).trans ?_
  simp only [bind_apply, get_apply, fresh, Bool.false_eq_true, if_false, mine_apply, id, issued_cx, issued_curCore, issued_cur, granule16, granting]
  unfold lanesFor at *
  unfold claimsFirst leastLanes
  by_cases enough : (if s.m.cx.det = true then bits x.imm.toNat 0 9 else if bits x.imm.toNat 16 9 = 0 then 16 else bits x.imm.toNat 16 9) ≤
      freeLanes ((issued s).updSlot s.m.cur (fun y => { y with grantP := 0 })) (octetOf s.m.curCore)
  · have gets := decide_eq_false (Nat.not_lt.2 enough)
    cases older : headClaim (issued s) (octetOf s.m.curCore) with
    | none =>
      simp only [gets, Bool.not_true, Bool.or_false, blockWith_false, change_apply, same, number, wrLand_reg reg, pure_apply, enough]
      rfl
    | some c =>
      by_cases own : (c.slot == s.m.cur) = true
      · simp only [own, gets, Bool.not_true, Bool.or_false, blockWith_false, change_apply, same, number, wrLand_reg reg, pure_apply, enough,
          Option.elim_some]
        rfl
      · simp only [own, Bool.not_false, Bool.true_or, blockWith_true, Option.elim_some]
        rfl
  · simp only [decide_eq_true (Nat.not_le.1 enough), Bool.or_true, blockWith_true, enough, and_false, if_false]
    rfl

theorem exec_vclaim (first : claimsFirst (octetOf s.m.curCore) s = true) (enough : leastLanes x s ≤ lanesFor (octetOf s.m.curCore) s) :
    let p := min (bits x.imm.toNat 0 9) (lanesFor (octetOf s.m.curCore) s) / 16 * 16
    exec (.vclaim x) s = .next (after x.h none (fun m => lands .ready (known (gCells (gNo x.d) p))
      (granted (octetOf s.m.curCore) p (bits x.imm.toNat 0 9) m)) s) :=
  (run_vclaim r ha hb hd asks).trans (if_pos ⟨first, enough⟩)

theorem exec_vclaim_waits (short : claimsFirst (octetOf s.m.curCore) s = false ∨ lanesFor (octetOf s.m.curCore) s < leastLanes x s) :
    ∃ t, exec (.vclaim x) s = .next t ∧ t.m.sl.wait = some .lanes ∧ t.m.sl.grantP = 0 ∧ t.m.sl.pc = s.m.sl.pc := by
  refine ⟨_, (run_vclaim r ha hb hd asks).trans (if_neg fun both => ?_), ?_⟩
  · obtain ⟨first, enough⟩ := both
    rcases short with h | h
    · exact absurd (first.symm.trans h) (by decide)
    · exact absurd enough (Nat.not_le.2 h)
  · have stopped := claims_stopped (octetOf s.m.curCore) (bits x.imm.toNat 0 9) (leastLanes x s) s.m.sl.wait s.m
      (fun y => { y with wait := some .lanes, look := [], parked := false })
    exact ⟨congrArg Slot.wait stopped, congrArg Slot.grantP stopped, (congrArg Slot.pc stopped :)⟩

end
end

theorem exec_vrel {x : ZW} {s : State} (r : Ready x.h s) :
    exec (.vrel x) s = .next (after x.h none (fun m => m.updSlot m.cur (fun y => { y with grantP := 0, grantN := 0 })) s) := by
  have landed : (!(sl s).il.isEmpty) = false := by rw [sl_il, r.landed]; rfl
  exact run_issue_after r (isReg_zero s) (isReg_zero s) (allowed_of_regs (by simp)) (by
    simp only [bind_apply, mine_apply, id, issued_sl, blockIf_of landed, changeMine_apply, pure_apply])

theorem exec_vreneg {x : SW} {s : State} (r : Ready x.h s) (ha : IsReg x.a s) (hb : IsReg x.b s) (hd : IsReg x.d s) :
    let o := octetOf s.m.curCore
    let add := if (headClaim (issued s) o).isSome || s.m.cx.det then 0 else min (s.m.sl.grantReq - s.m.sl.grantP) (freeLanes (issued s) o) / 16 * 16
    exec (.vreneg x) s = .next (after x.h none (fun m => lands .ready (known (gCells (gNo x.d) (s.m.sl.grantP + add)))
      (m.updSlot m.cur (fun y => { y with grantP := y.grantP + add, grantN := y.grantP + add }))) s) := by
  intro o add
  refine run_issue_after r ha hb (allowed_of_regs (by simp [hd])) ?_
  have raised : ((issued s).updSlot (issued s).cur (fun y => { y with grantP := y.grantP + add, grantN := y.grantP + add })).sl
      = { sl s with grantP := (sl s).grantP + add, grantN := (sl s).grantP + add } := by rw [sl_updSlot_cur, issued_sl]
  have reg : ((issued s).updSlot (issued s).cur (fun y => { y with grantP := y.grantP + add, grantN := y.grantP + add })).sl.stream x.d = none := by
    rw [raised]; exact hd
  have amount : (if (headClaim (issued s) (octetOf (issued s).curCore)).isSome || (issued s).cx.det then 0
      else granule16 (min ((issued s).sl.grantReq - (issued s).sl.grantP) (freeLanes (issued s) (octetOf (issued s).curCore)))) = add := by
    rw [issued_cx, issued_sl]; rfl
  simp only [bind_apply, get_apply, changeMine_apply, mine_apply, id, amount, wrLand_reg reg, pure_apply]
  rw [raised]
  rfl

/-- Settles O28. -/
theorem laneClaims : Obligations.LaneClaims := by
  refine ⟨fun x s r ha hb hd => ?_, fun x s r => exec_vrel r, fun x s r ha hb hd => exec_vreneg r ha hb hd⟩
  exact ⟨exec_vclaim r ha hb hd, exec_vclaim_released r ha hb hd, exec_vclaim_waits r ha hb hd⟩

/-! ## Barriers (R283 to R285) -/

theorem barOf_issued (s : State) (c core h : Nat) : barOf (issued s) c core h = barOf s.m c core h := rfl
theorem cluster_issued (s : State) (c : Nat) : (issued s).cluster c = s.m.cluster c := rfl

section
variable {y : MW} {s : State} (r : Ready y.h s) (ha : IsReg y.a s) (hb : IsReg y.b s)
include r ha hb

theorem exec_bari {j g : Nat} (hd : IsReg y.d s) (some : val y.a s ≠ 0)
    (held : ∀ k < 64, bitAt (val y.a s) k = true → holdsSlot (issued s) s.m.sl.ctx (64 * clusterOf s.m.curCore + k) = true)
    (free : (List.range 64).find? (fun k => !((s.m.cluster (clusterOf s.m.curCore)).bars.get Barrier.init k).live) = .some j)
    (next : (((s.m.cluster (clusterOf s.m.curCore)).bars.get Barrier.init j).gen + 1) % 2 ^ 32 = g) :
    exec (.bari y) s = .next (after y.h none (fun m => lands .ready
      (known (gCells (gNo y.d) (j + clusterOf s.m.curCore * 2 ^ 6 + g * 2 ^ 32)))
      (barPut m.curCore j ⟨true, s.m.sl.ctx, g, val y.a s, 0, []⟩ m)) s) := by
  have nobody : (List.range 64).any (fun i => bitAt (val y.a s) i && !holdsSlot (issued s) s.m.sl.ctx (64 * clusterOf s.m.curCore + i)) = false := by
    rw [List.any_eq_false]
    intro k hk
    by_cases h : bitAt (val y.a s) k = true
    · simp [held k (List.mem_range.1 hk) h]
    · simp [h]
  have good : (val y.a s == 0 || (List.range 64).any (fun i => bitAt (val y.a s) i &&
      !holdsSlot (issued s) s.m.sl.ctx (64 * clusterOf s.m.curCore + i))) = false := by rw [nobody, beq_eq_false_iff_ne.2 some]; rfl
  have reg : (barPut s.m.curCore j ⟨true, s.m.sl.ctx, g, val y.a s, 0, []⟩ (issued s)).sl.stream y.d = none := hd.issued
  refine run_issue_after r ha hb (allowed_of_regs (by simp [ha, hd])) ?_
  simp only [bind_apply, get_apply, rdG_val ha, issued_ctx, issued_curCore, cluster_issued, trapIf_of good, free, next, change_apply,
    wrLand_reg reg, pure_apply]
  rfl

theorem exec_bariFree {b : Barrier} (named : barOf s.m s.m.sl.ctx s.m.curCore (val y.a s) = some b) (even : ∀ k ∈ b.members, b.lead k = 0)
    (nobody : barWaited (issued s) (clusterOf s.m.curCore) (barObj (val y.a s)) = false) :
    exec (.bariFree y) s = .next (after y.h none (fun m => barPut m.curCore (barObj (val y.a s)) { b with live := false } m) s) := by
  have leads : b.members.any (fun i => b.lead i != 0) = false :=
    List.any_eq_false.2 fun k hk => by rw [even k hk]; exact Bool.false_ne_true
  have idle : (b.members.any (fun i => b.lead i != 0) || barWaited (issued s) (clusterOf s.m.curCore) (barObj (val y.a s))) = false := by
    rw [leads, nobody]; rfl
  exact run_issue_after r ha hb (allowed_of_regs (by simp [ha])) (by
    simp only [bind_apply, get_apply, rdG_val ha, issued_ctx, issued_curCore, barOf_issued, named, trapIf_of idle, change_apply, pure_apply])

end

/-- The barrier with one more arrival of core `i` of its cluster. -/
def arrivedAt (b : Barrier) (i : Nat) : Barrier := { b with arrived := b.arrived.put i (b.arrived.get 0 i + 1) }

/-- An arrival at the object, and the end of the phase when it is the last. -/
def meets (cl obj i : Nat) (b : Barrier) (m : Mach) : Mach :=
  let done := (arrivedAt b i).members.all (fun j => decide ((arrivedAt b i).phase + 1 ≤ (arrivedAt b i).arrived.get 0 j))
  let m := barPut m.curCore obj (if done then { arrivedAt b i with phase := (arrivedAt b i).phase + 1 } else arrivedAt b i) m
  if done then phaseDone cl b m else m

section
variable {x : SW} {s : State} {b : Barrier} (r : Ready x.h s) (ha : IsReg x.a s) (hb : IsReg x.b s)
  (named : barOf s.m s.m.sl.ctx s.m.curCore (val x.a s) = some b) (member : bitAt b.mask (s.m.curCore % 64) = true)
include r ha hb named member

theorem exec_bara (hd : IsReg x.d s) (idle : Idle s) (close : b.lead (s.m.curCore % 64) ≠ 3)
    (reg : (meets (clusterOf s.m.curCore) (barObj (val x.a s)) (s.m.curCore % 64) b (issued s)).sl.stream x.d = none) :
    exec (.bara x) s = .next (after x.h none (fun m =>
      lands .ready (known (gCells (gNo x.d) ((b.arrived.get 0 (s.m.curCore % 64) + 1) % 4)))
        (meets (clusterOf s.m.curCore) (barObj (val x.a s)) (s.m.curCore % 64) b m)) s) := by
  have outside : (!bitAt b.mask (s.m.curCore % 64)) = false := by rw [member]; rfl
  have near : (b.lead (s.m.curCore % 64) == 3) = false := beq_eq_false_iff_ne.2 close
  have result : ∀ m1, m1 = meets (clusterOf s.m.curCore) (barObj (val x.a s)) (s.m.curCore % 64) b (issued s) →
      wrLand .ready x.d ((b.arrived.get 0 (s.m.curCore % 64) + 1) % 4) m1 =
        .ok ((), lands .ready (known (gCells (gNo x.d) ((b.arrived.get 0 (s.m.curCore % 64) + 1) % 4))) m1) := by
    rintro m1 rfl
    exact wrLand_reg reg
  refine run_issue_after r ha hb (allowed_of_regs (by simp [ha, hd])) ?_
  simp only [bind_apply, get_apply, rdG_val ha, issued_ctx, issued_curCore, barOf_issued, named, trapIf_of outside, drain_idle idle,
    blockIf_of near, change_apply, pure_apply]
  rw [result]
  · rfl
  · rfl

theorem exec_barw (passed : (match s.m.sl.wait with
      | some (.barrier _ _ _ n) => n
      | _ => b.arrived.get 0 (s.m.curCore % 64) - (b.arrived.get 0 (s.m.curCore % 64) + 4 - val x.b s % 4) % 4) ≤ b.phase ∨
      s.m.sl.wait = some .released) :
    exec (.barw x) s = .next (after x.h none (fun m => l1Inv m.curCore m) s) := by
  have outside : (!bitAt b.mask (s.m.curCore % 64)) = false := by rw [member]; rfl
  change execBarw x s = _
  unfold execBarw
  refine run_issue_after r ha hb (allowed_of_regs (by simp [ha, hb])) ?_
  simp only [bind_apply, get_apply, rdG_val ha, rdG_val hb, issued_ctx, issued_curCore, barOf_issued, named, trapIf_of outside]
  rw [blockIf_of]
  · rfl
  · exact Bool.and_eq_false_iff.2 (passed.imp (fun h => decide_eq_false (Nat.not_lt.2 h)) bne_eq_false_iff_eq.2)

end

theorem barriers : Barriers := by
  intro x y s cl i
  refine ⟨fun r ha hb hd => ⟨?_, fun b named even nobody => exec_bariFree r ha hb named even nobody⟩, fun r ha hb hd b named member => ⟨?_, ?_⟩⟩
  · rintro j g some held free rfl
    exact exec_bari r ha hb hd some held free rfl
  · intro idle close
    extract_lets b1 done met
    exact fun _ reg => exec_bara r ha hb named member hd idle close reg
  · exact exec_barw r ha hb named member

/-! ## Semaphores (R286, R287) -/

section
variable {x : IW} {s : State} (r : Ready x.h s)
include r

theorem exec_semp (first : semFirst (s.m.pair s.m.sl.ctx (pairOf s.m.curCore)).semP x.d.toNat s.m.cur = true)
    (fits : (s.m.pair s.m.sl.ctx (pairOf s.m.curCore)).ps.get 0 x.d.toNat + x.imm.toNat ≤ 255) :
    let c := s.m.sl.ctx
    let pr := pairOf s.m.curCore
    let p := s.m.pair c pr
    exec (.semp x) s = .next (after x.h none (fun m =>
      let m := m.setPair c pr { p with
        ps := p.ps.put x.d.toNat (p.ps.get 0 x.d.toNat + x.imm.toNat), semP := p.semP.erase (8 * s.m.cur + x.d.toNat) }
      (m.slotsOfCtx c).foldl (fun m j => if pairOf (coreOf j) == pr then m.updSlot j (fun y => { y with latch := y.latch ||| 4 }) else m) m) s) := by
  intro c pr p
  have goes : (!(semFirst p.semP x.d.toNat s.m.cur && decide (p.ps.get 0 x.d.toNat + x.imm.toNat ≤ 255))) = false := by
    rw [first, decide_eq_true fits]; rfl
  exact run_issue_after r (isReg_zero s) (isReg_zero s) (allowed_of_regs (by simp)) (by
    simp only [bind_apply, get_apply, issued_ctx, issued_curCore, issued_cur, issued_pair]
    rw [blockWith_of goes]
    rfl)

theorem exec_semw (first : semFirst (s.m.pair s.m.sl.ctx (pairOf s.m.curCore)).semW x.d.toNat s.m.cur = true)
    (fits : x.imm.toNat ≤ (s.m.pair s.m.sl.ctx (pairOf s.m.curCore)).ps.get 0 x.d.toNat) :
    let c := s.m.sl.ctx
    let pr := pairOf s.m.curCore
    let p := s.m.pair c pr
    exec (.semw x) s = .next (after x.h none (fun m => m.setPair c pr { p with
      ps := p.ps.put x.d.toNat (p.ps.get 0 x.d.toNat - x.imm.toNat), semW := p.semW.erase (8 * s.m.cur + x.d.toNat) }) s) := by
  intro c pr p
  have goes : (!(semFirst p.semW x.d.toNat s.m.cur && decide (x.imm.toNat ≤ p.ps.get 0 x.d.toNat))) = false := by
    rw [first, decide_eq_true fits]; rfl
  exact run_issue_after r (isReg_zero s) (isReg_zero s) (allowed_of_regs (by simp)) (by
    simp only [bind_apply, get_apply, issued_ctx, issued_curCore, issued_cur, issued_pair]
    rw [blockWith_of goes]
    rfl)

end

theorem exec_semi {x : YW} {s : State} (r : Ready x.h s) (priv : Privileged s) :
    let p := s.m.pair s.m.sl.ctx (pairOf s.m.curCore)
    exec (.semi x) s = .next (after x.h none (fun m => m.setPair s.m.sl.ctx (pairOf s.m.curCore)
      { p with ps := p.ps.put (bits x.mod.toNat 0 3) (bits x.imm.toNat 0 8) }) s) := by
  intro p
  refine run_issue_after r (isReg_zero s) (isReg_zero s) ⟨rfl, fun _ => priv, nofun, nofun⟩ ?_
  simp only [bind_apply, change_apply, issued_ctx, issued_curCore, issued_pair, pure_apply, p]

/-- The first waiter of SEMW is served once the count allows it. -/
theorem exec_semaphoreServe {c pair sem k n l : Nat} {s : State} (waits : (s.m.slot k).wait = some (.semW c pair sem n l))
    (first : (semQueue (s.m.pair c pair).semW sem).head? = some k) (enough : n ≤ (s.m.pair c pair).ps.get 0 sem) :
    exec (.semaphoreServe c pair sem) s = .next { s with m := s.m.updSlot k (fun y => { y with wait := none }) } := by
  refine device_ok ?_
  simp only [bind_apply, get_apply, first, Option.toList_some, List.cons_append, List.nil_append]
  rw [List.find?_cons_of_pos]
  · rfl
  · simp only [waits, beq_self_eq_true, decide_eq_true enough, Bool.and_self]

theorem semaphores : Semaphores :=
  ⟨fun _ _ r => ⟨exec_semp r, exec_semw r⟩, fun _ _ r => exec_semi r, fun _ _ _ _ _ _ _ => exec_semaphoreServe⟩

/-! ## Timelines (R288 to R290) -/

/-- The number that a TWAIT waits for. -/
def awaited (x : IW) (s : State) : Nat :=
  if bitAt x.mod.toNat 0 then ofInt 64 ((val x.a s : Int) + sx 32 x.imm.toNat) else x.imm.toNat

section
variable {x : IW} {s : State} (r : Ready x.h s) (ha : IsReg x.a s) (hb : IsReg x.b s)
include r ha hb

/-- How a TWAIT ends. -/
theorem run_twait : exec (.twait x) s = finish s ((blockIf
      (decide (((issued s).tlOf (tlSlot (issued s).cur (x.d.toNat - 16)) (x.d.toNat - 16)).count < awaited x s) && s.m.sl.wait != some .released)
      (.timeline (tlSlot (issued s).cur (x.d.toNat - 16)) (x.d.toNat - 16) (awaited x s)) (issued s)).map
    (fun p => ((), retire x.h none (l1Inv p.2.curCore p.2)))) := by
  change execTwait x s = _
  unfold execTwait awaited
  by_cases reg : bitAt x.mod.toNat 0 = true
  · simp only [reg, if_true]
    refine (run_issue_finish r ha hb (allowed_of_regs (by simp [ha]))).trans ?_
    simp only [bind_apply, get_apply, rdG_val ha]
    cases blockIf _ _ (issued s) <;> rfl
  · simp only [eq_false_of_ne_true reg, Bool.false_eq_true, if_false]
    refine (run_issue_finish r ha hb (allowed_of_regs (by simp))).trans ?_
    simp only [bind_apply, get_apply, pure_apply]
    cases blockIf _ _ (issued s) <;> rfl

theorem exec_twait (come : awaited x s ≤ ((issued s).tlOf (tlSlot s.m.cur (x.d.toNat - 16)) (x.d.toNat - 16)).count) :
    exec (.twait x) s = .next (after x.h none (fun m => l1Inv m.curCore m) s) := by
  have goes : decide (((issued s).tlOf (tlSlot (issued s).cur (x.d.toNat - 16)) (x.d.toNat - 16)).count < awaited x s) = false :=
    decide_eq_false (Nat.not_lt.2 come)
  rw [run_twait r ha hb, goes]
  rfl

theorem exec_twait_waits (early : ((issued s).tlOf (tlSlot s.m.cur (x.d.toNat - 16)) (x.d.toNat - 16)).count < awaited x s)
    (asks : s.m.sl.wait ≠ some .released) :
    exec (.twait x) s = .next { s with m := s.m.updSlot s.m.cur (fun y => { y with
      wait := some (.timeline (tlSlot s.m.cur (x.d.toNat - 16)) (x.d.toNat - 16) (awaited x s)), look := [], parked := false }) } := by
  have stays : decide (((issued s).tlOf (tlSlot (issued s).cur (x.d.toNat - 16)) (x.d.toNat - 16)).count < awaited x s) = true :=
    decide_eq_true early
  rw [run_twait r ha hb, stays, bne_iff_ne.2 asks]
  rfl

end

theorem exec_tread {x : SW} {s : State} (r : Ready x.h s) (ha : IsReg x.a s) (free : Free s) :
    exec (.tread x) s = .next (after x.h none (lands .ready (known (gCells (gNo x.a)
      ((issued s).tlOf (tlSlot s.m.cur (x.d.toNat - 16)) (x.d.toNat - 16)).count))) s) :=
  run_issue_after r (isReg_zero s) (isReg_zero s) (allowed_free (fun _ => free) (by simp [ha])) (by
    simp only [bind_apply, get_apply, issued_cur, wrLand_issued ha, pure_apply])

theorem exec_tset {x : YW} {s : State} (r : Ready x.h s) (ha : IsReg x.a s) (hb : IsReg x.b s) (priv : Privileged s) :
    let t := x.d.toNat - 16
    let other := bitAt x.mod.toNat 0
    let k := tlSlot (if other then keyOf (bits x.imm.toNat 0 14) (bits x.mod.toNat 1 2) else s.m.cur) t
    (other = true → ((issued s).slot k).run ≠ .free ∧ ((issued s).slot k).ctx = s.m.sl.ctx) → (∀ c ∈ s.m.cmds, ¬ (c.slot = k ∧ c.tl = t)) →
    exec (.tset x) s = .next (after x.h none (setTimeline k t ⟨val x.a s, val x.a s, 0⟩) s) := by
  intro t other k inUse none
  have known : (other && !(((issued s).slot k).run != .free && ((issued s).slot k).ctx == s.m.sl.ctx)) = false := by
    cases h : other
    · rfl
    · obtain ⟨run, ctx⟩ := inUse h
      rw [bne_iff_ne.2 run, beq_iff_eq.2 ctx]; rfl
  have quiet : s.m.cmds.any (fun c => c.slot == k && c.tl == t) = false :=
    List.any_eq_false.2 fun c hc => by rw [Bool.and_eq_true, beq_iff_eq, beq_iff_eq]; exact none c hc
  refine run_issue_after r ha hb ⟨rfl, fun _ => priv, nofun, by simp [ha]⟩ ?_
  simp only [bind_apply, get_apply, rdG_val ha, issued_ctx, issued_cur, issued_cmds]
  rw [trapIf_of known]
  dsimp only
  rw [trapIf_of quiet]
  rfl

theorem timelines : Timelines :=
  ⟨fun _ _ r ha hb => ⟨exec_twait r ha hb, exec_twait_waits r ha hb⟩, fun _ _ r ha free => exec_tread r ha free,
    fun _ _ r ha hb priv => exec_tset r ha hb priv⟩

/-- Settles O25. -/
theorem barriersSemaphoresAndTimelines : Obligations.BarriersSemaphoresAndTimelines := ⟨barriers, semaphores, timelines⟩

end Sys2Proof.Claim
end

section
/-! PROOFS. Constellations (R269, R291 to R293) and event queues (R157 to R162). -/
namespace Sys2Proof.Claim
open Machine

/-- Reads of scratchpad words that hold no error, of the word at issue. -/
theorem spRead_issued {o n : Nat} {s : State} (sound : Sound o n s) :
    spRead o n (issued s) = .ok (s.m.spad.rdN (spPlace s.m.curCore o) n, issued s) := spRead_of_sound (m := issued s) sound

/-- An action that completes hands its answer on. -/
theorem bind_of {α β : Type} {x : M α} {f : α → M β} {a : α} {m m1 : Mach} (h : x m = .ok (a, m1)) : (x >>= f) m = f a m1 := by
  rw [bind_apply, h]

/-! ## GNODE (R291) -/

/-- The node that the quads of a record describe. -/
def nodeOf (q : List Nat) : Node :=
  ⟨bits (q.getD 0 0) 0 2, bits (q.getD 0 0) 4 8, nodeSucc q, q.getD 1 0, q.getD 2 0, false, false, false, false, false, 0⟩

section
variable {x : MW} {s : State} (r : Ready x.h s) (ha : IsReg x.a s) (hb : IsReg x.b s)
include r ha hb

theorem exec_gnode (clear : Clear s) {q : List Nat}
    (record : quadsOf (s.m.spad.rdN (spPlace s.m.curCore (addDisp (val x.a s) x.disp)) 32) 4 = q)
    (aligned : addDisp (val x.a s) x.disp % 32 = 0) (window : InWindow (addDisp (val x.a s) x.disp) 32 s)
    (sound : Sound (addDisp (val x.a s) x.disp) 32 s) (inRange : inNodes s.m.cx (val x.b s) = true)
    (succ : ∀ i ∈ nodeSucc q, inNodes s.m.cx i = true)
    (dead : ((s.m.cluster (clusterOf s.m.curCore)).nodes.find (val x.b s)).any (·.live) = false) (good : nodeBad q = false) :
    exec (.gnode x) s = .next (after x.h none (fun m =>
      m.setCluster (clusterOf s.m.curCore) { m.cluster (clusterOf s.m.curCore) with
        nodes := (m.cluster (clusterOf s.m.curCore)).nodes.put (val x.b s) (nodeOf q) }) s) := by
  have places : (!inNodes s.m.cx (val x.b s) || (nodeSucc q).any (fun i => !inNodes s.m.cx i)) = false := by
    rw [inRange, Bool.not_true, Bool.false_or, List.any_eq_false]
    exact fun i hi => by rw [succ i hi]; exact Bool.false_ne_true
  exact run_issue_after r ha hb (allowed_of_regs (by simp)) (by
    simp only [bind_of (rdGp_issued _ s), bind_of (accessGate_apply clear), bind_of (get_apply _), bind_of (trapIf_of (misaligned_eq.2 aligned) ..),
      bind_of (trapIf_of window ..), bind_of (spRead_issued sound), record, issued_cx, issued_curCore, cluster_issued,
      bind_of (trapIf_of places ..), bind_of (trapIf_of dead ..), bind_of (trapIf_of good ..), bind_of (change_apply ..), pure_apply]
    rfl)

/-! ## GSUB and GQRY (R292, R293) -/

theorem exec_gsub {i : Nat} (hd : IsReg x.d s) (idle : Idle s) (clear : Clear s) {ix : List Nat}
    (list : (List.range (val x.b s)).map (fun j => ofLE (((s.m.spad.rdN (spPlace s.m.curCore (addDisp (val x.a s) x.disp)) (2 * val x.b s)).drop
      (2 * j)).take 2)) = ix)
    (some : 0 < val x.b s) (fits : val x.b s ≤ 1024) (aligned : addDisp (val x.a s) x.disp % 2 = 0)
    (window : InWindow (addDisp (val x.a s) x.disp) (2 * val x.b s) s) (sound : Sound (addDisp (val x.a s) x.disp) (2 * val x.b s) s)
    (nodes : ∀ j ∈ ix, inNodes s.m.cx j = true ∧ ∃ n, (s.m.cluster (clusterOf s.m.curCore)).nodes.find j = .some n ∧ n.live = false)
    (once : ix.Nodup)
    (free : (List.range 64).find? (fun j => !((s.m.cluster (clusterOf s.m.curCore)).cons.find j).any (·.live)) = .some i) :
    let cl := clusterOf s.m.curCore
    let gn := nextGen (s.m.cluster cl) i
    exec (.gsub x) s = .next (after x.h none (fun m => launchFirst cl ix
      (lands .ready (known (gCells (gNo x.d) (i + cl * 2 ^ 6 + gn % 2 ^ 32 * 2 ^ 32)))
        ((makeConstellation cl i gn ix m).updSlot m.cur Slot.countPath))) s) := by
  intro cl gn
  have count : (val x.b s == 0 || decide (1024 < val x.b s)) = false := by
    rw [beq_eq_false_iff_ne.2 (Nat.pos_iff_ne_zero.1 some), decide_eq_false (Nat.not_lt.2 fits)]; rfl
  have each : ∀ j ∈ ix, (!inNodes s.m.cx j || (match (s.m.cluster (clusterOf s.m.curCore)).nodes.find j with
      | .some n => n.live
      | none => true)) = false := fun j hj => by
    obtain ⟨inRange, n, found, dead⟩ := nodes j hj
    rw [inRange, found]
    exact dead
  have length : (ix.dedup.length != ix.length) = false := by rw [once.dedup]; exact bne_self_eq_false _
  have reg : ∀ cl gn, ((makeConstellation cl i gn ix (issued s)).updSlot (makeConstellation cl i gn ix (issued s)).cur
      Slot.countPath).sl.stream x.d = none := fun cl gn => by
    rw [sl_updSlot_cur]
    exact hd.issued
  refine run_issue_after r ha hb (allowed_of_regs (by simp [hd])) ?_
  simp only [bind_apply, rdGp_issued, accessGate_apply clear, get_apply, trapIf_of count, trapIf_of (misaligned_eq.2 aligned), trapIf_of window,
    spRead_issued sound, list, issued_cx, issued_curCore, cluster_issued]
  rw [trapIf_of (by rw [length, Bool.or_false]; exact List.any_eq_false.2 fun j hj => Bool.eq_false_iff.1 (each j hj))]
  simp only [free, bind_apply, drain_idle idle, get_apply, cluster_issued, change_apply, changeMine_apply, wrLand_reg (reg _ _), pure_apply, conHandle]
  rfl

theorem exec_gqry (hd : IsReg x.d s) (nondet : Free s) :
    exec (.gqry x) s = .next (after x.h none (lands .ready (known (gCells (gNo x.d) (gqryWord s.m s.m.sl.ctx (val x.a s))))) s) :=
  run_issue_after r ha hb (allowed_free (fun _ => nondet) (by simp [hd])) (by
    simp only [bind_apply, rdGp_issued, get_apply, issued_ctx, wrLand_issued hd, pure_apply]
    rfl)

end

theorem constellations : Constellations := by
  refine ⟨fun x s r ha hb clear => ?_, fun x s i r ha hb hd idle clear => ?_, fun x s r ha hb hd nondet => exec_gqry r ha hb hd nondet⟩
  · intro ea cl q aligned window sound inRange succ dead good node
    exact exec_gnode r ha hb clear rfl aligned window sound inRange succ dead good
  · exact exec_gsub r ha hb hd idle clear rfl

/-! ## Event queues -/

/-- Interlocked results in successive registers, none of which names a bound stream. -/
theorem wrLands_regs {d : BitVec 8} {s : State} (hd : ∀ i < 8, IsReg (regAt d i) s) (q : List Nat) :
    wrLands d ((List.range 8).map (fun i => q.getD i 0)) (issued s) =
      .ok ((), lands .ready (known ((List.range 8).map (fun i => gCells (gNo (regAt d i)) (q.getD i 0))).flatten) (issued s)) := by
  have regs : ∀ i < 8, (sl s).stream (regAt d i) = none := hd
  have listed : (((List.range 8).map (fun i => q.getD i 0)).zipIdx.map (fun v => (regAt d v.2, v.1)))
      = (List.range 8).map (fun i => (regAt d i, q.getD i 0)) := rfl
  have kept : ((List.range 8).map (fun i => (regAt d i, q.getD i 0))).filter (fun p => ((sl s).stream p.1).isNone)
      = (List.range 8).map (fun i => (regAt d i, q.getD i 0)) :=
    List.filter_eq_self.2 fun p hp => by
      obtain ⟨i, hi, rfl⟩ := List.mem_map.1 hp
      rw [regs i (List.mem_range.1 hi)]
      rfl
  unfold wrLands
  simp only [bind_apply, mine_apply, id, issued_sl, listed]
  rw [forM_ok]
  · simp only [kept, List.map_map, setLand_apply]
    rfl
  · intro p hp
    obtain ⟨i, hi, rfl⟩ := List.mem_map.1 hp
    simp only [regs i (List.mem_range.1 hi), pure_apply]

/-- What EVPOP writes to registers and predicates. -/
def popped (x : SW) (q : List Nat) (there : Bool) (m : Mach) : Mach :=
  let m := lands .ready (known ((List.range 8).map (fun i => gCells (gNo (regAt x.d i)) (q.getD i 0))).flatten) m
  if x.c = 0 then m else lands .ready (known (qCells (qNo x.c) there)) m

theorem regsAt_eight {b : BitVec 8} {s : State} (h : ∀ i < 8, IsReg (regAt b i) s) : ∀ c ∈ regsAt b 8, IsReg c s := fun c hc => by
  obtain ⟨i, hi, rfl⟩ := List.mem_map.1 hc
  exact h i (List.mem_range.1 hi)

theorem exec_evpop {x : SW} {s : State} (r : Ready x.h s) (hd : ∀ i < 8, IsReg (regAt x.d i) s) (det : s.m.cx.det = true → s.m.sl.evq ≠ [])
    (ring : s.m.sl.evq = [] → s.m.sl.rq = 0) :
    exec (.evpop x) s = .next (after x.h none (fun m =>
      let m := popped x (s.m.sl.evq.headD []) (!s.m.sl.evq.isEmpty) m
      m.updSlot m.cur (fun y => { y with evq := y.evq.tail })) s) := by
  have goes : (s.m.cx.det && (sl s).evq.isEmpty && (sl s).rq == 0) = false := by
    change (s.m.cx.det && s.m.sl.evq.isEmpty && s.m.sl.rq == 0) = false
    cases mode : s.m.cx.det
    · rfl
    · rw [List.isEmpty_eq_false_iff.2 (det mode)]; rfl
  have there : ((sl s).evq.isEmpty && (sl s).rq != 0) = false := by
    change (s.m.sl.evq.isEmpty && s.m.sl.rq != 0) = false
    by_cases none : s.m.sl.evq = []
    · rw [ring none]; exact Bool.and_false _
    · rw [List.isEmpty_eq_false_iff.2 none]; rfl
  have regs : ∀ p ∈ (regsAt x.d 8).map (fun b => (b, Machine.Acc.write)), IsReg p.1 s := fun p hp => by
    obtain ⟨b, hb, rfl⟩ := List.mem_map.1 hp
    exact regsAt_eight hd b hb
  refine run_issue_after r (isReg_zero s) (isReg_zero s) (allowed_of_regs regs) ?_
  simp only [bind_apply, get_apply, issued_cx, issued_sl, blockIf_of goes, blockIf_of there, wrLands_regs hd]
  unfold popped
  by_cases plain : x.c = 0
  · simp only [plain, if_true, changeMine_apply, bind_apply]
    rfl
  · simp only [plain, if_false, setLand_apply, changeMine_apply, bind_apply]
    rfl

section
variable {x : IW} {s : State} (r : Ready x.h s) (hd : IsReg x.d s) (nondet : Free s)
include r hd nondet

theorem exec_evwait (enough : x.imm.toNat ≤ s.m.sl.evq.length + s.m.sl.rq) :
    exec (.evwait x) s = .next (after x.h none (lands .ready (known (gCells (gNo x.d) (s.m.sl.evq.length + s.m.sl.rq)))) s) := by
  have goes : decide ((issued s).sl.evq.length + (issued s).sl.rq < x.imm.toNat) = false := by
    rw [issued_sl]; exact decide_eq_false (Nat.not_lt.2 enough)
  refine run_issue_after r (isReg_zero s) (isReg_zero s) (allowed_free (fun _ => nondet) (by simp [hd])) ?_
  simp only [bind_apply, mine_apply, id, blockIf_of goes, wrLand_issued hd, pure_apply]
  rw [issued_sl]
  rfl

theorem exec_evwait_waits (few : s.m.sl.evq.length + s.m.sl.rq < x.imm.toNat) :
    exec (.evwait x) s = .next { s with m := s.m.updSlot s.m.cur (fun y =>
      { y with wait := some (.records x.imm.toNat), look := [], parked := false }) } := by
  have stays : decide ((issued s).sl.evq.length + (issued s).sl.rq < x.imm.toNat) = true := by
    rw [issued_sl]; exact decide_eq_true few
  refine (run_issue_finish r (isReg_zero s) (isReg_zero s) (allowed_free (fun _ => nondet) (by simp [hd]))).trans ?_
  simp only [bind_apply, mine_apply, id, stays, blockIf_true]
  rfl

end

theorem mapM_rdG {s : State} : ∀ {l : List (BitVec 8)}, (∀ b ∈ l, IsReg b s) → l.mapM rdG (issued s) = .ok (l.map (val · s), issued s)
  | [], _ => rfl
  | b :: l, h => by
    rw [List.mapM_cons, bind_apply, rdG_val (h b (List.mem_cons_self ..))]
    simp only [bind_apply, mapM_rdG (fun c hc => h c (List.mem_cons_of_mem _ hc)), pure_apply, List.map_cons]

theorem evpush_pops {a b : BitVec 8} {s : State} (ha : IsReg a s) (hq : ∀ i < 8, IsReg (regAt b i) s) :
    ∀ p ∈ (a :: regsAt b 8).map (fun b => (b, Machine.Acc.read)), IsReg p.1 s := fun p hp => by
  obtain ⟨c, hc, rfl⟩ := List.mem_map.1 hp
  rcases List.mem_cons.1 hc with rfl | h
  · exact ha
  · exact regsAt_eight hq c h

theorem mapM_regsAt {b : BitVec 8} {s : State} (h : ∀ i < 8, IsReg (regAt b i) s) :
    (regsAt b 8).mapM rdG (issued s) = .ok ((List.range 8).map (fun i => val (regAt b i) s), issued s) := by
  rw [mapM_rdG (regsAt_eight h), regsAt, List.map_map]
  rfl

section
variable {x : SW} {s : State} (r : Ready x.h s) (ha : IsReg x.a s) (hb : IsReg x.b s) (hq : ∀ i < 8, IsReg (regAt x.b i) s)
include r ha hb hq

theorem exec_evpush (room : RoomSt s) (low : val x.a s < 2 ^ 16)
    (there : ((issued s).slot (keyOf (bits (val x.a s) 0 14) (bits (val x.a s) 14 2))).run ≠ .free ∧
      ((issued s).slot (keyOf (bits (val x.a s) 0 14) (bits (val x.a s) 14 2))).ctx = s.m.sl.ctx) :
    exec (.evpush x) s = .next (after x.h none (fun m => bumpSt m.cur { m with records := m.records ++
      [⟨s.m.sl.ctx, keyOf (bits (val x.a s) 0 14) (bits (val x.a s) 14 2), (List.range 8).map (fun i => val (regAt x.b i) s), some m.cur, none⟩] }) s) := by
  obtain ⟨run, ctx⟩ := there
  have good : (decide (2 ^ 16 ≤ val x.a s) || !(((issued s).slot (keyOf (bits (val x.a s) 0 14) (bits (val x.a s) 14 2))).run != .free &&
      ((issued s).slot (keyOf (bits (val x.a s) 0 14) (bits (val x.a s) 14 2))).ctx == s.m.sl.ctx)) = false := by
    rw [decide_eq_false (Nat.not_le.2 low), bne_iff_ne.2 run, beq_iff_eq.2 ctx]; rfl
  refine run_issue_after r ha hb (allowed_of_regs (evpush_pops ha hq)) ?_
  simp only [bind_apply, rdG_val ha, mapM_regsAt hq, get_apply, issued_ctx, trapIf_of good, roomSt_apply room, change_apply,
    pure_apply]

theorem exec_evpush_nowhere (nowhere : 2 ^ 16 ≤ val x.a s ∨
      ¬ (((issued s).slot (keyOf (bits (val x.a s) 0 14) (bits (val x.a s) 14 2))).run ≠ .free ∧
        ((issued s).slot (keyOf (bits (val x.a s) 0 14) (bits (val x.a s) 14 2))).ctx = s.m.sl.ctx)) :
    exec (.evpush x) s = .next { s with m := takeTrap s.m.cur 0x20 0 s.m.sl.retAddr s.m } := by
  have bad : (decide (2 ^ 16 ≤ val x.a s) || !(((issued s).slot (keyOf (bits (val x.a s) 0 14) (bits (val x.a s) 14 2))).run != .free &&
      ((issued s).slot (keyOf (bits (val x.a s) 0 14) (bits (val x.a s) 14 2))).ctx == s.m.sl.ctx)) = true := by
    rw [Bool.or_eq_true, decide_eq_true_iff, Bool.not_eq_true', ← Bool.not_eq_true, Bool.and_eq_true, bne_iff_ne, beq_iff_eq]
    exact nowhere
  refine run_issue_traps r ha hb (allowed_of_regs (evpush_pops ha hq)) ?_
  simp only [bind_apply, rdG_val ha, mapM_regsAt hq, get_apply, issued_ctx, trapIf_of_true bad]

end

/-! ### EVCFG (R162) -/

/-- The overflow ring is set, after a clear if the word asks for one. -/
def ringSet (clr : Bool) (w : Nat) (y : Slot) : Slot :=
  let y := if clr then { y with evq := [], rq := 0, drop := 0, ovf := false } else y
  { y with evring := w, rqHead := 0 }

theorem exec_evcfg {x : YW} {s : State} (r : Ready x.h s) (ha : IsReg x.a s) (hb : IsReg x.b s) (low : val x.a s < 2 ^ 56)
    (size : bits (val x.a s) 0 6 = 0 ∨ (6 ≤ bits (val x.a s) 0 6 ∧ bits (val x.a s) 0 6 ≤ 20))
    (empty : bitAt x.mod.toNat 0 = false → s.m.sl.rq = 0) :
    exec (.evcfg x) s = .next (after x.h none (fun m => m.updSlot m.cur (ringSet (bitAt x.mod.toNat 0) (val x.a s))) s) := by
  have good : (decide (2 ^ 56 ≤ val x.a s) || (decide (1 ≤ bits (val x.a s) 0 6) && decide (bits (val x.a s) 0 6 ≤ 5)) ||
      decide (20 < bits (val x.a s) 0 6)) = false := by
    rw [decide_eq_false (Nat.not_le.2 low), Bool.false_or, Bool.or_eq_false_iff, Bool.and_eq_false_iff, decide_eq_false_iff_not,
      decide_eq_false_iff_not, decide_eq_false_iff_not]
    omega
  have idle : (!bitAt x.mod.toNat 0 && (sl s).rq != 0) = false := by
    change (!bitAt x.mod.toNat 0 && s.m.sl.rq != 0) = false
    cases clr : bitAt x.mod.toNat 0
    · rw [empty clr]; rfl
    · rfl
  refine run_issue_after r ha hb (allowed_of_regs (by simp [ha])) ?_
  simp only [bind_apply, rdG_val ha, mine_apply, id, trapIf_of good, issued_sl, trapIf_of idle, changeMine_apply, pure_apply]
  rfl

theorem eventQueueInstructions : EventQueueInstructions := by
  refine ⟨fun x s r hd det ring => exec_evpop r hd det ring, fun x s r hd nondet => ⟨exec_evwait r hd nondet, exec_evwait_waits r hd nondet⟩,
    fun x s r ha hb hq room => ⟨exec_evpush r ha hb hq room, exec_evpush_nowhere r ha hb hq⟩, fun x s r ha hb => ?_⟩
  intro w clr low size
  refine ⟨fun off empty => ?_, fun on => ?_⟩
  · have clears : bitAt x.mod.toNat 0 = false := off
    rw [exec_evcfg r ha hb low size fun _ => empty, clears]
    rfl
  · have clears : bitAt x.mod.toNat 0 = true := on
    rw [exec_evcfg r ha hb low size fun off => absurd (off.symm.trans on) (by decide), clears]
    rfl

/-- Settles O27. -/
theorem constellationsAndEventQueues : Obligations.ConstellationsAndEventQueues := ⟨constellations, eventQueueInstructions⟩

end Sys2Proof.Claim
end

section
/-! PROOFS. Translation maintenance (R335 to R339): the statement fails where FBPOP's destination names a bound stream. -/
namespace Sys2Proof.Claim
open Machine Test

/-- A privileged slot with an output stream in a page that no TLB translates. No context has the ASID 0. -/
def appending : State := withSlot (fun y => { y with streams := [(0, ⟨2 ^ 30, 4, 1, 8, 0, .i64, true, 0, 0⟩)] })
  (withCtx (fun c => { c with prv := true, asid := 1 }) demo)

/-- An FBPOP whose destination is the stream. -/
def fbpopToStream : YW := { yw with d := 56 }

/-- What the slot that has executed waits for. -/
def waitAfter : Host.Outcome State Fault Refusal → Option Wait
  | .next t => t.m.sl.wait
  | _ => none

/-- The page of the stream's element is looked up before the ASID is examined. -/
theorem fbpopToStream_looks : waitAfter (exec (.fbpop fbpopToStream) appending) = some .xlate := by decide

theorem fbpopToStream_untrapped : (takeTrap appending.m.cur 0x18 0 appending.m.sl.retAddr appending.m).sl.wait ≠ some .xlate := by decide

/-- Refutes O37: FBPOP does not trap on an ASID of no context while a look-up of the stream that its D names is missing (R39, R326), and the
statement does not ask there that D names registers. -/
theorem not_translationWords : ¬ Obligations.TranslationWords := by
  intro ⟨_, _, faults⟩
  obtain ⟨_, unknown⟩ := faults fbpopToStream appending (ready (by decide)) rfl rfl (by unfold Privileged; decide)
  obtain ⟨traps, _⟩ := unknown (by decide)
  have looks := fbpopToStream_looks
  rw [traps] at looks
  exact fbpopToStream_untrapped looks

end Sys2Proof.Claim
end

section
/-! PROOFS. The lane-wise vector instructions (R223 to R230), their frame, and the special functions (R231). -/
namespace Sys2Proof.Claim
open Machine

/-! ## What a lane-wise instruction does -/

section
variable {x : VW} {s : State} (r : Ready x.h s) (ha : IsReg x.a s) (hb : IsReg x.b s)
include r ha hb

/-- A lane-wise instruction whose operands fit writes its lanes. -/
theorem run_vecOp {u : VUse} (f : Slot → List Nat → Nat → Nat) (fits : Fits (x.d :: u.vs) u.elts s) (hg : ∀ b ∈ u.gs, IsReg b s) :
    run (vecOp x u f) s = .next (after x.h none (fun m =>
      match u.lat with
      | some n => fixed n (laneCells x (f (sl s) (u.gs.map (fun b => val b s))) s) m
      | none => lands .ready (known (laneCells x (f (sl s) (u.gs.map (fun b => val b s))) s)) m) s) := by
  have regs : ∀ p ∈ u.gs.map (fun b => (b, Machine.Acc.read)), IsReg p.1 s := fun p hp => by
    obtain ⟨b, h, rfl⟩ := List.mem_map.1 hp
    exact hg b h
  obtain ⟨vs, gs, elts, lat⟩ := u
  refine run_issue_after r ha hb (allowed_of_regs regs) ?_
  rw [bind_of (vChecks_issued fits.bank fits.share fits.width), bind_of (rdGs_regs hg), bind_of (mine_apply ..), id, issued_sl]
  cases lat with
  | some n => exact bind_of (setFixed_apply ..)
  | none => exact bind_of (setLand_apply ..)

end

/-- Every lane-wise instruction is one of the common form. -/
theorem exec_lanewise {x : VW} : ∀ p ∈ lanewise x, ∀ s, exec p.instr s = run (vecOp x ⟨p.vs, p.gs, p.elts, p.lat⟩ p.val) s := by
  unfold lanewise
  simp only [List.cons_append, List.nil_append, List.forall_mem_cons]
  refine ⟨fun _ => rfl, fun _ => rfl, fun _ => rfl, fun _ => rfl, fun _ => rfl, fun _ => rfl, fun _ => rfl, fun _ => rfl, fun _ => rfl,
    fun _ => rfl, fun _ => rfl, fun _ => rfl, fun _ => rfl, fun _ => rfl, fun _ => rfl, fun _ => rfl, fun _ => rfl, fun _ => rfl,
    fun _ => rfl, fun _ => rfl, fun _ => rfl, fun _ => rfl, fun _ => rfl, fun _ => rfl, fun _ => rfl, List.forall_mem_nil _⟩

section
variable {x : VW} {s : State} (r : Ready x.h s) (ha : IsReg x.a s) (hb : IsReg x.b s)
include r ha hb

theorem exec_vclass (fits : Fits [x.d, x.a] [.fmt x.fa] s) : exec (.vclass x) s = .next (classed x s) := by
  unfold classed
  refine run_issue_after r ha hb (allowed_of_regs (by simp)) ?_
  rw [bind_of (vChecks_issued fits.bank fits.share fits.width), bind_of (mine_apply ..), id, issued_sl]
  exact bind_of (setFixed_apply ..)

end

/-- Settles O39: each instruction has the common form, which `run_vecOp` carries out. -/
theorem lanewiseResults : Obligations.LanewiseResults := by
  intro x s r ha hb
  refine ⟨fun p hp fits hg => ?_, fun fits => exec_vclass r ha hb fits⟩
  refine (exec_lanewise p hp s).trans ((run_vecOp r ha hb p.val fits hg).trans ?_)
  cases p.lat <;> rfl

/-! ## The frame -/

theorem shareOf_le (f : Nat) : shareOf f ≤ 0x8000 := Nat.div_le_self ..

theorem inFile_of_inRng {l : List Rng} {a : Nat} (low : a < 0x8000) (h : inRng l a = true) : inRng (inFile l) a = true := by
  obtain ⟨p, hp, place⟩ := List.any_eq_true.1 h
  refine List.any_eq_true.2 ⟨(p.1, min p.2 (0x8000 - p.1)), List.mem_map.2 ⟨p, hp, rfl⟩, ?_⟩
  simp only [Bool.and_eq_true, decide_eq_true_eq] at place ⊢
  omega

/-- A byte of the register's share, under .z, or of an active lane is one of the destination's. -/
theorem vDest_inRng {y : Slot} {b : BitVec 8} {k a : Nat} {zm : Bool} (low : a < 0x8000)
    (all : zm = true → y.vbyte (vNo b) 0 ≤ a ∧ a < y.vbyte (vNo b) 0 + y.vcap * y.vew)
    (some : zm = false → ∃ l, y.laneActive k l = true ∧ y.vbyte (vNo b) l ≤ a ∧ a < y.vbyte (vNo b) l + y.vew) :
    inRng (vDest y b k zm) a = true := by
  cases zm with
  | true =>
    have place := all rfl
    have lanes : y.vcap ≠ 0 := fun none => by rw [none] at place; omega
    rw [vDest, if_pos rfl, vRng, if_neg lanes]
    exact inFile_of_inRng low (by simp [inRng, place])
  | false =>
    obtain ⟨l, on, place⟩ := some rfl
    have inside : l < y.vlanes := by
      simp only [Slot.laneActive, Bool.and_eq_true, decide_eq_true_eq] at on
      exact Nat.lt_min.2 on.1.1
    refine inFile_of_inRng low (List.any_eq_true.2 ⟨(y.vbyte (vNo b) l, y.vew), ?_, by simp [place]⟩)
    exact List.mem_map.2 ⟨l, List.mem_filter.2 ⟨List.mem_range.2 inside, on⟩, rfl⟩

/-- A written lane lies among the destination's bytes. -/
theorem vCells_inRng {y : Slot} {b : BitVec 8} {k : Nat} {zm : Bool} {f : Nat → Nat} (fits : y.vcap = 0 ∨ y.vbyte (vNo b) y.vcap ≤ 0x8000) :
    ∀ c ∈ vCells y b zm (y.laneActive k) f, inRng (vDest y b k zm) c.1 = true := by
  intro c hc
  unfold vCells at hc
  obtain ⟨cells, lane, hc⟩ := List.mem_flatten.1 hc
  obtain ⟨l, hl, rfl⟩ := List.mem_map.1 lane
  have inside : l < y.vcap := List.mem_range.1 hl
  have top : y.vbyte (vNo b) y.vcap ≤ 0x8000 := fits.resolve_left (by omega)
  have last : (l + 1) * y.vew ≤ y.vcap * y.vew := Nat.mul_le_mul_right _ inside
  have start : y.vbyte (vNo b) l = y.vbyte (vNo b) 0 + l * y.vew := by simp [Slot.vbyte]
  have stop : y.vbyte (vNo b) y.vcap = y.vbyte (vNo b) 0 + y.vcap * y.vew := by simp [Slot.vbyte]
  have next : (l + 1) * y.vew = l * y.vew + y.vew := Nat.succ_mul ..
  by_cases on : y.laneActive k l = true
  · rw [if_pos on] at hc
    have place := mem_cellsAt hc
    rw [toLE_length] at place
    refine vDest_inRng (by omega) (fun _ => ⟨by omega, by omega⟩) fun _ => ⟨l, on, place⟩
  · rw [if_neg on] at hc
    cases zm with
    | false => exact absurd hc (List.not_mem_nil)
    | true =>
      rw [if_pos rfl] at hc
      have place := mem_cellsAt hc
      rw [List.length_replicate] at place
      exact vDest_inRng (by omega) (fun _ => ⟨by omega, by omega⟩) nofun

/-- Settles O40. -/
theorem lanewiseFrame : Obligations.LanewiseFrame := by
  intro x s t r alone ha hb p hp fixes fits hg out
  obtain ⟨n, lat⟩ := Option.isSome_iff_exists.1 fixes
  rw [exec_lanewise p hp, run_vecOp r ha hb p.val fits hg] at out
  simp only [lat] at out
  obtain rfl := Host.Outcome.next.inj out
  refine ⟨onlyRegisters_fixed alone, registersBut_fixed alone (vCells_inRng ?_)⟩
  exact (fits.share x.d (List.mem_cons_self ..)).imp_right fun h => h.trans (shareOf_le _)

/-! ## Special functions -/

theorem landsFrom_curCore (t : Nat) (cells : List (Nat × Nat)) (m : Mach) : (landsFrom t cells m).curCore = m.curCore := by
  unfold landsFrom
  dsimp only
  split <;> rfl

theorem setLand_from (cells : List (Nat × Nat)) (t : Nat) (m : Mach) : setLand .ready (known cells) t m = .ok ((), landsFrom t cells m) := by
  simp only [setLand, bind_of (freshId_apply m), ite_apply_M, pure_apply, changeMine_apply, landsFrom, decide_true, Bool.true_or, Bool.and_true]
  split <;> rfl

theorem run_specialOp {x : VW} {s : State} {op : Nat} {vs : List (BitVec 8)} (r : Ready x.h s) (ha : IsReg x.a s) (hb : IsReg x.b s)
    (fits : Fits (x.d :: vs) [.fmt x.fd] s) (f : Slot → Nat → Nat) :
    run (specialOp x op vs f) s = .next (after x.h none (special x op (f (sl s)) s) s) := by
  refine run_issue_after r ha hb (allowed_of_regs (by simp)) ?_
  rw [bind_of (vChecks_issued fits.bank fits.share fits.width), bind_of (get_apply _), issued_sl]
  change (if (s.m.octet (octetOf s.m.curCore)).tables.contains op = true then _ else _ : M (Option Nat)) _ = _
  unfold special laneCells
  dsimp only
  by_cases held : (s.m.octet (octetOf s.m.curCore)).tables.contains op = true
  · rw [if_pos held, if_pos held, bind_of (setFixed_apply ..), bind_of (change_apply ..)]
    rfl
  · rw [if_neg held, if_neg held, bind_of (setLand_from ..), bind_of (change_apply ..), landsFrom_curCore]
    rfl

/-- Settles O41. -/
theorem specialFunctions : Obligations.SpecialFunctions := by
  intro x s r ha hb e u w
  refine ⟨fun fits => ⟨?_, ?_, ?_⟩, fun fits => ?_⟩
  · exact run_specialOp r ha hb fits fun y l => rnd x.fd x.rm ((Num.fin false 1 0).div (dec x.fd (y.code (.fmt x.fd) x.a l)))
  · exact run_specialOp r ha hb fits fun y l => sqrtCode x.fd x.rm (y.code (.fmt x.fd) x.a l)
  · have each : ∀ op f, run (special1 x op f) s = .next (after x.h none (special x op (fun l => specialCode f x.fd (u l)) s) s) :=
      fun op f => run_specialOp r ha hb fits fun y l => specialCode f x.fd (y.code (.fmt x.fd) x.a l)
    simp only [List.forall_mem_cons]
    exact ⟨each _ _, each _ _, each _ _, each _ _, each _ _, each _ _, each _ _, List.forall_mem_nil _⟩
  · exact run_specialOp r ha hb fits fun y l => rnd x.fd x.rm ((dec x.fd (y.code (.fmt x.fd) x.a l)).div (dec x.fd (y.code (.fmt x.fd) x.b l)))

end Sys2Proof.Claim
end

section
/-! PROOFS. Reductions, permutes, packing, the generator and masks (R229, R232 to R235, R239). -/
namespace Sys2Proof.Claim
open Machine

theorem rdGs_pair {b c : BitVec 8} {s : State} (hb : IsReg b s) (hc : IsReg c s) :
    rdGs [b, c] (issued s) = .ok ([val b s, val c s], issued s) := rdGs_regs (by simp [hb, hc])

section
variable {x : VW} {s : State} (r : Ready x.h s) (ha : IsReg x.a s) (hb : IsReg x.b s)
include r ha hb

/-! ## Lanes to a register (R229, R239) -/

/-- A word that gives a scalar of a vector's lanes, at its latency or interlocked. -/
theorem run_vToG {elts : List Elt} (lat : Option Nat) (f : Slot → Nat) (hd : IsReg x.d s) (fits : Fits [x.a] elts s) :
    run (vToG x elts lat f) s = .next (after x.h none (fun m =>
      match lat with
      | some n => fixed n (gCells (gNo x.d) (f (sl s))) m
      | none => lands .ready (known (gCells (gNo x.d) (f (sl s)))) m) s) := by
  refine run_issue_after r ha hb (allowed_of_regs (by simp [hd])) ?_
  rw [bind_of (vChecks_issued fits.bank fits.share fits.width), bind_of (mine_apply ..), id, issued_sl]
  cases lat with
  | some n => exact bind_of (wrG_issued hd)
  | none => exact bind_of (wrLand_issued hd)

theorem exec_vreduce (hd : IsReg x.d s) (fits : Fits [x.a] (if 3 ≤ x.sub then [] else [eltOf x.it x.fd]) s) :
    exec (.vreduce x) s = .next (after x.h none (lands .ready (known (gCells (gNo x.d)
      (if 3 ≤ x.sub
        then reduce x.sub (eltOf x.it x.fd) (sl s).vew x.sat x.rm ((activeLanes (sl s) (mkOf x)).map (redLane x (eltOf x.it x.fd) (sl s)))
        else (eltOf x.it x.fd).place 8
          (reduce x.sub (eltOf x.it x.fd) (sl s).vew x.sat x.rm ((activeLanes (sl s) (mkOf x)).map (redLane x (eltOf x.it x.fd) (sl s)))))))) s) :=
  run_vToG r ha hb none _ hd fits

theorem exec_vpopc (hd : IsReg x.d s) (fits : Fits [x.a] [] s) :
    exec (.vpopc x) s = .next (after x.h none (fixed 4 (gCells (gNo x.d)
      ((activeLanes (sl s) (mkOf x)).filter (fun l => (sl s).lane x.a l != 0)).length)) s) :=
  run_vToG r ha hb (some 4) _ hd fits

theorem exec_vfirst (hd : IsReg x.d s) (fits : Fits [x.a] [] s) :
    exec (.vfirst x) s = .next (after x.h none (fixed 4 (gCells (gNo x.d)
      (((activeLanes (sl s) (mkOf x)).filter (fun l => (sl s).lane x.a l != 0)).headD (2 ^ 64 - 1)))) s) := by
  rw [List.headD_eq_head?_getD, List.head?_filter]
  exact run_vToG r ha hb (some 4) _ hd fits

/-! ## Moves of lanes (R232, R234) -/

theorem exec_vperm (fits : Fits [x.d, x.a, x.b] [] s) :
    exec (.vperm x) s = .next (after x.h none (lands .ready (known
      (laneCells x (fun l => (sl s).lane x.a ((sl s).lane x.b l % (sl s).vlanes)) s))) s) := by
  refine run_issue_after r ha hb (allowed_of_regs (by simp)) ?_
  rw [bind_of (vChecks_issued fits.bank fits.share fits.width), bind_of (mine_apply ..), id, issued_sl]
  exact bind_of (setLand_apply ..)

theorem exec_vexpnd (fits : Fits [x.d, x.a, x.b] [] s) :
    exec (.vexpnd x) s = .next (after x.h none (lands .ready (known
      (vCells (sl s) x.d x.zm (picked x (sl s)).contains (fun i => (sl s).lane x.a ((picked x (sl s)).idxOf i))))) s) := by
  refine run_issue_after r ha hb (allowed_of_regs (by simp)) ?_
  rw [bind_of (vChecks_issued fits.bank fits.share fits.width), bind_of (mine_apply ..), id, issued_sl]
  exact bind_of (setLand_apply ..)

omit r ha hb in
theorem stream_lands (src : LandSrc) (cells : List (Nat × Option Nat)) (m : Mach) (b : BitVec 8) : (lands src cells m).sl.stream b = m.sl.stream b := by
  unfold lands
  dsimp only
  split
  · rfl
  · refine (congrArg (Slot.stream · b) (Mach.slot_updSlot_self { m with nextId := m.nextId + 1 } m.cur _)).trans ?_
    unfold Slot.note
    split <;> rfl

theorem exec_vcompr (hc : IsReg x.c s) (fits : Fits [x.d, x.a, x.b] [] s) :
    exec (.vcompr x) s = .next (after x.h none (fun m => lands .ready (known (gCells (gNo x.c) (picked x (sl s)).length))
        (lands .ready (known ((List.range (sl s).vlanes).map (fun i =>
          if i < (picked x (sl s)).length then cellsAt ((sl s).vbyte (vNo x.d) i) (toLE (sl s).vew ((sl s).lane x.a ((picked x (sl s)).getD i 0)))
          else if x.zm then cellsAt ((sl s).vbyte (vNo x.d) i) (List.replicate (sl s).vew 0) else [])).flatten) m)) s) := by
  refine run_issue_after r ha hb (allowed_of_regs (by simp [hc])) ?_
  rw [bind_of (vChecks_issued fits.bank fits.share fits.width), bind_of (mine_apply ..), id, issued_sl]
  rw [bind_of (setLand_apply ..), bind_of (wrLand_reg ((stream_lands ..).trans hc.issued))]
  rfl

theorem exec_vcx (fits : Fits (x.d :: (if x.c != 0 then [x.c] else [])) [eltOf x.it x.fd] s) :
    exec (.vcx x) s = .next (after x.h none (fixed 4
      (vCells (sl s) x.d false (fun l => decide (l < (sl s).vlanes) && (vcxPartner x (eltOf x.it x.fd) (sl s) l).isSome)
        (fun l => (eltOf x.it x.fd).place (sl s).vew
          ((sl s).code (eltOf x.it x.fd) x.d ((vcxPartner x (eltOf x.it x.fd) (sl s) l).getD l))) ++
        (if x.c != 0 then
          vCells (sl s) x.c false (fun l => decide (l < (sl s).vlanes) && (vcxPartner x (eltOf x.it x.fd) (sl s) l).isSome)
            (fun l => (sl s).lane x.c ((vcxPartner x (eltOf x.it x.fd) (sl s) l).getD l))
         else []))) s) := by
  refine run_issue_after r ha hb (allowed_of_regs (by simp)) ?_
  rw [bind_of (vChecks_issued fits.bank fits.share fits.width), bind_of (mine_apply ..), id, issued_sl]
  exact bind_of (setFixed_apply ..)

/-! ## The table look-up (R234) -/

omit r ha hb in
theorem tableReads_issued {base n : Nat} {idx : List Nat} (sound : ∀ i ∈ idx, Sound (base + i * n) n s) :
    tableReads base n idx (issued s) = .ok (idx.map (fun i => ofLE (s.m.spad.rdN (spPlace s.m.curCore (base + i * n)) n)), issued s) := by
  induction idx with
  | nil => rfl
  | cons i l ih =>
    obtain ⟨here, later⟩ := List.forall_mem_cons.1 sound
    rw [tableReads, bind_of (spRead_issued here), bind_of (ih later)]
    rfl

omit r ha hb in
theorem getD_map_idxOf {f : Nat → Nat} {l : List Nat} {i : Nat} (h : i ∈ l) : (l.map f).getD (l.idxOf i) 0 = f i := by
  have low := List.idxOf_lt_length_of_mem h
  rw [List.getD_eq_getElem _ _ (by simpa using low), List.getElem_map, List.getElem_idxOf]

omit r ha hb in
/-- Lanes written with values that agree at the active lanes. -/
theorem laneCells_congr {f g : Nat → Nat} (h : ∀ l ∈ activeLanes (sl s) (mkOf x), f l = g l) : laneCells x f s = laneCells x g s := by
  unfold laneCells vCells
  congr 1
  refine List.map_congr_left fun l _ => ?_
  by_cases on : (sl s).laneActive (mkOf x) l = true
  · have inside : l < (sl s).vlanes := by
      simp only [Slot.laneActive, Bool.and_eq_true, decide_eq_true_eq] at on
      exact Nat.lt_min.2 on.1.1
    rw [if_pos on, if_pos on, h l (List.mem_filter.2 ⟨List.mem_range.2 inside, on⟩)]
  · rw [if_neg on, if_neg on]

theorem exec_vlut {d : Elt} {n : Nat} (elt : eltOf x.it x.fd = d) (fits : Fits [x.d, x.a] [d] s) (hc : IsReg x.c s) (clear : Clear s)
    (size : d.width / 8 = n) (aligned : val x.b s % n = 0) (window : InWindow (val x.b s) (val x.c s * n) s)
    (sound : ∀ l ∈ activeLanes (sl s) (mkOf x), (sl s).lane x.a l < val x.c s → Sound (val x.b s + (sl s).lane x.a l * n) n s) :
    exec (.vlut x) s = .next (after x.h none (lands .ready (known (laneCells x (fun l =>
      if (sl s).lane x.a l < val x.c s
      then d.place (sl s).vew (ofLE (s.m.spad.rdN (spPlace s.m.curCore (val x.b s + (sl s).lane x.a l * n)) n)) else 0) s))) s) := by
  subst elt size
  have reads : ∀ i ∈ ((activeLanes (sl s) (mkOf x)).map ((sl s).lane x.a)).filter (· < val x.c s),
      Sound (val x.b s + i * ((eltOf x.it x.fd).width / 8)) ((eltOf x.it x.fd).width / 8) s := fun i hi => by
    obtain ⟨lane, low⟩ := List.mem_filter.1 hi
    obtain ⟨l, on, rfl⟩ := List.mem_map.1 lane
    exact sound l on (of_decide_eq_true low)
  refine run_issue_after r ha hb (allowed_of_regs (by simp [hb, hc])) ?_
  rw [bind_of (vChecks_issued fits.bank fits.share fits.width), bind_of (accessGate_apply clear), bind_of (rdGs_pair hb hc)]
  simp only [List.getD_cons_zero, List.getD_cons_succ]
  rw [bind_of (trapIf_of (misaligned_eq.2 aligned) ..), bind_of (get_apply _), bind_of (trapIf_of window ..), bind_of (mine_apply ..), id, issued_sl,
    bind_of (tableReads_issued reads), bind_of (setLand_apply ..)]
  refine congrArg (fun c => Except.ok (none, lands .ready (known c) (issued s))) (laneCells_congr fun l on => ?_)
  by_cases low : (sl s).lane x.a l < val x.c s
  · have listed : (sl s).lane x.a l ∈ ((activeLanes (sl s) (mkOf x)).map ((sl s).lane x.a)).filter (· < val x.c s) :=
      List.mem_filter.2 ⟨List.mem_map_of_mem on, decide_eq_true low⟩
    rw [if_pos low, if_pos low, getD_map_idxOf listed]
  · exact (if_neg low).trans (if_neg low).symm

/-! ## Packing and the generator (R233, R235) -/

theorem exec_vpack {w : Nat} (width : Fmt.width x.fa = w) (fits : Fits [x.d, x.a] [] s) (narrow : w < 8 * (sl s).vew) :
    exec (.vpack x) s = .next (after x.h none (fixed 4 (cellsAt ((sl s).vbyte (vNo x.d) 0) (toLE (((sl s).vlanes * w + 7) / 8)
      (setBits ((sl s).vnum x.d (((sl s).vlanes * w + 7) / 8)) 0 ((sl s).vlanes * w)
         ((List.range (sl s).vlanes).map (fun l => (sl s).lane x.a l % 2 ^ w * 2 ^ (l * w))).sum)))) s) := by
  subst width
  refine run_issue_after r ha hb (allowed_of_regs (by simp)) ?_
  rw [bind_of (vChecks_issued fits.bank fits.share fits.width), bind_of (mine_apply ..), id, issued_sl,
    bind_of (trapIf_of (decide_eq_false (Nat.not_le.2 narrow)) ..)]
  exact bind_of (setFixed_apply ..)

theorem exec_vunpk {w : Nat} (width : Fmt.width x.fa = w) (fits : Fits [x.d, x.a] [] s) (narrow : w < 8 * (sl s).vew) :
    exec (.vunpk x) s = .next (after x.h none (fixed 4 (laneCells x (fun l =>
      (Elt.fmt x.fa).place (sl s).vew (bits ((sl s).vnum x.a (((sl s).vlanes * w + 7) / 8)) (l * w) w)) s)) s) := by
  have elt : (Elt.fmt x.fa).width = w := width
  refine run_issue_after r ha hb (allowed_of_regs (by simp)) ?_
  rw [elt, bind_of (vChecks_issued fits.bank fits.share fits.width), bind_of (mine_apply ..), id, issued_sl,
    bind_of (trapIf_of (decide_eq_false (Nat.not_le.2 narrow)) ..)]
  exact bind_of (setFixed_apply ..)

theorem exec_vrng (fits : Fits [x.d] [] s) (size : (sl s).vew = 4) :
    exec (.vrng x) s = .next (after x.h none (lands .ready (known (vCells (sl s) x.d x.zm ((sl s).laneActive (mkOf x)) (fun l =>
      let z := gen (val x.a s) ((val x.b s + l) % 2 ^ 64)
      if x.it = 0 then rnd .fp32 .rne (.fin false (z / 2 ^ 40) (-24)) else z % 2 ^ 32)))) s) := by
  refine run_issue_after r ha hb (allowed_of_regs (by simp [ha, hb])) ?_
  rw [bind_of (vChecks_issued fits.bank fits.share fits.width), bind_of (mine_apply ..), id, issued_sl,
    bind_of (trapIf_of (by rw [size]; rfl) ..), bind_of (rdGs_pair ha hb), bind_of (mine_apply ..), id, issued_sl]
  exact bind_of (setLand_apply ..)

/-! ## Masks (R239) -/

theorem exec_mset : exec (.mset x) s = .next (after x.h none (fixed 2 (mCells (mNo x.d) (val x.a s) (val x.b s))) s) := by
  refine run_issue_after r ha hb (allowed_of_regs (by simp [ha, hb])) ?_
  rw [bind_of (rdGs_pair ha hb)]
  exact bind_of (setFixed_apply ..)

theorem exec_mget (hd : IsReg x.d s) :
    exec (.mget x) s = .next (after x.h none (fixed 2 (gCells (gNo x.d)
      (if bitAt x.sub 0 then (sl s).mcol (mNo x.a) else (sl s).mrow (mNo x.a)))) s) := by
  refine run_issue_after r ha hb (allowed_of_regs (by simp [hd])) ?_
  rw [bind_of (mine_apply ..), id, issued_sl]
  exact bind_of (wrG_issued hd)

theorem exec_vmask {v : Nat} (mask : ((List.range (min (sl s).vlanes 64)).map (fun l => if (sl s).lane x.a l ≠ 0 then 2 ^ l else 0)).sum = v)
    (fits : Fits [x.a] [] s) :
    exec (.vmask x) s = .next (after x.h none (fixed 4
      (if bitAt x.sub 0 then (mCells (mNo x.d) v v).drop 8 else (mCells (mNo x.d) v v).take 8)) s) := by
  subst mask
  refine run_issue_after r ha hb (allowed_of_regs (by simp)) ?_
  rw [bind_of (vChecks_issued fits.bank fits.share fits.width), bind_of (mine_apply ..), id, issued_sl]
  exact bind_of (setFixed_apply ..)

end

theorem laneMovesAndReductions : LaneMovesAndReductions := by
  intro x s r ha hb y d on k nonzero by_ w
  refine ⟨fun hd fits => exec_vreduce r ha hb hd fits, fun hd fits => ⟨exec_vpopc r ha hb hd fits, exec_vfirst r ha hb hd fits⟩,
    fun fits => exec_vcx r ha hb fits,
    fun fits => ⟨exec_vperm r ha hb fits, exec_vexpnd r ha hb fits, fun hc => exec_vcompr r ha hb hc fits⟩,
    fun fits hc clear aligned window sound => exec_vlut r ha hb rfl fits hc clear rfl aligned window sound,
    fun fits narrow => ⟨exec_vpack r ha hb rfl fits narrow, exec_vunpk r ha hb rfl fits narrow⟩,
    fun fits size => exec_vrng r ha hb fits size⟩

theorem masks : Masks := by
  intro x s r ha hb y v
  exact ⟨exec_mset r ha hb, fun hd => exec_mget r ha hb hd, fun fits => exec_vmask r ha hb rfl fits⟩

/-- Settles O42. -/
theorem laneMovesReductionsAndMasks : Obligations.LaneMovesReductionsAndMasks := ⟨laneMovesAndReductions, masks⟩

end Sys2Proof.Claim
end

section
/-! PROOFS. Vector accesses to the scratchpad and through virtual addresses (R236, R237). -/
namespace Sys2Proof.Claim
open Machine

/-! ## Lanes and their addresses (R236) -/

theorem mem_activeLanes {y : Slot} {k l : Nat} : l ∈ activeLanes y k ↔ y.laneActive k l = true := by
  refine List.mem_filter.trans (and_iff_right_of_imp fun on => ?_)
  simp only [Slot.laneActive, Bool.and_eq_true, decide_eq_true_eq] at on
  exact List.mem_range.2 (Nat.lt_min.2 on.1.1)

/-- The lanes of an access are the active ones. -/
theorem laneList_lanes (x : VW) (index : Bool) (s : State) : (laneList x index s).map (·.1) = activeLanes (sl s) (mkOf x) := by
  cases index <;> exact (List.map_map ..).trans (List.map_id _)

theorem lanesOf_issued {x : VW} {index : Bool} {s : State} (ha : IsReg x.a s) (hb : IsReg x.b s)
    (fits : Fits (x.d :: (if index then [x.b] else [])) [memElt x] s) : lanesOf x index (issued s) = .ok (laneList x index s, issued s) := by
  rw [lanesOf, bind_of (vChecks_issued fits.bank fits.share fits.width), bind_of (rdG_val ha)]
  cases index with
  | true =>
    simp only [if_true]
    rw [bind_of (mine_apply ..), id, issued_sl]
    rfl
  | false =>
    unfold laneList
    simp only [Bool.false_eq_true, if_false]
    by_cases stride : strideUse x = true
    · rw [if_pos stride, if_pos stride, bind_of (bind_of (rdG_val hb)), bind_of (mine_apply ..), id, issued_sl]
      rfl
    · rw [if_neg stride, if_neg stride, bind_of (pure_apply ..), bind_of (mine_apply ..), id, issued_sl]
      rfl

/-! ## The banks (R236) -/

theorem bankCheck_issued {n : Nat} {s : State} : ∀ {l : List Nat}, (∀ a ∈ l, a % n = 0 ∧ InWindow a n s) → bankCheck n l (issued s) = .ok ((), issued s)
  | [], _ => rfl
  | a :: l, h => by
    obtain ⟨⟨aligned, window⟩, later⟩ := List.forall_mem_cons.1 h
    rw [bankCheck, bind_of (get_apply _), bind_of (trapIf_of (misaligned_eq.2 aligned) ..), bind_of (trapIf_of window ..), bankCheck_issued later]

theorem bankReads_sound {n : Nat} {m : Mach} : ∀ {l : List Nat},
    (∀ a ∈ l, ∀ w ∈ wordsOf (spPlace m.curCore a) n, w ∉ m.spoison ∧ ∀ p ∈ m.plantSp, p.1 ≠ w) →
    bankReads n l m = .ok (l.map (fun a => m.spad.rdN (spPlace m.curCore a) n), m)
  | [], _ => rfl
  | a :: l, h => by
    obtain ⟨here, later⟩ := List.forall_mem_cons.1 h
    rw [bankReads, bind_of (spRead_of_sound here), bind_of (bankReads_sound later)]
    rfl

theorem bankStores_banked {core : Nat} : ∀ {l : List (Nat × List Nat)} {m : Mach}, m.curCore = core → m.sl.ocSt < 255 →
    bankStores l m = .ok ((), ackLater (banked core l m))
  | [], m, _, room => by
    have open_ : roomSt m = .ok ((), m) := by
      rw [roomSt, bind_of (mine_apply ..)]
      exact blockIf_of (decide_eq_false (Nat.not_le.2 room)) ..
    rw [bankStores, bind_of open_]
    rfl
  | (a, v) :: l, m, at_, room => by
    rw [bankStores, bind_of (spWrite_apply ..), at_, bankStores_banked (m := storeSp (cellsAt (spPlace core a) v) m) at_ room]
    rfl

/-- The element read for an active lane. -/
theorem read_of_lane {x : VW} {index : Bool} {s : State} {l : Nat} (on : (sl s).laneActive (mkOf x) l = true) (f : Nat → List Nat) :
    (((laneList x index s).map (·.2)).map f).getD (((laneList x index s).map (·.1)).idxOf l) [] =
      f (((laneList x index s).map (·.2)).getD (((laneList x index s).map (·.1)).idxOf l) 0) := by
  have low : ((laneList x index s).map (·.1)).idxOf l < (laneList x index s).length := by
    rw [← List.length_map (·.1)]
    exact List.idxOf_lt_length_of_mem (by rw [laneList_lanes]; exact mem_activeLanes.2 on)
  rw [List.getD_eq_getElem _ _ (by simpa using low), List.getD_eq_getElem _ _ (by simpa using low), List.getElem_map]

theorem laneCells_reads {x : VW} {s : State} (index : Bool) (f : Nat → List Nat) :
    laneCells x (fun l => (memElt x).place (sl s).vew
      (ofLE ((((laneList x index s).map (·.2)).map f).getD (((laneList x index s).map (·.1)).idxOf l) []))) s =
    laneCells x (fun l => (memElt x).place (sl s).vew
      (ofLE (f (((laneList x index s).map (·.2)).getD (((laneList x index s).map (·.1)).idxOf l) 0)))) s :=
  laneCells_congr fun l on => by rw [read_of_lane (mem_activeLanes.1 on)]

section
variable {x : VW} {s : State} {index : Bool} (r : Ready x.h s) (ha : IsReg x.a s) (hb : IsReg x.b s) (clear : Clear s)
  (fits : Fits (x.d :: (if index then [x.b] else [])) [memElt x] s)
include ha hb

theorem vmem_allowed (rd : List Rng) : Allowed { rd := rd, pops := (vmemUse x index (sl s)).2 } s :=
  allowed_of_regs fun p hp => by
    have named : p = (x.a, .read) ∨ p = (x.b, .read) := by
      unfold vmemUse at hp
      cases index <;> simp at hp <;> tauto
    rcases named with rfl | rfl
    · exact ha
    · exact hb

include r clear fits

theorem run_bankLoad (inside : ∀ p ∈ laneList x index s, p.2 % memSize x = 0 ∧ InWindow p.2 (memSize x) s)
    (sound : ∀ p ∈ laneList x index s, Sound p.2 (memSize x) s) (room : RoomLd s) :
    run (bankLoad x index) s = .next (after x.h none (fun m =>
      lands .load (known (laneCells x (fun l => (memElt x).place (sl s).vew
        (ofLE (s.m.spad.rdN (spPlace s.m.curCore
          (((laneList x index s).map (·.2)).getD (((laneList x index s).map (·.1)).idxOf l) 0)) (memSize x)))) s)) (countsLd m)) s) := by
  refine run_issue_after r ha hb (vmem_allowed ha hb _) ?_
  have checked : ∀ a ∈ (laneList x index s).map (·.2), a % memSize x = 0 ∧ InWindow a (memSize x) s := List.forall_mem_map.2 inside
  have reads : ∀ a ∈ (laneList x index s).map (·.2), Sound a (memSize x) s := List.forall_mem_map.2 sound
  have read : bankReads (memSize x) ((laneList x index s).map (·.2)) (countsLd (issued s)) =
      .ok (((laneList x index s).map (·.2)).map (fun a => s.m.spad.rdN (spPlace s.m.curCore a) (memSize x)), countsLd (issued s)) :=
    bankReads_sound (m := countsLd (issued s)) reads
  rw [bind_of (accessGate_apply clear), bind_of (lanesOf_issued ha hb fits), bind_of (bankCheck_issued checked), bind_of (countLd_apply room),
    bind_of read, bind_of (mine_apply ..), id, countsLd_sl, bind_of (setLand_apply ..)]
  exact congrArg (fun c => Except.ok (none, lands .load (known c) (countsLd (issued s))))
    (laneCells_reads index fun a => s.m.spad.rdN (spPlace s.m.curCore a) (memSize x))

theorem run_bankStore (inside : ∀ p ∈ laneList x index s, p.2 % memSize x = 0 ∧ InWindow p.2 (memSize x) s) (room : RoomSt s) :
    run (bankStore x index) s = .next (after x.h none (fun m =>
      ackLater (banked s.m.curCore ((laneList x index s).map (fun p => (p.2, toLE (memSize x) ((memElt x).clean ((sl s).lane x.d p.1))))) m)) s) := by
  refine run_issue_after r ha hb (vmem_allowed ha hb _) ?_
  have checked : ∀ a ∈ (laneList x index s).map (·.2), a % memSize x = 0 ∧ InWindow a (memSize x) s := List.forall_mem_map.2 inside
  rw [bind_of (accessGate_apply clear), bind_of (lanesOf_issued ha hb fits), bind_of (bankCheck_issued checked), bind_of (mine_apply ..), id, issued_sl,
    bind_of (bankStores_banked (core := s.m.curCore) (m := issued s) rfl (by rw [issued_sl]; exact room))]
  rfl

end

theorem vectorScratchpad : VectorScratchpad := by
  intro x s index r ha hb clear y ls n fits inside
  refine ⟨fun sound room => ?_, fun room => ?_⟩
  · cases index with
    | true => exact run_bankLoad r ha hb clear fits inside sound room
    | false => exact run_bankLoad r ha hb clear fits inside sound room
  · cases index with
    | true => exact run_bankStore r ha hb clear fits inside room
    | false => exact run_bankStore r ha hb clear fits inside room

/-! ## Virtual addresses (R237) -/

theorem vaCheck_maps {n : Nat} {write : Bool} {s : State} {l : List (Nat × Nat)} (pass : ∀ p ∈ l, vaFails (issued s) n write p.1 = none)
    (maps : ∀ p ∈ l, Maps p.1 (if write then .write else .read) p.2 s) :
    vaCheck n write (l.map (·.1)) (issued s) = .ok (l.map (·.2), issued s) := by
  have accesses : (l.map (·.1)).map (fun a => (a, if write then Acc.write else Acc.read, vaFails (issued s) n write a)) =
      (l.map (fun p => (p.1, if write then Acc.write else Acc.read, p.2))).map (fun p => (p.1, p.2.1, none)) := by
    rw [List.map_map, List.map_map]
    exact List.map_congr_left fun p hp => by simp only [Function.comp_apply, pass p hp]
  have found := xlateScoped_maps anyMemory (l.map (fun p => (p.1, if write then Acc.write else Acc.read, p.2)))
    (List.forall_mem_map.2 maps) (List.forall_mem_map.2 fun p hp => by
      have there := (maps p hp).there
      unfold anyMemory
      split <;> simp_all)
  rw [vaCheck, bind_of (get_apply _), xlateChecked, accesses, found, List.map_map]
  rfl

/-- An address that is aligned, in range and, for a store, held. -/
theorem vaFails_none {n va pa : Nat} {acc : Acc} {write : Bool} {s : State} (aligned : va % n = 0) (maps : Maps va acc pa s)
    (held : write = true → Held va n s) : vaFails (issued s) n write va = none := by
  rw [vaFails, if_neg (by simp [aligned]), if_neg (Nat.not_le.2 maps.range)]
  split
  next store =>
    have own : capFails s.m s.m.cx s.m.curCore va n = none := held store
    rw [issued_cx, issued_curCore, capFails_issued, own]
    rfl
  next => rfl

section
variable {x : VW} {s : State} (r : Ready x.h s) (ha : IsReg x.a s) (hb : IsReg x.b s) (clear : Clear s) {pas : List Nat}
  (fits : Fits [x.d] [memElt x] s) (each : pas.length = (laneList x false s).length) (aligned : ∀ p ∈ laneList x false s, p.2 % memSize x = 0)
include each aligned

/-- The lanes' addresses and where they go. -/
theorem vaCheck_lanes {write : Bool} (maps : ∀ p ∈ List.zip (laneList x false s) pas, Maps p.1.2 (if write then .write else .read) p.2 s)
    (held : write = true → ∀ p ∈ List.zip (laneList x false s) pas, Held p.1.2 (memSize x) s) :
    vaCheck (memSize x) write ((laneList x false s).map (·.2)) (issued s) = .ok (pas, issued s) := by
  have from_ : (laneList x false s).map (·.2) = ((List.zip (laneList x false s) pas).map (fun p => (p.1.2, p.2))).map (·.1) := by
    conv_lhs => rw [← List.map_fst_zip (l₁ := laneList x false s) (l₂ := pas) each.ge, List.map_map]
    rw [List.map_map]
    rfl
  have to_ : pas = ((List.zip (laneList x false s) pas).map (fun p => (p.1.2, p.2))).map (·.2) := by
    rw [List.map_map]
    exact (List.map_snd_zip each.le).symm
  conv_rhs => rw [to_]
  rw [from_]
  refine vaCheck_maps (List.forall_mem_map.2 fun p hp => ?_) (List.forall_mem_map.2 maps)
  exact vaFails_none (aligned p.1 (List.of_mem_zip hp).1) (maps p hp) (fun store => held store p hp)

include r ha hb clear fits

theorem exec_vldg (maps : ∀ p ∈ List.zip (laneList x false s) pas, Maps p.1.2 .read p.2 s) (room : RoomLd s) :
    exec (.vldg x) s = .next (after x.h none (fun m =>
      (sortUp (pas.map (· / 128))).foldl (fun m line =>
        startLine (((List.zip ((laneList x false s).map (·.1)) pas).filter (fun p => p.2 / 128 == line)).map
            (fun p => Machine.Part.mk p.2 (memSize x) (cellIndex (sl s) x.zm (mkOf x) p.1) (sl s).vew (memElt x).low))
          (memElt x).signed (bitAt x.sub 1) false x.h.ch.toNat s.m.nextId m)
        (awaitsCells ((List.range (sl s).vcap).map (fun l =>
          let at_ := (List.range (sl s).vew).map ((sl s).vbyte (vNo x.d) l + ·)
          if (sl s).laneActive (mkOf x) l then at_.map (fun a => (a, none))
          else if x.zm then at_.map (fun a => (a, some 0)) else [])).flatten (countsLd m))) s) := by
  refine run_issue_after r ha hb (vmem_allowed (index := false) ha hb _) ?_
  rw [bind_of (accessGate_apply clear), bind_of (lanesOf_issued (index := false) ha hb fits),
    bind_of (vaCheck_lanes each aligned (write := false) maps nofun), bind_of (countLd_apply room), bind_of (mine_apply ..), id, countsLd_sl]
  rfl

theorem exec_vstg (maps : ∀ p ∈ List.zip (laneList x false s) pas, Maps p.1.2 .write p.2 s ∧ Held p.1.2 (memSize x) s) (room : RoomSt s) :
    exec (.vstg x) s = .next (after x.h none (fun m =>
      if (laneList x false s).isEmpty then ackLater m
      else
        let t := m.cur + 2 ^ 16 * (s.m.nextId + 1)
        let bytes := lastWins ((List.zip ((laneList x false s).map (·.1)) pas).map
          (fun p => cellsAt p.2 (toLE (memSize x) ((memElt x).clean ((sl s).lane x.d p.1))))).flatten
        (sortUp (bytes.map (·.1 / 128))).foldl (fun m line =>
          let l := bytes.filter (fun c => c.1 / 128 == line)
          if bitAt x.sub 1 then strongStoreT m.cur t x.h.ch.toNat l m else weakStoreT m.cur t x.h.ch.toNat l m)
          (Mach.updSlot { m with nextId := m.nextId + 1 } m.cur (fun z => { z with ocSt := z.ocSt + 1 }))) s) := by
  refine run_issue_after r ha hb (vmem_allowed (index := false) ha hb _) ?_
  rw [bind_of (accessGate_apply clear), bind_of (lanesOf_issued (index := false) ha hb fits),
    bind_of (vaCheck_lanes each aligned (write := true) (fun p hp => (maps p hp).1) (fun _ p hp => (maps p hp).2)), bind_of (mine_apply ..), id, issued_sl]
  by_cases none_ : (laneList x false s).isEmpty = true
  · rw [if_pos none_, if_pos none_, bind_of (roomSt_apply room)]
    rfl
  · rw [if_neg none_, if_neg none_]
    have counted : countStore (issued s) = .ok ((issued s).cur + 2 ^ 16 * (s.m.nextId + 1),
        Mach.updSlot { issued s with nextId := (issued s).nextId + 1 } (issued s).cur (fun z => { z with ocSt := z.ocSt + 1 })) := by
      rw [countStore, bind_of (roomSt_apply room)]
      rfl
    rw [bind_of counted]
    rfl

end

theorem vectorMemory : VectorMemory := by
  intro x s pas r ha hb clear y ls n k strong ps lines fits each aligned
  exact ⟨fun maps room => exec_vldg r ha hb clear fits each aligned maps room,
    fun maps room => exec_vstg r ha hb clear fits each aligned maps room⟩

/-- Settles O43. -/
theorem vectorAccesses : Obligations.VectorAccesses := ⟨vectorScratchpad, vectorMemory⟩

end Sys2Proof.Claim
end

section
/-! PROOFS. Tile loads, stores, moves and transposes (R236, R238). -/
namespace Sys2Proof.Claim
open Machine

/-! ## Checks -/

theorem tCheck_issued {b : BitVec 8} {s : State} (fits : TileFits b s) : tCheck b (issued s) = .ok ((), issued s) := by
  obtain ⟨bank, share⟩ := fits
  rw [tCheck, bind_of (get_apply _), issued_sl, issued_cx, bind_of (trapIf_of (beq_eq_false_iff_ne.2 bank) ..)]
  exact trapIf_of (decide_eq_false (Nat.not_lt.2 share)) ..

/-- Nothing holds a word on the registers that its popped operand names. -/
theorem lateUse_issued {h : Hdr} {s : State} (r : Ready h s) (rd wr : List Rng) : lateUse rd wr (issued s) = .ok ((), issued s) := by
  have due : ((sl s).schk && (sl s).underrun rd) = false := by
    cases checks : (sl s).schk with
    | true => exact Slot.underrun_due (s := sl s) r.landed (r.due checks) rd
    | false => rfl
  have reads : rd.find? (fun p => (sl s).interlocked [p]) = none := List.find?_eq_none.2 fun p _ => by
    rw [Slot.interlocked_nil (s := sl s) r.landed]; decide
  have writes : wr.find? (fun p => (sl s).pendingTo [p]) = none := List.find?_eq_none.2 fun p _ => by
    rw [Slot.pendingTo_nil (s := sl s) r.landed]; decide
  rw [lateUse, bind_of (mine_apply ..), id, issued_sl, bind_of (trapIf_of due ..), reads, writes]
  rfl

/-- The active elements with the window offsets of their bytes (R236). -/
def tileList (x : VW) (s : State) : List ((Nat × Nat) × Nat) :=
  ((sl s).activeElems (mkOf x)).map (fun e => (e, (addImm16 (val x.a s) x.imm16 + e.1 * val x.b s + e.2 * (sl s).tew) % 2 ^ 64))

theorem tileList_elems (x : VW) (s : State) : (tileList x s).map (·.1) = (sl s).activeElems (mkOf x) := (List.map_map ..).trans (List.map_id _)

/-- The bytes read for an active element. -/
theorem read_of_elem {x : VW} {s : State} {e : Nat × Nat} (on : e ∈ (sl s).activeElems (mkOf x)) (f : Nat → List Nat) :
    (((tileList x s).map (·.2)).map f).getD (((tileList x s).map (·.1)).idxOf e) [] =
      f ((addImm16 (val x.a s) x.imm16 + e.1 * val x.b s + e.2 * (sl s).tew) % 2 ^ 64) := by
  have low : ((sl s).activeElems (mkOf x)).idxOf e < ((sl s).activeElems (mkOf x)).length := List.idxOf_lt_length_of_mem on
  rw [tileList_elems, tileList, List.map_map, List.map_map, List.getD_eq_getElem _ _ (by simpa using low), List.getElem_map, List.getElem_idxOf]
  rfl

theorem tCells_reads {x : VW} {s : State} (f : Nat → List Nat) :
    tCells (sl s) x.d x.zm (sl s).elems (fun e => (sl s).elemActive (mkOf x) e.1 e.2)
        (fun e => ofLE ((((tileList x s).map (·.2)).map f).getD (((tileList x s).map (·.1)).idxOf e) [])) =
      tCells (sl s) x.d x.zm (sl s).elems (fun e => (sl s).elemActive (mkOf x) e.1 e.2)
        (fun e => ofLE (f ((addImm16 (val x.a s) x.imm16 + e.1 * val x.b s + e.2 * (sl s).tew) % 2 ^ 64))) := by
  unfold tCells
  congr 1
  refine List.map_congr_left fun e listed => ?_
  by_cases on : (sl s).elemActive (mkOf x) e.1 e.2 = true
  · rw [if_pos on, if_pos on]
    exact congrArg (fun v => cellsAt _ (toLE _ (ofLE v))) (read_of_elem (List.mem_filter.2 ⟨listed, on⟩) f)
  · rw [if_neg on, if_neg on]

section
variable {x : VW} {s : State} (r : Ready x.h s) (ha : IsReg x.a s) (hb : IsReg x.b s)
include r ha hb

/-! ## Loads and stores (R236) -/

section
variable (tile : TileFits x.d s) (clear : Clear s) (start : addImm16 (val x.a s) x.imm16 % (sl s).tew = 0) (row : val x.b s % (sl s).tew = 0)
  (inside : ∀ p ∈ tileList x s, p.2 % (sl s).tew = 0 ∧ InWindow p.2 (sl s).tew s)
include tile clear start row inside

omit r in
theorem tileAddrs_issued : tileAddrs x (issued s) = .ok (tileList x s, issued s) := by
  have checked : ∀ a ∈ (tileList x s).map (·.2), a % (sl s).tew = 0 ∧ InWindow a (sl s).tew s := List.forall_mem_map.2 inside
  rw [tileAddrs, bind_of (accessGate_apply clear), bind_of (tCheck_issued tile), bind_of (rdG_val ha), bind_of (rdG_val hb), bind_of (mine_apply ..), id,
    issued_sl]
  dsimp only
  rw [bind_of (trapIf_of (misaligned_eq.2 start) ..), bind_of (trapIf_of (misaligned_eq.2 row) ..)]
  exact bind_of (bankCheck_issued checked)

theorem exec_tld (sound : ∀ p ∈ tileList x s, Sound p.2 (sl s).tew s) (room : RoomLd s) :
    exec (.tld x) s = .next (after x.h none (fun m => lands .load (known (tCells (sl s) x.d x.zm (sl s).elems
      (fun e => (sl s).elemActive (mkOf x) e.1 e.2) (fun e => ofLE (s.m.spad.rdN (spPlace s.m.curCore
        ((addImm16 (val x.a s) x.imm16 + e.1 * val x.b s + e.2 * (sl s).tew) % 2 ^ 64)) (sl s).tew)))) (countsLd m)) s) := by
  have reads : ∀ a ∈ (tileList x s).map (·.2), Sound a (sl s).tew s := List.forall_mem_map.2 sound
  have read : bankReads (sl s).tew ((tileList x s).map (·.2)) (countsLd (issued s)) =
      .ok (((tileList x s).map (·.2)).map (fun a => s.m.spad.rdN (spPlace s.m.curCore a) (sl s).tew), countsLd (issued s)) :=
    bankReads_sound (m := countsLd (issued s)) reads
  refine run_issue_after r ha hb (allowed_of_regs (by simp [ha, hb])) ?_
  rw [bind_of (tileAddrs_issued ha hb tile clear start row inside), bind_of (countLd_apply room), bind_of (mine_apply ..), id, countsLd_sl]
  refine (bind_of read).trans ((bind_of (setLand_apply ..)).trans ?_)
  exact congrArg (fun c => Except.ok (none, lands .load (known c) (countsLd (issued s))))
    (tCells_reads fun a => s.m.spad.rdN (spPlace s.m.curCore a) (sl s).tew)

theorem exec_tst (room : RoomSt s) :
    exec (.tst x) s = .next (after x.h none (fun m => ackLater (banked s.m.curCore (((sl s).activeElems (mkOf x)).map (fun e =>
      ((addImm16 (val x.a s) x.imm16 + e.1 * val x.b s + e.2 * (sl s).tew) % 2 ^ 64, toLE (sl s).tew ((sl s).elemNum x.d e.1 e.2)))) m)) s) := by
  refine run_issue_after r ha hb (allowed_of_regs (by simp [ha, hb])) ?_
  rw [bind_of (tileAddrs_issued ha hb tile clear start row inside), bind_of (mine_apply ..), id, issued_sl,
    bind_of (bankStores_banked (core := s.m.curCore) (m := issued s) rfl (by rw [issued_sl]; exact room)), tileList, List.map_map]
  rfl

end

/-! ## Moves and transposes (R238) -/

theorem exec_ttr (to_ : TileFits x.d s) (from_ : TileFits x.a s) (square : (sl s).TR = (sl s).TC) :
    exec (.ttr x) s = .next (after x.h none (lands .ready (known (tCells (sl s) x.d x.zm (sl s).elems
      (fun e => (sl s).elemActive (mkOf x) e.1 e.2) (fun e => (sl s).elemNum x.a e.2 e.1)))) s) := by
  refine run_issue_after r ha hb (allowed_of_regs (by simp)) ?_
  rw [bind_of (tCheck_issued to_), bind_of (tCheck_issued from_), bind_of (mine_apply ..), id, issued_sl,
    bind_of (trapIf_of (bne_eq_false_iff_eq.2 square) ..)]
  exact bind_of (setLand_apply ..)

theorem exec_tmov (to_ : TileFits x.d s) (from_ : TileFits x.a s) :
    exec (.tmov x) s = .next (after x.h none (fixed 4 (tCells (sl s) x.d x.zm (sl s).elems
      (fun e => (sl s).elemActive (mkOf x) e.1 e.2) (fun e => (sl s).elemNum x.a e.1 e.2))) s) := by
  refine run_issue_after r ha hb (allowed_of_regs (by simp)) ?_
  rw [bind_of (tCheck_issued to_), bind_of (tCheck_issued from_), bind_of (mine_apply ..), id, issued_sl]
  exact bind_of (setFixed_apply ..)

theorem exec_tmovVt (to_ : TileFits x.d s) (from_ : Fits [x.a] [] s) (size : (sl s).vew = (sl s).tew) (row : val x.b s ≤ (sl s).TR) :
    exec (.tmovVt x) s = .next (after x.h none (fixed 4 (tCells (sl s) x.d x.zm ((List.range ((sl s).TC + 1)).map (fun j => (val x.b s, j)))
      (fun e => decide (e.2 < (sl s).vlanes) && (sl s).elemActive (mkOf x) e.1 e.2) (fun e => (sl s).lane x.a e.2))) s) := by
  refine run_issue_after r ha hb (allowed_of_regs (by simp [hb])) ?_
  rw [bind_of (tCheck_issued to_), bind_of (vChecks_issued from_.bank from_.share from_.width), bind_of (rdG_val hb), bind_of (mine_apply ..), id,
    issued_sl, bind_of (lateUse_issued r ..), bind_of (trapIf_of (bne_eq_false_iff_eq.2 size) ..),
    bind_of (trapIf_of (decide_eq_false (Nat.not_lt.2 row)) ..)]
  exact bind_of (setFixed_apply ..)

theorem exec_tmovTv (to_ : Fits [x.d] [] s) (from_ : TileFits x.a s) (size : (sl s).vew = (sl s).tew) (row : val x.b s ≤ (sl s).TR) :
    exec (.tmovTv x) s = .next (after x.h none (fixed 4 (vCells (sl s) x.d x.zm
      (fun l => (sl s).laneActive (mkOf x) l && decide (l ≤ (sl s).TC)) (fun l => (sl s).elemNum x.a (val x.b s) l))) s) := by
  refine run_issue_after r ha hb (allowed_of_regs (by simp [hb])) ?_
  rw [bind_of (vChecks_issued to_.bank to_.share to_.width), bind_of (tCheck_issued from_), bind_of (rdG_val hb), bind_of (mine_apply ..), id,
    issued_sl, bind_of (lateUse_issued r ..), bind_of (trapIf_of (bne_eq_false_iff_eq.2 size) ..),
    bind_of (trapIf_of (decide_eq_false (Nat.not_lt.2 row)) ..)]
  exact bind_of (setFixed_apply ..)

theorem exec_tzero (to_ : TileFits x.d s) :
    exec (.tzero x) s = .next (after x.h none (fixed 4 (tCells (sl s) x.d x.zm (sl s).elems
      (fun e => (sl s).elemActive (mkOf x) e.1 e.2) (fun _ => 0))) s) := by
  refine run_issue_after r ha hb (allowed_of_regs (by simp)) ?_
  rw [bind_of (tCheck_issued to_), bind_of (mine_apply ..), id, issued_sl]
  exact bind_of (setFixed_apply ..)

end

/-- Settles O44. -/
theorem tiles : Obligations.Tiles := by
  intro x s r ha hb y k active a b base offset
  refine ⟨fun to_ => ⟨fun clear start row inside => ⟨fun sound room => ?_, fun room => ?_⟩, fun from_ square => exec_ttr r ha hb to_ from_ square,
    fun from_ => exec_tmov r ha hb to_ from_, fun from_ size row => exec_tmovVt r ha hb to_ from_ size row, exec_tzero r ha hb to_⟩,
    fun to_ from_ size row => exec_tmovTv r ha hb to_ from_ size row⟩
  · exact exec_tld r ha hb to_ clear start row (List.forall_mem_map.2 inside) (List.forall_mem_map.2 sound) room
  · exact exec_tst r ha hb to_ clear start row (List.forall_mem_map.2 inside) room

end Sys2Proof.Claim
end

section
/-! PROOFS. Words about engines and event rules (R167, R190, R191, R214 to R216). -/
namespace Sys2Proof.Claim
open Machine

/-- An action that stops hands nothing on. -/
theorem stop_of {α β : Type} {x : M α} {f : α → M β} {e : Stop} {m : Mach} (h : x m = .error e) : (x >>= f) m = .error e := by
  rw [bind_apply, h]

/-- A pending result leaves the slot's context. -/
theorem ctx_lands (src : LandSrc) (cells : List (Nat × Option Nat)) (m : Mach) : (lands src cells m).sl.ctx = m.sl.ctx := by
  unfold lands
  dsimp only
  split
  · rfl
  · refine (congrArg Slot.ctx (Mach.slot_updSlot_self { m with nextId := m.nextId + 1 } m.cur _)).trans ?_
    unfold Slot.note
    split <;> rfl

theorem curCore_lands (src : LandSrc) (cells : List (Nat × Option Nat)) (m : Mach) : (lands src cells m).curCore = m.curCore := by
  unfold lands
  dsimp only
  split <;> rfl

theorem setCj_lands (src : LandSrc) (cells : List (Nat × Option Nat)) (s : State) (p : Pair) :
    (lands src cells (issued s)).setCj p = (lands src cells (issued s)).setPair s.m.sl.ctx (pairOf s.m.curCore) p := by
  rw [Mach.setCj, ctx_lands, curCore_lands, issued_sl]
  rfl

theorem allowed_privileged {rd : List Rng} {s : State} (privileged : Privileged s) : Allowed { rd := rd, priv := true } s :=
  ⟨rfl, fun _ => privileged, nofun, List.forall_mem_nil _⟩

section
variable {x : JW} {s : State} (r : Ready x.h s)
include r

/-! ## Key queues (R190, R191) -/

theorem exec_kqpush (ha : IsReg x.a s) (hb : IsReg x.b s) (room : (s.m.cj.kq.get [] x.d.toNat).length < 64)
    (first : copykTo s.m s.m.cur x.d.toNat = false) :
    exec (.kqpush x) s = .next (after x.h none
      (fun m => m.setCj { s.m.cj with kq := s.m.cj.kq.put x.d.toNat (s.m.cj.kq.get [] x.d.toNat ++ [val x.a s]) }) s) := by
  have open_ : (decide (64 ≤ (s.m.cj.kq.get [] x.d.toNat).length) || copykTo (issued s) (issued s).cur x.d.toNat) = false :=
    Bool.or_eq_false_iff.2 ⟨decide_eq_false (Nat.not_le.2 room), first⟩
  refine run_issue_after r ha hb (allowed_of_regs (by simp [ha])) ?_
  rw [bind_of (rdG_val ha), bind_of (get_apply _), setCj_issued, issued_sl, sl_ctx, issued_curCore]
  exact (bind_of (blockIf_of open_ ..)).trans (bind_of (change_apply ..))

theorem exec_kqstat (hd : IsReg x.d s) (free : bitAt x.mod.toNat 0 = false → Free s) :
    exec (.kqstat x) s = .next (after x.h none (fun m =>
      let m := lands .ready (known (gCells (gNo x.d) (if s.m.cx.det then 0 else (s.m.cj.kq.get [] x.a.toNat).length))) m
      if bitAt x.mod.toNat 0 then m.setCj { s.m.cj with kq := s.m.cj.kq.put x.a.toNat [] } else m) s) := by
  have allowed : Allowed { pops := [(x.d, .write)], nondet := !bitAt x.mod.toNat 0 } s :=
    ⟨rfl, nofun, fun timed => free (by simpa [Use.barred] using timed), by simp [hd]⟩
  refine run_issue_after r (isReg_zero s) (isReg_zero s) allowed ?_
  rw [bind_of (get_apply _), issued_sl, sl_ctx, issued_curCore, issued_cx]
  refine (bind_of (wrLand_issued hd)).trans ((bind_of (change_apply ..)).trans ?_)
  dsimp only
  rw [setCj_lands]
  rfl

/-! ## Prefetch of pooled lines (R214) -/

theorem exec_pfpool (ha : IsReg x.a s) (hb : IsReg x.b s) (clear : Clear s) (range : beyond (val x.a s) (val x.b s) = none)
    (still : ∀ v ∈ vaLines (val x.a s) (val x.b s), walking (issued s) s.m.curCore s.m.cx.asid v = false) :
    exec (.pfpool x) s = .next (after x.h none
      (fun m => (vaLines (val x.a s) (val x.b s)).foldl (fun m v => prefetchLine x.h.ch.toNat v m) m) s) := by
  have within : rangeCheck (val x.a s) (val x.b s) (issued s) = .ok ((), issued s) := by
    rw [rangeCheck, range]
    rfl
  have none_ : (vaLines (val x.a s) (val x.b s)).find? (walking (issued s) s.m.curCore s.m.cx.asid) = none :=
    List.find?_eq_none.2 fun v hv => by rw [still v hv]; decide
  refine run_issue_after r ha hb (allowed_of_regs (by simp)) ?_
  rw [bind_of (rdGp_issued ..), bind_of (rdGp_issued ..), bind_of (accessGate_apply clear), bind_of within, bind_of (get_apply _), issued_curCore, issued_cx,
    none_]
  rfl

/-! ## Inspecting and cancelling (R215, R216) -/

theorem exec_ecancel :
    exec (.ecancel x) s = .next (after x.h none (fun m => (cmdsOf m m.cur (x.d.toNat - 16)).foldl (fun m c => cancelCmd c m) m) s) :=
  run_issue_after r (isReg_zero s) (isReg_zero s) (allowed_of_regs (by simp)) rfl

theorem exec_estat (hd : IsReg x.d s) (free : Free s) :
    exec (.estat x) s = .next (after x.h none (fun m =>
      lands .ready (known (gCells (gNo x.d) (estatWord m (tlSlot m.cur (x.a.toNat - 16)) (x.a.toNat - 16)))) m) s) := by
  refine run_issue_after r (isReg_zero s) (isReg_zero s) ⟨rfl, nofun, fun _ => free, by simp [hd]⟩ ?_
  rw [bind_of (get_apply _)]
  exact bind_of (wrLand_issued hd)

/-! ## Event rules (R167) -/

section
variable {q : List Nat} (ha : IsReg x.a s) (privileged : Privileged s) (clear : Clear s) (window : InWindow (val x.a s) 64 s)
  (sound : Sound (val x.a s) 64 s) (rule : quadsOf (s.m.spad.rdN (spPlace s.m.curCore (val x.a s)) 64) 8 = q)
include ha privileged clear window sound rule

theorem exec_evrule {c : Nat} (named : s.m.ctxOfAsid (bits (q.getD 0 0) 32 16) = some c) (good : ruleBad q = false) (free : (s.m.ctx c).det = false) :
    exec (.evrule x) s = .next (after x.h none (setRule (bits x.mod.toNat 8 1) (bits x.mod.toNat 0 8) (some q)) s) := by
  have found : (issued s).ctxOfAsid (bits (q.getD 0 0) 32 16) = some c := named
  have allowed : (ruleBad q || ((issued s).ctx c).det) = false := Bool.or_eq_false_iff.2 ⟨good, free⟩
  refine run_issue_after r ha (isReg_zero s) (allowed_privileged privileged) ?_
  rw [bind_of (rdGp_issued ..), bind_of (get_apply _), bind_of (trapIf_of window ..), bind_of (accessGate_apply clear), bind_of (spRead_issued sound), rule,
    bind_of (get_apply _), found]
  exact (bind_of (trapIf_of allowed ..)).trans (bind_of (change_apply ..))

theorem exec_evrule_bad (bad : s.m.ctxOfAsid (bits (q.getD 0 0) 32 16) = none ∨ ruleBad q = true) :
    exec (.evrule x) s = .next { s with m := takeTrap s.m.cur 0x23 0 s.m.sl.retAddr s.m } := by
  refine run_issue_traps r ha (isReg_zero s) (allowed_privileged privileged) ?_
  rw [bind_of (rdGp_issued ..), bind_of (get_apply _), bind_of (trapIf_of window ..), bind_of (accessGate_apply clear), bind_of (spRead_issued sound), rule,
    bind_of (get_apply _)]
  cases named : s.m.ctxOfAsid (bits (q.getD 0 0) 32 16) with
  | none =>
    have found : (issued s).ctxOfAsid (bits (q.getD 0 0) 32 16) = none := named
    rw [found]
    rfl
  | some c =>
    have found : (issued s).ctxOfAsid (bits (q.getD 0 0) 32 16) = some c := named
    have refused : (ruleBad q || ((issued s).ctx c).det) = true := by
      rw [bad.resolve_left (by rw [named]; nofun)]; rfl
    rw [found]
    exact stop_of (trapIf_of_true refused ..)

end

theorem exec_evruleOff (privileged : Privileged s) :
    exec (.evruleOff x) s = .next (after x.h none (setRule (bits x.mod.toNat 8 1) (bits x.mod.toNat 0 8) none) s) :=
  run_issue_after r (isReg_zero s) (isReg_zero s) (allowed_privileged privileged) rfl

end

/-- Settles O48. -/
theorem engineWords : Obligations.EngineWords := by
  intro x s r p kq
  exact ⟨fun ha hb room first => exec_kqpush r ha hb room first, fun hd free => exec_kqstat r hd free,
    fun ha hb clear range still => exec_pfpool r ha hb clear range still, exec_ecancel r, fun hd free => exec_estat r hd free,
    fun ha privileged clear window sound =>
      ⟨fun c named good free => exec_evrule r ha privileged clear window sound rfl named good free,
        fun bad => exec_evrule_bad r ha privileged clear window sound rfl bad⟩,
    fun privileged => exec_evruleOff r privileged⟩

end Sys2Proof.Claim
end

section
/-! PROOFS. Commands of engines and remote commands start (R108, R209 to R219, R310 to R313). -/
namespace Sys2Proof.Claim
open Machine

/-- A command starts where its timeline has room. -/
theorem newCmd_issued {t : Nat} {s : State} (room : Room t s) (new : NewCmd) :
    newCmd t new (issued s) = .ok ((), startCmd s.m.cur t new none (issued s)) := by
  have open_ : decide (16 ≤ (cmdsOf (issued s) (issued s).cur t).length) = false := decide_eq_false (Nat.not_le.2 room)
  rw [newCmd, bind_of (get_apply _), bind_of (blockIf_of open_ ..)]
  rfl

/-- Two ways to a value, and what goes on from it. -/
theorem ite_join {α β : Type} {c : Prop} [Decidable c] (x y : M α) (k : α → M β) :
    (if c then x >>= k else y >>= k) = (if c then x else y) >>= k := by
  split <;> rfl

/-- An action of which one way has nothing to do. -/
theorem ite_act {β : Type} {c : Prop} [Decidable c] (x : M Unit) (k : Unit → M β) :
    (if c then x >>= k else k ()) = (if c then x else pure ()) >>= k := by
  split <;> rfl

theorem capRanges_none {s : State} {l : List (Nat × Nat)} (held : ∀ p ∈ l, Held p.1 p.2 s) : capRanges (issued s) l = none :=
  List.findSome?_eq_none_iff.2 fun p hp => by
    have own : capFails s.m s.m.cx s.m.curCore p.1 p.2 = none := held p hp
    rw [issued_cx, issued_curCore, capFails_issued, own]
    rfl

section
variable {x : JW} {s : State} (r : Ready x.h s) (ha : IsReg x.a s) (hb : IsReg x.b s) (clear : Clear s)
include r ha hb clear

/-! ## Set operations (R209) -/

theorem run_setOp {op d size most : Nat} (issuer : isIssuer s.m.curCore = true) (room : Room 3 s) (few : bits (val x.c s) 0 32 ≤ 256)
    (dest : (if op = 0xDA then 0 else val x.d s) = d) (entry : setEntry op = size) (bound : setMost op (bits (val x.c s) 0 32) (bits (val x.c s) 32 32) = most)
    (aligned : val x.a s % size = 0 ∧ val x.b s % size = 0 ∧ d % size = 0)
    (window : InWindow (val x.a s) (size * bits (val x.c s) 0 32) s ∧ InWindow (val x.b s) (size * bits (val x.c s) 32 32) s ∧
      InWindow d (size * most) s ∧ InWindow (val x.e s) 8 s) :
    run (setOp x op) s = .next (after x.h none (startCmd s.m.cur 3 {
      op := op
      args := [d, val x.a s, val x.b s, bits (val x.c s) 0 32, bits (val x.c s) 32 32, val x.e s, x.mod.toNat]
      spans := [(val x.a s, size * bits (val x.c s) 0 32), (val x.b s, size * bits (val x.c s) 32 32), (d, size * most), (val x.e s, 8)] } none) s) := by
  obtain ⟨evenA, evenB, evenD⟩ := aligned
  obtain ⟨inA, inB, inD, inE⟩ := window
  have first : (if op = 0xDA then pure 0 else rdGp x.d : M Nat) (issued s) = .ok (d, issued s) := by
    by_cases count : op = 0xDA
    · rw [if_pos count] at dest ⊢
      rw [← dest]; rfl
    · rw [if_neg count] at dest ⊢
      rw [← dest]; exact rdGp_issued ..
  have spans : setSpans op [d, val x.a s, val x.b s, bits (val x.c s) 0 32, bits (val x.c s) 32 32, val x.e s, x.mod.toNat] =
      [(val x.a s, size * bits (val x.c s) 0 32), (val x.b s, size * bits (val x.c s) 32 32), (d, size * most), (val x.e s, 8)] := by
    simp only [setSpans, List.getD_cons_zero, List.getD_cons_succ, entry, bound]
  refine run_issue_after r ha hb (allowed_of_regs (by simp)) ?_
  rw [bind_of (issuerOnly_ok issuer)]
  rw [ite_join, bind_of first]
  dsimp only
  rw [bind_of (rdGp_issued ..), bind_of (rdGp_issued ..), bind_of (rdGp_issued ..), bind_of (rdGp_issued ..), bind_of (accessGate_apply clear), entry, bound, spans, bind_of (trapIf_of (decide_eq_false (Nat.not_lt.2 few)) ..), bind_of (trapIf_of (misaligned_eq.2 evenA) ..),
    bind_of (trapIf_of (misaligned_eq.2 evenB) ..), bind_of (trapIf_of (misaligned_eq.2 evenD) ..), bind_of (get_apply _),
    bind_of (trapIf_of inA ..), bind_of (trapIf_of inB ..), bind_of (trapIf_of inD ..), bind_of (trapIf_of inE ..)]
  exact bind_of (newCmd_issued room _)

/-! ## Copies (R211) -/

theorem run_copyOp {op : Nat} {q : List Nat} (aligned : val x.a s % 64 = 0) (own : ownShare (issued s) s.m.cur (val x.a s) 64 = true)
    (sound : Sound (val x.a s) 64 s) (room : Room 0 s) (record : quadsOf (s.m.spad.rdN (spPlace s.m.curCore (val x.a s)) 64) 8 = q)
    (good : copyBad op q = false) (fits : copyFails (issued s) s.m.cur op (copyRec op q) = none)
    (held : capRanges (issued s) ((copyRec op q).wvas op) = none) :
    run (copyOp x op) s = .next (after x.h none (startCmd s.m.cur 0 (newCopy (val x.a s) op (copyRec op q) x.h.ch.toNat) none) s) := by
  have stands : (!ownShare (issued s) (issued s).cur (val x.a s) 64) = false := by rw [issued_cur, own]; rfl
  have passes : ((copyFails (issued s) (issued s).cur op (copyRec op q)).orElse fun _ => capRanges (issued s) ((copyRec op q).wvas op)) = none := by
    rw [issued_cur, fits, held]; rfl
  refine run_issue_after r ha hb (allowed_of_regs (by simp)) ?_
  rw [bind_of (rdGp_issued ..), bind_of (accessGate_apply clear), bind_of (trapIf_of (misaligned_eq.2 aligned) ..), bind_of (get_apply _),
    bind_of (trapIf_of stands ..), bind_of (spRead_issued sound), record, bind_of (trapIf_of good ..), passes]
  exact bind_of (newCmd_issued room _)

/-! ## Gathers, scatters and pools (R108) -/

/-- The rows that a scatter writes, from its list's bytes. -/
def scatterRows (x : JW) (s : State) (ib : Nat) (list : List Nat) : List (Nat × Nat) :=
  (List.range (bits (val x.c s) 0 32)).map (fun j =>
    ((val x.a s + ofLE ((list.drop (j * ib)).take ib) * bits (val x.e s) 32 32) % 2 ^ 64, bits (val x.e s) 0 32))

/-- The arguments of a gather, scatter or pool. -/
def gpArgs (x : JW) (s : State) (rb ib : Nat) : List Nat :=
  [val x.d s, val x.a s, val x.b s, bits (val x.c s) 0 32, bits (val x.c s) 32 32, bits (val x.e s) 0 32, bits (val x.e s) 32 32, rb, ib,
    x.mod.toNat, Fmt.code x.fmt, Rm.code x.rm, 0]

omit r ha hb clear in
/-- The rows of R322's check are those of the list as it stands. -/
theorem scatterVas_eq {op rb ib : Nat} (scatter : op = 0xCE) (row : rb = bits (val x.e s) 0 32) (list : List Nat) :
    scatterVas { op := op, args := gpArgs x s rb ib } list = scatterRows x s ib list := by
  subst scatter row
  rfl

theorem run_gpOp {op n nb l rb ib lists side : Nat} {idle list : Bool} (hn : bits (val x.c s) 0 32 = n) (hnb : bits (val x.c s) 32 32 = nb)
    (hl : bits (val x.e s) 0 32 = l) (row : (if op = 0xCF then l * Fmt.width x.fmt / 8 else l) = rb)
    (index : (if op = 0xCF ∨ bitAt x.mod.toNat 0 then 8 else 4) = ib) (length : n * ib + (if op = 0xCF then 4 * nb else 0) = lists)
    (packed : (if op = 0xCF then nb * l * 4 else n * l) = side) (none_ : (n == 0 || l == 0) = idle)
    (early : (op == 0xCE && !idle && s.m.cx.det) = list) (room : Room 1 s) (few : l ≤ 16384) (short : rb ≤ 65536)
    (inLists : InWindow (val x.b s) lists s) (inSide : InWindow (val x.d s) side s)
    (held : ∀ p ∈ (if op = 0xCE ∧ idle = false then scatterRows x s ib (s.m.spad.rdN (spPlace s.m.curCore (val x.b s)) lists) else []), Held p.1 p.2 s)
    (sound : list = true → Sound (val x.b s) lists s) :
    run (gpOp x op) s = .next (after x.h none (startCmd s.m.cur 1 {
      op := op
      args := gpArgs x s rb ib ++ (if list then s.m.spad.rdN (spPlace s.m.curCore (val x.b s)) lists else [])
      spans := if idle then [] else [(val x.b s, lists), (val x.d s, side)]
      wvas := if op = 0xCE ∧ idle = false then scatterRows x s ib (s.m.spad.rdN (spPlace s.m.curCore (val x.b s)) lists) else []
      ch := x.h.ch.toNat } none) s) := by
  have small : (decide (16384 < l) || decide (65536 < rb)) = false :=
    Bool.or_eq_false_iff.2 ⟨decide_eq_false (Nat.not_lt.2 few), decide_eq_false (Nat.not_lt.2 short)⟩
  have when_ : (op = 0xCE ∧ (!idle) = true ∧ s.m.cx.det = true) ↔ list = true := by
    rw [← early, Bool.and_eq_true, Bool.and_eq_true, beq_iff_eq, and_assoc]
  have read : (if op = 0xCE ∧ (!idle) = true ∧ s.m.cx.det = true then spRead (val x.b s) lists else pure [] : M (List Nat)) (issued s) =
      .ok (if list then s.m.spad.rdN (spPlace s.m.curCore (val x.b s)) lists else [], issued s) := by
    by_cases now : list = true
    · rw [if_pos (when_.2 now), if_pos now, spRead_issued (sound now)]
    · rw [if_neg (when_.not.2 now), if_neg now]
      rfl
  have rows : (if op = 0xCE ∧ (!idle) = true then scatterVas { op := op, args := gpArgs x s rb ib }
        (if s.m.cx.det then (if list then s.m.spad.rdN (spPlace s.m.curCore (val x.b s)) lists else [])
          else s.m.spad.rdN (spPlace s.m.curCore (val x.b s)) lists) else []) =
      if op = 0xCE ∧ idle = false then scatterRows x s ib (s.m.spad.rdN (spPlace s.m.curCore (val x.b s)) lists) else [] := by
    by_cases scatter : op = 0xCE ∧ idle = false
    · obtain ⟨code, active⟩ := scatter
      have wide : rb = bits (val x.e s) 0 32 := by rw [← row, hl, if_neg (by rw [code]; decide)]
      have now : s.m.cx.det = list := by rw [← early, code, active]; rfl
      rw [if_pos ⟨code, by rw [active]; rfl⟩, scatterVas_eq code wide, now]
      exact (congrArg (scatterRows x s ib) (by cases list <;> rfl)).trans (if_pos ⟨code, active⟩).symm
    · rw [if_neg scatter, if_neg fun now => scatter ⟨now.1, (Bool.not_eq_true' idle).mp now.2⟩]
  have args : gpArgs x s rb ib =
      [val x.d s, val x.a s, val x.b s, n, nb, l, bits (val x.e s) 32 32, rb, ib, x.mod.toNat, Fmt.code x.fmt, Rm.code x.rm, 0] := by
    rw [gpArgs, hn, hnb, hl]
  have spans : gpSpans op (gpArgs x s rb ib) = if idle then [] else [(val x.b s, lists), (val x.d s, side)] := by
    have same : (n = 0 ∨ l = 0) ↔ idle = true := by rw [← none_, Bool.or_eq_true, beq_iff_eq, beq_iff_eq]
    simp only [gpSpans, gpArgs, List.getD_cons_zero, List.getD_cons_succ, hn, hnb, hl, length, packed, same]
  have passes : capRanges (issued s) (if op = 0xCE ∧ idle = false then
      scatterRows x s ib (s.m.spad.rdN (spPlace s.m.curCore (val x.b s)) lists) else []) = none := capRanges_none held
  refine run_issue_after r ha hb (allowed_of_regs (by simp)) ?_
  rw [bind_of (rdGp_issued ..), bind_of (rdGp_issued ..), bind_of (rdGp_issued ..), bind_of (rdGp_issued ..), bind_of (rdGp_issued ..),
    bind_of (accessGate_apply clear), hn, hnb, hl, row, index]
  rw [bind_of (trapIf_of small ..), bind_of (get_apply _), length, packed, none_, bind_of (trapIf_of inLists ..), bind_of (trapIf_of inSide ..), issued_cx, ite_join, bind_of read]
  have home : (issued s).spad = s.m.spad := rfl
  rw [home, issued_curCore]
  dsimp only
  rw [← args, rows, passes, spans]
  exact bind_of (newCmd_issued room _)

/-! ## The matvec (R217) -/

theorem exec_smv {q : List Nat} (record : s.m.sl.smv = some q) (some_ : 0 < val x.b s) (few : val x.b s ≤ 8)
    (inVec : InWindow (val x.a s) (4 * val x.b s * bits (q.getD 1 0) 32 32) s) (inOut : InWindow (val x.d s) (4 * val x.b s * bits (q.getD 1 0) 0 32) s)
    (room : Room 2 s) :
    exec (.smv x) s = .next (after x.h none (startCmd s.m.cur 2 {
      op := 0xD0
      args := [val x.d s, val x.a s, val x.b s] ++ q ++ [0]
      ch := x.h.ch.toNat
      spans := [(val x.a s, 4 * val x.b s * bits (q.getD 1 0) 32 32), (val x.d s, 4 * val x.b s * bits (q.getD 1 0) 0 32)] } none) s) := by
  have stands : (sl s).smv = some q := record
  have vectors : (val x.b s == 0 || decide (8 < val x.b s)) = false :=
    Bool.or_eq_false_iff.2 ⟨beq_eq_false_iff_ne.2 some_.ne', decide_eq_false (Nat.not_lt.2 few)⟩
  have fourth : ([val x.d s, val x.a s, val x.b s] ++ q).getD 4 0 = q.getD 1 0 := by
    simp only [List.cons_append, List.nil_append, List.getD_cons_succ]
  have spans : smvSpans ([val x.d s, val x.a s, val x.b s] ++ q) =
      [(val x.a s, 4 * val x.b s * bits (q.getD 1 0) 32 32), (val x.d s, 4 * val x.b s * bits (q.getD 1 0) 0 32)] := by
    unfold smvSpans
    dsimp only
    rw [fourth]
    rfl
  refine run_issue_after r ha hb (allowed_of_regs (by simp)) ?_
  rw [bind_of (rdGp_issued ..), bind_of (rdGp_issued ..), bind_of (rdGp_issued ..), bind_of (accessGate_apply clear), bind_of (get_apply _), issued_sl, stands]
  dsimp only
  rw [bind_of (trapIf_of vectors ..), bind_of (trapIf_of inVec ..), bind_of (trapIf_of inOut ..), spans]
  exact bind_of (newCmd_issued room _)

section
variable {q : List Nat} (own : ownShare (issued s) s.m.cur (val x.a s) 64 = true) (sound : Sound (val x.a s) 64 s)
  (record : quadsOf (s.m.spad.rdN (spPlace s.m.curCore (val x.a s)) 64) 8 = q)
include own sound record

theorem exec_smvcfg (good : smvBad q = false) :
    exec (.smvcfg x) s = .next (after x.h none (fun m => m.updSlot m.cur (fun y => { y with smv := some q })) s) := by
  have stands : (!ownShare (issued s) (issued s).cur (val x.a s) 64) = false := by rw [issued_cur, own]; rfl
  refine run_issue_after r ha hb (allowed_of_regs (by simp)) ?_
  rw [bind_of (rdGp_issued ..), bind_of (accessGate_apply clear), bind_of (get_apply _), bind_of (trapIf_of stands ..), bind_of (spRead_issued sound), record,
    bind_of (trapIf_of good ..)]
  exact bind_of (changeMine_apply ..)

theorem exec_smvcfg_bad (bad : smvBad q = true) :
    exec (.smvcfg x) s = .next { s with m := takeTrap s.m.cur 0x18 0 s.m.sl.retAddr s.m } := by
  have stands : (!ownShare (issued s) (issued s).cur (val x.a s) 64) = false := by rw [issued_cur, own]; rfl
  refine run_issue_traps r ha hb (allowed_of_regs (by simp)) ?_
  rw [bind_of (rdGp_issued ..), bind_of (accessGate_apply clear), bind_of (get_apply _), bind_of (trapIf_of stands ..), bind_of (spRead_issued sound), record]
  exact stop_of (trapIf_of_true bad ..)

end

end

section
variable {x : JW} {s : State} (r : Ready x.h s) (ha : IsReg x.a s) (hb : IsReg x.b s) (clear : Clear s) (room : Room 4 s)

/-! ## Remote commands (R310, R311) -/

section
variable {va off len pa : Nat} (some_ : 0 < len) (few : len ≤ 262144) (page : granuleOf va = granuleOf (va + len - 1)) (window : InWindow off len s)
  (scope : scopeOk .sys (paKind s.m.dev pa) = true)
include clear some_ few page window scope

theorem remoteAt_issued {acc : Acc} (held : acc = .write → Held va len s) (maps : Maps va acc pa s) :
    remoteAt va off len acc (issued s) = .ok (pa, issued s) := by
  have good : (len == 0 || decide (262144 < len) || granuleOf va != granuleOf (va + len - 1)) = false := by
    rw [← page, decide_eq_false (Nat.not_lt.2 few), beq_eq_false_iff_ne.2 some_.ne']
    exact bne_self_eq_false _
  have there : (!scopeOk .sys (paKind (issued s).dev pa)) = false := by rw [issued_dev, scope]; rfl
  have check : (if acc == .write then capCheck va len else pure () : M Unit) (issued s) = .ok ((), issued s) := by
    by_cases writes : acc = .write
    · rw [if_pos (beq_iff_eq.2 writes)]
      exact capCheck_apply (held writes)
    · rw [if_neg (by simpa using writes)]
      rfl
  rw [remoteAt, bind_of (accessGate_apply clear), bind_of (trapIf_of good ..), bind_of (get_apply _), bind_of (trapIf_of window ..), ite_act, bind_of check]
  dsimp only
  rw [bind_of (xlate_maps maps), bind_of (get_apply _), bind_of (trapIf_of there ..)]
  rfl

end

include r ha hb room

theorem exec_rput {pa : Nat} (at_ : remoteAt (val x.d s) (val x.a s) (val x.b s) .write (issued s) = .ok (pa, issued s)) :
    exec (.rput x) s = .next (after x.h none (startCmd s.m.cur 4 {
      op := 0xD3, args := [pa, val x.a s, val x.b s], spans := [(val x.a s, val x.b s)], wvas := [(val x.d s, val x.b s)] } none) s) := by
  refine run_issue_after r ha hb (allowed_of_regs (by simp)) ?_
  rw [bind_of (rdGp_issued ..), bind_of (rdGp_issued ..), bind_of (rdGp_issued ..), bind_of at_]
  exact bind_of (newCmd_issued room _)

theorem exec_rget {pa : Nat} (at_ : remoteAt (val x.a s) (val x.d s) (val x.b s) .read (issued s) = .ok (pa, issued s)) :
    exec (.rget x) s = .next (after x.h none (startCmd s.m.cur 4 {
      op := 0xD4, args := [pa, val x.d s, val x.b s], spans := [(val x.d s, val x.b s)] } none) s) := by
  refine run_issue_after r ha hb (allowed_of_regs (by simp)) ?_
  rw [bind_of (rdGp_issued ..), bind_of (rdGp_issued ..), bind_of (rdGp_issued ..), bind_of at_]
  exact bind_of (newCmd_issued room _)

section
variable {pa : Nat} (aligned : val x.a s % Ty.size (remoteTy x.mod.toNat) = 0) (held : Held (val x.a s) (Ty.size (remoteTy x.mod.toNat)) s)
  (maps : Maps (val x.a s) .write pa s) (scope : scopeOk .sys (paKind s.m.dev pa) = true)
include clear aligned held maps scope

omit r ha hb in
theorem remoteAtomic_issued {op b c d : Nat} (window : op = 0xD5 → InWindow d 8 s) :
    remoteAtomic op x (val x.a s) b c d (issued s) = .ok ((), startCmd s.m.cur 4 {
      op := op, args := [pa, d, Ty.size (remoteTy x.mod.toNat), b, c, x.mod.toNat], spans := if op = 0xD5 then [(d, 8)] else []
      wvas := [(val x.a s, Ty.size (remoteTy x.mod.toNat))] } none (issued s)) := by
  have inside : (op == 0xD5 && spFails (issued s) d 8) = false := by
    by_cases returns : op = 0xD5
    · rw [window returns, Bool.and_false]
    · rw [beq_eq_false_iff_ne.2 returns, Bool.false_and]
  have there : (!scopeOk .sys (paKind (issued s).dev pa)) = false := by rw [issued_dev, scope]; rfl
  rw [remoteAtomic, bind_of (accessGate_apply clear), bind_of (trapIf_of (misaligned_eq.2 aligned) ..), bind_of (get_apply _), bind_of (trapIf_of inside ..), bind_of (capCheck_apply held),
    bind_of (xlate_maps maps), bind_of (get_apply _), bind_of (trapIf_of there ..)]
  exact newCmd_issued room _

theorem exec_ratom (free : Free s) (window : InWindow (val x.d s) 8 s) (hc : bits x.mod.toNat 0 4 = 7 → IsReg x.c s) :
    exec (.ratom x) s = .next (after x.h none (startCmd s.m.cur 4 {
      op := 0xD5
      args := [pa, val x.d s, Ty.size (remoteTy x.mod.toNat), val x.b s, if bits x.mod.toNat 0 4 = 7 then val x.c s else 0, x.mod.toNat]
      spans := [(val x.d s, 8)]
      wvas := [(val x.a s, Ty.size (remoteTy x.mod.toNat))] } none) s) := by
  have third : (if (bits x.mod.toNat 0 4 == 7) = true then rdG x.c else pure 0 : M Nat) (issued s) =
      .ok (if bits x.mod.toNat 0 4 = 7 then val x.c s else 0, issued s) := by
    by_cases swaps : bits x.mod.toNat 0 4 = 7
    · rw [if_pos swaps, if_pos (beq_iff_eq.2 swaps), rdG_val (hc swaps)]
    · rw [if_neg swaps, if_neg (by simpa using swaps)]
      rfl
  refine run_issue_after r ha hb ⟨rfl, nofun, fun _ => free, ?_⟩ ?_
  · intro p hp
    by_cases swaps : bits x.mod.toNat 0 4 = 7
    · simp [swaps] at hp
      rcases hp with rfl | rfl
      · exact hb
      · exact hc swaps
    · simp [swaps] at hp
      exact hp ▸ hb
  · rw [bind_of (rdGp_issued ..), bind_of (rdGp_issued ..), bind_of (rdG_val hb), ite_join, bind_of third]
    exact bind_of (remoteAtomic_issued clear room aligned held maps scope fun _ => window)

theorem exec_rred (free : bits x.mod.toNat 0 4 = 8 → Free s) :
    exec (.rred x) s = .next (after x.h none (startCmd s.m.cur 4 {
      op := 0xD6
      args := [pa, 0, Ty.size (remoteTy x.mod.toNat), val x.b s, 0, x.mod.toNat]
      wvas := [(val x.a s, Ty.size (remoteTy x.mod.toNat))] } none) s) := by
  have timed : ((bits x.mod.toNat 0 4 == 8) || false) = true → Free s := fun h => free (by simpa using h)
  refine run_issue_after r ha hb ⟨rfl, nofun, timed, by simp [hb]⟩ ?_
  rw [bind_of (rdGp_issued ..), bind_of (rdG_val hb)]
  exact bind_of (remoteAtomic_issued (d := 0) clear room aligned held maps scope nofun)

end

/-! ## Collectives (R313) -/

omit r ha hb room in
/-- The pages of a collective's input and output translate, in order. -/
theorem collPages_issued {sp dp : List Nat} {tr tw : List (Nat × Nat)} (input : tr.map (·.1) = sp) (output : tw.map (·.1) = dp)
    (reads : ∀ p ∈ tr, Maps p.1 .read p.2 s) (writes : ∀ p ∈ tw, Maps p.1 .write p.2 s)
    (kinds : ∀ p ∈ tr ++ tw, paKind s.m.dev p.2 = .hbm ∨ paKind s.m.dev p.2 = .pooled) :
    xlateScoped collScope (sp.map (fun v => (v, Acc.read, none)) ++ dp.map (fun v => (v, Acc.write, none))) (issued s) =
      .ok ((tr ++ tw).map (·.2), issued s) := by
  subst input output
  have found := xlateScoped_maps (s := s) collScope (tr.map (fun p => (p.1, Acc.read, p.2)) ++ tw.map (fun p => (p.1, Acc.write, p.2)))
    (List.forall_mem_append.2 ⟨List.forall_mem_map.2 reads, List.forall_mem_map.2 writes⟩)
    (by
      have allowed : ∀ p ∈ tr ++ tw, collScope (paKind s.m.dev p.2) = none := fun p hp => by
        rcases kinds p hp with kind | kind <;> rw [kind] <;> rfl
      obtain ⟨ins, outs⟩ := List.forall_mem_append.1 allowed
      exact List.forall_mem_append.2 ⟨List.forall_mem_map.2 ins, List.forall_mem_map.2 outs⟩)
  rw [List.map_append, List.map_map, List.map_map, List.map_append, List.map_map, List.map_map] at found
  rw [List.map_map, List.map_map, List.map_append]
  exact found

include clear in
theorem exec_coll {q table : List Nat} {tr tw : List (Nat × Nat)} {i o : Nat} (aligned : val x.a s % 64 = 0)
    (own : ownShare (issued s) s.m.cur (val x.a s) 64 = true) (sound : Sound (val x.a s) 64 s)
    (record : quadsOf (s.m.spad.rdN (spPlace s.m.curCore (val x.a s)) 64) 8 = q) (formed : collBad 64 q [] = false)
    (window : InWindow (collRec q).rtab (collRec q).nrank s) (whole : Sound (collRec q).rtab (collRec q).nrank s)
    (ranks : s.m.spad.rdN (spPlace s.m.curCore (collRec q).rtab) (collRec q).nrank = table) (good : collBad s.m.dev.sdev q table = false)
    (size : collSize (collRec q).fmt * (collRec q).cnt = i) (sizeOut : collSize (collRec q).fmt * (collRec q).outs = o)
    (inRange : beyond (collRec q).sbuf i = none) (outRange : beyond (collRec q).dbuf o = none) (held : Held (collRec q).dbuf o s)
    (input : tr.map (·.1) = pagesOf (collRec q).sbuf i) (output : tw.map (·.1) = pagesOf (collRec q).dbuf o)
    (reads : ∀ p ∈ tr, Maps p.1 .read p.2 s) (writes : ∀ p ∈ tw, Maps p.1 .write p.2 s)
    (kinds : ∀ p ∈ tr ++ tw, paKind s.m.dev p.2 = .hbm ∨ paKind s.m.dev p.2 = .pooled) :
    exec (.coll x) s = .next (after x.h none (startCmd s.m.cur 4 {
      op := 0xD2
      args := [val x.a s] ++ q ++ [tr.length] ++ (tr ++ tw).map (·.2)
      spans := [(val x.a s, 64), ((collRec q).rtab, (collRec q).nrank)]
      wvas := [((collRec q).dbuf, o)] } none) s) := by
  have stands : (!ownShare (issued s) (issued s).cur (val x.a s) 64) = false := by rw [issued_cur, own]; rfl
  have ranges : ((beyond (collRec q).sbuf i).isSome || (beyond (collRec q).dbuf o).isSome) = false := by rw [inRange, outRange]; rfl
  have pages : (pagesOf (collRec q).sbuf i).length = tr.length := by rw [← input, List.length_map]
  refine run_issue_after r ha hb (allowed_of_regs (by simp)) ?_
  rw [bind_of (rdGp_issued ..), bind_of (accessGate_apply clear), bind_of (trapIf_of (misaligned_eq.2 aligned) ..), bind_of (get_apply _),
    bind_of (trapIf_of stands ..), bind_of (spRead_issued sound), record, bind_of (trapIf_of formed ..), bind_of (get_apply _),
    bind_of (trapIf_of window ..), bind_of (spRead_issued whole), ranks, issued_dev, bind_of (trapIf_of good ..), size, sizeOut,
    bind_of (trapIf_of ranges ..), bind_of (capCheck_apply held), bind_of (collPages_issued input output reads writes kinds), pages]
  exact bind_of (newCmd_issued room _)

end

theorem engineCommandsStart : EngineCommandsStart := by
  intro x s r ha hb clear d a b c e k starts
  refine ⟨fun issuer room few => ?_, fun aligned own sound room => ?_, ?_,
    fun q record some_ few inVec inOut room => exec_smv r ha hb clear record some_ few inVec inOut room,
    fun own sound => ⟨fun good => exec_smvcfg r ha hb clear own sound rfl good, fun bad => exec_smvcfg_bad r ha hb clear own sound rfl bad⟩⟩
  · have set_ : ∀ op dest size most, (if op = 0xDA then 0 else d) = dest → setEntry op = size → setMost op (bits c 0 32) (bits c 32 32) = most →
        a % size = 0 → b % size = 0 → dest % size = 0 → InWindow a (size * bits c 0 32) s → InWindow b (size * bits c 32 32) s →
        InWindow dest (size * most) s → InWindow e 8 s → run (setOp x op) s = .next (after x.h none (startCmd k 3 {
          op := op
          args := [dest, a, b, bits c 0 32, bits c 32 32, e, x.mod.toNat]
          spans := [(a, size * bits c 0 32), (b, size * bits c 32 32), (dest, size * most), (e, 8)] } none) s) :=
      fun _ _ _ _ h1 h2 h3 a1 a2 a3 w1 w2 w3 w4 => run_setOp r ha hb clear issuer room few h1 h2 h3 ⟨a1, a2, a3⟩ ⟨w1, w2, w3, w4⟩
    exact List.forall_mem_cons.2 ⟨set_ 0xC5 _ _ _ rfl rfl rfl, List.forall_mem_cons.2 ⟨set_ 0xC6 _ _ _ rfl rfl rfl,
      List.forall_mem_cons.2 ⟨set_ 0xC7 _ _ _ rfl rfl rfl, List.forall_mem_cons.2 ⟨set_ 0xDA _ _ _ rfl rfl rfl,
      List.forall_mem_cons.2 ⟨set_ 0xDB _ _ _ rfl rfl rfl, List.forall_mem_nil _⟩⟩⟩⟩⟩
  · have copy_ : ∀ op, copyBad op _ = false → copyFails (issued s) k op _ = none → capRanges (issued s) _ = none → run (copyOp x op) s = _ :=
      fun op good fits held => run_copyOp r ha hb clear aligned own sound room rfl good fits held
    exact List.forall_mem_cons.2 ⟨copy_ 0xCA, List.forall_mem_cons.2 ⟨copy_ 0xCB, List.forall_mem_cons.2 ⟨copy_ 0xCC, List.forall_mem_nil _⟩⟩⟩
  · intro n nb l idle room few
    refine List.forall_mem_cons.2 ⟨?_, List.forall_mem_cons.2 ⟨?_, List.forall_mem_cons.2 ⟨?_, List.forall_mem_nil _⟩⟩⟩
    · intro rb ib side lists args rows list short inLists inSide held sound
      exact run_gpOp (op := 0xCD) r ha hb clear rfl rfl rfl rfl (if_congr (or_iff_right (by decide)) rfl rfl) rfl rfl rfl rfl room few short inLists inSide held sound
    · intro rb ib side lists args rows list short inLists inSide held sound
      exact run_gpOp (op := 0xCE) r ha hb clear rfl rfl rfl rfl (if_congr (or_iff_right (by decide)) rfl rfl) rfl rfl rfl rfl room few short inLists inSide held sound
    · intro rb ib side lists args rows list short inLists inSide held sound
      exact run_gpOp (op := 0xCF) r ha hb clear rfl rfl rfl rfl rfl rfl rfl rfl rfl room few short inLists inSide held sound

theorem remoteCommandsStart : RemoteCommandsStart := by
  intro x s r ha hb clear room d a b starts
  refine ⟨fun pa some_ few scope => ⟨fun page window held maps => ?_, fun page window maps => ?_⟩, ?_, ?_⟩
  · exact exec_rput r ha hb room (remoteAt_issued clear some_ few page window scope (fun _ => held) maps)
  · exact exec_rget r ha hb room (remoteAt_issued clear some_ few page window scope nofun maps)
  · intro n op pa aligned held maps scope
    exact ⟨fun free window hc => exec_ratom r ha hb clear room aligned held maps scope free window hc,
      fun free => exec_rred r ha hb clear room aligned held maps scope free⟩
  · intro q record table i o tr tw aligned own sound formed window whole good inRange outRange held input output reads writes kinds
    exact exec_coll r ha hb clear room aligned own sound rfl formed window whole rfl good rfl rfl inRange outRange held input output reads writes kinds

/-- Settles O47. -/
theorem commandsStart : Obligations.CommandsStart := ⟨engineCommandsStart, remoteCommandsStart⟩

end Sys2Proof.Claim
end

section
/-! PROOFS. Comets form, take back members and dissolve (R82 to R85). -/
namespace Sys2Proof.Claim
open Machine

/-! ## What retirement leaves of a comet -/

/-- A slot that no step of a loop over slots changes while it is as `P` says. -/
theorem foldl_slot {f : Mach → Nat → Mach} {k : Nat} {P : Slot → Prop} (step : ∀ m j, P (m.slot k) → (f m j).slot k = m.slot k) :
    ∀ (l : List Nat) (m : Mach), P (m.slot k) → (l.foldl f m).slot k = m.slot k
  | [], _, _ => rfl
  | j :: l, m, p => (foldl_slot step l (f m j) (by rw [step m j p]; exact p)).trans (step m j p)

/-- The slot follows no leader. -/
def NoFollower (y : Slot) : Prop := ∀ l q, y.comet ≠ some (.follower l q)

/-- A word forwarded to followers changes no other slot. -/
theorem forward_slot {k i : Nat} (f : Fwd) {m : Mach} (no : NoFollower (m.slot k)) : (forward i f m).slot k = m.slot k := by
  unfold forward
  split
  · refine foldl_slot (P := NoFollower) (fun m j no => ?_) _ m no
    split
    next l q follows =>
      split
      · exact Mach.slot_updSlot_of_ne _ _ fun same => no l q (by rw [same]; exact follows)
      · rfl
    · rfl
  · rfl

/-- Retirement leaves what the slot leads or is detached from. -/
theorem comet_retire {h : Hdr} {tgt : Option Nat} {m : Mach} (no : NoFollower m.sl) : ((retire h tgt m).slot m.cur).comet = m.sl.comet := by
  unfold retire
  extract_lets s0 s1 s m0 d m1
  have same : s1.comet = m.sl.comet := Slot.counted_comet ..
  have moved : s = s1.advance tgt := by
    unfold s
    split
    next l f q follows => exact absurd (same.symm.trans follows) (no l (f :: q))
    · rfl
  have own : m1.slot m.cur = s := Mach.slot_setSlot_self ..
  have kept : (m1.slot m.cur).comet = m.sl.comet := by rw [own, moved, Slot.advance_comet, same]
  split
  · exact kept
  · rw [forward_slot _ (fun l q => by rw [kept]; exact no l q), kept]

/-- A follower leads no comet when its word has retired. -/
theorem retire_follower {h : Hdr} {tgt : Option Nat} {m : Mach} {l : Nat} {q : List Fwd} (follows : m.sl.comet = some (.follower l q))
    (ms : List Nat) (lag : Nat) (b : Bool) : ((retire h tgt m).slot m.cur).comet ≠ some (.leader ms lag b) := by
  unfold retire
  extract_lets s0 s1 s m0 d m1
  have moved : ∀ ms lag b, s.comet ≠ some (.leader ms lag b) := fun ms lag b => by
    unfold s
    split
    · unfold Slot.followed
      dsimp only
      split <;> nofun
    · rw [Slot.advance_comet, show s1.comet = m.sl.comet from Slot.counted_comet .., follows]
      nofun
  have own : m1.slot m.cur = s := Mach.slot_setSlot_self ..
  split
  · rw [own]
    exact moved ms lag b
  · unfold forward
    split
    next ms' lag' b' leads_ => exact absurd ((congrArg Slot.comet own).symm.trans leads_) (moved ms' lag' b')
    next => rw [own]; exact moved ms lag b

/-! ## A word, and what follows it -/

section
variable {h : Hdr} {body : M (Option Nat)} {s : State} (r : Ready h s)
include r

theorem plain_after {tgt : Option Nat} {f : Mach → Mach} (done : body (issued s) = .ok (tgt, f (issued s))) :
    issue h 0 0 (fun _ => {}) body s.m = .ok ((), (after h tgt f s).m) := by
  rw [issue_ready r (isReg_zero s) (isReg_zero s) rfl (by simp) (by simp) (by simp), done]
  rfl

theorem plain_stops {e : Stop} (stops : body (issued s) = .error e) : issue h 0 0 (fun _ => {}) body s.m = .error e := by
  rw [issue_ready r (isReg_zero s) (isReg_zero s) rfl (by simp) (by simp) (by simp), stops]

theorem run_plain_then {tgt : Option Nat} {f g : Mach → Mach} (done : body (issued s) = .ok (tgt, f (issued s))) :
    run (issue h 0 0 (fun _ => {}) body >>= fun _ => change g) s = .next { s with m := g (after h tgt f s).m } := by
  rw [run, bind_of (plain_after r done)]
  rfl

theorem run_plain_stops {e : Stop} {g : Mach → Mach} (stops : body (issued s) = .error e) :
    run (issue h 0 0 (fun _ => {}) body >>= fun _ => change g) s = finish s (.error e) := by
  rw [run, stop_of (plain_stops r stops)]

end

theorem run_look {α : Type} (f : Mach → α) (k : α → M Unit) (s : State) : run (look f >>= k) s = run (k (f s.m)) s := rfl

/-- What the executing slot has set before its word retires, it has still when the word has retired. -/
theorem comet_after {h : Hdr} {tgt : Option Nat} {f : Slot → Slot} {s : State} (no : NoFollower (f (sl s))) :
    ((after h tgt (fun m => m.updSlot m.cur f) s).m.slot s.m.cur).comet = (f (sl s)).comet := by
  have set_ : ((issued s).updSlot (issued s).cur f).sl = f (sl s) := (sl_updSlot_cur ..).trans (congrArg f (issued_sl s))
  exact (comet_retire (m := (issued s).updSlot (issued s).cur f) (by rw [set_]; exact no)).trans (congrArg Slot.comet set_)

/-! ## comet.lead and comet.join (R82) -/

section
variable {x : YW} {s : State} (r : Ready x.h s)
include r

theorem exec_cometLead_trap (bad : bitAt (bits x.mod.toNat 2 8) (indexOf s.m.cur) = true ∨ s.m.sl.comet ≠ none) :
    exec (.cometLead x) s = .next { s with m := takeTrap s.m.cur 0x0B 0 s.m.sl.retAddr s.m } := by
  have refused : (bitAt (bits x.mod.toNat 2 8) (indexOf s.m.cur) || (sl s).comet.isSome) = true :=
    Bool.or_eq_true_iff.2 (bad.imp_right Option.isSome_iff_ne_none.2)
  change execCometLead x s = _
  unfold execCometLead
  simp only [run_look]
  refine (run_plain_stops r (e := .trap 0x0B 0) ?_).trans rfl
  rw [bind_of (mine_apply ..), id, issued_sl]
  exact stop_of (trapIf_of_true refused ..)

section
variable (free : bitAt (bits x.mod.toNat 2 8) (indexOf s.m.cur) = false) (none_ : s.m.sl.comet = none)
include free none_

theorem exec_cometLead {js : List Nat} (here : joiners s.m s.m.cur (bits x.mod.toNat 2 8) none = some js) :
    exec (.cometLead x) s = .next (.mk (leadComet s.m.cur (bits x.mod.toNat 10 3 + 2) js (after x.h none
      (fun m => m.updSlot m.cur (fun y => { y with comet := some (.leader [] (bits x.mod.toNat 10 3 + 2) false) })) s).m) s.boot) := by
  have allowed : (bitAt (bits x.mod.toNat 2 8) (indexOf s.m.cur) || (sl s).comet.isSome) = false := by
    rw [free, sl_comet, none_]; rfl
  have lead := comet_after (h := x.h) (tgt := none) (f := fun y => { y with comet := some (.leader [] (bits x.mod.toNat 10 3 + 2) false) }) (s := s) nofun
  change execCometLead x s = _
  unfold execCometLead
  simp only [run_look]
  refine (run_plain_then r (tgt := none)
    (f := fun m => m.updSlot m.cur (fun y => { y with comet := some (.leader [] (bits x.mod.toNat 10 3 + 2) false) })) ?_).trans ?_
  · rw [bind_of (mine_apply ..), id, issued_sl, bind_of (trapIf_of allowed ..), here]
    rfl
  · rw [lead, here]

theorem exec_cometLead_waits (missing : joiners s.m s.m.cur (bits x.mod.toNat 2 8) none = none) :
    exec (.cometLead x) s = .next { s with m := s.m.updSlot s.m.cur (fun y =>
      { y with wait := some (.lead (bits x.mod.toNat 2 8) (bits x.mod.toNat 10 3 + 2) x.h.sc.toNat), look := [], parked := false }) } := by
  have allowed : (bitAt (bits x.mod.toNat 2 8) (indexOf s.m.cur) || (sl s).comet.isSome) = false := by
    rw [free, sl_comet, none_]; rfl
  change execCometLead x s = _
  unfold execCometLead
  simp only [run_look]
  refine (run_plain_stops r (e := .block (.lead (bits x.mod.toNat 2 8) (bits x.mod.toNat 10 3 + 2) x.h.sc.toNat)) ?_).trans rfl
  rw [bind_of (mine_apply ..), id, issued_sl, bind_of (trapIf_of allowed ..), missing]
  rfl

end

theorem exec_cometJoin_trap (bad : bits x.mod.toNat 2 3 = indexOf s.m.cur ∨ s.m.sl.comet ≠ none) :
    exec (.cometJoin x) s = .next { s with m := takeTrap s.m.cur 0x0B 0 s.m.sl.retAddr s.m } := by
  have refused : (bits x.mod.toNat 2 3 == indexOf s.m.cur || (sl s).comet.isSome) = true :=
    Bool.or_eq_true_iff.2 (bad.imp beq_iff_eq.2 Option.isSome_iff_ne_none.2)
  change execCometJoin x s = _
  unfold execCometJoin
  simp only [run_look]
  refine (run_plain_stops r (e := .trap 0x0B 0) ?_).trans rfl
  rw [bind_of (mine_apply ..), id, issued_sl]
  exact stop_of (trapIf_of_true refused ..)

section
variable (other : bits x.mod.toNat 2 3 ≠ indexOf s.m.cur) (none_ : s.m.sl.comet = none)
include other none_

theorem exec_cometJoin {l lag sc : Nat} {js : List Nat} (waits : waitingLead s.m s.m.cur (bits x.mod.toNat 2 3) = some (l, lag, sc, js)) :
    exec (.cometJoin x) s = .next (.mk (joinComet s.m.cur l lag sc js (after x.h none
      (fun m => m.updSlot m.cur (fun y => { y with comet := some (.detached l) })) s).m) s.boot) := by
  have allowed : (bits x.mod.toNat 2 3 == indexOf s.m.cur || (sl s).comet.isSome) = false := by
    rw [beq_eq_false_iff_ne.2 other, sl_comet, none_]; rfl
  have joined := comet_after (h := x.h) (tgt := none) (f := fun y => { y with comet := some (.detached l) }) (s := s) nofun
  change execCometJoin x s = _
  unfold execCometJoin
  simp only [run_look]
  refine (run_plain_then r (tgt := none) (f := fun m => m.updSlot m.cur (fun y => { y with comet := some (.detached l) })) ?_).trans ?_
  · rw [bind_of (mine_apply ..), id, issued_sl, bind_of (trapIf_of allowed ..), waits]
    rfl
  · rw [joined, waits, none_]
    rfl

theorem exec_cometJoin_waits (missing : waitingLead s.m s.m.cur (bits x.mod.toNat 2 3) = none) :
    exec (.cometJoin x) s = .next { s with m := s.m.updSlot s.m.cur (fun y =>
      { y with wait := some (.follow (bits x.mod.toNat 2 3) x.h.sc.toNat), look := [], parked := false }) } := by
  have allowed : (bits x.mod.toNat 2 3 == indexOf s.m.cur || (sl s).comet.isSome) = false := by
    rw [beq_eq_false_iff_ne.2 other, sl_comet, none_]; rfl
  change execCometJoin x s = _
  unfold execCometJoin
  simp only [run_look]
  refine (run_plain_stops r (e := .block (.follow (bits x.mod.toNat 2 3) x.h.sc.toNat)) ?_).trans rfl
  rw [bind_of (mine_apply ..), id, issued_sl, bind_of (trapIf_of allowed ..), missing]
  rfl

end

/-! ## The end of a comet (R85) -/

theorem exec_cometEnd_leader {ms : List Nat} {lag : Nat} {b : Bool} (leads_ : s.m.sl.comet = some (.leader ms lag b)) :
    exec (.cometEnd x) s = .next (.mk (dissolve s.m.cur (after x.h none
      (fun m => m.updSlot m.cur (fun y => { y with comet := some (.leader ms lag true) })) s).m) s.boot) := by
  have still := comet_after (h := x.h) (tgt := none) (f := fun y => { y with comet := some (.leader ms lag true) }) (s := s) nofun
  change execCometEnd x s = _
  unfold execCometEnd
  simp only [run_look]
  refine (run_plain_then r (tgt := none) (f := fun m => m.updSlot m.cur (fun y => { y with comet := some (.leader ms lag true) })) ?_).trans ?_
  · rw [bind_of (mine_apply ..), id, issued_sl, sl_comet, leads_]
    rfl
  · rw [still]

omit r in
theorem leaveComet_comet (k : Nat) (m : Mach) : ((leaveComet k m).slot k).comet = none := by
  unfold leaveComet
  extract_lets lead m1
  have own : (m1.slot k).comet = none := congrArg Slot.comet (Mach.slot_updSlot_self ..)
  clear_value lead
  cases lead with
  | some l =>
    by_cases self : k = l
    · subst self
      refine (congrArg Slot.comet (Mach.slot_updSlot_self ..)).trans ?_
      rw [own]
      exact own
    · exact (congrArg Slot.comet (Mach.slot_updSlot_of_ne _ _ self)).trans own
  | none => exact own

omit r in
theorem leaveComet_cur (k : Nat) (m : Mach) : (leaveComet k m).cur = m.cur := by
  unfold leaveComet
  dsimp only
  split <;> rfl

omit r in
/-- A slot that has left its comet is in none when its word has retired. -/
theorem comet_leave {h : Hdr} {tgt : Option Nat} : ((after h tgt (leaveComet s.m.cur) s).m.slot s.m.cur).comet = none := by
  have cur : (leaveComet s.m.cur (issued s)).cur = s.m.cur := leaveComet_cur ..
  have left : (leaveComet s.m.cur (issued s)).sl.comet = none := by rw [Mach.sl, cur]; exact leaveComet_comet ..
  have kept := comet_retire (h := h) (tgt := tgt) (m := leaveComet s.m.cur (issued s)) (by intro l q; rw [left]; nofun)
  rw [cur] at kept
  exact kept.trans left

theorem exec_cometEnd_follower {l : Nat} {q : List Fwd} (follows : s.m.sl.comet = some (.follower l q)) :
    exec (.cometEnd x) s = .next (after x.h (q.head?.map (·.next)) (leaveComet s.m.cur) s) := by
  change execCometEnd x s = _
  unfold execCometEnd
  simp only [run_look]
  refine (run_plain_then r (tgt := q.head?.map (·.next)) (f := leaveComet s.m.cur) ?_).trans ?_
  · rw [bind_of (mine_apply ..), id, issued_sl, sl_comet, follows]
    rfl
  · rw [comet_leave]
    rfl

theorem exec_cometEnd_detached {l : Nat} (detached : s.m.sl.comet = some (.detached l)) :
    exec (.cometEnd x) s = .next (after x.h none (leaveComet s.m.cur) s) := by
  change execCometEnd x s = _
  unfold execCometEnd
  simp only [run_look]
  refine (run_plain_then r (tgt := none) (f := leaveComet s.m.cur) ?_).trans ?_
  · rw [bind_of (mine_apply ..), id, issued_sl, sl_comet, detached]
    rfl
  · rw [comet_leave]
    rfl

omit r in
/-- A word that changes no comet leaves the slot in what it was in. -/
theorem comet_after_id {h : Hdr} {tgt : Option Nat} (no : NoFollower s.m.sl) : ((after h tgt id s).m.slot s.m.cur).comet = s.m.sl.comet :=
  (comet_retire (m := issued s) (by rw [issued_sl]; exact no)).trans (by rw [issued_sl]; rfl)

theorem exec_cometEnd_none (none_ : s.m.sl.comet = none) : exec (.cometEnd x) s = .next (after x.h none id s) := by
  have still := comet_after_id (h := x.h) (tgt := none) (s := s) (by intro l q; rw [none_]; nofun)
  change execCometEnd x s = _
  unfold execCometEnd
  simp only [run_look]
  refine (run_plain_then r (tgt := none) (f := id) ?_).trans ?_
  · rw [bind_of (mine_apply ..), id, issued_sl, sl_comet, none_]
    rfl
  · rw [still, none_]
    rfl

end

/-! ## A comet forms later (R82) -/

theorem enabledIf_of {b : Bool} (h : b = true) (m : Mach) : enabledIf b m = .ok ((), m) := by rw [h]; rfl

theorem exec_cometForm {k mask lag sc : Nat} {js : List Nat} {s : State} (waits : (s.m.slot k).wait = some (.lead mask lag sc))
    (runs : (s.m.slot k).run = .running) (enabled : (s.m.slot k).enabled = true) (here : joiners s.m k mask none = some js) :
    exec (.cometForm k) s = .next { s with m := follow k (nextPc (s.m.slot k).pc) js (s.m.updSlot k (fun y =>
      { y.passComet sc (nextPc (s.m.slot k).pc) with comet := some (.leader js lag false) })) } := by
  change execCometForm k s = _
  have ready : ((s.m.slot k).run == .running && (s.m.slot k).enabled) = true := by rw [runs, enabled]; rfl
  rw [execCometForm, device, bind_of (get_apply _), waits]
  dsimp only
  rw [bind_of (enabledIf_of ready _), here, bind_of (need_some ..)]
  rfl

/-! ## DETACH (R84) -/

theorem updSlot_congr {m : Mach} {k : Nat} {f g : Slot → Slot} (h : f (m.slot k) = g (m.slot k)) : m.updSlot k f = m.updSlot k g :=
  congrArg (m.setSlot k) h

section
variable {x : BW} {s : State} (r : Ready x.h s)
include r

theorem exec_detach_leader {ms : List Nat} {lag : Nat} {b : Bool} (leads_ : s.m.sl.comet = some (.leader ms lag b)) :
    exec (.detach x) s = .next (after x.h none id s) := by
  refine run_issue_after r (isReg_zero s) (isReg_zero s) (allowed_of_regs (by simp)) ?_
  rw [bind_of (mine_apply ..), id, issued_sl, sl_comet, leads_]
  rfl

theorem exec_detach_follower {l : Nat} {q : List Fwd} (follows : s.m.sl.comet = some (.follower l q)) :
    exec (.detach x) s = .next (after x.h (some (ofInt 56 ((s.m.sl.pc : Int) + 4 * sx 32 x.off.toNat)))
      (fun m => m.updSlot m.cur (fun y => { y with comet := if leads m l m.cur then some (.detached l) else none, rep := none })) s) := by
  refine run_issue_after r (isReg_zero s) (isReg_zero s) (allowed_of_regs (by simp)) ?_
  rw [bind_of (mine_apply ..), id, issued_sl, sl_comet, follows]
  refine (bind_of (change_apply ..)).trans (congrArg (fun m => Except.ok (_, m)) (updSlot_congr ?_))
  have own : (issued s).slot (issued s).cur = sl s := issued_sl s
  rw [own, Slot.detach, sl_comet, follows]

theorem exec_detach_alone (alone : (∃ l, s.m.sl.comet = some (.detached l)) ∨ s.m.sl.comet = none) :
    exec (.detach x) s = .next (after x.h (some (ofInt 56 ((s.m.sl.pc : Int) + 4 * sx 32 x.off.toNat))) id s) := by
  refine run_issue_after r (isReg_zero s) (isReg_zero s) (allowed_of_regs (by simp)) ?_
  rw [bind_of (mine_apply ..), id, issued_sl, sl_comet]
  rcases alone with ⟨l, at_⟩ | at_ <;> rw [at_] <;> rfl

end

/-! ## REJOIN (R84) -/

section
variable {x : ZW} {s : State} {ms : List Nat} {lag : Nat} {b : Bool} (leads_ : s.m.sl.comet = some (.leader ms lag b))
include leads_

/-- The issue changes no other slot, and the leader is none of its detached members. -/
theorem allRejoin_issued : allRejoin (issued s) s.m.cur = allRejoin s.m s.m.cur := by
  have own : ((issued s).slot s.m.cur).comet = some (.leader ms lag b) := (congrArg Slot.comet (issued_sl s)).trans leads_
  have before : (s.m.slot s.m.cur).comet = some (.leader ms lag b) := leads_
  unfold allRejoin
  rw [own, before]
  refine List.all_congr rfl fun j => ?_
  by_cases self : j = s.m.cur
  · rw [self, own, before]
  · rw [show (issued s).slot j = s.m.slot j from Mach.slot_updSlot_of_ne _ _ self]

variable (r : Ready x.h s)
include r

theorem exec_rejoin_leader (all : allRejoin s.m s.m.cur = true) :
    exec (.rejoin x) s = .next (.mk (takeBack s.m.cur
      ((after x.h none (fun m => m.updSlot m.cur (fun y => { y with comet := some (.leader ms lag true) })) s).m.slot s.m.cur).pc
      (after x.h none (fun m => m.updSlot m.cur (fun y => { y with comet := some (.leader ms lag true) })) s).m) s.boot) := by
  have still := comet_after (h := x.h) (tgt := none) (f := fun y => { y with comet := some (.leader ms lag true) }) (s := s) nofun
  have met : (!allRejoin (issued s) (issued s).cur) = false := by rw [issued_cur, allRejoin_issued leads_, all]; rfl
  change execRejoin x s = _
  unfold execRejoin
  simp only [run_look]
  refine (run_plain_then r (tgt := none) (f := fun m => m.updSlot m.cur (fun y => { y with comet := some (.leader ms lag true) })) ?_).trans ?_
  · rw [bind_of (get_apply _), issued_sl, sl_comet, leads_]
    dsimp only
    rw [bind_of (blockIf_of met ..)]
    rfl
  · rw [still]

theorem exec_rejoin_leader_waits (some_ : allRejoin s.m s.m.cur = false) :
    exec (.rejoin x) s = .next { s with m := s.m.updSlot s.m.cur (fun y =>
      { y with wait := some (.rejoin x.h.sc.toNat), look := [], parked := false }) } := by
  have missing : (!allRejoin (issued s) (issued s).cur) = true := by rw [issued_cur, allRejoin_issued leads_, some_]; rfl
  change execRejoin x s = _
  unfold execRejoin
  simp only [run_look]
  refine (run_plain_stops r (e := .block (.rejoin x.h.sc.toNat)) ?_).trans rfl
  rw [bind_of (get_apply _), issued_sl, sl_comet, leads_]
  dsimp only
  rw [missing]
  rfl

end

section
variable {x : ZW} {s : State} (r : Ready x.h s)
include r

theorem exec_rejoin_detached {l : Nat} (detached : s.m.sl.comet = some (.detached l)) :
    exec (.rejoin x) s = .next { s with m := s.m.updSlot s.m.cur (fun y =>
      { y with wait := some (.rejoin x.h.sc.toNat), look := [], parked := false }) } := by
  change execRejoin x s = _
  unfold execRejoin
  simp only [run_look]
  refine (run_plain_stops r (e := .block (.rejoin x.h.sc.toNat)) ?_).trans rfl
  rw [bind_of (get_apply _), issued_sl, sl_comet, detached]
  rfl

theorem exec_rejoin_none (none_ : s.m.sl.comet = none) : exec (.rejoin x) s = .next (after x.h none id s) := by
  have still := comet_after_id (h := x.h) (tgt := none) (s := s) (by intro l q; rw [none_]; nofun)
  change execRejoin x s = _
  unfold execRejoin
  simp only [run_look]
  refine (run_plain_then r (tgt := none) (f := id) ?_).trans ?_
  · rw [bind_of (get_apply _), issued_sl, sl_comet, none_]
    rfl
  · rw [still, none_]
    rfl

theorem exec_rejoin_follower {l : Nat} {q : List Fwd} (follows : s.m.sl.comet = some (.follower l q)) :
    exec (.rejoin x) s = .next (after x.h none id s) := by
  have still : ∀ ms lag, ((after x.h none id s).m.slot s.m.cur).comet ≠ some (.leader ms lag true) := fun ms lag =>
    retire_follower (m := issued s) (by rw [issued_sl]; exact follows) ms lag true
  change execRejoin x s = _
  unfold execRejoin
  simp only [run_look]
  refine (run_plain_then r (tgt := none) (f := id) ?_).trans ?_
  · rw [bind_of (get_apply _), issued_sl, sl_comet, follows]
    rfl
  · split
    next ms lag leads_ => exact absurd leads_ (still ms lag)
    next => rfl

end

/-! ## Members are taken back (R84) -/

/-- One member of a leader's list, taken back if it waits. -/
def takeOne (k pc : Nat) (m : Mach) (j : Nat) : Mach :=
  match (m.slot j).comet, (m.slot j).rejoining with
  | some (.detached l), some sc => if l == k then m.updSlot j (fun y => { y.passComet sc pc with comet := some (.follower l []) }) else m
  | _, _ => m

theorem takeBack_leader {k pc lag : Nat} {ms : List Nat} {b : Bool} {m : Mach} (leads_ : (m.slot k).comet = some (.leader ms lag b)) :
    takeBack k pc m = (ms.foldl (takeOne k pc) m).updSlot k (fun y => { y with comet := some (.leader ms lag false) }) := by
  unfold takeBack
  rw [leads_]
  rfl

theorem takeOne_other {k pc i j : Nat} {m : Mach} (other : j ≠ i) : (takeOne k pc m i).slot j = m.slot j := by
  unfold takeOne
  split
  · split
    · exact Mach.slot_updSlot_of_ne _ _ other
    · rfl
  · rfl

theorem takeOne_follower {k pc i j l : Nat} {q : List Fwd} {m : Mach} (follows : (m.slot j).comet = some (.follower l q)) :
    (takeOne k pc m i).slot j = m.slot j := by
  by_cases own : j = i
  · subst own
    unfold takeOne
    rw [follows]
  · exact takeOne_other own

theorem takeOne_member {k pc j sc : Nat} {m : Mach} (detached : (m.slot j).comet = some (.detached k)) (waits : (m.slot j).rejoining = some sc) :
    (takeOne k pc m j).slot j = { (m.slot j).passComet sc pc with comet := some (.follower k []) } := by
  unfold takeOne
  rw [detached, waits]
  dsimp only
  rw [if_pos (beq_self_eq_true k)]
  exact Mach.slot_updSlot_self ..

/-- A member in the list, which is taken back once. -/
theorem takeAll_member {k pc j sc : Nat} {ms : List Nat} {m : Mach} (listed : j ∈ ms) (detached : (m.slot j).comet = some (.detached k))
    (waits : (m.slot j).rejoining = some sc) :
    (ms.foldl (takeOne k pc) m).slot j = { (m.slot j).passComet sc pc with comet := some (.follower k []) } := by
  induction ms generalizing m with
  | nil => exact absurd listed List.not_mem_nil
  | cons i ms ih =>
    rw [List.foldl_cons]
    by_cases own : j = i
    · subst own
      have taken := takeOne_member (pc := pc) detached waits
      have follows : ((takeOne k pc m j).slot j).comet = some (.follower k []) := by rw [taken]
      exact (foldl_slot (P := fun y => y.comet = some (.follower k [])) (fun m i => takeOne_follower) ms _ follows).trans taken
    · have kept := takeOne_other (k := k) (pc := pc) (m := m) own
      rw [ih ((List.mem_cons.1 listed).resolve_left own) (by rw [kept]; exact detached) (by rw [kept]; exact waits), kept]

theorem takeBack_member {k pc j sc lag : Nat} {ms : List Nat} {b : Bool} {m : Mach} (leads_ : (m.slot k).comet = some (.leader ms lag b)) (listed : j ∈ ms)
    (detached : (m.slot j).comet = some (.detached k)) (waits : (m.slot j).wait = some (.rejoin sc)) (enabled : (m.slot j).enabled = true) :
    (takeBack k pc m).slot j = { (m.slot j).passComet sc pc with comet := some (.follower k []) } := by
  have other : j ≠ k := fun same => by rw [same, leads_] at detached; nomatch detached
  have rejoins : (m.slot j).rejoining = some sc := by
    unfold Slot.rejoining
    rw [waits]
    exact if_pos enabled
  rw [takeBack_leader leads_, Mach.slot_updSlot_of_ne _ _ other]
  exact takeAll_member listed detached rejoins

/-- Settles O15. -/
theorem cometsFormAndDissolve : Obligations.CometsFormAndDissolve := by
  refine ⟨fun x s r => ⟨fun bad => exec_cometLead_trap r bad, fun free none_ =>
      ⟨fun js here => exec_cometLead r free none_ here, fun missing => exec_cometLead_waits r free none_ missing⟩⟩,
    fun x s r => ⟨fun bad => exec_cometJoin_trap r bad, fun other none_ =>
      ⟨fun l lag sc js waits => exec_cometJoin r other none_ waits, fun missing => exec_cometJoin_waits r other none_ missing⟩⟩,
    fun k mask lag sc js s waits runs enabled here => exec_cometForm waits runs enabled here,
    fun x s r => ⟨fun ms lag b leads_ => exec_cometEnd_leader r leads_, fun l q follows => exec_cometEnd_follower r follows,
      fun l detached => exec_cometEnd_detached r detached, fun none_ => exec_cometEnd_none r none_⟩,
    fun x s r => ⟨fun ms lag b leads_ => exec_detach_leader r leads_, fun l q follows => exec_detach_follower r follows,
      fun l detached => exec_detach_alone r (.inl ⟨l, detached⟩), fun none_ => exec_detach_alone r (.inr none_)⟩,
    fun x s r => ⟨fun none_ => exec_rejoin_none r none_, fun l q follows => exec_rejoin_follower r follows,
      fun ms lag b leads_ => ⟨fun all => exec_rejoin_leader leads_ r all, fun some_ => exec_rejoin_leader_waits leads_ r some_⟩,
      fun l detached => exec_rejoin_detached r detached⟩,
    fun k pc j sc lag ms b m leads_ listed detached waits enabled => takeBack_member leads_ listed detached waits enabled⟩

end Sys2Proof.Claim
end

section
/-! PROOFS. Handles and FORK (R15, R255, R275, R276, R299). -/
namespace Sys2Proof.Claim
open Machine

/-! ## Issue of a word whose operand A is a handle -/

/-- What a last-read mark on the handle in operand A makes of the end of the body (R15). -/
def markHandle (h : Hdr) (a : BitVec 8) (v : Nat) (r : Except Stop (Option Nat × Mach)) : Except Stop (Unit × Mach) :=
  match r with
  | .ok p => (actMark h.la true a false v p.2).map (fun q => ((), retire h p.1 q.2))
  | .error e => .error e

/-- A word that nothing holds ends as its body and the mark on its handle do. -/
theorem run_issue_handle {h : Hdr} {a b : BitVec 8} {use : Slot → Use} {body : M (Option Nat)} {s : State} (r : Ready h s) (ha : IsReg a s)
    (hb : IsReg b s) (handle : (use (sl s)).handleA = true) (priv : (use (sl s)).priv = false)
    (det : ((use (sl s)).nondet || (use (sl s)).barred s.m.cx) = false) (regs : ∀ p ∈ (use (sl s)).pops, IsReg p.1 s) :
    run (issue h a b use body) s = finish s (markHandle h a (val a s) (body (issued s))) := by
  have free : useStop (issued s) (use (sl s)) = none := by
    apply useStop_none
    · rw [issued_sl]; exact r.landed
    · rw [issued_sl]; exact r.due
    · rw [priv]; nofun
    · rw [issued_cx, det]; nofun
    · intro p hp; rw [issued_sl]; exact regs p hp
  have regA : (sl s).stream a = none := ha
  have regB : (sl s).stream b = none := hb
  have at0 : s.m.updSlot s.m.cur Slot.atIssue = issued s := rfl
  unfold run
  simp only [issue, bind_apply, changeMine_apply, at0, mine_apply, issued_sl, id, r.passes, stopIf_none, r.guard, Bool.false_eq_true,
    if_false, get_apply, free, handle, if_true, regA, regB]
  congr 1
  cases body (issued s) with
  | error e => rfl
  | ok p =>
    show _ = (actMark h.la true a false (val a s) p.2).map _
    have value : (sl s).g (gNo a) = val a s := rfl
    simp only [value, Option.isSome_none]
    cases actMark h.la true a false (val a s) p.2 with
    | error e => rfl
    | ok q => simp [Except.map]

/-! ## Buffers that commands use (R299) -/

/-- No command of the slot has a range in the bytes. -/
def Unused (s : State) (lo len : Nat) : Prop :=
  ∀ c ∈ s.m.cmds, c.slot = s.m.cur → ∀ r ∈ c.spans, ¬ (r.1 < lo + len ∧ lo < r.1 + r.2)

theorem bufBusy_iff {s : State} {lo len : Nat} : bufBusy s.m s.m.cur lo len = true ↔ ¬ Unused s lo len := by
  simp only [bufBusy, Unused, List.any_eq_true, Bool.and_eq_true, beq_iff_eq, decide_eq_true_eq, not_forall, not_not, exists_prop]

theorem bufBusy_unused {s : State} {lo len : Nat} (unused : Unused s lo len) : bufBusy s.m s.m.cur lo len = false :=
  Bool.eq_false_iff.2 fun busy => bufBusy_iff.1 busy unused

/-- A buffer ends and its task no longer owns it. -/
def dropBuf (k off : Nat) (m : Mach) : Mach := (freeBuf m.curCore off m).updSlot k (fun y => { y with owned := y.owned.erase off })

theorem freeOwn_free {b : Buf} {m : Mach} (free : bufBusy m m.cur b.off (1024 * b.size) = false) : freeOwn b m = .ok ((), dropBuf m.cur b.off m) := by
  unfold freeOwn
  rw [bind_of (get_apply _), bind_of (blockIf_of free ..), bind_of (change_apply ..)]
  rfl

theorem freeOwn_busy {b : Buf} {m : Mach} (busy : bufBusy m m.cur b.off (1024 * b.size) = true) :
    freeOwn b m = .error (.block (.buffer b.off (1024 * b.size))) := by
  unfold freeOwn
  rw [bind_of (get_apply _), busy]
  exact stop_of (blockIf_true ..)

/-! ## What a handle names -/

/-- The handle names no buffer any more when the buffer that it named has ended. -/
theorem bufOf_freed {m : Mach} {h : Nat} {b : Buf} (k : Nat) (named : bufOf m m.curCore h = some b) :
    bufOf (dropBuf k b.off m) m.curCore h = none := by
  unfold bufOf at named ⊢
  split at named
  next => cases named
  next own =>
    have off := List.find?_some named
    simp only [Bool.and_eq_true, beq_iff_eq] at off
    have cores : (dropBuf k b.off m).core m.curCore = (freeBuf m.curCore b.off m).core m.curCore := rfl
    rw [if_neg own, cores, freeBuf, Mach.updCore, Mach.core_setCore_self, List.find?_eq_none]
    intro y hy
    have apart : (y.off != b.off) = true := (List.mem_filter.1 hy).2
    have ne : (y.off == h % 2 ^ 21) = false := by rw [← off.1]; exact Bool.eq_false_iff.2 (by simpa using apart)
    rw [ne]
    nofun

/-- The buffer given away. -/
def given (off : Nat) (m : Mach) : Mach :=
  m.updCore m.curCore (fun c => { c with bufs := c.bufs.map (fun y => if y.off = off then { y with given := true } else y) })

/-- The handle names the same bytes when the buffer has been given away. -/
theorem bufOf_given {m : Mach} {h : Nat} {b : Buf} (off : Nat) (named : bufOf m m.curCore h = some b) :
    ∃ y, bufOf (given off m) m.curCore h = some y ∧ y.off = b.off ∧ y.size = b.size := by
  unfold bufOf at named ⊢
  split at named
  next => cases named
  next own =>
    have kept : ((fun x : Buf => x.off == h % 2 ^ 21 && x.gen == bits h 32 32) ∘ fun y : Buf => if y.off = off then { y with given := true } else y) =
        fun x => x.off == h % 2 ^ 21 && x.gen == bits h 32 32 := by
      funext y
      simp only [Function.comp_apply]
      split <;> rfl
    rw [if_neg own, given, Mach.updCore, Mach.core_setCore_self, List.find?_map, kept, named]
    refine ⟨_, rfl, ?_⟩
    dsimp only
    split <;> exact ⟨rfl, rfl⟩

/-! ## HGIVE and HFREE (R299) -/

section
variable {x : SW} {s : State} (r : Ready x.h s) (ha : IsReg x.a s) (hb : IsReg x.b s)

theorem ownBuf_named {h : Nat} {b : Buf} (named : bufOf s.m s.m.curCore h = some b) (own : b.off ∈ s.m.sl.owned) :
    ownBuf h (issued s) = .ok (b, issued s) := by
  have found : bufOf (issued s) (issued s).curCore h = some b := named
  have mine_ : (!(issued s).sl.owned.contains b.off) = false := by
    rw [issued_sl]
    exact congrArg not (List.contains_iff_mem.2 own)
  unfold ownBuf
  rw [bind_of (get_apply _), found]
  exact bind_of (trapIf_of mine_ ..)

theorem ownBuf_none {h : Nat} (named : bufOf s.m s.m.curCore h = none) : ownBuf h (issued s) = .error (.trap 0x3F 0) := by
  have found : bufOf (issued s) (issued s).curCore h = none := named
  unfold ownBuf
  rw [bind_of (get_apply _), found]
  rfl

include r ha hb

theorem run_handle {body : Buf → M (Option Nat)} :
    run (issue x.h x.a x.b (fun s => { rd := gRng s x.a, pops := [(x.a, .read)], handleA := true })
      (do let a ← rdG x.a; let b ← ownBuf a; body b)) s = finish s (markHandle x.h x.a (val x.a s) ((ownBuf (val x.a s) >>= body) (issued s))) := by
  refine (run_issue_handle r ha hb rfl rfl rfl (by simp [ha])).trans ?_
  rw [bind_of (rdG_val ha)]

variable {b : Buf} (named : bufOf s.m s.m.curCore (val x.a s) = some b) (own : b.off ∈ s.m.sl.owned)
include named own

theorem run_handle_named {body : Buf → M (Option Nat)} :
    run (issue x.h x.a x.b (fun s => { rd := gRng s x.a, pops := [(x.a, .read)], handleA := true })
      (do let a ← rdG x.a; let b ← ownBuf a; body b)) s = finish s (markHandle x.h x.a (val x.a s) (body b (issued s))) := by
  rw [run_handle r ha hb, bind_of (ownBuf_named named own)]

theorem exec_hgive (unused : x.h.la = false ∨ Unused s b.off (1024 * b.size)) :
    exec (.hgive x) s = .next (after x.h none (fun m =>
      if x.h.la then (bufOf (given b.off m) (given b.off m).curCore (val x.a s)).elim (given b.off m) (fun y => dropBuf s.m.cur y.off (given b.off m))
      else given b.off m) s) := by
  refine (run_handle_named r ha hb named own).trans ?_
  rw [bind_of (change_apply ..)]
  show finish s ((actMark x.h.la true x.a false (val x.a s) (given b.off (issued s))).map _) = _
  unfold after
  cases la : x.h.la with
  | false => rfl
  | true =>
    obtain ⟨y, found, off, size⟩ := bufOf_given b.off (m := issued s) named
    have here : bufOf (given b.off (issued s)) (given b.off (issued s)).curCore (val x.a s) = some y := found
    have free : bufBusy (given b.off (issued s)) (given b.off (issued s)).cur y.off (1024 * y.size) = false := by
      rw [off, size]
      exact bufBusy_unused (unused.resolve_left (by rw [la]; nofun))
    have marked : actMark true true x.a false (val x.a s) (given b.off (issued s)) = .ok ((), dropBuf s.m.cur y.off (given b.off (issued s))) := by
      show ((get : M Mach) >>= _) _ = _
      rw [bind_of (get_apply _), here]
      exact freeOwn_free free
    rw [marked]
    simp only [if_true, here]
    rfl

theorem exec_hgive_waits (used : ¬ Unused s b.off (1024 * b.size)) (la : x.h.la = true) :
    exec (.hgive x) s = finish s (.error (.block (.buffer b.off (1024 * b.size)))) := by
  refine (run_handle_named r ha hb named own).trans ?_
  rw [bind_of (change_apply ..)]
  show finish s ((actMark x.h.la true x.a false (val x.a s) (given b.off (issued s))).map _) = _
  obtain ⟨y, found, off, size⟩ := bufOf_given b.off (m := issued s) named
  have here : bufOf (given b.off (issued s)) (given b.off (issued s)).curCore (val x.a s) = some y := found
  have busy : bufBusy (given b.off (issued s)) (given b.off (issued s)).cur y.off (1024 * y.size) = true := by
    rw [off, size]
    exact bufBusy_iff.2 used
  have marked : actMark true true x.a false (val x.a s) (given b.off (issued s)) = .error (.block (.buffer b.off (1024 * b.size))) := by
    show ((get : M Mach) >>= _) _ = _
    rw [bind_of (get_apply _), here, ← off, ← size]
    exact freeOwn_busy busy
  rw [la, marked]
  rfl

theorem exec_hfree (unused : Unused s b.off (1024 * b.size)) : exec (.hfree x) s = .next (after x.h none (dropBuf s.m.cur b.off) s) := by
  refine (run_handle_named r ha hb named own).trans ?_
  rw [bind_of (freeOwn_free (m := issued s) (bufBusy_unused unused))]
  show finish s ((actMark x.h.la true x.a false (val x.a s) (dropBuf s.m.cur b.off (issued s))).map _) = _
  have marked : actMark x.h.la true x.a false (val x.a s) (dropBuf s.m.cur b.off (issued s)) = .ok ((), dropBuf s.m.cur b.off (issued s)) := by
    have gone : bufOf (dropBuf s.m.cur b.off (issued s)) (dropBuf s.m.cur b.off (issued s)).curCore (val x.a s) = none :=
      bufOf_freed s.m.cur (m := issued s) named
    cases x.h.la with
    | false => rfl
    | true =>
      show ((get : M Mach) >>= _) _ = _
      rw [bind_of (get_apply _), gone]
      rfl
  rw [marked]
  rfl

theorem exec_hfree_waits (used : ¬ Unused s b.off (1024 * b.size)) :
    exec (.hfree x) s = finish s (.error (.block (.buffer b.off (1024 * b.size)))) := by
  refine (run_handle_named r ha hb named own).trans ?_
  rw [stop_of (freeOwn_busy (m := issued s) (bufBusy_iff.2 used))]
  rfl

end

theorem handleInstructions : HandleInstructions := by
  intro x s r ha hb free mark unused waits
  refine ⟨fun b named own => ⟨exec_hgive r ha hb named own, exec_hfree r ha hb named own, fun used =>
    ⟨exec_hfree_waits r ha hb named own used, exec_hgive_waits r ha hb named own used⟩⟩, fun named => ⟨?_, ?_⟩⟩
  all_goals
    refine (run_handle r ha hb).trans ?_
    rw [stop_of (ownBuf_none named)]
    rfl

/-! ## FORK (R275, R276, R318) -/

section
variable {x : MW} {s : State} {nj : Bool} {b : Nat} {q : List Nat} (r : Ready x.h s) (ha : IsReg x.a s) (hb : IsReg x.b s) (clear : Clear s)
  (counts : bitAt x.c.toNat 3 = nj) (counter : val x.b s = b) (record : forkRecord x (issued s) (val x.d s) (if nj then 0 else b) = q)
  (low : val x.d s < 2 ^ 56)

/-- The checks of FORK that come before its deque's. -/
def forkRest (nj : Bool) (b : Nat) (q : List Nat) (m : Mach) (path : Nat) : M (Option Nat) := do
  trapIf (recRefused m.cx.slots q) 0x32 0
  trapIf (!nj && b % 8 != 0) 0x14 b
  trapIf (!nj && spFails m b 8) 0x15 b
  trapIf (!canPush m (forkTarget m path)) 0x33 0
  let pa ← xlateAll ((pushSpills m (forkTarget m path)).toList.map (fun va => (va, Acc.write)))
  if nj then pure ()
  else
    let l ← spRead b 8
    spWrite b (toLE 8 ((ofLE l + 1) % 2 ^ 64))
  change (forkChild q pa.head?)
  changeMine Slot.countPath
  pure none

include r ha hb clear counts counter record low

theorem exec_fork_rest : exec (.fork x) s = finish s ((forkRest nj (if nj then 0 else b) q (issued s) (sl s).nextPath (issued s)).map
    (fun p => ((), retire x.h p.1 p.2))) := by
  have range : decide (2 ^ 56 ≤ val x.d s) = false := decide_eq_false (Nat.not_le.2 low)
  have given : (if nj then pure 0 else rdGp x.b : M Nat) (issued s) = .ok ((if nj then 0 else b), issued s) := by
    cases nj with
    | true => rfl
    | false => rw [← counter]; exact rdGp_issued ..
  refine (run_issue_finish r ha hb (allowed_of_regs (by simp))).trans ?_
  rw [counts, bind_of (rdGp_issued ..), ite_join, bind_of given]
  dsimp only
  rw [bind_of (mine_apply ..), bind_of (get_apply _), bind_of (accessGate_apply clear), bind_of (trapIf_of range ..), id, issued_sl, record]
  rfl

variable (accepted : recRefused s.m.cx.slots q = false) (inside : nj = false → b % 8 = 0 ∧ InWindow b 8 s)

theorem exec_fork_refused (refused : recRefused s.m.cx.slots q = true) :
    exec (.fork x) s = .next { s with m := takeTrap s.m.cur 0x32 0 s.m.sl.retAddr s.m } := by
  rw [exec_fork_rest r ha hb clear counts counter record low, forkRest, issued_cx, refused]
  rfl

include accepted inside

/-- What FORK does when its record and its counter pass. -/
def forkPush (nj : Bool) (b : Nat) (q : List Nat) (m : Mach) (path : Nat) : M (Option Nat) := do
  trapIf (!canPush m (forkTarget m path)) 0x33 0
  let pa ← xlateAll ((pushSpills m (forkTarget m path)).toList.map (fun va => (va, Acc.write)))
  if nj then pure ()
  else
    let l ← spRead b 8
    spWrite b (toLE 8 ((ofLE l + 1) % 2 ^ 64))
  change (forkChild q pa.head?)
  changeMine Slot.countPath
  pure none

omit ha hb clear counts counter record low r in
theorem fork_checked : forkRest nj (if nj then 0 else b) q (issued s) (sl s).nextPath (issued s) =
    forkPush nj (if nj then 0 else b) q (issued s) (sl s).nextPath (issued s) := by
  have aligned : (!nj && (if nj then 0 else b) % 8 != 0) = false := by
    cases nj with
    | true => rfl
    | false => exact misaligned_eq.2 (inside rfl).1
  have window : (!nj && spFails (issued s) (if nj then 0 else b) 8) = false := by
    cases nj with
    | true => rfl
    | false => exact (inside rfl).2
  unfold forkRest
  rw [issued_cx, bind_of (trapIf_of accepted ..), bind_of (trapIf_of aligned ..), bind_of (trapIf_of window ..)]
  rfl

theorem exec_fork_full (full : canPush (issued s) (forkTarget (issued s) (sl s).nextPath) = false) :
    exec (.fork x) s = .next { s with m := takeTrap s.m.cur 0x33 0 s.m.sl.retAddr s.m } := by
  rw [exec_fork_rest r ha hb clear counts counter record low, fork_checked accepted inside, forkPush, full]
  rfl

theorem exec_fork (sound : nj = false → Sound b 8 s) (room : canPush (issued s) (forkTarget (issued s) (sl s).nextPath) = true) {sp : Option Nat}
    (none_ : pushSpills (issued s) (forkTarget (issued s) (sl s).nextPath) = none → sp = none)
    (some_ : ∀ va, pushSpills (issued s) (forkTarget (issued s) (sl s).nextPath) = some va → ∃ pa, sp = some pa ∧ Maps va .write pa s) :
    exec (.fork x) s = .next (after x.h none (fun m =>
      let m1 := forkChild q sp
        (if nj then m else storeSp (cellsAt (spPlace m.curCore b) (toLE 8 ((ofLE (s.m.spad.rdN (spPlace s.m.curCore b) 8) + 1) % 2 ^ 64))) m)
      m1.updSlot m1.cur Slot.countPath) s) := by
  have found : ∃ l, xlateAll ((pushSpills (issued s) (forkTarget (issued s) (sl s).nextPath)).toList.map (fun va => (va, Acc.write))) (issued s) =
      .ok (l, issued s) ∧ l.head? = sp := by
    cases spills : pushSpills (issued s) (forkTarget (issued s) (sl s).nextPath) with
    | none => exact ⟨[], xlateAll_maps [] (List.forall_mem_nil _), (none_ spills).symm⟩
    | some va =>
      obtain ⟨pa, rfl, maps⟩ := some_ va spills
      exact ⟨[pa], xlateAll_maps [(va, .write, pa)] (by simpa using maps), rfl⟩
  obtain ⟨l, looked, rfl⟩ := found
  rw [exec_fork_rest r ha hb clear counts counter record low, fork_checked accepted inside, forkPush, bind_of (trapIf_of (congrArg not room) ..),
    bind_of looked]
  cases nj with
  | true => rfl
  | false =>
    simp only [Bool.false_eq_true, if_false]
    rw [bind_of (spRead_issued (sound rfl)), bind_of (spWrite_apply ..)]
    rfl

end

theorem forkEnqueuesTask : ForkEnqueuesTask := by
  intro x s r ha hb nj b q room old clear
  refine ⟨fun low accepted counter hasRoom sp none_ some_ => ?_, fun low refused => ?_, fun low accepted counter full => ?_⟩
  · exact exec_fork r ha hb clear rfl rfl rfl low accepted (fun hn => ⟨(counter hn).1, (counter hn).2.1⟩) (fun hn => (counter hn).2.2) hasRoom none_ some_
  · exact exec_fork_refused r ha hb clear rfl rfl rfl low refused
  · exact exec_fork_full r ha hb clear rfl rfl rfl low accepted counter full

/-- Settles O21: a handle's mark finds the buffer that HGIVE gave, and none that HFREE freed; FORK's counter is the one word that it reads. -/
theorem handlesAndForks : Obligations.HandlesAndForks := ⟨handleInstructions, forkEnqueuesTask⟩

end Sys2Proof.Claim
end

section
/-! PROOFS. EXIT, JOIN and JOINM (R70, R277, R278). -/
namespace Sys2Proof.Claim
open Machine

/-! ## EXIT (R70) -/

theorem exec_exit {x : ZW} {s : State} (r : Ready x.h s) (idle : Idle s) (none_ : ∀ c ∈ s.m.cmds, c.slot ≠ s.m.cur) :
    exec (.exit x) s = .next { s with m := endTask s.m.cur (exitComet s.m.cur (after x.h none id s).m) } := by
  have noCmd : (issued s).cmds.find? (fun c => c.slot == (issued s).cur) = none :=
    List.find?_eq_none.2 fun c hc => by simpa using none_ c hc
  obtain ⟨ld, st, at_, lw⟩ := idle
  refine (run_issue_finish r (isReg_zero s) (isReg_zero s) (allowed_of_regs (by simp))).trans ?_
  rw [bind_of (get_apply _), noCmd, issued_sl, sl_ocLd, sl_ocSt, sl_ocAt, sl_ocLw, sl_il, r.landed, ld, st, at_, lw]
  rfl

/-! ## JOIN (R277) -/

section
variable {s : State} (clear : Clear s) {ea n : Nat} (aligned : ea % 8 = 0) (window : InWindow ea 8 s) (sound : Sound ea 8 s)
  (count : ofLE (s.m.spad.rdN (spPlace s.m.curCore ea) 8) = n)
include clear aligned window sound count

theorem joinOn_zero (zero : n = 0) : joinOn ea (issued s) = .ok ((), l1Inv s.m.curCore (issued s)) := by
  unfold joinOn
  rw [bind_of (accessGate_apply clear), bind_of (get_apply _), bind_of (trapIf_of (misaligned_eq.2 aligned) ..), bind_of (trapIf_of window ..),
    bind_of (spRead_issued sound), count, if_pos zero]
  rfl

theorem joinOn_waits (some_ : n ≠ 0) (alone : (sl s).dqEmpty = true ∨ 16 ≤ s.m.sl.aside.length) :
    joinOn ea (issued s) = .error (.block (.join s.m.curCore ea)) := by
  have may : (!(sl s).dqEmpty && decide ((sl s).aside.length < 16)) = false := by
    rcases alone with empty | full
    · rw [empty]; rfl
    · exact Bool.and_eq_false_iff.2 (.inr (decide_eq_false (Nat.not_lt.2 full)))
  unfold joinOn
  rw [bind_of (accessGate_apply clear), bind_of (get_apply _), bind_of (trapIf_of (misaligned_eq.2 aligned) ..), bind_of (trapIf_of window ..),
    bind_of (spRead_issued sound), count, if_neg some_, bind_of (mine_apply ..), id, issued_sl, may]
  rfl

theorem joinOn_runs (landed : s.m.sl.il = []) (some_ : n ≠ 0) (work : (sl s).dqEmpty = false) (space : s.m.sl.aside.length < 16) {sp : Option Nat}
    (none_ : (sl s).popRefills = false → sp = none)
    (refills : (sl s).popRefills = true → ∃ pa, sp = some pa ∧ Maps (spillVa (sl s) (s.m.sl.spilled.length - 1)) .read pa s) {e : Entry} {y : Mach}
    (popped : popBottom s.m.cur (refillFrom s.m.cur sp) (issued s) = some (e, y)) :
    joinOn ea (issued s) = .error (.stay (unlessEnded s.m.sl.ctx
      (fun y => writeAside y.cur (y.updSlot y.cur (fun z => { setAside z with next := some e, nextStolen := false }))) y)) := by
  have may : (!(sl s).dqEmpty && decide ((sl s).aside.length < 16)) = true := by
    rw [work]
    exact decide_eq_true space
  have still : (!(sl s).il.isEmpty) = false := by rw [sl_il, landed]; rfl
  have looked : ∃ l, xlateAll (if (sl s).popRefills then [(spillVa (sl s) ((sl s).spilled.length - 1), Acc.read)] else []) (issued s) = .ok (l, issued s) ∧
      l.head? = sp := by
    cases fills : (sl s).popRefills with
    | false => exact ⟨[], xlateAll_maps [] (List.forall_mem_nil _), (none_ fills).symm⟩
    | true =>
      obtain ⟨pa, rfl, maps⟩ := refills fills
      exact ⟨[pa], xlateAll_maps [(_, .read, pa)] (List.forall_mem_singleton.2 maps), rfl⟩
  obtain ⟨l, found, rfl⟩ := looked
  unfold joinOn
  rw [bind_of (accessGate_apply clear), bind_of (get_apply _), bind_of (trapIf_of (misaligned_eq.2 aligned) ..), bind_of (trapIf_of window ..),
    bind_of (spRead_issued sound), count, if_neg some_, bind_of (mine_apply ..), id, issued_sl, may, if_pos rfl, bind_of (blockIf_of still ..),
    bind_of found]
  have popped' : popBottom (issued s).cur (refillFrom (issued s).cur l.head?) (issued s) = some (e, y) := popped
  show Except.error (Stop.stay _) = _
  rw [popped']
  rfl

end

/-- JOIN does what the wait on its counter does. -/
theorem exec_join {x : MW} {s : State} (r : Ready x.h s) (ha : IsReg x.a s) (hb : IsReg x.b s) :
    exec (.join x) s = finish s ((joinOn (addDisp (val x.a s) x.disp) (issued s)).map (fun p => ((), retire x.h none p.2))) := by
  refine (run_issue_finish r ha hb (allowed_of_regs (by simp))).trans ?_
  rw [bind_of (rdGp_issued ..), bind_apply]
  cases joinOn (addDisp (val x.a s) x.disp) (issued s) <;> rfl

/-! ## JOINM (R278) -/

/-- Dropping the lines of L1 leaves the scratchpads and the slots. -/
theorem spRead_l1Inv {o n core : Nat} {s : State} (sound : Sound o n s) :
    spRead o n (l1Inv core (issued s)) = .ok (s.m.spad.rdN (spPlace s.m.curCore o) n, l1Inv core (issued s)) :=
  spRead_of_sound (m := l1Inv core (issued s)) sound

theorem exec_joinm {x : MW} {s : State} (r : Ready x.h s) (ha : IsReg x.a s) (hb : IsReg x.b s) (hd : IsReg x.d s) (clear : Clear s) {o k : Nat}
    (aligned : addDisp (val x.a s) x.disp % 8 = 0) (window : InWindow (addDisp (val x.a s) x.disp) 8 s) (sound : Sound (addDisp (val x.a s) x.disp) 8 s)
    (zero : ofLE (s.m.spad.rdN (spPlace s.m.curCore (addDisp (val x.a s) x.disp)) 8) = 0) (offset : bits (val x.b s) 0 21 = o)
    (count : bits (val x.b s) 32 16 = k) (clean : bits (val x.b s) 21 11 = 0 ∧ bits (val x.b s) 48 16 = 0) (quads : o % 8 = 0) (some_ : 0 < k)
    (few : k ≤ 4096) (range : InWindow o (8 * k) s) (good : Sound o (8 * k) s) {l : List Nat}
    (read : quadsOf (s.m.spad.rdN (spPlace s.m.curCore o) (8 * k)) k = l) :
    exec (.joinm x) s = .next (after x.h none (fun m => lands .ready (known (gCells (gNo x.d)
      (l.tail.foldl (joinStep (bits x.c.toNat 0 2) (Ty.signed x.ty)) (l.headD 0)))) (l1Inv m.curCore m)) s) := by
  have legal : (bits (val x.b s) 21 11 != 0 || bits (val x.b s) 48 16 != 0 || o % 8 != 0 || k == 0 || decide (4096 < k)) = false := by
    rw [clean.1, clean.2, quads, decide_eq_false (Nat.not_lt.2 few), beq_eq_false_iff_ne.2 some_.ne']
    rfl
  have reg : (l1Inv s.m.curCore (issued s)).sl.stream x.d = none := hd.issued
  refine run_issue_after r ha hb (allowed_of_regs (by simp [hd])) ?_
  rw [bind_of (rdGp_issued ..), bind_of (rdGp_issued ..), offset, count, bind_of (trapIf_of legal ..), bind_of (get_apply _),
    bind_of (trapIf_of range ..), bind_of (joinOn_zero clear aligned window sound zero rfl), bind_of (spRead_l1Inv good)]
  rw [read]
  exact bind_of (wrLand_reg reg)

/-- Settles O22. -/
theorem tasksEndAndJoin : Obligations.TasksEndAndJoin := by
  refine ⟨fun _ _ => exec_exit, fun x s r ha hb clear aligned window sound => ?_⟩
  refine ⟨fun zero => ?_, fun some_ alone => ?_, fun e y sp some_ work space none_ refills popped => ?_, fun hd zero => ?_⟩
  · rw [exec_join r ha hb, joinOn_zero clear aligned window sound rfl zero]
    rfl
  · rw [exec_join r ha hb, joinOn_waits clear aligned window sound rfl some_ alone]
    rfl
  · rw [exec_join r ha hb, joinOn_runs clear aligned window sound rfl r.landed some_ work space none_ refills popped]
    rfl
  · intro b o k high top quads nonzero few range good l
    exact exec_joinm r ha hb hd clear aligned window sound zero rfl rfl ⟨high, top⟩ quads nonzero few range good rfl

end Sys2Proof.Claim
end

section
/-! PROOFS. LAUNCH, QFENCE and SPAWN (R264, R279, R280). -/
namespace Sys2Proof.Claim
open Machine

/-! ## Writes of the device leave the slots -/

/-- The slots, and which of them is at issue. -/
def slotPart (m : Mach) : List (Nat × Slot) × Nat := (m.slots, m.cur)

theorem sl_of_slotPart {m m' : Mach} (same : slotPart m' = slotPart m) : m'.sl = m.sl := by
  obtain ⟨slots, cur⟩ := Prod.mk.inj same
  rw [Mach.sl, Mach.sl, Mach.slot, Mach.slot, slots, cur]

theorem slotPart_findL2 (pa n : Nat) (m : Mach) : slotPart (findL2 pa n m) = slotPart m := by
  refine foldl_keeps (fun m w => ?_) _ m
  split
  · rfl
  · dsimp only
    split <;> rfl

theorem slotPart_findHbm (line : Nat) (m : Mach) : slotPart (findHbm line m) = slotPart m := by
  refine foldl_keeps (fun m w => ?_) _ m
  split
  · rfl
  · dsimp only
    split <;> rfl

theorem slotPart_drainNotices : ∀ (fuel : Nat) (m : Mach), slotPart (drainNotices fuel m) = slotPart m
  | 0, _ => rfl
  | fuel + 1, m => by
    unfold drainNotices
    split
    · split
      · exact slotPart_drainNotices fuel _
      · rfl
    · rfl

theorem slotPart_notify (kind cause asid core slot aux v : Nat) (m : Mach) : slotPart (notify kind cause asid core slot aux v m) = slotPart m := by
  unfold notify
  dsimp only
  split
  · exact slotPart_drainNotices ..
  · rfl

theorem slotPart_l2Evict (line : Nat) (m : Mach) : slotPart (l2Evict line m) = slotPart m := by
  unfold l2Evict
  extract_lets pa u old found told m1
  have kept : slotPart m1 = slotPart m := by
    unfold m1
    split
    · exact (foldl_keeps (fun m w => slotPart_notify _ _ _ _ _ _ w m) _ _).trans (slotPart_findL2 ..)
    · rfl
  exact kept

theorem slotPart_bringLine (line : Nat) (m : Mach) : slotPart (bringLine line m) = slotPart m := by
  unfold bringLine
  extract_lets pa kind m1 m2
  have victim : slotPart m1 = slotPart m := by
    unfold m1
    split
    · exact slotPart_l2Evict ..
    · rfl
  have placed : slotPart m2 = slotPart m := by
    unfold m2
    split
    · exact (slotPart_findHbm ..).trans victim
    · exact victim
  split
  · rfl
  · split
    · exact placed
    · exact placed

theorem slotPart_cxlAsk (pa : Nat) (m : Mach) : slotPart (cxlAsk pa m) = slotPart m := by
  unfold cxlAsk
  split <;> rfl

theorem slotPart_useLine (line hint : Nat) (m : Mach) : slotPart (useLine line hint m) = slotPart m := by
  unfold useLine
  split <;> dsimp only <;> split <;> rfl

theorem slotPart_homeStore (l : List (Nat × Nat)) (m : Mach) : slotPart (homeStore l m) = slotPart m := by
  have used := slotPart_useLine ((l.headD (0, 0)).1 / 128) 0 (storeMem l m)
  unfold homeStore
  dsimp only
  split <;> exact used

theorem slotPart_engStore (l : List (Nat × Nat)) (m : Mach) : slotPart (engStore l m) = slotPart m := by
  refine foldl_keeps (fun m g => (slotPart_homeStore ..).trans ?_) _ m
  split
  · exact slotPart_bringLine ..
  · rfl
  · exact slotPart_cxlAsk ..

theorem slotPart_putPacket (q : Nat) (l : List Nat) (m : Mach) : slotPart (putPacket q l m) = slotPart m := slotPart_engStore ..

/-! ## LAUNCH and QFENCE (R280) -/

section
variable {x : MW} {s : State} (r : Ready x.h s) (ha : IsReg x.a s) (hb : IsReg x.b s) (hd : IsReg x.d s) (idle : Idle s) {types : List Nat} {ea : Nat}
  (at_ : addDisp (val x.a s) x.disp = ea) (aligned : ea % 8 = 0) (window : InWindow ea 256 s) (sound : Sound ea 256 s)

/-- What LAUNCH and QFENCE do with the packet that they have read. -/
def packetRest (x : MW) (types : List Nat) (m : Mach) (l : List Nat) : M (Option Nat) := do
  let q := x.c.toNat
  let p := quadsOf l 32
  trapIf (!types.contains (bits (p.getD 0 0) 0 8) || packetReserved p) 0x35 0
  trapIf (bits (p.getD 0 0) 0 8 == 1 && recRefused m.cx.slots ((p.drop 8).take 8)) 0x32 0
  blockIf (decide (256 ≤ (m.cx.queues.get Queue.init q).pendingCount)) (.queueRoom m.sl.ctx q)
  let i ← appendPacket q l
  wrLand .ready x.d i
  pure none

include r ha hb hd idle at_ aligned window sound

theorem run_launchOp {l : List Nat} (read : s.m.spad.rdN (spPlace s.m.curCore ea) 256 = l) :
    run (launchOp x types) s = finish s ((packetRest x types (issued s) l (issued s)).map (fun p => ((), retire x.h p.1 p.2))) := by
  refine (run_issue_finish r ha hb (allowed_of_regs (by simp [hd]))).trans ?_
  rw [bind_of (rdGp_issued ..), at_]
  rw [bind_of (get_apply _), bind_of (trapIf_of (misaligned_eq.2 aligned) ..), bind_of (trapIf_of window ..), bind_of (drain_idle idle ..),
    bind_of (spRead_issued sound), read]
  rfl

variable {l : List Nat} (read : s.m.spad.rdN (spPlace s.m.curCore ea) 256 = l)
include read

theorem run_launchOp_reserved (reserved : packetReserved (quadsOf l 32) = true) :
    run (launchOp x types) s = .next { s with m := takeTrap s.m.cur 0x35 0 s.m.sl.retAddr s.m } := by
  rw [run_launchOp r ha hb hd idle at_ aligned window sound read, packetRest, reserved, Bool.or_true]
  rfl

variable (clean : packetReserved (quadsOf l 32) = false) (mem : types.contains (bits ((quadsOf l 32).getD 0 0) 0 8) = true)
  (accepted : bits ((quadsOf l 32).getD 0 0) 0 8 = 1 → recRefused s.m.cx.slots (((quadsOf l 32).drop 8).take 8) = false)
include clean mem accepted

theorem run_launchOp_accepted {y : Queue} (queue : s.m.cx.queues.get Queue.init x.c.toNat = y) : run (launchOp x types) s = finish s (((do
      blockIf (decide (256 ≤ y.pendingCount)) (.queueRoom s.m.sl.ctx x.c.toNat)
      let i ← appendPacket x.c.toNat l
      wrLand .ready x.d i
      pure none : M (Option Nat)) (issued s)).map (fun p => ((), retire x.h p.1 p.2))) := by
  have fields : (!types.contains (bits ((quadsOf l 32).getD 0 0) 0 8) || packetReserved (quadsOf l 32)) = false := by rw [mem, clean]; rfl
  have record : (bits ((quadsOf l 32).getD 0 0) 0 8 == 1 && recRefused s.m.cx.slots (((quadsOf l 32).drop 8).take 8)) = false := by
    cases root : bits ((quadsOf l 32).getD 0 0) 0 8 == 1 with
    | false => rfl
    | true => exact accepted (beq_iff_eq.1 root)
  rw [run_launchOp r ha hb hd idle at_ aligned window sound read, packetRest, issued_cx, bind_of (trapIf_of fields ..), bind_of (trapIf_of record ..), queue,
    issued_sl]
  rfl

theorem run_launchOp_room (room : (s.m.cx.queues.get Queue.init x.c.toNat).pendingCount < 256) :
    run (launchOp x types) s = .next (after x.h none (fun m =>
      lands .ready (known (gCells (gNo x.d) (s.m.cx.queues.get Queue.init x.c.toNat).tail)) (putPacket x.c.toNat l m)) s) := by
  have space : decide (256 ≤ (s.m.cx.queues.get Queue.init x.c.toNat).pendingCount) = false := decide_eq_false (Nat.not_le.2 room)
  have appended : appendPacket x.c.toNat l (issued s) =
      .ok ((s.m.cx.queues.get Queue.init x.c.toNat).tail, putPacket x.c.toNat l (issued s)) := by
    show Except.ok _ = _
    rw [issued_cx]
  have reg : (putPacket x.c.toNat l (issued s)).sl.stream x.d = none := by
    rw [sl_of_slotPart (slotPart_putPacket ..)]
    exact hd.issued
  rw [run_launchOp_accepted r ha hb hd idle at_ aligned window sound read clean mem accepted rfl, bind_of (blockIf_of space ..), bind_of appended,
    bind_of (wrLand_reg reg)]
  rfl

theorem run_launchOp_full (full : 256 ≤ (s.m.cx.queues.get Queue.init x.c.toNat).pendingCount) :
    run (launchOp x types) s = finish s (.error (.block (.queueRoom s.m.sl.ctx x.c.toNat))) := by
  rw [run_launchOp_accepted r ha hb hd idle at_ aligned window sound read clean mem accepted rfl, decide_eq_true full]
  rfl

end

theorem launchAppendsPacket : LaunchAppendsPacket := by
  intro x s r ha hb hd idle ea l p y ty done waits aligned window sound
  have launch : ty = 0 ∨ ty = 1 → [0, 1].contains ty = true := fun h => by rcases h with h | h <;> rw [h] <;> rfl
  have fence : ty = 2 → [2].contains ty = true := fun h => by rw [h]; rfl
  refine ⟨run_launchOp_reserved r ha hb hd idle rfl aligned window sound rfl, fun clean accepted => ⟨fun room => ⟨fun h => ?_, fun h => ?_⟩,
    fun full => ⟨fun h => ?_, fun h => ?_⟩⟩⟩
  · exact run_launchOp_room r ha hb hd idle rfl aligned window sound rfl clean (launch h) accepted room
  · exact run_launchOp_room r ha hb hd idle rfl aligned window sound rfl clean (fence h) accepted room
  · exact run_launchOp_full r ha hb hd idle rfl aligned window sound rfl clean (launch h) accepted full
  · exact run_launchOp_full r ha hb hd idle rfl aligned window sound rfl clean (fence h) accepted full

/-! ## SPAWN (R279) -/

theorem run_mine {α : Type} (f : Slot → α) (k : α → M Unit) (s : State) : run (mine f >>= k) s = run (k (f s.m.sl)) s := rfl

section
variable {x : MW} {s : State} {tr : List (Nat × Nat)} {l : List Nat} {m : Mach} {ea b g shp : Nat} (r : Ready x.h s) (ha : IsReg x.a s) (hb : IsReg x.b s)
  (hd : IsReg x.d s) (idle : Idle s) (clear : Clear s) (at_ : addDisp (val x.a s) x.disp = ea) (word : val x.b s = b) (groups : bits b 0 16 = g)
  (shape : bits b 16 2 = shp) (low : b < 2 ^ 18) (some_ : 0 < g) (few : g ≤ 4096) (legal : shp ≠ 3) (aligned : ea % 8 = 0)
  (pages : tr.map (·.1) = pagesOf ea 64) (maps : ∀ p ∈ tr, Maps p.1 .read p.2 s) (read : readQuads ea (tr.map (·.2)) 8 0 (issued s) = .ok (l, m))
  (accepted : recRefused m.cx.slots l = false) (units : g ≤ (unitsOf m m.sl.ctx shp).length)

/-- What SPAWN waits for, from when it began to (R264). -/
def spawnWait (w : Option Wait) (shp g sid : Nat) : Wait :=
  match w with
  | some (.units _ _ t res) => .units g shp t res
  | _ => .units g shp sid false

/-- What SPAWN does with the units that it finds; `w` is what it waits for. -/
def spawnRest (x : MW) (w : Wait) (l : List Nat) (shp g : Nat) : Option (List Nat) → M (Option Nat)
  | none => do
    if bitAt x.c.toNat 0 then wrLand .ready x.d 1 else block w
    pure none
  | some units => do
    change (spawnRoots l shp g units)
    changeMine Slot.countPath
    if bitAt x.c.toNat 0 then wrLand .ready x.d 0 else pure ()
    pure none

include r ha hb hd idle clear at_ word groups shape low some_ few legal aligned pages maps read accepted units

theorem exec_spawn_rest : exec (.spawn x) s = finish s ((spawnRest x (spawnWait s.m.sl.wait shp g m.sid) l shp g (spawnUnits m m.sl.ctx m.cur shp g) m).map
    (fun p => ((), retire x.h p.1 p.2))) := by
  have fields : (decide (2 ^ 18 ≤ b) || g == 0 || decide (4096 < g) || shp == 3) = false := by
    rw [decide_eq_false (Nat.not_le.2 low), decide_eq_false (Nat.not_lt.2 few), beq_eq_false_iff_ne.2 some_.ne', beq_eq_false_iff_ne.2 legal]
    rfl
  have looked : xlateAll ((pagesOf ea 64).map (fun v => (v, Acc.read))) (issued s) = .ok (tr.map (·.2), issued s) := by
    have all := xlateAll_maps (tr.map (fun p => (p.1, Acc.read, p.2))) (fun p hp => by
      obtain ⟨q, hq, rfl⟩ := List.mem_map.1 hp
      exact maps q hq)
    rw [List.map_map, List.map_map] at all
    rw [← pages, List.map_map]
    exact all
  have fits : decide ((unitsOf m m.sl.ctx shp).length < g) = false := decide_eq_false (Nat.not_lt.2 units)
  change execSpawn x s = _
  unfold execSpawn
  rw [run_mine]
  refine (run_issue_finish r ha hb (allowed_of_regs ?_)).trans ?_
  · intro p hp
    split at hp
    · rw [List.mem_singleton.1 hp]; exact hd
    · cases hp
  rw [bind_of (rdGp_issued ..), bind_of (rdGp_issued ..), at_, word, groups, shape, bind_of (trapIf_of fields ..), bind_of (accessGate_apply clear),
    bind_of (trapIf_of (misaligned_eq.2 aligned) ..), bind_of looked, bind_of (drain_idle idle ..), bind_of read, bind_of (get_apply _),
    bind_of (trapIf_of accepted ..), bind_of (trapIf_of fits ..)]
  cases spawnUnits m m.sl.ctx m.cur shp g <;> rfl

theorem exec_spawn {us : List Nat} (found : spawnUnits m m.sl.ctx m.cur shp g = some us)
    (cur : (spawnRoots l shp g us m).cur = s.m.cur) (reg : (spawnRoots l shp g us m).sl.stream x.d = none) :
    exec (.spawn x) s = .next (after x.h none (fun _ =>
      let m1 := (spawnRoots l shp g us m).updSlot s.m.cur Slot.countPath
      if bitAt x.c.toNat 0 then lands .ready (known (gCells (gNo x.d) 0)) m1 else m1) s) := by
  have counted : changeMine Slot.countPath (spawnRoots l shp g us m) = .ok ((), (spawnRoots l shp g us m).updSlot s.m.cur Slot.countPath) := by
    rw [changeMine_apply, cur]
  have reg' : ((spawnRoots l shp g us m).updSlot s.m.cur Slot.countPath).sl.stream x.d = none := by
    rw [← cur, sl_updSlot_cur]
    exact reg
  rw [exec_spawn_rest r ha hb hd idle clear at_ word groups shape low some_ few legal aligned pages maps read accepted units, found, spawnRest,
    bind_of (change_apply ..), bind_of counted]
  unfold after
  cases bitAt x.c.toNat 0 with
  | true =>
    simp only [if_true]
    rw [bind_of (wrLand_reg reg')]
    rfl
  | false => rfl

theorem exec_spawn_try (reg : m.sl.stream x.d = none) (none_ : spawnUnits m m.sl.ctx m.cur shp g = none) (try_ : bitAt x.c.toNat 0 = true) :
    exec (.spawn x) s = .next (after x.h none (fun _ => lands .ready (known (gCells (gNo x.d) 1)) m) s) := by
  rw [exec_spawn_rest r ha hb hd idle clear at_ word groups shape low some_ few legal aligned pages maps read accepted units, none_, spawnRest, try_,
    if_pos rfl]
  dsimp only
  rw [bind_of (wrLand_reg reg)]
  rfl

theorem exec_spawn_waits (none_ : spawnUnits m m.sl.ctx m.cur shp g = none) (plain_ : bitAt x.c.toNat 0 = false) :
    exec (.spawn x) s = .next { s with m := s.m.updSlot s.m.cur (fun z => { z with
      wait := some (match s.m.sl.wait with
        | some (.units _ _ t res) => .units g shp t res
        | _ => .units g shp m.sid false)
      look := []
      parked := false }) } := by
  rw [exec_spawn_rest r ha hb hd idle clear at_ word groups shape low some_ few legal aligned pages maps read accepted units, none_, spawnRest, plain_]
  simp only [Bool.false_eq_true, if_false]
  rfl

end

theorem spawnPlacesRoots : SpawnPlacesRoots := by
  intro x s tr l m r ha hb hd idle clear ea b g shp try_ low some_ few legal aligned pages maps read reg same accepted units
  exact ⟨fun us found cur reg' =>
      exec_spawn r ha hb hd idle clear rfl rfl rfl rfl low some_ few legal aligned pages maps read accepted units found cur reg',
    fun none_ => ⟨
      exec_spawn_try r ha hb hd idle clear rfl rfl rfl rfl low some_ few legal aligned pages maps read accepted units reg none_,
      exec_spawn_waits r ha hb hd idle clear rfl rfl rfl rfl low some_ few legal aligned pages maps read accepted units none_⟩⟩

/-- Settles O23. -/
theorem launchAndSpawn : Obligations.LaunchAndSpawn := ⟨launchAppendsPacket, spawnPlacesRoots⟩

end Sys2Proof.Claim
end

section
/-! PROOFS. Versioned tiles: publishing, subscribing, checking, settling (R243 to R251). -/
namespace Sys2Proof.Claim
open Machine

theorem countAt_room {m : Mach} (room : m.sl.ocAt < 255) : countAt m = .ok ((), countsAt m) := by
  unfold countAt
  rw [bind_of (mine_apply ..)]
  exact bind_of (blockIf_of (decide_eq_false (Nat.not_le.2 room)) ..)

theorem countLd_room {m : Mach} (room : m.sl.ocLd < 255) : countLd false m = .ok ((), countsLd m) := by
  unfold countLd
  rw [bind_of (get_apply _)]
  exact (bind_of (blockIf_of (Bool.false_and _) ..)).trans (bind_of (blockIf_of (decide_eq_false (Nat.not_le.2 room)) ..))

theorem resPlaces_reg {b : BitVec 8} {m : Mach} (reg : m.sl.stream b = none) :
    resPlaces b m = .ok ((List.range 8).map (fun i => 8 * gNo b + i), m) := by
  simp only [resPlaces, bind_apply, mine_apply, id, reg, pure_apply]

/-! ## The instructions on a header block (R244, R245, R248, R249) -/

section
variable {x : MW} {s : State} {pa h : Nat} {m : Mach} (r : Ready x.h s) (ha : IsReg x.a s) (hb : IsReg x.b s) (slot : m.sl = sl s)
include r ha hb slot

theorem exec_publish (idle : Idle s) (block : tileAt (addDisp (val x.a s) x.disp) .write true (issued s) = .ok ((pa, h), m)) (open_ : hFin h = false)
    (more : hVer h ≠ 2 ^ 32 - 1) {h' : Nat} (next_ : h + 1 + (if bitAt x.c.toNat 0 then 2 ^ 32 else 0) = h') :
    exec (.publish x) s = .next (after x.h none (fun _ => sendNotices pa h' (homeStore (cellsAt pa (toLE 8 h')) (countsAt m))) s) := by
  have room : m.sl.ocAt < 255 := by
    rw [slot, sl_ocAt, idle.2.2.1]
    decide
  have last : (hVer h == 2 ^ 32 - 1) = false := beq_eq_false_iff_ne.2 more
  refine run_issue_after r ha hb (allowed_of_regs (by simp)) ?_
  rw [bind_of (rdGp_issued ..), bind_of (drain_idle idle ..), bind_of block, bind_of (trapIf_of open_ ..), bind_of (trapIf_of last ..),
    bind_of (countAt_room room), next_]
  rfl

variable (free : Free s)
include free

theorem exec_stopref (room : RoomAt s) (block : tileAt (addDisp (val x.a s) x.disp) .write false (issued s) = .ok ((pa, h), m)) :
    exec (.stopref x) s = .next (after x.h none (fun _ =>
      sendNotices pa (setBits h 33 1 1) (homeStore (cellsAt pa (toLE 8 (setBits h 33 1 1))) (countsAt m))) s) := by
  have room' : m.sl.ocAt < 255 := by rw [slot]; exact room
  refine run_issue_after r ha hb ⟨rfl, nofun, fun _ => free, by simp⟩ ?_
  rw [bind_of (rdGp_issued ..), bind_of block, bind_of (countAt_room room')]
  rfl

theorem exec_refchk (cur : m.cur = s.m.cur) (hd : IsReg x.d s) (room : s.m.sl.ocLd < 255)
    (block : tileAt (addDisp (val x.a s) x.disp) .read false (issued s) = .ok ((pa, h), m)) :
    exec (.refchk x) s = .next (after x.h none (fun _ => fillLand s.m.cur m.nextId 0
      (toLE 8 (if hStop h then 2 else if val x.b s % 2 ^ 32 < hVer h then 1 else 0))
      (awaits .counted ((List.range 8).map (fun i => 8 * gNo x.d + i)) (countsLd m))) s) := by
  have room' : m.sl.ocLd < 255 := by rw [slot]; exact room
  have reg : m.sl.stream x.d = none := by rw [slot]; exact hd
  refine run_issue_after r ha hb ⟨rfl, nofun, fun _ => free, by simp [hb, hd]⟩ ?_
  rw [bind_of (rdGp_issued ..), bind_of (rdG_val hb), bind_of block, bind_of (resPlaces_reg reg), bind_of (countLd_room room'),
    bind_of (newLand_apply ..), ← cur]
  rfl

end

/-! ## SUBSCR (R246) -/

theorem exec_subscr {x : MW} {s : State} {p : Nat × Nat} {h i : Nat} {l : List Nat} {m m1 m2 : Mach} (r : Ready x.h s) (ha : IsReg x.a s)
    (hb : IsReg x.b s) (free : Free s) (places : subscrPlaces (val x.b s) (addDisp (val x.a s) x.disp) (issued s) = .ok (p, m))
    (record : readQuads (val x.b s) [p.1] 8 0 m = .ok (l, m1)) (word : tileWord p.2 m1 = .ok (h, m2)) (room : m2.sl.ocAt < 255) (alone : recJv l = false)
    (accepted : recRefused m2.cx.slots l = false) (open_ : hCnt h ≠ 7)
    (entry : (List.range 256).find? (fun j => ((m2.cluster (clusterOf m2.curCore)).subs.find j).isNone) = some i) :
    exec (.subscr x) s = .next (after x.h none (fun _ => subscribe (addDisp (val x.a s) x.disp) p.2 h i (bits x.c.toNat 0 6) l m2.fresh
      { countsAt m2 with fresh := m2.fresh + 1 }) s) := by
  have fields : (recJv l || recRefused m2.cx.slots l) = false := by rw [alone, accepted]; rfl
  have few : (hCnt h == 7) = false := beq_eq_false_iff_ne.2 open_
  refine run_issue_after r ha hb ⟨rfl, nofun, fun _ => free, by simp⟩ ?_
  rw [bind_of (rdGp_issued ..), bind_of (rdGp_issued ..), bind_of places, bind_of record, bind_of word, bind_of (get_apply _),
    bind_of (trapIf_of fields ..), bind_of (trapIf_of few ..), entry]
  exact bind_of (countAt_room room)

/-! ## SETTLW (R251) -/

section
variable {x : IW} {s : State} (r : Ready x.h s)
include r

theorem exec_settlw (all : settled s.m (clusterOf s.m.curCore) s.m.sl.ctx x.imm.toNat = true) :
    exec (.settlw x) s = .next (after x.h none (fun m => if bitAt x.mod.toNat 0 then
      (((m.cluster (clusterOf s.m.curCore)).subs.filter (fun e => e.2.ctx == s.m.sl.ctx && e.2.grp == x.imm.toNat)).map (·.1)).foldl
        (fun m i => freeSub (clusterOf s.m.curCore) i m) m else m) s) := by
  have passes : (!settled (issued s) (clusterOf s.m.curCore) s.m.sl.ctx x.imm.toNat) = false := congrArg not all
  refine run_issue_after r (isReg_zero s) (isReg_zero s) (allowed_of_regs (by simp)) ?_
  rw [bind_of (get_apply _), issued_curCore, issued_sl, sl_ctx, bind_of (blockIf_of passes ..)]
  rfl

theorem exec_settlw_waits (open_ : settled s.m (clusterOf s.m.curCore) s.m.sl.ctx x.imm.toNat = false) :
    exec (.settlw x) s = finish s (.error (.block (.settled (clusterOf s.m.curCore) s.m.sl.ctx x.imm.toNat))) := by
  have waits : (!settled (issued s) (clusterOf s.m.curCore) s.m.sl.ctx x.imm.toNat) = true := congrArg not open_
  refine (run_issue_finish r (isReg_zero s) (isReg_zero s) (allowed_of_regs (by simp))).trans ?_
  rw [bind_of (get_apply _), issued_curCore, issued_sl, sl_ctx, waits]
  rfl

end

/-- Settles O26. -/
theorem versionedTiles : Obligations.VersionedTiles := by
  refine ⟨fun x s pa h m r ha hb => ?_, fun x s p h i l m m1 m2 => exec_subscr, fun x s r => ⟨exec_settlw r, exec_settlw_waits r⟩⟩
  intro va noted cur slot
  exact ⟨fun idle block open_ more => exec_publish r ha hb slot idle block open_ more rfl,
    fun free room block => exec_stopref r ha hb slot free room block,
    fun free hd room block => exec_refchk r ha hb slot free cur hd room block⟩

end Sys2Proof.Claim
end

section
/-! PROOFS. Law operations (R135 to R139): the statement fails where LWSET's pair of operands starts at the register byte 0xFF. -/
namespace Sys2Proof.Claim
open Machine Test

/-- A deterministic context whose only descriptor, of index 1, is of a domain that runs freely. What lies behind the last register byte is a word of
that law; register 0 names a law that is not loaded. The slot has a handler. -/
def beyondRegisters : State := withSlot (fun y => { y with tvec := 2 ^ 22 })
  (withCtx (fun c => { c with det := true, stepped := [], laws := [(1, hold true)] }) (regs [(256, 2 ^ 40)] demo))

/-- An LWSET of 128 bits at the octet whose operands are the bytes 0xFF and, after it, 0x00. -/
def setAcross : MW := { mw with b := 0xFF, c := 1 }

/-- The cause with which the executing slot has entered its handler. -/
def causeAfter : Host.Outcome State Fault Refusal → Option Nat
  | .next t => some t.m.sl.tcause
  | _ => none

/-- The check at issue reads behind the registers, and finds a barred domain. -/
theorem setAcross_barred : causeAfter (exec (.lwset setAcross) beyondRegisters) = some 0x04 := by decide

theorem bad_word_cause : (takeTrap beyondRegisters.m.cur 0x1C 0 beyondRegisters.m.sl.retAddr beyondRegisters.m).sl.tcause = 0x1C := by decide

/-- Refutes O29: the check at issue of LWSET's domain takes the register after B by its number, 256 after 255, where the body takes the register
byte after B, 0 after 255; the statement asks of no word that its register bytes are legal. -/
theorem not_lawWords : ¬ Obligations.LawWords := by
  intro h
  obtain ⟨_, bad, _⟩ := h (.lwset, .set, true, fun _ => false) (by simp [lawWords]) setAcross beyondRegisters ⟨true, 0, true⟩ (ready (by decide)) rfl rfl rfl
    (fun _ => ⟨rfl, rfl⟩) (by unfold Clear; decide) (by unfold RoomLw; decide)
    ⟨rfl, by decide, (if_pos (rfl : setAcross.sco = .oct)).mpr ⟨rfl, by decide, by unfold InWindow; decide⟩⟩
  have traps := bad nofun (by decide) (by decide)
  have barred := setAcross_barred
  rw [traps] at barred
  exact absurd (bad_word_cause.symm.trans (Option.some.inj barred)) (by decide)

end Sys2Proof.Claim
end

section
/-! PROOFS. Law operations of lanes, descriptors and sweeps (R123, R141, R142, R152). -/
namespace Sys2Proof.Claim
open Machine

/-! ## What ends a context leaves the slot at issue -/

theorem cur_of_slotPart {m m' : Mach} (same : slotPart m' = slotPart m) : m'.cur = m.cur := congrArg Prod.snd same

theorem cur_setTimeline (k t : Nat) (x : Timeline) (m : Mach) : (setTimeline k t x m).cur = m.cur := by
  unfold setTimeline
  extract_lets sl adv m1 m2 m3 m4
  have stored : m2.cur = m.cur := cur_of_slotPart (m := m1) (slotPart_engStore ..)
  have latched : m4.cur = m3.cur := foldl_keeps (g := Mach.cur) (fun m i => by dsimp only; split <;> rfl) _ m3
  have all : m4.cur = m.cur := latched.trans stored
  clear_value m4
  split
  · split
    · split <;> exact all
    · exact all
  · rfl

theorem cur_cancelAll (c : Nat) (m : Mach) : (cancelAll c m).cur = m.cur := by
  unfold cancelAll
  extract_lets m1 m2 x
  have records : m1.cur = m.cur := foldl_keeps (g := Mach.cur) (fun m d => by unfold cancelRecord; split <;> rfl) _ m
  have timelines : m2.cur = m1.cur := foldl_keeps (g := Mach.cur) (fun m k => foldl_keeps (g := Mach.cur) (fun m t => by
    dsimp only
    split
    · exact cur_setTimeline ..
    · rfl) _ m) _ m1
  refine (foldl_keeps (g := Mach.cur) (fun m e => foldl_keeps (g := Mach.cur) (fun m t => ?_) _ m) _ m2).trans (timelines.trans records)
  dsimp only
  split
  · exact cur_of_slotPart (slotPart_engStore ..)
  · rfl

theorem slotPart_deviceSees (pa n : Nat) (m : Mach) : slotPart (deviceSees pa n m) = slotPart m :=
  (foldl_keeps (fun m w => slotPart_notify _ _ _ _ _ _ w m) _ _).trans
    ((slotPart_findL2 ..).trans (foldl_keeps (fun m l => slotPart_bringLine l m) _ m))

theorem slotPart_completeGang (g : Nat) (m : Mach) : slotPart (completeGang g m) = slotPart m := by
  unfold completeGang
  split
  · rfl
  next G found =>
    extract_lets m1 c q q' fail m2
    have failed : ∀ cause, slotPart (fail cause m2) = slotPart m := fun cause => slotPart_notify ..
    split
    · rfl
    · split
      · exact failed _
      next pa reached =>
        extract_lets add
        have added : slotPart (add m2) = slotPart m := (slotPart_engStore ..).trans (slotPart_deviceSees pa 8 m2)
        split
        · exact failed _
        · exact failed _
        · exact added
        · exact added

theorem cur_clearContext (c : Nat) (m : Mach) : (clearContext c m).cur = m.cur := by
  unfold clearContext
  extract_lets keys m1 m2 m3 m4
  have stopped : m2.cur = m1.cur := foldl_keeps (f := fun m j => m.updSlot j Slot.ended) (g := Mach.cur) (fun m j => rfl) keys m1
  have gangs : m4.cur = m3.cur := by
    unfold m4
    refine foldl_keeps (g := Mach.cur) (fun m g => ?_) _ m3
    exact cur_of_slotPart (slotPart_completeGang ..)
  exact gangs.trans (stopped.trans (cur_cancelAll c m))

theorem cur_endContext (c cause k v : Nat) (m : Mach) : (endContext c cause k v m).cur = m.cur :=
  (cur_of_slotPart (slotPart_notify ..)).trans (cur_clearContext c m)

/-! ## A law operation leaves the slot at issue -/

theorem slotPart_findSp (a n : Nat) (m : Mach) : slotPart (findSp a n m) = slotPart m := by
  refine foldl_keeps (fun m w => ?_) _ m
  split
  · rfl
  · dsimp only
    split <;> rfl

theorem slotPart_lawFind (p : LawAt) (m : Mach) : slotPart (lawFind p m) = slotPart m := by
  unfold lawFind
  split
  · exact slotPart_findSp ..
  · refine (slotPart_findL2 ..).trans ?_
    split
    · rfl
    · exact slotPart_bringLine ..

theorem slotPart_setEph (m : Mach) (p : LawAt) (l : List EphEntry) : slotPart (setEph m p l) = slotPart m := by
  unfold setEph
  split <;> rfl

theorem slotPart_ephDrop (p : LawAt) (c : Nat) (m : Mach) : slotPart (ephDrop p c m) = slotPart m := slotPart_setEph ..

theorem slotPart_ephPut (p : LawAt) (e : EphEntry) (m : Mach) : slotPart (ephPut p e m) = slotPart m :=
  (slotPart_setEph ..).trans (slotPart_ephDrop ..)

theorem slotPart_ephRefuse (p : LawAt) (c : Nat) (m : Mach) : slotPart (ephRefuse p c m) = slotPart m := by
  unfold ephRefuse
  split <;> rfl

theorem slotPart_lawWrite (p : LawAt) (v : Nat) (m : Mach) : slotPart (lawWrite p v m) = slotPart m := by
  unfold lawWrite
  split
  · rfl
  · exact slotPart_homeStore ..

theorem slotPart_emit (r : LawReq) (d : Desc) (lnow dt present : Nat) (f : Found) (v : Nat) (w : LawWord) (m : Mach) :
    slotPart (emit r d lnow dt present f v w m) = slotPart m := by
  unfold emit
  split <;> rfl

theorem slotPart_rearm (p : LawAt) (c : Nat) (d : Desc) (lnow : Nat) (w : LawWord) (m : Mach) : slotPart (rearm p c d lnow w m).2 = slotPart m := by
  unfold rearm
  split
  · rfl
  · split
    · split
      · exact slotPart_ephPut ..
      · exact slotPart_ephDrop ..
    · exact slotPart_ephDrop ..

theorem slotPart_armWord (r : LawReq) (d : Desc) (lnow : Nat) (w : LawWord) (m : Mach) : slotPart (armWord r d lnow w m).2.2 = slotPart m := by
  unfold armWord
  dsimp only
  split
  · exact slotPart_ephDrop ..
  · split
    · exact slotPart_ephDrop ..
    · split
      · rfl
      · split
        · exact slotPart_ephRefuse ..
        · exact slotPart_ephPut ..

theorem slotPart_lawOn (r : LawReq) (d : Desc) (present lnow : Nat) (onTime : Bool) (m : Mach) : slotPart (lawOn r d present lnow onTime m).2 = slotPart m := by
  have written : ∀ (w : LawWord) (dt : Nat) (f : Found), slotPart (emit r d lnow dt present f ((rearm r.at_ r.c d lnow w m).1.pack r.at_.w128)
      (rearm r.at_ r.c d lnow w m).1 (lawWrite r.at_ ((rearm r.at_ r.c d lnow w m).1.pack r.at_.w128) (rearm r.at_ r.c d lnow w m).2)) = slotPart m :=
    fun w dt f => (slotPart_emit ..).trans ((slotPart_lawWrite ..).trans (slotPart_rearm ..))
  unfold lawOn
  dsimp only
  split
  · exact (slotPart_lawWrite ..).trans (slotPart_rearm ..)
  · split
    · exact written ..
    · exact written ..
    · exact written ..
    · split <;> exact written ..
    · exact written ..
    · exact written ..
    · exact (slotPart_emit ..).trans ((slotPart_lawWrite ..).trans (slotPart_armWord ..))
    · rfl

theorem slotPart_disarm (p : LawAt) (c : Nat) (m : Mach) : slotPart (disarm p c m) = slotPart m :=
  (slotPart_lawWrite ..).trans (slotPart_ephDrop ..)

theorem cur_fire (p : LawAt) (e : EphEntry) (m : Mach) : (fire p e m).cur = m.cur := by
  have found : (lawFind p m).cur = m.cur := cur_of_slotPart (slotPart_lawFind ..)
  unfold fire
  dsimp only
  split
  · exact (cur_endContext ..).trans found
  · split
    · exact (cur_of_slotPart (slotPart_ephDrop ..)).trans found
    · exact (cur_of_slotPart (slotPart_lawOn ..)).trans found

theorem cur_fireDue (p : LawAt) (c : Nat) (present : Nat → Nat) : ∀ (fuel : Nat) (m : Mach), (fireDue p c present fuel m).cur = m.cur
  | 0, _ => rfl
  | fuel + 1, m => by
    unfold fireDue
    split
    · exact (cur_fireDue p c present fuel _).trans (cur_fire ..)
    · rfl

theorem cur_lawDo (r : LawReq) (clock : Nat → Nat) (tick : Desc → Nat → Nat × Nat) (m : Mach) : (lawDo r clock tick m).2.cur = m.cur := by
  have found : (lawFind r.at_ m).cur = m.cur := cur_of_slotPart (slotPart_lawFind ..)
  have fired : ∀ n, (fireDue r.at_ r.c clock n (lawFind r.at_ m)).cur = m.cur := fun n => (cur_fireDue ..).trans found
  unfold lawDo
  generalize 2 ^ 64 = fuel
  dsimp only
  split
  · exact (cur_endContext ..).trans found
  · split
    · exact (cur_of_slotPart (slotPart_disarm ..)).trans (fired fuel)
    · split
      · exact fired fuel
      · exact (cur_of_slotPart (slotPart_lawOn ..)).trans (fired fuel)
    · split
      · exact (cur_of_slotPart (slotPart_ephDrop ..)).trans (fired fuel)
      · exact (cur_of_slotPart (slotPart_lawOn ..)).trans (fired fuel)

theorem cur_lawCore (r : LawReq) (m : Mach) : (lawCore r m).2.cur = m.cur := by
  unfold lawCore readPeer
  dsimp only
  rw [cur_lawDo]
  split <;> rfl

/-! ## The place of a word (R135, R136) -/

section
variable {sco : Sco} {w128 peek : Bool} {ea : Nat} {p : LawAt} {s : State} (clear : Clear s) (place : LawPlace sco w128 peek ea p s)

theorem lawScope_none {k : PaKind} (host : k ≠ .host) (peer : k = .peer → sco = .sys) (there : k ≠ .hole) : lawScope sco k = none := by
  cases k <;> simp_all [lawScope, anyMemory]

include clear place

theorem lawPlace_issued : lawPlace sco w128 peek ea (issued s) = .ok (p, issued s) := by
  obtain ⟨oct, at_, wide⟩ := p
  obtain ⟨rfl, aligned, place⟩ := place
  unfold lawPlace
  rw [bind_of (accessGate_apply clear), bind_of (trapIf_of (misaligned_eq.2 aligned) ..)]
  by_cases near : sco = .oct
  · obtain ⟨rfl, rfl, window⟩ := (if_pos near).mp place
    rw [near, if_pos (beq_self_eq_true _), bind_of (get_apply _), bind_of (trapIf_of window ..)]
    rfl
  · obtain ⟨rfl, maps, -, host, peer⟩ := (if_neg near).mp place
    have looked := xlateScoped_maps (lawScope sco) [(ea, if peek then .read else .write, at_)] (List.forall_mem_singleton.2 maps)
      (List.forall_mem_singleton.2 (lawScope_none host peer maps.there))
    rw [if_neg (by simpa using near)]
    exact bind_of looked

end

section
variable {p : LawAt} {s : State}

theorem bringLaw_turned (turned : Turned p s) : (if p.oct then pure () else bringLaw [(p.place, lawSize p.w128)] : M Unit) (issued s) = .ok ((), issued s) := by
  cases near : p.oct with
  | true => rfl
  | false =>
    obtain ⟨got, here, free⟩ := turned near
    exact bringLaw_of (m := issued s) (List.forall_mem_singleton.2 ⟨by rw [issued_sl]; exact got, here⟩) (List.forall_mem_singleton.2 free)

/-- A domain that the context may use. -/
theorem domBarred_none {c : Ctx} {o : Option Desc} (stepped : ∀ d, o = some d → c.det = true → (c.stepped.find d.dom).isSome = true) : domBarred c o = false := by
  cases det : c.det with
  | false => rw [domBarred, det]; rfl
  | true =>
    cases o with
    | none => rw [domBarred, det]; rfl
    | some d =>
      have known := stepped d rfl det
      rw [domBarred, det, Option.any_some, Option.isNone_eq_false_iff.2 known]
      rfl

end

/-- An action of which the first way has nothing to do. -/
theorem ite_else {β : Type} {c : Prop} [Decidable c] {x : M Unit} {y : M β} {k : Unit → M β} (same : y = k ()) :
    (if c then y else x >>= k) = (if c then pure () else x) >>= k := by
  rw [same]
  split <;> rfl

/-! ## LWDSC (R141) -/

theorem run_lwdsc {x : MW} {s : State} {tr : List (Nat × Nat)} {q : List Nat} {m : Mach} {ea : Nat} (r : Ready x.h s) (ha : IsReg x.a s) (hb : IsReg x.b s)
    (clear : Clear s) (room : RoomLw s) (at_ : addDisp (val x.a s) x.disp = ea) (aligned : ea % 8 = 0) (pages : tr.map (·.1) = pagesOf ea 32)
    (maps : ∀ p ∈ tr, Maps p.1 .read p.2 s) (read : readQuads ea (tr.map (·.2)) 4 x.h.ch.toNat (issued s) = .ok (q, m)) :
    exec (.lwdsc x) s = finish s (((do
      trapIf (!Desc.ok q) 0x1D 0
      change (fun m => m.updCtx m.sl.ctx (fun c => { c with laws := c.laws.put x.c.toNat q }))
      pure none : M (Option Nat)) m).map (fun p => ((), retire x.h p.1 p.2))) := by
  have looked : xlateAll ((pagesOf ea 32).map (fun v => (v, Acc.read))) (issued s) = .ok (tr.map (·.2), issued s) := by
    have all := xlateAll_maps (tr.map (fun p => (p.1, Acc.read, p.2))) (fun p hp => by
      obtain ⟨q, hq, rfl⟩ := List.mem_map.1 hp
      exact maps q hq)
    rw [List.map_map, List.map_map] at all
    rw [← pages, List.map_map]
    exact all
  have few : decide (255 ≤ (sl s).ocLw) = false := decide_eq_false (Nat.not_le.2 room)
  refine (run_issue_finish r ha hb (allowed_of_regs (by simp))).trans ?_
  rw [bind_of (rdGp_issued ..), at_]
  rw [bind_of (accessGate_apply clear), bind_of (trapIf_of (misaligned_eq.2 aligned) ..), bind_of looked, bind_of (mine_apply ..), id, issued_sl,
    bind_of (blockIf_of few ..), bind_of read]

/-! ## LWSCAN (R152) -/

theorem allowed_privileged_writes {rd wr : List Rng} {s : State} (privileged : Privileged s) : Allowed { rd := rd, wr := wr, priv := true } s :=
  ⟨rfl, fun _ => privileged, nofun, List.forall_mem_nil _⟩

theorem put_put {α : Type} (t : Tab α) (k : Nat) (v w : α) : (t.put k v).put k w = t.put k w := by
  induction t with
  | nil => simp [Tab.put]
  | cons e t ih =>
    obtain ⟨j, u⟩ := e
    simp only [Tab.put]
    by_cases same : (j == k) = true
    · simp [same, Tab.put]
    · by_cases less : k < j
      · simp [same, less, Tab.put]
      · simp [same, less, Tab.put, ih]

theorem updSlot_updSlot (m : Mach) (k : Nat) (f g : Slot → Slot) : (m.updSlot k f).updSlot k g = m.updSlot k (fun y => g (f y)) := by
  show ({ m with slots := (m.slots.put k (f (m.slot k))).put k (g ((m.setSlot k (f (m.slot k))).slot k)) } : Mach) = _
  rw [put_put, Mach.slot_setSlot_self]
  rfl

section
variable {x : MW} {s : State} {p : LawAt} {a b : Nat} (r : Ready x.h s) (ha : IsReg x.a s) (hb : IsReg x.b s) (privileged : Privileged s)
  (base : val x.a s = a) (count : val x.b s = b)

/-- The registers move on past the word. -/
def scanMoved (x : MW) (a b : Nat) (m : Mach) : Mach :=
  m.updSlot m.cur (fun y => { y.poke (gCells (gNo x.a) ((a + lawSize (w128Of x)) % 2 ^ 64) ++ gCells (gNo x.b) (b - 1)) with got := [] })

/-- The operation on a valid word. -/
def scanWord (x : MW) (p : LawAt) (a : Nat) (m : Mach) : Mach :=
  let op := if (LawWord.of (w128Of x) (lawRead m p)).a && (ephFind m p m.sl.ctx).isNone then LawOp.arm else LawOp.adv
  let m1 := (lawCore (lawReq m op p a 0 0) m).2
  if p.oct then m1 else l1InvLines m.curCore [p.place / 128] m1

/-- Where the sweep stands when the registers have moved on. -/
def scanEnd (b : Nat) (m : Mach) : Except Stop (Option Nat × Mach) :=
  if b = 1 then .ok (none, m) else .error (.stay (m.updSlot m.cur (fun y => { y with mid := true })))

/-- The end of an execution of LWSCAN. -/
theorem scan_moves (x : MW) (a b : Nat) (m : Mach) : (do
      changeMine (fun s => s.poke (gCells (gNo x.a) ((a + lawSize (w128Of x)) % 2 ^ 64) ++ gCells (gNo x.b) (b - 1)))
      changeMine (fun s => { s with got := [] })
      if b = 1 then pure none else restart : M (Option Nat)) m = scanEnd b (scanMoved x a b m) := by
  have moved : scanMoved x a b m = (m.updSlot m.cur (fun y =>
      y.poke (gCells (gNo x.a) ((a + lawSize (w128Of x)) % 2 ^ 64) ++ gCells (gNo x.b) (b - 1)))).updSlot m.cur (fun y => { y with got := [] }) := by
    rw [updSlot_updSlot]
    rfl
  rw [bind_of (changeMine_apply ..), bind_of (changeMine_apply ..), scanEnd, moved]
  split <;> rfl

/-- The model's step on a valid word, which takes the core from the state that the operation leaves. -/
theorem scanWord_eq (x : MW) (p : LawAt) (a : Nat) (m : Mach) : scanWord x p a m =
    (let op := if (LawWord.of (w128Of x) (lawRead m p)).a && (ephFind m p m.sl.ctx).isNone then LawOp.arm else LawOp.adv
      let m := (lawCore (lawReq m op p a 0 0) m).2
      if p.oct then m else l1InvLines m.curCore [p.place / 128] m) := by
  unfold scanWord
  extract_lets op m1
  rw [show m1.curCore = m.curCore from congrArg coreOf (cur_lawCore ..)]

theorem cur_scanWord (x : MW) (p : LawAt) (a : Nat) (m : Mach) : (scanWord x p a m).cur = m.cur := by
  unfold scanWord
  dsimp only
  split
  · exact cur_lawCore ..
  · exact cur_lawCore ..

include r ha hb privileged count

theorem exec_lwscan_none (none_ : b = 0) : exec (.lwscan x) s = .next (after x.h none id s) := by
  refine run_issue_after r ha hb (allowed_privileged_writes privileged) ?_
  rw [bind_of (rdGp_issued ..), bind_of (rdGp_issued ..), count, if_pos none_]
  rfl

include base

/-- LWSCAN goes on past its word once the word has been checked. -/
theorem exec_lwscan_checked (some_ : b ≠ 0) (checked : scanPlace x.sco (w128Of x) a (issued s) = .ok (p, issued s)) {o : Option Desc}
    (desc : lawDesc s.m.cx (w128Of x) (lawRead s.m p) = o) :
    (b = 1 → exec (.lwscan x) s = .next (after x.h none (fun m => scanMoved x a b (o.elim m (fun _ => scanWord x p a m))) s)) ∧
    (1 < b → exec (.lwscan x) s = .next { s with m := atRestart (scanMoved x a b (o.elim (issued s) (fun _ => scanWord x p a (issued s)))) }) := by
  have ends : exec (.lwscan x) s = finish s ((scanEnd b (scanMoved x a b (o.elim (issued s) (fun _ => scanWord x p a (issued s))))).map
      (fun p => ((), retire x.h p.1 p.2))) := by
    refine (run_issue_finish r ha hb (allowed_privileged_writes privileged)).trans ?_
    rw [bind_of (rdGp_issued ..), bind_of (rdGp_issued ..), count, base, if_neg some_]
    rw [bind_of checked, bind_of (get_apply _), issued_cx, show lawRead (issued s) p = lawRead s.m p from rfl, desc]
    cases o with
    | none =>
      rw [← scan_moves]
      rfl
    | some d =>
      rw [← scan_moves, Option.elim_some, scanWord_eq]
      rfl
  have cur : (scanMoved x a b (o.elim (issued s) (fun _ => scanWord x p a (issued s)))).cur = s.m.cur := by
    cases o with
    | none => rfl
    | some d => exact cur_scanWord ..
  refine ⟨fun last => ?_, fun more => ?_⟩
  · rw [ends, scanEnd, if_pos last]
    rfl
  · rw [ends, scanEnd, if_neg more.ne']
    rfl

end

theorem scanPlace_none {sco : Sco} {w128 : Bool} {a : Nat} {p : LawAt} {s : State} (clear : Clear s) (place : LawPlace sco w128 true a p s) (turned : Turned p s)
    (desc : lawDesc s.m.cx w128 (lawRead s.m p) = none) : scanPlace sco w128 a (issued s) = .ok (p, issued s) := by
  have brought := bringLaw_turned turned
  rw [place.1] at brought
  unfold scanPlace
  rw [bind_of (lawPlace_issued clear place), ite_else, bind_of brought]
  · dsimp only
    rw [bind_of (get_apply _), issued_cx, show lawRead (issued s) p = lawRead s.m p from rfl, desc]
    rfl
  · rfl

/-- A valid word of a domain that the context may use, which the core may write, passes LWADV's checks. -/
theorem lawCheck_adv {p : LawAt} {ea : Nat} {s : State} {d : Desc} (desc : lawDesc s.m.cx p.w128 (lawRead s.m p) = some d)
    (stepped : s.m.cx.det = true → (s.m.cx.stepped.find d.dom).isSome = true) (held : p.oct = false → Held ea (lawSize p.w128) s) :
    lawCheck .adv p ea 0 0 (issued s) = .ok ((), issued s) := by
  have open_ : domBarred s.m.cx (some d) = false := domBarred_none fun d' same det => by
    rw [← Option.some.inj same]
    exact stepped det
  have owned : (if p.oct || LawOp.adv == .peek then pure () else capCheck ea (lawSize p.w128) : M Unit) (issued s) = .ok ((), issued s) := by
    split
    · rfl
    next writes => exact capCheck_apply (held (Bool.or_eq_false_iff.1 (Bool.eq_false_iff.2 writes)).1)
  unfold lawCheck
  dsimp only
  rw [bind_of (get_apply _), issued_cx, show lawRead (issued s) p = lawRead s.m p from rfl, desc, bind_of (trapIf_of open_ ..), ite_else, bind_of owned]
  · rfl
  · rfl

theorem scanPlace_some {sco : Sco} {w128 : Bool} {a : Nat} {p : LawAt} {s : State} (clear : Clear s) (place : LawPlace sco w128 true a p s) (turned : Turned p s)
    {d : Desc} (desc : lawDesc s.m.cx w128 (lawRead s.m p) = some d) (written : LawPlace sco w128 false a p s)
    (stepped : s.m.cx.det = true → (s.m.cx.stepped.find d.dom).isSome = true) : scanPlace sco w128 a (issued s) = .ok (p, issued s) := by
  have brought := bringLaw_turned turned
  have wide : p.w128 = w128 := place.1
  have checked : lawCheck .adv p a 0 0 (issued s) = .ok ((), issued s) := by
    refine lawCheck_adv (by rw [wide]; exact desc) stepped fun far => ?_
    obtain ⟨-, -, place⟩ := written
    split at place
    · exact absurd (place.1.symm.trans far) (by decide)
    · rw [wide]
      exact place.2.2.1 rfl
  rw [wide] at brought
  unfold scanPlace
  rw [bind_of (lawPlace_issued clear place), ite_else, bind_of brought]
  · dsimp only
    rw [bind_of (get_apply _), issued_cx, show lawRead (issued s) p = lawRead s.m p from rfl, desc, Option.isNone_some, if_neg Bool.false_ne_true,
      bind_of checked]
    split
    · rfl
    · exact lawPlace_issued clear written
  · rfl

theorem descriptorsAndSweeps : DescriptorsAndSweeps := by
  refine ⟨fun x s tr q m r ha hb clear room aligned pages maps read => ⟨fun good => ?_, fun bad => ?_⟩, fun x s p r ha hb privileged => ?_⟩
  · rw [run_lwdsc r ha hb clear room rfl aligned pages maps read, good]
    rfl
  · rw [run_lwdsc r ha hb clear room rfl aligned pages maps read, bad]
    rfl
  · intro a b moved swept
    have moves : moved = scanMoved x a b := rfl
    have sweeps : swept = fun _ => scanWord x p a := rfl
    clear_value moved swept
    subst moves sweeps
    refine ⟨exec_lwscan_none r ha hb privileged rfl, fun some_ clear place turned => ⟨fun d desc written stepped => ?_, fun desc => ?_⟩⟩
    · have goes := exec_lwscan_checked r ha hb privileged rfl rfl some_ (scanPlace_some clear place turned desc written stepped) desc
      simp only [Option.elim_some] at goes
      exact goes
    · have goes := exec_lwscan_checked r ha hb privileged rfl rfl some_ (scanPlace_none clear place turned desc) desc
      simp only [Option.elim_none] at goes
      exact goes

end Sys2Proof.Claim
end

section
/-! PROOFS. Law words of vector lanes (R142). -/
namespace Sys2Proof.Claim
open Machine

/-! ## The lanes' places -/

theorem meetAt_maps {s : State} {scope : PaKind → Option Nat} {va pa : Nat} {acc : Acc} (maps : Maps va acc pa s)
    (allowed : scope (paKind s.m.dev pa) = none) : meetAt scope (issued s) (va, acc, none) = .pa pa := by
  obtain ⟨e, hit, at_⟩ := maps.entry
  simp only [meetAt, issued_curCore, issued_cx, hit, issued_dev, at_, allowed, if_neg (Nat.not_le.2 maps.range)]

theorem laneChecks_none {l : List (Nat × LawAt)} {s : State}
    (good : ∀ e ∈ l, domBarred s.m.cx (lawDesc s.m.cx false (lawRead s.m e.2)) = false ∧ (e.2.oct = false → Held e.1 8 s)) :
    laneChecks l (issued s) = .ok ((), issued s) := by
  have none_ : l.findSome? (fun e => if domBarred s.m.cx (lawDesc s.m.cx false (lawRead s.m e.2)) then some ((0x04, 0) : Nat × Nat)
      else if e.2.oct then none else (capFails s.m s.m.cx s.m.curCore e.1 8).map (fun a => (0x40, a))) = none := by
    refine List.findSome?_eq_none_iff.2 fun e he => ?_
    obtain ⟨open_, held⟩ := good e he
    rw [open_, if_neg Bool.false_ne_true]
    split
    · rfl
    next far =>
      have own : capFails s.m s.m.cx s.m.curCore e.1 8 = none := held (Bool.eq_false_iff.2 far)
      rw [own]
      rfl
  unfold laneChecks
  rw [bind_of (get_apply _), issued_cx, issued_curCore]
  have same : l.findSome? (fun e => if domBarred s.m.cx (lawDesc s.m.cx false (lawRead (issued s) e.2)) then some ((0x04, 0) : Nat × Nat)
      else if e.2.oct then none else (capFails (issued s) s.m.cx s.m.curCore e.1 8).map (fun a => (0x40, a))) = none := none_
  rw [same]
  rfl

section
variable {es : List (Nat × LawAt)} {s : State} {sco : Sco} (clear : Clear s) (places : ∀ e ∈ es, LawPlace sco false false e.1 e.2 s ∧ Turned e.2 s)
  (open_ : ∀ e ∈ es, domBarred s.m.cx (lawDesc s.m.cx false (lawRead s.m e.2)) = false)
include clear places open_

theorem lanePlaces_oct (near : sco = .oct) : lanePlaces sco (es.map (·.1)) (issued s) = .ok (es.map (·.2), issued s) := by
  have at_ : ∀ e ∈ es, e.2 = ⟨true, spPlace s.m.curCore e.1, false⟩ ∧ e.1 % 8 = 0 ∧ InWindow e.1 8 s := by
    rintro ⟨ea, oct, place, wide⟩ he
    obtain ⟨⟨rfl, aligned, place⟩, -⟩ := places _ he
    obtain ⟨rfl, here, window⟩ := (if_pos near).mp place
    exact ⟨congrArg (fun p => (⟨true, p, false⟩ : LawAt)) here, aligned, window⟩
  have passes : ∀ ea ∈ es.map (·.1), (if ea % 8 ≠ 0 then some ((0x14, ea) : Nat × Nat)
      else if spFails (issued s) ea 8 then some (0x15, ea) else none) = none := by
    intro ea h
    obtain ⟨e, he, rfl⟩ := List.mem_map.1 h
    obtain ⟨-, aligned, window⟩ := at_ e he
    have window' : spFails (issued s) e.1 8 = false := window
    rw [if_neg (not_not.2 aligned), window']
    rfl
  have whole : (es.map (·.1)).takeWhile (fun ea => (if ea % 8 ≠ 0 then some ((0x14, ea) : Nat × Nat)
      else if spFails (issued s) ea 8 then some (0x15, ea) else none).isNone) = es.map (·.1) :=
    List.takeWhile_eq_self_iff.2 fun ea h => by rw [passes ea h]; rfl
  have pairs : (es.map (·.1)).map (fun ea => (ea, (⟨true, spPlace s.m.curCore ea, false⟩ : LawAt))) = es := by
    rw [List.map_map]
    conv_rhs => rw [← List.map_id es]
    exact List.map_congr_left fun e he => Prod.ext rfl (at_ e he).1.symm
  have atAll : (es.map (·.1)).map (fun ea => (⟨true, spPlace s.m.curCore ea, false⟩ : LawAt)) = es.map (·.2) := by
    rw [List.map_map]
    exact List.map_congr_left fun e he => (at_ e he).1.symm
  have checked : laneChecks es (issued s) = .ok ((), issued s) := laneChecks_none fun e he =>
    ⟨open_ e he, fun far => by rw [(at_ e he).1] at far; cases far⟩
  unfold lanePlaces
  rw [bind_of (accessGate_apply clear), bind_of (get_apply _), near, if_pos (beq_self_eq_true _), issued_curCore]
  dsimp only
  rw [whole, pairs, bind_of checked, List.findSome?_eq_none_iff.2 passes, atAll]
  rfl

theorem lanePlaces_memory (far : sco ≠ .oct) : lanePlaces sco (es.map (·.1)) (issued s) = .ok (es.map (·.2), issued s) := by
  have at_ : ∀ e ∈ es, e.2 = ⟨false, e.2.place, false⟩ ∧ e.1 % 8 = 0 ∧ Maps e.1 .write e.2.place s ∧ Held e.1 8 s ∧
      lawScope sco (paKind s.m.dev e.2.place) = none := by
    rintro ⟨ea, oct, place, wide⟩ he
    obtain ⟨⟨rfl, aligned, place⟩, -⟩ := places _ he
    obtain ⟨rfl, maps, held, host, peer⟩ := (if_neg far).mp place
    exact ⟨rfl, aligned, maps, held rfl, lawScope_none host peer maps.there⟩
  have listed : (es.map (·.1)).map (fun ea => (ea, Acc.write, if ea % 8 ≠ 0 then some ((0x14, ea) : Nat × Nat) else none)) =
      (es.map (fun e => (e.1, Acc.write, e.2.place))).map (fun p => (p.1, p.2.1, none)) := by
    rw [List.map_map, List.map_map]
    exact List.map_congr_left fun e he => by
      simp only [Function.comp_apply]
      rw [if_neg (not_not.2 (at_ e he).2.1)]
  have met : (((es.map (fun e => (e.1, Acc.write, e.2.place))).map (fun p => ((p.1, p.2.1, none) : Nat × Acc × Option (Nat × Nat)))).map
      (meetAt (lawScope sco) (issued s))).map metPa = es.map (fun e => some e.2.place) := by
    rw [List.map_map, List.map_map, List.map_map]
    exact List.map_congr_left fun e he => by
      obtain ⟨-, -, maps, -, allowed⟩ := at_ e he
      simp only [Function.comp_apply, meetAt_maps maps allowed]
      rfl
  have whole : (es.map (fun e => some e.2.place)).takeWhile Option.isSome = es.map (fun e => some e.2.place) :=
    List.takeWhile_eq_self_iff.2 fun o h => by
      obtain ⟨e, -, rfl⟩ := List.mem_map.1 h
      rfl
  have pas : (es.map (fun e => some e.2.place)).map (·.getD 0) = es.map (fun e => e.2.place) := by rw [List.map_map]; rfl
  have served : (es.map (fun e => e.2.place)).any (waitsService s.m.dev) = false := by
    refine List.any_eq_false.2 fun pa h => ?_
    obtain ⟨e, he, rfl⟩ := List.mem_map.1 h
    rw [(at_ e he).2.2.1.service]
    exact Bool.false_ne_true
  have brought : bringLaw ((es.map (fun e => e.2.place)).map (fun pa => (pa, 8))) 0 (issued s) = .ok ((), issued s) := by
    have turned : ∀ q ∈ (es.map (fun e => e.2.place)).map (fun pa => (pa, 8)), ∃ e ∈ es, q.1 = e.2.place ∧ e.2.oct = false := by
      intro q h
      rw [List.map_map] at h
      obtain ⟨e, he, rfl⟩ := List.mem_map.1 h
      exact ⟨e, he, rfl, by rw [(at_ e he).1]⟩
    refine bringLaw_of (fun q h => ?_) (fun q h => ?_)
    · obtain ⟨e, he, same, oct⟩ := turned q h
      obtain ⟨got, here, -⟩ := (places e he).2 oct
      rw [same, issued_sl]
      exact ⟨got, here⟩
    · obtain ⟨e, he, same, oct⟩ := turned q h
      rw [same]
      exact ((places e he).2 oct).2.2
  have words : ((es.map (fun e => e.2.place)).map (fun pa => (⟨false, pa, false⟩ : LawAt))) = es.map (·.2) := by
    rw [List.map_map]
    exact List.map_congr_left fun e he => (at_ e he).1.symm
  have zipped : List.zip (es.map (·.1)) (es.map (·.2)) = es := by
    rw [List.zip_map']
    exact List.map_id es
  have checked : laneChecks es (issued s) = .ok ((), issued s) := laneChecks_none fun e he => ⟨open_ e he, fun _ => (at_ e he).2.2.2.1⟩
  have looked : xlateScoped (lawScope sco) ((es.map (fun e => (e.1, Acc.write, e.2.place))).map (fun p => (p.1, p.2.1, none))) (issued s) =
      .ok (es.map (fun e => e.2.place), issued s) := by
    refine (xlateScoped_maps (lawScope sco) _ (fun p hp => ?_) (fun p hp => ?_)).trans ?_
    · obtain ⟨e, he, rfl⟩ := List.mem_map.1 hp
      exact (at_ e he).2.2.1
    · obtain ⟨e, he, rfl⟩ := List.mem_map.1 hp
      exact (at_ e he).2.2.2.2
    · rw [List.map_map]
      rfl
  unfold lanePlaces
  rw [bind_of (accessGate_apply clear), bind_of (get_apply _), if_neg (by simpa using far)]
  rw [listed, met, whole, pas, issued_dev, bind_of (blockIf_of served ..), bind_of brought, words, zipped, bind_of checked, bind_of looked]
  exact congrArg (fun l => Except.ok (l, issued s)) words

end

theorem lanePlaces_issued {sco : Sco} {eas : List Nat} {ps : List LawAt} {s : State} (clear : Clear s) (count : ps.length = eas.length)
    (places : ∀ e ∈ List.zip eas ps, LawPlace sco false false e.1 e.2 s ∧ Turned e.2 s)
    (open_ : ∀ p ∈ ps, domBarred s.m.cx (lawDesc s.m.cx false (lawRead s.m p)) = false) : lanePlaces sco eas (issued s) = .ok (ps, issued s) := by
  have left : (List.zip eas ps).map (·.1) = eas := List.map_fst_zip (by omega)
  have right : (List.zip eas ps).map (·.2) = ps := List.map_snd_zip (by omega)
  have opens : ∀ e ∈ List.zip eas ps, domBarred s.m.cx (lawDesc s.m.cx false (lawRead s.m e.2)) = false := fun e he => open_ e.2 (List.of_mem_zip he).2
  by_cases near : sco = .oct
  · have got := lanePlaces_oct clear places opens near
    rwa [left, right] at got
  · have got := lanePlaces_memory clear places opens near
    rwa [left, right] at got

/-! ## VLWADV and VLWADD -/

/-- What VLWADV and VLWADD do once their vectors have been checked; `s` is the slot at issue. -/
def lanesRest (x : MW) (op : LawOp) (cReg : Option (BitVec 8)) (dest : Bool) (s : Slot) (a : Nat) : M (Option Nat) := do
  trapIf (s.vew != 4) 0x10 0
  let lanes := List.range s.vlanes
  let eas := lanes.map (fun l => (addDisp a x.disp + 8 * s.elem (s.vbyte (vNo x.b) l) 32) % 2 ^ 64)
  let ps ← lanePlaces x.sco eas
  countLw
  let vals := lanes.map (fun l => match cReg with
    | some c => s.elem (s.vbyte (vNo c) l) 32
    | none => 0)
  let m ← get
  let r := performLanes op (List.zip lanes (List.zip ps (List.zip eas vals))) [] [] m
  let slices := (ps.filter (fun p => !p.oct)).map (fun p => p.place / 128)
  change (fun _ => countLanes slices r.2.2)
  let cells := laneResults s x.d r.1
  let lines := slices.dedup
  match r.2.1 with
  | [] =>
    let id ← newLand .law (if dest then cells.map (·.1) else [])
    change (finishLanes op id (if dest then cells.map (·.2) else []) lines)
    pure none
  | bad :: _ =>
    halt (fun m =>
      let m := badLane x.h (if dest then cells else []) lines m
      .trapAt m 0x1C bad (nextPc m.sl.pc))

section
variable {x : MW} {s : State} {cReg : Option (BitVec 8)} {dest : Bool} {op : LawOp} (r : Ready x.h s) (ha : IsReg x.a s) (hb : IsReg x.b s) (clear : Clear s)
  (room : RoomLw s) (view : (sl s).VS ≠ 0) (width : (sl s).vew = 4)

theorem run_lawLanes (vectors : ∀ b ∈ x.b :: (cReg.toList ++ (if dest then [x.d] else [])),
      (sl s).vcap = 0 ∨ (sl s).vbyte (vNo b) (sl s).vcap ≤ shareOf s.m.cx.slots) (r : Ready x.h s) (ha : IsReg x.a s) (hb : IsReg x.b s)
    (view : (sl s).VS ≠ 0) :
    run (lawLanes x op cReg dest) s = finish s ((lanesRest x op cReg dest (sl s) (val x.a s) (issued s)).map (fun p => ((), retire x.h p.1 p.2))) := by
  have fits : ∀ b ∈ x.b :: (cReg.toList ++ (if dest then [x.d] else [])), vCheck b (sl s).vcap (issued s) = .ok ((), issued s) :=
    fun b hb => vCheck_issued view (vectors b hb)
  have last : (if dest then vCheck x.d (sl s).vcap else pure () : M Unit) (issued s) = .ok ((), issued s) := by
    cases dest with
    | false => rfl
    | true => exact fits x.d (by simp)
  refine (run_issue_finish r ha hb (allowed_of_regs (by simp))).trans ?_
  rw [bind_of (rdGp_issued ..), bind_of (mine_apply ..), id, issued_sl, bind_of (fits x.b (by simp))]
  cases cReg with
  | none =>
    dsimp only
    rw [ite_act, bind_of last]
    rfl
  | some c =>
    dsimp only
    rw [bind_of (fits c (by simp)), ite_act, bind_of last]
    rfl

variable {eas vals : List Nat} {ps : List LawAt} {p : List (Nat × Nat) × List Nat × Mach} {cells : List (Nat × Nat)} {asked : List Nat} {a : Nat}
  (lanes : (List.range (sl s).vlanes).map (fun l => (addDisp a x.disp + 8 * (sl s).elem ((sl s).vbyte (vNo x.b) l) 32) % 2 ^ 64) = eas)
  (placed : lanePlaces x.sco eas (issued s) = .ok (ps, issued s))
  (values : (List.range (sl s).vlanes).map (fun l => match cReg with
    | some c => (sl s).elem ((sl s).vbyte (vNo c) l) 32
    | none => 0) = vals)
  (performed : performLanes op (List.zip (List.range (sl s).vlanes) (List.zip ps (List.zip eas vals))) [] [] (countsLw (issued s)) = p)
  (results : (if dest then laneResults (sl s) x.d p.1 else []) = cells) (lines : (ps.filter (fun p => !p.oct)).map (fun p => p.place / 128) = asked)
include room width lanes placed values performed results lines

theorem lanesRest_good (good : p.2.1 = []) : lanesRest x op cReg dest (sl s) a (issued s) =
    .ok (none, finishLanes op (countLanes asked p.2.2).nextId (cells.map (·.2)) asked.dedup (awaits .law (cells.map (·.1)) (countLanes asked p.2.2))) := by
  unfold lanesRest
  rw [bind_of (trapIf_of (by rw [width]; rfl) ..), lanes, bind_of placed, bind_of (countLw_apply room), values, bind_of (get_apply _), performed, lines,
    bind_of (change_apply ..), good]
  refine (bind_of (newLand_apply ..)).trans ?_
  subst results
  cases dest <;> rfl

theorem lanesRest_bad {l : Nat} {ls : List Nat} (bad : p.2.1 = l :: ls) : lanesRest x op cReg dest (sl s) a (issued s) =
    Except.error (.trapAt (badLane x.h cells asked.dedup (countLanes asked p.2.2)) 0x1C l
      (nextPc (badLane x.h cells asked.dedup (countLanes asked p.2.2)).sl.pc)) := by
  unfold lanesRest
  rw [bind_of (trapIf_of (by rw [width]; rfl) ..), lanes, bind_of placed, bind_of (countLw_apply room), values, bind_of (get_apply _), performed, lines,
    bind_of (change_apply ..), bad, results]
  rfl

end

theorem lawLanes_claim : LawLanes := by
  intro x s add ps r ha hb clear room y n i op dest eas vals p cells asked lines m1 vs view width vectors count places stepped
  have placed : lanePlaces x.sco eas (issued s) = .ok (ps, issued s) :=
    lanePlaces_issued clear (by rw [count]; simp [eas]) places fun p hp => domBarred_none fun d desc => stepped p hp d desc
  have runs : exec i s = run (lawLanes x op (if add then some x.c else none) dest) s := by
    cases add <;> rfl
  have values : (List.range (sl s).vlanes).map (fun l => match (if add then some x.c else none : Option (BitVec 8)) with
      | some c => (sl s).elem ((sl s).vbyte (vNo c) l) 32
      | none => 0) = vals := by
    cases add <;> rfl
  have checked : exec i s = finish s ((lanesRest x op (if add then some x.c else none) dest (sl s) (val x.a s) (issued s)).map
      (fun p => ((), retire x.h p.1 p.2))) := by
    rw [runs]
    refine run_lawLanes (fun b h => vectors b ?_) r ha hb view
    cases add <;> exact h
  exact ⟨fun good => checked.trans (congrArg (fun e => finish s (Except.map _ e)) (lanesRest_good room width rfl placed values rfl rfl rfl good)),
    fun l ls bad => checked.trans (congrArg (fun e => finish s (Except.map _ e)) (lanesRest_bad room width rfl placed values rfl rfl rfl bad))⟩

/-- Settles O30: the lanes' places pass their checks lane by lane, and LWSCAN's operation leaves the slot at issue. -/
theorem lawLanesAndSweeps : Obligations.LawLanesAndSweeps := ⟨lawLanes_claim, descriptorsAndSweeps⟩

end Sys2Proof.Claim
end

section
/-! PROOFS. Core images, the capability table, planted errors, monitors, slice counters and HCALL (R6 to R8, R324, R345, R348, R357, R362). -/
namespace Sys2Proof.Claim
open Machine

theorem allowed_privileged_uses {rd wr : List Rng} {pops : List (BitVec 8 × Acc)} {s : State} (privileged : Privileged s) (regs : ∀ p ∈ pops, IsReg p.1 s) :
    Allowed { rd := rd, wr := wr, pops := pops, priv := true } s := ⟨rfl, fun _ => privileged, nofun, regs⟩

/-! ## CAPSET (R324) -/

section
variable {x : MW} {s : State} {a b v : Nat} (r : Ready x.h s) (ha : IsReg x.a s) (hb : IsReg x.b s) (hc : IsReg x.c s) (privileged : Privileged s)
  (base : val x.a s = a) (count : val x.b s = b) (value : val x.c s = v) (owner : bits v 14 2 ≠ 3) (short : v < 2 ^ 16)

/-- The entry is written and the registers move on. -/
def capPut (x : MW) (a b v k e : Nat) (m : Mach) : Mach :=
  (engStore (cellsAt e (toLE 2 v)) m).updSlot k (fun y => y.poke (gCells (gNo x.a) ((a + 4096) % 2 ^ 64) ++ gCells (gNo x.b) (b - 1)))

theorem streams_poke (y : Slot) (l : List (Nat × Nat)) : (y.poke l).streams = y.streams := by
  unfold Slot.poke Slot.note
  dsimp only
  split <;> rfl

theorem streams_capPut (x : MW) (a b v e : Nat) (m : Mach) : (capPut x a b v m.cur e m).sl.streams = m.sl.streams := by
  have stored := slotPart_engStore (cellsAt e (toLE 2 v)) m
  unfold capPut
  rw [← cur_of_slotPart stored, sl_updSlot_cur, streams_poke, sl_of_slotPart stored]

/-- What CAPSET does with an entry that it has found. -/
def capRest (x : MW) (a b v : Nat) (streams : Tab Stream) (o : Option Nat) : M (Option Nat) :=
  match o with
  | none => trap 0x18 0
  | some e => do
    accessGate
    change (setCap e v)
    changeMine (fun s => s.poke (gCells (gNo x.a) ((a + 4096) % 2 ^ 64) ++ gCells (gNo x.b) (b - 1)))
    if b = 1 then pure none
    else
      changeMine (fun s => { s with streams := streams })
      restart

include r ha hb hc privileged base count value owner short

theorem exec_capset_rest : exec (.capset x) s = finish s ((if b = 0 then .ok (none, issued s)
    else capRest x a b v s.m.sl.streams (capEntryAt s.m.cx (addDisp a x.disp)) (issued s)).map (fun p => ((), retire x.h p.1 p.2))) := by
  have fields : (bits v 14 2 == 3 || decide (2 ^ 16 ≤ v)) = false := by
    rw [beq_eq_false_iff_ne.2 owner, decide_eq_false (Nat.not_le.2 short)]
    rfl
  refine (run_issue_finish r ha hb (allowed_privileged_uses privileged (List.forall_mem_singleton.2 hc))).trans ?_
  rw [bind_of (rdGp_issued ..), bind_of (rdGp_issued ..), bind_of (rdG_val hc), base, count, value, bind_of (trapIf_of fields ..)]
  split
  · rfl
  · rw [bind_of (get_apply _), issued_cx]
    cases capEntryAt s.m.cx (addDisp a x.disp) <;> rfl

theorem exec_capset_none (none_ : b = 0) : exec (.capset x) s = .next (after x.h none id s) := by
  rw [exec_capset_rest r ha hb hc privileged base count value owner short, if_pos none_]
  rfl

theorem exec_capset_outside (some_ : b ≠ 0) (outside : capEntryAt s.m.cx (addDisp a x.disp) = none) :
    exec (.capset x) s = .next { s with m := takeTrap s.m.cur 0x18 0 s.m.sl.retAddr s.m } := by
  rw [exec_capset_rest r ha hb hc privileged base count value owner short, if_neg some_, outside]
  rfl

variable {e : Nat} (entry : capEntryAt s.m.cx (addDisp a x.disp) = some e) (clear : Clear s)
include entry clear

theorem exec_capset_entry (some_ : b ≠ 0) : exec (.capset x) s = finish s (((if b = 1 then pure none
    else do
      changeMine (fun y => { y with streams := s.m.sl.streams })
      restart : M (Option Nat)) (capPut x a b v s.m.cur e (issued s))).map (fun p => ((), retire x.h p.1 p.2))) := by
  have stored : (setCap e v (issued s)).cur = s.m.cur := cur_of_slotPart (m := issued s) (slotPart_engStore ..)
  have moved : changeMine (fun s => s.poke (gCells (gNo x.a) ((a + 4096) % 2 ^ 64) ++ gCells (gNo x.b) (b - 1))) (setCap e v (issued s)) =
      .ok ((), capPut x a b v s.m.cur e (issued s)) := by
    rw [changeMine_apply, stored]
    rfl
  rw [exec_capset_rest r ha hb hc privileged base count value owner short, if_neg some_, entry, capRest, bind_of (accessGate_apply clear),
    bind_of (change_apply ..), bind_of moved]

theorem exec_capset_last (last : b = 1) : exec (.capset x) s = .next (after x.h none (capPut x a b v s.m.cur e) s) := by
  rw [exec_capset_entry r ha hb hc privileged base count value owner short entry clear (by omega), if_pos last]
  rfl

theorem exec_capset_more (more : 1 < b) : exec (.capset x) s = .next { s with m := atRestart (capPut x a b v s.m.cur e (issued s)) } := by
  have kept : (capPut x a b v s.m.cur e (issued s)).sl.streams = s.m.sl.streams := (streams_capPut x a b v e (issued s)).trans (by rw [issued_sl, sl_streams])
  rw [exec_capset_entry r ha hb hc privileged base count value owner short entry clear (by omega), if_neg more.ne', bind_of (changeMine_apply ..)]
  generalize capPut x a b v s.m.cur e (issued s) = m at kept ⊢
  show Host.Outcome.next (State.mk ((m.updSlot m.cur _).updSlot m.cur _) s.boot) = .next (State.mk (m.updSlot m.cur _) s.boot)
  rw [updSlot_updSlot]
  refine congrArg (fun m => Host.Outcome.next (State.mk m s.boot)) (updSlot_congr ?_)
  dsimp only
  rw [← kept]
  rfl

end

/-! ## ECCINJ (R345) -/

section
variable {x : MW} {s : State} {ea b : Nat} (r : Ready x.h s) (ha : IsReg x.a s) (hb : IsReg x.b s) (privileged : Privileged s) (idle : s.m.sl.ocSt = 0)
  (at_ : addDisp (val x.a s) x.disp = ea) (value : val x.b s = b) (short : b < 8)
include r ha hb privileged idle at_ value short

theorem exec_eccinj_scratchpad (kind : bits b 1 2 = 0) (window : InWindow ea 1 s) : exec (.eccinj x) s = .next (after x.h none (fun m =>
    { m with plantSp := (spPlace s.m.curCore ea / 8 * 8, bitAt b 0) :: m.plantSp.filter (·.1 != spPlace s.m.curCore ea / 8 * 8) }) s) := by
  have fields : (decide (8 ≤ b) || bits b 1 2 == 3) = false := by rw [decide_eq_false (Nat.not_le.2 short), kind]; rfl
  refine run_issue_after r ha hb (allowed_privileged_uses privileged (List.forall_mem_singleton.2 hb)) ?_
  rw [bind_of (rdGp_issued ..), bind_of (rdG_val hb), at_, value, bind_of (trapIf_of fields ..), bind_of (drain_stores_none idle), bind_of (get_apply _),
    if_pos kind, bind_of (trapIf_of window ..)]
  rfl

variable {pa : Nat} (maps : Maps ea .write pa s)
include maps

theorem exec_eccinj_line (kind : bits b 1 2 = 1) (here : present (issued s) pa = true) : exec (.eccinj x) s = .next (after x.h none (fun m =>
    { m with plantL2 := (pa / 8 * 8, bitAt b 0) :: m.plantL2.filter (·.1 != pa / 8 * 8) }) s) := by
  have fields : (decide (8 ≤ b) || bits b 1 2 == 3) = false := by rw [decide_eq_false (Nat.not_le.2 short), kind]; rfl
  have shown : (!present (issued s) pa) = false := by rw [here]; rfl
  refine run_issue_after r ha hb (allowed_privileged_uses privileged (List.forall_mem_singleton.2 hb)) ?_
  rw [bind_of (rdGp_issued ..), bind_of (rdG_val hb), at_, value, bind_of (trapIf_of fields ..), bind_of (drain_stores_none idle), bind_of (get_apply _),
    if_neg (by rw [kind]; decide), bind_of (xlate_maps maps), if_pos kind, bind_of (trapIf_of shown ..)]
  rfl

theorem exec_eccinj_hbm (kind : bits b 1 2 = 2) : exec (.eccinj x) s = .next (after x.h none (fun m =>
    { m with plantHbm := (pa / 8 * 8, bitAt b 0) :: m.plantHbm.filter (·.1 != pa / 8 * 8) }) s) := by
  have fields : (decide (8 ≤ b) || bits b 1 2 == 3) = false := by rw [decide_eq_false (Nat.not_le.2 short), kind]; rfl
  refine run_issue_after r ha hb (allowed_privileged_uses privileged (List.forall_mem_singleton.2 hb)) ?_
  rw [bind_of (rdGp_issued ..), bind_of (rdG_val hb), at_, value, bind_of (trapIf_of fields ..), bind_of (drain_stores_none idle), bind_of (get_apply _),
    if_neg (by rw [kind]; decide), bind_of (xlate_maps maps), if_neg (by rw [kind]; decide)]
  rfl

end

/-! ## PMREAD, SLICEQ and HCALL (R6 to R8, R357, R362) -/

theorem exec_pmread {x : YW} {s : State} (r : Ready x.h s) (hd : IsReg x.d s) : exec (.pmread x) s = .next (after x.h none (lands .ready (known (gCells (gNo x.d)
    (if s.m.cx.det then 0
      else monitorValue s.m (bits x.imm.toNat 0 4) (bits x.imm.toNat 4 4) (bits x.imm.toNat 8 8) % 2 ^ 64)))) s) := by
  refine run_issue_after r (isReg_zero s) (isReg_zero s) (allowed_of_regs (by simp [hd])) ?_
  rw [bind_of (get_apply _), issued_cx]
  exact bind_of (wrLand_issued hd)

/-- SLICEQ's request lies in the lines of the slice unit that it names. -/
theorem homeOf_unitPa {u : Nat} (low : u < 256) : homeOf (unitPa u) = u := by
  have die : bits (unitPa u) 18 4 = u / 16 := by unfold bits unitPa; omega
  have small : unitPa u < 2 ^ 22 := by unfold unitPa; omega
  have high : bits (unitPa u) 22 30 = 0 := by rw [bits, Nat.div_eq_of_lt small]; rfl
  have line : bits (unitPa u) 7 11 = u % 16 := by unfold bits unitPa; omega
  have group : u % 16 % 16 = u % 16 := Nat.mod_mod ..
  have rest : u % 16 / 16 = 0 := by omega
  have zeros : foldGroups 10 0 = 0 := by decide
  rw [homeOf, homeDie, fold, die, high, line, Nat.zero_mul, Nat.zero_add, foldGroups, group, rest, zeros, Nat.xor_zero]
  omega

theorem ctx_awaits (src : LandSrc) (places : List Nat) (m : Mach) : (awaits src places m).sl.ctx = m.sl.ctx := by
  show ((Mach.updSlot { m with nextId := m.nextId + 1 } m.cur _).slot m.cur).ctx = _
  rw [Mach.slot_updSlot_self]
  unfold Slot.note
  split <;> rfl

theorem exec_sliceq {x : YW} {s : State} (r : Ready x.h s) (ha : IsReg x.a s) (hb : IsReg x.b s) (hd : IsReg x.d s) (free : Free s) (room : s.m.sl.ocLd < 255)
    {pa : Nat} (unit : unitPa (val x.a s % 256) = pa) : exec (.sliceq x) s = .next (after x.h none (fun m =>
      addReq s.m.cur s.m.sl.ctx pa .sent (.query s.m.nextId (bitAt x.mod.toNat 0))
        (awaits .counted ((List.range 8).map (fun i => 8 * gNo x.d + i)) (countsLd m))) s) := by
  have room' : (issued s).sl.ocLd < 255 := by rw [issued_sl]; exact room
  have context : (awaits .counted ((List.range 8).map (fun i => 8 * gNo x.d + i)) (countsLd (issued s))).sl.ctx = s.m.sl.ctx := by
    rw [ctx_awaits, countsLd, sl_updSlot_cur, issued_sl]
    rfl
  refine run_issue_after r ha hb ⟨rfl, nofun, fun _ => free, by simp [ha, hd]⟩ ?_
  rw [bind_of (rdG_val ha), bind_of (resPlaces_issued hd), bind_of (countLd_room room'), bind_of (newLand_apply ..), unit]
  refine (bind_of (change_apply ..)).trans ?_
  rw [context]
  rfl

section
variable {x : YW} {s : State} (r : Ready x.h s) (ha : IsReg x.a s) (hb : IsReg x.b s) (hd : IsReg x.d s)
  (idle : s.m.sl.ocSt = 0 ∧ s.m.sl.ocAt = 0 ∧ s.m.sl.ocLw = 0)
include r ha hb hd idle

omit r ha hb hd in
theorem drain_writes : drain false true true true (issued s) = .ok ((), issued s) := by
  obtain ⟨st, at_, lw⟩ := idle
  simp [drain, bind_apply, st, at_, lw]

theorem exec_hcall_reply {v : Nat} (sent : s.m.sl.hcSent = true) (reply : s.m.sl.hcReply = some v) : exec (.hcall x) s = .next (after x.h none (fun m =>
    lands .ready (known (gCells (gNo x.d) v)) (m.updSlot m.cur (fun y => { y with hcSent := false, hcReply := none }))) s) := by
  have sent' : (issued s).sl.hcSent = true := by rw [issued_sl]; exact sent
  have reply' : (issued s).sl.hcReply = some v := by rw [issued_sl]; exact reply
  have reg : ((issued s).updSlot (issued s).cur (fun y => { y with hcSent := false, hcReply := none })).sl.stream x.d = none := by
    rw [sl_updSlot_cur]
    exact hd.issued
  refine run_issue_after r ha hb (allowed_of_regs (by simp [ha, hd])) ?_
  rw [bind_of (rdG_val ha), bind_of (drain_writes idle), bind_of (get_apply _), if_pos sent', reply']
  exact (bind_of (changeMine_apply ..)).trans (bind_of (wrLand_reg reg))

theorem exec_hcall_waits (sent : s.m.sl.hcSent = true) (reply : s.m.sl.hcReply = none) : exec (.hcall x) s = .next (waitsFor .reply s s.m) := by
  have sent' : (issued s).sl.hcSent = true := by rw [issued_sl]; exact sent
  have reply' : (issued s).sl.hcReply = none := by rw [issued_sl]; exact reply
  refine (run_issue_finish r ha hb (allowed_of_regs (by simp [ha, hd]))).trans ?_
  rw [bind_of (rdG_val ha), bind_of (drain_writes idle), bind_of (get_apply _), if_pos sent', reply']
  rfl

theorem exec_hcall_notifies (sent : s.m.sl.hcSent = false) (place : ringPlace s.m = true) : exec (.hcall x) s = .next (waitsFor .reply s
    ((notify 0x06 0 s.m.cx.asid s.m.curCore (slotOf s.m.cur) (x.imm.toNat % 2 ^ 16) (val x.a s) s.m).updSlot s.m.cur (fun y => { y with hcSent := true }))) := by
  have sent' : ¬ (issued s).sl.hcSent = true := by rw [issued_sl]; exact Bool.eq_false_iff.1 sent
  have room : (!ringPlace (issued s)) = false := congrArg not place
  refine (run_issue_finish r ha hb (allowed_of_regs (by simp [ha, hd]))).trans ?_
  rw [bind_of (rdG_val ha), bind_of (drain_writes idle), bind_of (get_apply _), if_neg sent', bind_of (blockIf_of room ..)]
  rfl

theorem exec_hcall_blocks (sent : s.m.sl.hcSent = false) (place : ringPlace s.m = false) : exec (.hcall x) s = .next (waitsFor .ringPlace s s.m) := by
  have sent' : ¬ (issued s).sl.hcSent = true := by rw [issued_sl]; exact Bool.eq_false_iff.1 sent
  have full : (!ringPlace (issued s)) = true := congrArg not place
  refine (run_issue_finish r ha hb (allowed_of_regs (by simp [ha, hd]))).trans ?_
  rw [bind_of (rdG_val ha), bind_of (drain_writes idle), bind_of (get_apply _), if_neg sent', full]
  rfl

end

theorem capabilitiesErrorsMonitorsHost : CapabilitiesErrorsMonitorsHost := by
  refine ⟨fun x s r ha hb hc privileged _ => ?_, fun x s r ha hb privileged idle => ?_, fun x s r hd => exec_pmread r hd,
    fun x s r ha hb hd free room => ⟨homeOf_unitPa (Nat.mod_lt _ (by decide)), exec_sliceq r ha hb hd free room rfl⟩,
    fun x s r ha hb hd st at_ lw => ⟨fun v => exec_hcall_reply r ha hb hd ⟨st, at_, lw⟩, exec_hcall_waits r ha hb hd ⟨st, at_, lw⟩,
      exec_hcall_notifies r ha hb hd ⟨st, at_, lw⟩, exec_hcall_blocks r ha hb hd ⟨st, at_, lw⟩⟩⟩
  · intro a b v put owner short
    exact ⟨exec_capset_none r ha hb hc privileged rfl rfl rfl owner short, fun e entry clear =>
        ⟨exec_capset_last r ha hb hc privileged rfl rfl rfl owner short entry clear, exec_capset_more r ha hb hc privileged rfl rfl rfl owner short entry clear⟩,
      exec_capset_outside r ha hb hc privileged rfl rfl rfl owner short⟩
  · intro ea b uc short
    exact ⟨exec_eccinj_scratchpad r ha hb privileged idle rfl rfl short, fun pa maps =>
      ⟨exec_eccinj_line r ha hb privileged idle rfl rfl short maps, exec_eccinj_hbm r ha hb privileged idle rfl rfl short maps⟩⟩

/-! ## Core images (R348) -/

section
variable {x : MW} {s : State} {c core : Nat} {pas : List Nat} (r : Ready x.h s) (ha : IsReg x.a s) (hb : IsReg x.b s) (privileged : Privileged s)

theorem imageArgs_issued {acc : Acc} (image : Image x acc c core pas s) (clear : Clear s)
    (allowed : (if acc == .write then (coreSlots (issued s) c core).isEmpty || (coreSlots (issued s) c core).any (fun e => e.2.run != .stopped)
      else !(coreSlots (issued s) c core).isEmpty || ((s.m.ctx c).kept.filter (fun e => coreOf e.1 == core)).isEmpty ||
        ((s.m.ctx c).kept.filter (fun e => coreOf e.1 == core)).any (fun e => ((issued s).slot e.1).run != .free)) = false) :
    imageArgs acc (val x.b s) (addDisp (val x.a s) x.disp) (issued s) = .ok ((c, core, pas), issued s) := by
  obtain ⟨aligned, named, ⟨rfl, member⟩, high, other, tr, pages, maps, rfl⟩ := image
  have owner : imageOwner (val x.b s) (issued s) = .ok (c, issued s) := by
    have named' : (issued s).ctxOfAsid (val x.b s % 2 ^ 16) = some c := named
    unfold imageOwner
    rw [bind_of (get_apply _), named']
    rfl
  have fields : (bits (val x.b s) 30 34 != 0 || !((issued s).ctx c).cores.contains (bits (val x.b s) 16 14)) = false := by
    have member' : ((issued s).ctx c).cores.contains (bits (val x.b s) 16 14) = true := member
    rw [high, member']
    rfl
  have foreign : (c == (issued s).sl.ctx) = false := by
    rw [issued_sl, sl_ctx]
    exact beq_eq_false_iff_ne.2 other
  have looked : xlateAll ((pagesOf (addDisp (val x.a s) x.disp) imageSize).map (fun v => (v, acc))) (issued s) = .ok (tr.map (·.2), issued s) := by
    have all := xlateAll_maps (tr.map (fun p => (p.1, acc, p.2))) (fun p hp => by
      obtain ⟨q, hq, rfl⟩ := List.mem_map.1 hp
      exact maps q hq)
    rw [List.map_map, List.map_map] at all
    rw [← pages, List.map_map]
    exact all
  unfold imageArgs
  rw [bind_of (accessGate_apply clear), bind_of (trapIf_of (misaligned_eq.2 aligned) ..), bind_of owner, bind_of (get_apply _),
    bind_of (trapIf_of fields ..), bind_of (trapIf_of foreign ..)]
  exact (bind_of (trapIf_of allowed ..)).trans (bind_of looked)

include r ha privileged

theorem exec_ctxsave_kept (hb : IsReg x.b s) (mid : s.m.sl.mid = true) (idle : s.m.sl.ocSt = 0) : exec (.ctxsave x) s = .next (after x.h none keepImage s) := by
  have mid' : (issued s).sl.mid = true := by rw [issued_sl]; exact mid
  have zero : ((issued s).sl.ocSt != 0) = false := by rw [issued_sl, sl_ocSt, idle]; rfl
  refine run_issue_after r ha hb (allowed_privileged_uses privileged ?_) ?_
  · split <;> simp [hb]
  · rw [bind_of (get_apply _), if_pos mid', bind_of (blockIf_of zero ..)]
    rfl

theorem exec_ctxsave_waits (hb : IsReg x.b s) (mid : s.m.sl.mid = true) (busy : s.m.sl.ocSt ≠ 0) :
    exec (.ctxsave x) s = .next (waitsFor (.counter 1 0) s s.m) := by
  have mid' : (issued s).sl.mid = true := by rw [issued_sl]; exact mid
  have some_ : ((issued s).sl.ocSt != 0) = true := by rw [issued_sl, sl_ocSt]; exact bne_iff_ne.2 busy
  refine (run_issue_finish r ha hb (allowed_privileged_uses privileged ?_)).trans ?_
  · split <;> simp [hb]
  · rw [bind_of (get_apply _), if_pos mid', some_]
    rfl

include hb

theorem exec_ctxsave_sends (image : Image x .write c core pas s) (clear : Clear s) (room : RoomSt s) (mid : s.m.sl.mid = false)
    (some_ : coreSlots (issued s) c core ≠ []) (stopped : ∀ e ∈ coreSlots (issued s) c core, e.2.run = .stopped) :
    exec (.ctxsave x) s = .next (.mk (sendImage c core (addDisp (val x.a s) x.disp) pas (s.m.cur + 2 ^ 16 * (s.m.nextId + 1)) x.h.ch.toNat
      (bumpSt s.m.cur { issued s with nextId := s.m.nextId + 1 })) s.boot) := by
  have mid' : ¬ (issued s).sl.mid = true := by rw [issued_sl]; exact Bool.eq_false_iff.1 mid
  have args := imageArgs_issued image clear (by
    rw [if_pos (by rfl)]
    refine Bool.or_eq_false_iff.2 ⟨List.isEmpty_eq_false_iff.2 some_, List.any_eq_false.2 fun e he => ?_⟩
    rw [stopped e he]
    decide)
  have stored : countStore (issued s) = .ok (s.m.cur + 2 ^ 16 * (s.m.nextId + 1), bumpSt s.m.cur { issued s with nextId := s.m.nextId + 1 }) := by
    unfold countStore
    rw [bind_of (roomSt_apply room), bind_of (freshId_apply _)]
    rfl
  refine (run_issue_finish r ha hb (allowed_privileged_uses privileged ?_)).trans ?_
  · split <;> simp [hb]
  · rw [bind_of (get_apply _), if_neg mid', bind_of (rdGp_issued ..), bind_of (rdG_val hb), bind_of args, bind_of stored]
    generalize 2 ^ 16 * (s.m.nextId + 1) = token
    rfl

section
variable {bytes : List Nat} {m1 : Mach} (image : Image x .read c core pas s) (clear : Clear s)
  (lines : bringLaw (linesAt (addDisp (val x.a s) x.disp) pas imageSize) x.h.ch.toNat (issued s) = .ok ((), issued s))
  (empty : coreSlots (issued s) c core = []) (some_ : (s.m.ctx c).kept.filter (fun e => coreOf e.1 == core) ≠ [])
  (unused : ∀ e ∈ (s.m.ctx c).kept.filter (fun e => coreOf e.1 == core), ((issued s).slot e.1).run = .free)
  (place : engBytes (addDisp (val x.a s) x.disp) pas imageSize = bytes) (found : engFind bytes (issued s) = m1)
  (sound : (bytes.drop 0x40000).find? (poisonAt m1) = none)
include image clear lines empty some_ unused place found sound

theorem exec_ctxload_rest {o : Option Mach} (loaded : loadCore c core (imageAt m1 bytes).1 (imageAt m1 bytes).2 m1 = o) :
    exec (.ctxload x) s = o.elim (.next { s with m := takeTrap s.m.cur 0x42 0 s.m.sl.retAddr s.m }) (fun m2 => .next (after x.h none (fun _ =>
      m2.updCtx c (fun y => if y.kept.isEmpty && y.st == .saved then { y with st := .stopped } else y)) s)) := by
  have args := imageArgs_issued image clear (by
    rw [if_neg (by decide), empty]
    refine Bool.or_eq_false_iff.2 ⟨Bool.or_eq_false_iff.2 ⟨rfl, List.isEmpty_eq_false_iff.2 some_⟩, List.any_eq_false.2 fun e he => ?_⟩
    rw [unused e he]
    decide)
  refine (run_issue_finish r ha hb (allowed_privileged_uses privileged (List.forall_mem_singleton.2 hb))).trans ?_
  rw [bind_of (rdGp_issued ..), bind_of (rdG_val hb), bind_of args, bind_of lines, place, bind_of (change_apply ..), found, bind_of (get_apply _)]
  rw [sound]
  dsimp only
  rw [loaded]
  cases o <;> rfl

end
end

theorem contextImages : ContextImages := by
  intro x s c core pas r ha hb privileged here kept ea bytes m1 sent
  refine ⟨fun image clear room mid some_ stopped => exec_ctxsave_sends r ha hb privileged image clear room mid some_ stopped,
    fun mid => ⟨exec_ctxsave_kept r ha privileged hb mid, exec_ctxsave_waits r ha privileged hb mid⟩,
    fun image clear lines empty some_ unused sound => ⟨fun m2 loaded => ?_, fun loaded => ?_⟩⟩
  · exact exec_ctxload_rest r ha hb privileged image clear lines empty some_ unused rfl rfl sound loaded
  · exact exec_ctxload_rest r ha hb privileged image clear lines empty some_ unused rfl rfl sound loaded

/-- Settles O38. -/
theorem imagesErrorsMonitorsAndHost : Obligations.ImagesErrorsMonitorsAndHost := ⟨contextImages, capabilitiesErrorsMonitorsHost⟩

end Sys2Proof.Claim
end

section
/-! PROOFS. The conjunction engine's table, ring and images (R186, R192, R200 to R208). -/
namespace Sys2Proof.Claim
open Machine

/-! ## One command at a time (R186, R187) -/

theorem Engine.serves {s : State} (e : Engine s) : engineHeld s.m s.m.cur = false := by
  unfold engineHeld
  refine Bool.or_eq_false_iff.2 ⟨?_, List.any_eq_false.2 fun c hc held => ?_⟩
  · have own := e.free
    change (match s.m.cj.busy with
      | some j => j != s.m.cur
      | none => false) = false
    cases busy : s.m.cj.busy with
    | none => rfl
    | some k => exact bne_eq_false_iff_eq.2 (own k busy)
  · simp only [Bool.and_eq_true, beq_iff_eq] at held
    obtain ⟨⟨⟨timeline, core⟩, context⟩, -⟩ := held
    exact e.done c hc ⟨timeline, core, context⟩

theorem cjWait_engine {s : State} (e : Engine s) : cjWait (issued s) = .ok ((), issued s) := cjWait_issued e.serves e.clear

theorem freeOnTrap_of {α : Type} {x : M α} {m : Mach} {p : α × Mach} (h : x m = .ok p) : freeOnTrap x m = .ok p := by
  unfold freeOnTrap
  rw [h]

theorem freeOnTrap_block {α : Type} {x : M α} {m : Mach} {w : Wait} (h : x m = .error (.block w)) : freeOnTrap x m = .error (.block w) := by
  unfold freeOnTrap
  rw [h]

theorem freeOnTrap_stay {α : Type} {x : M α} {m m1 : Mach} (h : x m = .error (.stay m1)) : freeOnTrap x m = .error (.stay m1) := by
  unfold freeOnTrap
  rw [h]

theorem freeOnTrap_trap {α : Type} {x : M α} {m : Mach} {c v : Nat} (h : x m = .error (.trap c v)) :
    freeOnTrap x m = .error (.trapAt (if m.cj.busy == some m.cur then setBusy none m else m) c v m.sl.retAddr) := by
  unfold freeOnTrap
  rw [h]

/-! ## Geometry and emptying (R192, R202, R203) -/

section
variable {x : JW} {s : State} (r : Ready x.h s) (engine : Engine s)
include r engine

theorem exec_cjcfg (ha : IsReg x.a s) (hb : IsReg x.b s) {p : Pair} (geometry : s.m.cj.configured x.mod.toNat (val x.a s) = p)
    (good : ringBad (issued s) s.m.cur (val x.a s) p.recSize = none) :
    exec (.cjcfg x) s = .next (after x.h none (fun m => completeCj (m.setCj p)) s) := by
  refine run_issue_after r ha hb (allowed_of_regs (by simp)) ?_
  rw [bind_of (issuerOnly_ok engine.issuer), bind_of (rdGp_issued ..), bind_of (cjWait_engine engine)]
  refine freeOnTrap_of ?_
  rw [bind_of (get_apply _), issued_cj, geometry, issued_cur, good]
  rfl

theorem exec_acclr : exec (.acclr x) s = .next (after x.h none (fun m => completeCj (m.setCj { Pair.emptied s.m.cj with
    group := if bitAt x.mod.toNat 0 then none else s.m.cj.group })) s) := by
  refine run_issue_after r (isReg_zero s) (isReg_zero s) (allowed_of_regs (by simp)) ?_
  rw [bind_of (issuerOnly_ok engine.issuer), bind_of (cjWait_engine engine)]
  refine (bind_of (change_apply ..)).trans ?_
  rw [issued_cj]
  rfl

theorem exec_spillst (hd : IsReg x.d s) : exec (.spillst x) s = .next (after x.h none (fun m =>
    setBusy none (lands .ready (known (gCells (gNo x.d) (s.m.cj.held + s.m.cj.high * 2 ^ 16 + s.m.cj.rcap * 2 ^ 32))) m)) s) := by
  refine run_issue_after r (isReg_zero s) (isReg_zero s) (allowed_of_regs (by simp [hd])) ?_
  rw [bind_of (issuerOnly_ok engine.issuer), bind_of (cjWait_engine engine), bind_of (get_apply _), issued_cj, bind_of (wrLand_issued hd)]
  rfl

end

/-! ## Draining (R200, R201) -/

theorem ringRecords_issued {s : State} (sound : ∀ i < s.m.cj.held,
      Sound (s.m.cj.roff + (s.m.cj.ringHead + i) % (max s.m.cj.rcap 1) * s.m.cj.recSize) s.m.cj.recSize s) :
    ringRecords (issued s) = .ok (ringList s, issued s) := by
  have reads : ∀ (l : List Nat) (acc : List (Nat × List Nat)), (∀ i ∈ l, i < s.m.cj.held) →
      (l.foldlM (fun acc i => do
        let l ← spRead (s.m.cj.roff + (s.m.cj.ringHead + i) % (max s.m.cj.rcap 1) * s.m.cj.recSize) s.m.cj.recSize
        pure (acc ++ [(ofLE (l.take 8), (List.range (s.m.cj.w * s.m.cj.w)).map (fun j => ofLE ((l.drop (16 + 16 * j)).take 16)))])) acc : M _) (issued s) =
      .ok (acc ++ l.map (fun i =>
        let l := s.m.spad.rdN (spPlace s.m.curCore (s.m.cj.roff + (s.m.cj.ringHead + i) % (max s.m.cj.rcap 1) * s.m.cj.recSize)) s.m.cj.recSize
        (ofLE (l.take 8), (List.range (s.m.cj.w * s.m.cj.w)).map (fun j => ofLE ((l.drop (16 + 16 * j)).take 16)))), issued s) := by
    intro l
    induction l with
    | nil =>
      intro acc _
      rw [List.map_nil, List.append_nil]
      rfl
    | cons i l ih =>
      intro acc inside
      obtain ⟨here, rest⟩ := List.forall_mem_cons.1 inside
      rw [List.foldlM_cons, bind_of (bind_of (spRead_issued (sound i here)))]
      rw [ih _ rest, List.map_cons, List.append_assoc]
      rfl
  unfold ringRecords
  rw [bind_of (get_apply _), issued_cj]
  exact reads _ [] fun i hi => List.mem_range.1 hi

section
variable {x : JW} {s : State} (r : Ready x.h s) (ha : IsReg x.a s) (hb : IsReg x.b s) (engine : Engine s)
include r ha hb engine

theorem run_drainOp {size : Nat} {cell : Pair → Nat → Nat} {clear : Bool} {n : Nat} (hd : IsReg x.d s) (count : s.m.cj.table.length + s.m.cj.held = n)
    (alignedA : val x.a s % 8 = 0) (alignedB : val x.b s % size = 0) (windowA : InWindow (val x.a s) (8 * n) s)
    (windowB : InWindow (val x.b s) (size * n * s.m.cj.w * s.m.cj.w) s) (sound : ∀ i < s.m.cj.held,
      Sound (s.m.cj.roff + (s.m.cj.ringHead + i) % (max s.m.cj.rcap 1) * s.m.cj.recSize) s.m.cj.recSize s) {out : List (Nat × List Nat)}
    (merged : mergedCells s.m.cj (ringList s) = out) :
    run (drainOp x size cell clear) s = .next (after x.h none (fun m =>
      let m := storeSp (cellsAt (spPlace s.m.curCore (val x.a s)) ((out.map (fun e => toLE 8 e.1)).flatten)) m
      let m := storeSp (cellsAt (spPlace s.m.curCore (val x.b s)) ((out.map (fun e => (e.2.map (fun c => toLE size (cell s.m.cj c))).flatten)).flatten)) m
      let m := if clear then m.setCj (Pair.emptied m.cj) else m
      completeCj (lands .ready (known (gCells (gNo x.d) out.length)) m)) s) := by
  refine run_issue_after r ha hb (allowed_of_regs (by simp [hd])) ?_
  rw [bind_of (issuerOnly_ok engine.issuer), bind_of (rdGp_issued ..), bind_of (rdGp_issued ..), bind_of (cjWait_engine engine)]
  refine freeOnTrap_of ?_
  rw [bind_of (get_apply _), issued_cj, count, bind_of (trapIf_of (misaligned_eq.2 alignedA) ..), bind_of (trapIf_of (misaligned_eq.2 alignedB) ..),
    bind_of (trapIf_of windowA ..), bind_of (trapIf_of windowB ..), bind_of (ringRecords_issued sound), merged, bind_of (spWrite_apply ..),
    bind_of (spWrite_apply ..), bind_of (change_apply ..)]
  refine bind_of (wrLand_reg ?_)
  cases clear <;> exact hd.issued

/-! ## Saving (R207) -/

theorem exec_cjsave_completes (mid : s.m.sl.mid = true) (idle : s.m.sl.ocSt = 0) : exec (.cjsave x) s = .next (after x.h none completeCj s) := by
  have mid' : (issued s).sl.mid = true := by rw [issued_sl]; exact mid
  have zero : ((issued s).sl.ocSt != 0) = false := by rw [issued_sl, sl_ocSt, idle]; rfl
  refine run_issue_after r ha hb (allowed_of_regs (by simp)) ?_
  rw [bind_of (issuerOnly_ok engine.issuer), bind_of (rdGp_issued ..), bind_of (cjWait_engine engine)]
  refine freeOnTrap_of ?_
  rw [bind_of (get_apply _), if_pos mid', bind_of (blockIf_of zero ..)]
  rfl

theorem exec_cjsave_waits (mid : s.m.sl.mid = true) (busy : s.m.sl.ocSt ≠ 0) : exec (.cjsave x) s = .next (waitsFor (.counter 1 0) s s.m) := by
  have mid' : (issued s).sl.mid = true := by rw [issued_sl]; exact mid
  have some_ : ((issued s).sl.ocSt != 0) = true := by rw [issued_sl, sl_ocSt]; exact bne_iff_ne.2 busy
  refine (run_issue_finish r ha hb (allowed_of_regs (by simp))).trans ?_
  rw [bind_of (issuerOnly_ok engine.issuer), bind_of (rdGp_issued ..), bind_of (cjWait_engine engine), freeOnTrap_block (w := .counter 1 0)]
  · rfl
  · rw [bind_of (get_apply _), if_pos mid', some_]
    rfl

omit r ha hb engine in
theorem areaPas_issued {a : Nat} {acc : Acc} {pas : List Nat} (aligned : a % 4096 = 0) (area : Area a areaSize acc pas s) :
    areaPas a acc (issued s) = .ok (pas, issued s) := by
  obtain ⟨⟨tr, pages, maps, rfl⟩, held⟩ := area
  have owned : (if acc == .write then capCheck a areaSize else pure () : M Unit) (issued s) = .ok ((), issued s) := by
    cases acc with
    | write => exact capCheck_apply (held rfl)
    | read => rfl
    | fetch => rfl
  have looked : xlateAll ((pagesOf a areaSize).map (fun v => (v, acc))) (issued s) = .ok (tr.map (·.2), issued s) := by
    have all := xlateAll_maps (tr.map (fun p => (p.1, acc, p.2))) (fun p hp => by
      obtain ⟨q, hq, rfl⟩ := List.mem_map.1 hp
      exact maps q hq)
    rw [List.map_map, List.map_map] at all
    rw [← pages, List.map_map]
    exact all
  unfold areaPas
  rw [bind_of (trapIf_of (misaligned_eq.2 aligned) ..)]
  rw [ite_act, bind_of owned]
  exact looked

theorem exec_cjsave_sends {a : Nat} {pas : List Nat} (base : val x.a s = a) (mid : s.m.sl.mid = false) (room : RoomSt s) (aligned : a % 4096 = 0)
    (area : Area a areaSize .write pas s) : exec (.cjsave x) s = .next (.mk (saveCj a pas (s.m.cur + 2 ^ 16 * (s.m.nextId + 1))
      (setBusy (some s.m.cur) (bumpSt s.m.cur { issued s with nextId := s.m.nextId + 1 }))) s.boot) := by
  have mid' : ¬ (issued s).sl.mid = true := by rw [issued_sl]; exact Bool.eq_false_iff.1 mid
  have stored : countStore (issued s) = .ok (s.m.cur + 2 ^ 16 * (s.m.nextId + 1), bumpSt s.m.cur { issued s with nextId := s.m.nextId + 1 }) := by
    unfold countStore
    rw [bind_of (roomSt_apply room), bind_of (freshId_apply _)]
    rfl
  generalize s.m.cur + 2 ^ 16 * (s.m.nextId + 1) = token at stored ⊢
  refine (run_issue_finish r ha hb (allowed_of_regs (by simp))).trans ?_
  rw [bind_of (issuerOnly_ok engine.issuer), bind_of (rdGp_issued ..), base, bind_of (cjWait_engine engine), freeOnTrap_stay]
  · rfl
  · rw [bind_of (get_apply _), if_neg mid', bind_of (areaPas_issued aligned area), bind_of stored, bind_of (change_apply ..)]
    rfl

end

/-! ## Loading (R208) -/

/-- Issue leaves where a trap returns to. -/
theorem retAddr_sl (s : State) : (sl s).retAddr = s.m.sl.retAddr := by
  have same : (sl s).inRep = s.m.sl.inRep := rfl
  unfold Slot.retAddr Slot.atReturn
  rw [same]
  cases s.m.sl.inRep <;> rfl

section
variable {x : JW} {s : State} (r : Ready x.h s) (ha : IsReg x.a s) (hb : IsReg x.b s) (engine : Engine s)
include r ha hb engine

section
variable {a : Nat} {pas bytes : List Nat} {m : Mach} {img : Mem} {q : Pair} (base : val x.a s = a) (aligned : a % 4096 = 0) (area : Area a areaSize .read pas s)
  (lines : bringLaw (linesAt a pas areaSize) x.h.ch.toNat (issued s) = .ok ((), issued s))
  (read : engRead s.m.cur (engBytes a pas areaSize) (issued s) = .ok (bytes, m)) (image : Mem.wrAll [] (cellsAt 0 bytes) = img) (parsed : cjParse m.cj img = q)
include base aligned area lines read image parsed

theorem exec_cjload (good : cjLimits m m.cur q = true) (exact_ : cjImage q = img) :
    exec (.cjload x) s = .next (after x.h none (fun _ => completeCj (m.setCj q)) s) := by
  have fields : (!cjLimits m m.cur q || cjImage q != img) = false := by rw [good, exact_, bne_self_eq_false]; rfl
  refine run_issue_after r ha hb (allowed_of_regs (by simp)) ?_
  rw [bind_of (issuerOnly_ok engine.issuer), bind_of (rdGp_issued ..), base, bind_of (cjWait_engine engine)]
  refine freeOnTrap_of ?_
  rw [bind_of (areaPas_issued aligned area), bind_of lines]
  refine (bind_of (a := s.m.cur) rfl).trans ?_
  rw [bind_of read, bind_of (get_apply _), image, parsed, bind_of (trapIf_of fields ..)]
  rfl

theorem exec_cjload_bad (bad : cjLimits m m.cur q = false ∨ cjImage q ≠ img) : exec (.cjload x) s = .next (trapsCj 0x2B s) := by
  have fields : (!cjLimits m m.cur q || cjImage q != img) = true := by
    rcases bad with limits | other
    · rw [limits]; rfl
    · rw [bne_iff_ne.2 other, Bool.or_true]
  refine (run_issue_finish r ha hb (allowed_of_regs (by simp))).trans ?_
  rw [bind_of (issuerOnly_ok engine.issuer), bind_of (rdGp_issued ..), base, bind_of (cjWait_engine engine), freeOnTrap_trap (c := 0x2B) (v := 0)]
  · unfold trapsCj
    rw [issued_cj, issued_cur, issued_sl, retAddr_sl]
    split <;> rfl
  · rw [bind_of (areaPas_issued aligned area), bind_of lines]
    refine (bind_of (a := s.m.cur) rfl).trans ?_
    rw [bind_of read, bind_of (get_apply _), image, parsed, fields]
    rfl

end
end

theorem conjunctionWords : Claim.ConjunctionTable := by
  intro x s r ha hb engine a b p n out drained whole
  refine ⟨exec_cjcfg r engine ha hb rfl, fun ⟨hd, alignedA, alignedB, windowA, windowB, sound⟩ => ?_, fun ⟨hd, alignedA, alignedB, windowA, windowB, sound⟩ => ?_,
    exec_acclr r engine, exec_spillst r engine, fun pas mid room aligned area => exec_cjsave_sends r ha hb engine rfl mid room aligned area,
    fun mid => ⟨exec_cjsave_completes r ha hb engine mid, exec_cjsave_waits r ha hb engine mid⟩,
    fun pas bytes m aligned area lines read => ⟨exec_cjload r ha hb engine rfl aligned area lines read rfl rfl,
      exec_cjload_bad r ha hb engine rfl aligned area lines read rfl rfl⟩⟩
  · exact run_drainOp r ha hb engine hd rfl alignedA alignedB windowA windowB sound rfl
  · exact run_drainOp r ha hb engine hd rfl alignedA alignedB windowA windowB sound rfl

/-! ## Cores that are no issuers (R186) -/

/-- A word that nothing holds and whose body stops, whatever its marks name. -/
theorem run_issue_body_stops {h : Hdr} {a b : BitVec 8} {use : Slot → Use} {body : M (Option Nat)} {s : State} {e : Stop} (r : Ready h s)
    (free : useStop (issued s) (use (sl s)) = none) (stops : body (issued s) = .error e) : run (issue h a b use body) s = finish s (.error e) := by
  have at0 : s.m.updSlot s.m.cur Slot.atIssue = issued s := rfl
  unfold run
  simp only [issue, bind_apply, changeMine_apply, at0, mine_apply, issued_sl, id, r.passes, stopIf_none, r.guard, Bool.false_eq_true,
    if_false, get_apply, free, stops]

section
variable {x : JW} {s : State} (r : Ready x.h s) (due : ∀ p ∈ (sl s).pw, p.due ≤ s.m.sl.n) (other : isIssuer s.m.curCore = false)
include r due other

/-- A word that asks first whether its core is an issuer traps on one that is none. -/
theorem run_issuer_traps {a b : BitVec 8} {rd wr : List Rng} {pops : List (BitVec 8 × Machine.Acc)} {k : Unit → M (Option Nat)}
    (regs : ∀ p ∈ pops, (sl s).stream p.1 = none) : run (issue x.h a b (fun _ => { rd := rd, wr := wr, pops := pops }) (issuerOnly >>= k)) s =
    .next { s with m := takeTrap s.m.cur 0x24 0 s.m.sl.retAddr s.m } := by
  refine run_issue_body_stops r (useStop_none ?_ ?_ (by simp) (by simp) ?_) (stop_of (issuerOnly_trap other))
  · rw [issued_sl]; exact r.landed
  · rw [issued_sl]; exact fun _ => due
  · rw [issued_sl]; exact regs

end

theorem issuerTraps : IssuerTraps := by
  intro x s r due other i hi
  have plain : ∀ p ∈ ([] : List (BitVec 8 × Machine.Acc)), (sl s).stream p.1 = none := List.forall_mem_nil _
  rcases List.mem_append.1 hi with engine | drains
  · simp only [List.mem_cons, List.not_mem_nil, or_false] at engine
    rcases engine with rfl | rfl | rfl | rfl | rfl | rfl | rfl | rfl | rfl | rfl <;> exact run_issuer_traps r due other plain
  · split at drains
    next reg =>
      have stream : ∀ p ∈ [(x.d, Machine.Acc.write)], (sl s).stream p.1 = none := List.forall_mem_singleton.2 (Option.isNone_iff_eq_none.1 reg)
      simp only [List.mem_cons, List.not_mem_nil, or_false] at drains
      rcases drains with rfl | rfl | rfl <;> exact run_issuer_traps r due other stream
    · cases drains

/-- Settles O45. -/
theorem conjunctionTable : Obligations.ConjunctionTable := ⟨conjunctionWords, issuerTraps⟩

end Sys2Proof.Claim
end

section
/-! PROOFS. CONTRACT's steps (R168, R189, R194 to R199). -/
namespace Sys2Proof.Claim
open Machine

/-! ## CONTRACT at issue -/

/-- The four registers of CONTRACT's cursor. -/
def contractRegs (x : JW) (s : State) : List Nat := (List.range 4).map (fun i => (sl s).g (gNo x.d + i))

/-- CONTRACT at work. -/
def contractGo (x : JW) (s : State) : CjGo :=
  ⟨gNo x.d, s.m.cj, contractRegs x s, x.c.toNat, x.e.toNat, stripBytes x.fmt s.m.cj.w, x.h.ch.toNat⟩

/-- The next step of CONTRACT. -/
def contractStep (x : JW) (sa sb : Stream) (mid : Bool) (c : CjGo) : M (Option Nat) :=
  if !mid then contractStart x.fmt c sa sb
  else match c.p.group with
    | none => contractLoop x.fmt c
    | some g => match g.held with
      | some t => contractPair x.fmt c g t
      | none => if g.opening then contractOpen x c g sb else contractProbe x c g sa

/-- The marks that end the bindings of the streams in operands A and B (R15). -/
def unbindMarked (h : Hdr) (a b : BitVec 8) (m : Mach) : Mach :=
  let m := if h.la then m.updSlot m.cur (fun y => { y with streams := y.streams.del (sNo a) }) else m
  if h.lb then m.updSlot m.cur (fun y => { y with streams := y.streams.del (sNo b) }) else m

theorem actMark_stream {on : Bool} {b : BitVec 8} {v : Nat} {m : Mach} :
    actMark on false b true v m = .ok ((), if on then m.updSlot m.cur (fun y => { y with streams := y.streams.del (sNo b) }) else m) := by
  cases on <;> rfl

/-- A word of two bound streams that nothing holds ends as its body does, and its marks end the bindings. -/
theorem run_issue_streams {h : Hdr} {a b : BitVec 8} {use : Slot → Use} {body : M (Option Nat)} {s : State} {sa sb : Stream} (r : Ready h s)
    (boundA : (sl s).stream a = some sa) (boundB : (sl s).stream b = some sb) (free : useStop (issued s) (use (sl s)) = none)
    (handle : (use (sl s)).handleA = false) :
    run (issue h a b use body) s = finish s ((body (issued s)).map (fun p => ((), retire h p.1 (unbindMarked h a b p.2)))) := by
  have at0 : s.m.updSlot s.m.cur Slot.atIssue = issued s := rfl
  unfold run
  simp only [issue, bind_apply, changeMine_apply, at0, mine_apply, issued_sl, id, r.passes, stopIf_none, r.guard, Bool.false_eq_true,
    if_false, get_apply, free, handle, boundA, boundB, Option.isSome_some]
  congr 1
  cases body (issued s) with
  | error e => rfl
  | ok p =>
    dsimp only
    rw [actMark_stream]
    dsimp only
    rw [actMark_stream]
    rfl

section
variable {x : JW} {sa sb : Stream} {mid : Bool} {s : State} (c : Contracting x sa sb mid s)
include c

/-- CONTRACT does its next step. -/
theorem exec_contract : exec (.contract x) s = finish s ((freeOnTrap (contractStep x sa sb mid (contractGo x s)) (issued s)).map
    (fun p => ((), retire x.h p.1 (unbindMarked x.h x.a x.b p.2)))) := by
  have boundA : (sl s).stream x.a = some sa := c.a.1
  have boundB : (sl s).stream x.b = some sb := c.b.1
  have inputs : (sa.out || sb.out) = false := by rw [c.a.2, c.b.2]; rfl
  have same : (sl s).mid = mid := c.mid
  refine (run_issue_streams c.ready boundA boundB (useStop_none ?_ ?_ (by simp) (by simp) (List.forall_mem_nil _)) rfl).trans ?_
  · rw [issued_sl]; exact c.ready.landed
  · rw [issued_sl]; exact fun _ => c.written
  · rw [bind_of (issuerOnly_ok c.engine.issuer), bind_of (cjWait_engine c.engine)]
    unfold freeOnTrap
    rw [bind_of (get_apply _)]
    simp only [issued_sl, issued_cj, boundA, boundB]
    rw [bind_of (trapIf_of inputs ..), same]
    rfl

theorem exec_contract_traps {cause : Nat} (traps : contractStep x sa sb mid (contractGo x s) (issued s) = .error (.trap cause 0)) :
    exec (.contract x) s = .next (trapsCj cause s) := by
  rw [exec_contract c, freeOnTrap_trap traps, issued_cj, issued_cur, issued_sl, retAddr_sl]
  unfold trapsCj
  split <;> rfl

theorem exec_contract_waits {w : Wait} (waits : contractStep x sa sb mid (contractGo x s) (issued s) = .error (.block w)) :
    exec (.contract x) s = .next (waitsFor w s s.m) := by
  rw [exec_contract c, freeOnTrap_block waits]
  rfl

theorem exec_contract_steps {d : Nat} {r : List Nat} {p : Pair} {m : Mach}
    (steps : contractStep x sa sb mid (contractGo x s) (issued s) = cjUnit d r p m) : exec (.contract x) s = cjStep d r p m s := by
  rw [exec_contract c, freeOnTrap_stay steps]
  rfl

theorem exec_contract_completes {m : Mach} (done : contractStep x sa sb mid (contractGo x s) (issued s) = .ok (none, m)) :
    exec (.contract x) s = .next { s with m := retire x.h none (unbindMarked x.h x.a x.b m) } := by
  rw [exec_contract c, freeOnTrap_of done]
  rfl

end

/-! ## Beginning (R189, R194, R195) -/

theorem strips_fit {strip : Nat} {sa sb : Stream} :
    ((decide (strip < Ty.size sa.ty) || strip % Ty.size sa.ty != 0) || (decide (strip < Ty.size sb.ty) || strip % Ty.size sb.ty != 0)) = false ↔
      ∀ y ∈ [sa, sb], Ty.size y.ty ≤ strip ∧ strip % Ty.size y.ty = 0 := by
  simp only [Bool.or_eq_false_iff, decide_eq_false_iff_not, bne_eq_false_iff_eq, not_lt, List.forall_mem_cons, List.not_mem_nil, false_imp_iff,
    implies_true, and_true]

theorem engine_fits {p : Pair} {f : Fmt} : (!(p.table.isEmpty && p.held == 0) && p.cls != accClass f) = false ↔
    (p.table = [] ∧ p.held = 0) ∨ p.cls = accClass f := by
  rw [Bool.and_eq_false_iff, Bool.not_eq_false', Bool.and_eq_true, List.isEmpty_iff, beq_iff_eq, bne_eq_false_iff_eq]

theorem contractBegins : ContractBegins := by
  intro x sa sb s c
  refine ⟨fun fits mine => exec_contract_steps c ?_, fun other => exec_contract_traps c ?_, fun fits other => exec_contract_traps c ?_⟩
  · refine (bind_of (trapIf_of (strips_fit.2 fits) ..)).trans ((bind_of (trapIf_of (engine_fits.2 mine) ..)).trans ((bind_of (get_apply _)).trans ?_))
    refine congrArg (fun g => cjUnit (gNo x.d) (contractRegs x s) { s.m.cj with
      cls := accClass x.fmt, busy := some s.m.cur, from_ := s.m.nextId, group := g } (issued s)) ?_
    show (match s.m.cj.group with
      | some g => if g.cursor == contractRegs x s then some { g with opening := false } else none
      | none => none) = _
    cases s.m.cj.group with
    | none => rfl
    | some g =>
      dsimp only [Option.filter]
      unfold contractRegs
      split <;> rfl
  · exact stop_of (trapIf_of_true (Bool.eq_true_of_not_eq_false (fun fits => other (strips_fit.1 fits))) ..)
  · refine (bind_of (trapIf_of (strips_fit.2 fits) ..)).trans ?_
    exact stop_of (trapIf_of_true (Bool.eq_true_of_not_eq_false (fun mine => other (engine_fits.1 mine))) ..)

/-! ## Heads of key queues (R168, R195) -/

section
variable {x : JW} {s : State} {i q : Nat}

theorem key_none (zero : (contractRegs x s).getD i 0 = 0) : (contractGo x s).key i q (issued s) = .ok (none, issued s) := by
  unfold CjGo.key
  rw [bind_of (get_apply _)]
  exact congrFun (if_pos zero) _

variable (some_ : (contractRegs x s).getD i 0 ≠ 0)
include some_

theorem key_waits (head : (s.m.cj.kq.get [] q).head? = none) : (contractGo x s).key i q (issued s) =
    .error (.block (.keyHead (pairOf s.m.curCore) s.m.sl.ctx x.c.toNat x.e.toNat (i == 0) (i == 1))) := by
  have none_ : (contractGo x s).head q = none := head
  unfold CjGo.key
  rw [bind_of (get_apply _)]
  refine (congrFun (if_neg some_) _).trans ?_
  rw [none_, issued_sl]
  rfl

theorem key_bad {k : Nat} (head : (s.m.cj.kq.get [] q).head? = some k) (bad : badKey k = true) :
    (contractGo x s).key i q (issued s) = .error (.trap 0x26 0) := by
  have key : (contractGo x s).head q = some k := head
  unfold CjGo.key
  rw [bind_of (get_apply _)]
  refine (congrFun (if_neg some_) _).trans ?_
  rw [key]
  exact stop_of (trapIf_of_true bad ..)

theorem key_some {k : Nat} (head : (s.m.cj.kq.get [] q).head? = some k) (good : badKey k = false) :
    (contractGo x s).key i q (issued s) = .ok (some k, issued s) := by
  have key : (contractGo x s).head q = some k := head
  unfold CjGo.key
  rw [bind_of (get_apply _)]
  refine (congrFun (if_neg some_) _).trans ?_
  rw [key]
  exact bind_of (trapIf_of good ..)

end

/-- The head that a queue gives when its register says that tuples remain and the head is good. -/
theorem key_good {x : JW} {s : State} {i q : Nat}
    (good : (contractRegs x s).getD i 0 ≠ 0 → ∃ k, (s.m.cj.kq.get [] q).head? = some k ∧ badKey k = false) :
    (contractGo x s).key i q (issued s) = .ok (if (contractRegs x s).getD i 0 = 0 then none else (s.m.cj.kq.get [] q).head?, issued s) := by
  by_cases zero : (contractRegs x s).getD i 0 = 0
  · rw [if_pos zero]
    exact key_none zero
  · obtain ⟨k, head, fine⟩ := good zero
    rw [if_neg zero, head]
    exact key_some zero head fine

/-! ## Outside a group (R195) -/

section
variable {x : JW} {sa sb : Stream} {s : State} (c : Contracting x sa sb true s)
include c

section
variable (closed : s.m.cj.group = none)
include closed

omit c in
theorem contractStep_closed : contractStep x sa sb true (contractGo x s) = contractLoop x.fmt (contractGo x s) := by
  have none_ : (contractGo x s).p.group = none := closed
  unfold contractStep
  rw [none_]
  rfl

variable {ka kb : Option Nat} (headA : (contractGo x s).key 0 x.c.toNat (issued s) = .ok (ka, issued s))
  (headB : (contractGo x s).key 1 x.e.toNat (issued s) = .ok (kb, issued s)) {least : Nat}
  (isLeast : (ka.toList ++ kb.toList).foldl (fun k t => min k (kOf t)) (2 ^ 64) = least)
include headA headB isLeast

theorem exec_contract_ends (beyond : ((contractRegs x s).getD 2 0 / 128 + 1) * 128 ≤ least) : exec (.contract x) s = .next (after x.h none (fun m =>
    unbindMarked x.h x.a x.b (completeCj (cursorAt (gNo x.d)
      ((contractRegs x s).set 2 (((contractRegs x s).getD 2 0 / 128 + 1) * 128 % 2 ^ 64)) s.m.cj m))) s) := by
  refine exec_contract_completes c ?_
  rw [contractStep_closed closed]
  refine (bind_of headA).trans ((bind_of headB).trans ?_)
  rw [isLeast]
  exact congrFun (if_pos beyond) _

theorem exec_contract_group (from_ : (contractRegs x s).getD 2 0 ≤ least) (inside : least < ((contractRegs x s).getD 2 0 / 128 + 1) * 128) :
    exec (.contract x) s = cjStep (gNo x.d) ((contractRegs x s).set 2 least)
      { s.m.cj with group := some ⟨least, true, [], none, 0, (contractRegs x s).set 2 least, x.fmt⟩ } (issued s) s := by
  refine exec_contract_steps c ?_
  rw [contractStep_closed closed]
  refine (bind_of headA).trans ((bind_of headB).trans ?_)
  rw [isLeast]
  refine (congrFun (if_neg (Nat.not_le.2 inside)) _).trans ?_
  exact bind_of (trapIf_of (decide_eq_false (Nat.not_lt.2 from_)) ..)

theorem exec_contract_descends (before : least < (contractRegs x s).getD 2 0) : exec (.contract x) s = .next (trapsCj 0x25 s) := by
  have inside : least < ((contractRegs x s).getD 2 0 / 128 + 1) * 128 := by omega
  refine exec_contract_traps c ?_
  rw [contractStep_closed closed]
  refine (bind_of headA).trans ((bind_of headB).trans ?_)
  rw [isLeast]
  refine (congrFun (if_neg (Nat.not_le.2 inside)) _).trans ?_
  exact stop_of (trapIf_of_true (decide_eq_true before) ..)

end

/-! ## In a group (R195 to R199) -/

section
variable {g : Group} (open_ : s.m.cj.group = some g)
include open_

omit c in
theorem contractStep_held {t : Tuple} (held : g.held = some t) :
    contractStep x sa sb true (contractGo x s) = contractPair x.fmt (contractGo x s) g t := by
  have group : (contractGo x s).p.group = some g := open_
  unfold contractStep
  rw [group]
  dsimp only
  rw [held]
  rfl

omit c in
theorem contractStep_free (free : g.held = none) : contractStep x sa sb true (contractGo x s) =
    if g.opening then contractOpen x (contractGo x s) g sb else contractProbe x (contractGo x s) g sa := by
  have group : (contractGo x s).p.group = some g := open_
  unfold contractStep
  rw [group]
  dsimp only
  rw [free]
  rfl

omit c in
theorem contractStep_opening (free : g.held = none) (opening : g.opening = true) :
    contractStep x sa sb true (contractGo x s) = contractOpen x (contractGo x s) g sb := by
  rw [contractStep_free open_ free, if_pos opening]

omit c in
theorem contractStep_probing (free : g.held = none) (probing : g.opening = false) :
    contractStep x sa sb true (contractGo x s) = contractProbe x (contractGo x s) g sa := by
  rw [contractStep_free open_ free, if_neg (Bool.eq_false_iff.1 probing)]

/-! A pair, or the A tuple's release. -/

section
variable {t : Tuple} (held : g.held = some t)
include held

section
variable (more : g.next < g.places.length) {a b : List Machine.Num} (stripA : stripElems x.fmt s.m.cj.w t.strip = a)
  (stripB : stripElems x.fmt s.m.cj.w (g.places.getD g.next ⟨0, []⟩).strip = b)
include more stripA stripB

theorem exec_contract_pair {m : Mach}
    (applied : applyMatch (ijOf t.key + ijOf (g.places.getD g.next ⟨0, []⟩).key * 2 ^ 24) a b (issued s) = some m) : exec (.contract x) s =
    cjStep (gNo x.d) ((contractRegs x s).set 3 (((contractRegs x s).getD 3 0 + 1) % 2 ^ 64)) { m.cj with
      group := some { g with next := g.next + 1, cursor := (contractRegs x s).set 3 (((contractRegs x s).getD 3 0 + 1) % 2 ^ 64) } }
      (m.updSlot s.m.cur (fun y => y.countEvent 8)) s := by
  have match_ : applyMatch (ijOf t.key + ijOf (g.places.getD g.next ⟨0, []⟩).key * 2 ^ 24) (stripElems x.fmt (contractGo x s).p.w t.strip)
      (stripElems x.fmt (contractGo x s).p.w (g.places.getD g.next ⟨0, []⟩).strip) (issued s) = some m := by
    rw [← applied, ← stripA, ← stripB]
    rfl
  refine exec_contract_steps c ?_
  rw [contractStep_held open_ held]
  refine (bind_of (get_apply _)).trans ((congrFun (if_pos more) _).trans ?_)
  rw [match_]
  exact bind_of (change_apply ..)

theorem exec_contract_ringFull
    (full : applyMatch (ijOf t.key + ijOf (g.places.getD g.next ⟨0, []⟩).key * 2 ^ 24) a b (issued s) = none) :
    exec (.contract x) s = .next (trapsCj 0x2A s) := by
  have match_ : applyMatch (ijOf t.key + ijOf (g.places.getD g.next ⟨0, []⟩).key * 2 ^ 24) (stripElems x.fmt (contractGo x s).p.w t.strip)
      (stripElems x.fmt (contractGo x s).p.w (g.places.getD g.next ⟨0, []⟩).strip) (issued s) = none := by
    rw [← full, ← stripA, ← stripB]
    rfl
  refine exec_contract_traps c ?_
  rw [contractStep_held open_ held]
  refine (bind_of (get_apply _)).trans ((congrFun (if_pos more) _).trans ?_)
  rw [match_]
  rfl

end

theorem exec_contract_release (last : g.places.length ≤ g.next) : exec (.contract x) s =
    cjStep (gNo x.d) ((contractRegs x s).set 0 ((contractRegs x s).getD 0 0 - 1)) { s.m.cj with
      group := some { g with held := none, next := 0, cursor := (contractRegs x s).set 0 ((contractRegs x s).getD 0 0 - 1) } } (issued s) s := by
  refine exec_contract_steps c ?_
  rw [contractStep_held open_ held]
  exact (bind_of (get_apply _)).trans (congrFun (if_neg (Nat.not_lt.2 last)) _)

end

section
variable (free : g.held = none)
include free

/-! The B tuples of the group. -/

section
variable (opening : g.opening = true)
include opening

section
variable {t : Nat} (key : (contractGo x s).key 1 x.e.toNat (issued s) = .ok (some t, issued s)) (here : kOf t = g.k)
include key here

theorem exec_contract_takesB {l : List Nat} {m : Mach} (room : g.places.length < 256)
    (popped : popStrip x.b sb (stripBytes x.fmt s.m.cj.w / Ty.size sb.ty) x.h.ch.toNat (issued s) = .ok (l, m)) : exec (.contract x) s =
    cjStep (gNo x.d) ((contractRegs x s).set 1 ((contractRegs x s).getD 1 0 - 1)) { s.m.cj with
      kq := s.m.cj.kq.put x.e.toNat (s.m.cj.kq.get [] x.e.toNat).tail
      group := some { g with places := g.places ++ [⟨t, l⟩], cursor := (contractRegs x s).set 1 ((contractRegs x s).getD 1 0 - 1) } } m s := by
  refine exec_contract_steps c ?_
  rw [contractStep_opening open_ free opening]
  refine (bind_of key).trans ((congrFun (if_pos here) _).trans ?_)
  exact (bind_of (trapIf_of (decide_eq_false (Nat.not_le.2 room)) ..)).trans (bind_of popped)

theorem exec_contract_crowded (full : 256 ≤ g.places.length) : exec (.contract x) s = .next (trapsCj 0x29 s) := by
  refine exec_contract_traps c ?_
  rw [contractStep_opening open_ free opening]
  refine (bind_of key).trans ((congrFun (if_pos here) _).trans ?_)
  exact stop_of (trapIf_of_true (decide_eq_true full) ..)

end

theorem exec_contract_allB {kb : Option Nat} (key : (contractGo x s).key 1 x.e.toNat (issued s) = .ok (kb, issued s))
    (past : ∀ t, kb = some t → kOf t ≠ g.k) : exec (.contract x) s =
    cjStep (gNo x.d) (contractRegs x s) { s.m.cj with group := some { g with opening := false } } (issued s) s := by
  refine exec_contract_steps c ?_
  rw [contractStep_opening open_ free opening]
  refine (bind_of key).trans ?_
  cases kb with
  | none => rfl
  | some t => exact congrFun (if_neg (past t rfl)) _

end

/-! The A tuples of the group. -/

section
variable (probing : g.opening = false)
include probing

theorem exec_contract_takesA {t : Nat} {l : List Nat} {m : Mach} (key : (contractGo x s).key 0 x.c.toNat (issued s) = .ok (some t, issued s))
    (here : kOf t = g.k) (popped : popStrip x.a sa (stripBytes x.fmt s.m.cj.w / Ty.size sa.ty) x.h.ch.toNat (issued s) = .ok (l, m)) :
    exec (.contract x) s = cjStep (gNo x.d) (contractRegs x s) { s.m.cj with
      kq := s.m.cj.kq.put x.c.toNat (s.m.cj.kq.get [] x.c.toNat).tail
      group := some { g with held := some ⟨t, l⟩, next := 0 } } m s := by
  refine exec_contract_steps c ?_
  rw [contractStep_probing open_ free probing]
  exact (bind_of key).trans ((congrFun (if_pos here) _).trans (bind_of popped))

theorem exec_contract_closes {ka : Option Nat} (key : (contractGo x s).key 0 x.c.toNat (issued s) = .ok (ka, issued s))
    (past : ∀ t, ka = some t → kOf t ≠ g.k) :
    exec (.contract x) s = cjStep (gNo x.d) (contractRegs x s) { s.m.cj with group := none } (issued s) s := by
  refine exec_contract_steps c ?_
  rw [contractStep_probing open_ free probing]
  refine (bind_of key).trans ?_
  cases ka with
  | none => rfl
  | some t => exact congrFun (if_neg (past t rfl)) _

end
end
end

/-! ## A head that is missing or bad -/

omit c in
/-- The next step asks first for the head of kqC. -/
theorem contractStep_asksA {e : Stop} (asks : ∀ g, s.m.cj.group = some g → g.held = none ∧ g.opening = false)
    (stops : (contractGo x s).key 0 x.c.toNat (issued s) = .error e) : contractStep x sa sb true (contractGo x s) (issued s) = .error e := by
  cases group : s.m.cj.group with
  | none =>
    rw [contractStep_closed group]
    exact stop_of stops
  | some g =>
    obtain ⟨free, probing⟩ := asks g group
    rw [contractStep_probing group free probing]
    exact stop_of stops

omit c in
/-- The next step needs the head of kqE next. -/
theorem contractStep_asksB {e : Stop} {ka : Option Nat}
    (headA : s.m.cj.group = none → (contractGo x s).key 0 x.c.toNat (issued s) = .ok (ka, issued s))
    (asks : ∀ g, s.m.cj.group = some g → g.held = none ∧ g.opening = true)
    (stops : (contractGo x s).key 1 x.e.toNat (issued s) = .error e) : contractStep x sa sb true (contractGo x s) (issued s) = .error e := by
  cases group : s.m.cj.group with
  | none =>
    rw [contractStep_closed group]
    exact (bind_of (headA group)).trans (stop_of stops)
  | some g =>
    obtain ⟨free, opening⟩ := asks g group
    rw [contractStep_opening group free opening]
    exact stop_of stops

end

/-- The list of a head that counts. -/
theorem heads_toList {n : Nat} {o : Option Nat} : (if n = 0 then none else o).toList = if n = 0 then [] else o.toList := by
  split <;> rfl

theorem contractGoesOn : ContractGoesOn := by
  intro x sa sb s c d regs nA nB gk p hc he good is least cend ends waits asksA asksB
  have isLeast : ((if (contractRegs x s).getD 0 0 = 0 then none else (s.m.cj.kq.get [] x.c.toNat).head?).toList ++
      (if (contractRegs x s).getD 1 0 = 0 then none else (s.m.cj.kq.get [] x.e.toNat).head?).toList).foldl (fun k t => min k (kOf t)) (2 ^ 64) = least := by
    rw [heads_toList, heads_toList]
    exact List.foldl_map.symm
  have counts : ∀ {h : Option Nat} {i q k : Nat}, (s.m.cj.kq.get [] q).head? = h → is h ((contractRegs x s).getD i 0) k →
      ∃ t, h.getD 0 = t ∧ kOf t = k ∧ (contractGo x s).key i q (issued s) = .ok (some t, issued s) := by
    rintro h i q k head ⟨some_, t, rfl, fine, here⟩
    exact ⟨t, rfl, here, key_some some_ head fine⟩
  have past : ∀ {h : Option Nat} {n k : Nat}, good h n → ¬ is h n k → ∀ t, (if n = 0 then none else h) = some t → kOf t ≠ k := by
    intro h n k fine not_ t head here
    have some_ : n ≠ 0 := fun zero => by rw [if_pos zero] at head; cases head
    rw [if_neg some_] at head
    obtain ⟨u, rfl, good_⟩ := fine some_
    exact not_ ⟨some_, t, head, by rwa [Option.some.inj head] at good_, here⟩
  refine ⟨fun asks some_ => ⟨fun head => exec_contract_waits c (contractStep_asksA asks (key_waits some_ head)),
      fun k head bad => exec_contract_traps c (contractStep_asksA asks (key_bad some_ head bad))⟩,
    fun ⟨goodA, asks⟩ some_ => ⟨fun head => exec_contract_waits c (contractStep_asksB (fun n => key_good (goodA n)) asks (key_waits some_ head)),
      fun k head bad => exec_contract_traps c (contractStep_asksB (fun n => key_good (goodA n)) asks (key_bad some_ head bad))⟩,
    fun closed goodA goodB => ⟨exec_contract_ends c closed (key_good goodA) (key_good goodB) isLeast,
      exec_contract_group c closed (key_good goodA) (key_good goodB) isLeast,
      exec_contract_descends c closed (key_good goodA) (key_good goodB) isLeast⟩,
    fun g open_ => ⟨fun t held more => ⟨fun m applied => exec_contract_pair c open_ held more rfl rfl applied,
        fun full => exec_contract_ringFull c open_ held more rfl rfl full⟩,
      fun t held last => exec_contract_release c open_ held last,
      fun free opening => ⟨fun ready room l m popped => ?_, fun ready full => ?_, fun goodB not_ => ?_⟩,
      fun free probing => ⟨fun ready l m popped => ?_, fun goodA not_ => ?_⟩⟩⟩
  · obtain ⟨t, head, here, key⟩ := counts (i := 1) rfl ready
    rw [show he.getD 0 = t from head]
    exact exec_contract_takesB c open_ free opening key here room popped
  · obtain ⟨t, -, here, key⟩ := counts (i := 1) rfl ready
    exact exec_contract_crowded c open_ free opening key here full
  · exact exec_contract_allB c open_ free opening (key_good goodB) (past goodB not_)
  · obtain ⟨t, head, here, key⟩ := counts (i := 0) rfl ready
    rw [show hc.getD 0 = t from head]
    exact exec_contract_takesA c open_ free probing key here popped
  · exact exec_contract_closes c open_ free probing (key_good goodA) (past goodA not_)

/-- Settles O46. -/
theorem contract : Obligations.Contract := ⟨contractBegins, contractGoesOn⟩

end Sys2Proof.Claim
end

section
/-! PROOFS. What the memory system does on its own (R9, R21, R86 to R95, R113, R137, R297, R298, R300, R358). -/
namespace Sys2Proof.Claim
open Machine

/-! ## Landings (R21, R95, R307) -/

section
variable {k : Nat} {x : Land} {s : State}

theorem exec_interlockLand (first : landable (fun c => c == .ready || c == .gang) [] (s.m.slot k).il = some x) :
    exec (.interlockLand k) s = .next (goes (landAt k x) s) := by
  refine device_ok ?_
  rw [bind_of (get_apply _), first, bind_of (need_some ..)]
  rfl

theorem exec_loadLand (first : landable loadSrc [] (s.m.slot k).il = some x) :
    exec (.loadLand k) s = .next (goes (fun m => (landAt k x m).updSlot k (fun y => { y with ocLd := y.ocLd - 1 })) s) := by
  have lands_ : loadLand k s.m = (landAt k x s.m).updSlot k (fun y => { y with ocLd := y.ocLd - 1 }) := by
    unfold loadLand
    rw [first]
  refine device_ok ?_
  rw [bind_of (get_apply _), first, if_pos (Option.isSome_some ..)]
  exact congrArg (fun m => Except.ok ((), m)) lands_

theorem exec_loadLand_host (noOther : landable loadSrc [] (s.m.slot k).il = none) {r : Req} (oldest : firstHost s.m (coreOf k) false = some r)
    (own : r.slot = k) : exec (.loadLand k) s = .next (goes (fun m => loadLand k (hostRead k m)) s) := by
  have mine_ : (firstHost s.m (coreOf k) false).any (fun x => x.slot == k) = true := by
    rw [oldest]
    exact beq_iff_eq.2 own
  refine device_ok ?_
  rw [bind_of (get_apply _), noOther, if_neg (by simp), bind_of (enabledIf_of mine_ _)]
  rfl

end

/-! ## Acknowledgements and completions (R86, R95, R136, R137, R297, R298) -/

section
variable {id : Nat} {r : Req} {s : State}

section
variable {l : List (Nat × Nat)} {ts : List Nat} (found : s.m.reqs.find? (fun r => r.id == id && (r.st == .done || r.st == .host)) = some r)
  (store : r.kind = .store l ts)
include found store

theorem exec_storeAck (done : r.st = .done) : exec (.storeAck id) s = .next (goes (fun m => ts.foldl ackToken (dropReq id m)) s) := by
  have enabled : (r.st == .done || (firstHost s.m (coreOf r.slot) true).map (·.id) == some id) = true := by rw [done]; rfl
  refine device_ok ?_
  rw [bind_of (get_apply _), found, bind_of (need_some ..), bind_of (enabledIf_of enabled _), store, done]
  rfl

theorem exec_storeAck_host (host : r.st = .host) (oldest : (firstHost s.m (coreOf r.slot) true).map (·.id) = some id) :
    exec (.storeAck id) s = .next (goes (fun m => ts.foldl ackToken (dropReq id (hostBus r.pa (storeMem l m)))) s) := by
  have enabled : (r.st == .done || (firstHost s.m (coreOf r.slot) true).map (·.id) == some id) = true := by
    rw [oldest, beq_self_eq_true, Bool.or_true]
  refine device_ok ?_
  rw [bind_of (get_apply _), found, bind_of (need_some ..), bind_of (enabledIf_of enabled _), store, host]
  rfl

end

section
variable (found : s.m.reqs.find? (fun r => r.id == id && r.st == .done) = some r)
include found

section
variable {op : AtomOp} {ty : Ty} {b : Nat} {inv : Bool} {sc : Sco} (noticed : ∀ n ∈ s.m.notices, n.req ≠ id)
include noticed

omit found in
theorem no_notices : (!s.m.notices.any (fun n => n.req == id)) = true := by
  rw [Bool.not_eq_true', List.any_eq_false]
  exact fun n hn same => noticed n hn (beq_iff_eq.1 same)

theorem exec_atomicComplete (atomic : r.kind = .atomic op ty b none inv sc) : exec (.atomicComplete id) s =
    .next (goes (fun m => dropReq id (m.updSlot r.slot (fun y => { y with ocAt := y.ocAt - 1 }))) s) := by
  refine device_ok ?_
  rw [bind_of (get_apply _), found, bind_of (need_some ..), bind_of (enabledIf_of (no_notices noticed) _), atomic]
  rfl

theorem exec_atomicComplete_lands {l : Nat} {x : Land} (atomic : r.kind = .atomic op ty b (some l) inv sc)
    (may : canLand l (s.m.slot r.slot).il = some x) : exec (.atomicComplete id) s = .next (goes (fun m =>
      let m := (landAt r.slot x m).updSlot r.slot (fun y => { y with ocAt := y.ocAt - 1 })
      dropReq id (if inv then l1Inv (coreOf r.slot) m else m)) s) := by
  refine device_ok ?_
  rw [bind_of (get_apply _), found, bind_of (need_some ..), bind_of (enabledIf_of (no_notices noticed) _), atomic]
  dsimp only
  rw [may, bind_of (need_some ..)]
  rfl

end

theorem exec_lawOpComplete {op : LawOp} {w128 oct : Bool} {b b1 named : Nat} {land : Option Nat} {laws : Option (Tab (List Nat))} {x : Land}
    (law : r.kind = .law op w128 b b1 land named oct laws) (may : ∀ l, land = some l → canLand l (s.m.slot r.slot).il = some x) :
    exec (.lawOpComplete id) s = .next (goes (fun m =>
      let m := if land.isSome then landAt r.slot x m else m
      let m := m.updSlot r.slot (fun y => { y with ocLw := y.ocLw - 1 })
      dropReq id (l1InvLines (coreOf r.slot) (if oct then r.val else [r.pa / 128]) m)) s) := by
  refine device_ok ?_
  rw [bind_of (get_apply _), found, bind_of (need_some ..), law]
  cases land with
  | none => rfl
  | some l =>
    dsimp only
    rw [may l rfl, bind_of (need_some ..)]
    rfl

end

theorem exec_lawOpPerform {op : LawOp} {w128 oct : Bool} {b b1 named : Nat} {land : Option Nat} {laws : Option (Tab (List Nat))}
    (found : s.m.reqs.find? (fun r => r.id == id && r.st == .queued) = some r) (law : r.kind = .law op w128 b b1 land named oct laws)
    (head : s.m.reqs.find? (fun x => x.accepted && homeOf x.pa == homeOf r.pa && !(x.st == .cxl && x.pa / 128 != r.pa / 128)) = some r) :
    exec (.lawOpPerform id) s = .next (goes (fun m =>
      let m := useLine (r.pa / 128) 0 (if needsLine m r then bringLine (r.pa / 128) m else m)
      let y := lawCore ⟨r.ctx, r.slot, op, ⟨oct, r.pa, w128⟩, named, b, b1, 0, laws⟩ m
      pumpSlice (homeOf r.pa) (setReq { r with st := .done } (land.elim y.2 (fun l => fillLand r.slot l 0 (toLE 16 y.1) y.2)))) s) := by
  have first : atHead s.m r = true := by
    unfold atHead
    rw [head]
    exact beq_self_eq_true _
  refine device_ok ?_
  rw [bind_of (get_apply _), found, bind_of (need_some ..), bind_of (enabledIf_of first _), law]
  cases land <;> rfl

end

theorem resultsLand : ResultsLand :=
  ⟨fun _ _ _ => ⟨exec_interlockLand, exec_loadLand, fun noOther ⟨_, oldest, own⟩ => exec_loadLand_host noOther oldest own⟩,
    fun _ _ _ _ _ found store => ⟨exec_storeAck found store, exec_storeAck_host found store⟩,
    fun _ _ _ found => ⟨fun _ _ _ _ _ atomic noticed => exec_atomicComplete found noticed atomic,
      fun _ _ _ _ _ _ _ atomic noticed may => exec_atomicComplete_lands found noticed atomic may,
      fun _ _ _ _ _ _ _ _ _ law may => exec_lawOpComplete found law may⟩,
    fun _ _ _ _ _ _ _ _ land _ _ found law head => (exec_lawOpPerform found law head).trans (by cases land <;> rfl)⟩

/-! ## Acceptance at a home slice (R8, R9, R294) -/

section
variable {id : Nat} {r : Req} {s : State}

section
variable (found : s.m.reqs.find? (·.id == id) = some r) (may : canAccept s.m r = true)
include found may

theorem exec_sliceRequest_query {land : Nat} {clear : Bool} (query : r.kind = .query land clear) :
    exec (.sliceRequest id) s = .next (goes (answerQuery r land clear) s) := by
  refine device_ok ?_
  rw [bind_of (get_apply _), found, bind_of (need_some ..), bind_of (enabledIf_of may _), query]
  rfl

/-- The slice takes the request into its queue, asks for a missing line, and performs what it can. -/
def enqueue (id : Nat) (r : Req) (m : Mach) : Mach :=
  let missing := needsLine m r && !present m r.pa && !m.reqs.any (fun x => (x.st == .queued || x.st == .cxl) && x.pa / 128 == r.pa / 128)
  let held : Req := { r with st := if missing then .filling else .queued, since := m.cyc }
  let queued : Mach := { m with reqs := m.reqs.filter (·.id != id) ++ [held] }
  pumpSlice (homeOf r.pa) (countReq r (if missing then cxlAsk r.pa queued else queued))

/-- A request for data is performed by the cluster unit that holds its line, and else enters the slice's queue. -/
theorem exec_sliceRequest_data (data : isQuery r.kind = false) :
    exec (.sliceRequest id) s = .next (.mk (if unitHolds s.m r then perform r s.m else enqueue id r s.m) s.boot) := by
  have done : (if unitHolds s.m r then change (perform r) else change (fun m =>
      let behind := m.reqs.any (fun x => (x.st == .queued || x.st == .cxl) && x.pa / 128 == r.pa / 128)
      let r := { r with st := if needsLine m r && !present m r.pa && !behind then .filling else .queued, since := m.cyc }
      let m : Mach := { m with reqs := m.reqs.filter (·.id != id) ++ [r] }
      let m := if r.st == .filling then cxlAsk r.pa m else m
      pumpSlice (homeOf r.pa) (countReq r m)) : M Unit) s.m = .ok ((), if unitHolds s.m r then perform r s.m else enqueue id r s.m) := by
    by_cases unit : unitHolds s.m r = true
    · rw [if_pos unit, if_pos unit]
      rfl
    · rw [if_neg unit, if_neg unit, change_apply]
      unfold enqueue
      dsimp only
      generalize (needsLine s.m r && !present s.m r.pa &&
        !s.m.reqs.any (fun x => (x.st == .queued || x.st == .cxl) && x.pa / 128 == r.pa / 128)) = missing
      cases missing <;> rfl
  refine device_ok ?_
  rw [bind_of (get_apply _), found, bind_of (need_some ..), bind_of (enabledIf_of may _)]
  cases kind : r.kind with
  | query _ _ => rw [kind] at data; cases data
  | _ => rw [kind] at done; exact done

end

/-! ## Lines and completions arrive (R9, R89, R93, R300, R358) -/

theorem exec_l2Fill {bad : List Nat} (found : s.m.reqs.find? (fun r => r.id == id && r.st == .filling) = some r)
    (late : paKind s.m.dev r.pa = .hbm → r.since + 300 ≤ s.m.cyc) :
    let line := r.pa / 128
    let m := bringLine line s.m
    let words := if paKind m.dev r.pa == .pooled then (wordsOf (128 * line) 128).filter bad.contains else []
    exec (.l2Fill ⟨id, bad⟩) s = .next { s with m := pumpSlice (homeOf r.pa) { m with
      poison := words ++ m.poison.filter (fun w => !words.contains w)
      reqs := m.reqs.map (fun x => if x.st == .filling && x.pa / 128 == line then { x with st := .queued } else x) } } := by
  have enabled : (paKind s.m.dev r.pa != .hbm || decide (r.since + 300 ≤ s.m.cyc)) = true := by
    by_cases hbm : paKind s.m.dev r.pa = .hbm
    · rw [decide_eq_true (late hbm), Bool.or_true]
    · rw [bne_iff_ne.2 hbm, Bool.true_or]
  refine device_ok ?_
  rw [bind_of (get_apply _), found, bind_of (need_some ..), bind_of (enabledIf_of enabled _), change_apply, Nat.mul_comm 128]

section
variable (found : s.m.reqs.find? (fun r => r.id == id && r.st == .cxl) = some r)
include found

theorem exec_cxlCompletion_store {l : List (Nat × Nat)} {ts : List Nat} (store : r.kind = .store l ts) : exec (.cxlCompletion id) s =
    .next (goes (fun m => pumpSlice (homeOf r.pa) (setReq { r with st := .done } (homeStore l m))) s) := by
  refine device_ok ?_
  rw [bind_of (get_apply _), found, bind_of (need_some ..), store]
  rfl

theorem exec_cxlCompletion_eng {c : Nat} {w : Bool} (eng : r.kind = .eng c w) :
    exec (.cxlCompletion id) s = .next (goes (fun m => pumpSlice (homeOf r.pa) (serveEng r c m)) s) := by
  refine device_ok ?_
  rw [bind_of (get_apply _), found, bind_of (need_some ..), eng]
  rfl

end

theorem exec_cxlTimeout (found : s.m.reqs.find? (fun r => r.id == id && (r.st == .cxl || r.st == .filling)) = some r)
    (pooled : paKind s.m.dev r.pa = .pooled) (late : r.since + 120000 ≤ s.m.cyc) :
    exec (.cxlTimeout id) s = .next (goes (endContext r.ctx 0x83 (if r.kind = .ingest then 0 else r.slot) r.pa) s) := by
  have enabled : (paKind s.m.dev r.pa == .pooled && decide (r.since + 120000 ≤ s.m.cyc)) = true := by
    rw [pooled, decide_eq_true late]
    rfl
  refine device_ok ?_
  rw [bind_of (get_apply _), found, bind_of (need_some ..), bind_of (enabledIf_of enabled _)]
  rfl

section
variable (found : s.m.reqs.find? (fun r => r.id == id && r.st == .done) = some r)
include found

theorem exec_l1Fill_line {l1 : Bool} (line : r.kind = .line l1) :
    exec (.l1Fill id) s = .next (goes (fun m => serveAllJoined r (dropReq id (allocLine r m))) s) := by
  refine device_ok ?_
  rw [bind_of (get_apply _), found, bind_of (need_some ..), line]
  rfl

theorem exec_l1Fill_data {len : Nat} {l1 cnt : Bool} (data : r.kind = .data len l1 cnt) : exec (.l1Fill id) s =
    .next (goes (fun m => serveAllJoined r (giveData r len cnt (if l1 then allocLine r m else m))) s) := by
  refine device_ok ?_
  rw [bind_of (get_apply _), found, bind_of (need_some ..), data]
  rfl

theorem exec_l1Fill_load {parts : List Part} {sg al sy : Bool} {land : Nat} (load : r.kind = .load parts sg al sy land) :
    exec (.l1Fill id) s = .next (goes (fun m => serveAllJoined r (dropReq id (allocLine r (fillParts r.slot land sg parts r.read m)))) s) := by
  refine device_ok ?_
  rw [bind_of (get_apply _), found, bind_of (need_some ..), load]
  rfl

end
end

/-! ## Copies and buffered stores (R90, R94) -/

theorem exec_peerInvalidation {n : Nat} {s : State} (copied : ∃ c ∈ (s.m.slice (homeOf (128 * n))).copies, c.line = n) :
    exec (.peerInvalidation n) s = .next (goes (dropCopy n) s) := by
  obtain ⟨c, held, line⟩ := copied
  have enabled : (s.m.slice (homeOf (128 * n))).copies.any (fun c => c.line == n) = true := List.any_eq_true.2 ⟨c, held, beq_iff_eq.2 line⟩
  refine device_ok ?_
  rw [bind_of (get_apply _), bind_of (enabledIf_of enabled _)]
  rfl

theorem exec_wcbEntryTimeout {n : Nat} {s : State} (old : ∃ w ∈ (s.m.core n).wcb, w.opened + 32 ≤ s.m.cyc) :
    exec (.wcbEntryTimeout n) s = .next (goes (sendWcb n (fun w => decide (w.opened + 32 ≤ s.m.cyc))) s) := by
  obtain ⟨w, held, late⟩ := old
  have enabled : (s.m.core n).wcb.any (fun w => decide (w.opened + 32 ≤ s.m.cyc)) = true := List.any_eq_true.2 ⟨w, held, decide_eq_true late⟩
  refine device_ok ?_
  rw [bind_of (get_apply _), bind_of (enabledIf_of enabled _)]
  rfl

theorem slicesAndFills : SlicesAndFills :=
  ⟨fun _ _ s => ⟨fun found may => ⟨fun _ _ query => exec_sliceRequest_query found may query,
        fun data unit => (exec_sliceRequest_data found may data).trans (congrArg (fun m => Host.Outcome.next (State.mk m s.boot)) (if_pos unit)),
        fun data unit => (exec_sliceRequest_data found may data).trans
          (congrArg (fun m => Host.Outcome.next (State.mk m s.boot)) (if_neg (Bool.eq_false_iff.1 unit)))⟩,
      fun _ found late => exec_l2Fill found late,
      fun found => ⟨fun _ _ store => exec_cxlCompletion_store found store, fun _ _ eng => exec_cxlCompletion_eng found eng⟩,
      fun found pooled late => exec_cxlTimeout found pooled late,
      fun found => ⟨fun _ line => exec_l1Fill_line found line, fun _ _ _ data => exec_l1Fill_data found data,
        fun _ _ _ _ _ load => exec_l1Fill_load found load⟩⟩,
    fun _ _ => ⟨exec_peerInvalidation, exec_wcbEntryTimeout⟩⟩

/-- Settles O49. -/
theorem accessEvents : Obligations.AccessEvents := ⟨resultsLand, slicesAndFills⟩

end Sys2Proof.Claim
end

section
/-! PROOFS. Look-ups, walks and soft errors (R327, R332 to R334, R344). -/
namespace Sys2Proof.Claim
open Machine

/-! ## Look-ups and walks (R326, R327, R332 to R334, R344, R358) -/

theorem translationEvents : TranslationEvents := by
  refine ⟨?_, ?_⟩
  · intro k g l s found die asid d js m doneAll walk joined
    refine ⟨fun e hit => ?_, fun miss => ⟨fun joins => ?_, fun alone failed => ?_, fun alone clear room => ?_⟩⟩
    all_goals
      refine device_ok ((bind_of (get_apply _)).trans ?_)
      dsimp only
      rw [found]
      refine (bind_of (need_some ..)).trans ?_
    · rw [hit]
      rfl
    · rw [miss]
      exact congrFun (if_pos joins) _
    · rw [miss]
      exact (congrFun (if_neg (Bool.eq_false_iff.1 alone)) _).trans (congrFun (if_pos failed) _)
    · have none_ : ¬ (pending m die asid g).isSome = true := by rw [clear]; exact Bool.false_ne_true
      rw [miss]
      refine (congrFun (if_neg (Bool.eq_false_iff.1 alone)) _).trans ((congrFun (if_neg none_) _).trans ?_)
      exact bind_of (enabledIf_of (decide_eq_true room) _)
  · intro die asid g c w s found ctx va reads m js served
    have serves : (!reads.any (waitsService s.m.dev)) = true :=
      Bool.not_eq_true' _ ▸ List.any_eq_false.2 fun a ha => Bool.eq_false_iff.1 (served a ha)
    refine ⟨fun line missing unasked => ?_, fun present => ⟨fun a bad => ?_, fun sound => ⟨fun e n leaf => ?_, fun kind lvl fails => ?_⟩⟩⟩
    all_goals
      refine device_ok ((bind_of (get_apply _)).trans ?_)
      dsimp only
      rw [found]
      refine (bind_of (need_some ..)).trans ?_
      rw [ctx]
      refine (bind_of (enabledIf_of serves _)).trans ?_
    · have free : (!s.m.reqs.any (fun r => r.kind == .code && r.pa / 128 == line)) = true := by
        rw [Bool.not_eq_true', List.any_eq_false]
        intro r hr same
        obtain ⟨code, at_⟩ := Bool.and_eq_true_iff.1 same
        exact unasked r hr ⟨eq_of_beq code, beq_iff_eq.1 at_⟩
      rw [missing]
      exact bind_of (enabledIf_of free _)
    · rw [present]
      dsimp only
      rw [bad]
      rfl
    · rw [present]
      dsimp only
      rw [List.find?_eq_none.2 fun a ha => Bool.eq_false_iff.1 (sound a ha)]
      dsimp only
      rw [leaf]
      rfl
    · rw [present]
      dsimp only
      rw [List.find?_eq_none.2 fun a ha => Bool.eq_false_iff.1 (sound a ha)]
      dsimp only
      rw [fails]
      rfl

/-! ## Soft errors (R344) -/

theorem exec_poisonRead {k a : Nat} {s : State} (bad : poisoned s.m a 1 = true) (used : (s.m.slot k).run ≠ .free) :
    exec (.poisonRead k a) s = .next (goes (endContext (s.m.slot k).ctx 0x81 k a) s) := by
  have enabled : (poisoned s.m a 1 && (s.m.slot k).run != .free) = true := by rw [bad, bne_iff_ne.2 used]; rfl
  refine device_ok ?_
  rw [bind_of (get_apply _), bind_of (enabledIf_of enabled _)]
  rfl

theorem softErrors : SoftErrors := by
  intro k a s w
  have die : a < 2 ^ 32 → a / 2 ^ 28 < 16 := fun inside => Nat.div_lt_of_lt_mul inside
  refine ⟨exec_poisonRead, fun used => ?_, fun ⟨l, held, line⟩ => ?_, fun here clean => ?_, fun here dirty => ⟨?_, ?_⟩, fun hbm => ⟨?_, ?_⟩,
    fun inside => ⟨?_, ?_⟩, fun pair => ?_⟩
  all_goals
    refine device_ok ((bind_of (get_apply _)).trans ?_)
    dsimp only
  · exact bind_of (enabledIf_of (bne_iff_ne.2 used) _)
  · have cached : (s.m.core (a / 2 ^ 52)).l1.any (fun x => x.line == a % 2 ^ 52 / 128) = true := List.any_eq_true.2 ⟨l, held, beq_iff_eq.2 line⟩
    exact bind_of (enabledIf_of cached _)
  · exact bind_of (enabledIf_of (by rw [here, clean]; rfl) _)
  · exact bind_of (enabledIf_of (by rw [here, dirty]; rfl) _)
  · exact bind_of (enabledIf_of (by rw [here, dirty]; rfl) _)
  · exact bind_of (enabledIf_of (by rw [hbm]; rfl) _)
  · exact bind_of (enabledIf_of (by rw [hbm]; rfl) _)
  · exact bind_of (enabledIf_of (decide_eq_true (die inside)) _)
  · exact bind_of (enabledIf_of (decide_eq_true (die inside)) _)
  · exact bind_of (enabledIf_of pair _)

/-- Settles O50. -/
theorem translationAndErrorEvents : Obligations.TranslationAndErrorEvents := ⟨translationEvents, softErrors⟩

end Sys2Proof.Claim
end

section
/-! PROOFS. Engine commands complete or stop (R109 to R112, R187, R209 to R213, R217 to R219). -/
namespace Sys2Proof.Claim
open Machine

/-! ## Gathers, scatters and pools (R109 to R112) -/

/-- The first entry that a test finds is the first for a sharper test that it passes. -/
theorem find?_and {α : Type} {p q : α → Bool} {l : List α} {x : α} (found : l.find? p = some x) (passes : q x = true) :
    l.find? (fun y => p y && q y) = some x := by
  obtain ⟨here, before, rest, rfl, none_⟩ := List.find?_eq_some_iff_append.1 found
  refine List.find?_eq_some_iff_append.2 ⟨by rw [here, passes]; rfl, before, rest, rfl, fun y hy => ?_⟩
  have fails : p y = false := Bool.not_eq_true' _ ▸ none_ y hy
  rw [fails]
  rfl

section
variable {id : Nat} {c : Cmd} {s : State} {l : List Nat} {r : GpRows} {m m1 : Mach} (found : s.m.cmds.find? (fun c => c.id == id) = some c)
  (gp : isGp c.op = true) (may : cmdMay s.m c = true) (list : gpList c s.m = .ok (l, m))
  (rows : gpRows c l (gpAcc c) (gpEntries c l - c.prog) c.prog m = .ok (r, m1))
  (served : engLines c (if c.op = 0xCE then [] else r.rows.flatten.map (· / 128)) (if c.op = 0xCE then r.rows.flatten.map (· / 128) else []) m1 = .ok ((), m1))
include found gp may list rows served

theorem gpReady_of {fails : Bool} (fault : r.fault.isSome = fails) : gpReady id fails s.m = .ok ((c, l, r), m1) := by
  have same : (r.fault.isSome == fails) = true := beq_iff_eq.2 fault
  unfold gpReady
  rw [bind_of (get_apply _), find?_and found gp, bind_of (need_some ..), bind_of (enabledIf_of may _), bind_of list, bind_of rows,
    bind_of (enabledIf_of same _)]
  exact bind_of served

theorem exec_gpComplete_idle (sound : r.fault = none) (idle : gpIdle c = true) : exec (.gpCommandComplete id) s = .next { s with m := endCmd c 0 m1 } := by
  have ready := gpReady_of found gp may list rows served (show r.fault.isSome = false by rw [sound]; rfl)
  refine device_ok ((bind_of ready).trans ?_)
  rw [if_pos idle]
  rfl

variable {args : List Nat} {m2 : Mach} (done : gpDo c l c.prog r.rows m1 = .ok (args, m2))
include done

theorem exec_gpComplete (sound : r.fault = none) (busy : gpIdle c = false) : exec (.gpCommandComplete id) s = .next { s with m := endCmd c 0 m2 } := by
  have ready := gpReady_of found gp may list rows served (show r.fault.isSome = false by rw [sound]; rfl)
  refine device_ok ((bind_of ready).trans ?_)
  rw [if_neg (Bool.eq_false_iff.1 busy)]
  exact bind_of done

theorem exec_gpFault {f : Nat × Nat × EngAt} (fault : r.fault = some f) :
    let c1 := (m2.cmds.find? (fun c => c.id == id)).getD c
    exec (.gpRowFault id) s = .next { s with m := engStop { c1 with prog := f.1, args := args, served := [] } f.2 (gpAcc c1) m2 } := by
  have ready := gpReady_of found gp may list rows served (show r.fault.isSome = true by rw [fault]; rfl)
  refine device_ok ?_
  rw [bind_of (get_apply _), found, bind_of (need_some ..), if_pos gp]
  unfold gpFault
  rw [bind_of ready]
  dsimp only
  rw [fault, bind_of (need_some ..), bind_of done]
  rfl

end

theorem gatherEnds : GatherEnds := fun _ _ _ _ _ _ _ found gp may list rows served =>
  ⟨exec_gpComplete_idle found gp may list rows served, fun _ _ done => ⟨exec_gpComplete found gp may list rows served done,
    fun _ fault => exec_gpFault found gp may list rows served done fault⟩⟩

/-! ## The matvec (R217 to R219) -/

section
variable {id : Nat} {c0 : Cmd} {s : State} {first : Option Nat} {g : SmvGo} {m m1 m2 : Mach}
  (found : s.m.cmds.find? (fun c => c.id == id) = some c0) (smv : c0.op = 0xD0) (may : cmdMay s.m c0 = true) (stack : smvFirst c0 s.m = .ok (first, m))
  (rows : smvRowsFrom c0 first (smvRows c0 - c0.prog) c0.prog m = .ok (g, m1))

/-- The matvec that keeps the stack of its first line. -/
def smvKept (c0 : Cmd) (first : Option Nat) : Cmd := { c0 with args := c0.args.set 11 ((first.map (· + 1)).getD 0) }

include found smv may stack rows

theorem smvReady_of : smvReady id s.m = .ok ((smvKept c0 first, g), m1) := by
  unfold smvReady
  rw [bind_of (get_apply _), find?_and found (q := fun c => c.op == 0xD0) (beq_iff_eq.2 smv), bind_of (need_some ..), bind_of (enabledIf_of may _),
    bind_of stack, bind_of rows]
  rfl

variable (served : engLines (smvKept c0 first) g.lines [] m1 = .ok ((), m1))
  (done : smvDo (smvKept c0 first) (smvKept c0 first).prog g.hi m1 = .ok ((), m2))
include served done

theorem exec_smvComplete {st : Nat} (ends : g.stop = .none ∧ st = 0 ∨ g.stop = .span ∧ st = 3) :
    exec (.smvComplete id) s = .next { s with m := endCmd (smvKept c0 first) st m2 } := by
  refine device_ok ((bind_of (smvReady_of found smv may stack rows)).trans ?_)
  rcases ends with ⟨stop, rfl⟩ | ⟨stop, rfl⟩ <;> (dsimp only; rw [stop, bind_of (enabledIf_of rfl _), bind_of served]; exact bind_of done)

theorem exec_smvFault {f : Nat × EngAt} (stop : g.stop = .fault f) :
    exec (.gpRowFault id) s = .next { s with m := engStop { smvKept c0 first with prog := g.hi, served := [] } f .read m2 } := by
  have other : ¬ isGp c0.op = true := by rw [smv]; decide
  refine device_ok ?_
  rw [bind_of (get_apply _), found, bind_of (need_some ..), if_neg other, if_pos smv]
  unfold smvFault
  rw [bind_of (smvReady_of found smv may stack rows)]
  dsimp only
  rw [stop]
  exact (bind_of served).trans (bind_of done)

end

theorem matvecEnds : MatvecEnds := fun _ _ _ _ _ _ _ _ found smv may stack rows served done =>
  ⟨fun stop => exec_smvComplete found smv may stack rows served done (.inl ⟨stop, rfl⟩),
    fun stop => exec_smvComplete found smv may stack rows served done (.inr ⟨stop, rfl⟩),
    fun _ stop => exec_smvFault found smv may stack rows served done stop⟩

/-! ## Copies (R211 to R213) -/

section
variable {id : Nat} {c0 : Cmd} {s : State} {q : List Nat} {m : Mach} (found : s.m.cmds.find? (fun c => c.id == id) = some c0)
  (copy : isCopy c0.op = true) (read : copyRead c0 s.m = .ok (q, m))

/-- The record that the copy finds. -/
def foundRec (c0 : Cmd) (q : List Nat) : CopyRec := copyRec c0.op q

/-- The copy where its record says. -/
def foundCopy (c0 : Cmd) (q : List Nat) : Cmd := c0.where_ (foundRec c0 q)

/-- The record is none that issue would refuse. -/
def goodRec (c0 : Cmd) (q : List Nat) (m : Mach) : Prop :=
  copyBad (foundCopy c0 q).op q = false ∧ copyFails m (foundCopy c0 q).slot (foundCopy c0 q).op (foundRec c0 q) = none

theorem goodRec_iff : (copyBad (foundCopy c0 q).op q || (copyFails m (foundCopy c0 q).slot (foundCopy c0 q).op (foundRec c0 q)).isSome) = false ↔
    goodRec c0 q m := by
  rw [Bool.or_eq_false_iff, Option.isSome_eq_false_iff, Option.isNone_iff_eq_none]
  rfl

/-- A command that may go on has no stop to run to. -/
theorem copyRuns_may {c : Cmd} {r : CopyRec} (may : cmdMay m c = true) : copyRuns m c r = false := by
  have unstopped : (m.ctx c.ctx).pre = none := by
    simp only [cmdMay, Bool.and_eq_true, Option.isNone_iff_eq_none] at may
    exact may.1.2
  unfold copyRuns
  rw [unstopped]
  simp

include found copy read

theorem copyOf_of : copyOf id s.m = .ok ((foundCopy c0 q, q, foundRec c0 q), m) := by
  unfold copyOf
  rw [bind_of (get_apply _), find?_and found (q := fun c => isCopy c.op) copy, bind_of (need_some ..), bind_of read]
  rfl

theorem exec_copyComplete_on {m1 : Mach} (runs : copyRuns m (foundCopy c0 q) (foundRec c0 q) = true)
    (on_ : copyOn (foundCopy c0 q) (foundRec c0 q) m = .ok ((), m1)) : exec (.copyComplete id) s = .next { s with m := m1 } := by
  refine device_ok ((bind_of (copyOf_of found copy read)).trans ((bind_of (get_apply _)).trans ?_))
  exact (congrFun (if_pos runs) _).trans on_

variable (may : cmdMay m (foundCopy c0 q) = true)
include may

theorem exec_copyComplete_bad (bad : ¬ goodRec c0 q m) : exec (.copyComplete id) s = .next (.mk (endCmd (foundCopy c0 q) 4
    (copyWriteBack (foundCopy c0 q) ((foundCopy c0 q).args.getD 1 0) ((foundCopy c0 q).args.getD 2 0) (some 4) m)) s.boot) := by
  refine device_ok ((bind_of (copyOf_of found copy read)).trans ((bind_of (get_apply _)).trans ?_))
  refine (congrFun (if_neg (Bool.eq_false_iff.1 (copyRuns_may may))) _).trans ((bind_of (enabledIf_of may _)).trans ?_)
  exact congrFun (if_pos (Bool.eq_true_of_not_eq_false fun good => bad (goodRec_iff.1 good))) _

variable (good : goodRec c0 q m)
include good

theorem exec_copyComplete_keys {m1 : Mach} (keys : (foundCopy c0 q).op = 0xCC) (push : copyPush (foundCopy c0 q) (foundRec c0 q) m = .ok ((), m1)) :
    exec (.copyComplete id) s = .next { s with m := m1 } := by
  refine device_ok ((bind_of (copyOf_of found copy read)).trans ((bind_of (get_apply _)).trans ?_))
  refine (congrFun (if_neg (Bool.eq_false_iff.1 (copyRuns_may may))) _).trans ((bind_of (enabledIf_of may _)).trans ?_)
  exact (congrFun (if_neg (Bool.eq_false_iff.1 (goodRec_iff.2 good))) _).trans ((congrFun (if_pos keys) _).trans push)

section
variable {g : CopyGo} {m1 m2 : Mach} (bytes : (foundCopy c0 q).op ≠ 0xCC)
  (rows : copyRows (foundCopy c0 q) (foundRec c0 q) ((foundRec c0 q).rows - (foundCopy c0 q).args.getD 1 0) ((foundCopy c0 q).args.getD 1 0)
    ((foundCopy c0 q).args.getD 2 0) m = .ok (g, m1))
  (served : copyLines (foundCopy c0 q) (foundRec c0 q) g.bytes m1 = .ok ((), m1))
  (copied : copyBytes (foundCopy c0 q) (foundRec c0 q) g.bytes m1 = .ok ((), m2))
include bytes rows served copied

theorem exec_copyComplete (sound : g.fault = none) : exec (.copyComplete id) s =
    .next { s with m := endCmd (foundCopy c0 q) 0 (copyWriteBack (foundCopy c0 q) (foundRec c0 q).rows 0 (some 0) m2) } := by
  refine device_ok ((bind_of (copyOf_of found copy read)).trans ((bind_of (get_apply _)).trans ?_))
  refine (congrFun (if_neg (Bool.eq_false_iff.1 (copyRuns_may may))) _).trans ((bind_of (enabledIf_of may _)).trans ?_)
  refine (congrFun (if_neg (Bool.eq_false_iff.1 (goodRec_iff.2 good))) _).trans ((congrFun (if_neg bytes) _).trans ?_)
  exact (bind_of rows).trans ((bind_of (enabledIf_of (Option.isNone_iff_eq_none.2 sound) _)).trans ((bind_of served).trans (bind_of copied)))

theorem exec_copyFault {f : Machine.Acc × Nat × EngAt} (fault : g.fault = some f) : exec (.gpRowFault id) s = .next (.mk (engStop { foundCopy c0 q with
      args := copyArgs ((foundCopy c0 q).args.getD 0 0) (foundRec c0 q) g.row g.byte
      prog := copyProg (foundCopy c0 q) (foundRec c0 q) g.row g.byte
      served := [] } f.2 f.1 m2) s.boot) := by
  have noGp : ¬ isGp c0.op = true := by
    intro gp
    simp only [isGp, Bool.or_eq_true, beq_iff_eq] at gp
    rcases gp with (op | op) | op <;> (rw [op] at copy; exact absurd copy (by decide))
  have noSmv : ¬ c0.op = 0xD0 := by
    intro op
    rw [op] at copy
    exact absurd copy (by decide)
  have stands : ((cmdMay m (foundCopy c0 q) || copyRuns m (foundCopy c0 q) (foundRec c0 q)) &&
      !(copyBad (foundCopy c0 q).op q || (copyFails m (foundCopy c0 q).slot (foundCopy c0 q).op (foundRec c0 q)).isSome)) = true := by
    rw [may, goodRec_iff.2 good]
    rfl
  have unheld : (cmdMay m (foundCopy c0 q) || g.bytes.isEmpty) = true := by rw [may]; rfl
  have noKeys : ((foundCopy c0 q).op != 0xCC || decide (g.bytes.length < 8) && !copyBefore m (foundCopy c0 q)) = true := by
    rw [bne_iff_ne.2 bytes]
    rfl
  refine device_ok ?_
  rw [bind_of (get_apply _), found, bind_of (need_some ..), if_neg noGp, if_neg noSmv, if_pos copy]
  unfold copyFault
  rw [bind_of (copyOf_of found copy read), bind_of (get_apply _)]
  refine (bind_of (enabledIf_of stands _)).trans ((bind_of rows).trans ?_)
  rw [fault]
  refine (bind_of (need_some ..)).trans ((bind_of (enabledIf_of unheld _)).trans ((bind_of (enabledIf_of noKeys _)).trans ?_))
  exact (congrFun (if_neg bytes) _).trans ((bind_of served).trans (bind_of copied))

end
end

theorem copyEnds : CopyEnds := fun _ _ _ _ _ found copy read =>
  ⟨fun _ runs on_ => exec_copyComplete_on found copy read runs on_, fun may => ⟨exec_copyComplete_bad found copy read may,
    fun _ good keys push => exec_copyComplete_keys found copy read may good keys push,
    fun _ _ _ good bytes rows served copied => ⟨exec_copyComplete found copy read may good bytes rows served copied,
      fun _ fault => exec_copyFault found copy read may good bytes rows served copied fault⟩⟩⟩

/-! ## Set operations (R187, R209, R210) -/

theorem setOpEnds : SetOpEnds := by
  intro id c s lx ly m m1 found may oldest turn arg es readX readY entries r m2 m3
  have first : ((s.m.cmds.find? (fun x => x.tl == 3 && coreOf x.slot == coreOf c.slot && x.ctx == c.ctx)) == some c &&
      ((s.m.pair c.ctx (pairOf (coreOf c.slot))).busy.isNone || decide (c.id < (s.m.pair c.ctx (pairOf (coreOf c.slot))).from_))) = true := by
    rw [oldest, beq_self_eq_true, Bool.true_and, Bool.or_eq_true, Option.isNone_iff_eq_none, decide_eq_true_iff]
    exact turn
  refine device_ok ?_
  rw [bind_of (get_apply _), found, bind_of (need_some ..), bind_of (enabledIf_of may _)]
  exact (bind_of (enabledIf_of first _)).trans ((bind_of readX).trans ((bind_of readY).trans (change_apply ..)))

theorem engineCommandsEnd : EngineCommandsEnd := ⟨gatherEnds, matvecEnds, copyEnds, setOpEnds⟩

end Sys2Proof.Claim
end

section
/-! PROOFS. Remote commands and collectives complete or stop (R198, R310 to R316). -/
namespace Sys2Proof.Claim
open Machine

/-! ## Collectives (R313 to R316) -/

section
variable {id : Nat} {c : Cmd} {s : State} (found : s.m.cmds.find? (fun c => c.id == id && c.op == 0xD2) = some c)
  (running : (s.m.ctx c.ctx).st = .running)
include found running

theorem collCmd_of : collCmd id s.m = .ok (c, s.m) := by
  unfold collCmd
  rw [bind_of (get_apply _), found, bind_of (need_some ..), bind_of (enabledIf_of (by rw [running]; rfl) _)]
  rfl

theorem exec_collResult_late (others : List (List Nat)) : exec (.collResult id others true) s = .next (goes (collEnd c 5) s) :=
  device_ok (bind_of (collCmd_of found running))

theorem exec_collResult {others : List (List Nat)} {own : List Nat} {m : Mach} (all : others.length + 1 = c.coll.nrank)
    (passed : c.coll.ring = true → c.coll.rank = 0 ∨ c.prog = 1)
    (served : engLines c ((collSrc c).map (· / 128)) ((collDst c).map (· / 128)) s.m = .ok ((), s.m)) (input : collInput c s.m = .ok (own, m)) :
    let out := collOutput c.coll (others.take c.coll.rank ++ [own] ++ others.drop c.coll.rank)
    exec (.collResult id others false) s =
      .next { s with m := collEnd c 0 (engStore ((collDst c).zip ((out.map (toLE (collSize c.coll.fmt))).flatten)) m) } := by
  have enabled : (others.length + 1 == c.coll.nrank && (!c.coll.ring || c.coll.rank == 0 || c.prog == 1)) = true := by
    rw [Bool.and_eq_true, beq_iff_eq, Bool.or_eq_true, Bool.or_eq_true, beq_iff_eq, beq_iff_eq, Bool.not_eq_true']
    refine ⟨all, ?_⟩
    cases ring : c.coll.ring with
    | false => exact .inl (.inl rfl)
    | true => exact (passed ring).imp_left .inr
  refine device_ok ((bind_of (collCmd_of found running)).trans ?_)
  exact (bind_of (enabledIf_of enabled _)).trans ((bind_of served).trans (bind_of input))

theorem exec_collPartialResult {others : List (List Nat)} {own : List Nat} {m : Mach} (ring : c.coll.ring = true) (rank : c.coll.rank ≠ 0)
    (fresh : c.prog = 0) (earlier : others.length = c.coll.rank) (served : engLines c ((collSrc c).map (· / 128)) [] s.m = .ok ((), s.m))
    (input : collInput c s.m = .ok (own, m)) :
    let sent := if c.coll.op ≤ 1 then (List.range c.coll.cnt).map (collAcc c.coll.red c.coll.fmt (others ++ [own])) else (others ++ [own]).flatten
    exec (.collPartialResult id others) s = .next { s with m := setCmd { c with prog := 1, args := c.args ++ sent } m } := by
  have enabled : (c.coll.ring && c.coll.rank != 0 && c.prog == 0 && others.length == c.coll.rank) = true := by
    rw [ring, bne_iff_ne.2 rank, fresh, beq_iff_eq.2 earlier]
    rfl
  refine device_ok ((bind_of (collCmd_of found running)).trans ?_)
  exact (bind_of (enabledIf_of enabled _)).trans ((bind_of served).trans (bind_of input))

theorem exec_collSwitchTimeout (switch : c.coll.ring = false) (late : c.issued + 200000 ≤ s.m.sid) :
    exec (.collSwitchTimeout id) s = .next (goes (collEnd c 5) s) := by
  have enabled : (!c.coll.ring && decide (c.issued + 200000 ≤ s.m.sid)) = true := by rw [switch, decide_eq_true late]; rfl
  refine device_ok ((bind_of (collCmd_of found running)).trans ((bind_of (get_apply _)).trans ?_))
  exact bind_of (enabledIf_of enabled _)

theorem exec_collRingTimeout (ring : c.coll.ring = true) (rank : c.coll.rank ≠ 0) (fresh : c.prog = 0) (late : c.issued + 10000000 ≤ s.m.sid) :
    exec (.collRingTimeout id) s = .next (goes (collEnd c 5) s) := by
  have enabled : (c.coll.ring && c.coll.rank != 0 && c.prog == 0 && decide (c.issued + 10000000 ≤ s.m.sid)) = true := by
    rw [ring, bne_iff_ne.2 rank, fresh, decide_eq_true late]
    rfl
  refine device_ok ((bind_of (collCmd_of found running)).trans ((bind_of (get_apply _)).trans ?_))
  exact bind_of (enabledIf_of enabled _)

end

/-! ## A CONTRACT asked to stop (R198, R273) -/

section
variable {k : Nat} {s : State}

/-- The pair's engine of the slot. -/
def enginePair (k : Nat) (s : State) : Pair := s.m.pair (s.m.slot k).ctx (pairOf (coreOf k))

theorem exec_contractPreemptTimeout (running : (s.m.slot k).run = .running)
    (late : ((s.m.ctx (s.m.slot k).ctx).pre.isSome = true ∧ (s.m.ctx (s.m.slot k).ctx).preAt + 8000 ≤ s.m.sid) ∨
      ∃ g G, (s.m.slot k).task.bind (·.e.gang) = some g ∧ s.m.gangs.find g = some G ∧ G.wd = true ∧ G.timer + 8000 ≤ s.m.sid)
    (busy : (enginePair k s).busy = some k) (group : (enginePair k s).group.isSome = true) (going : (s.m.slot k).wait ≠ some .stopped)
    (boundary : (∃ g, (enginePair k s).group = some g ∧ g.opening = false) ∨ (s.m.slot k).parked = true ∨
      ∃ a b c d e f, (s.m.slot k).wait = some (.keyHead a b c d e f)) :
    exec (.contractPreemptTimeout k) s = .next (goes (fun m => m.updSlot k (fun y => { y with wait := some .stopped })) s) := by
  have isLate : ((s.m.ctx (s.m.slot k).ctx).pre.isSome && decide ((s.m.ctx (s.m.slot k).ctx).preAt + 8000 ≤ s.m.sid)
      || (((s.m.slot k).task.bind (·.e.gang)).bind s.m.gangs.find).any (fun G => G.wd && decide (G.timer + 8000 ≤ s.m.sid))) = true := by
    rw [Bool.or_eq_true]
    rcases late with ⟨asked, time⟩ | ⟨g, G, member, gang, watched, time⟩
    · exact .inl (by rw [asked, decide_eq_true time]; rfl)
    · refine .inr ?_
      rw [member, Option.bind_some, gang, Option.any_some, watched, decide_eq_true time]
      rfl
  have atBoundary : ((enginePair k s).group.any (fun g => !g.opening) || (match (s.m.slot k).wait with
      | some (.keyHead _ _ _ _ _ _) => true
      | _ => (s.m.slot k).parked)) = true := by
    rw [Bool.or_eq_true]
    rcases boundary with ⟨g, open_, probing⟩ | parked | ⟨a, b, c, d, e, f, waits⟩
    · exact .inl (by rw [open_, Option.any_some, probing]; rfl)
    · refine .inr ?_
      rw [parked]
      split <;> rfl
    · exact .inr (by rw [waits])
  refine device_ok ((bind_of (get_apply _)).trans ?_)
  refine bind_of (enabledIf_of ?_ _)
  simp only [Bool.and_eq_true]
  exact ⟨⟨⟨⟨⟨by rw [running]; rfl, isLate⟩, beq_iff_eq.2 busy⟩, group⟩, atBoundary⟩, bne_iff_ne.2 going⟩

end

/-! ## Remote commands (R310 to R312) -/

theorem remoteCommandsEnd : RemoteCommandsEnd := by
  refine ⟨?_, fun id c s found running => ⟨exec_collResult_late found running, fun _ _ _ all passed served input =>
      exec_collResult found running all passed served input, fun _ _ _ ring rank fresh earlier served input =>
      exec_collPartialResult found running ring rank fresh earlier served input, exec_collSwitchTimeout found running, exec_collRingTimeout found running⟩,
    fun _ _ running late busy group going boundary => exec_contractPreemptTimeout running late busy group going boundary⟩
  intro id c s found running first pa n pas lines readsLines served
  have enabled : ((s.m.ctx c.ctx).st == .running && !remoteEarlier s.m c) = true := by rw [running, first]; rfl
  have reads : ((c.op == 0xD4 && paKind s.m.dev (c.args.getD 0 0) != .peer) = true) = readsLines := by
    rw [Bool.and_eq_true, beq_iff_eq, bne_iff_ne]
  refine ⟨fun l m put read => ?_, fun sound => ⟨fun get_ => ?_, fun atomic => ?_, fun reduction => ?_⟩⟩
  all_goals
    refine device_ok ?_
    rw [bind_of (get_apply _), found, bind_of (need_some ..), bind_of (enabledIf_of enabled _)]
    dsimp only
    simp only [reads]
    refine (bind_of served).trans ?_
  · exact (congrFun (if_pos put) _).trans (bind_of read)
  all_goals
    refine (congrFun (if_neg (by omega)) _).trans ((bind_of (change_apply ..)).trans ((bind_of (get_apply _)).trans ?_))
    rw [List.find?_eq_none.2 fun a ha => Bool.eq_false_iff.1 (sound a ha)]
  · exact congrFun (if_pos get_) _
  · refine (congrFun (if_neg (by omega)) _).trans ((bind_of (change_apply ..)).trans ((bind_of (change_apply ..)).trans ((change_apply ..).trans ?_)))
    rw [if_pos atomic]
  · refine (congrFun (if_neg (by omega)) _).trans ((bind_of (change_apply ..)).trans ((bind_of (change_apply ..)).trans ((change_apply ..).trans ?_)))
    rw [if_neg (by omega)]

/-- Settles O51. -/
theorem commandsEnd : Obligations.CommandsEnd := ⟨engineCommandsEnd, remoteCommandsEnd⟩

end Sys2Proof.Claim
end

section
/-! PROOFS. Packets (R262): the statement fails where the notification ring lies over a poisoned packet. -/
namespace Sys2Proof.Claim
open Machine Test

/-- Where the packet stands, in host memory. -/
def packetPlace : Nat := 3 * 2 ^ 50

/-- A queue with a gang of an earlier packet still running, and a poisoned packet with BAR at the place where the next notification record goes. -/
def packetUnderRing : State := withMach (fun m => { m with
    mem := [(packetPlace + 1, 1)]
    poison := [packetPlace]
    dev := { m.dev with nring := some (packetPlace, 10), red := false } })
  (withCtx (fun c => { c with st := .running, qbase := packetPlace, queues := [(0, ⟨1, 0, [(5, .running 0)], false⟩)] }) demo)

/-- What is left of the first queue. -/
def queueAfter : Host.Outcome State Fault Refusal → Option Queue
  | .next t => some ((t.m.ctx 0).queues.get Queue.init 0)
  | _ => none

/-- The dispatcher meets the poison and tells the host; the record overwrites the packet's header, whose TYPE is now reserved. -/
theorem packetUnderRing_fails : queueAfter (exec (.packetParse 0 0) packetUnderRing) = some ⟨1, 1, [(5, .running 0)], true⟩ := by decide

/-- Refutes O52: PACKET_PARSE reads BAR after it has told the host of poison in the packet (R344), and the statement reads it before; the host's
ring may lie over the packet. -/
theorem not_taskAndQueueEvents : ¬ Obligations.TaskAndQueueEvents := by
  intro h
  obtain ⟨-, queues, -⟩ := h
  obtain ⟨packets, -⟩ := queues 0 0 packetUnderRing
  obtain ⟨-, parses⟩ := packets rfl rfl (by decide) (fun red => absurd red (by decide))
  obtain ⟨waits, -⟩ := parses (by decide) (by decide)
  have fails := packetUnderRing_fails
  rw [waits (by decide) (by decide)] at fails
  exact absurd fails (by decide)

end Sys2Proof.Claim
end

section
/-! PROOFS. Cluster, law and event units and the event ports (R114, R147, R157, R158, R163 to R166, R247, R270, R360). -/
namespace Sys2Proof.Claim
open Machine

/-! ## Constellations (R270) -/

section
variable {cl i : Nat} {n : Node} {x : Constel} {s : State} (found : (s.m.cluster cl).nodes.find i = some n)
  (member : (s.m.cluster cl).cons.find n.con = some x) (going : (n.live && !n.finished && !n.stuck && n.npred == 0 && (s.m.ctx x.ctx).st == .running) = true)
include found member going

/-- A node that waits for nothing is launched, has ended, or reaches for its counter. -/
theorem exec_nodeFinish_launches (fresh : n.launched = false)
    (launches : (((launchNode cl i s.m).cluster cl).nodes.find i).any (·.launched) = true ∨ ((launchNode cl i s.m).ctx x.ctx).st = .ended) :
    exec (.nodeFinish cl i) s = .next (goes (launchNode cl i) s) := by
  have enabled : ((((launchNode cl i s.m).cluster cl).nodes.find i).any (·.launched) || ((launchNode cl i s.m).ctx x.ctx).st == .ended) = true := by
    rw [Bool.or_eq_true, beq_iff_eq]
    exact launches
  refine device_ok ?_
  rw [bind_of (get_apply _), found, bind_of (need_some ..), member, bind_of (need_some ..), bind_of (enabledIf_of going _), fresh]
  exact bind_of (enabledIf_of enabled _)

variable (launched : n.launched = true)
include launched

theorem exec_nodeFinish_work (work : n.kind ≤ 1) (ended : n.ended = true) : exec (.nodeFinish cl i) s = .next (goes (finishNode cl i n) s) := by
  refine device_ok ?_
  rw [bind_of (get_apply _), found, bind_of (need_some ..), member, bind_of (need_some ..), bind_of (enabledIf_of going _), launched]
  exact (congrFun (if_pos work) _).trans (bind_of (enabledIf_of ended _))

section
variable (counts : 1 < n.kind) {m : Mach} (reached : nodeFind (s.m.ctx x.ctx) x.slot n s.m = m)
include counts reached

theorem exec_nodeFinish_poison {a : Nat} (bad : nodePoison m (s.m.ctx x.ctx) x.slot n = some a) :
    exec (.nodeFinish cl i) s = .next { s with m := endContext x.ctx 0x81 x.slot a m } := by
  refine device_ok ?_
  rw [bind_of (get_apply _), found, bind_of (need_some ..), member, bind_of (need_some ..), bind_of (enabledIf_of going _), launched]
  refine (congrFun (if_neg (Nat.not_le.2 counts)) _).trans ?_
  rw [reached, bad]
  rfl

variable (sound : nodePoison m (s.m.ctx x.ctx) x.slot n = none)
include sound

theorem exec_nodeFinish_sticks (lost : counterAt m (s.m.ctx x.ctx) n = none) :
    exec (.nodeFinish cl i) s = .next { s with m := stickNode cl i n m } := by
  refine device_ok ?_
  rw [bind_of (get_apply _), found, bind_of (need_some ..), member, bind_of (need_some ..), bind_of (enabledIf_of going _), launched]
  refine (congrFun (if_neg (Nat.not_le.2 counts)) _).trans ?_
  rw [reached, sound]
  dsimp only
  rw [lost]
  rfl

variable {pa : Nat} (counter : counterAt m (s.m.ctx x.ctx) n = some pa)
include counter

theorem exec_nodeFinish_signals (signal : n.kind = 2) : exec (.nodeFinish cl i) s =
    .next { s with m := finishNode cl i n (engStore (cellsAt pa (toLE 8 ((m.mem.num pa 8 + n.val) % 2 ^ 64))) m) } := by
  refine device_ok ?_
  rw [bind_of (get_apply _), found, bind_of (need_some ..), member, bind_of (need_some ..), bind_of (enabledIf_of going _), launched]
  refine (congrFun (if_neg (Nat.not_le.2 counts)) _).trans ?_
  rw [reached, sound]
  dsimp only
  rw [counter]
  exact congrFun (if_pos signal) _

theorem exec_nodeFinish_counted (waits : n.kind ≠ 2) (there : n.val ≤ m.mem.num pa 8) :
    exec (.nodeFinish cl i) s = .next { s with m := finishNode cl i n m } := by
  refine device_ok ?_
  rw [bind_of (get_apply _), found, bind_of (need_some ..), member, bind_of (need_some ..), bind_of (enabledIf_of going _), launched]
  refine (congrFun (if_neg (Nat.not_le.2 counts)) _).trans ?_
  rw [reached, sound]
  dsimp only
  rw [counter]
  exact (congrFun (if_neg waits) _).trans (bind_of (enabledIf_of (decide_eq_true there) _))

end
end

/-! ## The other units (R116, R147, R157, R158, R245, R247) -/

theorem unitEvents : UnitEvents := by
  refine ⟨fun cl i n x s found member live unfinished unstuck ready running => ?_, ?_, fun cl i h e m s found held pushed => ?_,
    fun u place e s due => ?_, fun n r s found turn unwalked => ?_, ?_⟩
  · have going : (n.live && !n.finished && !n.stuck && n.npred == 0 && (s.m.ctx x.ctx).st == .running) = true := by
      rw [live, unfinished, unstuck, ready, running]
      rfl
    exact ⟨exec_nodeFinish_launches found member going, exec_nodeFinish_work found member going, fun launched counts =>
      ⟨fun _ bad => exec_nodeFinish_poison found member going launched counts rfl bad, fun sound =>
        ⟨exec_nodeFinish_sticks found member going launched counts rfl sound, fun _ counter =>
          ⟨exec_nodeFinish_signals found member going launched counts rfl sound counter,
            exec_nodeFinish_counted found member going launched counts rfl sound counter⟩⟩⟩⟩
  · intro n x s found oldest m0 u
    have first : (!(s.m.notices.take n).any (fun y => y.cluster == x.cluster && homeOf y.block == homeOf x.block)) = true := by
      rw [Bool.not_eq_true', List.any_eq_false]
      intro y hy same
      rw [Bool.and_eq_true, beq_iff_eq, beq_iff_eq] at same
      exact oldest y hy same
    refine ⟨fun gone => ?_, fun e sub other => ?_, fun e sub same kept => ?_⟩
    on_goal 3 => refine ⟨fun idle => ?_, fun h held pending => ?_, fun h runs => ?_⟩
    all_goals
      refine device_ok ((bind_of (get_apply _)).trans ?_)
      rw [found]
      refine (bind_of (need_some ..)).trans ((bind_of (enabledIf_of first _)).trans ?_)
    · rw [gone]
      rfl
    · rw [sub]
      exact congrFun (if_pos (by rw [Bool.or_eq_true, bne_iff_ne]; exact other)) _
    all_goals
      have stays : ¬ (e.block != x.block || e.freed) = true := by rw [same, kept, bne_self_eq_false]; exact Bool.false_ne_true
      rw [sub]
      refine (congrFun (if_neg stays) _).trans ?_
      simp only [decide_eq_true_iff]
    · rw [idle]
      rfl
    · rw [pending]
      rfl
    · rw [runs]
      rfl
  · refine ⟨fun freed => ?_, fun kept => ?_⟩
    all_goals
      refine device_ok ((bind_of (get_apply _)).trans ?_)
      rw [found]
      refine (bind_of (need_some ..)).trans ?_
      rw [held]
      dsimp only
      rw [pushed]
      refine (bind_of (need_some ..)).trans ?_
    · rw [freed]
      rfl
    · rw [kept]
      rfl
  · refine device_ok ((bind_of (get_apply _)).trans ?_)
    simp only [beq_iff_eq]
    rw [due, bind_of (need_some ..)]
    rfl
  · have inOrder : (r.unit.isNone || !(s.m.records.take n).any (fun y => y.slot == r.slot && y.ctx == r.ctx && y.unit == r.unit)) = true := by
      rw [Bool.or_eq_true, Option.isNone_iff_eq_none, Bool.not_eq_true', List.any_eq_false]
      refine or_iff_not_imp_left.2 fun unit y hy same => ?_
      rw [Bool.and_eq_true, Bool.and_eq_true, beq_iff_eq, beq_iff_eq, beq_iff_eq] at same
      exact turn unit y hy ⟨same.1.1, same.1.2, same.2⟩
    refine device_ok ((bind_of (get_apply _)).trans ?_)
    rw [found]
    exact (bind_of (need_some ..)).trans ((bind_of (enabledIf_of inOrder _)).trans (bind_of (enabledIf_of (by rw [unwalked]; rfl) _)))
  · intro k pa s y used running some_ room unwalked maps memory
    have ready : ((s.m.slot k).run != .free && (s.m.ctx (s.m.slot k).ctx).st == .running && (s.m.slot k).rq != 0 &&
        decide ((s.m.slot k).evq.length < evRoom s.m (s.m.slot k).ctx)) = true := by
      simp only [Bool.and_eq_true, bne_iff_ne, beq_iff_eq, decide_eq_true_iff]
      exact ⟨⟨⟨used, running⟩, some_⟩, room⟩
    refine device_ok ((bind_of (get_apply _)).trans ((bind_of (enabledIf_of ready _)).trans ?_))
    refine (bind_of (enabledIf_of (by rw [unwalked]; rfl) _)).trans ?_
    rw [maps]
    exact (bind_of (need_some ..)).trans (bind_of (enabledIf_of (bne_iff_ne.2 memory) _))

/-! ## Event ports (R114, R163 to R166, R360) -/

theorem portEvents : PortEvents := by
  refine ⟨fun port frame s inside up => ?_, fun n x r s found asked head => ?_, fun port offset ppm v6 lead faster s inside slow up => ?_⟩
  · have open_ : (decide (port < 2) && decide (6 ≤ s.m.dev.step)) = true := by rw [decide_eq_true inside, decide_eq_true up]; rfl
    refine ⟨?_, fun none_ => ?_, fun d some_ => ⟨fun ptp => ?_, fun event general unmatched => ?_, fun r event general matched => ?_⟩⟩
    all_goals
      refine device_ok ((bind_of (get_apply _)).trans ((bind_of (enabledIf_of open_ _)).trans ?_))
    · rfl
    · rw [none_]
      rfl
    · rw [some_]
      exact congrFun (if_pos ptp) _
    · rw [some_]
      refine (congrFun (if_neg (not_or.2 ⟨event, general⟩)) _).trans ?_
      rw [List.find?_eq_none.2 fun r hr => Bool.eq_false_iff.1 (unmatched r hr)]
      rfl
    · rw [some_]
      refine (congrFun (if_neg (not_or.2 ⟨event, general⟩)) _).trans ?_
      rw [matched]
      rfl
  · intro m m0 w
    refine ⟨fun none_ => ?_, fun d law => ?_⟩
    on_goal 2 => intro present
    all_goals
      refine device_ok ((bind_of (get_apply _)).trans ?_)
      rw [found]
      refine (bind_of (need_some ..)).trans ?_
      rw [asked]
      refine (bind_of (need_some ..)).trans ((bind_of (enabledIf_of head _)).trans ((bind_of (change_apply ..)).trans ((bind_of (get_apply _)).trans ?_)))
    · rw [none_]
      rfl
    · have clock : (fun dom => ((m.ctx x.ctx).stepped.find dom).getD present) = fun dom => match (m.ctx x.ctx).stepped.find dom with
          | some t => t
          | none => present := by
        funext dom
        cases (m.ctx x.ctx).stepped.find dom <;> rfl
      rw [law, clock]
      rfl
  · intro d
    refine ⟨fun none_ => ?_, fun some_ => ?_, fun locked version some_ => ?_⟩
    · have open_ : (decide (port < 2) && decide (ppm ≤ 200) && decide (6 ≤ s.m.dev.step)) = true := by
        rw [decide_eq_true inside, decide_eq_true slow, decide_eq_true up]
        rfl
      exact device_ok ((bind_of (get_apply _)).trans ((bind_of (enabledIf_of open_ _)).trans (congrFun (if_pos none_) _)))
    · have open_ : (decide (port < 2) && decide (ppm ≤ 200) && decide (6 ≤ s.m.dev.step)) = true := by
        rw [decide_eq_true inside, decide_eq_true slow, decide_eq_true up]
        rfl
      exact device_ok ((bind_of (get_apply _)).trans ((bind_of (enabledIf_of open_ _)).trans (congrFun (if_neg some_) _)))
    · have open_ : (decide (port < 2) && d.locked && d.v6 == v6 && d.source v6 != 0) = true := by
        rw [decide_eq_true inside, locked, version, beq_self_eq_true, bne_iff_ne.2 some_]
        rfl
      exact device_ok ((bind_of (get_apply _)).trans (bind_of (enabledIf_of open_ _)))

/-- Settles O53. -/
theorem unitAndPortEvents : Obligations.UnitAndPortEvents := ⟨unitEvents, portEvents⟩

end Sys2Proof.Claim
end

section
/-! PROOFS. The host's accesses, and links, power and heat (R5, R10, R261, R338, R343, R344, R350 to R359, R364, R365, R368, R369). -/
namespace Sys2Proof.Claim
open Machine

/-! ## BAR2 (R10, R344, R350, R351) -/

section
variable {a : Nat} {s : State} (up : linksUp s.m.dev = true)
include up

section
variable {n : Nat} (inside : a + n ≤ 2 ^ 42)
include inside

theorem exec_bar2Read_hole (hole : bar2Ok s.m.dev a n = false) : exec (.hostBar2Read a n) s = .next (goes (hostAnswer [] true) s) := by
  refine device_ok ((bind_of (get_apply _)).trans ((bind_of (enabledIf_of (by rw [up, decide_eq_true inside]; rfl) _)).trans ?_))
  rw [hole]
  rfl

section
variable (memory : bar2Ok s.m.dev a n = true) (served : bar2Waits s.m.dev a n = false) (free : homesFree s.m a n = true) {pas : List Nat} {m : Mach}
  (places : (List.range n).map (a + ·) = pas) (found : engFind pas s.m = m)
include memory served free places found

/-- The bytes that a read answers, free values where they are poisoned. -/
def bar2Bytes (n : Nat) (pas : List Nat) (m : Mach) : List Nat :=
  pas.zipIdx.map (fun b => if poisonAt m b.1 then (freeBytes m.fresh n).getD b.2 0 else m.mem.rd b.1)

/-- A read of HBM in service is answered, and the host is told of poison. -/
theorem exec_bar2Read : exec (.hostBar2Read a n) s = .next (.mk ((pas.find? (poisonAt m)).elim (hostAnswer (bar2Bytes n pas m) false m)
    (fun p => notify 0x0A 0 0 0 0 0 (p / 8 * 8) (hostAnswer (bar2Bytes n pas m) false { m with fresh := m.fresh + n }))) s.boot) := by
  subst places found
  refine device_ok ((bind_of (get_apply _)).trans ((bind_of (enabledIf_of (by rw [up, decide_eq_true inside]; rfl) _)).trans ?_))
  rw [memory]
  refine (bind_of (enabledIf_of (by rw [served, free]; rfl) _)).trans ((bind_of (change_apply ..)).trans ((change_apply ..).trans ?_))
  refine congrArg (fun m => Except.ok ((), m)) ?_
  dsimp only
  cases ((List.range n).map (a + ·)).find? (poisonAt (engFind ((List.range n).map (a + ·)) s.m)) <;> rfl

theorem exec_bar2Read_sound (sound : ∀ p ∈ pas, poisonAt m p = false) :
    exec (.hostBar2Read a n) s = .next { s with m := hostAnswer (pas.map m.mem.rd) false m } := by
  have bytes : bar2Bytes n pas m = pas.map m.mem.rd := by
    calc bar2Bytes n pas m
        = pas.zipIdx.map (fun b => m.mem.rd b.1) := List.map_congr_left fun b hb => if_neg (Bool.eq_false_iff.1 (sound b.1 (List.fst_mem_of_mem_zipIdx hb)))
      _ = (pas.zipIdx.map Prod.fst).map m.mem.rd := (List.map_map ..).symm
      _ = pas.map m.mem.rd := by rw [List.zipIdx_map_fst]
  rw [exec_bar2Read up inside memory served free places found, List.find?_eq_none.2 fun p hp => Bool.eq_false_iff.1 (sound p hp), bytes]
  rfl

theorem exec_bar2Read_poison {p : Nat} (bad : pas.find? (poisonAt m) = some p) :
    let out := pas.zipIdx.map (fun b => if poisonAt m b.1 then (freeBytes m.fresh n).getD b.2 0 else m.mem.rd b.1)
    exec (.hostBar2Read a n) s = .next { s with m := notify 0x0A 0 0 0 0 0 (p / 8 * 8) (hostAnswer out false { m with fresh := m.fresh + n }) } := by
  rw [exec_bar2Read up inside memory served free places found, bad]
  rfl

end
end

section
variable {bytes : List Nat} (inside : a + bytes.length ≤ 2 ^ 42)
include inside

theorem exec_bar2Write_hole (hole : bar2Ok s.m.dev a bytes.length = false) :
    exec (.hostBar2Write a bytes) s = .next (goes (hostAnswer [] true) s) := by
  refine device_ok ((bind_of (get_apply _)).trans ((bind_of (enabledIf_of (by rw [up, decide_eq_true inside]; rfl) _)).trans ?_))
  rw [hole]
  rfl

theorem exec_bar2Write (memory : bar2Ok s.m.dev a bytes.length = true) (served : bar2Waits s.m.dev a bytes.length = false)
    (free : homesFree s.m a bytes.length = true) :
    exec (.hostBar2Write a bytes) s = .next (goes (fun m => hostAnswer [] false (hostStore (cellsAt a bytes) m)) s) := by
  refine device_ok ((bind_of (get_apply _)).trans ((bind_of (enabledIf_of (by rw [up, decide_eq_true inside]; rfl) _)).trans ?_))
  rw [memory]
  exact bind_of (enabledIf_of (by rw [served, free]; rfl) _)

end

theorem exec_bar4Write {bytes : List Nat} (inside : a < 2 ^ 32) : exec (.bar4Write a bytes) s = .next (goes (hostAnswer [] true) s) :=
  device_ok ((bind_of (get_apply _)).trans (bind_of (enabledIf_of (by rw [up, decide_eq_true inside]; rfl) _)))

/-! ## Registers and doorbells (R261, R338, R352, R355, R356, R365) -/

theorem exec_registerWrite {i v : Nat} (arg : i < 4) : exec (.registerWrite (0x20 + 8 * i) v) s = .next (goes (fun m =>
    { m with dev := { m.dev with cmdarg := m.dev.cmdarg.set i (v % 2 ^ 64) } }) s) := by
  have listed : 0x20 ≤ 0x20 + 8 * i ∧ 0x20 + 8 * i ≤ 0x38 ∧ (0x20 + 8 * i) % 8 = 0 := by omega
  have index : (0x20 + 8 * i - 0x20) / 8 = i := by omega
  refine device_ok ((bind_of (get_apply _)).trans ((bind_of (enabledIf_of up _)).trans ((change_apply ..).trans ?_)))
  rw [if_pos listed, index]

theorem exec_registerWrite_readOnly {v : Nat} (other : ∀ i < 4, a ≠ 0x20 + 8 * i) : exec (.registerWrite a v) s = .next s := by
  have unlisted : ¬ (0x20 ≤ a ∧ a ≤ 0x38 ∧ a % 8 = 0) := fun listed => other ((a - 0x20) / 8) (by omega) (by omega)
  refine device_ok ((bind_of (get_apply _)).trans ((bind_of (enabledIf_of up _)).trans ((change_apply ..).trans ?_)))
  rw [if_neg unlisted]

theorem exec_nconsWrite {v : Nat} : exec (.nconsWrite v) s = .next (goes (fun m => drainNotices 257 { m with dev := { m.dev with ncons := v % 2 ^ 64 } }) s) :=
  device_ok ((bind_of (get_apply _)).trans (bind_of (enabledIf_of up _)))

section
variable (context : a < 64)
include context

theorem exec_fbpophRead : exec (.fbpophRead a 16) s = .next (goes (fun m =>
    { (popFault a m).2 with hostOut := toLE 8 (popFault a m).1.1 ++ toLE 8 (popFault a m).1.2 }) s) :=
  device_ok ((bind_of (get_apply _)).trans (bind_of (enabledIf_of (by rw [up, decide_eq_true context]; rfl) _)))

theorem exec_fbpophRead_other {n : Nat} (size : n ≠ 16) : exec (.fbpophRead a n) s = .next (goes (fun m => { m with hostOut := List.replicate n 0 }) s) :=
  device_ok ((bind_of (get_apply _)).trans ((bind_of (enabledIf_of (by rw [up, decide_eq_true context]; rfl) _)).trans (congrFun (if_neg size) _)))

section
variable {q v : Nat} (queue : q < 4)
include queue

theorem exec_dbellWrite_ignored {n : Nat} (idle : n ≠ 8 ∨ s.m.ctxs.find a = none) : exec (.dbellWrite a q v n) s = .next s := by
  have open_ : (linksUp s.m.dev && decide (a < 64) && decide (q < 4)) = true := by rw [up, decide_eq_true context, decide_eq_true queue]; rfl
  have nothing : n ≠ 8 ∨ (s.m.ctxs.find a).isNone = true := idle.imp_right fun none_ => by rw [none_]; rfl
  exact device_ok ((bind_of (get_apply _)).trans ((bind_of (enabledIf_of open_ _)).trans (congrFun (if_pos nothing) _)))

variable (resident : (s.m.ctxs.find a).isSome = true)
include resident

omit up context queue in
theorem dbell_addressed : ¬ (8 ≠ 8 ∨ (s.m.ctxs.find a).isNone = true) := by
  rw [Option.isNone_eq_false_iff.2 resident]
  simp

theorem exec_dbellWrite_refused (reduced : s.m.dev.red = true) (other : q ≠ 0) :
    exec (.dbellWrite a q v 8) s = .next (goes (fun m => { m with dev := { m.dev with status := 5 } }) s) := by
  have open_ : (linksUp s.m.dev && decide (a < 64) && decide (q < 4)) = true := by rw [up, decide_eq_true context, decide_eq_true queue]; rfl
  have refused : (s.m.dev.red && q != 0) = true := by rw [reduced, bne_iff_ne.2 other]; rfl
  refine device_ok ((bind_of (get_apply _)).trans ((bind_of (enabledIf_of open_ _)).trans ((congrFun (if_neg (dbell_addressed resident)) _).trans ?_)))
  exact congrFun (if_pos refused) _

variable (served : s.m.dev.red = true → q = 0)
include served

omit up context queue resident in
theorem dbell_served : ¬ (s.m.dev.red && q != 0) = true := by
  rw [Bool.and_eq_true, bne_iff_ne]
  exact fun ⟨reduced, other⟩ => other (served reduced)

theorem exec_dbellWrite_bad (bad : v % 2 ^ 64 < ((s.m.ctx a).queues.get Queue.init (16 + q)).tail ∨
    ((s.m.ctx a).queues.get Queue.init (16 + q)).oldest + 256 < v % 2 ^ 64) :
    exec (.dbellWrite a q v 8) s = .next (goes (queueError a (16 + q) 0 0) s) := by
  have open_ : (linksUp s.m.dev && decide (a < 64) && decide (q < 4)) = true := by rw [up, decide_eq_true context, decide_eq_true queue]; rfl
  refine device_ok ((bind_of (get_apply _)).trans ((bind_of (enabledIf_of open_ _)).trans ((congrFun (if_neg (dbell_addressed resident)) _).trans ?_)))
  exact (congrFun (if_neg (dbell_served served)) _).trans (congrFun (if_pos bad) _)

theorem exec_dbellWrite (up_ : ((s.m.ctx a).queues.get Queue.init (16 + q)).tail ≤ v % 2 ^ 64)
    (room : v % 2 ^ 64 ≤ ((s.m.ctx a).queues.get Queue.init (16 + q)).oldest + 256) :
    exec (.dbellWrite a q v 8) s = .next (goes (fun m =>
      let m := m.updCtx a (fun x => { x with queues := x.queues.put (16 + q) { (s.m.ctx a).queues.get Queue.init (16 + q) with tail := v % 2 ^ 64 } })
      { m with dev := { m.dev with dbell := m.dev.dbell.put (4 * a + q) (v % 2 ^ 64) } }) s) := by
  have open_ : (linksUp s.m.dev && decide (a < 64) && decide (q < 4)) = true := by rw [up, decide_eq_true context, decide_eq_true queue]; rfl
  refine device_ok ((bind_of (get_apply _)).trans ((bind_of (enabledIf_of open_ _)).trans ((congrFun (if_neg (dbell_addressed resident)) _).trans ?_)))
  exact (congrFun (if_neg (dbell_served served)) _).trans (congrFun (if_neg (not_or.2 ⟨Nat.not_lt.2 up_, Nat.not_lt.2 room⟩)) _)

end
end
end

theorem hostAccesses : HostAccesses := fun _ _ _ _ _ up =>
  ⟨fun inside => ⟨exec_bar2Read_hole up inside, fun memory served free => ⟨exec_bar2Read_sound up inside memory served free rfl rfl,
      fun _ bad => exec_bar2Read_poison up inside memory served free rfl rfl bad⟩⟩,
    fun inside => ⟨exec_bar2Write_hole up inside, exec_bar2Write up inside⟩, exec_bar4Write up, fun _ arg => exec_registerWrite up arg,
    exec_registerWrite_readOnly up, exec_nconsWrite up, fun context => ⟨exec_fbpophRead up context, exec_fbpophRead_other up context⟩,
    fun _ context queue => ⟨exec_dbellWrite_ignored up context queue, exec_dbellWrite_refused up context queue,
      fun resident served => ⟨exec_dbellWrite_bad up context queue resident served, exec_dbellWrite up context queue resident served⟩⟩⟩

/-! ## What the host reads (R5, R338, R343, R350, R352, R355, R356, R364) -/

/-- Flags as a number. -/
def flagSum (f : Nat → Bool) (n : Nat) : Nat := ((List.range n).map (fun i => ofBool (f i) * 2 ^ i)).sum

theorem flagSum_succ (f : Nat → Bool) (n : Nat) : flagSum f (n + 1) = flagSum f n + ofBool (f n) * 2 ^ n := by
  simp [flagSum, List.range_succ]

theorem flagSum_lt (f : Nat → Bool) : ∀ n, flagSum f n < 2 ^ n
  | 0 => Nat.one_pos
  | n + 1 => by
    have below := flagSum_lt f n
    have flag := Nat.mul_le_mul_right (2 ^ n) (ofBool_le (f n))
    rw [flagSum_succ, Nat.pow_succ]
    omega

theorem bitAt_flagSum (f : Nat → Bool) {i : Nat} : ∀ {n}, i < n → bitAt (flagSum f n) i = f i
  | n + 1, inside => by
    rcases Nat.lt_succ_iff_lt_or_eq.1 inside with below | rfl
    · obtain ⟨d, rfl⟩ := Nat.exists_eq_add_of_lt below
      have higher : ofBool (f (i + d + 1)) * 2 ^ (i + d + 1) = 2 ^ i * (2 * (ofBool (f (i + d + 1)) * 2 ^ d)) := by ring
      rw [← bitAt_flagSum f below, flagSum_succ, higher]
      unfold bitAt
      rw [Nat.add_mul_div_left _ _ (Nat.two_pow_pos i), Nat.add_mul_mod_self_left]
    · unfold bitAt
      rw [flagSum_succ, Nat.add_mul_div_right _ _ (Nat.two_pow_pos i), Nat.div_eq_of_lt (flagSum_lt f i), Nat.zero_add]
      cases f i <;> rfl

section
variable {m : Mach} {k : Nat} (context : k < 64)
include context

/-- An offset of a context's page. -/
theorem bar0Read_page {off : Nat} (inside : off < 0x1000) : bar0Read m (0x100000 + 0x1000 * k + off) = pageRead m k off := by
  have page : 0x100000 ≤ 0x100000 + 0x1000 * k + off ∧ 0x100000 + 0x1000 * k + off < 0x140000 := by omega
  have index : (0x100000 + 0x1000 * k + off - 0x100000) / 0x1000 = k := by omega
  have offset : (0x100000 + 0x1000 * k + off) % 0x1000 = off := by omega
  unfold bar0Read
  rw [if_pos page, index, offset]

theorem bar0Read_dbell {i : Nat} (queue : i < 4) : bar0Read m (0x100000 + 0x1000 * k + 8 * i) = m.dev.dbell.get 0 (4 * k + i) := by
  have low : 8 * i < 0x20 := by omega
  have index : 8 * i / 8 = i := by omega
  rw [bar0Read_page context (by omega), pageRead, if_pos low, index]

theorem bar0Read_qstat {x : Ctx} (found : m.ctxs.find k = some x) {i : Nat} (queue : i < 20) :
    bitAt (bar0Read m (0x100000 + 0x1000 * k + 0x20)) i = (x.queues.get Queue.init (if i < 4 then 16 + i else i - 4)).err := by
  rw [bar0Read_page context (by omega), pageRead, if_neg (by decide), if_pos rfl, found, Option.elim_some]
  exact bitAt_flagSum (fun i => (x.queues.get Queue.init (if i < 4 then 16 + i else i - 4)).err) queue

theorem bar0Read_fbstat {x : Ctx} (found : m.ctxs.find k = some x) : bar0Read m (0x100000 + 0x1000 * k + 0x50) = fbstatWord x := by
  rw [bar0Read_page context (by omega), pageRead, if_neg (by decide), if_neg (by decide), if_pos rfl, found, Option.elim_some]

theorem bar0Read_ctxst : bar0Read m (0x100000 + 0x1000 * k + 0x58) = ctxstCode m k := by
  rw [bar0Read_page context (by omega), pageRead, if_neg (by decide), if_neg (by decide), if_neg (by decide), if_pos rfl]

theorem bar4Byte_mirror {i : Nat} (inside : i < 2 ^ 22) :
    bar4Byte m (2 ^ 22 * k + i) = (m.ctxs.find k).elim 0 (fun x => m.mem.rd (x.mirror + i)) := by
  have low : 2 ^ 22 * k + i < 2 ^ 28 := by omega
  have index : (2 ^ 22 * k + i) / 2 ^ 22 = k := by omega
  have offset : (2 ^ 22 * k + i) % 2 ^ 22 = i := by omega
  unfold bar4Byte
  rw [if_pos low, index, offset]

theorem bar4Byte_captab {i : Nat} (inside : i < 2 ^ 25) {x : Ctx} (found : m.ctxs.find k = some x) :
    bar4Byte m (2 ^ 31 + 2 ^ 25 * k + i) = if i < 2 * x.capn then m.mem.rd (x.captab + i) else 0 := by
  have high : ¬ 2 ^ 31 + 2 ^ 25 * k + i < 2 ^ 28 := by omega
  have table : 2 ^ 31 ≤ 2 ^ 31 + 2 ^ 25 * k + i ∧ 2 ^ 31 + 2 ^ 25 * k + i < 2 ^ 32 := by omega
  have index : (2 ^ 31 + 2 ^ 25 * k + i - 2 ^ 31) / 2 ^ 25 = k := by omega
  have offset : (2 ^ 31 + 2 ^ 25 * k + i) % 2 ^ 25 = i := by omega
  unfold bar4Byte
  rw [if_neg high, if_pos table, index, found, offset, Option.elim_some]

end

theorem bar4Byte_between {m : Mach} {i : Nat} (low : 2 ^ 28 ≤ i) (high : i < 2 ^ 31) : bar4Byte m i = 0 := by
  unfold bar4Byte
  rw [if_neg (Nat.not_lt.2 low), if_neg fun table => Nat.not_lt.2 table.1 high]

theorem bar0Read_cmdarg {m : Mach} {i : Nat} (arg : i < 4) : bar0Read m (0x20 + 8 * i) = m.dev.cmdarg.getD i 0 := by
  have listed : 0x20 ≤ 0x20 + 8 * i ∧ 0x20 + 8 * i ≤ 0x38 := by omega
  have index : (0x20 + 8 * i - 0x20) / 8 = i := by omega
  unfold bar0Read
  rw [if_neg (by omega), if_neg (by omega), if_neg (by omega), if_neg (by omega), if_pos listed, index]

theorem ofBool_mul (b : Bool) (n : Nat) : ofBool b * n = if b then n else 0 := by
  cases b <;> simp [ofBool]

theorem bar0Read_devstat (m : Mach) : bar0Read m 0x00 = m.dev.step % 16 + (if m.dev.red then 2 ^ 4 else 0) + (if m.dev.part then 2 ^ 5 else 0)
    + (if m.dev.recov then 2 ^ 6 else 0) + m.dev.dies % 2 ^ 16 * 2 ^ 7 + m.dev.sdev % 64 * 2 ^ 23 + (if m.dev.span then 2 ^ 29 else 0)
    + m.dev.cxlp % 16 * 2 ^ 30 := by
  unfold bar0Read devstat
  rw [if_neg (by decide), if_pos rfl, ofBool_mul, ofBool_mul, ofBool_mul, ofBool_mul]

/-- The module's other registers. -/
theorem bar0Read_module (m : Mach) : bar0Read m 0x08 = 0 ∧ bar0Read m 0x10 = (if m.dev.busy then 1 else 0) + m.dev.status % 2 ^ 8 * 2 ^ 8 ∧
    bar0Read m 0x18 = m.dev.cmdres ∧ bar0Read m 0x40 = m.dev.nprod ∧ bar0Read m 0x48 = m.dev.ncons ∧ bar0Read m 0x50 = m.dev.nlost := by
  simp [bar0Read, ofBool]

theorem hostReads : HostReads := by
  intro m k i context d page
  obtain ⟨cmd, cmdstat, cmdres, nprod, ncons, nlost⟩ := bar0Read_module m
  refine ⟨bar0Read_devstat m, cmd, cmdstat, cmdres, bar0Read_cmdarg, nprod, ncons, nlost, bar0Read_dbell context, fun x found => ?_, fun none_ => ?_,
    bar4Byte_between⟩
  · refine ⟨bar0Read_qstat context found, bar0Read_fbstat context found, ?_, fun inside => ?_, fun inside => bar4Byte_captab context inside found⟩
    · rw [bar0Read_ctxst context, ctxstCode, found, Option.map_some]
      cases x.st <;> rfl
    · rw [bar4Byte_mirror context inside, found, Option.elim_some]
  · refine ⟨?_, fun inside => ?_⟩
    · rw [bar0Read_ctxst context, ctxstCode, none_, Option.map_none]
    · rw [bar4Byte_mirror context inside, none_, Option.elim_none]

/-! ## Links, power and heat (R351, R359, R368, R369) -/

/-- The contexts, and whether the module is too hot. -/
def heatPart (m : Mach) : Tab Ctx × Bool := (m.ctxs, m.dev.hot)

theorem heatPart_sendWcb (core : Nat) (p : Wcb → Bool) (m : Mach) : heatPart (sendWcb core p m) = heatPart m := by
  unfold sendWcb
  exact foldl_keeps (g := heatPart) (f := fun m (e : Wcb × Nat) => sendOne core e.1 m) (fun _ _ => rfl) _ _

theorem heatPart_haltSlot (k : Nat) (m : Mach) : heatPart (haltSlot k m) = heatPart m := by
  have sent : heatPart (sendMine k (leaveQueues k m)) = heatPart m := heatPart_sendWcb ..
  unfold haltSlot
  dsimp only
  split
  · exact sent
  · exact sent

theorem heatPart_haltSlots (l : List Nat) (m : Mach) : heatPart (l.foldl (fun m k => haltSlot k (m.updSlot k askedFor)) m) = heatPart m :=
  foldl_keeps (g := heatPart) (fun m k => heatPart_haltSlot k (m.updSlot k askedFor)) l m

theorem ctx_of_heatPart {m m' : Mach} (same : heatPart m' = heatPart m) (c : Nat) : m'.ctx c = m.ctx c := by
  unfold Mach.ctx
  rw [show m'.ctxs = m.ctxs from congrArg Prod.fst same]

theorem hot_of_heatPart {m m' : Mach} (same : heatPart m' = heatPart m) : m'.dev.hot = m.dev.hot := congrArg Prod.snd same

theorem hot_requestStop (c : Nat) (save : Bool) (m : Mach) : (requestStop c save m).dev.hot = m.dev.hot := by
  unfold requestStop
  dsimp only
  split
  · rfl
  · exact (hot_of_heatPart (heatPart_haltSlots ..)).trans rfl

theorem pre_requestStop (c : Nat) (save : Bool) (m : Mach) : ((requestStop c save m).ctx c).pre.isSome = true := by
  unfold requestStop
  dsimp only
  split
  · exact congrArg (fun x : Ctx => x.pre.isSome) (Mach.ctx_setCtx_self ..)
  · rw [ctx_of_heatPart (heatPart_haltSlots ..)]
    exact congrArg (fun x : Ctx => x.pre.isSome) (Mach.ctx_setCtx_self m c _)

theorem ctx_requestStop_of_ne {c k : Nat} (save : Bool) (m : Mach) (other : k ≠ c) : (requestStop c save m).ctx k = m.ctx k := by
  unfold requestStop
  dsimp only
  split
  · exact Mach.ctx_setCtx_of_ne m _ other
  · rw [ctx_of_heatPart (heatPart_haltSlots ..)]
    exact Mach.ctx_setCtx_of_ne m _ other

/-- A stop that has been requested stays requested. -/
theorem pre_requestStop_keeps {c k : Nat} {save : Bool} {m : Mach} (asked : (m.ctx k).pre.isSome = true) :
    ((requestStop c save m).ctx k).pre.isSome = true := by
  by_cases same : k = c
  · rw [same]
    exact pre_requestStop ..
  · rwa [ctx_requestStop_of_ne save m same]

/-- Every context of a list is asked to stop. -/
theorem pre_requestStops {k : Nat} {l : List (Nat × Ctx)} {m : Mach} (asked : (∃ x, (k, x) ∈ l) ∨ (m.ctx k).pre.isSome = true) :
    ((l.foldl (fun m e => requestStop e.1 false m) m).ctx k).pre.isSome = true := by
  induction l generalizing m with
  | nil => exact asked.resolve_left fun ⟨x, hx⟩ => List.not_mem_nil hx
  | cons e l ih =>
    refine ih ?_
    rcases asked with ⟨x, hx⟩ | asked
    · rcases List.mem_cons.1 hx with rfl | later
      · exact .inr (pre_requestStop ..)
      · exact .inl ⟨x, later⟩
    · exact .inr (pre_requestStop_keeps asked)

theorem mem_of_find {α : Type} {k : Nat} {v : α} : ∀ {t : Tab α}, Tab.find t k = some v → (k, v) ∈ t
  | (j, w) :: t, found => by
    unfold Tab.find at found
    split at found
    next same =>
      rw [← Option.some.inj found, ← beq_iff_eq.1 same]
      exact List.mem_cons_self
    next => exact List.mem_cons_of_mem _ (mem_of_find found)

theorem heatPart_drainNotices : ∀ (fuel : Nat) (m : Mach), heatPart (drainNotices fuel m) = heatPart m
  | 0, _ => rfl
  | fuel + 1, m => by
    unfold drainNotices
    split
    · split
      · exact heatPart_drainNotices fuel _
      · rfl
    · rfl

theorem heatPart_notify (kind cause asid core slot aux v : Nat) (m : Mach) : heatPart (notify kind cause asid core slot aux v m) = heatPart m := by
  unfold notify
  dsimp only
  split
  · exact heatPart_drainNotices ..
  · rfl

section
variable {n t inlet : Nat} {s : State} (die : n < 16) (up : 2 ≤ s.m.dev.step)
include die up

theorem exec_thermalEvent (cool : t ≤ 8 * 120) : exec (.thermalEvent n t inlet) s = .next { s with m := heat n t inlet s.m } := by
  have reads : ¬ (16 ≤ n ∨ s.m.dev.step < 2) := by omega
  have below : ¬ 8 * 120 < t := by omega
  show execThermalEvent n t inlet s = _
  unfold execThermalEvent
  rw [if_neg reads, if_neg below]

theorem exec_thermalEvent_off (hot : 8 * 120 < t) : exec (.thermalEvent n t inlet) s = .next (powerOff s) := by
  have reads : ¬ (16 ≤ n ∨ s.m.dev.step < 2) := by omega
  show execThermalEvent n t inlet s = _
  unfold execThermalEvent
  rw [if_neg reads, if_pos hot]

end

/-- Below every threshold the readings are taken, and nothing else happens to contexts and slots. -/
theorem heat_mild {n t inlet : Nat} {m : Mach} (die : t ≤ 8 * 95) (air : inlet ≤ 8 * 45) : (heat n t inlet m).dev.temps = m.dev.temps.put n t ∧
    (heat n t inlet m).dev.inlet = inlet ∧ (heat n t inlet m).ctxs = m.ctxs ∧ (heat n t inlet m).slots = m.slots := by
  have warm : decide (8 * 95 < t) = false := decide_eq_false (Nat.not_lt.2 die)
  have trip : (decide (8 * 110 < t) || decide (8 * 45 < inlet)) = false := by
    rw [decide_eq_false (by omega), decide_eq_false (by omega)]
    rfl
  unfold heat
  simp [warm, trip]

/-- Above the trip the module is too hot and every running context is asked to stop. -/
theorem heat_trips {n t inlet : Nat} {m : Mach} (high : 8 * 110 < t ∨ 8 * 45 < inlet) (fresh : m.dev.hot = false) :
    (heat n t inlet m).dev.hot = true ∧ ∀ k x, m.ctxs.find k = some x → x.st = .running → ((heat n t inlet m).ctx k).pre.isSome = true := by
  have trip : (decide (8 * 110 < t) || decide (8 * 45 < inlet)) = true := by
    rw [Bool.or_eq_true, decide_eq_true_iff, decide_eq_true_iff]
    exact high
  unfold heat
  extract_lets old src d0 warm trip_ cool d told m1 m2
  have taken : heatPart m2 = heatPart m1 := by
    show heatPart (if _ then notify 0x08 0 0 0 0 0 0 m1 else m1) = _
    split
    · exact heatPart_notify ..
    · rfl
  have hot : m1.dev.hot = true := by
    show (trip_ || _) = true
    rw [show trip_ = true from trip]
    rfl
  have tells : (trip_ && !told) = true := by
    rw [show trip_ = true from trip, show told = false from fresh]
    rfl
  rw [if_pos tells]
  refine ⟨(hot_of_heatPart (heatPart_notify ..)).trans ?_, fun k x found running => ?_⟩
  · exact (foldl_keeps (g := fun m : Mach => m.dev.hot) (fun m (e : Nat × Ctx) => hot_requestStop e.1 false m) _ m2).trans ((hot_of_heatPart taken).trans hot)
  · have contexts : m2.ctxs = m.ctxs := congrArg Prod.fst taken
    rw [ctx_of_heatPart (heatPart_notify ..), contexts]
    exact pre_requestStops (.inl ⟨x, List.mem_filter.2 ⟨mem_of_find found, beq_iff_eq.2 running⟩⟩)

section
variable {s : State}

theorem exec_pcieLinkDown (up : s.m.dev.link0 = true) : exec .pcieLinkDown s = .next (goes (fun m => { m with dev := { m.dev with link0 := false } }) s) :=
  device_ok ((bind_of (get_apply _)).trans (bind_of (enabledIf_of up _)))

theorem exec_pcieLinkUp (down : s.m.dev.link0 = false) : exec .pcieLinkUp s = .next (goes (fun m => { m with dev := { m.dev with link0 := true } }) s) :=
  device_ok ((bind_of (get_apply _)).trans (bind_of (enabledIf_of (by rw [down]; rfl) _)))

section
variable {n : Nat}

theorem exec_spanDeviceJoin (span : s.m.dev.span = true) (known : n < 64) (other : n ≠ s.m.dev.sdev) (absent_ : n ∉ s.m.dev.peers) :
    exec (.spanDeviceJoin n) s = .next (goes (fun m => { m with dev := { m.dev with peers := n :: m.dev.peers } }) s) := by
  have joins : (s.m.dev.span && decide (n < 64) && n != s.m.dev.sdev && !s.m.dev.peers.contains n) = true := by
    simp only [span, decide_eq_true known, bne_iff_ne.2 other, Bool.true_and, Bool.not_eq_true', List.contains_eq_mem, decide_eq_false_iff_not]
    exact absent_
  exact device_ok ((bind_of (get_apply _)).trans (bind_of (enabledIf_of joins _)))

theorem exec_spanDeviceLeave (span : s.m.dev.span = true) (there : n ∈ s.m.dev.peers) : exec (.spanDeviceLeave n) s = .next (goes (fun m =>
    (accessesTo m n).foldl (fun m h => if (m.ctx h.1).st == .ended then m else endContext h.1 0x83 h.2.1 h.2.2 m)
      { m with dev := { m.dev with peers := m.dev.peers.erase n } }) s) := by
  have leaves : (s.m.dev.span && s.m.dev.peers.contains n) = true := by rw [span, List.contains_iff_mem.2 there]; rfl
  exact device_ok ((bind_of (get_apply _)).trans (bind_of (enabledIf_of leaves _)))

theorem capOk_iff {w : Nat} : capOk w = true ↔ 2000 ≤ w ∧ w ≤ 7200 := by
  rw [capOk, Bool.and_eq_true, decide_eq_true_iff, decide_eq_true_iff]

theorem exec_powerCapEffecterWrite (up : linksUp s.m.dev = true) : exec (.powerCapEffecterWrite n) s = .next (goes (fun m =>
    if 2000 ≤ n ∧ n ≤ 7200 then { m with dev := { m.dev with cap := n } } else m) s) := by
  refine device_ok ((bind_of (get_apply _)).trans ((bind_of (enabledIf_of up _)).trans ((change_apply ..).trans ?_)))
  simp only [capOk_iff]

theorem exec_powerCapWindow {bubbles : Nat} {power : List Nat} (held : n ≤ s.m.dev.effCap) :
    exec (.powerCapWindow ⟨n, bubbles, power⟩) s = .next (goes (fun m => bubble bubbles { m with dev := { m.dev with
      effCap := if throttled m.dev then min m.dev.effCap m.dev.cap else m.dev.cap
      power := (List.range 16).map (fun i => (i, power.getD i 0)) } }) s) :=
  device_ok ((bind_of (get_apply _)).trans (bind_of (enabledIf_of (decide_eq_true held) _)))

end
end

theorem moduleEvents : ModuleEvents := fun s n t inlet _ _ =>
  ⟨exec_pcieLinkDown, exec_pcieLinkUp, exec_spanDeviceJoin, exec_spanDeviceLeave, exec_powerCapEffecterWrite, exec_powerCapWindow,
    fun die up => ⟨fun cool air => ⟨heat n t inlet s.m, exec_thermalEvent die up (by omega), heat_mild cool air⟩, exec_thermalEvent_off die up,
      fun high cool fresh => ⟨heat n t inlet s.m, exec_thermalEvent die up cool, heat_trips high fresh⟩⟩⟩

/-- Settles O55. -/
theorem hostAccessesAndModuleEvents : Obligations.HostAccessesAndModuleEvents := ⟨hostAccesses, hostReads, moduleEvents⟩

end Sys2Proof.Claim
end

section
/-! PROOFS. The host's commands (R343, R346, R349, R352 to R360, R365, R366, R368). -/
namespace Sys2Proof.Claim
open Machine

/-! ## A command write (R352, R366) -/

section
variable {s : State} (up : linksUp s.m.dev = true)
include up

/-- In service a command has the outcome of its body. -/
theorem command_runs (idle : s.m.dev.busy = false) (service : s.m.dev.recov = false) (body : Mach → Except Nat (Mach × Nat)) :
    command body s = .next (outcome (body s.m) s) := by
  refine (device_ok ((bind_of (get_apply _)).trans ((bind_of (enabledIf_of up _)).trans ?_))).trans
    (b := .next (goes (settleCmd (body s.m)) s)) ?_
  · rw [idle, service]
    rfl
  · cases body s.m <;> rfl

theorem command_recovers (idle : s.m.dev.busy = false) (recov : s.m.dev.recov = true) (body : Mach → Except Nat (Mach × Nat)) :
    command body s = .next (outcome (.error 5) s) := by
  refine device_ok ((bind_of (get_apply _)).trans ((bind_of (enabledIf_of up _)).trans ?_))
  rw [idle, recov]
  rfl

theorem command_ignored (busy : s.m.dev.busy = true) (body : Mach → Except Nat (Mach × Nat)) : command body s = .next s := by
  refine device_ok ((bind_of (get_apply _)).trans ((bind_of (enabledIf_of up _)).trans ?_))
  rw [busy]
  rfl

theorem exec_unknownCommand (idle : s.m.dev.busy = false) {code : Nat} (unknown : code = 0 ∨ 0x13 < code) :
    exec (.unknownCommand code) s = .next (outcome (.error 2) s) := by
  show execUnknownCommand code s = _
  unfold execUnknownCommand
  rw [if_neg (by rw [up]; simp only [Bool.not_true, Bool.false_eq_true, or_false]; omega), idle]
  rfl

theorem flashCommand_ignored (busy : s.m.dev.busy = true) (r : Bool) (body : State → State) : flashCommand r body s = .next s := by
  unfold flashCommand
  rw [up, busy]
  rfl

theorem attest_recovers (idle : s.m.dev.busy = false) (recov : s.m.dev.recov = true) : exec .attest s = .next (outcome (.error 5) s) := by
  show execAttest s = _
  unfold execAttest flashCommand
  rw [up, idle, recov]
  rfl

end

/-! ## The commands of the module -/

/-- The execution of a command write, and the outcome of its body in a machine. -/
def CommandRow (m : Mach) (p : Instr × Except Nat (Mach × Nat)) : Prop := ∃ body, exec p.1 = command body ∧ body m = p.2

theorem not_eq_true_iff {b : Bool} : (!b) = true ↔ b = false := by rw [Bool.not_eq_true']

/-- Every command of the module is a command write. -/
theorem hostCommand_row (m : Mach) : ∀ p ∈ hostCommands m, CommandRow m p := by
  refine List.forall_mem_cons.2 ⟨?create, List.forall_mem_cons.2 ⟨?poolmap, List.forall_mem_cons.2 ⟨?erxring,
    List.forall_mem_cons.2 ⟨?nring, List.forall_mem_cons.2 ⟨?setcap, List.forall_mem_cons.2 ⟨?epcfg, List.forall_mem_nil _⟩⟩⟩⟩⟩⟩
  case create =>
    refine ⟨_, rfl, if_congr (or_congr_right not_eq_true_iff) rfl (if_congr .rfl rfl (if_congr .rfl rfl (if_congr ?_ rfl rfl)))⟩
    simp only [Bool.and_eq_true, Bool.or_eq_true, not_eq_true_iff, List.isEmpty_eq_false_iff, List.any_eq_true, bne_iff_ne]
  case poolmap =>
    refine ⟨_, rfl, if_congr (or_congr_right not_eq_true_iff) rfl (if_congr .rfl rfl ?_)⟩
    rw [← ite_or]
    exact if_congr (by rw [not_eq_true_iff, or_assoc]) rfl rfl
  case erxring => exact ⟨_, rfl, if_congr (or_congr_right not_eq_true_iff) rfl rfl⟩
  case nring => exact ⟨_, rfl, if_congr not_eq_true_iff rfl rfl⟩
  case setcap =>
    refine ⟨_, rfl, ?_⟩
    by_cases ok : 2000 ≤ m.arg 0 ∧ m.arg 0 ≤ 7200
    · rw [if_pos ok, capOk_iff.2 ok]
      rfl
    · rw [if_neg ok, Bool.eq_false_iff.2 (mt capOk_iff.1 ok)]
      rfl
  case epcfg => exact ⟨_, rfl, rfl⟩

/-! ## The commands on a context -/

/-- The execution of a command on a context, and the outcome of its body for the context. -/
def ContextRow (k : Nat) (x : Ctx) (m : Mach) (p : Instr × List CtxSt × Except Nat (Mach × Nat)) : Prop :=
  ∃ body, (∀ s, s.m = m → (m.dev.busy = false → m.dev.recov = false → p.1 = .destroy → allPerformed m (m.arg 0) = true) → exec p.1 s = ctxCommand p.2.1 body s) ∧
    body k x m = p.2.2

theorem ContextRow.of_exec {k : Nat} {x : Ctx} {m : Mach} {p : Instr × List CtxSt × Except Nat (Mach × Nat)} {body : Nat → Ctx → Mach → Except Nat (Mach × Nat)}
    {run : State → Host.Outcome State Fault Refusal} (runs : exec p.1 = run) (command : run = ctxCommand p.2.1 body) (value : body k x m = p.2.2) :
    ContextRow k x m p := ⟨body, fun s _ _ => congrFun (runs.trans command) s, value⟩

/-- DESTROY is not refused when the context's accesses have been performed. -/
theorem execDestroy_of {s : State} (performed : s.m.dev.busy = false → s.m.dev.recov = false → allPerformed s.m (s.m.arg 0) = true) :
    execDestroy s = ctxCommand [.stopped, .saved, .ended] (fun k _ m => done (destroyCtx k m)) s := by
  refine if_neg fun waits => ?_
  simp only [Bool.and_eq_true, Bool.not_eq_true'] at waits
  obtain ⟨⟨⟨idle, service⟩, missing⟩, -⟩ := waits
  exact Bool.noConfusion ((performed idle service).symm.trans missing)

theorem contextCommand_row (k : Nat) (x : Ctx) (m : Mach) : ∀ p ∈ contextCommands k x m, ContextRow k x m p := by
  refine List.forall_mem_cons.2 ⟨?destroy, List.forall_mem_cons.2 ⟨?stop, List.forall_mem_cons.2 ⟨?stopsave,
    List.forall_mem_cons.2 ⟨?resume, List.forall_mem_cons.2 ⟨?kill, List.forall_mem_cons.2 ⟨?replay, List.forall_mem_cons.2 ⟨?gangres,
    List.forall_mem_cons.2 ⟨?gangkill, List.forall_mem_cons.2 ⟨?qreset, List.forall_mem_cons.2 ⟨?reply, List.forall_mem_nil _⟩⟩⟩⟩⟩⟩⟩⟩⟩⟩
  case destroy => exact ⟨_, fun s same performed => execDestroy_of fun idle service => same ▸ performed (same ▸ idle) (same ▸ service) rfl, rfl⟩
  case stop => exact .of_exec (run := execStop) rfl rfl (congrArg done (if_congr beq_iff_eq rfl rfl))
  case stopsave => exact .of_exec (run := execStopsave) rfl rfl (if_congr .rfl rfl (congrArg done (if_congr beq_iff_eq rfl rfl)))
  case resume =>
    refine .of_exec (run := execResume) rfl rfl (if_congr (by rw [Bool.or_eq_true]) rfl ?_)
    cases loadAll k m <;> rfl
  case kill => exact .of_exec (run := execKill) rfl rfl rfl
  case replay => exact .of_exec (run := execHostReplay) rfl rfl rfl
  case gangres =>
    refine .of_exec (run := execGangres) rfl rfl ?_
    cases gangNamed m k (m.arg 1) <;> rfl
  case gangkill =>
    refine .of_exec (run := execGangkill) rfl rfl ?_
    cases gangNamed m k (m.arg 1) <;> rfl
  case qreset =>
    exact .of_exec (run := execQreset) rfl rfl (if_congr .rfl rfl (if_congr (by rw [Bool.and_eq_true, bne_iff_ne]) rfl rfl))
  case reply =>
    refine .of_exec (run := execReply) rfl rfl (if_congr .rfl rfl (if_congr (by rw [Bool.and_eq_true, bne_iff_ne, beq_iff_eq]) rfl ?_))
    cases x.kept.find (keyOf (bits (m.arg 1) 0 14) (bits (m.arg 1) 14 2)) <;> rfl

section
variable {s : State} (up : linksUp s.m.dev = true) (idle : s.m.dev.busy = false) (service : s.m.dev.recov = false)
  {states : List CtxSt} (body : Nat → Ctx → Mach → Except Nat (Mach × Nat))
include up idle service

theorem ctxCommand_beyond (beyond : 64 ≤ s.m.arg 0) : ctxCommand states body s = .next (outcome (.error 2) s) := by
  refine (command_runs up idle service _).trans ?_
  rw [if_pos beyond]

section
variable (inside : s.m.arg 0 < 64)
include inside

theorem ctxCommand_listed {x : Ctx} (found : s.m.ctxs.find (s.m.arg 0) = some x) (listed : x.st ∈ states) :
    ctxCommand states body s = .next (outcome (body (s.m.arg 0) x s.m) s) := by
  refine (command_runs up idle service _).trans ?_
  rw [if_neg (Nat.not_le.2 inside), found]
  dsimp only
  rw [if_pos (List.contains_iff_mem.2 listed)]

theorem ctxCommand_unlisted (unlisted : ∀ x, s.m.ctxs.find (s.m.arg 0) = some x → x.st ∉ states) :
    ctxCommand states body s = .next (outcome (.error 5) s) := by
  refine (command_runs up idle service _).trans ?_
  rw [if_neg (Nat.not_le.2 inside)]
  cases found : s.m.ctxs.find (s.m.arg 0) with
  | none => rfl
  | some x =>
    dsimp only
    rw [if_neg (mt List.contains_iff_mem.1 (unlisted x found))]

end
end

/-! ## Every command -/

section
variable {s : State} (up : linksUp s.m.dev = true)
include up

theorem moduleCommand_runs (idle : s.m.dev.busy = false) (service : s.m.dev.recov = false) :
    ∀ p ∈ hostCommands s.m, exec p.1 s = .next (outcome p.2 s) := by
  intro p listed
  obtain ⟨body, runs, value⟩ := hostCommand_row s.m p listed
  rw [runs, ← value]
  exact command_runs up idle service body

theorem contextCommand_runs (idle : s.m.dev.busy = false) (service : s.m.dev.recov = false) :
    ∀ p ∈ contextCommands (s.m.arg 0) (s.m.ctx (s.m.arg 0)) s.m, (p.1 = .destroy → allPerformed s.m (s.m.arg 0) = true) →
      (64 ≤ s.m.arg 0 → exec p.1 s = .next (outcome (.error 2) s)) ∧
      (∀ x, s.m.arg 0 < 64 → s.m.ctxs.find (s.m.arg 0) = some x → x.st ∈ p.2.1 → exec p.1 s = .next (outcome p.2.2 s)) ∧
      (s.m.arg 0 < 64 → (∀ x, s.m.ctxs.find (s.m.arg 0) = some x → x.st ∉ p.2.1) → exec p.1 s = .next (outcome (.error 5) s)) := by
  intro p listed performed
  obtain ⟨body, runs, value⟩ := contextCommand_row _ _ s.m p listed
  rw [runs s rfl fun _ _ => performed, ← value]
  refine ⟨ctxCommand_beyond up idle service body, fun x inside found state => ?_, ctxCommand_unlisted up idle service body⟩
  rw [show s.m.ctx (s.m.arg 0) = x from congrArg (·.getD Ctx.none) found]
  exact ctxCommand_listed up idle service body inside found state

omit up in
/-- What holds of every command write holds of every command on the module or a context. -/
theorem command_induction {P : Instr → Prop} (other : s.m.dev.busy = true ∨ s.m.dev.recov = true)
    (commands : ∀ i body, exec i s = command body s → P i) :
    ∀ i ∈ (hostCommands s.m).map (·.1) ++ (contextCommands (s.m.arg 0) (s.m.ctx (s.m.arg 0)) s.m).map (·.1), P i := by
  intro i listed
  rcases List.mem_append.1 listed with row | row <;> obtain ⟨p, member, rfl⟩ := List.mem_map.1 row
  · obtain ⟨body, runs, -⟩ := hostCommand_row s.m p member
    exact commands p.1 body (congrFun runs s)
  · obtain ⟨body, runs, -⟩ := contextCommand_row _ _ s.m p member
    refine commands p.1 _ (runs s rfl fun idle service => ?_)
    rcases other with busy | recov
    · exact Bool.noConfusion (idle.symm.trans busy)
    · exact Bool.noConfusion (service.symm.trans recov)

theorem command_recovery (idle : s.m.dev.busy = false) (recov : s.m.dev.recov = true) :
    ∀ i ∈ (hostCommands s.m).map (·.1) ++ (contextCommands (s.m.arg 0) (s.m.ctx (s.m.arg 0)) s.m).map (·.1) ++ [.attest],
      exec i s = .next (outcome (.error 5) s) :=
  List.forall_mem_append.2 ⟨command_induction (.inr recov) fun _ body runs => runs.trans (command_recovers up idle recov body),
    List.forall_mem_singleton.2 (attest_recovers up idle recov)⟩

theorem command_busy (busy : s.m.dev.busy = true) :
    ∀ i ∈ (hostCommands s.m).map (·.1) ++ (contextCommands (s.m.arg 0) (s.m.ctx (s.m.arg 0)) s.m).map (·.1) ++ [.attest, .fwstage, .fwcommit],
      exec i s = .next s := by
  refine List.forall_mem_append.2 ⟨command_induction (.inl busy) fun _ body runs => runs.trans (command_ignored up busy body), ?_⟩
  have attest : execAttest s = .next s := flashCommand_ignored up busy ..
  have stage : execFwstage s = .next s := flashCommand_ignored up busy ..
  have commit : execFwcommit s = .next s := flashCommand_ignored up busy ..
  exact List.forall_mem_cons.2 ⟨attest, List.forall_mem_cons.2 ⟨stage, List.forall_mem_singleton.2 commit⟩⟩

end

end Sys2Proof.Claim

namespace Sys2Proof
open Claim

/-- Settles O54: a command's body has the outcome of its row (`hostCommand_row`, `contextCommand_row`), and the command write says when it runs. -/
theorem hostCommands : Obligations.HostCommands := fun _ up =>
  ⟨fun idle service => ⟨moduleCommand_runs up idle service, contextCommand_runs up idle service⟩,
    fun idle _ unknown => exec_unknownCommand up idle unknown, command_recovery up, command_busy up⟩

end Sys2Proof
end

section
/-! PROOFS. Firmware, attestation, start-up and loss of power (R363 to R367). -/
namespace Sys2Proof.Claim
open Machine

/-! ## Firmware and attestation (R366, R367) -/

section
variable {s : State} (up : linksUp s.m.dev = true) (idle : s.m.dev.busy = false)
include up idle

/-- A command on flash runs in service, and in recovery mode when its row says so. -/
theorem flashCommand_runs {inRecovery : Bool} (runs : inRecovery = true ∨ s.m.dev.recov = false) (body : State → State) :
    flashCommand inRecovery body s = .next (body s) := by
  have accepted : (s.m.dev.recov && !inRecovery) = false := by
    rcases runs with allowed | service
    · rw [allowed, Bool.not_true, Bool.and_false]
    · rw [service, Bool.false_and]
  unfold flashCommand
  rw [up, idle, accepted]
  rfl

section
variable (some_ : s.m.arg 1 ≠ 0) (table : tableOk s.m.dev (s.m.arg 0) (s.m.arg 1) = true)
  (frames : ∀ a ∈ framesOf (s.m.arg 0) (s.m.arg 1), tableOk s.m.dev a 1 = true ∧ waitsService s.m.dev a = false)
include some_ table frames

/-- FWSTAGE of a range that it may read looks at the image. -/
theorem exec_fwstage : exec .fwstage s = .next (
    if Config.imageOk (s.m.mem.rdN (s.m.arg 0) (s.m.arg 1)) then
      setStatus 0 { s with boot := { s.boot with staged := some (s.m.mem.rdN (s.m.arg 0) (s.m.arg 1)) } }
    else setStatus 2 { s with boot := { s.boot with staged := none } }) := by
  have tables : (framesOf (s.m.arg 0) (s.m.arg 1)).all (fun a => tableOk s.m.dev a 1) = true :=
    List.all_eq_true.2 fun a member => (frames a member).1
  have ready : (framesOf (s.m.arg 0) (s.m.arg 1)).any (waitsService s.m.dev) = false :=
    List.any_eq_false.2 fun a member => Bool.eq_false_iff.1 (frames a member).2
  show execFwstage s = _
  refine (flashCommand_runs up idle (.inl rfl) _).trans (congrArg _ ?_)
  dsimp only
  rw [if_neg (by rw [table, tables]; simpa using some_), if_neg (Bool.eq_false_iff.1 ready)]

theorem exec_fwstage_verified (verified : Config.imageOk (s.m.mem.rdN (s.m.arg 0) (s.m.arg 1)) = true) :
    exec .fwstage s = .next (setStatus 0 { s with boot := { s.boot with staged := some (s.m.mem.rdN (s.m.arg 0) (s.m.arg 1)) } }) := by
  rw [exec_fwstage up idle some_ table frames, if_pos verified]

theorem exec_fwstage_refused (refused : Config.imageOk (s.m.mem.rdN (s.m.arg 0) (s.m.arg 1)) = false) :
    exec .fwstage s = .next (setStatus 2 { s with boot := { s.boot with staged := none } }) := by
  rw [exec_fwstage up idle some_ table frames, if_neg (Bool.eq_false_iff.1 refused)]

end

theorem exec_fwcommit_clear (length : s.m.arg 1 = 0) :
    exec .fwcommit s = .next (setStatus 0 { s with boot := { s.boot with record := List.replicate 10 0, alts := [] } }) := by
  show execFwcommit s = _
  exact (flashCommand_runs up idle (.inl rfl) _).trans (congrArg _ (if_pos length))

theorem exec_fwcommit_none (length : s.m.arg 1 ≠ 0) (none_ : s.boot.staged = none) : exec .fwcommit s = .next (setStatus 5 s) := by
  show execFwcommit s = _
  refine (flashCommand_runs up idle (.inl rfl) _).trans (congrArg _ ?_)
  rw [if_neg length, none_]

theorem exec_fwcommit_staged (length : s.m.arg 1 ≠ 0) (staged : s.boot.staged ≠ none) : exec .fwcommit s = .next
    { s with m := { s.m with dev := { s.m.dev with busy := true } }, boot := { s.boot with torn := true } } := by
  obtain ⟨image, found⟩ := Option.ne_none_iff_exists'.1 staged
  show execFwcommit s = _
  refine (flashCommand_runs up idle (.inl rfl) _).trans (congrArg _ ?_)
  rw [if_neg length, found]

section
variable (service : s.m.dev.recov = false)
include service

theorem exec_attest_exhausted (exhausted : 2 ^ 40 ≤ s.boot.sigIndex) : exec .attest s = .next (setStatus 3 s) := by
  show execAttest s = _
  exact (flashCommand_runs up idle (.inr service) _).trans (congrArg _ (if_pos exhausted))

section
variable (table : tableOk s.m.dev (s.m.arg 0) 108 = true) (ready : waitsService s.m.dev (s.m.arg 0) = false) (left : s.boot.sigIndex < 2 ^ 40)
include table ready left

theorem exec_attest_unwritten (failed : flashWrites s.boot = false) :
    exec .attest s = .next (setStatus 3 { s with boot := { s.boot with flash := s.boot.flash.tail } }) := by
  show execAttest s = _
  refine (flashCommand_runs up idle (.inr service) _).trans (congrArg _ ?_)
  dsimp only
  rw [if_neg (Nat.not_le.2 left), table, ready, failed]
  rfl

theorem exec_attest_signs (written : flashWrites s.boot = true) : ∃ t, exec .attest s = .next t ∧
    t.boot = { s.boot with sigIndex := s.boot.sigIndex + 1, flash := s.boot.flash.tail } ∧ t.m.dev.status = 0 := by
  refine ⟨_, show execAttest s = _ from flashCommand_runs up idle (.inr service) _, ?_⟩
  dsimp only
  rw [if_neg (Nat.not_le.2 left), table, ready, written]
  exact ⟨rfl, rfl⟩

end
end
end

/-! ## The boot record (R363) -/

theorem bootOut_set_self {r : List Nat} {i : Nat} (inside : i < r.length) (e : Nat) : bootOut (r.set i e) i = e % 8 := by
  unfold bootOut
  rw [List.getD_eq_getElem?_getD, List.getElem?_set_self inside, Option.getD_some]

theorem bootOut_set_of_ne {r : List Nat} {i j : Nat} (other : i ≠ j) (e : Nat) : bootOut (r.set i e) j = bootOut r j := by
  unfold bootOut
  rw [List.getD_eq_getElem?_getD, List.getElem?_set_ne other, List.getD_eq_getElem?_getD]

/-- A step that is not skipped is marked as attempted. -/
theorem bootOut_beginBoot {i : Nat} {s : State} (inside : i < s.boot.record.length) (wanted : bootOut s.boot.record i ≠ 5)
    (fresh : (skippable i && s.boot.alts.contains i) = false) : bootOut (beginBoot i s).boot.record i = 1 := by
  unfold beginBoot
  dsimp only
  rw [bootOut_set_self inside, Bool.and_assoc, fresh, beq_false_of_ne wanted]
  exact (congrArg (· % 8) (if_neg (by simp))).trans (bootTry_mod _)

theorem bootOut_beginBoot_of_ne {i j : Nat} {s : State} (other : i ≠ j) : bootOut (beginBoot i s).boot.record j = bootOut s.boot.record j :=
  bootOut_set_of_ne other _

/-! ## An attempt ends (R363) -/

/-- The mask of good dies or ports that an attempt with the outcome `out` leaves. -/
def attemptMask (i out : Nat) (rep : StartReport) (s : State) : Nat :=
  if i = 3 ∨ i = 4 ∨ i = 5 then goodMask s i out (2 ^ 16 - 1) (rep.dies % 2 ^ 16)
  else if i = 7 then goodMask s i out (rep.spanPorts % 2 ^ 16) (rep.spanPorts % 2 ^ 16)
  else if i = 8 then goodMask s i out 15 (rep.ports % 16) else 0

/-- The state in which the result of an attempt is written. -/
def attempted (i : Nat) (alt : Bool) (rep : StartReport) (s : State) : State :=
  let out := attemptOut s rep i alt
  let r := s.boot.record
  .mk { s.m with dev := { s.m.dev with start := none, meas := if i = 1 then measurement s.boot.image else s.m.dev.meas } }
    { s.boot with
      record := if bootOut r i = 5 then r else r.set i (bootEnd (r.getD i 0) out (attemptMask i out rep s))
      alts := if bootOut r i = 5 then s.boot.alts else (if alt && out == 3 then [i] else []) ++ s.boot.alts.filter (· != i) }

theorem endBoot_eq (i : Nat) (alt : Bool) (rep : StartReport) (s : State) : endBoot i alt rep s =
    let out := attemptOut s rep i alt
    let t := attempted i alt rep s
    let m := bootDone i out (attemptMask i out rep s) rep t.m
    if i = 1 ∧ !passedBoot out then recover t
    else if !passedBoot out ∧ !skippable i then t
    else if 3 ≤ i ∧ !bitAt m.dev.dies 0 then recover t else beginBoot (i + 1) ⟨m, t.boot⟩ := rfl

/-- Does the attempt at step `i` by its ordinary method pass? -/
def Passes (i : Nat) (rep : StartReport) (s : State) : Prop :=
  if i = 1 then Config.imageOk s.boot.image = true ∧ s.boot.torn = false else rep.normal.getD i false = true

section
variable {i : Nat} {rep : StartReport} {s : State} (wanted : bootOut s.boot.record i ≠ 5)
include wanted

theorem attemptOut_passes (good : Passes i rep s) : attemptOut s rep i false = 2 := by
  unfold attemptOut
  rw [if_neg wanted]
  refine if_pos ?_
  unfold Passes at good
  split at good
  next first => simp [first, good]
  next later => simpa [later] using good

theorem attemptOut_fails (bad : ¬ Passes i rep s) : attemptOut s rep i false = 3 := by
  unfold attemptOut
  rw [if_neg wanted]
  refine if_neg ?_
  unfold Passes at bad
  split at bad
  next first => simpa [first] using bad
  next later => simpa [later] using bad

theorem record_attempted : (attempted i false rep s).boot.record =
    s.boot.record.set i (bootEnd (s.boot.record.getD i 0) (attemptOut s rep i false) (attemptMask i (attemptOut s rep i false) rep s)) := if_neg wanted

theorem alts_attempted : (attempted i false rep s).boot.alts = s.boot.alts.filter (· != i) := if_neg wanted

end

/-! ## A step is complete -/

/-- The contexts, the slots, STEP and DIES. -/
def startPart (m : Mach) : Tab Ctx × Tab Slot × Nat × Nat := (m.ctxs, m.slots, m.dev.step, m.dev.dies)

theorem startPart_drainNotices : ∀ (fuel : Nat) (m : Mach), startPart (drainNotices fuel m) = startPart m
  | 0, _ => rfl
  | fuel + 1, m => by
    unfold drainNotices
    split
    · split
      · exact startPart_drainNotices fuel _
      · rfl
    · rfl

theorem startPart_setPart (m : Mach) : startPart (setPart m) = startPart m := by
  unfold setPart notify
  dsimp only
  split
  · rfl
  · split
    · split
      · exact startPart_drainNotices ..
      · rfl
    · rfl

/-- What a complete step leaves of contexts, slots, STEP and DIES. -/
theorem startPart_bootDone (i out mask : Nat) (rep : StartReport) (m : Mach) : startPart (bootDone i out mask rep m) = (m.ctxs, m.slots, i,
    if i = 2 then 2 ^ 16 - 1 else if i = 3 ∨ i = 4 ∨ i = 5 then m.dev.dies &&& mask else m.dev.dies) := by
  unfold bootDone
  dsimp only
  split
  · rfl
  · split
    · split
      · rfl
      · exact startPart_setPart _
    · split
      · rfl
      · split
        · split
          · rfl
          · exact startPart_setPart _
        · split
          · split
            · rfl
            · exact startPart_setPart _
          · rfl

/-! ## Passing a step -/

section
variable {i : Nat} {rep : StartReport} {s : State}

/-- An attempt that passed found every die good. -/
theorem attemptMask_dies (test : i = 3 ∨ i = 4 ∨ i = 5) : attemptMask i 2 rep s = 2 ^ 16 - 1 := if_pos test

theorem bitAt_zero_and_full (d : Nat) : bitAt (d &&& (2 ^ 16 - 1)) 0 = bitAt d 0 := by
  unfold bitAt
  rw [Nat.and_two_pow_sub_one_eq_mod, pow_zero, Nat.div_one, Nat.div_one, Nat.mod_mod_of_dvd _ (by norm_num)]

/-- A step that passes takes nothing from a full configuration. -/
theorem part_bootDone {m : Mach} (full : m.dev.dies = 2 ^ 16 - 1) : (bootDone i 2 (attemptMask i 2 rep s) rep m).dev.part = m.dev.part := by
  unfold bootDone
  dsimp only
  split
  · rfl
  · split
    next test =>
      rw [attemptMask_dies test, full, Nat.and_self, if_pos rfl]
    next =>
      split
      · rfl
      · split
        · rfl
        · split
          next last =>
            subst last
            rfl
          next => rfl

/-- The state in which the step after one that passed begins. -/
def passed (i : Nat) (rep : StartReport) (s : State) : State :=
  ⟨bootDone i 2 (attemptMask i 2 rep s) rep (attempted i false rep s).m, (attempted i false rep s).boot⟩

theorem die0_passed (die : 3 ≤ i → bitAt s.m.dev.dies 0 = true) (later : 3 ≤ i) : bitAt (passed i rep s).m.dev.dies 0 = true := by
  have dies := congrArg (fun p => p.2.2.2) (startPart_bootDone i 2 (attemptMask i 2 rep s) rep (attempted i false rep s).m)
  refine (congrArg (bitAt · 0) dies).trans ?_
  dsimp only
  rw [if_neg (by omega)]
  split
  next test =>
    rw [attemptMask_dies test, bitAt_zero_and_full]
    exact die later
  next => exact die later

section
variable (wanted : bootOut s.boot.record i ≠ 5)
include wanted

theorem endBoot_passes (good : Passes i rep s) (die : 3 ≤ i → bitAt s.m.dev.dies 0 = true) :
    endBoot i false rep s = beginBoot (i + 1) (passed i rep s) := by
  rw [endBoot_eq, attemptOut_passes wanted good]
  dsimp only
  rw [if_neg (by rintro ⟨-, failed⟩; exact Bool.noConfusion failed), if_neg (by rintro ⟨failed, -⟩; exact Bool.noConfusion failed)]
  refine if_neg ?_
  rintro ⟨later, dead⟩
  rw [show bitAt (bootDone i 2 (attemptMask i 2 rep s) rep (attempted i false rep s).m).dev.dies 0 = true from die0_passed die later] at dead
  exact Bool.noConfusion dead

/-- The record after an attempt has its outcome, whatever follows. -/
theorem bootOut_endBoot (inside : i < s.boot.record.length) :
    bootOut (endBoot i false rep s).boot.record i = attemptOut s rep i false % 8 := by
  have written : bootOut (attempted i false rep s).boot.record i = attemptOut s rep i false % 8 := by
    rw [record_attempted wanted, bootOut_set_self inside, bootEnd_mod]
  rw [endBoot_eq, ← written]
  dsimp only
  split
  · rfl
  · split
    · rfl
    · split
      · rfl
      · exact bootOut_beginBoot_of_ne (Nat.succ_ne_self i)

/-- A start that S0, S2 or S6 stops leaves the module at the step before. -/
theorem endBoot_stops (bad : ¬ Passes i rep s) (stopping : i = 0 ∨ i = 2 ∨ i = 6) :
    (endBoot i false rep s).m.dev = { s.m.dev with start := none } := by
  rw [endBoot_eq, attemptOut_fails wanted bad]
  rcases stopping with rfl | rfl | rfl <;> rfl

end

/-- Firmware that does not verify leaves recovery mode. -/
theorem endBoot_recovers (wanted : bootOut s.boot.record 1 ≠ 5) (bad : ¬ Passes 1 rep s) : (endBoot 1 false rep s).m.dev.recov = true := by
  rw [endBoot_eq, attemptOut_fails wanted bad]
  rfl

/-- What a step that passes leaves in the module. -/
theorem passed_module :
    (passed i rep s).m.ctxs = s.m.ctxs ∧ (passed i rep s).m.slots = s.m.slots ∧ (passed i rep s).m.dev.step = i ∧
    (s.m.dev.dies = 2 ^ 16 - 1 → (passed i rep s).m.dev.part = s.m.dev.part) := by
  have done := startPart_bootDone i 2 (attemptMask i 2 rep s) rep (attempted i false rep s).m
  exact ⟨congrArg Prod.fst done, congrArg (fun p => p.2.1) done, congrArg (fun p => p.2.2.1) done, fun full => part_bootDone full⟩

/-- What each step sets when it passes (R363). -/
theorem passed_sets : (i = 2 → (passed i rep s).m.dev.dies = 2 ^ 16 - 1) ∧ (i = 7 → (passed i rep s).m.dev.span = true) ∧
    (i = 8 → (passed i rep s).m.dev.cxlp = 15) ∧ (i = 6 → (passed i rep s).m.sid = if rep.ptpLocked then rep.ptpTime % 2 ^ 64 else 0) ∧
    (i = 1 → (passed i rep s).m.dev.meas = measurement s.boot.image) := by
  refine ⟨?_, ?_, ?_, ?_, ?_⟩ <;> rintro rfl
  · rfl
  · rfl
  · rfl
  · exact if_congr (by simp) rfl rfl
  · rfl

/-- A step that passes is marked so, and the next one begins. -/
theorem bootOut_next (wanted : bootOut s.boot.record i ≠ 5) (next_ : i + 1 < s.boot.record.length) (wanted' : bootOut s.boot.record (i + 1) ≠ 5)
    (fresh : i + 1 ∉ s.boot.alts) : bootOut (beginBoot (i + 1) (passed i rep s)).boot.record (i + 1) = 1 := by
  have record : (passed i rep s).boot.record = _ := record_attempted wanted
  have alts : (passed i rep s).boot.alts = _ := alts_attempted wanted
  refine bootOut_beginBoot ?_ ?_ ?_
  · rwa [record, List.length_set]
  · rwa [record, bootOut_set_of_ne (Nat.ne_of_lt (Nat.lt_succ_self i))]
  · rw [alts, show (s.boot.alts.filter (· != i)).contains (i + 1) = false by simp [fresh], Bool.and_false]

end

/-! ## Start-up steps -/

section
variable {rep : StartReport} {s : State}

theorem exec_powerOn_begins (start : s.m.dev.start = none) (step : s.m.dev.step = 0) (service : s.m.dev.recov = false) :
    exec (.powerOn rep) s = .next (beginBoot 0 { s with boot := { s.boot with flash := rep.flash } }) := by
  show execPowerOn rep s = _
  unfold execPowerOn
  rw [service, start]
  exact if_pos step

theorem exec_powerOn_ends {i : Nat} (start : s.m.dev.start = some (i, false)) (last : i ≤ 8) (service : s.m.dev.recov = false) :
    exec (.powerOn rep) s = .next (endBoot i false rep s) := by
  show execPowerOn rep s = _
  unfold execPowerOn
  rw [service, start]
  exact if_pos last

end

/-! ## Full service and loss of power (R363, R365) -/

/-- Clearing the late regions of contexts leaves contexts and slots. -/
theorem slots_clearLate (l : List (Nat × Ctx)) (m : Mach) :
    (l.foldl (fun m e => clearRegions (lateRegions e.2) m) m).slots = m.slots ∧ (l.foldl (fun m e => clearRegions (lateRegions e.2) m) m).ctxs = m.ctxs :=
  ⟨foldl_keeps (g := Mach.slots) (f := fun m (e : Nat × Ctx) => clearRegions (lateRegions e.2) m) (fun _ _ => rfl) l m,
    foldl_keeps (g := Mach.ctxs) (f := fun m (e : Nat × Ctx) => clearRegions (lateRegions e.2) m) (fun _ _ => rfl) l m⟩

theorem exec_fullService {s : State} (reduced : s.m.dev.red = true) (step : s.m.dev.step = 8) (service : s.m.dev.recov = false) :
    ∃ t, exec .fullService s = .next t ∧ t.m.dev.red = false ∧ t.m.dev.step = 9 ∧ t.m.slots = s.m.slots ∧ t.m.ctxs = s.m.ctxs ∧
      t.boot = { s.boot with record := t.boot.record } := by
  obtain ⟨slots, contexts⟩ := slots_clearLate s.m.ctxs s.m
  refine ⟨_, show execFullService s = _ from if_neg (by simp [reduced, step, service]), rfl, rfl, slots, contexts, rfl⟩

theorem exec_powerLoss {s : State} {cause : PowerCause}
    (holds : cause = .lost ∨ (∃ x, cause = .overheat x ∧ 8 * 120 < x) ∨ (∃ x, cause = .lowFlow x ∧ x < 40) ∨ (∃ x, cause = .lowInput x ∧ x < 44000)) :
    exec (.powerLoss cause) s = .next (powerOff s) := by
  refine if_pos ?_
  rcases holds with rfl | ⟨x, rfl, past_⟩ | ⟨x, rfl, below⟩ | ⟨x, rfl, below⟩
  · rfl
  · exact decide_eq_true past_
  · exact decide_eq_true below
  · exact decide_eq_true below

/-! ## O56 -/

/-- The commands on flash (R366, R367). -/
theorem flashCommands {s : State} (up : linksUp s.m.dev = true) (idle : s.m.dev.busy = false) :
    let pa := s.m.arg 0
    let n := s.m.arg 1
    let st : Nat → Boot → State := fun v b => { m := { s.m with dev := { s.m.dev with status := v } }, boot := b }
    (n ≠ 0 → tableOk s.m.dev pa n = true → (∀ a ∈ framesOf pa n, tableOk s.m.dev a 1 = true ∧ waitsService s.m.dev a = false) →
      (Config.imageOk (s.m.mem.rdN pa n) = true → exec .fwstage s = .next (st 0 { s.boot with staged := some (s.m.mem.rdN pa n) })) ∧
      (Config.imageOk (s.m.mem.rdN pa n) = false → exec .fwstage s = .next (st 2 { s.boot with staged := none }))) ∧
    (n = 0 → exec .fwcommit s = .next (st 0 { s.boot with record := List.replicate 10 0, alts := [] })) ∧
    (n ≠ 0 → s.boot.staged = none → exec .fwcommit s = .next (st 5 s.boot)) ∧
    (n ≠ 0 → s.boot.staged ≠ none → exec .fwcommit s = .next
      { m := { s.m with dev := { s.m.dev with busy := true } }, boot := { s.boot with torn := true } }) ∧
    (s.m.dev.recov = false → 2 ^ 40 ≤ s.boot.sigIndex → exec .attest s = .next (st 3 s.boot)) ∧
    (s.m.dev.recov = false → tableOk s.m.dev pa 108 = true → waitsService s.m.dev pa = false →
      let rest := s.boot.flash.tail
      (s.boot.sigIndex < 2 ^ 40 → flashWrites s.boot = false → exec .attest s = .next (st 3 { s.boot with flash := rest })) ∧
      (s.boot.sigIndex < 2 ^ 40 → flashWrites s.boot = true → ∃ t, exec .attest s = .next t ∧
        t.boot = { s.boot with sigIndex := s.boot.sigIndex + 1, flash := rest } ∧ t.m.dev.status = 0)) :=
  ⟨fun some_ table frames => ⟨exec_fwstage_verified up idle some_ table frames, exec_fwstage_refused up idle some_ table frames⟩,
    exec_fwcommit_clear up idle, exec_fwcommit_none up idle, exec_fwcommit_staged up idle, exec_attest_exhausted up idle,
    fun service table ready => ⟨exec_attest_unwritten up idle service table ready, exec_attest_signs up idle service table ready⟩⟩

/-- Settles O56: a flash command runs its body (`flashCommand_runs`), an attempt ends in one of the ways of `endBoot_eq`, and what a complete step leaves is
`startPart_bootDone`. -/
theorem firmwareAndPower : Obligations.FirmwareAndPower := by
  intro s
  refine ⟨flashCommands, fun rep start step service => ?_, fun rep i start last service len wanted => ?_, exec_fullService, fun cause => exec_powerLoss⟩
  · refine ⟨_, exec_powerOn_begins start step service, rfl, fun inside wanted => ?_⟩
    exact bootOut_beginBoot inside wanted rfl
  · have inside : i < s.boot.record.length := by omega
    refine ⟨fun good die => ?_, fun bad => ?_⟩
    · obtain ⟨contexts, slots, step, part⟩ := passed_module (i := i) (rep := rep) (s := s)
      obtain ⟨dies, span, ports, clock, meas⟩ := passed_sets (i := i) (rep := rep) (s := s)
      have out := bootOut_endBoot (rep := rep) wanted inside
      rw [attemptOut_passes wanted good, endBoot_passes wanted good die] at out
      exact ⟨_, (exec_powerOn_ends start last service).trans (congrArg _ (endBoot_passes wanted good die)), step, out, rfl,
        bootOut_next wanted (by omega), part, contexts, slots, dies, span, ports, clock, meas⟩
    · refine ⟨_, exec_powerOn_ends start last service, ?_, ?_, endBoot_stops wanted bad⟩
      · rw [bootOut_endBoot wanted inside, attemptOut_fails wanted bad]
      · rintro rfl
        exact endBoot_recovers wanted bad

end Sys2Proof.Claim
end
